-- ==== Sys2Proof/Word.lean ====
section
/-!
DEFINITION. The word types of the HK-40: 64-bit scalar words, 32-bit instruction words, bytes and register numbers.
-/

namespace Sys2Proof

/-- A scalar register value (R13, R298). -/
abbrev Word := BitVec 64

/-- One byte of memory or of a vector register. -/
abbrev Byte := BitVec 8

/-- One instruction word (R27). -/
abbrev IWord := BitVec 32

/-- A register field of an instruction word (R28). -/
abbrev Reg := BitVec 5

end Sys2Proof
end

