-- ==== Sys2Proof/Syntax.lean ====
section
/-!
DEFINITION. The syntax of the HK-40: one constructor of Instr per row of spec/opcode_table.json. The first 183 rows are
instruction words, whose operands are the fields of the word (R28); the other 64 rows are steps of the part that no word
encodes (spec/95_what_each_step_holds.md), whose operands are what their rule names.
-/

namespace Sys2Proof

/-- What can be fenced (R270). -/
inductive Agent where
  | core (lcore : Nat)
  | die (d : Nat)
  | link (port : Nat)
  | host
  deriving DecidableEq, Repr

/-- What can report ready (R273); GDDR7 devices report by MEM_TRAINED. -/
inductive ReadyFn where
  | die (d : Nat)
  | core (lcore : Nat)
  | link (port : Nat)
  | host
  deriving DecidableEq, Repr

/-- An operation that a group controller applies (R320). -/
inductive GroupOp where
  | join
  | leave
  | arrive
  | park
  deriving DecidableEq, Repr

/-- The task a group operation or a held update comes from: its TASKID, its core and control thread, and whether it runs
in Bronze mode (R224, R320). -/
structure Member where
  task : Word
  lcore : Nat
  ctno : Nat
  bronze : Bool
  deriving DecidableEq, Repr

/-- The tag of a held update (R257): fence interval, LCORE, control-thread number, sequence, and the issuing task. -/
structure HeldTag where
  interval : Nat
  lcore : Nat
  ctno : Nat
  seq : Nat
  task : Word
  deriving DecidableEq, Repr

/-- An atomic update on its way to its point of performance (R250, R253): physical address, width in bytes, operation code
(Table 12.1), width code of R38 (5 stands for the u64 of VAMO), operand, its tag when Bronze mode holds it
(R257), and the control thread that issued it. -/
structure Update where
  addr : Nat
  width : BitVec 3
  op : BitVec 3
  value : Word
  held : Option HeldTag
  lcore : Nat
  ctno : Nat
  deriving DecidableEq, Repr

/-- The actions of an Electrum trigger (Table 15.4). -/
structure TrigActs where
  start : Bool
  stop : Bool
  freeze : Bool
  snap : Bool
  deriving DecidableEq, Repr

/-- One instruction word or one step of the part. -/
inductive Instr where
  -- scalar integer, register form (Table 2.4)
  | add (d a b : Reg)
  | sub (d a b : Reg)
  | and (d a b : Reg)
  | or (d a b : Reg)
  | xor (d a b : Reg)
  | shl (d a b : Reg)
  | shr (d a b : Reg)
  | sar (d a b : Reg)
  | slt (d a b : Reg)
  | sltu (d a b : Reg)
  | mul (d a b : Reg)
  | mulh (d a b : Reg)
  | mulhu (d a b : Reg)
  | div (d a b : Reg)
  | divu (d a b : Reg)
  | rem (d a b : Reg)
  | remu (d a b : Reg)
  | min (d a b : Reg)
  | max (d a b : Reg)
  | popc (d a : Reg)
  -- scalar integer, immediate form
  | addImm (d a : Reg) (i : BitVec 16)
  | subImm (d a : Reg) (i : BitVec 16)
  | andImm (d a : Reg) (i : BitVec 16)
  | orImm (d a : Reg) (i : BitVec 16)
  | xorImm (d a : Reg) (i : BitVec 16)
  | shlImm (d a : Reg) (n : BitVec 6)
  | shrImm (d a : Reg) (n : BitVec 6)
  | sarImm (d a : Reg) (n : BitVec 6)
  | sltImm (d a : Reg) (i : BitVec 16)
  | sltuImm (d a : Reg) (i : BitVec 16)
  | mulImm (d a : Reg) (i : BitVec 16)
  | minImm (d a : Reg) (i : BitVec 16)
  | maxImm (d a : Reg) (i : BitVec 16)
  | lim (d : Reg) (i : BitVec 16)
  | limInsert (d : Reg) (h : BitVec 5) (i : BitVec 16)
  | addpc (d : Reg) (o : BitVec 21)
  -- hints, landing pads, memory, control flow
  | nop
  | hint (h : BitVec 21)
  | land
  | landTask
  | ld (d a : Reg) (m : BitVec 5) (i : BitVec 11)
  | st (v a : Reg) (m : BitVec 5) (i : BitVec 11)
  | br (c : BitVec 4) (a b : Reg) (o : BitVec 12)
  | jmp (o : BitVec 21)
  | jal (o : BitVec 21)
  | jalr (d a : Reg) (i : BitVec 16)
  -- scalar floating point; f is the low four bits of the major, 6 to 9 (R37)
  | fadd (f : BitVec 4) (d a b : Reg) (r : BitVec 3)
  | fsub (f : BitVec 4) (d a b : Reg) (r : BitVec 3)
  | fmul (f : BitVec 4) (d a b : Reg) (r : BitVec 3)
  | fdiv (f : BitVec 4) (d a b : Reg) (r : BitVec 3)
  | fsqrt (f : BitVec 4) (d a : Reg) (r : BitVec 3)
  | fma (f : BitVec 4) (d a b c : Reg) (r : BitVec 3)
  | fmin (f : BitVec 4) (d a b : Reg)
  | fmax (f : BitVec 4) (d a b : Reg)
  | fcmp (d a b : Reg) (t : BitVec 5) (c : BitVec 4)
  | fcvt (d a : Reg) (t u : BitVec 5) (r : BitVec 3)
  | fclass (d a : Reg) (t : BitVec 5)
  -- system
  | sysc (n : BitVec 10)
  | brk (n : BitVec 10)
  | sret
  | csrr (d : Reg) (c : BitVec 10)
  | csrw (v : Reg) (c : BitVec 10)
  | waite
  -- atomics, fences, groups, ring
  | amo (d a b : Reg) (sc : BitVec 3) (o : BitVec 2) (p w : BitVec 3)
  | fence (sc : BitVec 3) (k : BitVec 2)
  | gjoin (a : Reg)
  | gleave (a : Reg)
  | gsync (a : Reg)
  | ipost (c a : Reg)
  | iwait (c a : Reg)
  | cas (d a b : Reg) (sc : BitVec 3) (o : BitVec 2) (w : BitVec 1)
  -- queues, tasks, stash, user handlers, tables, nests, engines
  | qpush (q a : Reg)
  | qpop (d q : Reg)
  | qpopVector (d q : Reg)
  | qcnt (d q : Reg)
  | talloc (d : Reg)
  | tfree (a : Reg)
  | tspawn (a b : Reg)
  | tend (a : Reg)
  | tparkGroup (a : Reg)
  | tparkRing (c a : Reg)
  | tparkTag (a : Reg)
  | smap (a b c : Reg)
  | sunmap (a b : Reg)
  | sflush (a b : Reg)
  | uret
  | tmark (a : Reg)
  | algld (t a : Reg)
  | nset (d a b : Reg)
  | nloop (k : BitVec 5)
  | xcopy (t a : Reg)
  | xgath (t a : Reg)
  | xcoll (t a : Reg)
  | xwait (t : Reg)
  -- vector configuration and moves; z is the T bit, f the operand form FM
  | vcfg (d a : Reg) (e : BitVec 4) (g t : BitVec 2) (m : BitVec 1) (sc : BitVec 3)
  | vid (d : Reg) (p : BitVec 3) (z : BitVec 1)
  | vsplat (d b : Reg) (p : BitVec 3) (z : BitVec 1) (f : BitVec 2)
  | vmv (d a : Reg) (p : BitVec 3) (z : BitVec 1)
  | vext (d a b : Reg) (z : BitVec 1) (f : BitVec 2)
  | vlast (d a : Reg) (p : BitVec 3) (z : BitVec 1)
  | vextQ (q a b : Reg) (z : BitVec 1) (f : BitVec 2)
  | vlastQ (q a : Reg) (p : BitVec 3) (z : BitVec 1)
  -- vector integer (Table 18.4)
  | vadd (d a b : Reg) (p : BitVec 3) (z : BitVec 1) (f : BitVec 2)
  | vsub (d a b : Reg) (p : BitVec 3) (z : BitVec 1) (f : BitVec 2)
  | vmul (d a b : Reg) (p : BitVec 3) (z : BitVec 1) (f : BitVec 2)
  | vmulh (d a b : Reg) (p : BitVec 3) (z : BitVec 1) (f : BitVec 2)
  | vmac (d a b : Reg) (p : BitVec 3) (z : BitVec 1) (f : BitVec 2)
  | vdiv (d a b : Reg) (p : BitVec 3) (z : BitVec 1) (f : BitVec 2)
  | vmin (d a b : Reg) (p : BitVec 3) (z : BitVec 1) (f : BitVec 2)
  | vmax (d a b : Reg) (p : BitVec 3) (z : BitVec 1) (f : BitVec 2)
  | vand (d a b : Reg) (p : BitVec 3) (z : BitVec 1) (f : BitVec 2)
  | vor (d a b : Reg) (p : BitVec 3) (z : BitVec 1) (f : BitVec 2)
  | vxor (d a b : Reg) (p : BitVec 3) (z : BitVec 1) (f : BitVec 2)
  | vshl (d a b : Reg) (p : BitVec 3) (z : BitVec 1) (f : BitVec 2)
  | vshr (d a b : Reg) (p : BitVec 3) (z : BitVec 1) (f : BitVec 2)
  | vsar (d a b : Reg) (p : BitVec 3) (z : BitVec 1) (f : BitVec 2)
  | vsadd (d a b : Reg) (p : BitVec 3) (z : BitVec 1) (f : BitVec 2)
  -- vector floating point (Table 18.10); r is the rounding code
  | vfadd (d a b : Reg) (p : BitVec 3) (z : BitVec 1) (f : BitVec 2) (r : BitVec 3)
  | vfsub (d a b : Reg) (p : BitVec 3) (z : BitVec 1) (f : BitVec 2) (r : BitVec 3)
  | vfmul (d a b : Reg) (p : BitVec 3) (z : BitVec 1) (f : BitVec 2) (r : BitVec 3)
  | vfdiv (d a b : Reg) (p : BitVec 3) (z : BitVec 1) (f : BitVec 2) (r : BitVec 3)
  | vfmin (d a b : Reg) (p : BitVec 3) (z : BitVec 1) (f : BitVec 2)
  | vfmax (d a b : Reg) (p : BitVec 3) (z : BitVec 1) (f : BitVec 2)
  | vfscale (d a b : Reg) (p : BitVec 3) (z : BitVec 1) (f : BitVec 2) (r : BitVec 3)
  | vfsplit (d a : Reg) (p : BitVec 3) (z : BitVec 1)
  | vfsqrt (d a : Reg) (p : BitVec 3) (z : BitVec 1) (r : BitVec 3)
  | vfrsqe (d a : Reg) (p : BitVec 3) (z : BitVec 1)
  | vfcvt (d a : Reg) (t : BitVec 5) (p : BitVec 3) (z : BitVec 1) (r : BitVec 3)
  | vfclass (d a : Reg) (p : BitVec 3) (z : BitVec 1)
  | vfma (d a b c : Reg) (p r : BitVec 3)
  | vcmp (d a b : Reg) (p : BitVec 3) (z : BitVec 1) (f : BitVec 2) (c : BitVec 4)
  | vfcmp (d a b : Reg) (p : BitVec 3) (z : BitVec 1) (f : BitVec 2) (c : BitVec 4)
  -- reductions (Table 19.8); k is and, or, xor
  | vrsum (d a b : Reg) (p : BitVec 3) (z : BitVec 1)
  | vrosum (d a b : Reg) (p : BitVec 3) (z : BitVec 1)
  | vrmax (d a b : Reg) (p : BitVec 3) (z : BitVec 1)
  | vrmin (d a b : Reg) (p : BitVec 3) (z : BitVec 1)
  | vrlog (d a b : Reg) (p : BitVec 3) (z : BitVec 1) (k : BitVec 2)
  | vrsumQ (q a b : Reg) (p : BitVec 3) (z : BitVec 1)
  | vrosumQ (q a b : Reg) (p : BitVec 3) (z : BitVec 1)
  | vrmaxQ (q a b : Reg) (p : BitVec 3) (z : BitVec 1)
  | vrminQ (q a b : Reg) (p : BitVec 3) (z : BitVec 1)
  | vrlogQ (q a b : Reg) (p : BitVec 3) (z : BitVec 1) (k : BitVec 2)
  -- permutes
  | vslup (d a b : Reg) (p : BitVec 3) (z : BitVec 1) (f : BitVec 2)
  | vsldn (d a b : Reg) (p : BitVec 3) (z : BitVec 1) (f : BitVec 2)
  | vperm (d a b : Reg) (p : BitVec 3) (z : BitVec 1)
  | vcompr (d a : Reg) (p : BitVec 3) (z : BitVec 1)
  | vmerge (d a b : Reg) (p : BitVec 3) (z : BitVec 1) (f : BitVec 2)
  -- predicates
  | pand (d a b : Reg) (p : BitVec 3) (z : BitVec 1)
  | por (d a b : Reg) (p : BitVec 3) (z : BitVec 1)
  | pxor (d a b : Reg) (p : BitVec 3) (z : BitVec 1)
  | pnot (d a : Reg) (p : BitVec 3) (z : BitVec 1)
  | pset (d b : Reg) (p : BitVec 3) (z : BitVec 1)
  | pfirst (d a : Reg) (p : BitVec 3) (z : BitVec 1)
  | pbrkBefore (d a : Reg) (p : BitVec 3) (z : BitVec 1)
  | pbrkThru (d a : Reg) (p : BitVec 3) (z : BitVec 1)
  | pcnt (d a : Reg) (p : BitVec 3) (z : BitVec 1)
  | pcntQ (q a : Reg) (p : BitVec 3) (z : BitVec 1)
  -- dependences
  | vdep (d a : Reg) (p : BitVec 3) (z : BitVec 1)
  | vdepx (d a b : Reg) (p : BitVec 3) (z : BitVec 1)
  | vpart (d a b : Reg) (z : BitVec 1)
  -- algebra; g is the table
  | vamul (d a b : Reg) (p : BitVec 3) (z : BitVec 1) (g : BitVec 2)
  | vaconj (d a : Reg) (p : BitVec 3) (z : BitVec 1) (g : BitVec 2)
  | vaconjRev (d a : Reg) (p : BitVec 3) (z : BitVec 1) (g : BitVec 2)
  | vanorm (d a : Reg) (p : BitVec 3) (z : BitVec 1) (g : BitVec 2)
  | vasand (d a b : Reg) (p : BitVec 3) (z : BitVec 1) (g : BitVec 2)
  -- vector memory; m is the memory format
  | vld (d a : Reg) (p : BitVec 3) (z : BitVec 1) (m : BitVec 5)
  | vlds (d a b : Reg) (p : BitVec 3) (z : BitVec 1) (m : BitVec 5)
  | vldx (d a b : Reg) (p : BitVec 3) (z : BitVec 1) (m : BitVec 5)
  | vldff (d a b : Reg) (p : BitVec 3) (z : BitVec 1) (m : BitVec 5)
  | vst (v a : Reg) (p : BitVec 3) (z : BitVec 1) (m : BitVec 5)
  | vsts (v a b : Reg) (p : BitVec 3) (z : BitVec 1) (m : BitVec 5)
  | vstx (v a b : Reg) (p : BitVec 3) (z : BitVec 1) (m : BitVec 5)
  | vpref (a : Reg) (p : BitVec 3) (z : BitVec 1) (m : BitVec 5)
  | vldseg (d a n : Reg) (p : BitVec 3) (z : BitVec 1) (m : BitVec 5)
  | vstseg (v a n : Reg) (p : BitVec 3) (z : BitVec 1) (m : BitVec 5)
  | vamo (v a b c : Reg) (p o : BitVec 3)
  -- matrix
  | mmac (t a b : Reg)
  | mzero (t : Reg)
  | mldacc (t a : Reg)
  | mcb (c a : Reg)
  | mfill (d a : Reg) (m : BitVec 5) (e : BitVec 1) (g : BitVec 2) (sd : BitVec 1)
  | mdrainMemory (t a b : Reg) (m : BitVec 5)
  | mdrainRegister (t v : Reg) (m : BitVec 5)
  -- steps of the part
  | laneIssue (core : Nat)
  | arrayIssue (core : Nat)
  | vectorComplete (core ctno : Nat)
  | translationInvalidate (line : Nat)
  | writebackForward (line : Nat)
  | stashRemoteRead (line : Nat)
  | stashRemoteWrite (line : Nat)
  | updateArrival (u : Update)
  | chainApply (dword : Nat)
  | taskStart (core ctno : Nat)
  | groupOpApply (g : Nat) (op : GroupOp) (m : Member)
  | orderPointApply (chan : Nat) (v : Word)
  | ringHop (chan die : Nat)
  | jobStart (core : Nat)
  | jobComplete (core : Nat)
  | jobPageFault (core : Nat)
  | fillRowWrite (core : Nat)
  | ulDelivery
  | preempt
  | contain
  | pageAbsentService
  | panelRefill
  | trapReflect
  | taskTrapEnd
  | tailSnoop (q : Nat)
  | registerQueue (q : Nat) (qrec : List Byte)
  | unregisterQueue (q : Nat)
  | setPowerCap (watts : Nat)
  | getFwInfo
  | transferFw (image : List Byte)
  | activateFw
  | getMeasurements
  | hostMemRead (addr len : Nat)
  | hostMemWrite (addr : Nat) (bytes : List Byte)
  | backInvalidateResponse (line : Nat)
  | peerAccess (port off : Nat) (bytes : List Byte)
  | linkReplay (port : Nat)
  | deviceReset
  | readyReport (f : ReadyFn)
  | memTrained (dev : Nat)
  | agentTimeout (a : Agent)
  | internalError (a : Agent)
  | spareService (cluster : Nat)
  | columnFail (core : Nat)
  | bstoreParityError (core row : Nat)
  | clockChange (die : Nat) (code cause : BitVec 8)
  | ectlClr (die : Nat)
  | ectlUnfreeze (die : Nat)
  | elostClear (die : Nat)
  | counterClear (die k : Nat)
  | histClear (die core engine : Nat)
  | trigFiredClear (die n : Nat)
  | electrumRegisterWrite (die off : Nat) (v : Word)
  | engineRequestDone (core engine latency : Nat)
  | triggerGlobalArrival (die : Nat) (acts : TrigActs) (carried : Nat)
  | illegalInstruction (w : IWord)
  | storeBufferDrain
  | dirtyWriteback (line : Nat)
  | hardwarePrefetch (va : Word)
  | cxlCacheSnoop (line : Nat)
  | memDeviceFailure (dev : Nat)
  | spillAreaExtension (core more : Nat)
  | codeObjectLoad (image : List Byte) (pa : Nat) (va : Word) (profset : BitVec 4)
  | spdmRequest (req : List Byte)
  deriving DecidableEq, Repr

end Sys2Proof
end

