-- ==== Sys2Proof/WellFormed.lean ====
section
/-!
DEFINITION. Which instructions are well formed: every field holds a value that R29, R38 to R46 assign. For a step of the part,
the operands name an existing die, core, queue or device.
-/

namespace Sys2Proof

/-- A rounding code that an instruction with a rounding field accepts (Table 2.12): all but 0b110. -/
def rndOk (r : BitVec 3) : Bool := r != 6

/-- MF codes marked for LD, ST (Table 2.11). -/
def scalarMfOk (m : BitVec 5) : Bool := (1 ≤ m && m ≤ 7) || (0x0A ≤ m && m ≤ 0x0D)

/-- MF codes marked for every vector memory instruction (Table 2.11). -/
def vecMfOk (m : BitVec 5) : Bool := m ≤ 0x0F

/-- MF codes marked for VLD, VLDS and VLDX: .se8 and .sf8 as well (Table 2.11). -/
def loadMfOk (m : BitVec 5) : Bool := m ≤ 0x0F || m == 0x12 || m == 0x13

/-- MF codes marked for MFILL (Table 2.11). -/
def fillMfOk (m : BitVec 5) : Bool :=
  m == 0x01 || m == 0x08 || m == 0x09 || m == 0x0A || m == 0x0F || m == 0x10 || m == 0x11

/-- MF codes marked for MDRAIN (Table 2.11). -/
def drainMfOk (m : BitVec 5) : Bool := (1 ≤ m && m ≤ 3) || (0x08 ≤ m && m ≤ 0x0C)

/-- CSR numbers of Table 2.7 and the firmware range (R39). -/
def csrOk (c : BitVec 10) : Bool := c ≤ 0x00D || (0x100 ≤ c && c ≤ 0x107) || 0x200 ≤ c

/-- Formats of the scalar floating-point majors 0x16 to 0x19 (R37). -/
def ffmtOk (f : BitVec 4) : Bool := 6 ≤ f && f ≤ 9

/-- Type codes of bf16, fp16, fp32 and fp64 (Table 2.8). -/
def ftypeOk (t : BitVec 5) : Bool := 10 ≤ t && t ≤ 13

/-- Scope codes (Table 2.12). -/
def scopeOk (sc : BitVec 3) : Bool := sc < 6

/-- A predicate, queue, tile or codebook field (Table 2.2). -/
def low8 (r : Reg) : Bool := r < 8

def Agent.wf : Agent → Bool
  | .core n => decide (n < 128)
  | .die d => decide (d < 4)
  | .link p => decide (p < 16)
  | .host => true

def ReadyFn.wf : ReadyFn → Bool
  | .die d => decide (d < 4)
  | .core n => decide (n < 128)
  | .link p => decide (p < 16)
  | .host => true

/-- Every field holds an assigned value. -/
def Instr.wf : Instr → Bool
  | .add _ _ _ => true
  | .sub _ _ _ => true
  | .and _ _ _ => true
  | .or _ _ _ => true
  | .xor _ _ _ => true
  | .shl _ _ _ => true
  | .shr _ _ _ => true
  | .sar _ _ _ => true
  | .slt _ _ _ => true
  | .sltu _ _ _ => true
  | .mul _ _ _ => true
  | .mulh _ _ _ => true
  | .mulhu _ _ _ => true
  | .div _ _ _ => true
  | .divu _ _ _ => true
  | .rem _ _ _ => true
  | .remu _ _ _ => true
  | .min _ _ _ => true
  | .max _ _ _ => true
  | .popc _ _ => true
  | .addImm _ _ _ => true
  | .subImm _ _ _ => true
  | .andImm _ _ _ => true
  | .orImm _ _ _ => true
  | .xorImm _ _ _ => true
  | .shlImm _ _ _ => true
  | .shrImm _ _ _ => true
  | .sarImm _ _ _ => true
  | .sltImm _ _ _ => true
  | .sltuImm _ _ _ => true
  | .mulImm _ _ _ => true
  | .minImm _ _ _ => true
  | .maxImm _ _ _ => true
  | .lim _ _ => true
  | .limInsert _ h _ => 1 ≤ h && h ≤ 3
  | .addpc _ _ => true
  | .nop => true
  | .hint h => h != 0
  | .land => true
  | .landTask => true
  | .ld _ _ m _ => scalarMfOk m
  | .st _ _ m _ => scalarMfOk m
  | .br c _ _ _ => c < 10
  | .jmp _ => true
  | .jal _ => true
  | .jalr _ _ _ => true
  | .fadd f _ _ _ r => ffmtOk f && rndOk r
  | .fsub f _ _ _ r => ffmtOk f && rndOk r
  | .fmul f _ _ _ r => ffmtOk f && rndOk r
  | .fdiv f _ _ _ r => ffmtOk f && rndOk r
  | .fsqrt f _ _ r => ffmtOk f && rndOk r
  | .fma f _ _ _ _ r => ffmtOk f && rndOk r
  | .fmin f _ _ _ => ffmtOk f
  | .fmax f _ _ _ => ffmtOk f
  | .fcmp _ _ _ t c => ftypeOk t && c < 6
  | .fcvt _ _ t u r => t ≤ 13 && u ≤ 13 && (8 ≤ t || 8 ≤ u) && rndOk r
  | .fclass _ _ t => ftypeOk t
  | .sysc _ => true
  | .brk _ => true
  | .sret => true
  | .csrr _ c => csrOk c
  | .csrw _ c => csrOk c
  | .waite => true
  | .amo _ _ _ sc _ p w => scopeOk sc && p != 7 && w ≤ 4 && (w < 3 || p < 3 || p == 6)
  | .fence sc _ => scopeOk sc
  | .gjoin _ => true
  | .gleave _ => true
  | .gsync _ => true
  | .ipost c _ => c < 16
  | .iwait c _ => c < 16
  | .cas _ _ _ sc _ _ => scopeOk sc
  | .qpush q _ => low8 q
  | .qpop _ q => 4 ≤ q && q < 8
  | .qpopVector _ q => q < 4
  | .qcnt _ q => low8 q
  | .talloc _ => true
  | .tfree _ => true
  | .tspawn _ _ => true
  | .tend _ => true
  | .tparkGroup _ => true
  | .tparkRing c _ => c < 16
  | .tparkTag _ => true
  | .smap _ _ _ => true
  | .sunmap _ _ => true
  | .sflush _ _ => true
  | .uret => true
  | .tmark _ => true
  | .algld t _ => t < 4
  | .nset d _ _ => d < 6
  | .nloop _ => true
  | .xcopy _ _ => true
  | .xgath _ _ => true
  | .xcoll _ _ => true
  | .xwait _ => true
  | .vcfg _ _ e _ t _ sc => e ≤ 13 && t != 3 && scopeOk sc
  | .vid _ _ _ => true
  | .vsplat _ _ _ _ f => f == 1 || f == 2
  | .vmv _ _ _ _ => true
  | .vext _ _ _ _ f => f == 1 || f == 2
  | .vlast _ _ _ _ => true
  | .vextQ q _ _ _ f => low8 q && (f == 1 || f == 2)
  | .vlastQ q _ _ _ => low8 q
  | .vadd _ _ _ _ _ f => f != 3
  | .vsub _ _ _ _ _ f => f != 3
  | .vmul _ _ _ _ _ f => f != 3
  | .vmulh _ _ _ _ _ f => f != 3
  | .vmac _ _ _ _ _ f => f != 3
  | .vdiv _ _ _ _ _ f => f != 3
  | .vmin _ _ _ _ _ f => f != 3
  | .vmax _ _ _ _ _ f => f != 3
  | .vand _ _ _ _ _ f => f != 3
  | .vor _ _ _ _ _ f => f != 3
  | .vxor _ _ _ _ _ f => f != 3
  | .vshl _ _ _ _ _ f => f != 3
  | .vshr _ _ _ _ _ f => f != 3
  | .vsar _ _ _ _ _ f => f != 3
  | .vsadd _ _ _ _ _ f => f != 3
  | .vfadd _ _ _ _ _ f r => f < 2 && rndOk r
  | .vfsub _ _ _ _ _ f r => f < 2 && rndOk r
  | .vfmul _ _ _ _ _ f r => f < 2 && rndOk r
  | .vfdiv _ _ _ _ _ f r => f < 2 && rndOk r
  | .vfmin _ _ _ _ _ f => f < 2
  | .vfmax _ _ _ _ _ f => f < 2
  | .vfscale _ _ _ _ _ f r => f < 2 && rndOk r
  | .vfsplit _ _ _ _ => true
  | .vfsqrt _ _ _ _ r => rndOk r
  | .vfrsqe _ _ _ _ => true
  | .vfcvt _ _ t _ _ r => t ≤ 13 && rndOk r
  | .vfclass _ _ _ _ => true
  | .vfma _ _ _ _ _ r => rndOk r
  | .vcmp d _ _ _ _ f c => low8 d && f != 3 && c < 10
  | .vfcmp d _ _ _ _ f c => low8 d && f < 2 && c < 6
  | .vrsum _ _ _ _ _ => true
  | .vrosum _ _ _ _ _ => true
  | .vrmax _ _ _ _ _ => true
  | .vrmin _ _ _ _ _ => true
  | .vrlog _ _ _ _ _ k => k != 3
  | .vrsumQ q _ _ _ _ => low8 q
  | .vrosumQ q _ _ _ _ => low8 q
  | .vrmaxQ q _ _ _ _ => low8 q
  | .vrminQ q _ _ _ _ => low8 q
  | .vrlogQ q _ _ _ _ k => low8 q && k != 3
  | .vslup _ _ _ _ _ f => f == 1 || f == 2
  | .vsldn _ _ _ _ _ f => f == 1 || f == 2
  | .vperm _ _ _ _ _ => true
  | .vcompr _ _ _ _ => true
  | .vmerge _ _ _ _ _ f => f != 3
  | .pand d a b _ _ => low8 d && low8 a && low8 b
  | .por d a b _ _ => low8 d && low8 a && low8 b
  | .pxor d a b _ _ => low8 d && low8 a && low8 b
  | .pnot d a _ _ => low8 d && low8 a
  | .pset d _ _ _ => low8 d
  | .pfirst d a _ _ => low8 d && low8 a
  | .pbrkBefore d a _ _ => low8 d && low8 a
  | .pbrkThru d a _ _ => low8 d && low8 a
  | .pcnt _ a _ _ => low8 a
  | .pcntQ q a _ _ => low8 q && low8 a
  | .vdep _ _ _ _ => true
  | .vdepx _ _ _ _ _ => true
  | .vpart d _ b _ => low8 d && low8 b
  | .vamul _ _ _ _ _ _ => true
  | .vaconj _ _ _ _ _ => true
  | .vaconjRev _ _ _ _ _ => true
  | .vanorm _ _ _ _ _ => true
  | .vasand _ _ _ _ _ _ => true
  | .vld _ _ _ _ m => loadMfOk m
  | .vlds _ _ _ _ _ m => loadMfOk m
  | .vldx _ _ _ _ _ m => loadMfOk m
  | .vldff _ _ b _ _ m => low8 b && vecMfOk m
  | .vst _ _ _ _ m => vecMfOk m
  | .vsts _ _ _ _ _ m => vecMfOk m
  | .vstx _ _ _ _ _ m => vecMfOk m
  | .vpref _ _ _ m => vecMfOk m
  | .vldseg _ _ n _ _ m => 2 ≤ n && n ≤ 8 && vecMfOk m
  | .vstseg _ _ n _ _ m => 2 ≤ n && n ≤ 8 && vecMfOk m
  | .vamo _ _ _ _ _ o => o != 7
  | .mmac t _ _ => low8 t
  | .mzero t => low8 t
  | .mldacc t _ => low8 t
  | .mcb c _ => low8 c
  | .mfill _ _ m e g sd => fillMfOk m && (e == 1 || (g == 0 && sd == 0))
  | .mdrainMemory t _ _ m => low8 t && drainMfOk m
  | .mdrainRegister t _ m => low8 t && drainMfOk m
  | .laneIssue c => decide (c < 128)
  | .arrayIssue c => decide (c < 128)
  | .vectorComplete c t => decide (c < 128 ∧ t < 4)
  | .translationInvalidate _ => true
  | .writebackForward _ => true
  | .stashRemoteRead _ => true
  | .stashRemoteWrite _ => true
  | .updateArrival u => u.width ≤ 5 && u.op != 7 && u.addr % 4 == 0 && (u.addr % 8 == 0 || u.width == 0 || u.width == 2 || u.width == 3) && decide (u.lcore < 128) && decide (u.ctno < 4)
  | .chainApply _ => true
  | .taskStart c t => decide (c < 128 ∧ t < 4)
  | .groupOpApply g _ _ => decide (g < 4096)
  | .orderPointApply c _ => decide (c < 16)
  | .ringHop c d => decide (c < 16 ∧ d < 4)
  | .jobStart c => decide (c < 128)
  | .jobComplete c => decide (c < 128)
  | .jobPageFault c => decide (c < 128)
  | .fillRowWrite c => decide (c < 128)
  | .ulDelivery => true
  | .preempt => true
  | .contain => true
  | .pageAbsentService => true
  | .panelRefill => true
  | .trapReflect => true
  | .taskTrapEnd => true
  | .tailSnoop _ => true
  | .registerQueue _ _ => true
  | .unregisterQueue _ => true
  | .setPowerCap _ => true
  | .getFwInfo => true
  | .transferFw _ => true
  | .activateFw => true
  | .getMeasurements => true
  | .hostMemRead _ _ => true
  | .hostMemWrite _ _ => true
  | .backInvalidateResponse _ => true
  | .peerAccess p _ _ => decide (p < 16)
  | .linkReplay p => decide (p < 16)
  | .deviceReset => true
  | .readyReport f => f.wf
  | .memTrained d => decide (d < 32)
  | .agentTimeout a => a.wf
  | .internalError a => a.wf
  | .spareService c => decide (c < 32)
  | .columnFail c => decide (c < 128)
  | .bstoreParityError c r => decide (c < 128 ∧ r < 384)
  | .clockChange d code _ => decide (d < 4) && code ≤ 3
  | .ectlClr d => decide (d < 4)
  | .ectlUnfreeze d => decide (d < 4)
  | .elostClear d => decide (d < 4)
  | .counterClear d k => decide (d < 4 ∧ k < 4)
  | .histClear d c e => decide (d < 4 ∧ c < 32 ∧ e < 4)
  | .trigFiredClear d n => decide (d < 4 ∧ n < 4)
  | .electrumRegisterWrite d _ _ => decide (d < 4)
  | .engineRequestDone c e _ => decide (c < 128 ∧ e < 4)
  | .triggerGlobalArrival d _ _ => decide (d < 4)
  | .illegalInstruction _ => true
  | .storeBufferDrain => true
  | .dirtyWriteback _ => true
  | .hardwarePrefetch _ => true
  | .cxlCacheSnoop _ => true
  | .memDeviceFailure d => decide (d < 32)
  | .spillAreaExtension c _ => decide (c < 128)
  | .codeObjectLoad _ _ _ _ => true
  | .spdmRequest _ => true

end Sys2Proof
end

