-- ==== Sys2Proof/Decode.lean ====
section
/-!
DEFINITION. The decoder and the encoder of the instruction words (R27 to R46). The decoder is total: it answers the
instruction a word stands for, or none where R46 makes the word ILLEGAL.
-/

namespace Sys2Proof

/-! The layouts of Table 2.1. -/

def layRR (maj : BitVec 6) (d a b c : Reg) (f : BitVec 6) : IWord := maj ++ d ++ a ++ b ++ c ++ f
def layRI (maj : BitVec 6) (d a : Reg) (i : BitVec 16) : IWord := maj ++ d ++ a ++ i
def layMF (maj : BitVec 6) (d a : Reg) (m : BitVec 5) (i : BitVec 11) : IWord := maj ++ d ++ a ++ m ++ i
def layBR (maj : BitVec 6) (oh a b : BitVec 5) (ol : BitVec 7) (c : BitVec 4) : IWord := maj ++ oh ++ a ++ b ++ ol ++ c
def layJ (maj : BitVec 6) (d : Reg) (o : BitVec 21) : IWord := maj ++ d ++ o
def layV (maj : BitVec 6) (d a b : Reg) (p : BitVec 3) (t : BitVec 1) (fm : BitVec 2) (f : BitVec 5) : IWord :=
  maj ++ d ++ a ++ b ++ p ++ t ++ fm ++ f
def layCfg (maj : BitVec 6) (d a : Reg) (e : BitVec 4) (g t : BitVec 2) (m : BitVec 1) (sc : BitVec 3) (z : BitVec 4) : IWord :=
  maj ++ d ++ a ++ e ++ g ++ t ++ m ++ sc ++ z
def layVX (maj : BitVec 6) (d a b c : Reg) (p f : BitVec 3) : IWord := maj ++ d ++ a ++ b ++ c ++ p ++ f
def layMX (maj : BitVec 6) (d a b mf : BitVec 5) (ae : BitVec 1) (tb : BitVec 2) (sd : BitVec 1) (f : BitVec 2) : IWord :=
  maj ++ d ++ a ++ b ++ mf ++ ae ++ tb ++ sd ++ f
def laySY (maj : BitVec 6) (d a b : Reg) (sc : BitVec 3) (o : BitVec 2) (f : BitVec 6) : IWord :=
  maj ++ d ++ a ++ b ++ sc ++ o ++ f
def layCsr (maj : BitVec 6) (d : Reg) (c : BitVec 10) (z : BitVec 5) (f : BitVec 6) : IWord := maj ++ d ++ c ++ z ++ f

/-! The fields of a word. -/

def fMaj (w : IWord) : BitVec 6 := w.extractLsb' 26 6
def fD (w : IWord) : Reg := w.extractLsb' 21 5
def fA (w : IWord) : Reg := w.extractLsb' 16 5
def fB (w : IWord) : Reg := w.extractLsb' 11 5
def fC (w : IWord) : Reg := w.extractLsb' 6 5
def fF6 (w : IWord) : BitVec 6 := w.extractLsb' 0 6
def fI16 (w : IWord) : BitVec 16 := w.extractLsb' 0 16
def fI11 (w : IWord) : BitVec 11 := w.extractLsb' 0 11
def fO21 (w : IWord) : BitVec 21 := w.extractLsb' 0 21
def fOL (w : IWord) : BitVec 7 := w.extractLsb' 4 7
def fCnd (w : IWord) : BitVec 4 := w.extractLsb' 0 4
def fP (w : IWord) : BitVec 3 := w.extractLsb' 8 3
def fT (w : IWord) : BitVec 1 := w.extractLsb' 7 1
def fFM (w : IWord) : BitVec 2 := w.extractLsb' 5 2
def fF5 (w : IWord) : BitVec 5 := w.extractLsb' 0 5
def fPX (w : IWord) : BitVec 3 := w.extractLsb' 3 3
def fFX (w : IWord) : BitVec 3 := w.extractLsb' 0 3
def fE (w : IWord) : BitVec 4 := w.extractLsb' 12 4
def fG (w : IWord) : BitVec 2 := w.extractLsb' 10 2
def fTP (w : IWord) : BitVec 2 := w.extractLsb' 8 2
def fMP (w : IWord) : BitVec 1 := w.extractLsb' 7 1
def fScope (w : IWord) : BitVec 3 := w.extractLsb' 4 3
def fAE (w : IWord) : BitVec 1 := w.extractLsb' 5 1
def fTB (w : IWord) : BitVec 2 := w.extractLsb' 3 2
def fSD (w : IWord) : BitVec 1 := w.extractLsb' 2 1
def fFM2 (w : IWord) : BitVec 2 := w.extractLsb' 0 2
def fSC (w : IWord) : BitVec 3 := w.extractLsb' 8 3
def fOR (w : IWord) : BitVec 2 := w.extractLsb' 6 2
def fCsr (w : IWord) : BitVec 10 := w.extractLsb' 11 10
def fOp3 (w : IWord) : BitVec 3 := w.extractLsb' 3 3

/-- An instruction if it is well formed, and none otherwise. -/
def ok (i : Instr) : Option Instr := if i.wf then some i else none

/-- An instruction if a must-be-zero condition holds and it is well formed. -/
def okIf (c : Bool) (i : Instr) : Option Instr := if c && i.wf then some i else none

/-- Major 0x01 (R47). -/
def decHint (w : IWord) : Option Instr :=
  if fD w = 0 then (if fO21 w = 0 then some .nop else some (.hint (fO21 w)))
  else if fD w = 1 then (if fO21 w = 0 then some .land else if fO21 w = 1 then some .landTask else none)
  else none

/-- Major 0x02, Table 2.4. -/
def decAlu (w : IWord) : Option Instr :=
  let d := fD w; let a := fA w; let b := fB w
  if fC w ≠ 0 then none else
  match (fF6 w).toNat with
  | 0x00 => some (.add d a b)
  | 0x01 => some (.sub d a b)
  | 0x02 => some (.and d a b)
  | 0x03 => some (.or d a b)
  | 0x04 => some (.xor d a b)
  | 0x05 => some (.shl d a b)
  | 0x06 => some (.shr d a b)
  | 0x07 => some (.sar d a b)
  | 0x08 => some (.slt d a b)
  | 0x09 => some (.sltu d a b)
  | 0x0A => some (.mul d a b)
  | 0x0B => some (.mulh d a b)
  | 0x0C => some (.mulhu d a b)
  | 0x0D => some (.div d a b)
  | 0x0E => some (.divu d a b)
  | 0x0F => some (.rem d a b)
  | 0x10 => some (.remu d a b)
  | 0x11 => some (.min d a b)
  | 0x12 => some (.max d a b)
  | 0x13 => okIf (b == 0) (.popc d a)
  | _ => none

/-- Major 0x08 (R33): I[15:8] zero, I[7:6] the shift, I[5:0] the amount. -/
def decShift (w : IWord) : Option Instr :=
  if fB w ≠ 0 ∨ fSC w ≠ 0 then none else
  match (fOR w).toNat with
  | 0 => some (.shlImm (fD w) (fA w) (fF6 w))
  | 1 => some (.shrImm (fD w) (fA w) (fF6 w))
  | 2 => some (.sarImm (fD w) (fA w) (fF6 w))
  | _ => none

/-- Majors 0x16 to 0x19, Table 2.5: f is the low four bits of the major. -/
def decFp (f : BitVec 4) (w : IWord) : Option Instr :=
  let d := fD w; let a := fA w; let b := fB w; let c := fC w; let r := fOp3 w
  match (fFX w).toNat with
  | 0 => okIf (c == 0) (.fadd f d a b r)
  | 1 => okIf (c == 0) (.fsub f d a b r)
  | 2 => okIf (c == 0) (.fmul f d a b r)
  | 3 => okIf (c == 0) (.fdiv f d a b r)
  | 4 => okIf (b == 0 && c == 0) (.fsqrt f d a r)
  | 5 => ok (.fma f d a b c r)
  | 6 => okIf (c == 0 && r == 7) (.fmin f d a b)
  | _ => okIf (c == 0 && r == 7) (.fmax f d a b)

/-- Major 0x1A, Table 2.5. -/
def decFcmp (w : IWord) : Option Instr :=
  let d := fD w; let a := fA w; let b := fB w; let c := fC w
  match (w.extractLsb' 4 2).toNat with
  | 0 => ok (.fcmp d a b c (fCnd w))
  | 1 => okIf (w.extractLsb' 0 1 == 0) (.fcvt d a b c (w.extractLsb' 1 3))
  | 2 => okIf (b == 0 && fCnd w == 0) (.fclass d a c)
  | _ => none

/-- Major 0x1B, Table 2.6. -/
def decSys (w : IWord) : Option Instr :=
  let d := fD w; let n := fCsr w
  if fC w ≠ 0 then none else
  match (fF6 w).toNat with
  | 0x00 => okIf (d == 0) (.sysc n)
  | 0x01 => okIf (d == 0) (.brk n)
  | 0x02 => okIf (d == 0 && n == 0) .sret
  | 0x03 => ok (.csrr d n)
  | 0x04 => ok (.csrw d n)
  | 0x05 => okIf (d == 0 && n == 0) .waite
  | _ => none

/-- Major 0x1D, Table 2.6. -/
def decSync (w : IWord) : Option Instr :=
  let d := fD w; let a := fA w; let b := fB w; let sc := fSC w; let o := fOR w
  match (fF6 w).toNat with
  | 0x00 => okIf (d == 0 && a == 0 && b == 0 && o == 0) (.fence sc 0)
  | 0x01 => okIf (d == 0 && a == 0 && b == 0 && o == 0) (.fence sc 1)
  | 0x02 => okIf (d == 0 && a == 0 && b == 0 && o == 0) (.fence sc 2)
  | 0x03 => okIf (d == 0 && a == 0 && b == 0 && o == 0) (.fence sc 3)
  | 0x04 => okIf (d == 0 && b == 0 && sc == 0 && o == 0) (.gjoin a)
  | 0x05 => okIf (d == 0 && b == 0 && sc == 0 && o == 0) (.gleave a)
  | 0x06 => okIf (d == 0 && b == 0 && sc == 0 && o == 0) (.gsync a)
  | 0x07 => okIf (b == 0 && sc == 0 && o == 0) (.ipost d a)
  | 0x08 => okIf (b == 0 && sc == 0 && o == 0) (.iwait d a)
  | 0x10 => ok (.cas d a b sc o 0)
  | 0x11 => ok (.cas d a b sc o 1)
  | _ => none

/-- Major 0x1E, Table 2.6. -/
def decCtl (w : IWord) : Option Instr :=
  let d := fD w; let a := fA w; let b := fB w; let c := fC w
  match (fF6 w).toNat with
  | 0x00 => okIf (b == 0 && c == 0) (.qpush d a)
  | 0x01 => okIf (b == 0 && c == 0) (if a < 4 then .qpopVector d a else .qpop d a)
  | 0x02 => okIf (b == 0 && c == 0) (.qcnt d a)
  | 0x08 => okIf (a == 0 && b == 0 && c == 0) (.talloc d)
  | 0x09 => okIf (d == 0 && b == 0 && c == 0) (.tfree a)
  | 0x0A => okIf (d == 0 && c == 0) (.tspawn a b)
  | 0x0B => okIf (d == 0 && b == 0 && c == 0) (.tend a)
  | 0x0C => okIf (d == 0 && b == 0 && c == 0) (.tparkGroup a)
  | 0x0D => okIf (b == 0 && c == 0) (.tparkRing d a)
  | 0x0E => okIf (d == 0 && b == 0 && c == 0) (.tparkTag a)
  | 0x10 => okIf (d == 0) (.smap a b c)
  | 0x11 => okIf (d == 0 && c == 0) (.sunmap a b)
  | 0x12 => okIf (d == 0 && c == 0) (.sflush a b)
  | 0x13 => okIf (d == 0 && a == 0 && b == 0 && c == 0) .uret
  | 0x14 => okIf (d == 0 && b == 0 && c == 0) (.tmark a)
  | 0x18 => okIf (b == 0 && c == 0) (.algld d a)
  | 0x1A => okIf (c == 0) (.nset d a b)
  | 0x1B => okIf (a == 0 && b == 0 && c == 0) (.nloop d)
  | _ => none

/-- Major 0x1F, Table 2.6. -/
def decEng (w : IWord) : Option Instr :=
  let d := fD w; let a := fA w
  if fB w ≠ 0 ∨ fC w ≠ 0 then none else
  match (fF6 w).toNat with
  | 0x00 => some (.xcopy d a)
  | 0x01 => some (.xgath d a)
  | 0x02 => some (.xcoll d a)
  | 0x03 => okIf (a == 0) (.xwait d)
  | _ => none

/-- Major 0x20 (R40). -/
def decVcfg (w : IWord) : Option Instr :=
  okIf (fCnd w == 0) (.vcfg (fD w) (fA w) (fE w) (fG w) (fTP w) (fMP w) (fScope w))

/-- Major 0x21, Table 2.9. -/
def decMove (w : IWord) : Option Instr :=
  let d := fD w; let a := fA w; let b := fB w; let p := fP w; let z := fT w; let f := fFM w
  match (fF5 w).toNat with
  | 0x00 => okIf (a == 0 && b == 0 && f == 0) (.vid d p z)
  | 0x01 => okIf (a == 0) (.vsplat d b p z f)
  | 0x02 => okIf (b == 0 && f == 0) (.vmv d a p z)
  | 0x03 => okIf (p == 0) (.vext d a b z f)
  | 0x04 => okIf (b == 0 && f == 0) (.vlast d a p z)
  | 0x13 => okIf (p == 0) (.vextQ d a b z f)
  | 0x14 => okIf (b == 0 && f == 0) (.vlastQ d a p z)
  | _ => none

/-- Major 0x22, Table 2.9. -/
def decVint (w : IWord) : Option Instr :=
  let d := fD w; let a := fA w; let b := fB w; let p := fP w; let z := fT w; let f := fFM w
  match (fF5 w).toNat with
  | 0x00 => ok (.vadd d a b p z f)
  | 0x01 => ok (.vsub d a b p z f)
  | 0x02 => ok (.vmul d a b p z f)
  | 0x03 => ok (.vmulh d a b p z f)
  | 0x04 => ok (.vmac d a b p z f)
  | 0x05 => ok (.vdiv d a b p z f)
  | 0x06 => ok (.vmin d a b p z f)
  | 0x07 => ok (.vmax d a b p z f)
  | 0x08 => ok (.vand d a b p z f)
  | 0x09 => ok (.vor d a b p z f)
  | 0x0A => ok (.vxor d a b p z f)
  | 0x0B => ok (.vshl d a b p z f)
  | 0x0C => ok (.vshr d a b p z f)
  | 0x0D => ok (.vsar d a b p z f)
  | 0x0E => ok (.vsadd d a b p z f)
  | _ => none

/-- The rounding code F[4:2] of majors 0x23 to 0x25. -/
def fRnd (w : IWord) : BitVec 3 := w.extractLsb' 2 3

/-- Major 0x23, Table 2.9. -/
def decVfa (w : IWord) : Option Instr :=
  let d := fD w; let a := fA w; let b := fB w; let p := fP w; let z := fT w; let f := fFM w; let r := fRnd w
  match (fFM2 w).toNat with
  | 0 => ok (.vfadd d a b p z f r)
  | 1 => ok (.vfsub d a b p z f r)
  | 2 => ok (.vfmul d a b p z f r)
  | _ => ok (.vfdiv d a b p z f r)

/-- Major 0x24, Table 2.9. -/
def decVfm (w : IWord) : Option Instr :=
  let d := fD w; let a := fA w; let b := fB w; let p := fP w; let z := fT w; let f := fFM w; let r := fRnd w
  match (fFM2 w).toNat with
  | 0 => okIf (r == 7) (.vfmin d a b p z f)
  | 1 => okIf (r == 7) (.vfmax d a b p z f)
  | 2 => ok (.vfscale d a b p z f r)
  | _ => okIf (r == 7 && b == 0 && f == 0) (.vfsplit d a p z)

/-- Major 0x25, Table 2.9. -/
def decVfu (w : IWord) : Option Instr :=
  let d := fD w; let a := fA w; let b := fB w; let p := fP w; let z := fT w; let f := fFM w; let r := fRnd w
  match (fFM2 w).toNat with
  | 0 => okIf (b == 0 && f == 0) (.vfsqrt d a p z r)
  | 1 => okIf (r == 7 && b == 0 && f == 0) (.vfrsqe d a p z)
  | 2 => okIf (f == 0) (.vfcvt d a b p z r)
  | _ => okIf (r == 7 && b == 0 && f == 0) (.vfclass d a p z)

/-- Major 0x27, Table 2.9. -/
def decVcmp (w : IWord) : Option Instr :=
  let d := fD w; let a := fA w; let b := fB w; let p := fP w; let z := fT w; let f := fFM w
  if w.extractLsb' 4 1 = 0 then ok (.vcmp d a b p z f (fCnd w)) else ok (.vfcmp d a b p z f (fCnd w))

/-- Major 0x28, Table 2.9. -/
def decRed (w : IWord) : Option Instr :=
  let d := fD w; let a := fA w; let b := fB w; let p := fP w; let z := fT w
  if fFM w ≠ 1 then none else
  match (fF5 w).toNat with
  | 0x00 => some (.vrsum d a b p z)
  | 0x01 => some (.vrosum d a b p z)
  | 0x02 => some (.vrmax d a b p z)
  | 0x03 => some (.vrmin d a b p z)
  | 0x04 => some (.vrlog d a b p z 0)
  | 0x05 => some (.vrlog d a b p z 1)
  | 0x06 => some (.vrlog d a b p z 2)
  | 0x10 => ok (.vrsumQ d a b p z)
  | 0x11 => ok (.vrosumQ d a b p z)
  | 0x12 => ok (.vrmaxQ d a b p z)
  | 0x13 => ok (.vrminQ d a b p z)
  | 0x14 => ok (.vrlogQ d a b p z 0)
  | 0x15 => ok (.vrlogQ d a b p z 1)
  | 0x16 => ok (.vrlogQ d a b p z 2)
  | _ => none

/-- Major 0x29, Table 2.9. -/
def decPerm (w : IWord) : Option Instr :=
  let d := fD w; let a := fA w; let b := fB w; let p := fP w; let z := fT w; let f := fFM w
  match (fF5 w).toNat with
  | 0x00 => ok (.vslup d a b p z f)
  | 0x01 => ok (.vsldn d a b p z f)
  | 0x02 => okIf (f == 0) (.vperm d a b p z)
  | 0x03 => okIf (b == 0 && f == 0) (.vcompr d a p z)
  | 0x04 => ok (.vmerge d a b p z f)
  | _ => none

/-- Major 0x2A, Table 2.9. -/
def decPred (w : IWord) : Option Instr :=
  let d := fD w; let a := fA w; let b := fB w; let p := fP w; let z := fT w; let f := fFM w
  match (fF5 w).toNat with
  | 0x00 => okIf (f == 0) (.pand d a b p z)
  | 0x01 => okIf (f == 0) (.por d a b p z)
  | 0x02 => okIf (f == 0) (.pxor d a b p z)
  | 0x03 => okIf (f == 0 && b == 0) (.pnot d a p z)
  | 0x04 => okIf (f == 1 && a == 0) (.pset d b p z)
  | 0x05 => okIf (f == 0 && b == 0) (.pfirst d a p z)
  | 0x06 => okIf (f == 0 && b == 0) (.pbrkBefore d a p z)
  | 0x07 => okIf (f == 0 && b == 0) (.pbrkThru d a p z)
  | 0x08 => okIf (f == 0 && b == 0) (.pcnt d a p z)
  | 0x18 => okIf (f == 0 && b == 0) (.pcntQ d a p z)
  | _ => none

/-- Major 0x2B, Table 5.1. -/
def decDep (w : IWord) : Option Instr :=
  let d := fD w; let a := fA w; let b := fB w; let p := fP w; let z := fT w
  if fFM w ≠ 0 then none else
  match (fF5 w).toNat with
  | 0x00 => okIf (b == 0) (.vdep d a p z)
  | 0x01 => ok (.vdepx d a b p z)
  | 0x02 => okIf (p == 0) (.vpart d a b z)
  | _ => none

/-- Major 0x2C, Table 8.5. -/
def decAlg (w : IWord) : Option Instr :=
  let d := fD w; let a := fA w; let b := fB w; let p := fP w; let z := fT w; let g := fTB w
  if fFM w ≠ 0 then none else
  match (fFX w).toNat with
  | 0 => ok (.vamul d a b p z g)
  | 1 => okIf (b == 0) (.vaconj d a p z g)
  | 2 => okIf (b == 0) (.vaconjRev d a p z g)
  | 3 => okIf (b == 0) (.vanorm d a p z g)
  | 4 => ok (.vasand d a b p z g)
  | _ => none

/-- Major 0x2D, Table 2.10. -/
def decVld (w : IWord) : Option Instr :=
  let d := fD w; let a := fA w; let b := fB w; let p := fP w; let z := fT w; let m := fF5 w
  match (fFM w).toNat with
  | 0 => okIf (b == 0) (.vld d a p z m)
  | 1 => ok (.vlds d a b p z m)
  | 2 => ok (.vldx d a b p z m)
  | _ => ok (.vldff d a b p z m)

/-- Major 0x2E, Table 2.10. -/
def decVst (w : IWord) : Option Instr :=
  let d := fD w; let a := fA w; let b := fB w; let p := fP w; let z := fT w; let m := fF5 w
  match (fFM w).toNat with
  | 0 => okIf (b == 0) (.vst d a p z m)
  | 1 => ok (.vsts d a b p z m)
  | 2 => ok (.vstx d a b p z m)
  | _ => okIf (d == 0 && b == 0) (.vpref a p z m)

/-- Major 0x2F, Table 2.10. -/
def decSeg (w : IWord) : Option Instr :=
  let d := fD w; let a := fA w; let b := fB w; let p := fP w; let z := fT w; let m := fF5 w
  match (fFM w).toNat with
  | 0 => ok (.vldseg d a b p z m)
  | 1 => ok (.vstseg d a b p z m)
  | _ => none

/-- Major 0x31 (R43). -/
def decTile (w : IWord) : Option Instr :=
  let d := fD w; let a := fA w; let b := fB w
  if fC w ≠ 0 ∨ fAE w ≠ 0 ∨ fTB w ≠ 0 ∨ fSD w ≠ 0 then none else
  match (fFM2 w).toNat with
  | 0 => ok (.mmac d a b)
  | 1 => okIf (a == 0 && b == 0) (.mzero d)
  | 2 => okIf (b == 0) (.mldacc d a)
  | _ => okIf (b == 0) (.mcb d a)

/-- Major 0x32 (R43). -/
def decFill (w : IWord) : Option Instr :=
  let d := fD w; let a := fA w; let b := fB w; let m := fC w
  match (fFM2 w).toNat with
  | 0 => okIf (b == 0) (.mfill d a m (fAE w) (fTB w) (fSD w))
  | 1 => okIf (fAE w == 0 && fTB w == 0 && fSD w == 0) (.mdrainMemory d a b m)
  | 2 => okIf (b == 0 && fAE w == 0 && fTB w == 0 && fSD w == 0) (.mdrainRegister d a m)
  | _ => none

/-- The instruction that a word stands for, or none where the word is ILLEGAL (R46). -/
def decode (w : IWord) : Option Instr :=
  match (fMaj w).toNat with
  | 0x01 => decHint w
  | 0x02 => decAlu w
  | 0x03 => some (.addImm (fD w) (fA w) (fI16 w))
  | 0x04 => some (.subImm (fD w) (fA w) (fI16 w))
  | 0x05 => some (.andImm (fD w) (fA w) (fI16 w))
  | 0x06 => some (.orImm (fD w) (fA w) (fI16 w))
  | 0x07 => some (.xorImm (fD w) (fA w) (fI16 w))
  | 0x08 => decShift w
  | 0x09 => some (.sltImm (fD w) (fA w) (fI16 w))
  | 0x0A => some (.sltuImm (fD w) (fA w) (fI16 w))
  | 0x0B => some (.mulImm (fD w) (fA w) (fI16 w))
  | 0x0C => some (.minImm (fD w) (fA w) (fI16 w))
  | 0x0D => some (.maxImm (fD w) (fA w) (fI16 w))
  | 0x0E => if fA w = 0 then some (.lim (fD w) (fI16 w)) else ok (.limInsert (fD w) (fA w) (fI16 w))
  | 0x0F => some (.addpc (fD w) (fO21 w))
  | 0x10 => ok (.ld (fD w) (fA w) (fB w) (fI11 w))
  | 0x11 => ok (.st (fD w) (fA w) (fB w) (fI11 w))
  | 0x12 => ok (.br (fCnd w) (fA w) (fB w) (fD w ++ fOL w))
  | 0x13 => okIf (fD w == 0) (.jmp (fO21 w))
  | 0x14 => okIf (fD w == 1) (.jal (fO21 w))
  | 0x15 => some (.jalr (fD w) (fA w) (fI16 w))
  | 0x16 => decFp 6 w
  | 0x17 => decFp 7 w
  | 0x18 => decFp 8 w
  | 0x19 => decFp 9 w
  | 0x1A => decFcmp w
  | 0x1B => decSys w
  | 0x1C => ok (.amo (fD w) (fA w) (fB w) (fSC w) (fOR w) (fOp3 w) (fFX w))
  | 0x1D => decSync w
  | 0x1E => decCtl w
  | 0x1F => decEng w
  | 0x20 => decVcfg w
  | 0x21 => decMove w
  | 0x22 => decVint w
  | 0x23 => decVfa w
  | 0x24 => decVfm w
  | 0x25 => decVfu w
  | 0x26 => ok (.vfma (fD w) (fA w) (fB w) (fC w) (fPX w) (fFX w))
  | 0x27 => decVcmp w
  | 0x28 => decRed w
  | 0x29 => decPerm w
  | 0x2A => decPred w
  | 0x2B => decDep w
  | 0x2C => decAlg w
  | 0x2D => decVld w
  | 0x2E => decVst w
  | 0x2F => decSeg w
  | 0x30 => ok (.vamo (fD w) (fA w) (fB w) (fC w) (fPX w) (fFX w))
  | 0x31 => decTile w
  | 0x32 => decFill w
  | _ => none

/-- The instruction of an opcode-table row, its bits numbered as the table numbers them. Every word has 32 bits. -/
def decodeTableWord (nbits w : Nat) : Option Instr :=
  if nbits ≤ 32 then decode (BitVec.ofNat 32 (w % 2 ^ nbits)) else none

/-! The encoder. Majors and function codes are those of Tables 2.3 to 2.10. -/

/-- Major of a scalar floating-point format (R37). -/
def fmaj (f : BitVec 4) : BitVec 6 := (1 : BitVec 2) ++ f

/-- The word of an instruction, and none for a step of the part, which has no word. -/
def encode : Instr → Option IWord
  | .add d a b => some (layRR 0x02 d a b 0 0x00)
  | .sub d a b => some (layRR 0x02 d a b 0 0x01)
  | .and d a b => some (layRR 0x02 d a b 0 0x02)
  | .or d a b => some (layRR 0x02 d a b 0 0x03)
  | .xor d a b => some (layRR 0x02 d a b 0 0x04)
  | .shl d a b => some (layRR 0x02 d a b 0 0x05)
  | .shr d a b => some (layRR 0x02 d a b 0 0x06)
  | .sar d a b => some (layRR 0x02 d a b 0 0x07)
  | .slt d a b => some (layRR 0x02 d a b 0 0x08)
  | .sltu d a b => some (layRR 0x02 d a b 0 0x09)
  | .mul d a b => some (layRR 0x02 d a b 0 0x0A)
  | .mulh d a b => some (layRR 0x02 d a b 0 0x0B)
  | .mulhu d a b => some (layRR 0x02 d a b 0 0x0C)
  | .div d a b => some (layRR 0x02 d a b 0 0x0D)
  | .divu d a b => some (layRR 0x02 d a b 0 0x0E)
  | .rem d a b => some (layRR 0x02 d a b 0 0x0F)
  | .remu d a b => some (layRR 0x02 d a b 0 0x10)
  | .min d a b => some (layRR 0x02 d a b 0 0x11)
  | .max d a b => some (layRR 0x02 d a b 0 0x12)
  | .popc d a => some (layRR 0x02 d a 0 0 0x13)
  | .addImm d a i => some (layRI 0x03 d a i)
  | .subImm d a i => some (layRI 0x04 d a i)
  | .andImm d a i => some (layRI 0x05 d a i)
  | .orImm d a i => some (layRI 0x06 d a i)
  | .xorImm d a i => some (layRI 0x07 d a i)
  | .shlImm d a n => some (laySY 0x08 d a 0 0 0 n)
  | .shrImm d a n => some (laySY 0x08 d a 0 0 1 n)
  | .sarImm d a n => some (laySY 0x08 d a 0 0 2 n)
  | .sltImm d a i => some (layRI 0x09 d a i)
  | .sltuImm d a i => some (layRI 0x0A d a i)
  | .mulImm d a i => some (layRI 0x0B d a i)
  | .minImm d a i => some (layRI 0x0C d a i)
  | .maxImm d a i => some (layRI 0x0D d a i)
  | .lim d i => some (layRI 0x0E d 0 i)
  | .limInsert d h i => some (layRI 0x0E d h i)
  | .addpc d o => some (layJ 0x0F d o)
  | .nop => some (layJ 0x01 0 0)
  | .hint h => some (layJ 0x01 0 h)
  | .land => some (layJ 0x01 1 0)
  | .landTask => some (layJ 0x01 1 1)
  | .ld d a m i => some (layMF 0x10 d a m i)
  | .st v a m i => some (layMF 0x11 v a m i)
  | .br c a b o => some (layBR 0x12 (o.extractLsb' 7 5) a b (o.extractLsb' 0 7) c)
  | .jmp o => some (layJ 0x13 0 o)
  | .jal o => some (layJ 0x14 1 o)
  | .jalr d a i => some (layRI 0x15 d a i)
  | .fadd f d a b r => some (layVX (fmaj f) d a b 0 r 0)
  | .fsub f d a b r => some (layVX (fmaj f) d a b 0 r 1)
  | .fmul f d a b r => some (layVX (fmaj f) d a b 0 r 2)
  | .fdiv f d a b r => some (layVX (fmaj f) d a b 0 r 3)
  | .fsqrt f d a r => some (layVX (fmaj f) d a 0 0 r 4)
  | .fma f d a b c r => some (layVX (fmaj f) d a b c r 5)
  | .fmin f d a b => some (layVX (fmaj f) d a b 0 7 6)
  | .fmax f d a b => some (layVX (fmaj f) d a b 0 7 7)
  | .fcmp d a b t c => some (layRR 0x1A d a b t ((0 : BitVec 2) ++ c))
  | .fcvt d a t u r => some (layRR 0x1A d a t u ((1 : BitVec 2) ++ r ++ (0 : BitVec 1)))
  | .fclass d a t => some (layRR 0x1A d a 0 t 0x20)
  | .sysc n => some (layCsr 0x1B 0 n 0 0x00)
  | .brk n => some (layCsr 0x1B 0 n 0 0x01)
  | .sret => some (layCsr 0x1B 0 0 0 0x02)
  | .csrr d c => some (layCsr 0x1B d c 0 0x03)
  | .csrw v c => some (layCsr 0x1B v c 0 0x04)
  | .waite => some (layCsr 0x1B 0 0 0 0x05)
  | .amo d a b sc o p w => some (laySY 0x1C d a b sc o (p ++ w))
  | .fence sc k => some (laySY 0x1D 0 0 0 sc 0 ((0 : BitVec 4) ++ k))
  | .gjoin a => some (laySY 0x1D 0 a 0 0 0 0x04)
  | .gleave a => some (laySY 0x1D 0 a 0 0 0 0x05)
  | .gsync a => some (laySY 0x1D 0 a 0 0 0 0x06)
  | .ipost c a => some (laySY 0x1D c a 0 0 0 0x07)
  | .iwait c a => some (laySY 0x1D c a 0 0 0 0x08)
  | .cas d a b sc o w => some (laySY 0x1D d a b sc o ((8 : BitVec 5) ++ w))
  | .qpush q a => some (layRR 0x1E q a 0 0 0x00)
  | .qpop d q => some (layRR 0x1E d q 0 0 0x01)
  | .qpopVector d q => some (layRR 0x1E d q 0 0 0x01)
  | .qcnt d q => some (layRR 0x1E d q 0 0 0x02)
  | .talloc d => some (layRR 0x1E d 0 0 0 0x08)
  | .tfree a => some (layRR 0x1E 0 a 0 0 0x09)
  | .tspawn a b => some (layRR 0x1E 0 a b 0 0x0A)
  | .tend a => some (layRR 0x1E 0 a 0 0 0x0B)
  | .tparkGroup a => some (layRR 0x1E 0 a 0 0 0x0C)
  | .tparkRing c a => some (layRR 0x1E c a 0 0 0x0D)
  | .tparkTag a => some (layRR 0x1E 0 a 0 0 0x0E)
  | .smap a b c => some (layRR 0x1E 0 a b c 0x10)
  | .sunmap a b => some (layRR 0x1E 0 a b 0 0x11)
  | .sflush a b => some (layRR 0x1E 0 a b 0 0x12)
  | .uret => some (layRR 0x1E 0 0 0 0 0x13)
  | .tmark a => some (layRR 0x1E 0 a 0 0 0x14)
  | .algld t a => some (layRR 0x1E t a 0 0 0x18)
  | .nset d a b => some (layRR 0x1E d a b 0 0x1A)
  | .nloop k => some (layRR 0x1E k 0 0 0 0x1B)
  | .xcopy t a => some (layRR 0x1F t a 0 0 0x00)
  | .xgath t a => some (layRR 0x1F t a 0 0 0x01)
  | .xcoll t a => some (layRR 0x1F t a 0 0 0x02)
  | .xwait t => some (layRR 0x1F t 0 0 0 0x03)
  | .vcfg d a e g t m sc => some (layCfg 0x20 d a e g t m sc 0)
  | .vid d p z => some (layV 0x21 d 0 0 p z 0 0x00)
  | .vsplat d b p z f => some (layV 0x21 d 0 b p z f 0x01)
  | .vmv d a p z => some (layV 0x21 d a 0 p z 0 0x02)
  | .vext d a b z f => some (layV 0x21 d a b 0 z f 0x03)
  | .vlast d a p z => some (layV 0x21 d a 0 p z 0 0x04)
  | .vextQ q a b z f => some (layV 0x21 q a b 0 z f 0x13)
  | .vlastQ q a p z => some (layV 0x21 q a 0 p z 0 0x14)
  | .vadd d a b p z f => some (layV 0x22 d a b p z f 0x00)
  | .vsub d a b p z f => some (layV 0x22 d a b p z f 0x01)
  | .vmul d a b p z f => some (layV 0x22 d a b p z f 0x02)
  | .vmulh d a b p z f => some (layV 0x22 d a b p z f 0x03)
  | .vmac d a b p z f => some (layV 0x22 d a b p z f 0x04)
  | .vdiv d a b p z f => some (layV 0x22 d a b p z f 0x05)
  | .vmin d a b p z f => some (layV 0x22 d a b p z f 0x06)
  | .vmax d a b p z f => some (layV 0x22 d a b p z f 0x07)
  | .vand d a b p z f => some (layV 0x22 d a b p z f 0x08)
  | .vor d a b p z f => some (layV 0x22 d a b p z f 0x09)
  | .vxor d a b p z f => some (layV 0x22 d a b p z f 0x0A)
  | .vshl d a b p z f => some (layV 0x22 d a b p z f 0x0B)
  | .vshr d a b p z f => some (layV 0x22 d a b p z f 0x0C)
  | .vsar d a b p z f => some (layV 0x22 d a b p z f 0x0D)
  | .vsadd d a b p z f => some (layV 0x22 d a b p z f 0x0E)
  | .vfadd d a b p z f r => some (layV 0x23 d a b p z f (r ++ (0 : BitVec 2)))
  | .vfsub d a b p z f r => some (layV 0x23 d a b p z f (r ++ (1 : BitVec 2)))
  | .vfmul d a b p z f r => some (layV 0x23 d a b p z f (r ++ (2 : BitVec 2)))
  | .vfdiv d a b p z f r => some (layV 0x23 d a b p z f (r ++ (3 : BitVec 2)))
  | .vfmin d a b p z f => some (layV 0x24 d a b p z f 0x1C)
  | .vfmax d a b p z f => some (layV 0x24 d a b p z f 0x1D)
  | .vfscale d a b p z f r => some (layV 0x24 d a b p z f (r ++ (2 : BitVec 2)))
  | .vfsplit d a p z => some (layV 0x24 d a 0 p z 0 0x1F)
  | .vfsqrt d a p z r => some (layV 0x25 d a 0 p z 0 (r ++ (0 : BitVec 2)))
  | .vfrsqe d a p z => some (layV 0x25 d a 0 p z 0 0x1D)
  | .vfcvt d a t p z r => some (layV 0x25 d a t p z 0 (r ++ (2 : BitVec 2)))
  | .vfclass d a p z => some (layV 0x25 d a 0 p z 0 0x1F)
  | .vfma d a b c p r => some (layVX 0x26 d a b c p r)
  | .vcmp d a b p z f c => some (layV 0x27 d a b p z f ((0 : BitVec 1) ++ c))
  | .vfcmp d a b p z f c => some (layV 0x27 d a b p z f ((1 : BitVec 1) ++ c))
  | .vrsum d a b p z => some (layV 0x28 d a b p z 1 0x00)
  | .vrosum d a b p z => some (layV 0x28 d a b p z 1 0x01)
  | .vrmax d a b p z => some (layV 0x28 d a b p z 1 0x02)
  | .vrmin d a b p z => some (layV 0x28 d a b p z 1 0x03)
  | .vrlog d a b p z k => some (layV 0x28 d a b p z 1 ((1 : BitVec 3) ++ k))
  | .vrsumQ q a b p z => some (layV 0x28 q a b p z 1 0x10)
  | .vrosumQ q a b p z => some (layV 0x28 q a b p z 1 0x11)
  | .vrmaxQ q a b p z => some (layV 0x28 q a b p z 1 0x12)
  | .vrminQ q a b p z => some (layV 0x28 q a b p z 1 0x13)
  | .vrlogQ q a b p z k => some (layV 0x28 q a b p z 1 ((5 : BitVec 3) ++ k))
  | .vslup d a b p z f => some (layV 0x29 d a b p z f 0x00)
  | .vsldn d a b p z f => some (layV 0x29 d a b p z f 0x01)
  | .vperm d a b p z => some (layV 0x29 d a b p z 0 0x02)
  | .vcompr d a p z => some (layV 0x29 d a 0 p z 0 0x03)
  | .vmerge d a b p z f => some (layV 0x29 d a b p z f 0x04)
  | .pand d a b p z => some (layV 0x2A d a b p z 0 0x00)
  | .por d a b p z => some (layV 0x2A d a b p z 0 0x01)
  | .pxor d a b p z => some (layV 0x2A d a b p z 0 0x02)
  | .pnot d a p z => some (layV 0x2A d a 0 p z 0 0x03)
  | .pset d b p z => some (layV 0x2A d 0 b p z 1 0x04)
  | .pfirst d a p z => some (layV 0x2A d a 0 p z 0 0x05)
  | .pbrkBefore d a p z => some (layV 0x2A d a 0 p z 0 0x06)
  | .pbrkThru d a p z => some (layV 0x2A d a 0 p z 0 0x07)
  | .pcnt d a p z => some (layV 0x2A d a 0 p z 0 0x08)
  | .pcntQ q a p z => some (layV 0x2A q a 0 p z 0 0x18)
  | .vdep d a p z => some (layV 0x2B d a 0 p z 0 0x00)
  | .vdepx d a b p z => some (layV 0x2B d a b p z 0 0x01)
  | .vpart d a b z => some (layV 0x2B d a b 0 z 0 0x02)
  | .vamul d a b p z g => some (layV 0x2C d a b p z 0 (g ++ (0 : BitVec 3)))
  | .vaconj d a p z g => some (layV 0x2C d a 0 p z 0 (g ++ (1 : BitVec 3)))
  | .vaconjRev d a p z g => some (layV 0x2C d a 0 p z 0 (g ++ (2 : BitVec 3)))
  | .vanorm d a p z g => some (layV 0x2C d a 0 p z 0 (g ++ (3 : BitVec 3)))
  | .vasand d a b p z g => some (layV 0x2C d a b p z 0 (g ++ (4 : BitVec 3)))
  | .vld d a p z m => some (layV 0x2D d a 0 p z 0 m)
  | .vlds d a b p z m => some (layV 0x2D d a b p z 1 m)
  | .vldx d a b p z m => some (layV 0x2D d a b p z 2 m)
  | .vldff d a b p z m => some (layV 0x2D d a b p z 3 m)
  | .vst v a p z m => some (layV 0x2E v a 0 p z 0 m)
  | .vsts v a b p z m => some (layV 0x2E v a b p z 1 m)
  | .vstx v a b p z m => some (layV 0x2E v a b p z 2 m)
  | .vpref a p z m => some (layV 0x2E 0 a 0 p z 3 m)
  | .vldseg d a n p z m => some (layV 0x2F d a n p z 0 m)
  | .vstseg v a n p z m => some (layV 0x2F v a n p z 1 m)
  | .vamo v a b c p o => some (layVX 0x30 v a b c p o)
  | .mmac t a b => some (layMX 0x31 t a b 0 0 0 0 0)
  | .mzero t => some (layMX 0x31 t 0 0 0 0 0 0 1)
  | .mldacc t a => some (layMX 0x31 t a 0 0 0 0 0 2)
  | .mcb c a => some (layMX 0x31 c a 0 0 0 0 0 3)
  | .mfill d a m e g sd => some (layMX 0x32 d a 0 m e g sd 0)
  | .mdrainMemory t a b m => some (layMX 0x32 t a b m 0 0 0 1)
  | .mdrainRegister t v m => some (layMX 0x32 t v 0 m 0 0 0 2)
  | _ => none

end Sys2Proof
end

