-- ==== Sys2Proof/Machine/Sparse.lean ====
section
/-!
DEFINITION. A sparse map from numbers to values in canonical form: keys strictly rising, and no entry equal to what an unlisted
key reads as. Equal maps are equal lists. Memory (log entry 1), panel rows and other sparse data use it.
-/

namespace Sys2Proof.Sparse

/-- The value at key k; d is what an unlisted key reads as. -/
def get {α : Type} (d : α) : List (Nat × α) → Nat → α
  | [], _ => d
  | (a, v) :: r, k => if k = a then v else if k < a then d else get d r k

/-- The entry that a write of v at k leaves: none where v is what an unlisted key reads as. -/
def cell {α : Type} [DecidableEq α] (d : α) (k : Nat) (v : α) : List (Nat × α) := if v = d then [] else [(k, v)]

/-- Writes v at k. -/
def set {α : Type} [DecidableEq α] (d : α) : List (Nat × α) → Nat → α → List (Nat × α)
  | [], k, v => cell d k v
  | (a, u) :: r, k, v =>
    if k = a then cell d k v ++ r
    else if k < a then cell d k v ++ (a, u) :: r
    else (a, u) :: set d r k v

/-- Every key of the list is at or above lo, keys rise, and no value is d. -/
def wfFrom {α : Type} [DecidableEq α] (d : α) : Nat → List (Nat × α) → Bool
  | _, [] => true
  | lo, (a, v) :: r => decide (lo ≤ a) && decide (v ≠ d) && wfFrom d (a + 1) r

/-- The canonical form. -/
def wf {α : Type} [DecidableEq α] (d : α) (m : List (Nat × α)) : Bool := wfFrom d 0 m

end Sys2Proof.Sparse
end

