-- ==== Sys2Proof/Config.lean ====
section
/-!
DEFINITION. What the HK-40 fixes (Table 0.1 and Table 0.2) and the values that the spec leaves open. A free value is an opaque
constant: nothing in Lean can evaluate it, so no claim rests on one.
-/

namespace Sys2Proof.Config

/-- Logical cores of the package (R3). -/
abbrev cores : Nat := 128
/-- Control threads of a core (R85). -/
abbrev threads : Nat := 4
/-- Entries of a vector issue queue (R79). -/
abbrev viqDepth : Nat := 64
/-- Values a queue holds (R73). -/
abbrev queueDepth : Nat := 8
/-- Hardware entries of a core's deques, and how many spill at once (R96). -/
abbrev dequeDepth : Nat := 64
abbrev spillCount : Nat := 32
/-- Lines of a task's write-combining buffer (R224). -/
abbrev wcbLines : Nat := 16
/-- Uncompleted jobs of a core (R184). -/
abbrev jobLimit : Nat := 32
/-- Records of a fill list (R161). -/
abbrev fillLimit : Nat := 16
/-- Mappings of a task (R180). -/
abbrev mapLimit : Nat := 16
/-- Members of a group and groups of a task (R104). -/
abbrev groupMembers : Nat := 512
abbrev taskGroups : Nat := 4
/-- Panel rows and columns of a B-store (R145). -/
abbrev panelRows : Nat := 384
abbrev panelCols : Nat := 192
/-- Stash bytes that grants share (Table 4.3): 960 KiB of each 1 MiB stash. -/
abbrev stashBytes : Nat := 2 ^ 20
abbrev stashGrantable : Nat := 960 * 1024

/-- FREE VALUE (log entry 6): cycle counts, latencies and every other timing field of a record, one per use of the counter. -/
opaque timing : Nat → Word
/-- FREE VALUE (log entry 15): the byte that a fresh frame holds where Korier fills it. The first argument numbers the frame. -/
opaque frameFill : Nat → Nat → Byte
/-- FREE VALUE (log entry 19): whether a firmware image's signature verifies (R274), and its security version. -/
opaque fwVerifies : List Byte → Bool
opaque fwVersion : List Byte → Nat
/-- FREE VALUE (log entry 20): the answer bytes of Get FW Info and of SPDM requests (R262, R275), one per use of the counter. -/
opaque fwInfo : Nat → List Byte
opaque spdmAnswer : List Byte → Nat → List Byte
/-- FREE VALUE (log entry 18): which GDDR7 device of its die holds a device-memory address (R273): 8 devices per die. -/
opaque gddrDevice : Nat → Fin 8
/-- FREE VALUE (log entry 21): which of the translations that R229 and R230 allow an access uses. -/
opaque staleChoice : Nat → Nat
/-- FREE VALUE (log entry 11): what a device register that no chapter describes reads as, one per use of the counter. -/
opaque deviceValue : Nat → Word
/-- FREE VALUE (log entry 98): the causal counter that a peer's packet carries (R280), one per use of the counter. -/
opaque peerCausal : Nat → Nat

end Sys2Proof.Config
end

