-- ==== Sys2Proof/Machine/State.lean ====
section
/-!
DEFINITION. The state of the HK-40 as plain data: the acting control thread, every other control thread that holds a task, the
cores, the dies, the package, memory, and the schedule that says which agent acts next. INVENTORY.md lists every field with its
rule and its reset value.
-/

namespace Sys2Proof.Machine

/-- Why a step stops the machine. -/
inductive Fault where
  /-- A synchronous trap is raised in M: R240 sends a trap of U to S and one of S to M, and says nothing of M. Raised by
  takeTrap. Safe: the machine stops where the spec gives no effect (log entry 8). -/
  | trapInM
  deriving DecidableEq, Repr

/-- Why a step gives no meaning. -/
inductive Refusal where
  /-- An instruction that the model does not have yet. Raised by the arms of exec alone. Safe. -/
  | notModelled (mnemonic : String)
  deriving DecidableEq, Repr

/-- The three levels (R241). -/
inductive Level where
  | u
  | s
  | m
  deriving DecidableEq, Repr

/-- What a control thread is doing: nothing, running its task, or fenced (R96, R270). -/
inductive Status where
  | free
  | running
  | fenced
  deriving DecidableEq, Repr

/-- What the scalar stream waits for at its next word; none when it does not wait. -/
inductive Wait where
  | none
  | queue      -- QPOP or QPUSH (R75)
  | viqFull    -- a full VIQ (R79)
  | drain      -- until the VIQ is empty (R80)
  | group      -- GSYNC (R322)
  | ring       -- IWAIT (R324)
  | job        -- XWAIT, TEND or a full scheduler (R194, R190, R184)
  | memory     -- a GDDR7 device not yet trained (R273)
  | fetch      -- as memory or job, before the word at the pc begins: its fetch, or a delivery that a log forces
  | grant      -- a stash grant at task start (R89)
  | ending     -- as drain, deliveries being discarded: TEND, TPARK or the end of a task by a trap (R78, R242)
  | event      -- a step of the task's core that must come first
  deriving DecidableEq, Repr

/-- VCFG (Table 3.1). -/
structure Vcfg where
  etype : BitVec 4
  grp : BitVec 2
  tpol : BitVec 2
  mpol : BitVec 1
  scope : BitVec 3
  deriving DecidableEq, Repr

/-- i8, g1, tk, mk, .t (R63). -/
def Vcfg.start : Vcfg := ⟨0, 0, 0, 0, 0⟩

/-- The lane groups or the array bound to an issued entry, and its occupancy (R99). -/
structure Issue where
  groups : Nat
  array : Bool
  clocks : Nat
  deriving DecidableEq, Repr

/-- What an entry that has executed still owes at its completion (R76, R80): flags, a delivery to a queue; host: it completes once the host has
answered every snoop (R201); sample: the fields of its VSAMPLE record, where it is sampled (R282); mem: of a memory instruction its number and its scope
code, at which its accesses perform before it completes. -/
structure Effects where
  fflags : BitVec 5
  mflags : BitVec 3
  deliver : Option (Nat × Word)
  host : Bool
  sample : List (Nat × Nat × Nat) := []
  mem : Option (Nat × Nat) := none
  deriving DecidableEq, Repr

/-- An entry of the vector issue queue: the instruction, its address, its captured scalars (fields D, A, B and C, where they name
x registers), level, VCFG, VL, FRM, ISN and DETCTL.EN at dispatch, its nest address offset (R196), and what it has been bound to;
done: it has executed and owes its completion; owed: the flags of the elements that retired before a stop (R83, R131);
stop: how far a pre-emption lets it run (R107); resumed: it has begun before and goes on from VSTART and pdone; ivl: the fence interval of its
dispatch; vv: each FENCE .vv that came while it had not executed, by interval and scope code (R202). -/
structure VEntry where
  instr : Instr
  pc : Word
  level : Level
  xd : Word
  xa : Word
  xb : Word
  xc : Word
  vcfg : Vcfg
  vl : Nat
  frm : BitVec 3
  isn : Word
  bronze : Bool
  nested : Bool
  off : Word
  issue : Option Issue
  done : Option Effects
  owed : BitVec 5
  stop : Option Nat
  sampled : Bool
  reex : Bool
  resumed : Bool
  ivl : Nat
  vv : List (Nat × Nat)
  deriving DecidableEq, Repr

/-- One dimension of a nest: its count and its step (R195). -/
structure NestDim where
  count : Nat
  step : Word
  deriving DecidableEq, Repr

/-- Words that NLOOP captured and that are still to be dispatched (R58, R196): the address of the next and the words left. -/
structure Capture where
  at_ : Word
  words : List IWord
  deriving DecidableEq, Repr

/-- A nest in the vector stream (R196): its dimensions, the number of body words, the position and the body word to run next. -/
structure NestRun where
  dims : List NestDim
  body : Nat
  pos : List Nat
  next : Nat
  deriving DecidableEq, Repr

/-- A vector instruction that stopped, the saved VIQ entries behind it, the scalar PC with its pending landing check, and the nests (R83). The
body entries of a nest that stopped are among the saved ones. -/
structure Stopped where
  entry : VEntry
  saved : List VEntry
  spc : Word
  lpend : Bool
  nest : List NestRun
  deriving DecidableEq, Repr

/-- Vector state (R59 to R83). vfile holds the bytes of v0 to v31, register N in the low 8·L bits of element N. viq holds the entries that have still to
execute, or to deliver; owing what those owe that have executed before them and whose accesses have not all performed, oldest first (R201). -/
structure VecSt where
  vcfg : Vcfg
  vl : Nat
  vstart : Nat
  vfile : Vector (BitVec 16384) 32
  released : List Nat
  preds : Vector (BitVec 16384) 8
  pdone : BitVec 16384
  queues : Vector (List Word) 8
  viq : List VEntry
  owing : List Effects
  stopped : Option Stopped
  hold : Bool
  deriving DecidableEq, Repr

/-- Floating-point state (R130 to R133). -/
structure FpSt where
  fstat : BitVec 5
  frm : BitVec 3
  seed : Word
  isn : Word
  deriving DecidableEq, Repr

/-- Ordering state (R223, R224, R257, R202). opSeq numbers the vector memory instructions; vhold: the intervals of the FENCEs at .s whose
later vector accesses wait for the host; vvJobs: the fills whose source reads a FENCE .vv holds later vector accesses for, with its interval; vvOpen:
such a FENCE was executed while older vector accesses had not performed; vvNow: the FENCEs .vv that came before the vector instruction that
executes had executed. -/
structure OrdSt where
  detctl : Bool
  race : Bool
  raceaddr : Word
  fenceIvl : Nat
  updSeq : Nat
  opSeq : Nat
  vhold : List Nat
  vvJobs : List (Nat × Nat)
  vvOpen : Bool
  vvNow : List (Nat × Nat)
  deriving DecidableEq, Repr

/-- An error kept with a job's tag (R190): job, tag, code and failing address, in issue order in the list that holds it. -/
structure KeptError where
  job : Nat
  tag : Nat
  code : BitVec 8
  addr : Word
  deriving DecidableEq, Repr

/-- User-level interrupt state (R191, R192) and the shadow bank k0 to k7. bank says that the shadow bank is in use: kother holds the
bank that is not in the x registers. -/
structure UliSt where
  ulivec : Word
  pend : BitVec 32
  err : Bool
  tag : BitVec 5
  act : Bool
  mask : Bool
  kother : Vector Word 8
  errs : List KeptError
  deriving DecidableEq, Repr

/-- The supervisor CSRs (R237, R310, R226). -/
structure SupSt where
  scause : Word
  sepc : Word
  sfva : Word
  sfelem : Word
  sfstride : Word
  sfrem : Word
  sfwidth : Word
  troot : Word
  deriving DecidableEq, Repr

/-- The kind of a tile (R158). -/
inductive TileKind where
  | empty
  | fp
  | int
  deriving DecidableEq, Repr

/-- A fill record (R161): instruction, handle, card address, card, codebook, algebra table, source-written bit and source lines
registered, the panel it made, whether Korier ran it again, and whether it then met poison (R342). -/
structure FillRec where
  instr : Instr
  handle : Word
  cardAddr : Word
  card : List Byte
  book : BitVec 256
  alg : BitVec 640
  written : Bool
  lines : List Nat
  panel : Nat
  refill : Bool
  poisoned : Bool
  deriving DecidableEq, Repr

/-- Matrix and algebra state (R158, R160, R161, R166). Row r of tile t is element 8t + r of acc, cell c in bits 32c+31 to 32c. -/
structure MxSt where
  acc : Vector (BitVec 6144) 64
  kinds : Vector TileKind 8
  mxflag : BitVec 3
  books : Vector (BitVec 256) 8
  algs : Vector (BitVec 640) 4
  fills : List FillRec
  deriving DecidableEq, Repr

/-- Nest dimensions set by NSET, the words NLOOP captured (R195, R196), and the nests in the vector stream, oldest first. -/
structure NestSt where
  dims : List NestDim
  capture : Option Capture
  runs : List NestRun
  deriving DecidableEq, Repr

/-- A stash mapping (R180): offset in the local window, length, global address. -/
structure Mapping where
  off : Nat
  len : Nat
  va : Word
  deriving DecidableEq, Repr

/-- The task a control thread runs (R52, R85 to R92, R101, R242). profs lists the declared profiles LB, LV, LM, LA, LT, LO, LX in bits
0 to 6; record is tr at start; slotPa is where an instance's record is read (R90). heldStop and heldSup are what a reflected trap
holds (R242); again: the task has run before (R103). -/
structure TaskSt where
  taskid : Word
  record : Word
  slotPa : Option Nat
  cont : Option Word
  slot : Nat
  chunk : Option Nat
  inst : Word
  isInst : Bool
  launch : Option Nat
  prio : Nat
  share : Nat
  minlg : Nat
  startNo : Nat
  profs : BitVec 7
  regLen : Nat
  tiles : Nat
  stashBase : Nat
  stashLen : Nat
  maps : List Mapping
  handler : Word
  frame : Word
  reflected : Bool
  lkey : Word
  events : Nat
  spawns : Nat
  heldStop : Option Stopped
  heldSup : SupSt
  diverged : Bool
  again : Bool
  deriving DecidableEq, Repr

/-- What blocks or interrupts a control thread: the wait, a pending landing check (R55), the entry PC whose word is still
to be checked (R56), a pending CONTAIN (R239), the record whose
read or grant is still to come (R89, R401), for each blocked GSYNC the group and phase of its arrival and its address (R322), and the address of a
WAITE that has begun and not completed (R396), the word that a checked JALR fetched at its target (R54), and the post of an IPOST
that is under way (R326). held: Korier holds the fault of this thread for a migration (R238); report: the last trap reported the error of a job (R190). -/
structure CtlSt where
  wait : Wait
  lpend : Bool
  ltask : Option Word
  contain : Bool
  spend : Option Word
  gwait : List (Nat × Nat × Word)
  waite : Option Word
  target : Option (Word × IWord)
  post : Option (Nat × Word)
  held : Bool
  report : Bool
  deficit : Int
  sampleCnt : Nat
  deriving DecidableEq, Repr

/-- One control thread. fwcsr holds the CSRs of the firmware range by number (R39, R241), zero where not listed. -/
structure Thread where
  lcore : Nat
  ctno : Nat
  status : Status
  level : Level
  pc : Word
  x : Vector Word 32
  task : TaskSt
  vec : VecSt
  fp : FpSt
  ord : OrdSt
  uli : UliSt
  sup : SupSt
  mx : MxSt
  nest : NestSt
  ctl : CtlSt
  fwcsr : List (Nat × Word)
  deriving DecidableEq, Repr

/-- What an entry of a deque starts (R96, R94): a record (with the chunk, root, lineage key and, after TPARK or pre-emption, the TASKID
it keeps), or the unstarted instances of a chunk. -/
inductive Startable where
  | record (va : Word) (chunk : Option Nat) (troot : Word) (lkey : Word) (resume : Option Word)
  | range (chunk lo n : Nat)
  deriving DecidableEq, Repr

/-- A deque entry: PIN bit, whether it lies in the spill area, and its age. -/
structure DqEntry where
  what : Startable
  pin : Bool
  spilled : Bool
  born : Nat
  deriving DecidableEq, Repr

/-- A region of a job (R185). -/
structure Region where
  base : Word
  len : Nat
  write : Bool
  deriving DecidableEq, Repr

/-- A job card (Tables 9.6 and 9.7), its pointers widened. -/
structure Card where
  src : Word
  dst : Word
  idx : Word
  cnt : List Nat
  sstr : List Int
  dstr : List Int
  op : Nat
  int : Bool
  idxf : Nat
  ndim : Nat
  dfmt : BitVec 5
  sfmt : BitVec 5
  regions : List Region
  deriving DecidableEq, Repr

/-- The engine of a job. -/
inductive Engine where
  | copy
  | gather
  | coll
  | fill (panel : Nat)
  deriving DecidableEq, Repr

/-- Where a job stands: its writes made up to a nest position, paused on an absent page at a position, its fault posted or not, or all its
writes made. -/
inductive JobState where
  | ready (pos : Nat)
  | paused (pos : Nat) (scause va : Word) (posted : Bool)
  | moved
  deriving DecidableEq, Repr

/-- A piece of a footprint (R188): 0 global by virtual address, 1 + n the stash of core n by offset, 1000 B-store rows; from lo to below hi. -/
structure Foot where
  space : Nat
  lo : Nat
  hi : Nat
  deriving DecidableEq, Repr

/-- An uncompleted job (R184, R189), with the access state of its control thread at issue, its level among it; of a fill also the record that it was
started with, the physical lines of its source (R151), the lines that it has read, and the units it has taken from them, the last one first (R152). -/
structure Job where
  id : Nat
  engine : Engine
  tag : Nat
  task : Word
  ctno : Nat
  card : Card
  troot : Word
  stashBase : Nat
  stashLen : Nat
  launch : Option Nat
  reads : List Foot
  writes : List Foot
  state : JobState
  err : Option (BitVec 8 × Word)
  fill : Option FillRec := none
  src : List Nat := []
  level : Level := .u
  got : List (Nat × List Byte) := []
  units : List Nat := []
  deriving DecidableEq, Repr

/-- A panel of the B-store (R147 to R152): the task and handle that own it, memory format, row counts, row contents keyed by
192·k + c, scales and zero points keyed by 192·g + c, how many rows are ready, and the fill that makes it. A cell holds an element's
bits, a code of 4 bits sign-extended, and under .lut4 the codebook's entry. -/
structure Panel where
  id : Nat
  task : Word
  row : Nat
  len : Nat
  mf : BitVec 5
  kRow : Nat
  dataRows : Nat
  scaled : Bool
  cells : List (Nat × BitVec 16)
  scales : List (Nat × BitVec 32)
  zeros : List (Nat × BitVec 32)
  ready : Nat
  made : FillRec
  deriving DecidableEq, Repr

/-- One core (R3, R96, R99, R149, R184, R272, R358). A panel of the list owns every row of its handle; a row that no panel of the list names
is owned by no task. stashUse lists the stash ranges granted: base, length, task. -/
structure Core where
  deques : Vector (List DqEntry) 4
  spillCap : Nat
  pool : BitVec 256
  jobs : List Job
  panels : List Panel
  freeLanes : Nat
  arrayBusy : Bool
  spareCols : Nat
  stashUse : List (Nat × Nat × Word)
  deriving DecidableEq, Repr

/-- A breakpoint of Electrum (R290). -/
structure Breakpoint where
  pc : Word
  elem : BitVec 15
  een : Bool
  dump : Bool
  en : Bool
  deriving DecidableEq, Repr

/-- A histogram of one engine of one die-core (R284). -/
structure Histogram where
  core : Nat
  engine : Nat
  ctl : Word
  buckets : Vector (BitVec 32) 32
  deriving DecidableEq, Repr

/-- The Electrum block of one die (R278). regs holds the plain registers by offset; ECTL is split in its fields. -/
structure Electrum where
  on : Bool
  frozen : Bool
  wrap : Bool
  replost : Bool
  repl : BitVec 2
  hist : Bool
  samp : BitVec 4
  ebase : Word
  esize : BitVec 5
  ewptr : Word
  erptr : Word
  elost : Word
  efilt : BitVec 6
  eseq : Word
  epclo : Word
  epchi : Word
  etval : Word
  trigs : Vector (BitVec 14) 4
  bps : Vector Breakpoint 4
  counts : Vector Word 4
  elog : Word
  elogsz : BitVec 5
  erepseq : Word
  elogptr : Word
  hists : List Histogram
  lossPend : Nat
  deriving DecidableEq, Repr

/-- One die (R10, R94, R270, R273, R276, R280). cycle: the cycle counter at the die's last record (R281). -/
structure Die where
  el : Electrum
  causal : BitVec 48
  cycle : Word
  clock : BitVec 2
  ready : Bool
  fenced : Bool
  deriving DecidableEq, Repr

/-- The state of a mapped stash line (Table 9.3); a line not listed is SCRATCH. -/
inductive SLineState where
  | mapped
  | clean
  | dirty
  deriving DecidableEq, Repr

/-- A mapped stash line: its physical stash address (line-aligned, in the stash aperture), its state, the virtual and physical global
line, the root it was filled under, and the page-table lines its translation depends on (R233). -/
structure SLine where
  at_ : Nat
  state : SLineState
  va : Word
  pa : Nat
  troot : Word
  deps : List Nat
  deriving DecidableEq, Repr

/-- A cached translation (R233): the core whose cache holds it, root page number, G, virtual base, size in bits, leaf entry, address of the leaf, level, and the lines read. -/
structure TlbEntry where
  lcore : Nat
  root : Nat
  g : Bool
  base : Nat
  bits : Nat
  leaf : Word
  leafAt : Nat
  lvl : Nat
  deps : List Nat
  deriving DecidableEq, Repr

/-- A member of a group (R104, R105): its task, whether it has arrived at the current phase, and its core and mode. -/
structure GMember where
  who : Member
  arrived : Bool
  deriving DecidableEq, Repr

/-- A group (R104): members, phase, and the package's count of completed phases when its own last one completed (R258). -/
structure Group where
  id : Nat
  members : List GMember
  phase : Nat
  since : Nat
  deriving DecidableEq, Repr

/-- A channel of the iteration ring (R106, R325): value and version at the order point, and each die's copy. -/
structure Channel where
  value : Word
  version : Nat
  copies : Vector (Word × Nat) 4
  deriving DecidableEq, Repr

/-- The event a parked record waits for (R103). -/
inductive ParkEvent where
  | group (g phase : Nat)
  | ring (c : Nat) (v : Word)
  | tag (t : Nat)
  deriving DecidableEq, Repr

/-- A parked task (R103): the core that parked it, what to push, and the state that TPARK keeps (its task state, its fill list,
and errors kept with its jobs); pushed: its record is queued again; contain: a job of it met a fenced agent (R271, R398). -/
structure Parked where
  event : ParkEvent
  core : Nat
  task : TaskSt
  troot : Word
  fills : List FillRec
  errs : List KeptError
  pushed : Bool
  contain : Bool
  deriving DecidableEq, Repr

/-- What an error record holds (Table 14.4). -/
structure ErrRec where
  task : Nat
  seq : Nat
  scause : Nat
  sepc : Nat
  sfva : Nat
  index : Nat
  lcore : Nat
  code : Nat
  deriving DecidableEq, Repr

/-- A write of a distributor or of Korier, from a die, that waits for its device (R273): bytes at an address, or an error record for a log. -/
inductive Owed where
  | write (die pa : Nat) (bytes : List Byte)
  | error (die elog elsize : Nat) (rec_ : ErrRec)
  deriving DecidableEq, Repr

/-- A submission queue (R265, R266); unread: HEAD is still to be read, for its device is not yet trained (R273). -/
structure SubQueue where
  num : Nat
  ring : Nat
  size : Nat
  tail : Nat
  head : Nat
  elog : Nat
  elsize : Nat
  troot : Word
  ringva : Word
  headVal : Word
  stopped : Bool
  leaving : Bool
  unread : Bool
  deriving DecidableEq, Repr

/-- A launch (R90, R91): queue, start record, its fields, the instances dealt and those recorded complete. -/
structure Launch where
  id : Nat
  queue : Nat
  slotPa : Nat
  tva : Word
  count : Nat
  base : Word
  done : Word
  nr : Bool
  lgrain : Nat
  seq : Word
  ctl : Word
  troot : Word
  elog : Nat
  elsize : Nat
  dealt : Nat
  cyclePos : Nat
  complete : Nat
  contained : Bool
  ended : Bool
  deriving DecidableEq, Repr

/-- A chunk of a launch (R92, R94): the instances it holds, where it was dealt, how many have not started, and its live tasks. -/
structure Chunk where
  id : Nat
  launch : Nat
  lo : Nat
  n : Nat
  core : Nat
  unstarted : Nat
  live : Nat
  complete : Bool
  deriving DecidableEq, Repr

/-- A loaded code object (R50 to R52): the root it was loaded under, virtual range of its text and its PROF bytes as a profile set. -/
structure CodeObject where
  troot : Word
  lo : Word
  size : Nat
  profs : BitVec 7
  deriving DecidableEq, Repr

/-- A region registered with Korier for paging (R238): root, base and length. -/
structure PageRegion where
  troot : Word
  base : Word
  len : Nat
  deriving DecidableEq, Repr

/-- A report of Korier's job-fault ring (R238). -/
structure JobFault where
  core : Nat
  tag : Nat
  sfva : Word
  scause : Word
  deriving DecidableEq, Repr

/-- The readiness map (Table 14.7), as the words at its offsets 0x00 to 0x20 and the bytes of SPAREMAP; DIE, COLMAP and the rest are
computed from Die and Core. failedCols counts are in Core. -/
structure ReadyMap where
  cores : BitVec 128
  trained : BitVec 32
  failed : BitVec 32
  linkUp : BitVec 16
  linkFailed : BitVec 16
  hostUp : Bool
  spare : Vector Byte 32
  deriving DecidableEq, Repr

/-- Firmware slots and attestation (R274, R275): the images of the two slots, the slot in use, the slot for the next reset, the fused
counter, and whether the module is in recovery. -/
structure Firmware where
  slot0 : List Byte
  slot1 : List Byte
  active : Bool
  next : Bool
  fused : Nat
  recovery : Bool
  deriving DecidableEq, Repr

/-- An answer of the mailbox or of data-object exchange (R262, R265, R275). -/
inductive Answer where
  | success
  | invalidInput
  | fwInfo (bytes : List Byte)
  | measurements (parts : List (List Byte))
  | spdm (bytes : List Byte)
  | hostRead (bytes : List Byte)
  | poisoned
  | error
  deriving DecidableEq, Repr

/-- The parts of a control thread that read memory: its two streams, and fetch. -/
inductive Port where
  | scalar
  | vector
  | fetch
  deriving DecidableEq, Repr

/-- What acts at the next step (log entry 3). -/
inductive Slot where
  | scalar
  | vector
  | event (i : Instr)
  | switch (core ctno : Nat)
  /-- The k-th buffered store of the acting control thread performs (R200). -/
  | drain (k : Nat)
  /-- A port of the acting control thread reads n bytes ahead of the load that will use them (R200). -/
  | peek (port : Port) (va : Word) (n : Nat)
  /-- What a port has read ahead is dropped. -/
  | forget (port : Port)
  /-- The k-th late access performs (R200). -/
  | perform (k : Nat)
  deriving DecidableEq, Repr

/-- MODEL'S OWN. The schedule: what acts at the next steps, the element order of indexed instructions, whether vector instructions
and stores are left in flight, whether loads and atomics perform later than they execute, whether a fetch uses a word kept from an earlier fetch,
at which element a pre-empted vector instruction stops, and how many lines a job moves in one step, 0 for all (log entries 3, 4, 5, 13, 24, 109, 121,
125). -/
structure Sched where
  slots : List Slot
  order : List Nat
  deferVector : Bool
  deferStores : Bool
  deferLoads : Bool
  keepFetched : Bool
  cut : Option Nat
  jobLines : Nat
  deriving DecidableEq, Repr

/-- A plain store that has not performed (R200, R211): its core, control thread and task, virtual and physical address, bytes, whether it is of the
vector stream and of which vector instruction, whether it takes ownership of its line (R182), the page-table entries its translation read
(R234), the FENCEs that hold later vector accesses for it, by interval and scope code (R202), the scope code at which it has performed (R199), where
that is narrower than .p: an agent of the scope then finds it performed; and the bits of each byte that it writes (R125). -/
structure BufStore where
  lcore : Nat
  ctno : Nat
  task : Word
  va : Word
  pa : Nat
  bytes : List Byte
  vec : Bool
  op : Nat
  own : Bool
  deps : List Nat
  beforeV : List (Nat × Nat)
  scope : Option Nat
  mask : Byte
  deriving DecidableEq, Repr

/-- A byte that the write-combining buffer holds: its offset in the line, its value, and the bits of it that are held. -/
structure HeldByte where
  off : Nat
  val : Byte
  mask : Byte
  deriving DecidableEq, Repr

/-- A line of the write-combining buffer of Bronze mode (R224): the core, control thread and task, physical line, virtual line, bytes held by
rising offset, the page-table entries its stores were translated through, the stash line they were made to, if any, and whether the cluster takes
ownership as the line performs: a store of the scalar stream is among them (R182). -/
structure WcLine where
  lcore : Nat
  ctno : Nat
  task : Word
  line : Nat
  va : Word
  bytes : List HeldByte
  deps : List Nat
  stash : Option Nat
  own : Bool
  deriving DecidableEq, Repr

/-- Bytes read ahead of the load that will use them (R200, R57): the reader, the physical address, the bytes, the entries the translation read,
how near the nearest other agent is that has written one of them since, as a scope code of Table 10.1, and whether the control thread's own streams
have. -/
structure Early where
  lcore : Nat
  ctno : Nat
  port : Port
  pa : Nat
  bytes : List Byte
  deps : List Nat
  seen : Option Nat
  own : Bool
  deriving DecidableEq, Repr

/-- What an access that performs late does: a load of n bytes, an atomic update, or a compare and swap of n bytes. -/
inductive LateOp where
  | load (n : Nat)
  | update (width op : BitVec 3) (v : Word)
  | cas (n want new : Nat)
  deriving DecidableEq, Repr

/-- Where the value of a late access goes: nowhere, an x register as LD writes it or as an atomic does, an element of a vector register, or a codebook. -/
inductive LateDest where
  | none
  | ld (r : Reg) (m : BitVec 5)
  | amo (r : Reg) (w : BitVec 3)
  | elem (reg w i : Nat) (m : BitVec 5) (ety sh bits : Nat)
  | book (c : Nat)
  deriving DecidableEq, Repr

/-- An access that has executed and performs later (R200, R208): its control thread, task and stream, the vector instruction that made it, its place, the
entries its translation read, what it does, where its value goes, the FENCEs that hold later vector accesses for it, by interval and scope code (R202), the
scope code at which it has performed, where that is narrower than .p (R199), and the bytes and flags that it has got once it has performed at home. -/
structure Late where
  lcore : Nat
  ctno : Nat
  task : Word
  vec : Bool
  seq : Nat
  pa : Nat
  cached : Bool
  deps : List Nat
  op : LateOp
  dest : LateDest
  beforeV : List (Nat × Nat)
  scope : Option Nat
  got : Option (List Byte × BitVec 5)
  deriving DecidableEq, Repr

/-- Memory and the caches around it. mem holds bytes by physical address (Table 11.5). owners lists the lines that a cluster's L1 owns; copies
the lines of which an L1 slice, named by its core, holds a shared copy (R181, R182); sbuf, wcb and early are what every control thread has
buffered and read ahead, and late the accesses that perform later, oldest first. -/
structure MemSt where
  mem : List Host.Cell
  slines : List SLine
  poison : List Nat
  owners : List (Nat × Nat)
  copies : List (Nat × Nat)
  wbuf : List (Nat × Nat)
  hostShared : List Nat
  biWait : List Nat
  cxlHeld : List Nat
  chains : List (Nat × List Update)
  races : List (Nat × Nat)
  tlb : List TlbEntry
  sbuf : List BufStore
  wcb : List WcLine
  early : List Early
  late : List Late
  deriving DecidableEq, Repr

/-- The lineage key of a continuation that a TSPAWN has named (R292): its root and address, the key, and the chunk of the task that named it. -/
structure ContKey where
  troot : Word
  va : Word
  key : Word
  chunk : Option Nat
  deriving DecidableEq, Repr

/-- What the distributors, group controllers, ring, Korier, firmware and the host keep. phases counts the completed phases of all groups, and heldBy
holds for each task the doublewords to which it has issued a held update, with that count then (R258). -/
structure PkgSt where
  groups : List Group
  phases : Nat
  heldBy : List (Word × Nat × Nat)
  chans : Vector Channel 16
  allot : List (Nat × Nat × Word)
  parked : List Parked
  saved : List Thread
  queues : List SubQueue
  launches : List Launch
  chunks : List Chunk
  taskCtr : Nat
  startCtr : Nat
  idCtr : Nat
  profsets : Vector (BitVec 7) 16
  objects : List CodeObject
  regions : List PageRegion
  contKeys : List ContKey
  frames : Vector Nat 4
  recRegion : Word
  sEntry : Word
  mEntry : Word
  jobFaults : List JobFault
  ready : ReadyMap
  fencedCores : List Nat
  containedPairs : List Nat
  fw : Firmware
  powerCap : Nat
  answers : List Answer
  owed : List Owed
  deriving DecidableEq, Repr

/-- The machine. ct is the acting control thread; others holds every other control thread that has a task or has run one. fresh counts
the free values used. -/
structure State where
  ct : Thread
  others : List Thread
  cores : Vector Core 128
  dies : Vector Die 4
  m : MemSt
  pkg : PkgSt
  sched : Sched
  pending : List Instr
  fresh : Nat
  deriving DecidableEq, Repr

/-- The real image of Table 8.3: N = 1, METRIC byte 01, every other byte zero (R166). -/
def realImage : BitVec 640 := 1#640 ||| (1#640 <<< 32)

def VecSt.start : VecSt where
  vcfg := Vcfg.start
  vl := 0
  vstart := 0
  vfile := Vector.replicate 32 0
  released := []
  preds := Vector.replicate 8 0
  pdone := 0
  queues := Vector.replicate 8 []
  viq := []
  owing := []
  stopped := none
  hold := false

def FpSt.start : FpSt := ⟨0, 0, 0, 0⟩

def OrdSt.start : OrdSt := ⟨false, false, 0, 0, 0, 0, [], [], false, []⟩

def UliSt.start : UliSt := ⟨0, 0, false, 0, false, false, Vector.replicate 8 0, []⟩

def MxSt.start : MxSt :=
  ⟨Vector.replicate 64 0, Vector.replicate 8 .empty, 0, Vector.replicate 8 0, Vector.replicate 4 realImage, []⟩

/-- Six dimensions of count 1 and step 0 (R195). -/
def dimsStart : List NestDim := List.replicate 6 ⟨1, 0⟩

def NestSt.start : NestSt := ⟨dimsStart, none, []⟩

def CtlSt.start : CtlSt := ⟨.none, false, none, false, none, [], none, none, none, false, false, 0, 0⟩

def SupSt.start : SupSt := ⟨0, 0, 0, 0, 0, 0, 0, 0⟩

/-- A control thread's task fields before any task has run on it (log entry 2). -/
def TaskSt.start : TaskSt where
  taskid := 0
  record := 0
  slotPa := none
  cont := none
  slot := 0
  chunk := none
  inst := 0
  isInst := false
  launch := none
  prio := 3
  share := 1
  minlg := 1
  startNo := 0
  profs := 0
  regLen := 256
  tiles := 0
  stashBase := 0
  stashLen := 0
  maps := []
  handler := 0
  frame := 0
  reflected := false
  lkey := 0
  events := 0
  spawns := 0
  heldStop := none
  heldSup := ⟨0, 0, 0, 0, 0, 0, 0, 0⟩
  diverged := false
  again := false

/-- A control thread that holds no task (log entry 2). -/
def Thread.idle (lcore ctno : Nat) : Thread where
  lcore := lcore
  ctno := ctno
  status := .free
  level := .u
  pc := 0
  x := Vector.replicate 32 0
  task := TaskSt.start
  vec := VecSt.start
  fp := FpSt.start
  ord := OrdSt.start
  uli := UliSt.start
  sup := SupSt.start
  mx := MxSt.start
  nest := NestSt.start
  ctl := CtlSt.start
  fwcsr := []

def Core.reset : Core where
  deques := Vector.replicate 4 []
  spillCap := 0
  pool := BitVec.allOnes 256
  jobs := []
  panels := []
  freeLanes := 8
  arrayBusy := false
  spareCols := 0
  stashUse := []

/-- Every register reads as zero at reset, except ECTL.SAMP, which reads as 15 (R278). -/
def Electrum.reset : Electrum where
  on := false
  frozen := false
  wrap := false
  replost := false
  repl := 0
  hist := false
  samp := 15
  ebase := 0
  esize := 0
  ewptr := 0
  erptr := 0
  elost := 0
  efilt := 0
  eseq := 0
  epclo := 0
  epchi := 0
  etval := 0
  trigs := Vector.replicate 4 0
  bps := Vector.replicate 4 ⟨0, 0, false, false, false⟩
  counts := Vector.replicate 4 0
  elog := 0
  elogsz := 0
  erepseq := 0
  elogptr := 0
  hists := []
  lossPend := 0

def Die.reset : Die := ⟨Electrum.reset, 0, 0, 0, false, false⟩

def ReadyMap.reset : ReadyMap := ⟨0, 0, 0, 0, 0, false, Vector.replicate 32 0⟩

/-- Every value is 0 at device reset (R106). -/
def Channel.reset : Channel := ⟨0, 0, Vector.replicate 4 (0, 0)⟩

def MemSt.reset : MemSt := ⟨[], [], [], [], [], [], [], [], [], [], [], [], [], [], [], []⟩

/-- The first frame of die d that Korier hands out (log entry 15). -/
def firstFrame (d : Nat) : Nat := d * 2 ^ 36 + 2 ^ 30

def PkgSt.reset : PkgSt where
  groups := []
  phases := 0
  heldBy := []
  chans := Vector.replicate 16 Channel.reset
  allot := []
  parked := []
  saved := []
  queues := []
  launches := []
  chunks := []
  taskCtr := 1
  startCtr := 0
  idCtr := 0
  profsets := Vector.replicate 16 0
  objects := []
  regions := []
  contKeys := []
  frames := Vector.ofFn fun d => firstFrame d.val
  recRegion := 0x0000700000000000
  sEntry := 0
  mEntry := 0
  jobFaults := []
  ready := ReadyMap.reset
  fencedCores := []
  containedPairs := []
  fw := ⟨[], [], false, false, 0, false⟩
  powerCap := 2400
  answers := []
  owed := []

/-- The machine right after device reset: no task runs, nothing has reported ready (R94, R273), and memory lists nothing. -/
def State.reset : State where
  ct := Thread.idle 0 0
  others := []
  cores := Vector.replicate 128 Core.reset
  dies := Vector.replicate 4 Die.reset
  m := MemSt.reset
  pkg := PkgSt.reset
  sched := ⟨[], [], false, false, false, false, none, 0⟩
  pending := []
  fresh := 0

end Sys2Proof.Machine
end

