-- ==== Sys2Proof/Machine/Ops.lean ====
section
/-!
DEFINITION. The shared operations over registers and control threads: reading and writing x registers, moving past a word, the
results an operation can have, taking a trap and returning from one (R237, R240, R355), the shadow bank of k0 to k7, and finding
control threads, cores and dies.
-/

namespace Sys2Proof.Machine

-- ## Words and bits

/-- Sign extension of a field to 64 bits. -/
def sext {w : Nat} (v : BitVec w) : Word := v.signExtend 64

/-- The number of bits of a value in the low n bits of a Nat. -/
def natBits (v lo n : Nat) : Nat := (v >>> lo) % 2 ^ n

/-- Bits [lo, lo+n) of a word as a number. -/
def bitsOf (v : Word) (lo n : Nat) : Nat := natBits v.toNat lo n

/-- v with bits [lo, lo+n) replaced by x. -/
def putBits {m : Nat} (v : BitVec m) (lo n : Nat) (x : Nat) : BitVec m :=
  let mask := (BitVec.ofNat m (2 ^ n - 1)) <<< lo
  (v &&& ~~~ mask) ||| ((BitVec.ofNat m (x % 2 ^ n)) <<< lo)

/-- Little-endian value of a list of bytes (R27, R85). -/
def leNat : List Byte → Nat
  | [] => 0
  | b :: r => b.toNat + 256 * leNat r

/-- The n bytes of a number, lowest first. -/
def toBytes : Nat → Nat → List Byte
  | 0, _ => []
  | n + 1, v => BitVec.ofNat 8 v :: toBytes n (v / 256)

/-- A number read as a two's complement integer of n bits. -/
def toSigned (n v : Nat) : Int := if v % 2 ^ n < 2 ^ (n - 1) then (v % 2 ^ n : Nat) else (v % 2 ^ n : Nat) - (2 ^ n : Nat)

/-- An integer reduced modulo 2^n. -/
def wrapN (n : Nat) (i : Int) : Nat := (i % (2 ^ n : Nat)).toNat

/-- ceil(a / b). -/
def ceilDiv (a b : Nat) : Nat := (a + b - 1) / b

-- ## x registers

namespace State

/-- Reads an x register; x0 reads as zero (R13). -/
def getX (s : State) (r : Reg) : Word := if r = 0 then 0 else s.ct.x[r.toNat]'r.isLt

/-- Writes an x register; a write to x0 is discarded (R13). -/
def setX (s : State) (r : Reg) (v : Word) : State :=
  if r = 0 then s else { s with ct := { s.ct with x := s.ct.x.set r.toNat v r.isLt } }

/-- Moves past the word: pc + 4, and the scalar stream waits for nothing. -/
def advance (s : State) : State :=
  { s with ct := { s.ct with pc := s.ct.pc + 4, ctl := { s.ct.ctl with wait := .none } } }

/-- Continues at a target address. -/
def jump (s : State) (t : Word) : State := { s with ct := { s.ct with pc := t, ctl := { s.ct.ctl with wait := .none } } }

/-- The scalar stream stays at the word and waits. -/
def waitFor (s : State) (w : Wait) : State := { s with ct := { s.ct with ctl := { s.ct.ctl with wait := w } } }

/-- Sets FSTAT flags of the acting control thread; they are sticky (R131). -/
def orFlags (s : State) (f : BitVec 5) : State := { s with ct := { s.ct with fp := { s.ct.fp with fstat := s.ct.fp.fstat ||| f } } }

/-- The next value of the counter of free values, and the state that has used it. -/
def useFresh (s : State) : Nat × State := (s.fresh, { s with fresh := s.fresh + 1 })

/-- Applies f to the acting control thread. -/
def onCt (s : State) (f : Thread → Thread) : State := { s with ct := f s.ct }
def onTask (s : State) (f : TaskSt → TaskSt) : State := { s with ct := { s.ct with task := f s.ct.task } }
def onVec (s : State) (f : VecSt → VecSt) : State := { s with ct := { s.ct with vec := f s.ct.vec } }
def onCtl (s : State) (f : CtlSt → CtlSt) : State := { s with ct := { s.ct with ctl := f s.ct.ctl } }
def onUli (s : State) (f : UliSt → UliSt) : State := { s with ct := { s.ct with uli := f s.ct.uli } }
def onOrd (s : State) (f : OrdSt → OrdSt) : State := { s with ct := { s.ct with ord := f s.ct.ord } }
def onMx (s : State) (f : MxSt → MxSt) : State := { s with ct := { s.ct with mx := f s.ct.mx } }
def onPkg (s : State) (f : PkgSt → PkgSt) : State := { s with pkg := f s.pkg }
def onMem (s : State) (f : MemSt → MemSt) : State := { s with m := f s.m }

/-- Core n; numbers at and above 128 name no core and read as an untouched one. -/
def core (s : State) (n : Nat) : Core := if h : n < 128 then s.cores[n] else Core.reset
def onCore (s : State) (n : Nat) (f : Core → Core) : State :=
  if h : n < 128 then { s with cores := s.cores.set n (f s.cores[n]) } else s

/-- Die d. -/
def die (s : State) (d : Nat) : Die := if h : d < 4 then s.dies[d] else Die.reset
def onDie (s : State) (d : Nat) (f : Die → Die) : State :=
  if h : d < 4 then { s with dies := s.dies.set d (f s.dies[d]) } else s

/-- Queues steps of the part that follow from this one. -/
def push (s : State) (is : List Instr) : State := { s with pending := s.pending ++ is }

/-- Every control thread that the state holds, the acting one first. -/
def threads (s : State) : List Thread := s.ct :: s.others

/-- Applies f to every control thread. -/
def mapThreads (s : State) (f : Thread → Thread) : State := { s with ct := f s.ct, others := s.others.map f }

end State

/-- The die of a core and its index there (R3): 32 cores a die. -/
def dieOf (lcore : Nat) : Nat := lcore / 32
/-- The cluster of a core (R3): four cores a cluster. -/
def clusterOf (lcore : Nat) : Nat := lcore / 4

def Thread.is (t : Thread) (core ctno : Nat) : Bool := decide (t.lcore = core) && decide (t.ctno = ctno)

/-- Control thread ctno of core; one the state does not list holds no task. -/
def State.thread (s : State) (core ctno : Nat) : Thread :=
  (s.threads.find? (·.is core ctno)).getD (Thread.idle core ctno)

/-- Puts a control thread back, adding it where the state does not list it. -/
def State.putThread (s : State) (t : Thread) : State :=
  if s.ct.is t.lcore t.ctno then { s with ct := t }
  else if s.others.any (·.is t.lcore t.ctno) then { s with others := s.others.map fun o => if o.is t.lcore t.ctno then t else o }
  else { s with others := s.others ++ [t] }

/-- Makes control thread ctno of core the acting one; the one that acted before joins the others. -/
def State.switchTo (s : State) (core ctno : Nat) : State :=
  if s.ct.is core ctno then s
  else { s with ct := s.thread core ctno, others := s.ct :: s.others.filter fun o => !o.is core ctno }

/-- Runs a step of the part on another control thread and comes back to the acting one. -/
def State.asThread (s : State) (core ctno : Nat) (f : State → State) : State :=
  let here := (s.ct.lcore, s.ct.ctno)
  (f (s.switchTo core ctno)).switchTo here.1 here.2

-- ## Traps

/-- What a trap records (R237): code, KIND, VEC, STASH, BAD, LEVEL, LPEND and SPEND of SCAUSE, the SEPC where it is not the acting
instruction, and the fault CSRs; those a trap does not name are zero. owed: the flags of the elements that a stopped vector instruction retired, which it
delivers when it completes (R131). -/
structure Trap where
  code : BitVec 8
  kind : BitVec 2 := 0
  vec : Bool := false
  stash : Bool := false
  bad : Bool := false
  lvl : BitVec 2 := 0
  lpend : Bool := false
  spend : Bool := false
  sepc : Option Word := none
  sfva : Word := 0
  sfelem : Word := 0
  sfstride : Word := 0
  sfrem : Word := 0
  sfwidth : Word := 0
  owed : BitVec 5 := 0
  held : Bool := false
  report : Bool := false
  deriving DecidableEq, Repr

namespace Code
-- Table 11.10
abbrev illegal : BitVec 8 := 0x01
abbrev profile : BitVec 8 := 0x02
abbrev priv : BitVec 8 := 0x03
abbrev align : BitVec 8 := 0x04
abbrev window : BitVec 8 := 0x05
abbrev pageAbsent : BitVec 8 := 0x06
abbrev pageProt : BitVec 8 := 0x07
abbrev bounds : BitVec 8 := 0x08
abbrev landing : BitVec 8 := 0x09
abbrev etype : BitVec 8 := 0x0A
abbrev queue : BitVec 8 := 0x0B
abbrev panelAbsent : BitVec 8 := 0x0C
abbrev panelStale : BitVec 8 := 0x0D
abbrev poison : BitVec 8 := 0x0E
abbrev contain : BitVec 8 := 0x0F
abbrev brk : BitVec 8 := 0x10
abbrev syscall : BitVec 8 := 0x11
abbrev group : BitVec 8 := 0x12
abbrev resource : BitVec 8 := 0x13
abbrev preempt : BitVec 8 := 0x20
end Code

def bit (b : Bool) : BitVec 1 := BitVec.ofBool b

/-- SCAUSE (Table 11.9). -/
def scauseOf (t : Trap) (eng : Bool) (prv : BitVec 2) : Word :=
  ((0 : BitVec 43) ++ prv ++ t.lvl ++ (0 : BitVec 1) ++ bit t.spend ++ bit eng ++ bit t.stash ++ bit t.bad ++ bit t.vec
    ++ t.kind ++ bit t.lpend ++ t.code)

/-- The level as SCAUSE.PRV codes it. -/
def Level.prv : Level → BitVec 2
  | .u => 0
  | .s => 1
  | .m => 2

/-- A word that a checked JALR has fetched is the next to run: jump and landing check are one (R330). -/
def State.landing (s : State) : Bool := s.ct.ctl.lpend || s.ct.ctl.target.any fun t => t.1 == s.ct.pc

/-- Writes the record of R237, and what Korier knows of the trap beside it: whether the page that it names is marked as migrating (R238), and whether it reports
the error of a job (R190). -/
def State.record (s : State) (t : Trap) (prv : BitVec 2) : State :=
  { s with ct := { s.ct with
      sup := { s.ct.sup with
        scause := scauseOf t false prv, sepc := t.sepc.getD s.ct.pc, sfva := t.sfva, sfelem := t.sfelem,
        sfstride := t.sfstride, sfrem := t.sfrem, sfwidth := t.sfwidth }
      ctl := { s.ct.ctl with held := t.held, report := t.report } } }

/-- Enters a level at an address; the scalar stream waits for nothing, and no fetched word is kept. -/
def State.enter (s : State) (l : Level) (a : Word) : State :=
  { s with ct := { s.ct with level := l, pc := a, ctl := { s.ct.ctl with wait := .none, lpend := false, target := none } } }

/-- TAKING A TRAP (R237, R239, R240): the record, then S at the supervisor entry address. A synchronous trap taken in S goes to M:
firmware fences the supervisor control thread and contains the contexts it was serving. In M the spec gives no entry. -/
def takeTrap (t : Trap) (s : State) : Host.Outcome State Fault Refusal :=
  match s.ct.level with
  | .u => .next ((s.record t Level.u.prv).enter .s s.pkg.sEntry)
  | .s =>
    let s1 := (s.record t Level.s.prv).enter .m s.pkg.mEntry
    .next { s1 with ct := { s1.ct with status := .fenced, ctl := { s1.ct.ctl with contain := true } } }
  | .m => .fault .trapInM

/-- What an operation answers: a value and a state, a trap, a wait at the word, or a containment (R271). -/
inductive Res (α : Type) where
  | ok (a : α) (s : State)
  | trap (t : Trap) (s : State)
  | wait (w : Wait) (s : State)
  | gone (s : State)

namespace Res

/-- Goes on with the value and the state of a result that has them. -/
def andThen {α β : Type} (r : Res α) (f : α → State → Res β) : Res β :=
  match r with
  | .ok a s => f a s
  | .trap t s => .trap t s
  | .wait w s => .wait w s
  | .gone s => .gone s

/-- Changes the trap of a result that has one. -/
def mapTrap {α : Type} (r : Res α) (f : Trap → Trap) : Res α :=
  match r with
  | .trap t s => .trap (f t) s
  | r => r

end Res

/-- Folds f over a list, stopping at the first answer that is not a value. -/
def foldRes {α β : Type} (f : β → α → State → Res β) : List α → β → State → Res β
  | [], b, s => .ok b s
  | a :: r, b, s => (f b a s).andThen fun b s => foldRes f r b s

/-- The outcome of a scalar instruction: the state, the trap at the instruction, the wait, or the pending containment. -/
def finish (r : Res Unit) : Host.Outcome State Fault Refusal :=
  match r with
  | .ok _ s => .next s
  | .trap t s => takeTrap t s
  | .wait w s => .next (s.waitFor w)
  | .gone s => .next (s.onCtl fun c => { c with contain := true })

-- ## Profiles (R52)

inductive Profile where
  | lb
  | lv
  | lm
  | la
  | lt
  | lo
  | lx
  deriving DecidableEq, Repr

def Profile.bit : Profile → Nat
  | .lb => 0
  | .lv => 1
  | .lm => 2
  | .la => 3
  | .lt => 4
  | .lo => 5
  | .lx => 6

/-- The task's set declares the profile. The set is the task's: it binds U, where tasks run (R52, R241). -/
def State.has (s : State) (p : Profile) : Bool := s.ct.level != .u || s.ct.task.profs.getLsbD p.bit

/-- Runs an instruction of a profile, or traps PROFILE (R52). -/
def withProfile (p : Profile) (s : State) (f : Host.Outcome State Fault Refusal) : Host.Outcome State Fault Refusal :=
  if s.has p then f else takeTrap { code := Code.profile } s

-- ## The shadow bank (R192, R242)

/-- The x registers of k0 to k7 (Table 1.1) are x21 to x28. -/
def kReg (n : Nat) : Nat := 21 + n

/-- Exchanges k0 to k7 with the other bank. -/
def State.swapBank (s : State) : State :=
  let x := (List.range 8).foldl (fun (x : Vector Word 32) n => x.setIfInBounds (21 + n) ((s.ct.uli.kother[n]?).getD 0)) s.ct.x
  let k := Vector.ofFn fun n : Fin 8 => s.ct.x[21 + n.val]'(by have := n.isLt; omega)
  { s with ct := { s.ct with x := x, uli := { s.ct.uli with kother := k } } }

end Sys2Proof.Machine
end

