-- ==== Sys2Proof/Machine/Flags.lean ====
section
/-!
DEFINITION. The FSTAT flags (Table 6.7), the condition codes (Table 2.12), and the stochastic hash (R133).
-/

namespace Sys2Proof.Machine

/-- A set of FSTAT flags. -/
abbrev FFlags := BitVec 5

namespace FFlags
/-- The result differs from the exact one. -/
abbrev nx : FFlags := 1
/-- Tiny and inexact (R122). -/
abbrev uf : FFlags := 2
/-- The rounded result exceeds the largest finite. -/
abbrev of : FFlags := 4
/-- A finite nonzero value divided by zero. -/
abbrev dz : FFlags := 8
/-- Invalid. -/
abbrev nv : FFlags := 16
end FFlags

/-- The MXFLAG bits (Table 7.7). -/
abbrev mxovf : BitVec 3 := 1
abbrev mxsat : BitVec 3 := 2
abbrev satn : BitVec 3 := 4

/-- hash32 of R133, arithmetic modulo 2^64. -/
def hash32 (seed isn : Word) (e : Nat) : Nat :=
  let z := seed ^^^ (isn * 0x9E3779B97F4A7C15#64) ^^^ (BitVec.ofNat 64 e * 0xC2B2AE3D27D4EB4F#64)
  let z := (z ^^^ (z >>> 30)) * 0xBF58476D1CE4E5B9#64
  let z := (z ^^^ (z >>> 27)) * 0x94D049BB133111EB#64
  let z := z ^^^ (z >>> 31)
  (z >>> 32).toNat

/-- A condition code between two integers, given how they compare (R36, R304): signed for codes 2 to 5, unsigned for 6 to 9. -/
def condHolds (c : BitVec 4) (eq slt ult : Bool) : Bool :=
  match c.toNat with
  | 0 => eq
  | 1 => !eq
  | 2 => slt
  | 3 => slt || eq
  | 4 => !(slt || eq)
  | 5 => !slt
  | 6 => ult
  | 7 => ult || eq
  | 8 => !(ult || eq)
  | 9 => !ult
  | _ => false

/-- A condition code between two 64-bit words. -/
def condWord (c : BitVec 4) (a b : Word) : Bool := condHolds c (a == b) (a.slt b) (a.ult b)

end Sys2Proof.Machine
end

