-- ==== Sys2Proof/Machine/Float.lean ====
section
/-!
DEFINITION. Number formats and conversions (R121 to R139): exact values, the six rounding modes, and the operations of the scalar and
vector units as an exact result rounded once.
-/

namespace Sys2Proof.Machine

/-- A floating-point format (Table 6.1): exponent bits, fraction bits, bias; e4m3 has no infinity. -/
structure FFmt where
  ebits : Nat
  mbits : Nat
  bias : Nat
  hasInf : Bool
  deriving DecidableEq, Repr

namespace FFmt
def e4m3 : FFmt := ⟨4, 3, 7, false⟩
def e5m2 : FFmt := ⟨5, 2, 15, true⟩
def bf16 : FFmt := ⟨8, 7, 127, true⟩
def f16 : FFmt := ⟨5, 10, 15, true⟩
def f32 : FFmt := ⟨8, 23, 127, true⟩
def f64 : FFmt := ⟨11, 52, 1023, true⟩

def width (f : FFmt) : Nat := f.ebits + f.mbits + 1
/-- Exponent of the last fraction bit of a subnormal. -/
def qmin (f : FFmt) : Int := 1 - (f.bias : Int) - (f.mbits : Int)
/-- Bits of the largest finite magnitude. -/
def maxBits (f : FFmt) : Nat := if f.hasInf then (2 ^ f.ebits - 1) * 2 ^ f.mbits - 1 else 2 ^ (f.ebits + f.mbits) - 2
/-- Bits of +∞. -/
def infBits (f : FFmt) : Nat := (2 ^ f.ebits - 1) * 2 ^ f.mbits
/-- The canonical NaN (R123). -/
def nanBits (f : FFmt) : Nat :=
  if f.hasInf then (2 ^ f.ebits - 1) * 2 ^ f.mbits + 2 ^ (f.mbits - 1) else 2 ^ (f.ebits + f.mbits) - 1
def signBit (f : FFmt) (neg : Bool) : Nat := if neg then 2 ^ (f.ebits + f.mbits) else 0
end FFmt

/-- An exact value: a NaN (nv: it raises NV where it is an operand), an infinity, or (−1)^neg·m·2^e, with m = 0 a signed zero. -/
inductive FVal where
  | nan (nv : Bool)
  | inf (neg : Bool)
  | fin (neg : Bool) (m : Nat) (e : Int)
  deriving DecidableEq, Repr

/-- Reads the low bits of a number under a format (R121). -/
def FFmt.read (f : FFmt) (v : Nat) : FVal :=
  let neg := natBits v (f.ebits + f.mbits) 1 == 1
  let e := natBits v f.mbits f.ebits
  let m := natBits v 0 f.mbits
  if f.hasInf then
    if e = 2 ^ f.ebits - 1 then
      if m = 0 then .inf neg else .nan (decide (m < 2 ^ (f.mbits - 1)))
    else if e = 0 then .fin neg m f.qmin
    else .fin neg (2 ^ f.mbits + m) (f.qmin + (e : Int) - 1)
  else
    if e = 2 ^ f.ebits - 1 ∧ m = 2 ^ f.mbits - 1 then .nan false
    else if e = 0 then .fin neg m f.qmin
    else .fin neg (2 ^ f.mbits + m) (f.qmin + (e : Int) - 1)

/-- Rounding in force: the mode and what .rsr draws on (R130, R133). -/
structure Rc where
  rm : BitVec 3
  seed : Word
  isn : Word
  e : Nat
  deriving DecidableEq, Repr

/-- Round to nearest, ties to even. -/
def Rc.rne : Rc := ⟨0, 0, 0, 0⟩

def Rc.hash (r : Rc) : Nat := if r.rm = 5 then hash32 r.seed r.isn r.e else 0

/-- Rounds m·2^e to a multiple k·2^q: k and whether the result is inexact (Table 6.6). -/
def roundAt (r : Rc) (neg : Bool) (m : Nat) (e q : Int) : Nat × Bool :=
  if q ≤ e then (m * 2 ^ (e - q).toNat, false)
  else
    let sh := (q - e).toNat
    let k := m >>> sh
    let rem := m % 2 ^ sh
    let up :=
      match r.rm.toNat with
      | 0 => decide (2 ^ sh < 2 * rem) || (decide (2 * rem = 2 ^ sh) && k % 2 == 1)
      | 1 => false
      | 2 => neg && decide (rem ≠ 0)
      | 3 => !neg && decide (rem ≠ 0)
      | 4 => decide (2 ^ sh ≤ 2 * rem)
      | 5 => decide (r.hash < (rem * 2 ^ 32) >>> sh)
      | _ => false
    (if up then k + 1 else k, decide (rem ≠ 0))

/-- The number of bits of m; 0 for 0. -/
def bitLen (m : Nat) : Nat := if m = 0 then 0 else m.log2 + 1

/-- The bits of k·2^q in format f, for q at or above qmin; k·2^q may exceed the largest finite. -/
def FFmt.pack (f : FFmt) (k : Nat) (q : Int) : Nat := (q - f.qmin).toNat * 2 ^ f.mbits + k

/-- Which overflow result a mode gives: the largest finite rather than ∞ (Table 6.6). -/
def overflowsToMax (rm : BitVec 3) (neg : Bool) : Bool :=
  match rm.toNat with
  | 1 => true
  | 2 => !neg
  | 3 => neg
  | _ => false

/-- Rounds a nonzero m·2^e to a format once (R122, R130, R131, R135). -/
def FFmt.round (f : FFmt) (r : Rc) (neg : Bool) (m : Nat) (e : Int) : Nat × FFlags :=
  let qu := e + (bitLen m : Int) - 1 - (f.mbits : Int)
  let q := max qu f.qmin
  let (k, inexact) := roundAt r neg m e q
  let bits := f.pack k q
  let nxf : FFlags := if inexact then FFlags.nx else 0
  let tiny :=
    let (ku, _) := roundAt r neg m e qu
    decide (qu < f.qmin) && (if qu + (f.mbits : Int) + 1 = f.qmin + (f.mbits : Int) then decide (ku < 2 ^ (f.mbits + 1)) else true)
  let ufl : FFlags := if tiny && inexact then FFlags.uf else 0
  if f.hasInf then
    if f.maxBits < bits then
      (f.signBit neg + (if overflowsToMax r.rm neg then f.maxBits else f.infBits), FFlags.of ||| FFlags.nx)
    else (f.signBit neg + bits, nxf ||| ufl)
  else
    let (kn, _) := roundAt Rc.rne neg m e q
    if f.maxBits < f.pack kn q then (f.signBit neg + f.maxBits, FFlags.of ||| FFlags.nx)
    else if f.maxBits < bits then (f.signBit neg + f.maxBits, FFlags.nx)
    else (f.signBit neg + bits, nxf ||| ufl)

/-- Delivers an exact value in a format (R123, R131, R134, R135). -/
def FFmt.deliver (f : FFmt) (r : Rc) (v : FVal) : Nat × FFlags :=
  match v with
  | .nan nv => (f.nanBits, if nv then FFlags.nv else 0)
  | .inf neg => if f.hasInf then (f.signBit neg + f.infBits, 0) else (f.nanBits, FFlags.nv)
  | .fin neg m e => if m = 0 then (f.signBit neg, 0) else f.round r neg m e

namespace FVal

def neg : FVal → FVal
  | .nan v => .nan v
  | .inf s => .inf (!s)
  | .fin s m e => .fin (!s) m e

def isNan : FVal → Bool
  | .nan _ => true
  | _ => false

/-- NV that the operand raises by itself. -/
def raises : FVal → Bool
  | .nan v => v
  | _ => false

def isZero : FVal → Bool
  | .fin _ 0 _ => true
  | _ => false

/-- The signed mantissa of a finite value at a lower or equal exponent. -/
def intAt (s : Bool) (m : Nat) (e q : Int) : Int :=
  let k : Int := (m * 2 ^ (e - q).toNat : Nat)
  if s then -k else k

/-- A finite value from a signed mantissa. -/
def ofInt (zneg : Bool) (i : Int) (e : Int) : FVal := if i = 0 then .fin zneg 0 0 else .fin (decide (i < 0)) i.natAbs e

/-- Exact sum; rdn gives an exact zero sum its sign (R144). -/
def add (rdn : Bool) : FVal → FVal → FVal
  | .nan a, .nan b => .nan (a || b)
  | .nan a, _ => .nan a
  | _, .nan b => .nan b
  | .inf a, .inf b => if a = b then .inf a else .nan true
  | .inf a, _ => .inf a
  | _, .inf b => .inf b
  | .fin s m e, .fin t n g =>
    let q := min e g
    ofInt (if m = 0 ∧ n = 0 ∧ s = t then s else rdn) (intAt s m e q + intAt t n g q) q

/-- Exact product. -/
def mul : FVal → FVal → FVal
  | .nan a, .nan b => .nan (a || b)
  | .nan a, _ => .nan a
  | _, .nan b => .nan b
  | .inf a, .inf b => .inf (a != b)
  | .inf a, .fin t n _ => if n = 0 then .nan true else .inf (a != t)
  | .fin s m _, .inf b => if m = 0 then .nan true else .inf (s != b)
  | .fin s m e, .fin t n g => .fin (s != t) (m * n) (e + g)

/-- Quotient, with DZ; a quotient that is not a dyadic number carries a last odd bit below 110 exact ones. -/
def div : FVal → FVal → FVal × FFlags
  | .nan a, .nan b => (.nan (a || b), 0)
  | .nan a, _ => (.nan a, 0)
  | _, .nan b => (.nan b, 0)
  | .inf _, .inf _ => (.nan true, 0)
  | .inf a, .fin t _ _ => (.inf (a != t), 0)
  | .fin s _ _, .inf b => (.fin (s != b) 0 0, 0)
  | .fin s m e, .fin t n g =>
    if n = 0 then (if m = 0 then (.nan true, 0) else (.inf (s != t), FFlags.dz))
    else if m = 0 then (.fin (s != t) 0 0, 0)
    else
      let sh := 110 + bitLen n - bitLen m
      let a := m <<< sh
      (.fin (s != t) (2 * (a / n) + (if a % n = 0 then 0 else 1)) (e - g - sh - 1), 0)

/-- Integer square root, one bit of the root at a time: root r so far, k bits to go. -/
def isqrtGo (n : Nat) : Nat → Nat → Nat
  | 0, r => r
  | k + 1, r =>
    let c := r + 2 ^ k
    isqrtGo n k (if c * c ≤ n then c else r)

def isqrt (n : Nat) : Nat := isqrtGo n (bitLen n / 2 + 1) 0

/-- Square root, with a last odd bit where it is not exact. -/
def sqrt : FVal → FVal
  | .nan a => .nan a
  | .inf s => if s then .nan true else .inf false
  | .fin s m e =>
    if m = 0 then .fin s 0 0
    else if s then .nan true
    else
      let (m, e) := if e % 2 = 0 then (m, e) else (2 * m, e - 1)
      let a := m <<< 220
      let r := isqrt a
      .fin false (2 * r + (if r * r = a then 0 else 1)) (e / 2 - 110 - 1)

/-- v·2^n; beyond 5000 the result of rounding does not change. -/
def scale (n : Int) : FVal → FVal
  | .fin s m e => .fin s m (e + max (-5000) (min 5000 n))
  | v => v

/-- Numeric order of values that are not NaN: strictly below. -/
def lt : FVal → FVal → Bool
  | .inf a, .inf b => a && !b
  | .inf a, .fin _ _ _ => a
  | .fin _ _ _, .inf b => !b
  | .fin s m e, .fin t n g => let q := min e g; decide (intAt s m e q < intAt t n g q)
  | _, _ => false

/-- Equality of values that are not NaN; zeros are equal. -/
def eq : FVal → FVal → Bool
  | .inf a, .inf b => a == b
  | .fin s m e, .fin t n g => let q := min e g; decide (intAt s m e q = intAt t n g q)
  | _, _ => false

def sign : FVal → Bool
  | .inf s => s
  | .fin s _ _ => s
  | .nan _ => false

end FVal

/-- Maximum or minimum under R143, on bits. -/
def FFmt.minmax (f : FFmt) (isMax : Bool) (a b : Nat) : Nat × FFlags :=
  let va := f.read a
  let vb := f.read b
  let nv : FFlags := if va.raises || vb.raises then FFlags.nv else 0
  let less (x y : FVal) := FVal.lt x y || (FVal.eq x y && x.sign && !y.sign)
  let bits :=
    match va.isNan, vb.isNan with
    | true, true => f.nanBits
    | true, false => b % 2 ^ f.width
    | false, true => a % 2 ^ f.width
    | false, false =>
      if isMax then (if less va vb then b % 2 ^ f.width else a % 2 ^ f.width)
      else (if less vb va then b % 2 ^ f.width else a % 2 ^ f.width)
  (bits, nv)

/-- The class code of Table 16.7. -/
def FFmt.classify (f : FFmt) (v : Nat) : Nat :=
  let neg := natBits v (f.ebits + f.mbits) 1
  let e := natBits v f.mbits f.ebits
  match f.read v with
  | .nan nv => 2 * (if nv then 5 else 4) + neg
  | .inf _ => 2 * 3 + neg
  | .fin _ m x =>
    let cls := if m = 0 then 0 else if e = 0 then 1 else 2
    let integral := decide (m = 0) || decide (0 ≤ x) || decide (m % 2 ^ (-x).toNat = 0)
    (if integral then 16 else 0) + 2 * cls + neg

/-- A floating-point condition (R315): the result and its flags. -/
def FFmt.compare (f : FFmt) (c : BitVec 4) (a b : Nat) : Bool × FFlags :=
  let va := f.read a
  let vb := f.read b
  let snan := va.raises || vb.raises
  if va.isNan || vb.isNan then
    (c == 1, if snan || decide (2 ≤ c.toNat) then FFlags.nv else 0)
  else
    let lt := FVal.lt va vb
    (condHolds c (FVal.eq va vb) lt lt, 0)

-- ## Element types (Table 2.8)

/-- Width in bytes of a type code. -/
def tyBytes (t : Nat) : Nat :=
  match t with
  | 0 => 1
  | 1 => 2
  | 2 => 4
  | 3 => 8
  | 4 => 1
  | 5 => 2
  | 6 => 4
  | 7 => 8
  | 8 => 1
  | 9 => 1
  | 10 => 2
  | 11 => 2
  | 12 => 4
  | _ => 8

def tyBits (t : Nat) : Nat := 8 * tyBytes t

/-- The format of a floating type code. -/
def tyFmt (t : Nat) : Option FFmt :=
  match t with
  | 8 => some .e4m3
  | 9 => some .e5m2
  | 10 => some .bf16
  | 11 => some .f16
  | 12 => some .f32
  | 13 => some .f64
  | _ => none

def tySigned (t : Nat) : Bool := decide (t < 4)
def tyIsInt (t : Nat) : Bool := decide (t < 8)

/-- Reads an integer type. -/
def tyInt (t v : Nat) : Int := if tySigned t then toSigned (tyBits t) v else (v % 2 ^ tyBits t : Nat)

/-- The range of an integer type. -/
def tyMin (t : Nat) : Int := if tySigned t then -(2 ^ (tyBits t - 1) : Nat) else 0
def tyMax (t : Nat) : Int := if tySigned t then (2 ^ (tyBits t - 1) : Nat) - 1 else (2 ^ tyBits t : Nat) - 1

/-- Saturates to an integer type: its bits (R138). -/
def tySat (t : Nat) (i : Int) : Nat := wrapN (tyBits t) (max (tyMin t) (min (tyMax t) i))

/-- Floating point to integer (R136). -/
def fvalToInt (r : Rc) (t : Nat) (v : FVal) : Nat × FFlags :=
  match v with
  | .nan _ => (0, FFlags.nv)
  | .inf s => (tySat t (if s then tyMin t else tyMax t), FFlags.nv)
  | .fin s m e =>
    if 2000 < e ∧ m ≠ 0 then (tySat t (if s then tyMin t else tyMax t), FFlags.nv)
    else
      let (k, inexact) := roundAt r s m e 0
      let i : Int := if s then -(k : Int) else k
      if i < tyMin t ∨ tyMax t < i then (tySat t i, FFlags.nv)
      else (wrapN (tyBits t) i, if inexact then FFlags.nx else 0)

/-- Conversion between any two types (R134 to R138): the destination's bits and the flags. -/
def convert (r : Rc) (src dst v : Nat) : Nat × FFlags :=
  match tyFmt src, tyFmt dst with
  | some fs, some fd =>
    if src = dst then
      match fs.read v with
      | .nan nv => (fd.nanBits, if nv then FFlags.nv else 0)
      | _ => (v % 2 ^ fd.width, 0)
    else fd.deliver r (fs.read v)
  | some fs, none => fvalToInt r dst (fs.read v)
  | none, some fd => fd.deliver r (FVal.ofInt false (tyInt src v) 0)
  | none, none => (tySat dst (tyInt src v), 0)

/-- The binary operations of FADD, FSUB, FMUL and FDIV. -/
def FFmt.binop (f : FFmt) (op : Nat) (r : Rc) (a b : Nat) : Nat × FFlags :=
  let va := f.read a
  let vb := f.read b
  let rdn := r.rm == 2
  match op with
  | 0 => f.deliver r (FVal.add rdn va vb)
  | 1 => f.deliver r (FVal.add rdn va vb.neg)
  | 2 => f.deliver r (FVal.mul va vb)
  | _ =>
    let (q, dz) := FVal.div va vb
    let (v, fl) := f.deliver r q
    (v, fl ||| dz)

/-- a·b + c with one rounding. -/
def FFmt.fma (f : FFmt) (r : Rc) (a b c : Nat) : Nat × FFlags :=
  f.deliver r (FVal.add (r.rm == 2) (FVal.mul (f.read a) (f.read b)) (f.read c))

def FFmt.sqrt (f : FFmt) (r : Rc) (a : Nat) : Nat × FFlags := f.deliver r (f.read a).sqrt

/-- 1/√a to 8 significant bits (R379). -/
def FFmt.rsqe (f : FFmt) (a : Nat) : Nat × FFlags :=
  match f.read a with
  | .nan nv => (f.nanBits, if nv then FFlags.nv else 0)
  | .inf s => if s then (f.nanBits, FFlags.nv) else (0, 0)
  | .fin s m e =>
    if m = 0 then (f.signBit s + f.infBits, FFlags.dz)
    else if s then (f.nanBits, FFlags.nv)
    else
      let (m, e) := if e % 2 = 0 then (m, e) else (2 * m, e - 1)
      let k := 60 + bitLen m
      let n := 2 ^ (2 * k) / m
      let root := FVal.isqrt n
      let y := 2 * root + (if root * root * m = 2 ^ (2 * k) then 0 else 1)
      let ye := -(e / 2) - (k : Int) - 1
      let (kk, _) := roundAt Rc.rne false y ye (ye + (bitLen y : Int) - 8)
      ((f.deliver Rc.rne (.fin false kk (ye + (bitLen y : Int) - 8))).1, 0)

/-- The significand and exponent of R378: s, e and the flags; e is a signed integer of the format's width. -/
def FFmt.split (f : FFmt) (a : Nat) : Nat × Nat × FFlags :=
  match f.read a with
  | .nan nv => (f.nanBits, 0, if nv then FFlags.nv else 0)
  | .inf _ => (a % 2 ^ f.width, 0, 0)
  | .fin s m e =>
    if m = 0 then (a % 2 ^ f.width, 0, 0)
    else
      let x := e + (bitLen m : Int) - 1
      ((f.deliver Rc.rne (.fin s m (e - x))).1, wrapN f.width x, 0)

/-- The value of an SE8 or SF8 scale code (Table 6.4). -/
def scaleVal (sf8 : Bool) (c : Nat) : FVal :=
  if sf8 then (if 0x7F ≤ c then .nan false else FFmt.e4m3.read c)
  else (if c = 0xFF then .nan false else .fin false 1 ((c : Int) - 127))

end Sys2Proof.Machine
end

