-- ==== Sys2Proof/Machine/Memory.lean ====
section
/-!
DEFINITION. Memory: the physical map (R232), reading and writing bytes with what coherence does to stash lines, translations and the
rest (R179, R182, R233, R234, R271), windows (R175 to R178), translation (R226 to R231), and the one operation that makes an address
ready for an access.
-/

namespace Sys2Proof.Machine

-- ## The physical map (Table 11.5)

/-- What lies at a physical address, and where it is. -/
inductive Home where
  | dram (die : Nat)
  | device
  | stash (core off : Nat)
  | peer (port off : Nat)
  | host
  | nowhere
  deriving DecidableEq, Repr

/-- Table 11.5. -/
def homeOf (pa : Nat) : Home :=
  if pa < 2 ^ 38 then .dram (pa / 2 ^ 36)
  else if pa < 2 ^ 48 then .nowhere
  else if pa < 2 ^ 48 + 2 ^ 32 then .device
  else if pa < 2 ^ 48 + 2 ^ 33 then .nowhere
  else if pa < 2 ^ 48 + 2 ^ 33 + 2 ^ 27 then
    .stash ((pa - (2 ^ 48 + 2 ^ 33)) / 2 ^ 20) ((pa - (2 ^ 48 + 2 ^ 33)) % 2 ^ 20)
  else if pa < 2 ^ 50 then .nowhere
  else if pa < 2 ^ 51 then .peer ((pa - 2 ^ 50) / 2 ^ 46) ((pa - 2 ^ 50) % 2 ^ 46)
  else if pa < 2 ^ 52 then .host
  else .nowhere

/-- Physical address of a stash byte through the aperture of Table 11.5. -/
def stashPa (core off : Nat) : Nat := 2 ^ 48 + 2 ^ 33 + core * 2 ^ 20 + off

/-- The peer's own map: an offset is the peer's device physical address (R268). -/
def populated (pa : Nat) : Bool :=
  match homeOf pa with
  | .nowhere => false
  | .peer _ off => decide (off < 2 ^ 38)
  | _ => true

/-- The line of an address. -/
def lineOf (pa : Nat) : Nat := pa - pa % 64

/-- The lines that [pa, pa+len) touches. -/
def linesOf (pa len : Nat) : List Nat :=
  if len = 0 then [] else (List.range ((lineOf (pa + len - 1) - lineOf pa) / 64 + 1)).map fun i => lineOf pa + 64 * i

-- ## Bytes

/-- What a byte of memory that nothing has written reads as (log entry 1). -/
def unlisted : Byte := 0

namespace Memory

/-- The canonical form of memory. -/
def wf (m : List Host.Cell) : Bool := Sparse.wf unlisted m

def byte (m : List Host.Cell) (pa : Nat) : Byte := Sparse.get unlisted m pa

/-- The n bytes from pa. -/
def bytes (m : List Host.Cell) (pa : Nat) : Nat → List Byte
  | 0 => []
  | n + 1 => byte m pa :: bytes m (pa + 1) n

/-- Writes bytes from pa on. -/
def write (m : List Host.Cell) (pa : Nat) : List Byte → List Host.Cell
  | [] => m
  | b :: r => write (Sparse.set unlisted m pa b) (pa + 1) r

end Memory

namespace State

def byteAt (s : State) (pa : Nat) : Byte := Memory.byte s.m.mem pa
def bytesAt (s : State) (pa n : Nat) : List Byte := Memory.bytes s.m.mem pa n
def numAt (s : State) (pa n : Nat) : Nat := leNat (s.bytesAt pa n)
def setBytes (s : State) (pa : Nat) (bs : List Byte) : State := { s with m := { s.m with mem := Memory.write s.m.mem pa bs } }

end State

-- ## Packets between dies (R280)

/-- A die receives a packet (R280): L := max(L, carried L + 1). -/
def receivePacket (s : State) (d carried : Nat) : State :=
  s.onDie d fun x => { x with causal := BitVec.ofNat 48 (max x.causal.toNat (carried + 1)) }

/-- A packet from die a to die b; one within a die crosses no boundary. -/
def packet (s : State) (a b : Nat) : State := if a = b then s else receivePacket s b (s.die a).causal.toNat

/-- The die of a device register: that of an Electrum block (R278); the other registers count as die 0's (log entry 46). -/
def deviceDie (pa : Nat) : Nat :=
  let off := pa - 2 ^ 48
  if 0x100000 ≤ off ∧ off < 0x140000 then (off - 0x100000) / 0x10000 else 0

/-- The die that a physical address is homed on (Table 11.5); ports count as die 0's (log entry 46). -/
def homeDie (pa : Nat) : Nat :=
  match homeOf pa with
  | .dram d => d
  | .stash n _ => dieOf n
  | .device => deviceDie pa
  | _ => 0

/-- A request from die a to die b and its reply. -/
def askDie (s : State) (a b : Nat) : State := packet (packet s a b) b a

/-- A request to the home of an address from the acting thread's die, and the reply (R280). -/
def roundTrip (s : State) (pa : Nat) : State := askDie s (dieOf s.ct.lcore) (homeDie pa)

/-- The home asks the dies of a list, and each answers. -/
def askFrom (s : State) (h : Nat) (ds : List Nat) : State := ds.foldl (fun s d => askDie s h d) s

-- ## Who accesses memory (R197)

/-- The agent of an access: a stream, or a job, of a control thread; a part of a die; the host or a peer. -/
inductive By where
  | thread (lcore ctno : Nat)
  | job (lcore ctno : Nat)
  | part (die : Nat)
  | outside
  deriving DecidableEq, Repr

/-- The core of an agent, and its control thread. -/
def By.core (b : By) : Option (Nat × Nat) :=
  match b with
  | .thread c t => some (c, t)
  | .job c t => some (c, t)
  | _ => none

/-- The narrowest scope of a control thread that includes the agent (Table 10.1). -/
def By.dist (b : By) (lcore ctno : Nat) : Nat :=
  match b.core, b with
  | some (c, t), _ =>
    if c = lcore then (if t = ctno then 0 else 1)
    else if clusterOf c = clusterOf lcore then 2
    else if dieOf c = dieOf lcore then 3
    else 4
  | none, .part d => if d = dieOf lcore then 3 else 4
  | none, _ => 5

/-- The cluster whose L1 the agent reaches. -/
def By.cluster (b : By) : Option Nat := b.core.map fun c => clusterOf c.1

/-- The die from which the agent asks a home. -/
def By.die (b : By) : Option Nat :=
  match b.core, b with
  | some c, _ => some (dieOf c.1)
  | none, .part d => some d
  | none, _ => none

/-- A request of an agent to the home of an address, and the reply (R280). -/
def askBy (s : State) (b : By) (pa : Nat) : State :=
  match b.die with
  | some d => askDie s d (homeDie pa)
  | none => s

-- ### Names of a location (R199)

/-- The global name that a byte has, or had last, as one of a stash line; other bytes name themselves (R199). -/
def lastName (s : State) (pa : Nat) : Nat :=
  match s.m.slines.find? (fun l => l.at_ == lineOf pa) with
  | some l => l.pa + (pa - l.at_)
  | none => pa

/-- [a, a+n) and [b, b+m) share a location, by whichever names. -/
def sameBytes (s : State) (a n b m : Nat) : Bool :=
  decide (lastName s a < lastName s b + m) && decide (lastName s b < lastName s a + n)

/-- The lines of [pa, pa+len), by their global names. -/
def nameLines (s : State) (pa len : Nat) : List Nat := (linesOf pa len).map fun l => lineOf (lastName s l)

/-- The line of a byte, by its global name. -/
def nameLine (s : State) (pa : Nat) : Nat := lineOf (lastName s pa)

/-- What has been read ahead shares a location with [pa, pa+n). -/
def Early.shares (s : State) (e : Early) (pa n : Nat) : Bool := sameBytes s e.pa e.bytes.length pa n

/-- A write by an agent at a distance; by the control thread's own streams, or by another agent. -/
def Early.see (b : By) (e : Early) : Early :=
  if b = .thread e.lcore e.ctno then { e with own := true }
  else { e with seen := some (min (b.dist e.lcore e.ctno) (e.seen.getD (b.dist e.lcore e.ctno))) }

/-- What has been read ahead learns that an agent wrote bytes of it. -/
def markEarly (s : State) (by_ : By) (pa n : Nat) : State :=
  if s.m.early.isEmpty then s
  else s.onMem fun m => { m with early := m.early.map fun e => if e.shares s pa n then e.see by_ else e }

/-- A device register of an Electrum block (R278). -/
def inElectrum (pa : Nat) : Bool := decide (2 ^ 48 + 0x100000 ≤ pa) && decide (pa < 2 ^ 48 + 0x140000)

/-- A home that answers no more (R270, R273): its die, core, device pair, port or link is lost. -/
def lostHome (s : State) (pa : Nat) : Bool :=
  match homeOf pa with
  | .dram d => (s.die d).fenced || (!s.pkg.containedPairs.isEmpty && s.pkg.containedPairs.contains ((8 * d + (Config.gddrDevice (lineOf pa)).val) / 2))
  | .stash n _ => s.pkg.fencedCores.contains n || (s.die (dieOf n)).fenced
  | .peer p _ => !s.pkg.ready.linkUp.getLsbD p
  | .host => !s.pkg.ready.hostUp
  | .device => inElectrum pa && (s.die (deviceDie pa)).fenced
  | _ => false

-- ## The combining store (R253, R257, R258)

/-- Tag order of R257: fence interval, LCORE, control-thread number, sequence. -/
def tagLe (a b : HeldTag) : Bool :=
  if a.interval ≠ b.interval then decide (a.interval < b.interval)
  else if a.lcore ≠ b.lcore then decide (a.lcore < b.lcore)
  else if a.ctno ≠ b.ctno then decide (a.ctno < b.ctno)
  else decide (a.seq ≤ b.seq)

/-- Inserts into a list kept in order, after equals. -/
def insertBy {α : Type} (le : α → α → Bool) (a : α) : List α → List α
  | [] => [a]
  | b :: r => if le b a then b :: insertBy le a r else a :: b :: r

/-- A stable sort by insertion. -/
def sortBy {α : Type} (le : α → α → Bool) (l : List α) : List α := l.foldl (fun acc a => insertBy le a acc) []

def updLe (a b : Update) : Bool :=
  match a.held, b.held with
  | some x, some y => tagLe x y
  | _, _ => true

/-- The order in which a chain is applied: held updates in tag order (R257), none of them past an update that is not held (R253). -/
def orderChain (us : List Update) : List Update :=
  let r := us.foldl (fun (acc : List Update × List Update) u =>
    if u.held.isSome then (acc.1, acc.2 ++ [u]) else (acc.1 ++ sortBy updLe acc.2 ++ [u], [])) ([], [])
  r.1 ++ sortBy updLe r.2

/-- Width in bytes of an update's width code (R38): .i32, .i64, .u32, .f32, .f64; 5 stands for the u64 of VAMO (R249). -/
def amoBytes (w : BitVec 3) : Nat := if w = 1 ∨ w = 4 ∨ w = 5 then 8 else 4

/-- The type code of an update's width code. -/
def amoType (w : BitVec 3) : Nat :=
  match w.toNat with
  | 0 => 2
  | 1 => 3
  | 2 => 6
  | 3 => 12
  | 4 => 13
  | _ => 7

/-- Table 12.1, for a type code: the new value and the flags of a floating add (R143, R131). -/
def atomicOp (op : BitVec 3) (ty : Nat) (old b : Nat) : Nat × FFlags :=
  let n := tyBits ty
  match op.toNat, tyFmt ty with
  | 0, some f => f.binop 0 Rc.rne old b
  | 0, none => ((old + b) % 2 ^ n, 0)
  | 1, some f => f.minmax false old b
  | 1, none => (if tyInt ty b < tyInt ty old then b % 2 ^ n else old % 2 ^ n, 0)
  | 2, some f => f.minmax true old b
  | 2, none => (if tyInt ty old < tyInt ty b then b % 2 ^ n else old % 2 ^ n, 0)
  | 3, _ => ((old &&& b) % 2 ^ n, 0)
  | 4, _ => ((old ||| b) % 2 ^ n, 0)
  | 5, _ => ((old ^^^ b) % 2 ^ n, 0)
  | _, _ => (b % 2 ^ n, 0)

/-- The agent of an update: the control thread that issued it. -/
def updateBy (u : Update) : By := .thread u.lcore u.ctno

/-- Applies one update to memory: new := op(old, v) with one rounding (R251). -/
def applyUpdate (s : State) (u : Update) : State :=
  let n := amoBytes u.width
  (markEarly s (updateBy u) u.addr n).setBytes u.addr (toBytes n (atomicOp u.op (amoType u.width) (s.numAt u.addr n) u.value.toNat).1)

/-- Applies the chain of one doubleword and frees its entry (R253, R258). -/
def applyChain (s : State) (dw : Nat) : State :=
  match s.m.chains.find? (fun c => c.1 == dw) with
  | none => s
  | some (_, us) => (orderChain us).foldl applyUpdate (s.onMem fun m => { m with chains := m.chains.filter fun c => c.1 != dw })

/-- Applies every chain of a line. -/
def applyLine (s : State) (line : Nat) : State :=
  if s.m.chains.isEmpty then s else (List.range 8).foldl (fun s i => applyChain s (line + 8 * i)) s

-- ## Stash lines (Table 9.3)

/-- A later full-line write clears the poison of a line (R271). -/
def clearPoison (s : State) (pa len : Nat) : State :=
  if s.m.poison.isEmpty then s
  else s.onMem fun m => { m with poison := m.poison.filter fun l => !(decide (pa ≤ l) && decide (l + 64 ≤ pa + len)) }

/-- Writes a DIRTY stash line back to its physical line, with every update that its bytes still wait for (R253). A lost home drops the
write (R270). -/
def State.writeBackLine (s : State) (l : SLine) : State :=
  if l.state = .dirty then
    let s1 := packet (applyLine s l.at_) (homeDie l.at_) (homeDie l.pa)
    if lostHome s1 l.pa then s1 else (clearPoison s1 l.pa 64).setBytes l.pa (s1.bytesAt l.at_ 64)
  else s

/-- Replaces the stash line at its place. -/
def putSLine (ls : List SLine) (l : SLine) : List SLine := ls.map fun o => if o.at_ = l.at_ then l else o

/-- An access of the global line by another name (Table 9.3, rows 3 and 4): a DIRTY line is written back; after a read it is CLEAN,
after a write a CLEAN or DIRTY line is MAPPED. -/
def syncStash (s : State) (line : Nat) (write : Bool) : State :=
  s.m.slines.foldl (fun s l =>
    if l.state ≠ .mapped ∧ l.pa = line then
      (askDie (s.writeBackLine l) (homeDie line) (homeDie l.at_)).onMem fun m =>
        { m with slines := putSLine m.slines { l with state := if write then .mapped else .clean } }
    else s) s

/-- Invalidation of what was derived from a page-table line, or from one entry of it (R234, Table 9.3 row 5). hit says which
dependences go. -/
def dropTranslations (s : State) (h : Nat) (hit : List Nat → Bool) (hitTlb : TlbEntry → Bool) : State :=
  let s0 := askFrom s h ((s.m.tlb.filter hitTlb).map fun e => dieOf e.lcore)
  let s1 := s0.onMem fun m => { m with tlb := m.tlb.filter fun e => !hitTlb e, early := m.early.filter fun e => !hit e.deps }
  s1.m.slines.foldl (fun s l =>
    if l.state ≠ .mapped ∧ hit l.deps then
      let s1 := askDie (s.writeBackLine l) h (homeDie l.at_)
      s1.onMem fun m => { m with slines := putSLine m.slines { l with state := .mapped, deps := [] } }
    else s) s1

-- ## The L1 (R181, R182)

/-- The core of a cluster whose slice may hold a line (R181): bits [7:6] of the address. -/
def sliceOf (cluster pa : Nat) : Nat := 4 * cluster + pa / 64 % 4

/-- The cluster holds the line, owned or shared. -/
def l1Holds (s : State) (cluster line : Nat) : Bool :=
  s.m.owners.contains (line, cluster) || s.m.copies.contains (sliceOf cluster line, line)

/-- The clusters that hold the line. -/
def l1Holders (s : State) (line : Nat) : List Nat :=
  ((s.m.owners.filter fun o => o.1 == line).map (·.2)) ++ ((s.m.copies.filter fun c => c.2 == line).map fun c => clusterOf c.1)

/-- What a write does with the L1 copies of its line: a cluster takes ownership; a byte-masked write is merged into the owning copy or a copy of
its own cluster; or every copy ends. -/
inductive Hold where
  | take (cluster : Nat)
  | merge (cluster : Option Nat)
  | recall
  deriving DecidableEq, Repr

/-- The clusters whose copy a write invalidates or forwards to, its own cluster's apart. -/
def Hold.others (h : Hold) (s : State) (line : Nat) : List Nat :=
  match h with
  | .take c => (l1Holders s line).filter (· != c)
  | .merge c => (l1Holders s line).filter fun o => some o != c
  | .recall => l1Holders s line

/-- The L1 copies of a line after a write (R182). -/
def l1Write (s : State) (h : Hold) (line : Nat) : State :=
  let s1 := askFrom s (homeDie line) ((h.others s line).map (· / 8))
  s1.onMem fun m =>
    match h with
    | .take c => { m with owners := m.owners.filter (·.1 != line) ++ [(line, c)], copies := m.copies.filter (·.2 != line) }
    | .merge c => { m with copies := m.copies.filter fun k => k.2 != line || some (clusterOf k.1) == c }
    | .recall => { m with owners := m.owners.filter (·.1 != line), copies := m.copies.filter (·.2 != line) }

/-- A read of a line by a cluster (R181): one that holds it asks nobody; else the home is asked, and asks an owner. A scalar load of a cached line
fills the cluster's copy, and an owner elsewhere then shares the line (log entry 95). -/
def l1Read (s : State) (fill : Bool) (lcore pa : Nat) : State :=
  let line := lineOf pa
  let c := clusterOf lcore
  if l1Holds s c line then s
  else
    let owners := (s.m.owners.filter fun o => o.1 == line).map (·.2)
    let s1 := packet (askFrom (packet s (dieOf lcore) (homeDie line)) (homeDie line) (owners.map (· / 8))) (homeDie line) (dieOf lcore)
    if fill then
      s1.onMem fun m => { m with owners := m.owners.filter (·.1 != line),
                                 copies := m.copies ++ owners.map (fun o => (sliceOf o line, line)) ++ [(sliceOf c line, line)] }
    else s1

-- ## Reads and writes that perform at home

def FillRec.mark (line : Nat) (r : FillRec) : FillRec := if r.lines.contains line then { r with written := true } else r

/-- A write sets the source-written bit of every fill that has registered the line (R152): the home tells the fill's core. -/
def markSource (s : State) (line : Nat) : State :=
  let hit (fs : List FillRec) := fs.any fun r => r.lines.contains line && !r.written
  let told := ((s.threads ++ s.pkg.saved).filter fun t => hit t.mx.fills).map (·.lcore) ++ (s.pkg.parked.filter fun p => hit p.fills).map (·.core)
  if !told.isEmpty then
    let upd (t : Thread) : Thread := { t with mx := { t.mx with fills := t.mx.fills.map (FillRec.mark line) } }
    ((told.foldl (fun s c => packet s (homeDie line) (dieOf c)) s).mapThreads upd).onPkg fun p =>
      { p with saved := p.saved.map upd, parked := p.parked.map fun k => { k with fills := k.fills.map (FillRec.mark line) } }
  else s

/-- A host copy of a written line is invalidated (R264); the host's own write leaves it. -/
def endHostCopy (s : State) (by_ : By) (line : Nat) : State :=
  if s.m.hostShared.contains line && by_ != .outside then
    s.onMem fun m => { m with hostShared := m.hostShared.filter (· != line), biWait := m.biWait ++ [line] }
  else s

/-- What coherence does with a line when bytes of it are written at their home (R152, R179, R182, R234, R264): other names of the line, the
translations derived from it, fills that read it, L1 copies, and a host copy. -/
def readyLine (s : State) (by_ : By) (h : Hold) (line : Nat) : State :=
  let s1 := if s.m.slines.isEmpty then s else syncStash s line true
  let s2 :=
    if s1.m.slines.isEmpty && s1.m.tlb.isEmpty && s1.m.early.isEmpty then s1
    else dropTranslations s1 (homeDie line) (fun ds => ds.any fun d => lineOf d == line) (fun e => e.deps.any fun d => lineOf d == line)
  endHostCopy (l1Write (markSource s2 line) h line) by_ line

/-- Applies the chain of one doubleword (R253); the home recalls a line that has been taken again since the update joined. -/
def settleDword (s : State) (dw : Nat) : State :=
  if s.m.chains.any (fun c => c.1 == dw) then applyChain (readyLine s (.part (homeDie dw)) .recall (lineOf dw)) dw else s

/-- Any other access to a doubleword waits until every update before it has been applied (R253). -/
def settle (s : State) (pa len : Nat) : State :=
  if s.m.chains.isEmpty then s
  else (List.range ((pa + len - 1) / 8 - pa / 8 + 1)).foldl (fun s i => settleDword s (8 * (pa / 8 + i))) s

/-- What coherence does before bytes are written at their home. -/
def readyWrite (s : State) (by_ : By) (h : Hold) (pa len : Nat) : State :=
  (linesOf pa len).foldl (fun s l => readyLine s by_ h l) (settle s pa len)

/-- The masked bits of a new byte over an old one (R125). -/
def blend (mask new old : Byte) : Byte := (new &&& mask) ||| (old &&& ~~~ mask)

/-- Writes bytes at their home. -/
def performHome (s : State) (by_ : By) (h : Hold) (pa : Nat) (bs : List Byte) : State :=
  (clearPoison (markEarly (readyWrite s by_ h pa bs.length) by_ pa bs.length) pa bs.length).setBytes pa bs

/-- Writes bits of bytes at their home: what the others hold then stays (R125). -/
def performBits (s : State) (by_ : By) (h : Hold) (pa : Nat) (mask : Byte) (bs : List Byte) : State :=
  if mask = 0xFF then performHome s by_ h pa bs
  else
    let s1 := markEarly (readyWrite s by_ h pa bs.length) by_ pa bs.length
    s1.setBytes pa ((bs.zip (s1.bytesAt pa bs.length)).map fun b => blend mask b.1 b.2)

/-- A line is held whole. -/
def fullLine (bs : List HeldByte) : Bool := decide (bs.length = 64) && bs.all (·.mask == 0xFF)

/-- Writes the listed bytes of one line at their home as one masked write (R182); a full line clears its poison. -/
def performMasked (s : State) (by_ : By) (h : Hold) (line : Nat) (bs : List HeldByte) : State :=
  let s1 := readyWrite s by_ h line 64
  bs.foldl (fun s b => (markEarly s by_ (line + b.off) 1).setBytes (line + b.off) [blend b.mask b.val (s.byteAt (line + b.off))])
    (if fullLine bs then clearPoison s1 line 64 else s1)

-- ## Buffered stores (R200, R211, R224)

/-- The contexts of a task take CONTAIN: one of its transactions was toward a fenced agent (R271). -/
def containTaskId (s : State) (task : Word) : State :=
  let upd (t : Thread) : Thread := if t.task.taskid = task then { t with ctl := { t.ctl with contain := true } } else t
  (s.mapThreads upd).onPkg fun p =>
    { p with saved := p.saved.map upd, parked := p.parked.map fun k => if k.task.taskid = task then { k with contain := true } else k }

/-- A store at its home by a core: the request crosses dies unless the core's cluster owns the line (R280). -/
def storeHome (s : State) (lcore ctno : Nat) (own : Bool) (pa : Nat) (mask : Byte) (bs : List Byte) : State :=
  let c := clusterOf lcore
  let s1 := if s.m.owners.contains (lineOf pa, c) then s else askDie s (dieOf lcore) (homeDie pa)
  performBits s1 (.thread lcore ctno) (if own then .take c else .merge (some c)) pa mask bs

/-- Where an access that was made to a byte performs now: one made to a stash line that is MAPPED again performs on its global line. -/
def placeNow (s : State) (pa : Nat) : Nat :=
  match s.m.slines.find? (fun l => l.at_ == lineOf pa) with
  | some l => if l.state = .mapped then l.pa + (pa - l.at_) else pa
  | none => pa

/-- A write by an agent takes the global line of a stash line from every other holder, and leaves the stash line DIRTY (Table 9.3). -/
def takeLine (s : State) (by_ : By) (l : SLine) : State :=
  (readyLine s by_ .recall l.pa).onMem fun m => { m with slines := putSLine m.slines { l with state := .dirty } }

/-- A write to a stash line that has become CLEAN since its access was made ready takes the line again. -/
def reopen (s : State) (by_ : By) (pa : Nat) : State :=
  match s.m.slines.find? (fun l => l.at_ == lineOf pa) with
  | some l => if l.state = .clean then takeLine s by_ l else s
  | none => s

/-- A home of the location, by either name, answers no more. -/
def lostEither (s : State) (pa : Nat) : Bool := lostHome s pa || lostHome s (lastName s pa)

/-- A buffered store performs. One toward a lost home is dropped, and its task contained (R270, R271). -/
def landStore (s : State) (e : BufStore) : State :=
  if lostEither s e.pa then containTaskId s e.task
  else
    let pa := placeNow s e.pa
    storeHome (reopen s (.thread e.lcore e.ctno) pa) e.lcore e.ctno e.own pa e.mask e.bytes

/-- RACE and RACEADDR of a task (Table 10.18). -/
def setRace (s : State) (task va : Word) : State :=
  let upd (t : Thread) : Thread :=
    if t.task.taskid = task then { t with ord := { t.ord with race := true, raceaddr := if t.ord.race then t.ord.raceaddr else va } } else t
  (s.mapThreads upd).onPkg fun p => { p with saved := p.saved.map upd }

/-- Race detection at a plain store of a task in Bronze mode (R225). -/
def raceCheck (s : State) (lcore : Nat) (task : Word) (line : Nat) (va : Word) : State :=
  let s1 := if s.m.races.any (fun r => r.1 == line && r.2 != lcore) then setRace s task va else s
  s1.onMem fun m => { m with races := (m.races.filter fun r => r.1 != line) ++ [(line, lcore)] }

/-- A line of the write-combining buffer performs as one masked write. One held for a stash line that still holds its global line is written there
(Table 9.3). -/
def landLine (s : State) (l : WcLine) : State :=
  if lostHome s l.line then containTaskId s l.task
  else
    let c := clusterOf l.lcore
    let by_ : By := .thread l.lcore l.ctno
    let s1 := askDie s (dieOf l.lcore) (homeDie l.line)
    let s2 :=
      match s1.m.slines.find? (fun x => x.pa == l.line && x.state != .mapped && some x.at_ == l.stash) with
      | some x =>
        let s2 := readyLine s1 by_ .recall l.line
        (performMasked (s2.setBytes x.at_ (s2.bytesAt l.line 64)) by_ .recall x.at_ l.bytes).onMem fun m =>
          { m with slines := putSLine m.slines { x with state := .dirty } }
      | none => performMasked s1 by_ (if l.own then .take c else .merge (some c)) l.line l.bytes
    raceCheck s2 l.lcore l.task l.line (l.va + BitVec.ofNat 64 (((l.bytes.map (·.off)).head?).getD 0))

/-- Two buffered stores of one stream that perform in order (R200, R210): scalar stores that share a byte; stores of two vector instructions that
touch one line. -/
def BufStore.before (s : State) (a b : BufStore) : Bool :=
  decide (a.lcore = b.lcore) && decide (a.ctno = b.ctno) && a.vec == b.vec &&
    (if a.vec then a.op != b.op && nameLine s a.pa == nameLine s b.pa else sameBytes s a.pa a.bytes.length b.pa b.bytes.length)

/-- The agent of a buffered store. -/
def BufStore.by_ (e : BufStore) : By := .thread e.lcore e.ctno

/-- The stores buffered before a store. -/
def olderThan (s : State) (e : BufStore) : List BufStore := s.m.sbuf.takeWhile (· != e)

-- ### What a control thread has stored, over what it reads

/-- The global name of a byte of a stash line that holds its global line, with that stash line; other bytes name themselves (R199). -/
def canonOf (s : State) (pa : Nat) : Nat × Option Nat :=
  match s.m.slines.find? (fun l => l.at_ == lineOf pa && l.state != .mapped) with
  | some l => (l.pa + (pa - l.at_), some l.at_)
  | none => (pa, none)

/-- Overlays the bits that buffered stores hold, by the name of their address, value and mask, over bytes read at home, oldest store first. -/
def overlay (buf : List (Nat × Byte × Byte)) (pa : Nat) (bs : List Byte) : List Byte :=
  if buf.isEmpty then bs
  else bs.zipIdx.map fun (b, i) => buf.foldl (fun (acc : Byte) c => if c.1 = pa + i then blend c.2.2 c.2.1 acc else acc) b

/-- What buffered stores hold. -/
def storeBytes (s : State) (es : List BufStore) : List (Nat × Byte × Byte) :=
  es.flatMap fun e => e.bytes.zipIdx.map fun (x, i) => (lastName s e.pa + i, x, e.mask)

/-- What the write-combining lines of a task hold (R224). -/
def heldBytes (s : State) (task : Word) : List (Nat × Byte × Byte) :=
  (s.m.wcb.filter fun l => l.task == task).flatMap fun l => l.bytes.map fun b => (l.line + b.off, b.val, b.mask)

/-- The agent is one of a scope at which an access of a control thread has performed (R198). -/
def inScope (scope : Option Nat) (b : By) (lcore ctno : Nat) : Bool :=
  match scope with
  | some n => decide (b.dist lcore ctno ≤ n)
  | none => false

/-- The agent is one of the scope at which the store has performed. -/
def BufStore.seenBy (e : BufStore) (b : By) : Bool := inScope e.scope b e.lcore e.ctno

-- ### Accesses that perform late (R200, R208, log entry 125)

/-- The agent of a late access. -/
def Late.by_ (l : Late) : By := .thread l.lcore l.ctno

/-- The agent is one of the scope at which the late access has performed: what it writes comes after the access. -/
def Late.heldFrom (l : Late) (b : By) : Bool := inScope l.scope b l.lcore l.ctno

/-- The bytes that it touches. -/
def Late.len (l : Late) : Nat :=
  match l.op with
  | .load n => n
  | .update w _ _ => amoBytes w
  | .cas n _ _ => n

/-- It writes at its home. -/
def Late.writes (l : Late) : Bool :=
  match l.op with
  | .load _ => false
  | _ => true

/-- It has still to perform, and shares a location with [pa, pa+n). -/
def Late.meets (l : Late) (s : State) (pa n : Nat) : Bool := l.got.isNone && sameBytes s l.pa l.len pa n

/-- What an atomic does with the L1 copies of its line: one of the scalar stream takes a cached one (R182). -/
def Late.hold (l : Late) : Hold := if !l.vec && l.cached then .take (clusterOf l.lcore) else .recall

/-- A host line that is updated in place is taken exclusively through CXL.cache (R264). -/
def takeHostLine (s : State) (pa : Nat) : State :=
  match homeOf pa with
  | .host => s.onMem fun m => { m with cxlHeld := m.cxlHeld.filter (· != lineOf pa) ++ [lineOf pa] }
  | _ => s

/-- What coherence does before bytes are read at their home: chains are applied, and dirty stash lines supply their data. -/
def openRead (s : State) (pa len : Nat) : State :=
  let s1 := settle s pa len
  if s1.m.slines.isEmpty then s1 else (linesOf pa len).foldl (fun s l => syncStash s l false) s1

/-- The bytes that a late load gets: those at their home, under what its own control thread has stored before it (R200). -/
def lateBytes (s : State) (l : Late) (pa n : Nat) : List Byte :=
  let own (e : BufStore) : Bool := !l.vec && !e.vec && decide (e.lcore = l.lcore) && decide (e.ctno = l.ctno)
  overlay (storeBytes s (s.m.sbuf.filter own)) (lastName s pa) (overlay (heldBytes s l.task) (lastName s pa) (s.bytesAt pa n))

/-- A late access that has been taken out of the list performs, and is back with what it got. What must precede it has performed. One toward a home that has
been lost gets nothing, and its task is contained (R270, R271). -/
def landLate (s : State) (l : Late) : State :=
  let put (s : State) (got : List Byte × FFlags) : State := s.onMem fun m => { m with late := m.late ++ [{ l with got := some got }] }
  let pa := placeNow s l.pa
  if lostEither s l.pa then containTaskId s l.task
  else
    match l.op with
    | .load n =>
      let s1 := openRead (l1Read s (!l.vec && l.cached) l.lcore pa) pa n
      put s1 (lateBytes s1 l pa n, 0)
    | .update w op v =>
      let n := amoBytes w
      let s1 := takeHostLine (readyLine (settle (askBy (reopen s l.by_ pa) l.by_ pa) pa n) l.by_ l.hold (lineOf pa)) pa
      let old := s1.numAt pa n
      let r := atomicOp op (amoType w) old v.toNat
      put ((markEarly s1 l.by_ pa n).setBytes pa (toBytes n r.1)) (toBytes n old, r.2)
    | .cas n want new =>
      let s1 := openRead (askBy s l.by_ pa) pa n
      let old := s1.numAt pa n
      let s2 :=
        if old = want then
          (markEarly (takeHostLine (readyLine (reopen s1 l.by_ pa) l.by_ l.hold (lineOf pa)) pa) l.by_ pa n).setBytes pa (toBytes n new)
        else takeHostLine (l1Write s1 l.hold (lineOf pa)) pa
      put s2 (toBytes n old, 0)

-- ### What precedes an access (R198, R199, R234)

/-- Buffered stores, write-combining lines and late accesses that must have performed. -/
structure Need where
  store : State → BufStore → Bool
  line : WcLine → Bool
  late : State → Late → Bool

/-- An access was translated through one of the lines. -/
def throughLines (lines deps : List Nat) : Bool := deps.any fun d => lines.contains (lineOf d)

/-- Before a write to the lines: whatever was translated through one of them as a page-table line (R234). -/
def needLines (lines : List Nat) : Need where
  store := fun _ e => throughLines lines e.deps
  line := fun l => throughLines lines l.deps
  late := fun _ l => l.got.isNone && throughLines lines l.deps

/-- Before a write by an agent to [pa, pa+len): whatever was translated through its lines; of the stores in old every one to one of the lines that has
performed at a scope (R199); and the late accesses to the bytes that have performed at a scope of the agent. -/
def needWrite (b : By) (old : List BufStore) (s : State) (pa len : Nat) : Need :=
  let names := nameLines s pa len
  let n := needLines (linesOf pa len ++ names)
  { store := fun s e => n.store s e || (e.scope.isSome && names.contains (nameLine s e.pa) && old.contains e),
    line := n.line,
    late := fun s l => n.late s l || (l.heldFrom b && l.meets s pa len) }

/-- Before a read by an agent of [pa, pa+len): the writes to its lines that have performed at a scope of the agent. -/
def needRead (b : By) (s : State) (pa len : Nat) : Need :=
  let names := nameLines s pa len
  { store := fun s e => e.seenBy b && names.contains (nameLine s e.pa),
    line := fun _ => false,
    late := fun s l => l.writes && l.heldFrom b && l.meets s pa len }

/-- What a need names performs, oldest first, each access after what must precede it in the same way. The first argument bounds what is left. -/
def drainNeed : Nat → Need → State → State
  | 0, _, s => s
  | n + 1, k, s =>
    match s.m.sbuf.find? (k.store s) with
    | some e0 =>
      let e := ((olderThan s e0).find? fun x => x.before s e0).getD e0
      let s1 := s.onMem fun m => { m with sbuf := m.sbuf.erase e }
      drainNeed n k (landStore (drainNeed n (needWrite e.by_ (olderThan s e) s1 e.pa e.bytes.length) s1) e)
    | none =>
      match s.m.wcb.find? k.line with
      | some l =>
        let s1 := s.onMem fun m => { m with wcb := m.wcb.erase l }
        drainNeed n k (landLine (drainNeed n (needWrite (.thread l.lcore l.ctno) s1.m.sbuf s1 l.line 64) s1) l)
      | none =>
        match s.m.late.find? (k.late s) with
        | some l =>
          let s1 := s.onMem fun m => { m with late := m.late.erase l }
          let s2 := drainNeed n (needRead l.by_ s1 l.pa l.len) s1
          drainNeed n k (landLate (if l.writes then drainNeed n (needWrite l.by_ s2.m.sbuf s2 l.pa l.len) s2 else s2) l)
        | none => s

/-- What is outstanding. -/
def outstanding (s : State) : Nat := s.m.sbuf.length + s.m.wcb.length + s.m.late.length

/-- What a need names performs. -/
def drainFor (k : Need) (s : State) : State :=
  if s.m.sbuf.isEmpty && s.m.wcb.isEmpty && s.m.late.isEmpty then s else drainNeed (outstanding s) k s

/-- Before a write by an agent to the lines of [pa, pa+len) performs, what must precede it does, of the stores those in old. -/
def drainBefore (b : By) (old : List BufStore) (s : State) (pa len : Nat) : State := drainFor (needWrite b old s pa len) s

/-- The same before a write that was not buffered. -/
def drainTranslated (s : State) (b : By) (pa len : Nat) : State := drainBefore b s.m.sbuf s pa len

/-- A write at the home of its bytes by an agent outside the streams: byte-masked (R182). -/
def writeHome (s : State) (by_ : By) (pa : Nat) (bs : List Byte) : State :=
  let s1 := drainTranslated s by_ pa bs.length
  let at_ := placeNow s1 pa
  performHome (reopen s1 by_ at_) by_ (.merge by_.cluster) at_ bs

/-- Drains the buffered stores that a test names, oldest first. -/
def drainWhere (f : BufStore → Bool) (s : State) : State :=
  if s.m.sbuf.isEmpty then s else drainFor { store := fun _ e => f e, line := fun _ => false, late := fun _ _ => false } s

/-- What coherence does before an agent reads bytes at their home: the writes that have performed at a scope of the agent perform there (R198, R199),
chains are applied, and dirty stash lines supply their data. The answer is where the bytes lie now. -/
def readyAt (s : State) (by_ : By) (pa len : Nat) : Nat × State :=
  let s1 := drainFor (needRead by_ s pa len) s
  (placeNow s1 pa, openRead s1 (placeNow s1 pa) len)

/-- The same where the bytes keep their place: no stash line holds them under this name. -/
def readyRead (s : State) (by_ : By) (pa len : Nat) : State := (readyAt s by_ pa len).2

/-- An agent reads n bytes at their home. -/
def readBytes (s : State) (by_ : By) (pa n : Nat) : List Byte × State :=
  let r := readyAt s by_ pa n
  (r.2.bytesAt r.1 n, r.2)

/-- An agent reads a number of n bytes at its home. -/
def readHome (s : State) (by_ : By) (pa n : Nat) : Nat × State :=
  let r := readBytes s by_ pa n
  (leNat r.1, r.2)

/-- The late accesses that a test names perform, oldest first. -/
def performWhere (f : Late → Bool) (s : State) : State :=
  if s.m.late.isEmpty then s
  else drainFor { store := fun _ _ => false, line := fun _ => false, late := fun _ l => l.got.isNone && f l } s

/-- Drains the lines of the write-combining buffer that a test names, oldest first (R224). -/
def drainLines (f : WcLine → Bool) (s : State) : State :=
  if s.m.wcb.isEmpty then s else drainFor { store := fun _ _ => false, line := f, late := fun _ _ => false } s

/-- A buffered store of the acting control thread. -/
def State.mine (s : State) (e : BufStore) : Bool := decide (e.lcore = s.ct.lcore) && decide (e.ctno = s.ct.ctno)

/-- A late access of the acting control thread. -/
def State.myLate (s : State) (l : Late) : Bool := decide (l.lcore = s.ct.lcore) && decide (l.ctno = s.ct.ctno)

/-- A Bronze line of the acting thread's task. -/
def State.myLine (s : State) (l : WcLine) : Bool := l.task == s.ct.task.taskid

/-- Drains the write-combining buffer of the acting thread's task, oldest line first (R224). -/
def drainWcb (s : State) : State := drainLines s.myLine s

/-- Drains the store buffers of the acting control thread, oldest first. -/
def drainSbuf (s : State) : State := drainWhere s.mine s

/-- Everything the acting control thread has buffered or left to perform late performs: the release of R205. -/
def drainStores (s : State) : State := performWhere s.myLate (drainWcb (drainSbuf s))

/-- What the acting thread has buffered for the lines of [pa, pa+len) performs. -/
def drainAt (s : State) (pa len : Nat) : State :=
  if s.m.sbuf.isEmpty && s.m.wcb.isEmpty then s
  else
    let ls := nameLines s pa len
    drainLines (fun l => s.myLine l && ls.contains l.line) (drainWhere (fun e => s.mine e && ls.contains (nameLine s e.pa)) s)

-- ## Where an access stands (R175 to R178, R226 to R231, R270, R273)

/-- Who makes an access: level, root page number, core, control thread, stash grant and launch. -/
structure Ctx where
  level : Level
  root : Nat
  troot : Word
  lcore : Nat
  ctno : Nat
  stashBase : Nat
  stashLen : Nat
  launch : Option Nat
  deriving DecidableEq, Repr

/-- The access state of the acting control thread. -/
def State.ctx (s : State) : Ctx :=
  ⟨s.ct.level, bitsOf s.ct.sup.troot 12 40, s.ct.sup.troot, s.ct.lcore, s.ct.ctno, s.ct.task.stashBase, s.ct.task.stashLen, s.ct.task.launch⟩

/-- The agent of an access. -/
def Ctx.by_ (c : Ctx) : By := .thread c.lcore c.ctno

/-- What an access is: SCAUSE.KIND (0 fetch, 1 load, 2 store, 3 read-modify-write), whether it is a scalar LD or ST (R230), whether it is
speculative (R236), and whether poison at its home raises nothing (an update of VAMO, R251). -/
structure Acc where
  kind : BitVec 2
  plain : Bool := false
  spec : Bool := false
  quiet : Bool := false
  deriving DecidableEq, Repr

def Acc.writes (a : Acc) : Bool := a.kind == 2 || a.kind == 3

/-- The window of a pointer (Table 9.1). -/
inductive Window where
  | global
  | local_ (off : Nat)
  | cluster (slot off : Nat)
  | none
  deriving DecidableEq, Repr

def windowOf (va : Word) : Window :=
  let top := bitsOf va 56 8
  if (top = 0 ∨ top = 0xFF) ∧ (bitsOf va 47 17 = 0 ∨ bitsOf va 47 17 = 2 ^ 17 - 1) then .global
  else if top = 0xFE ∧ bitsOf va 20 36 = 0 then .local_ (bitsOf va 0 20)
  else if top = 0xFD ∧ bitsOf va 22 34 = 0 then .cluster (bitsOf va 20 2) (bitsOf va 0 20)
  else .none

/-- The byte of a cluster-stash access lies in the grant of a running or pre-empted task of the accessor's launch (R178). -/
def grantedTo (s : State) (c : Ctx) (core off : Nat) : Bool :=
  let owns (t : Thread) := decide (t.lcore = core) && decide (t.task.stashBase ≤ off) && decide (off < t.task.stashBase + t.task.stashLen)
    && t.task.launch.isSome && t.task.launch == c.launch
  s.threads.any (fun t => t.status == .running && owns t) || s.pkg.saved.any owns

-- ### The home

def State.dieFenced (s : State) (d : Nat) : Bool := (s.die d).fenced

/-- The GDDR7 device of a device-memory address (R273). -/
def deviceOf (pa : Nat) : Nat := 8 * (pa / 2 ^ 36 % 4) + (Config.gddrDevice (lineOf pa)).val

/-- The device that holds an address is trained, or has failed and is corrected by its pair; where every device is, the mapping does not
matter. -/
def State.trainedAt (s : State) (pa : Nat) : Bool :=
  let up := s.pkg.ready.trained ||| s.pkg.ready.failed
  up == BitVec.allOnes 32 || up.getLsbD (deviceOf pa)

/-- Passes an access to its home (R270, R271, R273): CONTAIN toward a lost one, a wait for an untrained device. -/
def atHome (pa : Nat) (s : State) : Res Unit :=
  if lostHome s pa then .gone s
  else
    match homeOf pa with
    | .dram _ => if s.trainedAt pa then .ok () s else .wait .memory s
    | _ => .ok () s

/-- Where an access lands: the physical address, whether an L1 slice or a stash line may hold its line (R230, R268), and the page-table entries
that its translation read (R233). -/
structure Place where
  pa : Nat
  cached : Bool := false
  deps : List Nat := []
  deriving DecidableEq, Repr

/-- Lines that an L1 slice may hold: those of device memory and of the host. -/
def cacheable (pa : Nat) : Bool :=
  match homeOf pa with
  | .dram _ => true
  | .host => true
  | _ => false

-- ### Page tables

/-- The index of a level in a virtual address (R226). -/
def vaIndex (va : Word) (n : Nat) : Nat := bitsOf va (12 + 9 * n) 9

/-- A reserved bit of an entry is set (Table 11.2). -/
def pteReserved (e : Word) : Bool := bitsOf e 63 1 != 0 || bitsOf e 52 6 != 0

def pteV (e : Word) : Bool := e.getLsbD 0
def pteLeaf (e : Word) : Bool := e.getLsbD 1 || e.getLsbD 2 || e.getLsbD 3
def pteS16 (e : Word) : Bool := e.getLsbD 8
def pteG (e : Word) : Bool := e.getLsbD 7
def pteMt (e : Word) : Nat := bitsOf e 58 2
/-- Korier has marked the entry as migrating: SW = 0b001 (R227, R238). -/
def pteMoving (e : Word) : Bool := bitsOf e 9 3 == 1
/-- Bits of a leaf's page at a level (Table 11.3). -/
def pageBits (n : Nat) (s16 : Bool) : Nat := 12 + 9 * n + (if s16 then 4 else 0)
/-- Physical address of the page of a leaf, low bits of its PPN ignored (R228). -/
def pageBase (e : Word) (bits : Nat) : Nat := (bitsOf e 12 40 * 4096) / 2 ^ bits * 2 ^ bits

/-- A malformed entry (R228) at level n. -/
def pteBad (e : Word) (n : Nat) : Bool :=
  pteReserved e || pteMt e == 3 || (e.getLsbD 2 && !e.getLsbD 1) ||
  (if pteLeaf e then decide (n = 3) || !populated (pageBase e (pageBits n (pteS16 e)))
   else decide (n = 0) || pteS16 e || !populated (bitsOf e 12 40 * 4096))

/-- Where a walk ends: a leaf with its address, level and the entries read; an absent or malformed entry with its level and whether Korier has marked it as migrating;
poison. -/
inductive Walk where
  | leaf (e : Word) (at_ lvl : Nat) (deps : List Nat)
  | absent (lvl : Nat) (moving : Bool)
  | bad (lvl : Nat) (moving : Bool)
  | poison (lvl : Nat)
  deriving DecidableEq, Repr

/-- An agent reads one entry at its home (R280). A table in a range that Table 11.5 leaves unpopulated, which only a TROOT can name (R228), reads as
zeros: its entries are absent, not malformed (log entry 126). -/
def readPte (s : State) (by_ : By) (at_ : Nat) : Res Word :=
  (atHome at_ s).andThen fun _ s =>
    let r := readHome (askBy s by_ at_) by_ at_ 8
    .ok (BitVec.ofNat 64 r.1) r.2

/-- The entry that an access within a group of 16 uses (R229): the one walked, unless the group holds S16 leaves that differ from it;
then some one of those, and which is a free value. -/
def groupEntry (s0 : State) (by_ : By) (table idx : Nat) (e : Word) : Nat × Word × State :=
  let at0 := table + 128 * (idx / 16)
  let s := readyRead s0 by_ at0 128
  let es := (List.range 16).map fun i => (at0 + 8 * i, BitVec.ofNat 64 (s.numAt (at0 + 8 * i) 8))
  let alike := es.filter fun p => pteV p.2 && pteLeaf p.2 && pteS16 p.2
  if alike.isEmpty ∨ alike.all (fun p => p.2 == e) then (table + 8 * idx, e, s)
  else
    let (f, s1) := s.useFresh
    let p := (alike[Config.staleChoice f % alike.length]?).getD (table + 8 * idx, e)
    (p.1, p.2, s1)

/-- The entry that a walk uses at a level, and its address. -/
def entryAt (by_ : By) (va : Word) (n table : Nat) (s : State) : Res (Nat × Word) :=
  (readPte s by_ (table + 8 * vaIndex va n)).andThen fun e s =>
    if n < 3 then
      let g := groupEntry s by_ table (vaIndex va n) e
      .ok (g.1, g.2.1) g.2.2
    else .ok (table + 8 * vaIndex va n, e) s

/-- Where an entry ends the walk at level n; none for a pointer to the next table. -/
def endsWalk (s : State) (n : Nat) (deps : List Nat) (p : Nat × Word) : Option Walk :=
  if s.m.poison.contains (lineOf p.1) then some (.poison n)
  else if !pteV p.2 then some (.absent n (pteMoving p.2))
  else if pteBad p.2 n then some (.bad n (pteMoving p.2))
  else if pteLeaf p.2 then some (.leaf p.2 p.1 n (deps ++ [p.1]))
  else none

/-- The walk of R226 from level n down. -/
def walkFrom (by_ : By) (va : Word) : Nat → Nat → List Nat → State → Res Walk
  | 0, table, deps, s => (entryAt by_ va 0 table s).andThen fun p s => .ok ((endsWalk s 0 deps p).getD (.bad 0 false)) s
  | m + 1, table, deps, s =>
    (entryAt by_ va (m + 1) table s).andThen fun p s =>
      match endsWalk s (m + 1) deps p with
      | some w => .ok w s
      | none => walkFrom by_ va m (bitsOf p.2 12 40 * 4096) (deps ++ [p.1]) s

/-- The walk of an access's own root. -/
def walk (c : Ctx) (va : Word) (s : State) : Res Walk := walkFrom c.by_ va 3 (c.root * 4096) [] s

/-- Korier's mapping of the record region (R100), under every root: G, MT = 1, readable and writable from U, the pool of core n in its
stash (log entry 96). -/
def recordLeaf (s : State) (va : Word) : Option Walk :=
  let off := (va - s.pkg.recRegion).toNat
  if off < 2 ^ 21 then
    let pa := stashPa (off / 2 ^ 14) (0xFC000 + off % 2 ^ 14)
    some (.leaf (BitVec.ofNat 64 (pa / 4096 * 4096 + 0xF7 + 2 ^ 58)) 0 0 [])
  else none

/-- The translation an access uses: the walk of its root, or a G translation that a cache holds under any root (R230); which is a free
value where both exist. -/
def lookup (c : Ctx) (va : Word) (s : State) : Res Walk :=
  match recordLeaf s va with
  | some w => .ok w s
  | none =>
    match s.m.tlb.filter fun e => e.g && decide (e.base ≤ va.toNat % 2 ^ 48) && decide (va.toNat % 2 ^ 48 < e.base + 2 ^ e.bits) with
    | [] => walk c va s
    | e :: _ =>
      let (f, s1) := s.useFresh
      if Config.staleChoice f % 2 = 1 then .ok (.leaf e.leaf e.leafAt e.lvl e.deps) s1 else walk c va s1

/-- A leaf permits an access (R230, R232, R236), for the physical address pa it gives. A speculative access to an MT = 1 page counts among those refused
and dropped, though R236 only says that it is not made (log entry 128). -/
def permits (l : Level) (a : Acc) (e : Word) (pa : Nat) : Bool :=
  let r := e.getLsbD 1
  let w := e.getLsbD 2
  let x := e.getLsbD 3
  let u := e.getLsbD 4
  let mt := pteMt e
  let byKind :=
    match a.kind.toNat with
    | 0 => x && (match l with | .u => u | .s => !u | .m => true)
    | 1 => r
    | 2 => w
    | _ => r && w
  let byLevel := u || l != .u
  let byMt := (mt != 2 || (a.plain && l == .s)) && (!a.spec || mt == 0)
  let byHome :=
    match homeOf pa with
    | .stash _ _ => mt == 1
    | .device => mt == 2
    | _ => true
  byKind && byLevel && byMt && byHome

/-- Sets A, and D for a store, in the leaf before the access performs: a compare-and-swap at its home (R231); only translations derived from that
entry drop (R234). None where the entry is no longer the one walked. -/
def updateAD (s : State) (by_ : By) (a : Acc) (e : Word) (at_ : Nat) : Option State :=
  let e1 := e ||| (if a.writes then 0x60 else 0x20)
  if e1 = e then some s
  else
    let line := lineOf at_
    let s1 := readyRead (askBy s by_ at_) by_ at_ 8
    if s1.numAt at_ 8 ≠ e.toNat then none
    else
      let s2 := syncStash s1 line true
      let s3 := dropTranslations s2 (homeDie at_) (fun ds => ds.contains at_) (fun t => t.leafAt == at_)
      let s4 := endHostCopy (l1Write (markSource s3 line) .recall line) by_ line
      some ((markEarly s4 by_ at_ 8).setBytes at_ (toBytes 8 e1.toNat))

/-- The trap of a refused translation. -/
def faultTrap (code : BitVec 8) (a : Acc) (va : Word) (lvl : Nat) (bad : Bool) : Trap :=
  { code := code, kind := a.kind, lvl := BitVec.ofNat 2 lvl, bad := bad, sfva := va }

/-- What a walk gives an access: its place, or the fault. retry: what it does where the leaf has changed since it was walked (R231). -/
def useWalk (c : Ctx) (a : Acc) (va : Word) (w : Walk) (retry : State → Res Place) (s : State) : Res Place :=
  match w with
  | .absent n mv => .trap { faultTrap Code.pageAbsent a va n false with held := mv } s
  | .bad n mv => .trap { faultTrap Code.pageAbsent a va n true with held := mv } s
  | .poison n => .trap (faultTrap Code.poison a va n false) s
  | .leaf e at_ n ds =>
    let bits := pageBits n (pteS16 e)
    let pa := pageBase e bits + va.toNat % 2 ^ bits
    let p : Place := ⟨pa, pteMt e == 0 && cacheable pa, ds⟩
    if !populated pa then .trap { faultTrap Code.pageAbsent a va n true with held := pteMoving e } s
    else if !permits c.level a e pa then .trap { faultTrap Code.pageProt a va n false with held := pteMoving e } s
    else if a.spec then .ok p s
    else
      match updateAD s c.by_ a e at_ with
      | some s1 => .ok p s1
      | none => retry (s.onMem fun m => { m with tlb := m.tlb.filter fun t => t.leafAt != at_ })

/-- Translates a global address (R226 to R231). In M it is physical and not translated; device registers admit scalar LD and ST alone there too
(log entry 97). -/
def translate (c : Ctx) (a : Acc) (va : Word) (s : State) : Res Place :=
  if c.level = .m then
    let pa := va.toNat % 2 ^ 52
    if !populated pa then .trap (faultTrap Code.pageAbsent a va 0 true) s
    else if homeOf pa = .device ∧ !a.plain then .trap (faultTrap Code.pageProt a va 0 false) s
    else .ok ⟨pa, cacheable pa, []⟩ s
  else
    (lookup c va s).andThen fun w s =>
      useWalk c a va w (fun s => (walk c va s).andThen fun w s => useWalk c a va w (fun s => .wait .memory s) s) s

/-- A load or a stash fill of poisoned data traps POISON (R271); an AMO of a poisoned old value (R246) and a scalar store that takes ownership,
which returns the poison (R334), too. SCAUSE.LEVEL of it is 0: R237 gives LEVEL to a walk, and the model takes data that a translated access finds
poisoned for no part of the walk (log entry 127). -/
def checkPoison (a : Acc) (va : Word) (p : Place) (s : State) : Res Place :=
  if s.m.poison.contains (lineOf p.pa) ∧ (a.kind ≠ 2 ∨ (a.plain ∧ p.cached)) ∧ !a.quiet then .trap (faultTrap Code.poison a va 0 false) s
  else .ok p s

/-- An access at a place: its home, then poison. -/
def landAt (a : Acc) (va : Word) (p : Place) (s : State) : Res Place := (atHome p.pa s).andThen fun _ s => checkPoison a va p s

-- ### Stash windows

/-- The context under which a stash line is translated: the task that mapped it. -/
def SLine.ctx (c : Ctx) (l : SLine) : Ctx := { c with level := .u, root := bitsOf l.troot 12 40, troot := l.troot }

/-- The core of a stash address. -/
def stashCore (at_ : Nat) : Nat :=
  match homeOf at_ with
  | .stash n _ => n
  | _ => 0

/-- What a stash write checks (R230): R and W. -/
def Acc.inStash (a : Acc) : Acc := { a with kind := if a.writes then 3 else 1, plain := false }

/-- The global line at a place is copied into a stash line (Table 9.3), after what this thread has stored to it. -/
def copyLine (s : State) (by_ : By) (l : SLine) (p : Place) : SLine × State :=
  let line := lineOf p.pa
  let s1 := readyRead (l1Read (drainWhere (fun e => s.mine e && nameLine s e.pa == line) s) false (stashCore l.at_) line) by_ line 64
  let l1 := { l with state := .clean, pa := line, deps := p.deps }
  (l1, (s1.setBytes l.at_ (s1.bytesAt line 64)).onMem fun m => { m with slines := putSLine m.slines l1 })

/-- Fills a MAPPED stash line from its global line (Table 9.3). Where that line may be in no stash line (R230, R268), the access performs at its
home. -/
def fillLine (cx : Ctx) (a : Acc) (gva : Word) (l : SLine) (s : State) : Res (SLine ⊕ Place) :=
  (translate cx { kind := 1 } gva s).andThen fun p s =>
    if !p.cached then
      (translate cx a.inStash gva s).andThen fun p s => (landAt a.inStash gva p s).andThen fun p s => .ok (.inr p) s
    else (landAt { kind := 1 } gva p s).andThen fun p s => .ok (.inl (copyLine s cx.by_ l p).1) (copyLine s cx.by_ l p).2

/-- The mapped line of a stash byte. -/
def stashAt (s : State) (pa : Nat) : Option SLine := s.m.slines.find? fun l => l.at_ == lineOf pa

/-- What this thread has stored to the global line that a stash line holds performs first (R199, R200). -/
def ownFirst (s : State) (pa : Nat) : State :=
  match stashAt s pa with
  | some l => if l.state = .mapped then s else drainWhere (fun e => s.mine e && nameLine s e.pa == l.pa && lineOf e.pa != l.at_) s
  | none => s

/-- The line that an access of a mapped stash line uses: a MAPPED one is filled (Table 9.3). -/
def openLine (cx : Ctx) (a : Acc) (gva : Word) (l : SLine) (s : State) : Res (SLine ⊕ Place) :=
  if windowOf gva ≠ .global then .trap (faultTrap Code.window a gva 0 false) s
  else if l.state = .mapped then (if a.spec then .wait .memory s else fillLine cx a gva l s)
  else .ok (.inl l) s

/-- A write by an agent takes the global line from every other holder, what was translated through it having performed (R234), and leaves the stash line
DIRTY (Table 9.3). -/
def dirtyLine (s : State) (by_ : By) (l : SLine) : State := takeLine (drainTranslated s by_ l.pa 64) by_ l

/-- Uses an open line: a write checks W first (R230). -/
def useLine (cx : Ctx) (a : Acc) (gva : Word) (pa : Nat) (f : SLine ⊕ Place) (s : State) : Res Place :=
  match f with
  | .inr p => .ok p s
  | .inl l =>
    if a.writes && l.state != .dirty then (translate cx a.inStash gva s).andThen fun _ s => .ok { pa := pa, deps := l.deps } (dirtyLine s cx.by_ l)
    else .ok { pa := pa, deps := l.deps } s

/-- Makes a stash byte ready (Table 9.3). -/
def stashLine (c : Ctx) (a : Acc) (pa : Nat) (s : State) : Res Place :=
  match stashAt (ownFirst s pa) pa with
  | none => .ok { pa := pa } (ownFirst s pa)
  | some l =>
    let gva := l.va + BitVec.ofNat 64 (pa - l.at_)
    ((openLine (l.ctx c) a gva l (ownFirst s pa)).andThen fun f s => useLine (l.ctx c) a gva pa f s).mapTrap fun t =>
      { t with stash := true, kind := a.kind, sfva := gva }

/-- The trap of a pointer that lies in no window. -/
def windowTrap (a : Acc) (va : Word) : Trap := faultTrap Code.window a va 0 false

/-- An access to a place: one in the stash aperture is an access to that stash byte (R232). -/
def enterPlace (c : Ctx) (a : Acc) (va : Word) (p : Place) (s : State) : Res Place :=
  (landAt a va p s).andThen fun p s =>
    match homeOf p.pa with
    | .stash _ _ => stashLine c a p.pa s
    | _ => .ok p s

/-- MAKES AN ACCESS READY: window (R175, R176), translation, home and poison; the place of its first byte. The access has
passed its alignment check before (R333, R385). -/
def resolve (c : Ctx) (a : Acc) (va : Word) (len : Nat) (s : State) : Res Place :=
  if c.level = .m then (translate c a va s).andThen fun p s => enterPlace c a va p s
  else
    match windowOf va, windowOf (va + BitVec.ofNat 64 (len - 1)) with
    | .global, .global => (translate c a va s).andThen fun p s => enterPlace c a va p s
    | .local_ off, .local_ last =>
      if last < c.stashLen then enterPlace c a va { pa := stashPa c.lcore (c.stashBase + off) } s
      else .trap (windowTrap a va) s
    | .cluster slot off, .cluster slot2 last =>
      let core := 4 * clusterOf c.lcore + slot
      if slot ≠ slot2 then .trap (windowTrap a va) s
      else if c.level = .u ∧ (0xF0000 ≤ last ∨ ¬ grantedTo s c core off) then .trap (faultTrap Code.pageProt a va 0 false) s
      else enterPlace c a va { pa := stashPa core off } s
    | _, _ => .trap (windowTrap a va) s

/-- An access that must be aligned to its length: ALIGN comes before the window (R333, R385). -/
def resolveAligned (c : Ctx) (a : Acc) (va : Word) (len : Nat) (s : State) : Res Place :=
  if va.toNat % len ≠ 0 then .trap (faultTrap Code.align a va 0 false) s else resolve c a va len s

-- ## Physical accesses of distributors, Korier and Electrum

/-- The home of a physical address answers (R270, R273). -/
def State.answers (s : State) (pa : Nat) : Bool := !lostHome s pa && homeOf pa != .device && populated pa

/-- The device of a physical address, where it is device memory, is in use (R273). -/
def State.inUse (s : State) (pa : Nat) : Bool :=
  match homeOf pa with
  | .dram _ => s.trainedAt pa
  | _ => true

/-- The devices of [pa, pa+n) are in use, as far as they answer. -/
def State.inUseFor (s : State) (pa n : Nat) : Bool := (linesOf pa n).all fun l => !s.answers l || s.inUse l

/-- The pieces of [pa, pa+n) that lie in one line each: an offset and a length. -/
def pieces (pa n : Nat) : List (Nat × Nat) := (linesOf pa n).map fun l => (max l pa - pa, min (l + 64) (pa + n) - max l pa)

/-- A write at the homes of physical addresses by a part of die d: a line toward a home that does not answer is dropped (R270). -/
def landPhys (s : State) (d pa : Nat) (bs : List Byte) : State :=
  if (linesOf pa bs.length).all s.answers then writeHome (askDie s d (homeDie pa)) (.part d) pa bs
  else
    (pieces pa bs.length).foldl (fun s p =>
      if s.answers (pa + p.1) then writeHome (askDie s d (homeDie (pa + p.1))) (.part d) (pa + p.1) ((bs.drop p.1).take p.2) else s) s

/-- A write by a part of die d; toward a device that is not trained it waits (R273, log entry 124). -/
def writePhys (s : State) (d pa : Nat) (bs : List Byte) : State :=
  if !s.inUseFor pa bs.length then s.onPkg fun p => { p with owed := p.owed ++ [.write d pa bs] } else landPhys s d pa bs

/-- A read by a part of die d. What the poisoned data of a line whose home does not answer reads as is a free value (R270, log entry 130); a poisoned line on
a home that answers gives the part its bytes (log entry 141). -/
def readPhys (s : State) (d pa n : Nat) : Nat × State :=
  if (linesOf pa n).all s.answers then readHome (askDie s d (homeDie pa)) (.part d) pa n
  else
    (pieces pa n).foldl (fun (a : Nat × State) p =>
      let r :=
        if a.2.answers (pa + p.1) then readHome (askDie a.2 d (homeDie (pa + p.1))) (.part d) (pa + p.1) p.2
        else ((Config.deviceValue a.2.useFresh.1).toNat % 256 ^ p.2, a.2.useFresh.2)
      (a.1 + r.1 * 256 ^ p.1, r.2)) (0, s)

/-- The access state of a control thread. -/
def Thread.ctx (t : Thread) : Ctx :=
  ⟨t.level, bitsOf t.sup.troot 12 40, t.sup.troot, t.lcore, t.ctno, t.task.stashBase, t.task.stashLen, t.task.launch⟩

end Sys2Proof.Machine
end

