-- ==== Sys2Proof/Machine/Electrum.lean ====
section
/-!
DEFINITION. Electrum (R277 to R295): the register block of a die, records, filters, triggers, histograms, marks, breakpoints and
replay, and the device registers that the spec describes (R273, R278).
-/

namespace Sys2Proof.Machine

-- ## The register block

namespace Electrum

/-- A buffer address and size that R278 allows: in device GDDR7, 2^4 to 2^24 slots. -/
def baseOk (b : Word) (sz : BitVec 5) : Bool := decide (b.toNat < 2 ^ 38) && decide (4 ≤ sz.toNat) && decide (sz.toNat ≤ 24)

/-- EBAD: EBASE or ESIZE is invalid, so ON reads as 0. A block that is off with both still zero, as at reset, reads as zero (log entry 25). -/
def ebad (e : Electrum) : Bool := (e.on || e.ebase != 0 || e.esize != 0) && !baseOk e.ebase e.esize
def live (e : Electrum) : Bool := e.on && !e.ebad

/-- REPL 3 acts as 0. -/
def recording (e : Electrum) : Bool := e.repl == 1
def replaying (e : Electrum) : Bool := e.repl == 2

def ectl (e : Electrum) : Word :=
  (0 : BitVec 48) ++ e.samp ++ bit e.hist ++ (0 : BitVec 1) ++ e.repl ++ (0 : BitVec 2) ++ bit e.replost ++ bit e.ebad
    ++ (0 : BitVec 1) ++ bit e.wrap ++ bit e.frozen ++ bit e.live

/-- The histogram of die-core c, engine g. -/
def histOf (e : Electrum) (c g : Nat) : Histogram :=
  (e.hists.find? fun h => h.core == c && h.engine == g).getD ⟨c, g, 0, Vector.replicate 32 0⟩

def putHist (e : Electrum) (h : Histogram) : Electrum :=
  { e with hists := (e.hists.filter fun o => !(o.core == h.core && o.engine == h.engine)) ++ [h] }

def bpCtl (b : Breakpoint) : Word := (0 : BitVec 46) ++ bit b.en ++ bit b.dump ++ bit b.een ++ b.elem

/-- The 8-byte register at an offset of the block; offsets that Table 15.1 does not list read as zero. -/
def read (e : Electrum) (off : Nat) : Word :=
  if off = 0x000 then e.ectl
  else if off = 0x008 then e.ebase
  else if off = 0x010 then e.esize.setWidth 64
  else if off = 0x018 then e.ewptr
  else if off = 0x020 then e.erptr
  else if off = 0x028 then e.elost
  else if off = 0x030 then e.efilt.setWidth 64
  else if off = 0x038 then e.eseq
  else if off = 0x040 then e.epclo
  else if off = 0x048 then e.epchi
  else if off = 0x050 then e.etval
  else if 0x080 ≤ off ∧ off < 0x0A0 then ((e.trigs[(off - 0x080) / 8]?).getD 0).setWidth 64
  else if 0x0C0 ≤ off ∧ off < 0x100 then
    let b := (e.bps[(off - 0x0C0) / 16]?).getD ⟨0, 0, false, false, false⟩
    if off % 16 = 0 then b.pc else bpCtl b
  else if 0x100 ≤ off ∧ off < 0x120 then (e.counts[(off - 0x100) / 8]?).getD 0
  else if off = 0x140 then e.elog
  else if off = 0x148 then e.elogsz.setWidth 64
  else if off = 0x150 then e.erepseq
  else if off = 0x158 then e.elogptr
  else if 0x800 ≤ off ∧ off < 0xC00 then (e.histOf ((off - 0x800) / 32) ((off - 0x800) / 8 % 4)).ctl
  else if 0x4000 ≤ off ∧ off < 0x8000 then
    let h := e.histOf ((off - 0x4000) / 0x200) ((off - 0x4000) / 0x80 % 4)
    let i := (off % 0x80) / 4
    ((h.buckets[i + 1]?).getD 0) ++ ((h.buckets[i]?).getD 0)
  else 0

/-- Keeps the listed bits [lo, lo+n) of a written value. -/
def keep (v : Word) (lo n : Nat) : Word := BitVec.ofNat 64 (bitsOf v lo n * 2 ^ lo)

/-- ECTL after a write (Table 15.1): CLR sets the pointers and ELOST to 0, and the drops of which a LOSS record is still to tell stay counted (R288). How REPLOST
is cleared, of which the table says 'Sticky' alone, is the model's choice: by a write of 0 to its bit, as FIRED is (log entry 143). -/
def writeEctl (e : Electrum) (v : Word) : Electrum :=
  let e1 := { e with on := v.getLsbD 0, frozen := v.getLsbD 1, wrap := v.getLsbD 2, replost := e.replost && v.getLsbD 5,
                     repl := v.extractLsb' 8 2, hist := v.getLsbD 11, samp := v.extractLsb' 12 4 }
  if v.getLsbD 3 then { e1 with ewptr := 0, erptr := 0, elost := 0 } else e1

/-- A write of a register (Table 15.1). -/
def write (e : Electrum) (off : Nat) (v : Word) : Electrum :=
  if off = 0x000 then e.writeEctl v
  else if off = 0x008 then { e with ebase := keep v 12 40 }
  else if off = 0x010 then { e with esize := v.extractLsb' 0 5 }
  else if off = 0x020 then { e with erptr := v }
  else if off = 0x028 then { e with elost := 0 }
  else if off = 0x030 then { e with efilt := v.extractLsb' 0 6 }
  else if off = 0x038 then { e with eseq := v }
  else if off = 0x040 then { e with epclo := keep v 0 48 }
  else if off = 0x048 then { e with epchi := keep v 0 48 }
  else if off = 0x050 then { e with etval := v }
  else if 0x080 ≤ off ∧ off < 0x0A0 then
    let n := (off - 0x080) / 8
    let old := (e.trigs[n]?).getD 0
    let fired := old.getLsbD 13 && v.getLsbD 13
    { e with trigs := e.trigs.setIfInBounds n (bit fired ++ v.extractLsb' 8 5 ++ (0 : BitVec 2) ++ v.extractLsb' 0 6) }
  else if 0x0C0 ≤ off ∧ off < 0x100 then
    let n := (off - 0x0C0) / 16
    let b := (e.bps[n]?).getD ⟨0, 0, false, false, false⟩
    let b1 : Breakpoint := if off % 16 = 0 then { b with pc := keep v 2 46 }
      else { b with elem := v.extractLsb' 0 15, een := v.getLsbD 15, dump := v.getLsbD 16, en := v.getLsbD 17 }
    { e with bps := e.bps.setIfInBounds n b1 }
  else if 0x100 ≤ off ∧ off < 0x120 then
    if v = 0 then { e with counts := e.counts.setIfInBounds ((off - 0x100) / 8) 0 } else e
  else if off = 0x140 then { e with elog := keep v 12 40 }
  else if off = 0x148 then { e with elogsz := v.extractLsb' 0 5 }
  else if off = 0x150 then { e with erepseq := v }
  else if off = 0x158 then (if e.recording || e.replaying then e else { e with elogptr := v })
  else if 0x800 ≤ off ∧ off < 0xC00 then
    let h := e.histOf ((off - 0x800) / 32) ((off - 0x800) / 8 % 4)
    let h1 := { h with ctl := BitVec.ofNat 64 (bitsOf v 0 13 + bitsOf v 16 2 * 2 ^ 16) }
    e.putHist (if v.getLsbD 13 then { h1 with buckets := Vector.replicate 32 0 } else h1)
  else e

end Electrum

def State.onEl (s : State) (d : Nat) (f : Electrum → Electrum) : State := s.onDie d fun x => { x with el := f x.el }
def State.el (s : State) (d : Nat) : Electrum := (s.die d).el

/-- Adds one to an Electrum counter of the die of a core (R278): 0 dropped speculative translations, 1 early Bronze applications, 2 VLDFF
shortenings, 3 replay divergences. They count whatever ON and FROZEN hold. -/
def countEvent (s : State) (d k : Nat) : State :=
  s.onEl d fun e => { e with counts := e.counts.setIfInBounds k ((e.counts[k]?).getD 0 + 1) }

-- ## Records

/-- A list of (offset, bytes, value) as a 128-byte record. -/
def recordBytes (fs : List (Nat × Nat × Nat)) : List Byte :=
  Memory.bytes (fs.foldl (fun m f => Memory.write m f.1 (toBytes f.2.1 f.2.2)) []) 0 128

/-- Who produces a record: core, control thread and task, or none of them (R279). -/
structure Source where
  lcore : Nat
  ct : Nat
  task : Word
  deriving DecidableEq, Repr

def Source.none : Source := ⟨0xFFFF, 0xFF, 0⟩
def Thread.source (t : Thread) : Source := ⟨t.lcore, t.ctno, t.task.taskid⟩

/-- The header of Table 15.2. CYCLE does not fall from record to record of a die (R281); how far it rises is a free value (log entry 6). -/
def header (s : State) (d kind : Nat) (src : Source) : List (Nat × Nat × Nat) × State :=
  let (f, s1) := s.useFresh
  let cycle := min (2 ^ 64 - 1) ((s.die d).cycle.toNat + (Config.timing f).toNat)
  ([(0x00, 8, (s.die d).causal.toNat), (0x08, 8, cycle), (0x10, 1, kind), (0x11, 1, d), (0x12, 2, src.lcore),
    (0x14, 1, src.ct), (0x18, 8, src.task.toNat)], s1.onDie d fun x => { x with cycle := BitVec.ofNat 64 cycle })

/-- Writes one record at EWPTR and advances it (R279): toward the home of the buffer's line, which may be another die's (R280). -/
def putRecord (s : State) (d kind : Nat) (src : Source) (body : List (Nat × Nat × Nat)) : State :=
  let (h, s1) := header s d kind src
  let e := s1.el d
  let at_ := e.ebase.toNat + 128 * (e.ewptr.toNat % 2 ^ e.esize.toNat)
  (writePhys s1 d at_ (recordBytes (h ++ body))).onEl d fun e => { e with ewptr := e.ewptr + 1 }

def dropRecord (s : State) (d : Nat) : State := s.onEl d fun e => { e with elost := e.elost + 1, lossPend := e.lossPend + 1 }

/-- The buffer holds no free slot (R288). -/
def Electrum.full (e : Electrum) : Bool := !e.wrap && e.ewptr - e.erptr == BitVec.ofNat 64 (2 ^ e.esize.toNat)

/-- A record produced is written, or dropped and counted (R288): while FROZEN, or into a full buffer without WRAP, which freezes. -/
def putOrDrop (s : State) (d kind : Nat) (src : Source) (body : List (Nat × Nat × Nat)) : State :=
  let e := s.el d
  if e.frozen then dropRecord s d
  else if e.full then dropRecord (s.onEl d fun e => { e with frozen := true }) d
  else putRecord s d kind src body

/-- The first record written after drops is a LOSS record (R288); where that cannot be written the drops stay counted for the next. -/
def produceRaw (s : State) (d kind : Nat) (src : Source) (body : List (Nat × Nat × Nat)) : State :=
  let e := s.el d
  if s.dieFenced d || !e.live then s
  else if e.lossPend ≠ 0 ∧ !e.frozen ∧ !e.full then
    let s1 := (putRecord s d 0x09 Source.none [(0x20, 8, e.lossPend)]).onEl d fun e => { e with lossPend := 0 }
    putOrDrop s1 d kind src body
  else putOrDrop s d kind src body

-- ## Triggers (R287, Table 15.4)

def trigSrc (t : BitVec 14) : Nat := natBits t.toNat 0 4
def trigArg (t : BitVec 14) : Nat := natBits t.toNat 4 2
def trigActs (t : BitVec 14) : TrigActs := ⟨t.getLsbD 8, t.getLsbD 9, t.getLsbD 10, t.getLsbD 11⟩

/-- N of R285: the requests that a histogram holds. -/
def Histogram.total (h : Histogram) : Nat := h.buckets.toList.foldl (fun a b => a + b.toNat) 0

/-- PCT, MINLOG and TSLOT. -/
def Histogram.pct (h : Histogram) : Nat := bitsOf h.ctl 0 8
def Histogram.minlog (h : Histogram) : Nat := bitsOf h.ctl 8 5
def Histogram.tslot (h : Histogram) : Nat := bitsOf h.ctl 16 2

/-- The threshold bucket t (R285). -/
def Histogram.threshold (h : Histogram) : Nat :=
  let want := (h.pct * h.total + 255) / 256
  ((List.range 32).find? fun b => decide (want ≤ ((h.buckets.toList.take (b + 1)).foldl (fun a x => a + x.toNat) 0))).getD 31

/-- Both HIST records of one engine of a die-core (Table 15.3). -/
def snapHist (s : State) (d c g : Nat) : State :=
  let h := (s.el d).histOf c g
  [0, 1].foldl (fun s part =>
    produceRaw s d 0x02 Source.none ([(0x20, 1, g), (0x21, 1, part), (0x68, 8, h.total), (0x70, 1, h.threshold)] ++
      (List.range 16).map fun i => (0x28 + 4 * i, 4, ((h.buckets[16 * part + i]?).getD 0).toNat))) s

/-- FREEZE, else STOP, else START (R287). -/
def setRun (s : State) (d : Nat) (a : TrigActs) : State :=
  if a.freeze then s.onEl d fun e => { e with frozen := true }
  else if a.stop then s.onEl d fun e => { e with on := false }
  else if a.start then s.onEl d fun e => { e with on := true }
  else s

/-- The HIST records of SNAP for the engines named. -/
def snapEngines (s : State) (d : Nat) (a : TrigActs) (engines : List (Nat × Nat)) : State :=
  if a.snap then engines.foldl (fun s g => snapHist s d g.1 g.2) s else s

/-- The combined actions on one die (R287): SNAP, then FREEZE, else STOP, else START. engines lists what SNAP writes. -/
def applyActs (s : State) (d : Nat) (a : TrigActs) (engines : List (Nat × Nat)) : State := setRun (snapEngines s d a engines) d a

def orActs (a b : TrigActs) : TrigActs := ⟨a.start || b.start, a.stop || b.stop, a.freeze || b.freeze, a.snap || b.snap⟩

/-- A trigger slot that fires: its number, its source, who fires it, and the body of its TRIG record. -/
structure Firing where
  slot : Nat
  src : Nat
  who : Source
  body : List (Nat × Nat × Nat)
  deriving DecidableEq, Repr

/-- The slots of a die whose trigger a test names, as firings of one source. -/
def firings (s : State) (d : Nat) (hit : BitVec 14 → Nat → Bool) (src : Nat) (who : Source) (body : List (Nat × Nat × Nat)) : List Firing :=
  ((List.range 4).filter fun n => hit ((s.el d).trigs.toList.getD n 0) n).map fun n => ⟨n, src, who, body⟩

/-- FIRED and the TRIG record of each firing. R286 names no source 3 or 4 and no DIVERGE record: the model writes them wherever ON asks for records (log
entry 145). -/
def trigRecords (s : State) (d : Nat) (fs : List Firing) : State :=
  fs.foldl (fun s f =>
    produceRaw (s.onEl d fun e => { e with trigs := e.trigs.setIfInBounds f.slot ((e.trigs.toList.getD f.slot 0) ||| 0x2000) }) d 0x03 f.who
      ([(0x20, 1, f.slot), (0x21, 1, f.src)] ++ f.body)) s

/-- The triggers on ELOST becoming nonzero (source 4), where it was zero before and is not now. -/
def lossFirings (s : State) (d : Nat) (was : Word) : List Firing :=
  if was = 0 ∧ (s.el d).elost ≠ 0 then firings s d (fun t _ => trigSrc t == 4) 4 Source.none [] else []

def actsOf (s : State) (d : Nat) (fs : List Firing) : TrigActs :=
  fs.foldl (fun a f => orActs a (trigActs ((s.el d).trigs.toList.getD f.slot 0))) ⟨false, false, false, false⟩

/-- FIRES TRIGGERS of one die in one cycle (R287): their TRIG records, the combined actions, and a packet to the other dies for GLOBAL. A record
dropped meanwhile, or since ELOST was was, fires the triggers of source 4 as well. -/
def fireAll (s : State) (d : Nat) (was : Word) (fs : List Firing) (engines : List (Nat × Nat)) : State :=
  let s1 := trigRecords s d fs
  let f1 := lossFirings s1 d was
  let s2 := trigRecords s1 d f1
  let s3 := snapEngines s2 d (actsOf s d (fs ++ f1)) engines
  let f2 := lossFirings s3 d (if f1.isEmpty then (if was = 0 then (s2.el d).elost else was) else 1)
  let s4 := trigRecords s3 d f2
  let all := fs ++ f1 ++ f2
  let global := actsOf s d (all.filter fun f => ((s.el d).trigs.toList.getD f.slot 0).getLsbD 12)
  let s5 := setRun s4 d (actsOf s d all)
  if all.any fun f => ((s.el d).trigs.toList.getD f.slot 0).getLsbD 12 then
    s5.push (((List.range 4).filter (· != d)).map fun o => .triggerGlobalArrival o global (s.die d).causal.toNat)
  else s5

/-- Fires the slots of a die that a test names. -/
def fireTriggers (s : State) (d : Nat) (hit : BitVec 14 → Nat → Bool) (src : Nat) (who : Source) (body : List (Nat × Nat × Nat))
    (engines : List (Nat × Nat)) : State :=
  fireAll s d (s.el d).elost (firings s d hit src who body) engines

/-- The engines that SNAP writes for a trigger of source 4: those of the core whose record is dropped, which is the firing core (log entry 150). -/
def sourceEngines (d : Nat) (src : Source) : List (Nat × Nat) :=
  if src.lcore < 128 ∧ dieOf src.lcore = d then (List.range 4).map fun g => (src.lcore % 32, g) else []

/-- Produces a record; the first drop fires the triggers on ELOST becoming nonzero (Table 15.4, source 4). -/
def produce (s : State) (d kind : Nat) (src : Source) (body : List (Nat × Nat × Nat)) : State :=
  let s1 := produceRaw s d kind src body
  if (s.el d).elost = 0 ∧ (s1.el d).elost ≠ 0 then fireAll s1 d 0 [] (sourceEngines d src) else s1

-- ## Engine requests (R284, R285)

/-- The bucket of a latency (R284). -/
def bucketOf (latency : Nat) : Nat := min 31 (max latency 1).log2

/-- Adds a request to a histogram: where a count would pass 2^32 − 1 every bucket is halved first. -/
def Histogram.add (h : Histogram) (b : Nat) : Histogram :=
  let full := h.buckets.toList.getD b 0 == BitVec.allOnes 32
  let bs := if full then h.buckets.map (fun (x : BitVec 32) => x >>> 1) else h.buckets
  { h with buckets := bs.setIfInBounds b (bs.toList.getD b 0 + 1) }

/-- A histogram fires on a request (R285). -/
def Histogram.fires (h : Histogram) (b : Nat) : Bool := h.pct != 0 && decide (2 ^ h.minlog ≤ h.total) && decide (h.threshold < b)

/-- A request of an engine of a core is tested, then added, while HIST is 1 and FROZEN 0. -/
def requestDone (s : State) (core engine latency : Nat) : State :=
  let d := dieOf core
  let e := s.el d
  if s.dieFenced d || !e.hist || e.frozen then s
  else
    let h := e.histOf (core % 32) engine
    let b := bucketOf latency
    let s1 := s.onEl d fun e => e.putHist (h.add b)
    if h.fires b then
      fireTriggers s1 d (fun t n => trigSrc t == 2 && n == h.tslot) 2 Source.none
        [(0x24, 4, latency), (0x28, 1, h.threshold), (0x30, 8, h.total)] [(core % 32, engine)]
    else s1

/-- Requests of a job for the lines listed (log entry 108); their latencies are free values (log entry 6). -/
def requestLines (core engine : Nat) (lines : List Nat) (s : State) : State :=
  if !(s.el (dieOf core)).hist then s
  else lines.foldl (fun s _ => let (f, s1) := s.useFresh; requestDone s1 core engine (Config.timing f).toNat) s

-- ## Filters (R286)

/-- The SEQ of the launch a task belongs to. -/
def seqOf (s : State) (l : Option Nat) : Word :=
  match l with
  | some n => ((s.pkg.launches.find? (·.id == n)).map (·.seq)).getD 0
  | none => 0

/-- The task of a control thread passes the filter of its die at an address. -/
def passes (s : State) (t : Thread) (pc : Word) : Bool :=
  let e := s.el (dieOf t.lcore)
  e.efilt.getLsbD t.task.prio &&
    (!e.efilt.getLsbD 4 || (t.task.launch.isSome && seqOf s t.task.launch == e.eseq)) &&
    (!e.efilt.getLsbD 5 || (decide (e.epclo.toNat ≤ pc.toNat) && decide (pc.toNat < e.epchi.toNat)))

/-- The engines of one core, for SNAP. -/
def coreEngines (lcore : Nat) : List (Nat × Nat) := (List.range 4).map fun g => (lcore % 32, g)

-- ## Breakpoints and dumps (R290, R291)

/-- The three DUMP records: x1 to x31, VCFG, VL, VSTART, FSTAT and the PC of the scalar stream. -/
def dumpRecords (s : State) (d : Nat) : State :=
  let xs := (List.range 31).map fun i => (s.ct.x.toList.getD (i + 1) 0).toNat
  let v := s.ct.vec
  let cfg : Word := (0 : BitVec 48) ++ v.vcfg.etype ++ v.vcfg.grp ++ v.vcfg.tpol ++ v.vcfg.mpol ++ v.vcfg.scope ++ (0 : BitVec 4)
  let vals := xs ++ [cfg.toNat, v.vl, v.vstart, s.ct.fp.fstat.toNat, s.ct.pc.toNat]
  (List.range 3).foldl (fun s part =>
    produceRaw s d 0x06 s.ct.source ((0x20, 1, part) :: (List.range 12).map fun i => (0x28 + 8 * i, 8, vals.getD (12 * part + i) 0))) s

/-- A breakpoint that fires: its number, whether it dumps, and what its BREAK record holds. -/
structure BreakHit where
  num : Nat
  dump : Bool
  pc : Word
  word : Nat
  elem : Nat
  value : Nat
  va : Nat
  cmask : Nat
  deriving DecidableEq, Repr

/-- Breakpoints that fire together: the BREAK record and the dump of each, then the triggers of source 1 of all of them, combined (R287). -/
def fireBreaks (s : State) (hits : List BreakHit) : State :=
  let d := dieOf s.ct.lcore
  let hs := hits.filter fun h => passes s s.ct h.pc
  if hs.isEmpty then s
  else
    let s1 := hs.foldl (fun s h =>
      let s1 := produceRaw s d 0x05 s.ct.source [(0x20, 8, h.pc.toNat), (0x28, 4, h.word), (0x2C, 2, h.elem), (0x30, 8, h.value),
        (0x38, 8, h.va), (0x40, 8, h.cmask)]
      if h.dump then dumpRecords s1 d else s1) s
    let fs := hs.flatMap fun h => firings s1 d (fun t _ => trigSrc t == 1 && trigArg t == h.num) 1 s.ct.source [(0x38, 8, h.pc.toNat)]
    fireAll s1 d (s.el d).elost fs (coreEngines s.ct.lcore)

/-- Breakpoints of the scalar stream at a word (EEN = 0). -/
def scalarBreaks (s : State) (pc : Word) (w : IWord) : State :=
  fireBreaks s (((s.el (dieOf s.ct.lcore)).bps.toList.zipIdx.filter fun b => b.1.en && !b.1.een && b.1.pc == pc).map fun b =>
    ⟨b.2, b.1.dump, pc, w.toNat, 0xFFFF, 0, 0, 0⟩)

/-- Any breakpoint of the acting thread's die is enabled. -/
def anyBreak (s : State) : Bool := (s.el (dieOf s.ct.lcore)).bps.toList.any (·.en)

-- ## Replay (R292 to R294)

/-- mix of R292. -/
def mix (a b : Word) : Word := BitVec.ofNat 64 (hash32 a b 0 * 2 ^ 32 + hash32 a b 1)

/-- The task belongs to the launch that its die records or replays. -/
def inReplay (s : State) (t : Thread) : Bool :=
  t.task.launch.isSome && seqOf s t.task.launch == (s.el (dieOf t.lcore)).erepseq

/-- The REPLAY record of a lineage key and an event index among the slots of a list, if one holds it: event type, PC and value (Table 15.3). Each slot is
read at its home (R253); a line whose home does not answer gives poison, and no record (R270). -/
def findSlot (d : Nat) (lkey : Word) (idx : Nat) : List Nat → State → Option (Nat × Word × Word) × State
  | [], s => (none, s)
  | k :: r, s =>
    let a := (s.el d).elog.toNat + 128 * k
    if !s.answers a || !s.answers (a + 64) then findSlot d lkey idx r s
    else
      let s1 := readyRead (askDie s d (homeDie a)) (.part d) a 128
      if s1.numAt (a + 0x10) 1 == 0x0A && s1.numAt (a + 0x20) 8 == lkey.toNat && s1.numAt (a + 0x28) 8 == idx then
        (some (s1.numAt (a + 0x30) 8, BitVec.ofNat 64 (s1.numAt (a + 0x38) 8), BitVec.ofNat 64 (s1.numAt (a + 0x40) 8)), s1)
      else findSlot d lkey idx r s1

/-- The same in the whole log of a die. -/
def findLog (s : State) (d : Nat) (lkey : Word) (idx : Nat) : Option (Nat × Word × Word) × State :=
  findSlot d lkey idx (List.range (2 ^ (s.el d).elogsz.toNat)) s

/-- Appends a REPLAY record; a full log drops it and sets REPLOST (R293). -/
def appendLog (s : State) (d ty : Nat) (pc v : Word) : State :=
  let e := s.el d
  if !Electrum.baseOk e.elog e.elogsz || decide (2 ^ e.elogsz.toNat ≤ e.elogptr.toNat) then s.onEl d fun e => { e with replost := true }
  else
    let (h, s1) := header s d 0x0A s.ct.source
    let body := [(0x20, 8, s.ct.task.lkey.toNat), (0x28, 8, s.ct.task.events), (0x30, 8, ty), (0x38, 8, pc.toNat), (0x40, 8, v.toNat)]
    (writePhys s1 d (e.elog.toNat + 128 * e.elogptr.toNat) (recordBytes (h ++ body))).onEl d fun e => { e with elogptr := e.elogptr + 1 }

/-- A replay mismatch found with the log of a die (R294): DIVERGE, which needs only ON (log entry 145), the counter, and no more forcing of the task. -/
def divergeAt (s : State) (d : Nat) (expected found : Word) : State :=
  let s1 := produce s d 0x0B s.ct.source
    [(0x20, 8, s.ct.task.lkey.toNat), (0x28, 8, s.ct.task.events), (0x30, 8, expected.toNat), (0x38, 8, found.toNat)]
  (countEvent s1 d 3).onTask fun t => { t with diverged := true }

def diverge (s : State) (expected found : Word) : State := divergeAt s (dieOf s.ct.lcore) expected found

/-- A logged event of the acting task (Table 15.8): the value to return, its own or the logged one, and the state after recording or
consuming the event. -/
def logged (s : State) (ty : Nat) (pc v : Word) : Word × State :=
  let d := dieOf s.ct.lcore
  let e := s.el d
  if (e.recording || e.replaying) && inReplay s s.ct then
    let bump (s : State) : State := s.onTask fun t => { t with events := t.events + 1 }
    if e.recording then (v, bump (appendLog s d ty pc v))
    else if s.ct.task.diverged then (v, bump s)
    else
      let r := findLog s d s.ct.task.lkey s.ct.task.events
      match r.1 with
      | some (ty1, pc1, v1) =>
        if ty1 = ty ∧ pc1 = pc then (v1, bump (r.2.onEl d fun e => { e with elogptr := e.elogptr + 1 }))
        else (v, bump (diverge r.2 pc1 pc))
      | none => (v, bump (diverge r.2 0 pc))
  else (v, s)

/-- The log that a replayed task of the acting control thread reads lies on a device that is not yet trained: its reads wait (R273). -/
def logWaits (s : State) : Bool :=
  let e := s.el (dieOf s.ct.lcore)
  e.replaying && !s.ct.task.diverged && s.pkg.ready.trained != BitVec.allOnes 32 && inReplay s s.ct &&
    (List.range (2 ^ e.elogsz.toNat)).any fun k => !s.inUse (e.elog.toNat + 128 * k) || !s.inUse (e.elog.toNat + 128 * k + 64)

-- ## Device registers (R273, R278)

/-- The 8-byte word of the readiness map at an offset (Table 14.7); none beyond it. -/
def readyWord (s : State) (off : Nat) : Option Word :=
  let r := s.pkg.ready
  let byteWord (f : Nat → Byte) (o : Nat) : Word := BitVec.ofNat 64 (leNat ((List.range 8).map fun i => f (o + i)))
  if off = 0x00 then
    some (BitVec.ofNat 64 ((List.range 4).foldl (fun a d => a + (if (s.die d).ready then 2 ^ d else 0) + (if (s.die d).fenced then 2 ^ (d + 4) else 0)) 0))
  else if off = 0x08 then some (r.cores.extractLsb' 0 64)
  else if off = 0x10 then some (r.cores.extractLsb' 64 64)
  else if off = 0x18 then some (r.failed ++ r.trained)
  else if off = 0x20 then some ((0 : BitVec 31) ++ bit r.hostUp ++ r.linkFailed ++ r.linkUp)
  else if 0x40 ≤ off ∧ off < 0x60 then some (byteWord (fun i => r.spare.toList.getD i 0) (off - 0x40))
  else if 0x80 ≤ off ∧ off < 0x100 then some (byteWord (fun i => BitVec.ofNat 8 (s.core i).spareCols) (off - 0x80))
  else none

/-- A device-register address as an Electrum die and offset. -/
def electrumAt (pa : Nat) : Option (Nat × Nat) :=
  let off := pa - 2 ^ 48
  if 0x100000 ≤ off ∧ off < 0x140000 then some (deviceDie pa, (off - 0x100000) % 0x10000) else none

/-- Reads n bytes of the device registers. What a register that no chapter describes reads as is a free value (log entry 11). -/
def devRead (s : State) (pa n : Nat) : Nat × State :=
  let part (v : Word) : Nat := bitsOf v (8 * (pa % 8)) (8 * n)
  match electrumAt (pa - pa % 8) with
  | some (d, off) => (part ((s.el d).read off), s)
  | none =>
    match readyWord s (pa - pa % 8 - 2 ^ 48) with
    | some v => (part v, s)
    | none => let (f, s1) := s.useFresh; (part (Config.deviceValue f), s1)

/-- The steps of Electrum that a register write brings about: unfreezing is a plain write of FROZEN. -/
def elWrite (s : State) (d off : Nat) (v : Word) : State := s.onEl d fun e => e.write off v

/-- Writes n bytes of the device registers: a narrower write keeps the other bytes of the register (log entry 23). The readiness map is
firmware's: a write to it is discarded (log entry 23). A write to a register that no chapter describes changes nothing that the spec names (log
entry 11). -/
def devWrite (s : State) (pa n v : Nat) : State :=
  match electrumAt (pa - pa % 8) with
  | some (d, off) => elWrite s d off (putBits ((s.el d).read off) (8 * (pa % 8)) (8 * n) v)
  | none => s

end Sys2Proof.Machine
end

