-- ==== Sys2Proof/Machine/Order.lean ====
section
/-!
DEFINITION. The loads and stores of a control thread under the order of chapter 10: store buffers (R200, R211), the write-combining buffer of
Bronze mode (R224), reading ahead (R200, R208), what a vector access waits for (R202, R211), and acquires and releases (R204, R205).
-/

namespace Sys2Proof.Machine

-- ## Reading ahead

/-- A read ahead of a port of the acting control thread. -/
def State.ahead (s : State) (port : Port) (e : Early) : Bool :=
  decide (e.lcore = s.ct.lcore) && decide (e.ctno = s.ct.ctno) && decide (e.port = port)

/-- Drops what a test names of the bytes read ahead. -/
def forgetEarly (s : State) (f : Early → Bool) : State :=
  if s.m.early.isEmpty then s else s.onMem fun m => { m with early := m.early.filter fun e => !f e }

/-- The acting control thread as an agent. -/
def State.me (s : State) : By := .thread s.ct.lcore s.ct.ctno

/-- What a load at [pa, pa+n) uses of what its port has read ahead: the oldest read of exactly these bytes by this name. It and every older read that
shares a location go, so that loads of one byte keep program order (R199, R200). -/
def takeEarly (s : State) (port : Port) (pa n : Nat) : Option (List Byte) × State :=
  if s.m.early.isEmpty then (none, s)
  else
    let shared := s.m.early.filter fun e => s.ahead port e && e.shares s pa n
    let same (e : Early) : Bool := e.pa == pa && e.bytes.length == n
    let gone :=
      match shared.find? same with
      | some e => shared.takeWhile (fun x => !same x) ++ [e]
      | none => shared
    ((shared.find? same).map (·.bytes), s.onMem fun m => { m with early := gone.foldl (fun l e => l.erase e) m.early })

/-- A store of a stream ends its own reads ahead of the bytes (R200), or of the line for a vector store (R210). -/
def dropOwn (s : State) (scalar : Bool) (pa n : Nat) : State :=
  if s.m.early.isEmpty then s
  else
    let ls := nameLines s pa n
    forgetEarly s fun e =>
      s.ahead (if scalar then .scalar else .vector) e &&
        (if scalar then e.shares s pa n else ls.contains (nameLine s e.pa))

/-- An acquire at a scope: what the ports have read ahead of bytes that another agent of the scope has written since is dropped (R199, R204, R205); own: of
bytes that the control thread's own streams have written too, which a FENCE orders (R202). -/
def acquire (s : State) (sc : Nat) (own : Bool) (ports : List Port) : State :=
  forgetEarly s fun e => ports.any (s.ahead · e) && ((own && e.own) || (match e.seen with
    | some d => decide (d ≤ sc)
    | none => false))

/-- Nothing read ahead by the acting control thread's streams and fetch survives. -/
def dropAhead (s : State) : State := forgetEarly s fun e => s.ahead .scalar e || s.ahead .vector e || s.ahead .fetch e

-- ## Loads

/-- A late access of a stream of the acting control thread that must come first: it shares a byte with [pa, pa+n), by whichever name (R199, R200), or of
the vector stream a line, where one of the two writes (R210). -/
def Late.first (s : State) (scalar writes : Bool) (pa n : Nat) (l : Late) : Bool :=
  s.myLate l && l.vec != scalar && (sameBytes s l.pa l.len pa n || (l.vec && (writes || l.writes) && nameLine s l.pa == nameLine s pa))

/-- The late accesses that must come before an access of a stream at [pa, pa+n) perform. -/
def performFirst (s : State) (scalar writes : Bool) (pa n : Nat) : State := performWhere (Late.first s scalar writes pa n) s

/-- The acting thread's own stores over bytes read at home (R200): both streams see the write-combining buffer, the scalar stream its store
buffer. -/
def overlayOwn (s : State) (scalar : Bool) (pa : Nat) (bs : List Byte) : List Byte :=
  let b1 := if s.m.wcb.isEmpty then bs else overlay (heldBytes s s.ct.task.taskid) (lastName s pa) bs
  if scalar && !s.m.sbuf.isEmpty then overlay (storeBytes s (s.m.sbuf.filter fun e => s.mine e && !e.vec)) (lastName s pa) b1 else b1

/-- Reads bytes at their home for a stream of the acting thread (R181), its own stores over them. A vector load waits for the vector stores of
its lines (R210). -/
def readNow (s : State) (scalar : Bool) (p : Place) (n : Nat) : List Byte × State :=
  let s0 := if scalar then s else drainWhere (fun e => s.mine e && e.vec && (nameLines s p.pa n).contains (nameLine s e.pa)) s
  let s1 := drainFor (needRead s.me s0 p.pa n) s0
  let pa := placeNow s1 p.pa
  let s2 := openRead (l1Read s1 (scalar && p.cached) s.ct.lcore pa) pa n
  (overlayOwn s2 scalar pa (s2.bytesAt pa n), s2)

/-- The bytes that a load of the acting control thread returns (R200): those it read ahead, or those at their home now (log entry 102). -/
def loadBytes (s0 : State) (scalar : Bool) (p : Place) (n : Nat) : List Byte × State :=
  let s := performFirst s0 scalar false p.pa n
  let r := takeEarly s (if scalar then .scalar else .vector) p.pa n
  match r.1 with
  | some bs => (bs, r.2)
  | none => readNow r.2 scalar p n

def loadNum (s : State) (scalar : Bool) (p : Place) (n : Nat) : Nat × State :=
  let (bs, s1) := loadBytes s scalar p n
  (leNat bs, s1)

-- ## Stores

/-- Puts a byte into a list kept by rising offset; of a byte that is held already its bits change. -/
def putByte (b : HeldByte) : List HeldByte → List HeldByte
  | [] => [b]
  | c :: r =>
    if b.off = c.off then ⟨b.off, blend b.mask b.val c.val, b.mask ||| c.mask⟩ :: r
    else if b.off < c.off then b :: c :: r
    else c :: putByte b r

/-- Holds bits of bytes in the write-combining buffer; a 17th line of the task drains its oldest first (R224). What the store buffer holds for the line,
from before Bronze mode or from S, performs first. -/
def holdStore (s0 : State) (own : Bool) (p : Place) (va : Word) (mask : Byte) (bs : List Byte) : State :=
  let s := drainWhere (fun e => s0.mine e && nameLine s0 e.pa == nameLine s0 p.pa) s0
  let (pa, stash) := canonOf s p.pa
  let line := lineOf pa
  let put (old : List HeldByte) : List HeldByte := bs.zipIdx.foldl (fun acc x => putByte ⟨pa - line + x.2, x.1, mask⟩ acc) old
  let isLine (l : WcLine) : Bool := s.myLine l && l.line == line
  if s.m.wcb.any isLine then
    let add (l : WcLine) : WcLine :=
      if isLine l then { l with bytes := put l.bytes, deps := (l.deps ++ p.deps).eraseDups, stash := stash <|> l.stash, own := l.own || own } else l
    s.onMem fun m => { m with wcb := m.wcb.map add }
  else
    let held := s.m.wcb.filter s.myLine
    let s1 := if Config.wcbLines ≤ held.length then drainLines (fun l => some l == held.head?) s else s
    s1.onMem fun m =>
      { m with wcb := m.wcb ++ [⟨s.ct.lcore, s.ct.ctno, s.ct.task.taskid, line, va - BitVec.ofNat 64 (pa - line), put [], p.deps, stash, own⟩] }

/-- A store of the acting thread performs, after what the thread has buffered for its lines (R200). -/
def storeNow (s : State) (scalar : Bool) (p : Place) (mask : Byte) (bs : List Byte) : State :=
  let s1 := drainTranslated (drainAt s p.pa bs.length) s.me p.pa bs.length
  let pa := placeNow s1 p.pa
  storeHome (reopen s1 s.me pa) s.ct.lcore s.ct.ctno (scalar && p.cached) pa mask bs

/-- A store waits in the store buffer: where the schedule leaves stores in flight, and where one of the vector stream goes to a poisoned line, which its
instruction may write in full (R271). -/
def buffers (s : State) (scalar : Bool) (p : Place) : Bool := s.sched.deferStores || (!scalar && s.m.poison.contains (lineOf p.pa))

/-- A plain store of bits of bytes by the acting control thread (R224, R211, R125): held in Bronze mode, buffered, or performed. -/
def plainBits (s : State) (scalar : Bool) (p : Place) (va : Word) (mask : Byte) (bs : List Byte) : State :=
  let s0 := performFirst (dropOwn s scalar p.pa bs.length) scalar true p.pa bs.length
  if s0.ct.level = .u && s0.ct.ord.detctl then holdStore s0 (scalar && p.cached) p va mask bs
  else if buffers s0 scalar p then
    (drainLines (fun l => s0.myLine l && l.line == nameLine s0 p.pa) s0).onMem fun m => { m with sbuf := m.sbuf ++
      [{ lcore := s0.ct.lcore, ctno := s0.ct.ctno, task := s0.ct.task.taskid, va := va, pa := p.pa, bytes := bs, vec := !scalar,
         op := s0.ct.ord.opSeq, own := scalar && p.cached, deps := p.deps, beforeV := if scalar then [] else s0.ct.ord.vvNow, scope := none,
         mask := mask }] }
  else storeNow s0 scalar p mask bs

/-- A plain store of whole bytes. -/
def plainStore (s : State) (scalar : Bool) (p : Place) (va : Word) (bs : List Byte) : State := plainBits s scalar p va 0xFF bs

/-- An access has performed at a scope, where it had not performed at a wider one. -/
def widenScope (sc : Nat) (old : Option Nat) : Option Nat := some (max sc (old.getD 0))

/-- The buffered stores that a test names perform at a scope (R199): at .p and wider at their home, at a narrower one for its agents alone, so that an
agent outside it may still find them in any order (R198, R203, log entry 120). The late accesses of others that have performed for their agent come first. -/
def performAt (sc : Nat) (f : BufStore → Bool) (s : State) : State :=
  if 4 ≤ sc then drainWhere f s
  else if s.m.sbuf.isEmpty then s
  else
    let s0 := performWhere (fun l => s.m.sbuf.any fun e => f e && l.heldFrom e.by_ && l.meets s e.pa e.bytes.length) s
    let s1 := (s0.m.sbuf.filter f).foldl (fun s e => markEarly s e.by_ e.pa e.bytes.length) s0
    s1.onMem fun m => { m with sbuf := m.sbuf.map fun e => if f e then { e with scope := widenScope sc e.scope } else e }

/-- The late accesses that a test names perform at a scope, in the same way. -/
def performLateAt (sc : Nat) (f : Late → Bool) (s : State) : State :=
  if 4 ≤ sc then performWhere f s
  else if s.m.late.isEmpty then s
  else
    let pick (l : Late) : Bool := l.got.isNone && f l
    let s0 := performWhere (fun x => s.m.late.any fun l => pick l && l.writes && x != l && x.heldFrom l.by_ && x.meets s l.pa l.len) s
    let s1 := (s0.m.late.filter fun l => pick l && l.writes).foldl (fun s l => markEarly s l.by_ l.pa l.len) s0
    s1.onMem fun m => { m with late := m.late.map fun l => if pick l then { l with scope := widenScope sc l.scope } else l }

/-- The k-th buffered store of the acting control thread performs, where no older one must come first (R200, R210). -/
def drainOne (s : State) (k : Nat) : State :=
  let mine := s.m.sbuf.filter s.mine
  match mine[k]? with
  | some e => if (mine.take k).any (·.before s e) then s else drainWhere (· == e) s
  | none => s

-- ## What a vector access waits for

/-- A fill of the acting task whose source reads have not all performed (R197). -/
def fillReading (s : State) (j : Job) : Bool :=
  j.task == s.ct.task.taskid &&
    (match j.engine, j.state with
     | .fill _, .moved => false
     | .fill _, _ => true
     | _, _ => false)

/-- The host has answered every back-invalidate snoop (R264): what has performed at .p has performed at .s. -/
def hostQuiet (s : State) : Bool := s.m.biWait.isEmpty

/-- The fills of the acting task that still read. -/
def readingFills (s : State) : List Nat := ((s.core s.ct.lcore).jobs.filter (fillReading s)).map (·.id)

/-- A vector access of the acting control thread to [pa, pa+n) comes after the source reads of its fills, which are ordered as vector loads (R151, R200,
R210): a fill that has one of the lines still to read goes first. -/
def fillFirst (s : State) (pa n : Nat) : Bool :=
  (s.core s.ct.lcore).jobs.any fun j =>
    fillReading s j && (linesOf pa n).any fun l => j.src.contains l || j.src.contains (nameLine s l)

/-- The widest scope at which FENCEs before a fence interval ask for a performance (R202, R203). -/
def fenceScope (ivl : Nat) (marks : List (Nat × Nat)) : Option Nat := ((marks.filter fun k => decide (k.1 < ivl)).map (·.2)).max?

/-- The stores and late accesses that FENCEs hold a vector access of an interval for perform, each at the scope of its FENCE (R202, R203): an agent outside
it may still find them in any order. -/
def performHeld (ivl : Nat) (s : State) : State :=
  if s.m.sbuf.isEmpty && s.m.late.isEmpty then s
  else
    let s1 := performAt 4 (fun e => s.mine e && (fenceScope ivl e.beforeV).any (4 ≤ ·)) s
    let s2 := performLateAt 4 (fun l => s.myLate l && (fenceScope ivl l.beforeV).any (4 ≤ ·)) s1
    (List.range 4).foldl (fun s n =>
      performLateAt n (fun l => s.myLate l && fenceScope ivl l.beforeV == some n)
        (performAt n (fun e => s.mine e && fenceScope ivl e.beforeV == some n) s)) s2

/-- Before a vector memory access of a fence interval begins: the stores and the fills that a FENCE holds it for have performed, at .s also toward the
host (R202, R211), and in Bronze mode every earlier fill has read (R224). None while it must wait. -/
def vecReady (s : State) (ivl : Nat) : Option State :=
  let s1 := performHeld ivl s
  let reading := readingFills s1
  if (s1.ct.ord.vvJobs.any fun j => decide (j.2 < ivl) && reading.contains j.1) || (s1.ct.ord.detctl && !reading.isEmpty) ||
      (s1.ct.ord.vhold.any (· < ivl) && !hostQuiet s1) then none
  else some (s1.onOrd fun o => { o with vvJobs := o.vvJobs.filter (ivl ≤ ·.2), vhold := o.vhold.filter (ivl ≤ ·) })

/-- A port of the acting control thread reads bytes ahead of the load that will use them. Only what a speculative access may touch is read ahead
(R236); the vector stream in Bronze mode reads nothing ahead (R224), and none past a FENCE that holds it (R202). -/
def peekAt (s : State) (port : Port) (va : Word) (n : Nat) : State :=
  let start : Option State :=
    if port = .vector then (if s.ct.ord.detctl || s.ct.ord.vvOpen then none else vecReady s s.ct.ord.fenceIvl) else some s
  match start with
  | none => s
  | some s0 =>
    match resolveAligned s0.ctx { kind := if port = .fetch then 0 else 1, spec := true } va n s0 with
    | .ok p s1 =>
      let r :=
        if port = .fetch then readBytes (roundTrip s1 p.pa) s1.me p.pa n
        else readNow (performFirst s1 (port == .scalar) false p.pa n) (port == .scalar) p n
      r.2.onMem fun m => { m with early := m.early ++ [⟨s.ct.lcore, s.ct.ctno, port, p.pa, r.1, p.deps, none, false⟩] }
    | _ => s

-- ## Releases

/-- A release at package scope or wider by a core ends its race records (R225). -/
def endRaces (s : State) (core : Nat) : State := s.onMem fun m => { m with races := m.races.filter fun r => r.2 != core }

/-- The next fence interval (R224). -/
def nextInterval (s : State) : State := s.onOrd fun o => { o with fenceIvl := o.fenceIvl + 1 }

/-- A release at package scope or wider: everything buffered performs, race records end, and the fence interval advances. -/
def releaseAll (s : State) : State := nextInterval (endRaces (drainStores s) s.ct.lcore)

end Sys2Proof.Machine
end

