-- ==== Sys2Proof/Machine/Operands.lean ====
section
/-!
DEFINITION. Operand forms: memory formats (Table 2.11, Table 17.5), scalar accesses, fetching an instruction word (R27, R57, R330), and
the rounding an instruction runs under (R130).
-/

namespace Sys2Proof.Machine

-- ## Memory formats

/-- The element-type code of a memory format whose elements are whole bytes (Table 2.11); 0x00 is VCFG.ETYPE. -/
def mfType (m : BitVec 5) (etype : Nat) : Nat :=
  match m.toNat with
  | 0x00 => etype
  | 0x01 => 0
  | 0x02 => 1
  | 0x03 => 2
  | 0x04 => 3
  | 0x05 => 4
  | 0x06 => 5
  | 0x07 => 6
  | 0x08 => 8
  | 0x09 => 9
  | 0x0A => 10
  | 0x0B => 11
  | 0x0C => 12
  | 0x0D => 13
  | _ => 0

/-- Bits of one packed element (R125): .i2 has 2, .i4 and .lut4 have 4; 0 for a format of whole bytes. -/
def mfPacked (m : BitVec 5) : Nat :=
  match m.toNat with
  | 0x0E => 2
  | 0x0F => 4
  | 0x10 => 4
  | _ => 0

def mfIsScale (m : BitVec 5) : Bool := m == 0x12 || m == 0x13

/-- Bytes of one scalar access (Table 17.5). -/
def scalarBytes (m : BitVec 5) : Nat := tyBytes (mfType m 3)

/-- What LD writes (Table 17.5): signed formats are sign-extended, the others zero-extended. -/
def scalarExtend (m : BitVec 5) (v : Nat) : Word :=
  if m == 1 || m == 2 || m == 3 then BitVec.ofInt 64 (toSigned (8 * scalarBytes m) v) else BitVec.ofNat 64 v

-- ## Scalar accesses

/-- The record of a scalar access (Table 11.8): its width in bits and a field count of 1. -/
def scalarRecord (w : Nat) (t : Trap) : Trap := { t with sfwidth := BitVec.ofNat 64 (0x100 + 8 * w) }

/-- The address of LD and ST (R333). -/
def dispAddr (base : Word) (disp : BitVec 11) : Word := base + sext disp

/-- A scalar load of w bytes (R333): ALIGN, window, translation, then the bytes; device registers are read in their block. A load
performs as it executes, in program order, unless the schedule has its port read the bytes ahead (log entry 102). -/
def scalarLoad (s : State) (va : Word) (w : Nat) : Res Nat :=
  ((resolveAligned s.ctx { kind := 1, plain := true } va w s).mapTrap (scalarRecord w)).andThen fun p s =>
    match homeOf p.pa with
    | .device => let (v, s1) := devRead (roundTrip s p.pa) p.pa w; .ok v s1
    | _ => let (v, s1) := loadNum s true p w; .ok v s1

/-- A scalar store of w bytes (R333). -/
def scalarStore (s : State) (va : Word) (w v : Nat) : Res Unit :=
  ((resolveAligned s.ctx { kind := 2, plain := true } va w s).mapTrap (scalarRecord w)).andThen fun p s =>
    match homeOf p.pa with
    | .device => .ok () (devWrite (roundTrip s p.pa) p.pa w v)
    | _ => .ok () (plainStore s true p va (toBytes w v))

/-- A load of n units of u bytes by a card, table or record read (R165, R184), as read reads a place. w is the access width in bytes of its fault
record. -/
def unitRead (read : State → Place → Nat → List Byte × State) (va : Word) (u w : Nat) : Nat → State → List Byte → Res (List Byte)
  | 0, s, acc => .ok acc s
  | n + 1, s, acc =>
    ((resolve s.ctx { kind := 1 } va u s).mapTrap (scalarRecord w)).andThen fun p s =>
      let (bs, s1) := read s p u
      unitRead read (va + BitVec.ofNat 64 u) u w n s1 (acc ++ bs)

/-- The same as loads of the scalar or the vector stream. -/
def unitLoad (scalar : Bool) (va : Word) (u w n : Nat) (s : State) (acc : List Byte) : Res (List Byte) :=
  unitRead (fun s p k => loadBytes s scalar p k) va u w n s acc

/-- A read that sees every earlier store of the acting control thread, scalar and vector (R165): nothing read ahead of the bytes is used. -/
def readSeen (s : State) (p : Place) (n : Nat) : List Byte × State :=
  let s1 := drainWhere (fun e => s.mine e && e.vec && (nameLines s p.pa n).contains (nameLine s e.pa)) s
  readNow (forgetEarly s1 fun e => s.ahead .scalar e && e.shares s1 p.pa n) true p n

-- ## Fetch

def fetchRecord (va : Word) (t : Trap) : Trap := { t with sepc := some va, sfva := va, sfwidth := 0x120 }

/-- The bytes that a fetch uses (R57): where the schedule keeps fetched words, the ones that this thread has fetched or read ahead before and
that no FENCE.all has dropped, and those at the home now are kept; else those at the home, which is asked (R280). -/
def fetchBytes (s : State) (p : Place) : List Byte × State :=
  let (now, s1) := readBytes (roundTrip s p.pa) s.me p.pa 4
  if s.sched.keepFetched then
    match s.m.early.find? fun e => s.ahead .fetch e && e.pa == p.pa && e.bytes.length == 4 with
    | some e => (e.bytes, s)
    | none => (now, s1.onMem fun m => { m with early := m.early ++ [⟨s.ct.lcore, s.ct.ctno, .fetch, p.pa, now, p.deps, none, false⟩] })
  else (now, s1)

/-- Fetches the word at an address (R27, R330): only the global window holds instructions. -/
def fetchWord (s : State) (va : Word) : Res IWord :=
  let a : Acc := { kind := 0 }
  if va.toNat % 4 ≠ 0 then .trap (fetchRecord va (faultTrap Code.align a va 0 false)) s
  else
    match s.ct.level, windowOf va with
    | .u, .local_ _ => .trap (fetchRecord va (windowTrap a va)) s
    | .u, .cluster _ _ => .trap (fetchRecord va (windowTrap a va)) s
    | .s, .local_ _ => .trap (fetchRecord va (windowTrap a va)) s
    | .s, .cluster _ _ => .trap (fetchRecord va (windowTrap a va)) s
    | _, _ =>
      ((resolve s.ctx a va 4 s).mapTrap (fetchRecord va)).andThen fun p s =>
        let (bs, s1) := fetchBytes s p
        .ok (BitVec.ofNat 32 (leNat bs)) s1

/-- A LAND word, with or without .task (R331). -/
def isLand (w : IWord) : Bool := w == 0x04200000 || w == 0x04200001
def isLandTask (w : IWord) : Bool := w == 0x04200001

-- ## Rounding

/-- The rounding mode of a rounding instruction (R130): static, or FRM; none where FRM holds 6 or 7. -/
def roundingOf (field frm : BitVec 3) : Option (BitVec 3) :=
  if field = 7 then (if 5 < frm.toNat then none else some frm) else some field

/-- The VIQ of the acting control thread is empty: no entry and no nest (R80). The entries of a stopped instruction are in the context, not in
the VIQ (R83). -/
def State.viqEmpty (s : State) : Bool := s.ct.vec.viq.isEmpty && s.ct.vec.owing.isEmpty && s.ct.nest.runs.isEmpty

/-- Runs a scalar instruction once the VIQ of its thread is empty (R80). -/
def whenDrained (s : State) (f : Host.Outcome State Fault Refusal) : Host.Outcome State Fault Refusal :=
  if s.viqEmpty then f else .next (s.waitFor .drain)

end Sys2Proof.Machine
end

