-- ==== Sys2Proof/Machine/Update.lean ====
section
/-!
DEFINITION. Atomic updates at their point of performance (R246, R248, R251, R253, R257, R258), shared by AMO, CAS, VAMO, XCOLL and the
arrival of an update.
-/

namespace Sys2Proof.Machine

/-- The home makes a line ready for an atomic that writes it (R248): a stash line is taken again, and copies end as the holder says. -/
def recallLine (s : State) (by_ : By) (h : Hold) (pa : Nat) : State := takeHostLine (readyLine (reopen s by_ pa) by_ h (lineOf pa)) pa

/-- The home makes bytes ready for an atomic (R248, R253): what must have performed before it does, and the line is recalled. The answer is where the bytes
lie now. -/
def claimBytes (s : State) (by_ : By) (h : Hold) (pa n : Nat) : Nat × State :=
  let s0 := drainTranslated (drainFor (needRead by_ s pa n) s) by_ pa n
  (placeNow s0 pa, recallLine (settle s0 (placeNow s0 pa) n) by_ h (placeNow s0 pa))

/-- The home makes a line ready for an atomic that leaves it as it is: a failing CAS recalls the line too (R248). -/
def recallUnwritten (s : State) (h : Hold) (pa : Nat) : State := takeHostLine (l1Write s h (lineOf pa)) pa

/-- Applies an update on its arrival, after every update before it (R253): the old value, the flags of a floating add, and the state. -/
def performUpdate (s : State) (by_ : By) (h : Hold) (u : Update) : (Nat × FFlags) × State :=
  let n := amoBytes u.width
  let k := claimBytes s by_ h u.addr n
  let old := k.2.numAt k.1 n
  let r := atomicOp u.op (amoType u.width) old u.value.toNat
  ((old, r.2), (markEarly k.2 by_ k.1 n).setBytes k.1 (toBytes n r.1))

/-- Held updates of a doubleword. -/
def heldCount (s : State) (dw : Nat) : Nat :=
  ((s.m.chains.filter fun c => c.1 == dw).flatMap fun c => c.2.filter fun u => u.held.isSome).length

/-- A task has issued a held update to a doubleword (R258, event 1). -/
def noteHeld (s : State) (dw : Nat) (u : Update) : State :=
  match u.held with
  | some t => s.onPkg fun p => { p with heldBy := (p.heldBy.filter fun x => !(x.1 == t.task && x.2.1 == dw)) ++ [(t.task, dw, p.phases)] }
  | none => s

/-- An update joins the chain of its doubleword (R253), its line's copies ending as the holder says; at the 32nd held update the chain is applied early,
and counted (R258, event 3). -/
def joinChain (s : State) (by_ : By) (h : Hold) (u0 : Update) : State :=
  let s0 := drainTranslated s by_ u0.addr 8
  let u := { u0 with addr := placeNow s0 u0.addr }
  let dw := u.addr - u.addr % 8
  let s1 := noteHeld (markEarly (recallLine s0 by_ h u.addr) by_ u.addr (amoBytes u.width)) dw u
  let s2 := s1.onMem fun m =>
    if m.chains.any (fun c => c.1 == dw) then { m with chains := m.chains.map fun c => if c.1 = dw then (c.1, c.2 ++ [u]) else c }
    else { m with chains := m.chains ++ [(dw, [u])] }
  if 32 ≤ heldCount s2 dw then countEvent (settleDword s2 dw) (homeDie u.addr) 1 else s2

/-- Whether an update of the acting control thread is held (R257): a floating add of a task in Bronze mode. -/
def heldNow (bronze : Bool) (op width : BitVec 3) : Bool := bronze && op == 0 && (width == 3 || width == 4)

/-- The tag of the next held update of the acting control thread (R257), and the count of updates issued after it. R257's sequence is the task's own count
of updates issued, and does not say whether updates that are not held count: the model counts the held ones (log entry 129). -/
def nextTag (s : State) : HeldTag × State :=
  (⟨s.ct.ord.fenceIvl, s.ct.lcore, s.ct.ctno, s.ct.ord.updSeq, s.ct.task.taskid⟩, s.onOrd fun o => { o with updSeq := o.updSeq + 1 })

/-- Extends an old value to a register (R246): .i32 is sign-extended, .u32 and .f32 are zero-extended. -/
def amoExtend (w : BitVec 3) (v : Nat) : Word := if w = 0 then BitVec.ofInt 64 (toSigned 32 v) else BitVec.ofNat 64 v

/-- What an atomic of the scalar stream does with its line: ownership of a cached one (R182). -/
def atomicHold (s : State) (p : Place) : Hold := if p.cached then .take (clusterOf s.ct.lcore) else .recall

/-- Accesses of the acting control thread may perform later than they execute (R200, log entry 125): the schedule says so, and neither replay nor a
breakpoint asks for their values. -/
def State.defers (s : State) : Bool :=
  let e := s.el (dieOf s.ct.lcore)
  s.sched.deferLoads && !e.recording && !e.replaying && !anyBreak s

/-- Leaves an access of the acting control thread to perform later, after those that must come before it. What its stream has read ahead of the location is
dropped (R200). One of the vector stream comes after what the FENCEs before its instruction ask for. -/
def leaveLate (s0 : State) (vec : Bool) (p : Place) (op : LateOp) (dest : LateDest) : State :=
  let l : Late :=
    { lcore := s0.ct.lcore, ctno := s0.ct.ctno, task := s0.ct.task.taskid, vec := vec, seq := s0.ct.ord.opSeq, pa := p.pa, cached := p.cached,
      deps := p.deps, op := op, dest := dest, beforeV := if vec then s0.ct.ord.vvNow else [], scope := none, got := none }
  let s := performFirst s0 (!vec) l.writes p.pa l.len
  (forgetEarly s fun e => s.ahead (if vec then .vector else .scalar) e && e.shares s p.pa l.len).onMem fun m => { m with late := m.late ++ [l] }

/-- Sends an update that returns no old value (R250, R257): held in Bronze mode, left to perform later where late says so, applied otherwise. Those of the
scalar stream take ownership of a cached line (R182). -/
def sendUpdate (s : State) (bronze scalar late : Bool) (p : Place) (width op : BitVec 3) (v : Word) : State :=
  let s0 := performFirst (dropOwn (drainAt s p.pa 8) scalar p.pa 8) scalar true p.pa (amoBytes width)
  let hold := if scalar then atomicHold s p else .recall
  if heldNow bronze op width then
    let (t, s1) := nextTag (roundTrip s0 p.pa)
    joinChain s1 s.me hold ⟨p.pa, width, op, v, some t, s0.ct.lcore, s0.ct.ctno⟩
  else if late && s0.defers then leaveLate s0 (!scalar) p (.update width op v) .none
  else (performUpdate (roundTrip s0 p.pa) s.me hold ⟨p.pa, width, op, v, none, s0.ct.lcore, s0.ct.ctno⟩).2

end Sys2Proof.Machine
end

