-- ==== Sys2Proof/Machine/Scalar.lean ====
section
/-!
DEFINITION. The scalar integer family, LIM, ADDPC, the hint space, LAND, branches and jumps, LD and ST (R297 to R300, R304, R305, R328 to
R335).
-/

namespace Sys2Proof.Machine

/-- Writes the result of a scalar instruction to xd and moves on. -/
def writeBack (s : State) (d : Reg) (v : Word) : Host.Outcome State Fault Refusal := .next ((s.setX d v).advance)

/-- A register-register operation of profile LB1 (R298). -/
def aluRR (s : State) (d a b : Reg) (f : Word → Word → Word) : Host.Outcome State Fault Refusal :=
  withProfile .lb s (writeBack s d (f (s.getX a) (s.getX b)))

/-- A register-immediate operation of profile LB1 (R298). -/
def aluRI (s : State) (d a : Reg) (b : Word) (f : Word → Word → Word) : Host.Outcome State Fault Refusal :=
  withProfile .lb s (writeBack s d (f (s.getX a) b))

-- ## Table 16.3

def opShl (a b : Word) : Word := a <<< (b.toNat % 64)
def opShr (a b : Word) : Word := a >>> (b.toNat % 64)
def opSar (a b : Word) : Word := a.sshiftRight (b.toNat % 64)
def opSlt (a b : Word) : Word := if a.slt b then 1 else 0
def opSltu (a b : Word) : Word := if a.ult b then 1 else 0
/-- High 64 bits of the signed product. -/
def opMulh (a b : Word) : Word := BitVec.ofInt 64 ((a.toInt * b.toInt) / 2 ^ 64)
/-- High 64 bits of the unsigned product. -/
def opMulhu (a b : Word) : Word := BitVec.ofNat 64 ((a.toNat * b.toNat) / 2 ^ 64)
/-- Quotient rounded towards zero; a divisor of 0 gives all ones. -/
def opDiv (a b : Word) : Word := if b = 0 then BitVec.allOnes 64 else BitVec.ofInt 64 (a.toInt.tdiv b.toInt)
def opDivu (a b : Word) : Word := if b = 0 then BitVec.allOnes 64 else a / b
/-- a − b·quotient; a divisor of 0 gives a. -/
def opRem (a b : Word) : Word := if b = 0 then a else BitVec.ofInt 64 (a.toInt.tmod b.toInt)
def opRemu (a b : Word) : Word := if b = 0 then a else a % b
def opMin (a b : Word) : Word := if a.slt b then a else b
def opMax (a b : Word) : Word := if a.slt b then b else a
/-- The number of set bits among the lowest n. -/
def countBits (a : Word) : Nat → Nat
  | 0 => 0
  | n + 1 => countBits a n + (if a.getLsbD n then 1 else 0)
def opPopc (a : Word) : Word := BitVec.ofNat 64 (countBits a 64)

def execAdd (d a b : Reg) (s : State) : Host.Outcome State Fault Refusal := aluRR s d a b (· + ·)
def execSub (d a b : Reg) (s : State) : Host.Outcome State Fault Refusal := aluRR s d a b (· - ·)
def execAnd (d a b : Reg) (s : State) : Host.Outcome State Fault Refusal := aluRR s d a b (· &&& ·)
def execOr (d a b : Reg) (s : State) : Host.Outcome State Fault Refusal := aluRR s d a b (· ||| ·)
def execXor (d a b : Reg) (s : State) : Host.Outcome State Fault Refusal := aluRR s d a b (· ^^^ ·)
def execShl (d a b : Reg) (s : State) : Host.Outcome State Fault Refusal := aluRR s d a b opShl
def execShr (d a b : Reg) (s : State) : Host.Outcome State Fault Refusal := aluRR s d a b opShr
def execSar (d a b : Reg) (s : State) : Host.Outcome State Fault Refusal := aluRR s d a b opSar
def execSlt (d a b : Reg) (s : State) : Host.Outcome State Fault Refusal := aluRR s d a b opSlt
def execSltu (d a b : Reg) (s : State) : Host.Outcome State Fault Refusal := aluRR s d a b opSltu
def execMul (d a b : Reg) (s : State) : Host.Outcome State Fault Refusal := aluRR s d a b (· * ·)
def execMulh (d a b : Reg) (s : State) : Host.Outcome State Fault Refusal := aluRR s d a b opMulh
def execMulhu (d a b : Reg) (s : State) : Host.Outcome State Fault Refusal := aluRR s d a b opMulhu
def execDiv (d a b : Reg) (s : State) : Host.Outcome State Fault Refusal := aluRR s d a b opDiv
def execDivu (d a b : Reg) (s : State) : Host.Outcome State Fault Refusal := aluRR s d a b opDivu
def execRem (d a b : Reg) (s : State) : Host.Outcome State Fault Refusal := aluRR s d a b opRem
def execRemu (d a b : Reg) (s : State) : Host.Outcome State Fault Refusal := aluRR s d a b opRemu
def execMin (d a b : Reg) (s : State) : Host.Outcome State Fault Refusal := aluRR s d a b opMin
def execMax (d a b : Reg) (s : State) : Host.Outcome State Fault Refusal := aluRR s d a b opMax
def execPopc (d a : Reg) (s : State) : Host.Outcome State Fault Refusal := aluRR s d a a fun x _ => opPopc x

def execAddImm (d a : Reg) (i : BitVec 16) (s : State) : Host.Outcome State Fault Refusal := aluRI s d a (sext i) (· + ·)
def execSubImm (d a : Reg) (i : BitVec 16) (s : State) : Host.Outcome State Fault Refusal := aluRI s d a (sext i) (· - ·)
def execAndImm (d a : Reg) (i : BitVec 16) (s : State) : Host.Outcome State Fault Refusal := aluRI s d a (i.setWidth 64) (· &&& ·)
def execOrImm (d a : Reg) (i : BitVec 16) (s : State) : Host.Outcome State Fault Refusal := aluRI s d a (i.setWidth 64) (· ||| ·)
def execXorImm (d a : Reg) (i : BitVec 16) (s : State) : Host.Outcome State Fault Refusal := aluRI s d a (i.setWidth 64) (· ^^^ ·)
def execShlImm (d a : Reg) (n : BitVec 6) (s : State) : Host.Outcome State Fault Refusal := aluRI s d a (n.setWidth 64) opShl
def execShrImm (d a : Reg) (n : BitVec 6) (s : State) : Host.Outcome State Fault Refusal := aluRI s d a (n.setWidth 64) opShr
def execSarImm (d a : Reg) (n : BitVec 6) (s : State) : Host.Outcome State Fault Refusal := aluRI s d a (n.setWidth 64) opSar
def execSltImm (d a : Reg) (i : BitVec 16) (s : State) : Host.Outcome State Fault Refusal := aluRI s d a (sext i) opSlt
def execSltuImm (d a : Reg) (i : BitVec 16) (s : State) : Host.Outcome State Fault Refusal := aluRI s d a (sext i) opSltu
def execMulImm (d a : Reg) (i : BitVec 16) (s : State) : Host.Outcome State Fault Refusal := aluRI s d a (sext i) (· * ·)
def execMinImm (d a : Reg) (i : BitVec 16) (s : State) : Host.Outcome State Fault Refusal := aluRI s d a (sext i) opMin
def execMaxImm (d a : Reg) (i : BitVec 16) (s : State) : Host.Outcome State Fault Refusal := aluRI s d a (sext i) opMax

/-- LIM without a position: xd := sext(I) (R335). -/
def execLim (d : Reg) (i : BitVec 16) (s : State) : Host.Outcome State Fault Refusal := withProfile .lb s (writeBack s d (sext i))

/-- x with bits [16h+15:16h] := I (R335). -/
def insertHalf (x : Word) (h : Nat) (i : BitVec 16) : Word := putBits x (16 * h) 16 i.toNat

def execLimInsert (d : Reg) (h : BitVec 5) (i : BitVec 16) (s : State) : Host.Outcome State Fault Refusal :=
  withProfile .lb s (writeBack s d (insertHalf (s.getX d) h.toNat i))

/-- PC plus a word offset of 21 bits (R300, R329). -/
def wordTarget (pc : Word) (o : BitVec 21) : Word := pc + (sext o <<< 2)

def execAddpc (d : Reg) (o : BitVec 21) (s : State) : Host.Outcome State Fault Refusal :=
  withProfile .lb s (writeBack s d (wordTarget s.ct.pc o))

/-- Hint words read nothing, change nothing and never trap (R47). -/
def execNop (s : State) : Host.Outcome State Fault Refusal := .next s.advance
def execHint (h : BitVec 21) (s : State) : Host.Outcome State Fault Refusal := let _ := h; .next s.advance

/-- LAND executes as a no-op wherever it is reached (R331). -/
def execLand (s : State) : Host.Outcome State Fault Refusal := withProfile .lb s (.next s.advance)
def execLandTask (s : State) : Host.Outcome State Fault Refusal := withProfile .lb s (.next s.advance)

/-- The offset of BR counts words (R304). -/
def brTarget (pc : Word) (o : BitVec 12) : Word := pc + (sext o <<< 2)

def execBr (c : BitVec 4) (a b : Reg) (o : BitVec 12) (s : State) : Host.Outcome State Fault Refusal :=
  withProfile .lb s
    (.next (s.jump (if condWord c (s.getX a) (s.getX b) then brTarget s.ct.pc o else s.ct.pc + 4)))

/-- The link value (R53). -/
def linkOf (pc : Word) : Word := (pc + 4) ||| 1

def execJmp (o : BitVec 21) (s : State) : Host.Outcome State Fault Refusal := withProfile .lb s (.next (s.jump (wordTarget s.ct.pc o)))
def execJal (o : BitVec 21) (s : State) : Host.Outcome State Fault Refusal :=
  withProfile .lb s (.next ((s.setX 1 (linkOf s.ct.pc)).jump (wordTarget s.ct.pc o)))

/-- JALR jumps to the word that it has fetched and checked: that word is the one that executes there (R54). -/
def jalrLanded (d : Reg) (tgt : Word) (w : IWord) (s : State) : State :=
  ((s.setX d (linkOf s.ct.pc)).jump tgt).onCtl fun c => { c with target := some (tgt, w) }

/-- JALR (R54, R329, R330). A fault of its target's fetch is reported at the target with the landing check pending: JALR has completed. -/
def execJalr (d a : Reg) (i : BitVec 16) (s : State) : Host.Outcome State Fault Refusal :=
  withProfile .lb s (
    let raw := s.getX a + sext i
    let tgt := raw &&& ~~~ 1
    if tgt.getLsbD 1 then takeTrap { code := Code.align, sfva := tgt } s
    else if raw.getLsbD 0 then .next ((s.setX d (linkOf s.ct.pc)).jump tgt)
    else
      match fetchWord s tgt with
      | .ok w s1 =>
        if isLand w then .next (jalrLanded d tgt w s1)
        else takeTrap { code := Code.landing, sepc := some tgt, sfva := s1.ct.pc } s1
      | .trap t s1 => takeTrap { t with lpend := true } ((s1.setX d (linkOf s1.ct.pc)).jump tgt)
      | .wait w s1 => .next (s1.waitFor w)
      | .gone s1 => .next (s1.onCtl fun c => { c with contain := true }))

/-- LD executes (R333), its access made at once. -/
def loadNow (d a : Reg) (m : BitVec 5) (i : BitVec 11) (s : State) : Res Unit :=
  (scalarLoad s (dispAddr (s.getX a) i) (scalarBytes m)).andThen fun v s => .ok () ((s.setX d (scalarExtend m v)).advance)

/-- LD executes, its access left to perform later (R200, log entry 125). A device register is read at once. -/
def loadLater (d a : Reg) (m : BitVec 5) (i : BitVec 11) (s : State) : Res Unit :=
  let w := scalarBytes m
  ((resolveAligned s.ctx { kind := 1, plain := true } (dispAddr (s.getX a) i) w s).mapTrap (scalarRecord w)).andThen fun p s1 =>
    if homeOf p.pa = .device then loadNow d a m i s else .ok () ((leaveLate s1 false p (.load w) (.ld d m)).advance)

/-- LD (R333). -/
def execLd (d a : Reg) (m : BitVec 5) (i : BitVec 11) (s : State) : Host.Outcome State Fault Refusal :=
  withProfile .lb s (finish (if s.defers then loadLater d a m i s else loadNow d a m i s))

def execSt (v a : Reg) (m : BitVec 5) (i : BitVec 11) (s : State) : Host.Outcome State Fault Refusal :=
  withProfile .lb s (finish ((scalarStore s (dispAddr (s.getX a) i) (scalarBytes m) (s.getX v).toNat).andThen fun _ s =>
    .ok () s.advance))

end Sys2Proof.Machine
end

