-- ==== Sys2Proof/Machine/ScalarFp.lean ====
section
/-!
DEFINITION. Scalar floating point: FADD, FSUB, FMUL, FDIV, FSQRT, FMA, FMIN, FMAX, FCMP, FCVT and FCLASS (R312 to R316).
-/

namespace Sys2Proof.Machine

/-- The format of a scalar floating-point major (R37): 6 .f16, 7 .bf16, 8 .f32, 9 .f64. -/
def majFmt (f : BitVec 4) : FFmt :=
  match f.toNat with
  | 6 => .f16
  | 7 => .bf16
  | 8 => .f32
  | _ => .f64

/-- Writes a floating result zero-extended, ORs the flags in at execution (R124, R131), and moves on. -/
def fpWrite (s : State) (d : Reg) (r : Nat × FFlags) : Host.Outcome State Fault Refusal :=
  .next (((s.setX d (BitVec.ofNat 64 r.1)).orFlags r.2).advance)

/-- A scalar instruction takes an ISN when its rounding resolves to .rsr (R132). -/
def takeIsn (s : State) (rm : BitVec 3) : State :=
  if rm = 5 then { s with ct := { s.ct with fp := { s.ct.fp with isn := s.ct.fp.isn + 1 } } } else s

/-- A rounding instruction (R130, R313): ILLEGAL where dynamic rounding finds FRM at 6 or 7. -/
def rounded (s : State) (d : Reg) (r : BitVec 3) (f : Rc → Nat × FFlags) : Host.Outcome State Fault Refusal :=
  withProfile .lb s
    (match roundingOf r s.ct.fp.frm with
     | none => takeTrap { code := Code.illegal } s
     | some rm => fpWrite (takeIsn s rm) d (f ⟨rm, s.ct.fp.seed, s.ct.fp.isn, 0⟩))

def execFadd (f : BitVec 4) (d a b : Reg) (r : BitVec 3) (s : State) : Host.Outcome State Fault Refusal :=
  rounded s d r fun rc => (majFmt f).binop 0 rc (s.getX a).toNat (s.getX b).toNat
def execFsub (f : BitVec 4) (d a b : Reg) (r : BitVec 3) (s : State) : Host.Outcome State Fault Refusal :=
  rounded s d r fun rc => (majFmt f).binop 1 rc (s.getX a).toNat (s.getX b).toNat
def execFmul (f : BitVec 4) (d a b : Reg) (r : BitVec 3) (s : State) : Host.Outcome State Fault Refusal :=
  rounded s d r fun rc => (majFmt f).binop 2 rc (s.getX a).toNat (s.getX b).toNat
def execFdiv (f : BitVec 4) (d a b : Reg) (r : BitVec 3) (s : State) : Host.Outcome State Fault Refusal :=
  rounded s d r fun rc => (majFmt f).binop 3 rc (s.getX a).toNat (s.getX b).toNat
def execFsqrt (f : BitVec 4) (d a : Reg) (r : BitVec 3) (s : State) : Host.Outcome State Fault Refusal :=
  rounded s d r fun rc => (majFmt f).sqrt rc (s.getX a).toNat
def execFma (f : BitVec 4) (d a b c : Reg) (r : BitVec 3) (s : State) : Host.Outcome State Fault Refusal :=
  rounded s d r fun rc => (majFmt f).fma rc (s.getX a).toNat (s.getX b).toNat (s.getX c).toNat
def execFmin (f : BitVec 4) (d a b : Reg) (s : State) : Host.Outcome State Fault Refusal :=
  withProfile .lb s (fpWrite s d ((majFmt f).minmax false (s.getX a).toNat (s.getX b).toNat))
def execFmax (f : BitVec 4) (d a b : Reg) (s : State) : Host.Outcome State Fault Refusal :=
  withProfile .lb s (fpWrite s d ((majFmt f).minmax true (s.getX a).toNat (s.getX b).toNat))

/-- The format of a type code from 10 to 13. -/
def typeFmt (t : BitVec 5) : FFmt := (tyFmt t.toNat).getD .f64

def execFcmp (d a b : Reg) (t : BitVec 5) (c : BitVec 4) (s : State) : Host.Outcome State Fault Refusal :=
  withProfile .lb s
    (let r := (typeFmt t).compare c (s.getX a).toNat (s.getX b).toNat
     fpWrite s d (if r.1 then 1 else 0, r.2))

/-- A scalar result of a type (R124): signed integers are sign-extended. -/
def extendType (t v : Nat) : Nat := if tySigned t then wrapN 64 (toSigned (tyBits t) v) else v

/-- FCVT: field t (B) is the destination type, field u (C) the source type (R316). -/
def execFcvt (d a : Reg) (t u : BitVec 5) (r : BitVec 3) (s : State) : Host.Outcome State Fault Refusal :=
  rounded s d r fun rc =>
    let v := convert rc u.toNat t.toNat (s.getX a).toNat
    (extendType t.toNat v.1, v.2)

def execFclass (d a : Reg) (t : BitVec 5) (s : State) : Host.Outcome State Fault Refusal :=
  withProfile .lb s (writeBack s d (BitVec.ofNat 64 ((typeFmt t).classify (s.getX a).toNat)))

end Sys2Proof.Machine
end

