-- ==== Sys2Proof/Machine/Vector.lean ====
section
/-!
DEFINITION. Vector state and the vector stream: register groups as bytes (R64), the write policies (R65 to R69), predicates (R70), dispatch
into the VIQ (R79), completion, delivery and stops (R71, R72, R76, R80, R83), and the element-wise driver that the vector families share.
-/

namespace Sys2Proof.Machine

-- ## VCFG

namespace Vcfg
/-- Type code of VCFG.ETYPE. -/
def ty (c : Vcfg) : Nat := c.etype.toNat
/-- Element width in bytes. -/
def w (c : Vcfg) : Nat := tyBytes c.ty
/-- Grouping factor. -/
def g (c : Vcfg) : Nat := 2 ^ c.grp.toNat
def mz (c : Vcfg) : Bool := c.mpol == 1
/-- The VCFG CSR (Table 3.1). -/
def word (c : Vcfg) : Word := (0 : BitVec 48) ++ c.etype ++ c.grp ++ c.tpol ++ c.mpol ++ c.scope ++ (0 : BitVec 4)
end Vcfg

namespace VEntry
def w (e : VEntry) : Nat := e.vcfg.w
def g (e : VEntry) : Nat := e.vcfg.g
def ty (e : VEntry) : Nat := e.vcfg.ty
end VEntry

/-- Register length L of the task (R59). -/
def State.L (s : State) : Nat := s.ct.task.regLen

/-- VLMAX (R60). -/
def vlmax (l : Nat) (c : Vcfg) : Nat := l * c.g / c.w

-- ## Register groups (R64)

namespace State

/-- Element i of width w bytes of the group that begins at register n. -/
def elem (s : State) (n w i : Nat) : Nat :=
  natBits ((s.ct.vec.vfile.toList.getD (n + i * w / s.L) 0).toNat) (8 * (i * w % s.L)) (8 * w)

/-- Writes element i of width w bytes; the slab it lies in is no longer released (R67). -/
def setElem (s : State) (n w i v : Nat) : State :=
  let r := n + i * w / s.L
  let off := i * w % s.L
  s.onVec fun x =>
    { x with vfile := x.vfile.setIfInBounds r (putBits (x.vfile.toList.getD r 0) (8 * off) (8 * w) v),
             released := if x.released.isEmpty then [] else x.released.filter (· != r * (s.L / 256) + off / 256) }

/-- Bit i of a predicate; p0 reads as ones (R70). -/
def pbit (s : State) (p i : Nat) : Bool := p == 0 || ((s.ct.vec.preds.toList.getD p 0).getLsbD i)

/-- Writes a whole predicate; a write to p0 is discarded (R69). -/
def setPred (s : State) (p : Nat) (v : BitVec 16384) : State :=
  if p = 0 then s else s.onVec fun x => { x with preds := x.preds.setIfInBounds p v }

end State

/-- Bytes of the tail in register m of a group, whose first tail byte in the group is t0 (R65): from there to L, set to ones. -/
def fillTail (l : Nat) (v : BitVec 16384) (from_ : Nat) : BitVec 16384 := putBits v (8 * from_) (8 * (l - from_)) (2 ^ (8 * (l - from_)) - 1)

/-- The tail of a group of g registers from n on, for elements of width w (R65, R67): unchanged under tk; ones under tf and td, and under td
every slab wholly at or above VL·w is released and reads as zero. -/
def writeTail (s : State) (c : Vcfg) (vl n w g : Nat) : State :=
  if c.tpol = 0 then s
  else
    let l := s.L
    (List.range g).foldl (fun s m =>
      let t0 := vl * w - m * l
      if l ≤ t0 then s
      else
        let r := n + m
        let slab0 := if c.tpol = 2 then ceilDiv t0 256 else l / 256
        s.onVec fun x =>
          let v1 := fillTail l (x.vfile.toList.getD r 0) t0
          let v2 := if c.tpol = 2 then putBits v1 (2048 * slab0) (8 * (l - 256 * slab0)) 0 else v1
          let ids := (List.range (l / 256 - slab0)).map fun k => r * (l / 256) + slab0 + k
          let kept := x.released.filter fun i => i / (l / 256) != r || decide (i % (l / 256) < t0 / 256)
          { x with vfile := x.vfile.setIfInBounds r v2, released := kept ++ ids }) s

-- ## Answers of a vector instruction

def Effects.none : Effects := { fflags := 0, mflags := 0, deliver := Option.none, host := false }
def Effects.flags (f : FFlags) : Effects := { Effects.none with fflags := f }
def Effects.queue (q : Nat) (v : Word) (f : FFlags) : Effects := { Effects.none with fflags := f, deliver := some (q, v) }

/-- A trap of the vector stream that ranks with R48, or ETYPE, or QUEUE. -/
def vtrap {α : Type} (code : BitVec 8) (s : State) : Res α := .trap { code := code, vec := true } s

/-- A vector register field that is not a multiple of GRP traps ILLEGAL (R48). -/
def aligned (e : VEntry) (r : Reg) : Bool := r.toNat % e.g == 0

/-- Runs an operation if a check holds, or traps. -/
def need {α : Type} (ok : Bool) (code : BitVec 8) (s : State) (f : Res α) : Res α := if ok then f else vtrap code s

/-- A non-resumable instruction that begins with VSTART ≠ 0 traps ILLEGAL (R72). -/
def whole {α : Type} (s : State) (f : Res α) : Res α := need (s.ct.vec.vstart == 0) Code.illegal s f

/-- The types that vector floating-point arithmetic accepts (R139, R377). -/
def isArithFp (t : Nat) : Bool := decide (10 ≤ t) && decide (t ≤ 13)

-- ## The element-wise driver (R65, R66)

/-- The elements an instruction steps through: VSTART ≤ i < VL. -/
def stripFrom (s : State) (e : VEntry) : List Nat := (List.range (e.vl - s.ct.vec.vstart)).map (· + s.ct.vec.vstart)

/-- Stops at element i: VSTART, and pdone clear (R83). -/
def stopAt (s : State) (i : Nat) : State := s.onVec fun x => { x with vstart := i, pdone := 0 }

/-- A pre-emption stops the instruction before an element, or after a number of elements of an indexed form (R71, R83). -/
def VEntry.stopped (e : VEntry) (n : Nat) : Bool :=
  match e.stop with
  | some k => decide (k ≤ n)
  | none => false

/-- The stop of a pre-emption, with the flags of the elements that have retired. -/
def preemptStop (fl : FFlags) : Trap := { code := Code.preempt, vec := true, owed := fl }

/-- Writes one destination group: f gives the result and flags of an active element from the state before; an inactive element is zeroed
under mz. The tail is not written here. -/
def writeActive (s0 : State) (e : VEntry) (d w : Nat) (act : Nat → Bool) (f : Nat → Nat × FFlags) (s : State) : State × FFlags :=
  ((stripFrom s0 e).filter fun i => !e.stopped i).foldl (fun (a : State × FFlags) i =>
    if act i then
      let (v, fl) := f i
      (a.1.setElem d w i v, a.2 ||| fl)
    else if e.vcfg.mz then (a.1.setElem d w i 0, a.2) else a) (s, 0)

/-- The end of an element-wise instruction that has written s1: its tail, or the stop of a pre-emption. -/
def endStrip (s : State) (e : VEntry) (fl : FFlags) (tail : State → State) (s1 : State) : Res Effects :=
  match e.stop with
  | some k => if k < e.vl then .trap (preemptStop fl) (stopAt s1 (max k s.ct.vec.vstart)) else .ok (Effects.flags fl) (tail s1)
  | none => .ok (Effects.flags fl) (tail s1)

/-- An element-wise instruction with one destination group of width w. -/
def elementwise (s : State) (e : VEntry) (d : Reg) (p : BitVec 3) (w : Nat) (f : Nat → Nat × FFlags) : Res Effects :=
  if e.vl ≤ s.ct.vec.vstart then .ok Effects.none s
  else
    let (s1, fl) := writeActive s e d.toNat w (s.pbit p.toNat) f s
    endStrip s e fl (fun s1 => writeTail s1 e.vcfg e.vl d.toNat w e.g) s1

/-- A destination of which element 0 is active and 1 to VL−1 are inactive (R350, R375, R395); nothing when VL = 0 (R66). -/
def writeFirst (s : State) (e : VEntry) (d : Reg) (v : Nat) : State :=
  if e.vl = 0 then s
  else
    let (s1, _) := writeActive s e d.toNat e.w (· == 0) (fun _ => (v, 0)) s
    writeTail s1 e.vcfg e.vl d.toNat e.w e.g

/-- A predicate of 16,384 bits from the bits below n. -/
def predOf (n : Nat) (f : Nat → Bool) : BitVec 16384 :=
  BitVec.ofNat 16384 ((List.range n).foldl (fun a i => if f i then a + 2 ^ i else a) 0)

/-- A predicate result (R69): active bits the result, inactive bits by MPOL, prestart bits kept, and bits at and above VL cleared. -/
def predResult (s : State) (e : VEntry) (d p : Nat) (f : Nat → Bool) : BitVec 16384 :=
  predOf e.vl fun i =>
    if i < s.ct.vec.vstart then s.pbit d i
    else if s.pbit p i then f i
    else !e.vcfg.mz && s.pbit d i

/-- Writes a predicate destination; nothing when no element is stepped through (R66). -/
def writePred (s : State) (e : VEntry) (d : Reg) (p : BitVec 3) (f : Nat → Bool) : State :=
  if e.vl ≤ s.ct.vec.vstart then s else s.setPred d.toNat (predResult s e d.toNat p.toNat f)

/-- The end of a compare (R370, R371), which is resumable (R72): its predicate, or, where a pre-emption stops it, the bits of the elements below the stop,
every other bit as it was. -/
def endPred (s : State) (e : VEntry) (d : Reg) (p : BitVec 3) (fl : FFlags) (f : Nat → Bool) : Res Effects :=
  let full : Res Effects := .ok (Effects.flags fl) (writePred s e d p f)
  match e.stop with
  | some k =>
    if k < e.vl ∧ s.ct.vec.vstart < e.vl then
      let v := max k s.ct.vec.vstart
      let r := predResult s e d.toNat p.toNat f
      .trap (preemptStop fl) (stopAt (s.setPred d.toNat (predOf 16384 fun i => if i < v then r.getLsbD i else s.pbit d.toNat i)) v)
    else full
  | none => full

/-- The b operand of the vv, vx and vi forms (R41, R356): element i of a group, the captured scalar, or the sign-extended immediate. -/
def operandB (s : State) (e : VEntry) (b : Reg) (f : BitVec 2) (i : Nat) : Nat :=
  match f.toNat with
  | 0 => s.elem b.toNat e.w i
  | 1 => e.xb.toNat % 2 ^ (8 * e.w)
  | _ => wrapN (8 * e.w) b.toInt

/-- The vv form names a group in B. -/
def alignedB (e : VEntry) (b : Reg) (f : BitVec 2) : Bool := f != 0 || aligned e b

/-- The immediate of VSPLAT and VMERGE (R374): an integer, or its value in a floating type. -/
def immValue (ty : Nat) (b : Reg) : Nat :=
  match tyFmt ty with
  | some f => (f.deliver Rc.rne (FVal.ofInt false b.toInt 0)).1
  | none => wrapN (tyBits ty) b.toInt

-- ## Completion and delivery (R76, R80)

/-- A value of an element delivered to a queue: sign-extended from a signed integer type, zero-extended otherwise (R76). -/
def deliverExt (ty v : Nat) : Word := BitVec.ofNat 64 (if tySigned ty then wrapN 64 (toSigned (tyBits ty) v) else v)

/-- The queue of a delivery has room (R75). -/
def State.roomIn (s : State) (q : Nat) : Bool := decide ((s.ct.vec.queues.toList.getD q []).length < Config.queueDepth)

def State.pushQueue (s : State) (q : Nat) (v : Word) : State :=
  s.onVec fun x => { x with queues := x.queues.setIfInBounds q (x.queues.toList.getD q [] ++ [v]) }

/-- The VSAMPLE record of a sampled entry, if it has one to write (R282). -/
def writeSample (s : State) (fs : List (Nat × Nat × Nat)) : State := if fs.isEmpty then s else produce s (dieOf s.ct.lcore) 0x01 s.ct.source fs

/-- What an instruction owes at its completion (R76, R80, R282): flags, delivery and record; the delivery is discarded while the task ends (R78). -/
def payEffects (s : State) (ef : Effects) : State :=
  let s1 := (writeSample s ef.sample).orFlags ef.fflags
  let s2 := s1.onMx fun m => { m with mxflag := m.mxflag ||| ef.mflags }
  match ef.deliver with
  | some (q, v) => if s2.ct.ctl.wait = .ending then s2 else s2.pushQueue q v
  | none => s2

/-- VSTART and pdone for the next instruction (R71). -/
def fromZero (s : State) : State := s.onVec fun x => { x with vstart := 0, pdone := 0 }

/-- A vector instruction completes: VSTART := 0, pdone cleared, and what it owes (R71, R76, R80). -/
def applyEffects (s : State) (ef : Effects) : State := payEffects (fromZero s) ef

-- ## Stops (R83)

/-- Lane groups or the array that an entry was bound to are free again (R99). -/
def freeIssue (s : State) (e : VEntry) : State :=
  match e.issue with
  | none => s
  | some i => s.onCore s.ct.lcore fun k =>
    if i.array then { k with arrayBusy := false } else { k with freeLanes := min 8 (k.freeLanes + i.groups) }

/-- An entry that re-executes from the saved context. -/
def VEntry.again (e : VEntry) : VEntry := { e with issue := none, done := none, stop := none, reex := true }

/-- The vector stream stops at an instruction: rest, the entries that re-execute after it, are kept with their operands, the scalar PC is
recorded, with its landing check where that is not complete, and the nest position stays in the context. owed: the flags of the elements that have retired, delivered at the completion (R131). -/
def stopVector (s : State) (e : VEntry) (rest : List VEntry) (owed : BitVec 5) : State :=
  (s.onVec fun x =>
    { x with stopped := some ⟨{ e.again with owed := e.owed ||| owed }, rest.map VEntry.again, s.ct.pc, s.landing, s.ct.nest.runs⟩, viq := [] }).onCt
    fun t => { t with nest := { t.nest with runs := [] } }

/-- A trap of the vector stream: SEPC is the stopped instruction. -/
def vectorTrap (s : State) (e : VEntry) (rest : List VEntry) (t : Trap) : Host.Outcome State Fault Refusal :=
  takeTrap { t with sepc := some e.pc, vec := true } (stopVector s e rest t.owed)

/-- What re-executes after a stop: the stopped instruction, which goes on from VSTART and pdone, and the saved entries; a body instruction of a nest is
among those. -/
def Stopped.entries (st : Stopped) : List VEntry :=
  if st.entry.nested then st.saved.map fun b => if b.pc = st.entry.pc then { b with owed := st.entry.owed, resumed := true } else b
  else { st.entry with resumed := true } :: st.saved

/-- The stopped instruction and its saved entries go back into the VIQ (R83, R240, R355) before the scalar stream dispatches anything, and the scalar
stream is where it stood. -/
def resumeStopped (s : State) : State :=
  match s.ct.vec.stopped with
  | none => s
  | some st =>
    (s.onVec fun x => { x with stopped := none, viq := x.viq ++ st.entries, hold := true }).onCt fun t =>
      { t with pc := st.spc, ctl := { t.ctl with lpend := st.lpend }, nest := { t.nest with runs := t.nest.runs ++ st.nest } }

-- ## Dispatch (R79, R132)

/-- The scalar stream is at a body word that NLOOP captured. -/
def State.inBody (s : State) : Bool :=
  match s.ct.nest.capture with
  | none => false
  | some c => c.at_ == s.ct.pc

/-- The captured scalars of an instruction: fields D, A, B and C where they name x registers. -/
def capture (s : State) (i : Instr) (d a b c : Reg) : VEntry where
  instr := i
  pc := s.ct.pc
  level := s.ct.level
  xd := s.getX d
  xa := s.getX a
  xb := s.getX b
  xc := s.getX c
  vcfg := s.ct.vec.vcfg
  vl := s.ct.vec.vl
  frm := s.ct.fp.frm
  isn := s.ct.fp.isn
  bronze := s.ct.ord.detctl
  nested := s.inBody
  off := 0
  issue := none
  done := none
  owed := 0
  stop := none
  sampled := false
  reex := false
  resumed := false
  ivl := s.ct.ord.fenceIvl
  vv := []

/-- The threads' count of sampled instructions (R282): the count restarts, and the instruction is sampled, at 2^SAMP. -/
def sampleDispatch (s : State) (e : VEntry) : VEntry × State :=
  let el := s.el (dieOf s.ct.lcore)
  if el.samp = 15 ∨ el.frozen ∨ !passes s s.ct e.pc then (e, s)
  else if 2 ^ el.samp.toNat ≤ s.ct.ctl.sampleCnt + 1 then ({ e with sampled := true }, s.onCtl fun c => { c with sampleCnt := 0 })
  else (e, s.onCtl fun c => { c with sampleCnt := c.sampleCnt + 1 })

/-- Moves past a body word of a nest that NLOOP captured. -/
def passBody (s : State) : State :=
  if !s.inBody then s else s.onCt fun t =>
    match t.nest.capture with
    | none => t
    | some c => { t with nest := { t.nest with capture := if c.words.length ≤ 1 then none else some ⟨c.at_ + 4, c.words.tail⟩ } }

/-- Nothing is dispatched while the VIQ is full (R79), or while saved entries still re-execute (R83); a nest whose body is being dispatched goes on. -/
def dispatchWaits (s : State) : Bool := decide (Config.viqDepth ≤ s.ct.vec.viq.length + s.ct.vec.owing.length) || (s.ct.vec.hold && s.ct.nest.capture.isNone)

/-- Puts an entry into the VIQ and moves past its word, or stalls the scalar stream. rounding: the rounding field of a
rounding instruction (R400), which takes an ISN when it resolves to .rsr (R132). -/
def enqueue (s : State) (e : VEntry) (rounding : Option (BitVec 3)) : Option State :=
  if dispatchWaits s then none
  else
    let s1 := match rounding with
      | some r => takeIsn s ((roundingOf r s.ct.fp.frm).getD 0)
      | none => s
    let (e1, s2) := sampleDispatch s1 e
    some ((passBody (s2.onVec fun x => { x with viq := x.viq ++ [e1] })).advance)

/-- The rounding of an entry: its field resolved with the captured FRM; none where that is 6 or 7 (R130). -/
def VEntry.round (e : VEntry) (field : BitVec 3) : Option (BitVec 3) := roundingOf field e.frm

/-- What .rsr draws on for element i of an entry (R133). -/
def VEntry.rc (s : State) (e : VEntry) (rm : BitVec 3) (i : Nat) : Rc := ⟨rm, s.ct.fp.seed, e.isn, i⟩

-- ## Immediate execution

/-- DEF is held between −4,096 and +4,096 (R99). -/
def clampDef (i : Int) : Int := max (-4096) (min 4096 i)

/-- The acting control thread is the only one of its core with work for the vector unit, which is idle. -/
def State.alone (s : State) : Bool :=
  let k := s.core s.ct.lcore
  k.freeLanes == 8 && !k.arrayBusy &&
    s.others.all fun t => t.lcore != s.ct.lcore || t.status != .running || t.vec.viq.isEmpty || t.vec.stopped.isSome

/-- Whether a vector instruction may run as it is dispatched (log entry 4): the schedule leaves nothing in flight, nothing is ahead, and the
arbiter would issue it at once to every lane group. -/
def State.immediate (s : State) : Bool :=
  !s.sched.deferVector && s.ct.vec.viq.isEmpty && decide (s.ct.vec.owing.length < Config.viqDepth) && !s.ct.vec.hold && s.ct.nest.capture.isNone && s.ct.nest.runs.isEmpty && s.alone

/-- Electrum watches the die of the acting thread: it counts samples, or breakpoints see each entry in the VIQ. -/
def observed (s : State) : Bool := (s.el (dieOf s.ct.lcore)).samp != 15 || anyBreak s

/-- The charge of an instruction that issues alone (R99): one clock's weight, then eight lane groups for its clocks. -/
def chargeAlone (s : State) (clocks : Nat) : State :=
  s.onCtl fun c => { c with deficit := clampDef (clampDef (c.deficit + s.ct.task.share) - (8 * clocks : Nat)) }

/-- Flags of an instruction that completes: with those of the elements that retired before its last stop. -/
def Effects.withOwed (ef : Effects) (e : VEntry) : Effects := { ef with fflags := ef.fflags ||| e.owed }

/-- An entry that has executed may complete: its queue has room (R75), or its delivery is discarded, and the host has answered where it waits for that
(R201). -/
def mayComplete (s : State) (ef : Effects) : Bool :=
  (match ef.deliver with
   | some (q, _) => s.roomIn q || s.ct.ctl.wait == .ending
   | none => true) && (!ef.host || s.m.biWait.isEmpty)

/-- A buffered store of a vector instruction of the acting control thread, by its number. -/
def State.storeOf (s : State) (op : Nat) (b : BufStore) : Bool := s.mine b && b.vec && b.op == op

/-- A late access of one. -/
def State.lateOf (s : State) (op : Nat) (l : Late) : Bool := s.myLate l && l.vec && l.seq == op

/-- An access has not performed at a scope. -/
def below (scope : Option Nat) (sc : Nat) : Bool :=
  match scope with
  | some n => decide (n < sc)
  | none => true

/-- A late access keeps its instruction from completing at a scope: an update that has not performed there, or a load that has not landed. -/
def Late.keeps (l : Late) (sc : Nat) : Bool :=
  match l.dest with
  | .none => l.got.isNone && below l.scope sc
  | _ => true

/-- Accesses of an instruction that has executed have not all performed at its scope (R201). In Bronze mode the write-combining buffer holds its stores
(R224), and R201 does not say whether the entry then waits for its drain: the model lets it complete (log entry 132). -/
def memOpen (s : State) (ef : Effects) : Bool :=
  match ef.mem with
  | some (op, sc) => (s.m.sbuf.any fun b => s.storeOf op b && below b.scope sc) || s.m.late.any fun l => s.lateOf op l && l.keeps sc
  | none => false

/-- A memory instruction stays behind its execution: accesses are open, or the host has still to answer (R201). -/
def staysOpen (s : State) (ef : Effects) : Bool := ef.mem.isSome && (memOpen s ef || (ef.host && !s.m.biWait.isEmpty))

/-- A memory instruction that has executed goes on owing its completion, while younger entries execute (R81, R201). -/
def moveOwing (s : State) (ef : Effects) : State := (fromZero s).onVec fun x => { x with owing := x.owing ++ [ef] }

/-- DISPATCHES A VECTOR INSTRUCTION: profile, capture, then its VIQ entry; where the schedule leaves nothing in flight it runs and completes at
once. charge is what its issue costs, op its operation. -/
def dispatch (pr : Profile) (s : State) (e : VEntry) (rounding : Option (BitVec 3)) (charge : State → VEntry → State)
    (op : State → VEntry → Res Effects) : Host.Outcome State Fault Refusal :=
  withProfile pr s
    (if s.immediate && !observed s then
      let s1 := match rounding with
        | some r => takeIsn s ((roundingOf r s.ct.fp.frm).getD 0)
        | none => s
      match op (charge s1 e) e with
      | .ok ef s2 =>
        if staysOpen s2 ef then .next (moveOwing s2 ef).advance
        else if mayComplete s2 ef then .next (applyEffects s2 ef).advance
        else .next ((s2.onVec fun x => { x with viq := [{ e with done := some ef }] }).advance)
      | .trap t s2 => vectorTrap s2.advance e [] t
      | .wait _ _ => .next ((s1.onVec fun x => { x with viq := [e] }).advance)
      | .gone s2 => .next ((s2.advance).onCtl fun c => { c with contain := true })
    else
      match enqueue s e rounding with
      | some s1 => .next s1
      | none => .next (s.waitFor .viqFull))

/-- A captured entry with no scalar operands of interest. -/
def entry0 (s : State) (i : Instr) : VEntry := capture s i 0 0 0 0

end Sys2Proof.Machine
end

