-- ==== Sys2Proof/Machine/VInt.lean ====
section
/-!
DEFINITION. Vector moves, integer arithmetic, compares, permutes, predicates and reductions (R349, R350, R364, R365, R370 to R375, R391 to
R395, R116, R117, R140 to R144).
-/

namespace Sys2Proof.Machine

-- ## Integer arithmetic (R365)

/-- An integer element-wise function of major 0x22: f on the type, the old vd[i], va[i] and b. -/
def vint (d a b : Reg) (p : BitVec 3) (fm : BitVec 2) (anyType : Bool) (f : Nat → Nat → Nat → Nat → Nat) (s : State) (e : VEntry) :
    Res Effects :=
  need (aligned e d && aligned e a && alignedB e b fm) Code.illegal s
    (need (anyType || tyIsInt e.ty) Code.etype s
      (elementwise s e d p e.w fun i =>
        (f e.ty (s.elem d.toNat e.w i) (s.elem a.toNat e.w i) (operandB s e b fm i), 0)))

-- Table 18.4: type code t, old vd[i], va[i], b, each of the type's width
def vAdd (t _ a b : Nat) : Nat := (a + b) % 2 ^ tyBits t
def vSub (t _ a b : Nat) : Nat := (a + 2 ^ tyBits t - b) % 2 ^ tyBits t
def vMul (t _ a b : Nat) : Nat := a * b % 2 ^ tyBits t
/-- High half of the product, with the signedness of the type. -/
def vMulh (t _ a b : Nat) : Nat := wrapN (tyBits t) (tyInt t a * tyInt t b / (2 ^ tyBits t : Nat))
def vMac (t old a b : Nat) : Nat := (old + a * b) % 2 ^ tyBits t
/-- Quotient rounded towards zero; a divisor of 0 gives all ones. -/
def vDiv (t _ a b : Nat) : Nat := if b = 0 then 2 ^ tyBits t - 1 else wrapN (tyBits t) ((tyInt t a).tdiv (tyInt t b))
def vMin (t _ a b : Nat) : Nat := if tyInt t b < tyInt t a then b else a
def vMax (t _ a b : Nat) : Nat := if tyInt t a < tyInt t b then b else a
def vAnd (_ _ a b : Nat) : Nat := a &&& b
def vOr (_ _ a b : Nat) : Nat := a ||| b
def vXor (_ _ a b : Nat) : Nat := a ^^^ b
def vShl (t _ a b : Nat) : Nat := a * 2 ^ (b % tyBits t) % 2 ^ tyBits t
def vShr (t _ a b : Nat) : Nat := a / 2 ^ (b % tyBits t)
def vSar (t _ a b : Nat) : Nat := wrapN (tyBits t) (toSigned (tyBits t) a / (2 ^ (b % tyBits t) : Nat))
/-- Saturated to the range of the type. -/
def vSadd (t _ a b : Nat) : Nat := tySat t (tyInt t a + tyInt t b)

def vopVadd (d a b : Reg) (p : BitVec 3) (f : BitVec 2) (s : State) (e : VEntry) : Res Effects := vint d a b p f false vAdd s e
def vopVsub (d a b : Reg) (p : BitVec 3) (f : BitVec 2) (s : State) (e : VEntry) : Res Effects := vint d a b p f false vSub s e
def vopVmul (d a b : Reg) (p : BitVec 3) (f : BitVec 2) (s : State) (e : VEntry) : Res Effects := vint d a b p f false vMul s e
def vopVmulh (d a b : Reg) (p : BitVec 3) (f : BitVec 2) (s : State) (e : VEntry) : Res Effects := vint d a b p f false vMulh s e
def vopVmac (d a b : Reg) (p : BitVec 3) (f : BitVec 2) (s : State) (e : VEntry) : Res Effects := vint d a b p f false vMac s e
def vopVdiv (d a b : Reg) (p : BitVec 3) (f : BitVec 2) (s : State) (e : VEntry) : Res Effects := vint d a b p f false vDiv s e
def vopVmin (d a b : Reg) (p : BitVec 3) (f : BitVec 2) (s : State) (e : VEntry) : Res Effects := vint d a b p f false vMin s e
def vopVmax (d a b : Reg) (p : BitVec 3) (f : BitVec 2) (s : State) (e : VEntry) : Res Effects := vint d a b p f false vMax s e
def vopVand (d a b : Reg) (p : BitVec 3) (f : BitVec 2) (s : State) (e : VEntry) : Res Effects := vint d a b p f true vAnd s e
def vopVor (d a b : Reg) (p : BitVec 3) (f : BitVec 2) (s : State) (e : VEntry) : Res Effects := vint d a b p f true vOr s e
def vopVxor (d a b : Reg) (p : BitVec 3) (f : BitVec 2) (s : State) (e : VEntry) : Res Effects := vint d a b p f true vXor s e
def vopVshl (d a b : Reg) (p : BitVec 3) (f : BitVec 2) (s : State) (e : VEntry) : Res Effects := vint d a b p f false vShl s e
def vopVshr (d a b : Reg) (p : BitVec 3) (f : BitVec 2) (s : State) (e : VEntry) : Res Effects := vint d a b p f false vShr s e
def vopVsar (d a b : Reg) (p : BitVec 3) (f : BitVec 2) (s : State) (e : VEntry) : Res Effects := vint d a b p f false vSar s e
def vopVsadd (d a b : Reg) (p : BitVec 3) (f : BitVec 2) (s : State) (e : VEntry) : Res Effects := vint d a b p f false vSadd s e

-- ## Moves (R374, R375, R117)

def vopVid (d : Reg) (p : BitVec 3) (s : State) (e : VEntry) : Res Effects :=
  need (aligned e d) Code.illegal s
    (need (tyIsInt e.ty) Code.etype s (elementwise s e d p e.w fun i => (i % 2 ^ (8 * e.w), 0)))

def vopVsplat (d b : Reg) (p : BitVec 3) (f : BitVec 2) (s : State) (e : VEntry) : Res Effects :=
  need (aligned e d) Code.illegal s
    (elementwise s e d p e.w fun _ => (if f == 1 then e.xb.toNat % 2 ^ (8 * e.w) else immValue e.ty b, 0))

def vopVmv (d a : Reg) (p : BitVec 3) (s : State) (e : VEntry) : Res Effects :=
  need (aligned e d && aligned e a) Code.illegal s (elementwise s e d p e.w fun i => (s.elem a.toNat e.w i, 0))

/-- The element index of VEXT: the captured register or the unsigned immediate. -/
def indexB (e : VEntry) (b : Reg) (f : BitVec 2) : Nat := if f == 1 then e.xb.toNat else b.toNat

def vextVal (a b : Reg) (f : BitVec 2) (s : State) (e : VEntry) : Nat :=
  if indexB e b f < e.vl then s.elem a.toNat e.w (indexB e b f) else 0

def vopVext (d a b : Reg) (f : BitVec 2) (s : State) (e : VEntry) : Res Effects :=
  need (aligned e d && aligned e a) Code.illegal s
    (whole s (.ok Effects.none (writeFirst s e d (vextVal a b f s e))))

def vopVextQ (q a b : Reg) (f : BitVec 2) (s : State) (e : VEntry) : Res Effects :=
  need (aligned e a) Code.illegal s
    (whole s (need (4 ≤ q.toNat) Code.queue s
      (.ok (Effects.queue q.toNat (deliverExt e.ty (vextVal a b f s e)) 0) s)))

/-- The highest active element, if there is one (R117). -/
def lastActive (s : State) (e : VEntry) (p : BitVec 3) : Option Nat := (List.range e.vl).reverse.find? fun i => s.pbit p.toNat i

def vlastVal (a : Reg) (p : BitVec 3) (s : State) (e : VEntry) : Nat :=
  match lastActive s e p with
  | some i => s.elem a.toNat e.w i
  | none => 0

/-- VLAST: with no active element, vd[0] too is inactive (R117). -/
def vopVlast (d a : Reg) (p : BitVec 3) (s : State) (e : VEntry) : Res Effects :=
  need (aligned e d && aligned e a) Code.illegal s
    (whole s (.ok Effects.none (
      match lastActive s e p with
      | some _ => writeFirst s e d (vlastVal a p s e)
      | none =>
        if e.vl = 0 then s
        else writeTail (writeActive s e d.toNat e.w (fun _ => false) (fun _ => (0, 0)) s).1 e.vcfg e.vl d.toNat e.w e.g)))

def vopVlastQ (q a : Reg) (p : BitVec 3) (s : State) (e : VEntry) : Res Effects :=
  need (aligned e a) Code.illegal s
    (whole s (need (4 ≤ q.toNat) Code.queue s
      (.ok (Effects.queue q.toNat (deliverExt e.ty (vlastVal a p s e)) 0) s)))

-- ## Compares (R370, R371)

def vopVcmp (d a b : Reg) (p : BitVec 3) (f : BitVec 2) (c : BitVec 4) (s : State) (e : VEntry) : Res Effects :=
  need (aligned e a && alignedB e b f) Code.illegal s
    (need (tyIsInt e.ty) Code.etype s
      (let n := 8 * e.w
       endPred s e d p 0 fun i =>
         let x := s.elem a.toNat e.w i
         let y := operandB s e b f i
         condHolds c (x == y) (decide (toSigned n x < toSigned n y)) (decide (x < y))))

/-- The flags of a vector floating compare: those of its active elements, up to where a pre-emption stops it. -/
def activeFlags (s : State) (e : VEntry) (p : BitVec 3) (f : Nat → FFlags) : FFlags :=
  ((stripFrom s e).filter fun i => !e.stopped i).foldl (fun a i => if s.pbit p.toNat i then a ||| f i else a) 0

def vopVfcmp (d a b : Reg) (p : BitVec 3) (f : BitVec 2) (c : BitVec 4) (s : State) (e : VEntry) : Res Effects :=
  need (aligned e a && alignedB e b f) Code.illegal s
    (need (isArithFp e.ty) Code.etype s
      (let cmp (i : Nat) := ((tyFmt e.ty).getD .f64).compare c (s.elem a.toNat e.w i) (operandB s e b f i)
       endPred s e d p (activeFlags s e p fun i => (cmp i).2) fun i => (cmp i).1))

-- ## Permutes (R372, R392)

/-- VSLUP: active elements below k keep their bytes, whatever MPOL holds. -/
def vopVslup (d a b : Reg) (p : BitVec 3) (f : BitVec 2) (s : State) (e : VEntry) : Res Effects :=
  need (aligned e d && aligned e a) Code.illegal s
    (whole s (elementwise s e d p e.w fun i =>
      (if indexB e b f ≤ i then s.elem a.toNat e.w (i - indexB e b f) else s.elem d.toNat e.w i, 0)))

def vopVsldn (d a b : Reg) (p : BitVec 3) (f : BitVec 2) (s : State) (e : VEntry) : Res Effects :=
  need (aligned e d && aligned e a) Code.illegal s
    (whole s (elementwise s e d p e.w fun i =>
      (if i + indexB e b f < e.vl then s.elem a.toNat e.w (i + indexB e b f) else 0, 0)))

def vopVperm (d a b : Reg) (p : BitVec 3) (s : State) (e : VEntry) : Res Effects :=
  need (aligned e d && aligned e a && aligned e b) Code.illegal s
    (whole s (elementwise s e d p e.w fun i =>
      let j := s.elem b.toNat e.w i
      (if j < e.vl then s.elem a.toNat e.w j else 0, 0)))

/-- VCOMPR: elements 0 to j−1 are active, the others below VL inactive. -/
def vopVcompr (d a : Reg) (p : BitVec 3) (s : State) (e : VEntry) : Res Effects :=
  need (aligned e d && aligned e a) Code.illegal s
    (whole s
      (if e.vl = 0 then .ok Effects.none s
       else
        let out := (List.range e.vl).filter fun i => s.pbit p.toNat i
        let (s1, _) := writeActive s e d.toNat e.w (fun i => decide (i < out.length)) (fun i => (s.elem a.toNat e.w (out.getD i 0), 0)) s
        .ok Effects.none (writeTail s1 e.vcfg e.vl d.toNat e.w e.g)))

/-- VMERGE: P selects and does not govern, so every element below VL is active. -/
def vopVmerge (d a b : Reg) (p : BitVec 3) (f : BitVec 2) (s : State) (e : VEntry) : Res Effects :=
  need (aligned e d && aligned e a && alignedB e b f) Code.illegal s
    (whole s (elementwise s e d 0 e.w fun i =>
      (if s.pbit p.toNat i then (if f == 2 then immValue e.ty b else operandB s e b f i) else s.elem a.toNat e.w i, 0)))

-- ## Predicates (R116, R349, R350)

/-- A predicate-to-predicate instruction. -/
def vpred (d : Reg) (p : BitVec 3) (f : Nat → Bool) (s : State) (e : VEntry) : Res Effects :=
  whole s (.ok Effects.none (writePred s e d p f))

def vopPand (d a b : Reg) (p : BitVec 3) (s : State) (e : VEntry) : Res Effects :=
  vpred d p (fun i => s.pbit a.toNat i && s.pbit b.toNat i) s e
def vopPor (d a b : Reg) (p : BitVec 3) (s : State) (e : VEntry) : Res Effects :=
  vpred d p (fun i => s.pbit a.toNat i || s.pbit b.toNat i) s e
def vopPxor (d a b : Reg) (p : BitVec 3) (s : State) (e : VEntry) : Res Effects :=
  vpred d p (fun i => s.pbit a.toNat i != s.pbit b.toNat i) s e
def vopPnot (d a : Reg) (p : BitVec 3) (s : State) (e : VEntry) : Res Effects := vpred d p (fun i => !s.pbit a.toNat i) s e
def vopPset (d : Reg) (p : BitVec 3) (s : State) (e : VEntry) : Res Effects := vpred d p (fun i => decide (i < e.xb.toNat)) s e

/-- The lowest element active in pg and set in pa. -/
def firstSet (s : State) (e : VEntry) (a : Reg) (p : BitVec 3) : Option Nat :=
  (List.range e.vl).find? fun i => s.pbit p.toNat i && s.pbit a.toNat i

def vopPfirst (d a : Reg) (p : BitVec 3) (s : State) (e : VEntry) : Res Effects :=
  vpred d p (fun i => firstSet s e a p == some i) s e
/-- Active elements before the first break (R116). -/
def vopPbrkBefore (d a : Reg) (p : BitVec 3) (s : State) (e : VEntry) : Res Effects :=
  vpred d p (fun i => match firstSet s e a p with | some f => decide (i < f) | none => true) s e
/-- Active elements up to and including the first break (R116). -/
def vopPbrkThru (d a : Reg) (p : BitVec 3) (s : State) (e : VEntry) : Res Effects :=
  vpred d p (fun i => match firstSet s e a p with | some f => decide (i ≤ f) | none => true) s e

def countSet (s : State) (e : VEntry) (a : Reg) (p : BitVec 3) : Nat :=
  ((List.range e.vl).filter fun i => s.pbit p.toNat i && s.pbit a.toNat i).length

def vopPcnt (d a : Reg) (p : BitVec 3) (s : State) (e : VEntry) : Res Effects :=
  need (aligned e d) Code.illegal s
    (whole s (need (tyIsInt e.ty) Code.etype s (.ok Effects.none (writeFirst s e d (countSet s e a p)))))
def vopPcntQ (q a : Reg) (p : BitVec 3) (s : State) (e : VEntry) : Res Effects :=
  whole s (need (4 ≤ q.toNat) Code.queue s (.ok (Effects.queue q.toNat (BitVec.ofNat 64 (countSet s e a p)) 0) s))

-- ## Reductions (R140 to R144, R395)

/-- Pairs of neighbouring nodes of a tree level; none is a padding node, which takes no part. comb gets the heap number of the node. -/
def pairUp (comb : Nat → Nat → Nat → Nat × FFlags) : List (Option Nat) → Nat → FFlags → List (Option Nat) × FFlags
  | a :: b :: r, k, fl =>
    let (x, f) := match a, b with
      | some u, some v => let (z, f) := comb k u v; (some z, f)
      | some u, none => (some u, 0)
      | none, some v => (some v, 0)
      | none, none => (none, 0)
    let (xs, f2) := pairUp comb r (k + 1) (fl ||| f)
    (x :: xs, f2)
  | [a], _, fl => ([a], fl)
  | [], _, fl => ([], fl)

/-- The pairwise tree over 2^n leaves: n levels, the nodes of the level with m nodes numbered from m (R140, R251). -/
def treeUp (comb : Nat → Nat → Nat → Nat × FFlags) : Nat → List (Option Nat) → FFlags → Option Nat × FFlags
  | 0, l, fl => (l.headD none, fl)
  | n + 1, l, fl => let (l1, f1) := pairUp comb l (2 ^ n) fl; treeUp comb n l1 f1

/-- The number of levels of a tree over m leaves: ceil(log2 m). -/
def levels (m : Nat) : Nat := if m ≤ 1 then 0 else (m - 1).log2 + 1

/-- Leaf i of VRSUM: element i when it is active. -/
def leaves (s : State) (e : VEntry) (a : Reg) (p : BitVec 3) (n : Nat) : List (Option Nat) :=
  (List.range (2 ^ n)).map fun i => if i < e.vl ∧ s.pbit p.toNat i then some (s.elem a.toNat e.w i) else none

/-- Sum of two values of a type: wrapping, or rounded once. -/
def sumOf (s : State) (e : VEntry) (rm : BitVec 3) (k u v : Nat) : Nat × FFlags :=
  match tyFmt e.ty with
  | some f => f.binop 0 (e.rc s rm k) u v
  | none => ((u + v) % 2 ^ (8 * e.w), 0)

def redInit (e : VEntry) : Nat := e.xb.toNat % 2 ^ (8 * e.w)

/-- The active values in element order. -/
def activeVals (s : State) (e : VEntry) (a : Reg) (p : BitVec 3) : List (Nat × Nat) :=
  ((List.range e.vl).filter fun i => s.pbit p.toNat i).map fun i => (i, s.elem a.toNat e.w i)

/-- VRSUM (R140): round(init + root), or init unchanged when no element is active (R142). -/
def redSum (s : State) (e : VEntry) (a : Reg) (p rm : BitVec 3) : Nat × FFlags :=
  match treeUp (fun k u v => sumOf s e rm k u v) (levels e.vl) (leaves s e a p (levels e.vl)) 0 with
  | (none, fl) => (redInit e, fl)
  | (some r, fl) => let (z, f) := sumOf s e rm 0 (redInit e) r; (z, fl ||| f)

/-- VROSUM (R141). -/
def redOsum (s : State) (e : VEntry) (a : Reg) (p rm : BitVec 3) : Nat × FFlags :=
  (activeVals s e a p).foldl (fun acc iv => let (z, f) := sumOf s e rm iv.1 acc.1 iv.2; (z, acc.2 ||| f)) (redInit e, 0)

/-- VRMAX and VRMIN (R143). -/
def redMinmax (s : State) (e : VEntry) (a : Reg) (p : BitVec 3) (isMax : Bool) : Nat × FFlags :=
  (activeVals s e a p).foldl (fun acc iv =>
    match tyFmt e.ty with
    | some f => let (z, fl) := f.minmax isMax acc.1 iv.2; (z, acc.2 ||| fl)
    | none => (if isMax then vMax e.ty 0 acc.1 iv.2 else vMin e.ty 0 acc.1 iv.2, 0)) (redInit e, 0)

/-- VRLOG (R395). -/
def redLog (s : State) (e : VEntry) (a : Reg) (p : BitVec 3) (k : BitVec 2) : Nat × FFlags :=
  ((activeVals s e a p).foldl (fun acc iv =>
    match k.toNat with
    | 0 => acc &&& iv.2
    | 1 => acc ||| iv.2
    | _ => acc ^^^ iv.2) (redInit e), 0)

/-- The rounding of VRSUM and VROSUM: dynamic under a floating type, none needed otherwise (R394). -/
def redRound (e : VEntry) : Option (BitVec 3) := if tyIsInt e.ty then some 0 else roundingOf 7 e.frm

/-- The plain form of a reduction: into vd[0]. types: which types are accepted; rounds: it is a sum. -/
def reduce (d a : Reg) (anyType rounds : Bool) (f : BitVec 3 → Nat × FFlags) (s : State) (e : VEntry) : Res Effects :=
  need (aligned e d && aligned e a) Code.illegal s
    (whole s
      (match (if rounds then redRound e else some 0) with
       | none => vtrap Code.illegal s
       | some rm =>
         need (anyType || tyIsInt e.ty || isArithFp e.ty) Code.etype s
           (let (v, fl) := f rm; .ok (Effects.flags fl) (writeFirst s e d v))))

/-- The .q form of a reduction. -/
def reduceQ (q a : Reg) (anyType rounds : Bool) (f : BitVec 3 → Nat × FFlags) (s : State) (e : VEntry) : Res Effects :=
  need (aligned e a) Code.illegal s
    (whole s
      (match (if rounds then redRound e else some 0) with
       | none => vtrap Code.illegal s
       | some rm =>
         need (anyType || tyIsInt e.ty || isArithFp e.ty) Code.etype s
           (need (4 ≤ q.toNat) Code.queue s
             (let (v, fl) := f rm; .ok (Effects.queue q.toNat (deliverExt e.ty v) fl) s))))

def vopVrsum (d a : Reg) (p : BitVec 3) (s : State) (e : VEntry) : Res Effects := reduce d a false true (fun rm => redSum s e a p rm) s e
def vopVrosum (d a : Reg) (p : BitVec 3) (s : State) (e : VEntry) : Res Effects := reduce d a false true (fun rm => redOsum s e a p rm) s e
def vopVrmax (d a : Reg) (p : BitVec 3) (s : State) (e : VEntry) : Res Effects := reduce d a false false (fun _ => redMinmax s e a p true) s e
def vopVrmin (d a : Reg) (p : BitVec 3) (s : State) (e : VEntry) : Res Effects := reduce d a false false (fun _ => redMinmax s e a p false) s e
def vopVrlog (d a : Reg) (p : BitVec 3) (k : BitVec 2) (s : State) (e : VEntry) : Res Effects := reduce d a true false (fun _ => redLog s e a p k) s e
def vopVrsumQ (q a : Reg) (p : BitVec 3) (s : State) (e : VEntry) : Res Effects := reduceQ q a false true (fun rm => redSum s e a p rm) s e
def vopVrosumQ (q a : Reg) (p : BitVec 3) (s : State) (e : VEntry) : Res Effects := reduceQ q a false true (fun rm => redOsum s e a p rm) s e
def vopVrmaxQ (q a : Reg) (p : BitVec 3) (s : State) (e : VEntry) : Res Effects := reduceQ q a false false (fun _ => redMinmax s e a p true) s e
def vopVrminQ (q a : Reg) (p : BitVec 3) (s : State) (e : VEntry) : Res Effects := reduceQ q a false false (fun _ => redMinmax s e a p false) s e
def vopVrlogQ (q a : Reg) (p : BitVec 3) (k : BitVec 2) (s : State) (e : VEntry) : Res Effects := reduceQ q a true false (fun _ => redLog s e a p k) s e

-- ## QPOP of q0 to q3 (R74)

/-- Removes the head of a queue and writes it to every element from VSTART to VL−1; the pop takes place even when VL = 0. -/
def vopQpopVector (d q : Reg) (s : State) (e : VEntry) : Res Effects :=
  need (aligned e d) Code.illegal s
    (match s.ct.vec.queues.toList.getD q.toNat [] with
     | [] => .wait .queue s
     | v :: r =>
       let s1 := s.onVec fun x => { x with queues := x.queues.setIfInBounds q.toNat r }
       elementwise s1 e d 0 e.w fun _ => (v.toNat % 2 ^ (8 * e.w), 0))

-- ## VCFG (R61, R368)

/-- The part of VCFG that takes effect in VIQ order: VSTART := 0 and pdone clear, which completion gives. -/
def vopVcfg (s : State) (e : VEntry) : Res Effects := let _ := e; .ok Effects.none s

def vcfgOf (e : BitVec 4) (g t : BitVec 2) (m : BitVec 1) (sc : BitVec 3) : Vcfg := ⟨e, g, t, m, sc⟩

/-- VL := min(x[A], VLMAX), x[D] := VL and VCFG := the fields, at dispatch (R61). -/
def setVcfg (s : State) (d a : Reg) (c : Vcfg) : State :=
  let vl := min (s.getX a).toNat (vlmax s.L c)
  (s.setX d (BitVec.ofNat 64 vl)).onVec fun x => { x with vcfg := c, vl := vl }

end Sys2Proof.Machine
end

