-- ==== Sys2Proof/Machine/VFp.lean ====
section
/-!
DEFINITION. Vector floating point (R376 to R381).
-/

namespace Sys2Proof.Machine

def VEntry.fmt (e : VEntry) : FFmt := (tyFmt e.ty).getD .f64

/-- A rounding element-wise function on groups a and b: ILLEGAL for FRM 6 or 7 and for a misaligned group, ETYPE for a type other than bf16,
fp16, fp32 and fp64 (R377). -/
def vfround (d a b : Reg) (p : BitVec 3) (fm : BitVec 2) (r : BitVec 3) (f : FFmt → Rc → Nat → Nat → Nat × FFlags) (s : State) (e : VEntry) :
    Res Effects :=
  match e.round r with
  | none => vtrap Code.illegal s
  | some rm =>
    need (aligned e d && aligned e a && alignedB e b fm) Code.illegal s
      (need (isArithFp e.ty) Code.etype s
        (elementwise s e d p e.w fun i => f e.fmt (e.rc s rm i) (s.elem a.toNat e.w i) (operandB s e b fm i)))

/-- A function that rounds nothing. -/
def vfexact (d a b : Reg) (p : BitVec 3) (fm : BitVec 2) (f : FFmt → Nat → Nat → Nat × FFlags) (s : State) (e : VEntry) : Res Effects :=
  need (aligned e d && aligned e a && alignedB e b fm) Code.illegal s
    (need (isArithFp e.ty) Code.etype s
      (elementwise s e d p e.w fun i => f e.fmt (s.elem a.toNat e.w i) (operandB s e b fm i)))

def vopVfadd (d a b : Reg) (p : BitVec 3) (f : BitVec 2) (r : BitVec 3) (s : State) (e : VEntry) : Res Effects :=
  vfround d a b p f r (fun f rc x y => f.binop 0 rc x y) s e
def vopVfsub (d a b : Reg) (p : BitVec 3) (f : BitVec 2) (r : BitVec 3) (s : State) (e : VEntry) : Res Effects :=
  vfround d a b p f r (fun f rc x y => f.binop 1 rc x y) s e
def vopVfmul (d a b : Reg) (p : BitVec 3) (f : BitVec 2) (r : BitVec 3) (s : State) (e : VEntry) : Res Effects :=
  vfround d a b p f r (fun f rc x y => f.binop 2 rc x y) s e
def vopVfdiv (d a b : Reg) (p : BitVec 3) (f : BitVec 2) (r : BitVec 3) (s : State) (e : VEntry) : Res Effects :=
  vfround d a b p f r (fun f rc x y => f.binop 3 rc x y) s e
def vopVfmin (d a b : Reg) (p : BitVec 3) (f : BitVec 2) (s : State) (e : VEntry) : Res Effects :=
  vfexact d a b p f (fun f x y => f.minmax false x y) s e
def vopVfmax (d a b : Reg) (p : BitVec 3) (f : BitVec 2) (s : State) (e : VEntry) : Res Effects :=
  vfexact d a b p f (fun f x y => f.minmax true x y) s e
/-- va[i]·2^n, n being b's bits as a signed integer of the element width. -/
def vopVfscale (d a b : Reg) (p : BitVec 3) (f : BitVec 2) (r : BitVec 3) (s : State) (e : VEntry) : Res Effects :=
  vfround d a b p f r (fun f rc x y => f.deliver rc ((f.read x).scale (toSigned f.width y))) s e
def vopVfsqrt (d a : Reg) (p r : BitVec 3) (s : State) (e : VEntry) : Res Effects :=
  vfround d a a p 0 r (fun f rc x _ => f.sqrt rc x) s e
def vopVfrsqe (d a : Reg) (p : BitVec 3) (s : State) (e : VEntry) : Res Effects := vfexact d a a p 0 (fun f x _ => f.rsqe x) s e
def vopVfclass (d a : Reg) (p : BitVec 3) (s : State) (e : VEntry) : Res Effects := vfexact d a a p 0 (fun f x _ => (f.classify x, 0)) s e

def vopVfma (d a b c : Reg) (p r : BitVec 3) (s : State) (e : VEntry) : Res Effects :=
  match e.round r with
  | none => vtrap Code.illegal s
  | some rm =>
    need (aligned e d && aligned e a && aligned e b && aligned e c) Code.illegal s
      (need (isArithFp e.ty) Code.etype s
        (elementwise s e d p e.w fun i =>
          e.fmt.fma (e.rc s rm i) (s.elem a.toNat e.w i) (s.elem b.toNat e.w i) (s.elem c.toNat e.w i)))

/-- VFSPLIT writes the significands into vd and the exponents into vd + GRP, under one predicate and one policy (R378). -/
def vopVfsplit (d a : Reg) (p : BitVec 3) (s : State) (e : VEntry) : Res Effects :=
  need (aligned e d && aligned e a && decide (d.toNat + 2 * e.g ≤ 32)) Code.illegal s
    (need (isArithFp e.ty) Code.etype s
      (if e.vl ≤ s.ct.vec.vstart then .ok Effects.none s
       else
        let act := s.pbit p.toNat
        let sp (i : Nat) := e.fmt.split (s.elem a.toNat e.w i)
        let (s1, fl) := writeActive s e d.toNat e.w act (fun i => ((sp i).1, (sp i).2.2)) s
        let (s2, _) := writeActive s e (d.toNat + e.g) e.w act (fun i => ((sp i).2.1, 0)) s1
        endStrip s e fl (fun s2 => writeTail (writeTail s2 e.vcfg e.vl d.toNat e.w e.g) e.vcfg e.vl (d.toNat + e.g) e.w e.g) s2))

/-- The register checks of VFCVT (R380): va a multiple of GRP, the source group within v31, and an overlap with the destination only where
va = vd and the widths are equal. -/
def cvtOk (s : State) (e : VEntry) (d a : Reg) (ws : Nat) : Bool :=
  let n := ceilDiv (e.vl * ws) s.L
  let overlap := decide (a.toNat < d.toNat + e.g) && decide (d.toNat < a.toNat + n)
  aligned e d && aligned e a && decide (a.toNat + n ≤ 32) && (!overlap || (a == d && ws == e.w))

def vopVfcvt (d a : Reg) (t : BitVec 5) (p r : BitVec 3) (s : State) (e : VEntry) : Res Effects :=
  match e.round r with
  | none => vtrap Code.illegal s
  | some rm =>
    let ws := tyBytes t.toNat
    need (!(tyIsInt t.toNat && tyIsInt e.ty) && cvtOk s e d a ws) Code.illegal s
      (elementwise s e d p e.w fun i => convert (e.rc s rm i) t.toNat e.ty (s.elem a.toNat ws i))

end Sys2Proof.Machine
end

