-- ==== Sys2Proof/Machine/VDep.lean ====
section
/-!
DEFINITION. Dependences and partitioning: VDEP, VDEPX and VPART (R108 to R111).
-/

namespace Sys2Proof.Machine

/-- NONE: all ones at the element width (R109). -/
def noneOf (e : VEntry) : Nat := 2 ^ (8 * e.w) - 1

/-- The nearest earlier active element j < i whose key in group b equals element i's key in group a (R109, R110). -/
def nearest (s : State) (e : VEntry) (a b : Reg) (p : BitVec 3) (i : Nat) : Nat :=
  let k := s.elem a.toNat e.w i
  match (List.range i).reverse.find? fun j => s.pbit p.toNat j && s.elem b.toNat e.w j == k with
  | some j => j
  | none => noneOf e

/-- VDEPX; VDEP is the case of equal key groups (R110). The ETYPE check limits VL to what an element can index (R109). -/
def depend (d a b : Reg) (p : BitVec 3) (s : State) (e : VEntry) : Res Effects :=
  need (aligned e d && aligned e a && aligned e b) Code.illegal s
    (whole s (need (decide (e.vl ≤ noneOf e)) Code.etype s (elementwise s e d p e.w fun i => (nearest s e a b p i, 0))))

def vopVdep (d a : Reg) (p : BitVec 3) (s : State) (e : VEntry) : Res Effects := depend d a a p s e
def vopVdepx (d a b : Reg) (p : BitVec 3) (s : State) (e : VEntry) : Res Effects := depend d a b p s e

/-- The bounds s and stop of the run that VPART finds (R111). -/
def runOf (s : State) (e : VEntry) (a b : Reg) : Nat × Nat :=
  let ps (i : Nat) := s.pbit b.toNat i
  let st := ((List.range e.vl).find? ps).getD e.vl
  let stop := (List.range e.vl).find? fun i =>
    let d := s.elem a.toNat e.w i
    decide (st < i) && ps i && decide (st ≤ d) && decide (d < i) && ps d
  (st, stop.getD e.vl)

/-- VPART (R111): every bit of pd below VL is a result. -/
def vopVpart (d a b : Reg) (s : State) (e : VEntry) : Res Effects :=
  need (aligned e a) Code.illegal s
    (whole s
      (let (st, stop) := runOf s e a b
       .ok Effects.none (if e.vl = 0 then s else
         s.setPred d.toNat (predOf e.vl fun i => s.pbit b.toNat i && decide (st ≤ i) && decide (i < stop)))))

end Sys2Proof.Machine
end

