-- ==== Sys2Proof/Machine/VMem.lean ====
section
/-!
DEFINITION. Vector memory: loads, stores, segments, first-fault loads and prefetch (R113, R114, R125, R128, R183, R383 to R390), and
VAMO (R249 to R251, R255, R366, R367), with the fault records of Table 11.8.
-/

namespace Sys2Proof.Machine

/-- The address forms of Table 19.3. -/
inductive VForm where
  | unit
  | strided
  | indexed
  | seg (n : Nat)
  deriving DecidableEq, Repr

/-- One access of the family: its form, memory format, and the index group of an indexed form. -/
structure VAcc where
  form : VForm
  mf : BitVec 5
  b : Reg
  deriving DecidableEq, Repr

namespace VAcc

/-- Fields of a record. -/
def fields (o : VAcc) : Nat :=
  match o.form with
  | .seg n => n
  | _ => 1

/-- Bits of one element in memory. -/
def bits (o : VAcc) (e : VEntry) : Nat :=
  if mfPacked o.mf ≠ 0 then mfPacked o.mf else if mfIsScale o.mf then 8 else tyBits (mfType o.mf e.ty)

/-- Bytes of one access. -/
def bytes (o : VAcc) (e : VEntry) : Nat := max 1 (o.bits e / 8)

/-- The base with the nest offset (R385, R347). -/
def base (_o : VAcc) (e : VEntry) : Word := e.xa + e.off

/-- Where field f of element i lies: its byte address and the bit it begins at (Table 19.3). -/
def place (o : VAcc) (s : State) (e : VEntry) (i f : Nat) : Word × Nat :=
  match o.form with
  | .indexed => (o.base e + BitVec.ofNat 64 (s.elem o.b.toNat e.w i), 0)
  | .strided => (o.base e + BitVec.ofNat 64 (if mfIsScale o.mf then i / 32 else i) * e.xb, 0)
  | _ =>
    if mfIsScale o.mf then (o.base e + BitVec.ofNat 64 (i / 32), 0)
    else
      let at_ := (i * o.fields + f) * o.bits e
      (o.base e + BitVec.ofNat 64 (at_ / 8), at_ % 8)

/-- SFSTRIDE (Table 11.8). -/
def stride (o : VAcc) (e : VEntry) : Word :=
  match o.form with
  | .indexed => 0
  | .strided => e.xb
  | _ => if mfIsScale o.mf || mfPacked o.mf != 0 then 1 else BitVec.ofNat 64 (o.fields * o.bytes e)

/-- SFREM at field f of element i, for the ordered forms (Table 11.8). -/
def remaining (o : VAcc) (s : State) (e : VEntry) (p : BitVec 3) (i f : Nat) : Nat :=
  let act := (List.range e.vl).filter fun j => decide (i ≤ j) && s.pbit p.toNat j
  if mfIsScale o.mf then (act.map fun j => (o.place s e j 0).1).eraseDups.length
  else if mfPacked o.mf ≠ 0 ∧ o.form ≠ .strided then
    ceilDiv (e.vl * o.fields * o.bits e) 8 - (i * o.fields + f) * o.bits e / 8
  else act.length

/-- SFWIDTH (Table 11.8). -/
def width (o : VAcc) (e : VEntry) : Word := BitVec.ofNat 64 (8 * o.bytes e + 256 * o.fields)

/-- The record of an ordered form at field f of element i. -/
def ordered (o : VAcc) (s : State) (e : VEntry) (p : BitVec 3) (i f : Nat) (t : Trap) : Trap :=
  { t with vec := true, sfelem := BitVec.ofNat 64 i, sfstride := o.stride e, sfrem := BitVec.ofNat 64 (o.remaining s e p i f),
           sfwidth := o.width e }

end VAcc

-- ## One element

/-- From a memory format to an element type (R139): the element's bits and flags. -/
def codeValue (m : BitVec 5) (ty raw : Nat) : Nat × FFlags :=
  if mfPacked m ≠ 0 then convert Rc.rne 0 ty (wrapN 8 (toSigned (mfPacked m) raw))
  else if mfIsScale m then ((tyFmt ty).getD .f32).deliver Rc.rne (scaleVal (m == 0x13) raw)
  else if mfType m ty = ty then (raw, 0)
  else convert Rc.rne (mfType m ty) ty raw

/-- From the memory format to VCFG.ETYPE. -/
def memToElem (o : VAcc) (e : VEntry) (raw : Nat) : Nat × FFlags := codeValue o.mf e.ty raw

/-- An integer code of n bits from an element: saturated, with NV where a floating value does not fit (R136, R138). -/
def packCode (n : Nat) (e : VEntry) (v : Nat) : Nat × FFlags :=
  let (w, fl) := convert Rc.rne e.ty 3 v
  let i := toSigned 64 w
  let lo : Int := -(2 ^ (n - 1) : Nat)
  let hi : Int := (2 ^ (n - 1) : Nat) - 1
  if tyIsInt e.ty then (wrapN n (max lo (min hi (tyInt e.ty v))), 0)
  else if i < lo ∨ hi < i then (wrapN n (max lo (min hi i)), FFlags.nv)
  else (wrapN n i, fl)

/-- From VCFG.ETYPE to the memory format (R139). -/
def elemToMem (o : VAcc) (e : VEntry) (v : Nat) : Nat × FFlags :=
  if mfPacked o.mf ≠ 0 then packCode (mfPacked o.mf) e v
  else if mfType o.mf e.ty = e.ty then (v, 0)
  else convert Rc.rne e.ty (mfType o.mf e.ty) v

/-- Makes field f of element i ready: its place. -/
def readyElem (o : VAcc) (kind : BitVec 2) (s0 : State) (e : VEntry) (i f : Nat) (s : State) : Res Place :=
  resolveAligned s.ctx { kind := kind } (o.place s0 e i f).1 (o.bytes e) s

/-- A vector access of the acting control thread may perform later than its entry executes (R200, R208, log entry 125): not in Bronze mode (R224). -/
def State.vecLate (s : State) (e : VEntry) : Bool := s.defers && !e.bronze

-- ## How a late access lands

/-- Flags of an element that lands go to what its instruction still owes: they are delivered as it completes (R80, R385). -/
def oweFlags (op : Nat) (fl : FFlags) (s : State) : State :=
  let add (ef : Effects) : Effects := if ef.mem.any (·.1 == op) then { ef with fflags := ef.fflags ||| fl } else ef
  s.onVec fun v => { v with owing := v.owing.map add, viq := v.viq.map fun e => { e with done := e.done.map add } }

/-- A codebook from its 32 bytes (R342). -/
def setBook (c : Nat) (bs : List Byte) (s : State) : State := s.onMx fun m => { m with books := m.books.setIfInBounds c (BitVec.ofNat 256 (leNat bs)) }

/-- What a late access got goes where its instruction writes it, with its flags. -/
def landValue (l : Late) (got : List Byte × FFlags) (s : State) : State :=
  match l.dest with
  | .none => if l.vec then s else s.orFlags got.2
  | .ld r m => s.setX r (scalarExtend m (leNat got.1))
  | .amo r w => (s.orFlags got.2).setX r (amoExtend w (leNat got.1))
  | .elem reg w i m ety sh bits =>
    let x := codeValue m ety (natBits (leNat got.1) sh bits)
    (oweFlags l.seq x.2 s).setElem reg w i x.1
  | .book c => setBook c got.1 s

/-- The late accesses that a test names, which looks at nothing that performing changes, perform and land. -/
def landWhere (f : Late → Bool) (s : State) : State :=
  if s.m.late.isEmpty then s
  else
    let s1 := performWhere f s
    let out (l : Late) : Bool := l.got.isSome && f l
    (s1.m.late.filter out).foldl (fun s l => s.asThread l.lcore l.ctno fun s => landValue l (l.got.getD ([], 0)) s)
      (s1.onMem fun m => { m with late := m.late.filter fun l => !out l })

/-- Every late access lands. -/
def landAll (s : State) : State := landWhere (fun _ => true) s

-- ## The open accesses of an instruction

/-- What an instruction that has executed has open performs at its scope, and lands. -/
def forceOpen (s : State) (ef : Effects) : State :=
  match ef.mem with
  | some (op, sc) =>
    landWhere (fun l => s.lateOf op l && l.dest != .none)
      (performLateAt sc (fun l => s.lateOf op l && l.dest == .none) (performAt sc (s.storeOf op) s))
  | none => s

/-- Gone from the list of what is owed, an instruction completes (R80). -/
def payOwing (s : State) (ef : Effects) : State := payEffects (s.onVec fun x => { x with owing := x.owing.erase ef }) ef

/-- What an instruction owes, as it stands now: flags of its elements may have landed since. -/
def owedNow (s : State) (ef : Effects) : Effects := (s.ct.vec.owing.find? fun o => o.mem == ef.mem).getD ef

/-- The oldest instruction that can complete does so; else the oldest that has accesses open has them performed, and completes where the host need not
answer. None where nothing is owed, or all of it waits for the host (R201). -/
def owingStep (s : State) : Option State :=
  match s.ct.vec.owing.find? fun ef => !staysOpen s ef with
  | some ef => some (payOwing s ef)
  | none =>
    match s.ct.vec.owing.find? (memOpen s) with
    | some ef =>
      let s1 := forceOpen s ef
      some (if staysOpen s1 ef then s1 else payOwing s1 (owedNow s1 ef))
    | none => none

/-- Everything owed completes; the host's answers are not waited for: the context keeps none of it (R201). -/
def payAll (s : State) : State := s.ct.vec.owing.foldl (fun s ef => let s1 := forceOpen s ef; payOwing s1 (owedNow s1 ef)) s

/-- A stopped instruction leaves nothing open: the flags of what lands now are among those that it owes (R83, R131). -/
def settleStop (op : Nat) (t : Trap) (s : State) : Trap × State :=
  let mine := s.m.late.filter (s.lateOf op)
  if mine.isEmpty then (t, s)
  else
    let s1 := performWhere (s.lateOf op) s
    let fl := (s1.m.late.filter (s.lateOf op)).foldl (fun (a : FFlags) l =>
      match l.dest with
      | .elem _ _ _ m ety sh bits => a ||| (codeValue m ety (natBits (leNat (l.got.getD ([], 0)).1) sh bits)).2
      | _ => a) 0
    ({ t with owed := t.owed ||| fl }, landWhere (s.lateOf op) s1)

/-- What the acting thread's vector stream has stored to the lines of a load performs first (R210). -/
def ownVector (s : State) (p : Place) (n : Nat) : State :=
  drainWhere (fun b => s.mine b && b.vec && (nameLines s p.pa n).contains (nameLine s b.pa)) s

/-- The fields of an element from memory, in order, with their flags. d: the destination group of a load that may perform later; a field that does keeps
the element that it will replace. -/
def loadFields (o : VAcc) (d : Option Reg) (s0 : State) (e : VEntry) (p : BitVec 3) (i : Nat) (s : State) : Res (List Nat × FFlags) :=
  foldRes (fun (acc : List Nat × FFlags) f s =>
    ((readyElem o 1 s0 e i f s).mapTrap (o.ordered s0 e p i f)).andThen fun pl s =>
      let sh := (o.place s0 e i f).2
      match d.filter fun _ => s.vecLate e with
      | some d =>
        let r := d.toNat + f * e.g
        let s1 := ownVector s pl (o.bytes e)
        .ok (acc.1 ++ [s1.elem r e.w i], acc.2) (leaveLate s1 true pl (.load (o.bytes e)) (.elem r e.w i o.mf e.ty sh (o.bits e)))
      | none =>
        let (raw, s1) := loadNum s false pl (o.bytes e)
        let (v, fl) := memToElem o e (natBits raw sh (o.bits e))
        .ok (acc.1 ++ [v], acc.2 ||| fl) s1) (List.range o.fields) ([], 0) s

/-- Stores one code or value at field f: under a packed format only its own bits change (R125, R385). -/
def storeField (o : VAcc) (s0 : State) (e : VEntry) (i f : Nat) (p : Place) (raw : Nat) (s : State) : State :=
  let (va, sh) := o.place s0 e i f
  if o.bits e < 8 then plainBits s false p va (BitVec.ofNat 8 ((2 ^ o.bits e - 1) * 2 ^ sh)) [BitVec.ofNat 8 (raw * 2 ^ sh)]
  else plainStore s false p va (toBytes (o.bytes e) raw)

/-- Stores the fields of an element: every field is made ready first, so a record that faults stores nothing (R183 allows it to store the
bytes below the fault). -/
def storeFields (o : VAcc) (v : Reg) (s0 : State) (e : VEntry) (p : BitVec 3) (i : Nat) (s : State) : Res FFlags :=
  (foldRes (fun (acc : List Place) f s =>
    ((readyElem o 2 s0 e i f s).mapTrap (o.ordered s0 e p i f)).andThen fun pl s =>
      if fillFirst s pl.pa (o.bytes e) then .wait .event s else .ok (acc ++ [pl]) s) (List.range o.fields) [] s).andThen
    fun pls s =>
      let (fl, s1) := (List.range o.fields).foldl (fun (r : FFlags × State) f =>
        let (raw, g) := elemToMem o e (s0.elem (v.toNat + f * e.g) e.w i)
        (r.1 ||| g, storeField o s0 e i f (pls.getD f { pa := 0 }) raw r.2)) (0, s)
      .ok fl s1

/-- Writes the fields of an element into groups vd, vd + GRP, …. -/
def putFields (d : Reg) (e : VEntry) (i : Nat) (vs : List Nat) (s : State) : State :=
  vs.zipIdx.foldl (fun s x => s.setElem (d.toNat + x.2 * e.g) e.w i x.1) s

/-- An inactive element of a load under its mask policy. -/
def skipElem (o : VAcc) (d : Reg) (e : VEntry) (i : Nat) (s : State) : State :=
  if e.vcfg.mz then putFields d e i (List.replicate o.fields 0) s else s

/-- The tails of a load's field groups. -/
def tailFields (o : VAcc) (d : Reg) (e : VEntry) (s : State) : State :=
  (List.range o.fields).foldl (fun s f => writeTail s e.vcfg e.vl (d.toNat + f * e.g) e.w e.g) s

-- ## Ordered forms (R386)

/-- Faults that shorten a VLDFF (R113). -/
def shortens (c : BitVec 8) : Bool :=
  c == Code.align || c == Code.window || c == Code.pageAbsent || c == Code.pageProt || c == Code.poison

/-- Shortening a VLDFF counts (R278), and a refused translation is a dropped speculative one too (R236). -/
def countShort (s : State) (c : BitVec 8) : State :=
  let s1 := countEvent s (dieOf s.ct.lcore) 2
  if c == Code.pageAbsent || c == Code.pageProt then countEvent s1 (dieOf s.ct.lcore) 0 else s1

/-- A record of which a field faults has written no field (R183): the loads of its lower fields, left to perform late, are dropped. -/
def dropFields (i : Nat) (s : State) : State :=
  let lower (l : Late) : Bool := s.lateOf s.ct.ord.opSeq l && (match l.dest with
    | .elem _ _ k _ _ _ _ => k == i
    | _ => false)
  if s.m.late.isEmpty then s else s.onMem fun m => { m with late := m.late.filter fun l => !lower l }

/-- The elements of an ordered load from a list on. ff: the first active element of a VLDFF. atStop: what a stop at an element writes besides. The
answer is the flags, and the element at which a VLDFF shortens. -/
def loadLoop (o : VAcc) (d : Reg) (p : BitVec 3) (ff : Option Nat) (atStop : Nat → State → State) (s0 : State) (e : VEntry) :
    List Nat → FFlags → State → Res (FFlags × Option Nat)
  | [], fl, s => .ok (fl, none) s
  | i :: r, fl, s =>
    if e.stopped i then .trap (preemptStop fl) (atStop i (stopAt s i))
    else if s0.pbit p.toNat i then
      match loadFields o (some d) s0 e p i s with
      | .ok (vs, g) s1 => loadLoop o d p ff atStop s0 e r (fl ||| g) (putFields d e i vs s1)
      | .trap t s1 =>
        if ff.isSome && ff != some i && shortens t.code then .ok (fl, some i) (countShort s t.code)
        else .trap { t with owed := fl } (atStop i (stopAt (dropFields i s1) i))
      | .wait w _ => .wait w s0
      | .gone s1 => .gone s1
    else loadLoop o d p ff atStop s0 e r fl (skipElem o d e i s)

/-- The elements of an ordered store from a list on. -/
def storeLoop (o : VAcc) (v : Reg) (p : BitVec 3) (s0 : State) (e : VEntry) : List Nat → FFlags → State → Res FFlags
  | [], fl, s => .ok fl s
  | i :: r, fl, s =>
    if e.stopped i then .trap (preemptStop fl) (stopAt s i)
    else if s0.pbit p.toNat i then
      match storeFields o v s0 e p i s with
      | .ok g s1 => storeLoop o v p s0 e r (fl ||| g) s1
      | .trap t s1 => .trap { t with owed := fl } (stopAt s1 i)
      | .wait w _ => .wait w s0
      | .gone s1 => .gone s1
    else storeLoop o v p s0 e r fl s

/-- The checks of R48 and R128: the data groups, and a floating ETYPE for a scale format. -/
def memChecks {α : Type} (o : VAcc) (d : Reg) (s : State) (e : VEntry) (f : Res α) : Res α :=
  need (aligned e d && decide (d.toNat + o.fields * e.g ≤ 32)) Code.illegal s
    (need (!mfIsScale o.mf || isArithFp e.ty) Code.etype s f)

/-- An ordered load (R386): VLD, VLDS and VLDSEG. -/
def orderedLoad (o : VAcc) (d : Reg) (p : BitVec 3) (s : State) (e : VEntry) : Res Effects :=
  memChecks o d s e
    (if e.vl ≤ s.ct.vec.vstart then .ok Effects.none s
     else (loadLoop o d p none (fun _ s => s) s e (stripFrom s e) 0 s).andThen fun r s1 => .ok (Effects.flags r.1) (tailFields o d e s1))

/-- An ordered store: VST, VSTS and VSTSEG. -/
def orderedStore (o : VAcc) (v : Reg) (p : BitVec 3) (s : State) (e : VEntry) : Res Effects :=
  memChecks o v s e
    (if e.vl ≤ s.ct.vec.vstart then .ok Effects.none s
     else (storeLoop o v p s e (stripFrom s e) 0 s).andThen fun fl s1 => .ok (Effects.flags fl) s1)

-- ## Indexed forms (R387)

/-- The active elements that an indexed instruction still has to perform (R71). -/
def pendingElems (s : State) (e : VEntry) (p : BitVec 3) : List Nat :=
  (stripFrom s e).filter fun i => s.pbit p.toNat i && !s.ct.vec.pdone.getLsbD i

/-- The order in which elements perform (log entry 13): the elements that the schedule names first, then the others in element order; element
order in Bronze mode (Table 10.19). -/
def arrange (order : List Nat) (bronze : Bool) (c : List Nat) : List Nat :=
  if bronze then c else (order.filter c.contains).eraseDups ++ c.filter fun i => !order.contains i

/-- Why an indexed instruction stopped before its last element: the trap of an element, or a pre-emption. -/
inductive IStop where
  | none
  | cause (i : Nat) (t : Trap)
  | preempt

/-- Performs elements in order until one has a cause, or a pre-emption stops it: those done, and the flags. -/
def indexedLoop (perform : Nat → State → Res FFlags) (s0 : State) (e : VEntry) :
    List Nat → List Nat → FFlags → State → Res (List Nat × FFlags × IStop)
  | [], done, fl, s => .ok (done, fl, .none) s
  | i :: r, done, fl, s =>
    if e.stopped done.length then .ok (done, fl, .preempt) s
    else
      match perform i s with
      | .ok g s1 => indexedLoop perform s0 e r (i :: done) (fl ||| g) s1
      | .trap t s1 => .ok (done, fl, .cause i t) s1
      | .wait w _ => .wait w s0
      | .gone s1 => .gone s1

/-- The cause of an element, tried without effect. -/
def causeOf (perform : Nat → State → Res FFlags) (s : State) (i : Nat) : Option (Nat × Trap) :=
  match perform i s with
  | .trap t _ => some (i, t)
  | _ => none

/-- The lowest element with a cause, once element i has one: of those left below it, or itself (R387). -/
def lowestOf (perform : Nat → State → Res FFlags) (s : State) (left : List Nat) (i : Nat) (t : Trap) : Nat × Trap :=
  ((left.filter (· < i)).findSome? (causeOf perform s)).getD (i, t)

/-- VSTART at v, and pdone for the elements done above it (R71). -/
def markDone (s : State) (v : Nat) (done : List Nat) : State :=
  s.onVec fun x => { x with vstart := v, pdone := predOf 16384 fun i => decide (v < i) && (x.pdone.getLsbD i || done.contains i) }

/-- The stop of an indexed instruction (R387, R71): VSTART at v, pdone for the elements done above it, and the record at element f. -/
def stopIndexed (s : State) (e : VEntry) (p : BitVec 3) (v : Nat) (done : List Nat) (bits : Nat) (f : Nat) (t : Trap) (fl : FFlags) :
    Res Effects :=
  let s1 := markDone s v done
  let left := ((List.range e.vl).filter fun i => decide (v ≤ i) && s.pbit p.toNat i && !s1.ct.vec.pdone.getLsbD i).length
  .trap { t with vec := true, sfelem := BitVec.ofNat 64 f, sfstride := 0, sfrem := BitVec.ofNat 64 left,
                 sfwidth := BitVec.ofNat 64 (bits + 0x100), owed := fl } s1

/-- The common course of VLDX and VSTX: skip treats the inactive elements of a range, finish the tail. -/
def indexed (o : VAcc) (p : BitVec 3) (perform : Nat → State → Res FFlags) (skip : List Nat → State → State) (finish : State → State)
    (s : State) (e : VEntry) : Res Effects :=
  if e.vl ≤ s.ct.vec.vstart then .ok Effects.none s
  else
    let cands := pendingElems s e p
    (indexedLoop perform s e (arrange s.sched.order e.bronze cands) [] 0 s).andThen fun r s1 =>
      let left := cands.filter fun i => !r.1.contains i
      let v := left.headD s.ct.vec.vstart
      let below (s1 : State) := skip ((stripFrom s e).filter (· < v)) s1
      match r.2.2 with
      | .none => .ok (Effects.flags r.2.1) (finish (skip (stripFrom s e) s1))
      | .preempt => .trap (preemptStop r.2.1) (markDone (below s1) v r.1)
      | .cause i t0 =>
        let c := lowestOf perform s1 left i t0
        stopIndexed (below s1) e p v r.1 (8 * o.bytes e) c.1 c.2 r.2.1

/-- VLDX: a vd group that overlaps the index group traps ILLEGAL (R387). -/
def indexedLoad (o : VAcc) (d : Reg) (p : BitVec 3) (s : State) (e : VEntry) : Res Effects :=
  need (aligned e d && aligned e o.b && d != o.b) Code.illegal s
    (memChecks o d s e
      (let perform (i : Nat) (s1 : State) : Res FFlags :=
         (loadFields o (some d) s e p i s1).andThen fun r s2 => .ok r.2 (putFields d e i r.1 s2)
       let skip (l : List Nat) (s1 : State) := l.foldl (fun s1 i => if s.pbit p.toNat i then s1 else skipElem o d e i s1) s1
       indexed o p perform skip (tailFields o d e) s e))

/-- VSTX. -/
def indexedStore (o : VAcc) (v : Reg) (p : BitVec 3) (s : State) (e : VEntry) : Res Effects :=
  need (aligned e v && aligned e o.b) Code.illegal s
    (indexed o p (fun i s1 => storeFields o v s e p i s1) (fun _ s1 => s1) id s e)

-- ## The instructions

/-- The byte that the stores of a list leave at an address, where one of them writes it whole. -/
def storedByte (es : List BufStore) (pa : Nat) : Option Byte :=
  (es.reverse.find? fun b => b.mask == 0xFF && decide (b.pa ≤ pa) && decide (pa < b.pa + b.bytes.length)).map fun b => b.bytes.getD (pa - b.pa) 0

/-- The stores of one vector instruction that cover a poisoned line are one full-line write of it (R271). -/
def mergeLine (op : Nat) (s : State) (line : Nat) : State :=
  let es := s.m.sbuf.filter fun b => s.storeOf op b && lineOf b.pa == line
  match es.head?, (List.range 64).mapM fun k => storedByte es (line + k) with
  | some b, some bs => s.onMem fun m =>
    { m with sbuf := (m.sbuf.filter fun x => !es.contains x) ++ [{ b with pa := line, bytes := bs, mask := 0xFF, deps := (es.flatMap (·.deps)).eraseDups }] }
  | _, _ => s

/-- The stores of a vector instruction that has executed: those to poisoned lines, which waited for the others of their line, perform unless the schedule
leaves stores in flight; and what an instruction older than a FENCE that has not stalled holds in Bronze mode drains (R224, log entry 86). -/
def endStores (e : VEntry) (op : Nat) (s : State) : State :=
  let s1 := if s.m.poison.isEmpty then s else
    let s1 := s.m.poison.foldl (mergeLine op) s
    if s.sched.deferStores then s1 else drainWhere (s.storeOf op) s1
  if e.bronze && decide (e.ivl < s.ct.ord.fenceIvl) then drainWcb s1 else s1

/-- A vector memory instruction (R201, R202): it waits as the FENCEs before it ask, and its accesses and fill hold what those after it ask. It owes its
completion at its scope, at .s with the host's answer; one that stops leaves nothing open. -/
def memOp (f : State → VEntry → Res Effects) (s : State) (e : VEntry) : Res Effects :=
  match vecReady s e.ivl with
  | none => .wait .event s
  | some s1 =>
    let s2 := s1.onOrd fun o => { o with opSeq := o.opSeq + 1, vvNow := e.vv }
    let op := s2.ct.ord.opSeq
    match f s2 e with
    | .ok ef s3 => .ok { ef with host := e.vcfg.scope == 5, mem := some (op, e.vcfg.scope.toNat) } (endStores e op s3)
    | .trap t s3 =>
      let r := settleStop op t (endStores e op s3)
      .trap r.1 r.2
    | r => r

def vopVld (d : Reg) (p : BitVec 3) (m : BitVec 5) (s : State) (e : VEntry) : Res Effects := memOp (orderedLoad ⟨.unit, m, 0⟩ d p) s e
def vopVlds (d : Reg) (p : BitVec 3) (m : BitVec 5) (s : State) (e : VEntry) : Res Effects := memOp (orderedLoad ⟨.strided, m, 0⟩ d p) s e
def vopVldx (d b : Reg) (p : BitVec 3) (m : BitVec 5) (s : State) (e : VEntry) : Res Effects := memOp (indexedLoad ⟨.indexed, m, b⟩ d p) s e
def vopVldseg (d n : Reg) (p : BitVec 3) (m : BitVec 5) (s : State) (e : VEntry) : Res Effects := memOp (orderedLoad ⟨.seg n.toNat, m, 0⟩ d p) s e
def vopVst (v : Reg) (p : BitVec 3) (m : BitVec 5) (s : State) (e : VEntry) : Res Effects := memOp (orderedStore ⟨.unit, m, 0⟩ v p) s e
def vopVsts (v : Reg) (p : BitVec 3) (m : BitVec 5) (s : State) (e : VEntry) : Res Effects := memOp (orderedStore ⟨.strided, m, 0⟩ v p) s e
def vopVstx (v b : Reg) (p : BitVec 3) (m : BitVec 5) (s : State) (e : VEntry) : Res Effects := memOp (indexedStore ⟨.indexed, m, b⟩ v p) s e
def vopVstseg (v n : Reg) (p : BitVec 3) (m : BitVec 5) (s : State) (e : VEntry) : Res Effects := memOp (orderedStore ⟨.seg n.toNat, m, 0⟩ v p) s e

/-- VLDFF (R113, R114, R390): b names pd. -/
def vopVldff (d b : Reg) (p : BitVec 3) (m : BitVec 5) (s0 : State) (e0 : VEntry) : Res Effects :=
  let o : VAcc := ⟨.unit, m, 0⟩
  memOp (fun s e => memChecks o d s e
    (if e.vl ≤ s.ct.vec.vstart then .ok Effects.none s
     else
      let first := (List.range e.vl).find? fun i => s.pbit p.toNat i
      let res (lim : Nat) : BitVec 16384 := predResult s e b.toNat p.toNat fun i => decide (i < lim)
      let retired (n : Nat) (s1 : State) : State :=
        s1.setPred b.toNat (predOf 16384 fun i => if i < n then (res n).getLsbD i else s.pbit b.toNat i)
      (loadLoop o d p (some (first.getD e.vl)) retired s e (stripFrom s e) 0 s).andThen fun r s1 =>
        let lim := r.2.getD e.vl
        let s2 := ((stripFrom s e).filter (lim ≤ ·)).foldl (fun s1 i => skipElem o d e i s1) s1
        let s3 := tailFields o d e s2
        .ok (Effects.flags r.1) (s3.setPred b.toNat (res lim)))) s0 e0

/-- VPREF (R389): speculative; it may bring lines into caches, which the model does not tell apart from memory, and a refused translation only
counts (R236). -/
def vopVpref (p : BitVec 3) (m : BitVec 5) (s : State) (e : VEntry) : Res Effects :=
  let o : VAcc := ⟨.unit, m, 0⟩
  let s1 := ((stripFrom s e).filter fun i => s.pbit p.toNat i).foldl (fun s1 i =>
    match windowOf (o.place s e i 0).1, translate s1.ctx { kind := 1, spec := true } (o.place s e i 0).1 s with
    | .global, .trap _ _ => countEvent s1 (dieOf s1.ct.lcore) 0
    | _, _ => s1) s
  .ok Effects.none s1

-- ## VAMO (R249 to R251)

/-- The width code of a VAMO element type; none where the type is refused. -/
def vamoWidth (ty : Nat) : Option (BitVec 3) :=
  match ty with
  | 2 => some 0
  | 3 => some 1
  | 6 => some 2
  | 7 => some 5
  | 12 => some 3
  | 13 => some 4
  | _ => none

/-- The address of index x (R249). -/
def vamoAddr (e : VEntry) (x : Nat) : Word := e.xa + e.off + BitVec.ofNat 64 (e.w * x)

/-- The value of a run and the flags of its tree (R251): swap takes the right operand. -/
def vamoTree (op : BitVec 3) (ty : Nat) (vs : List Nat) : Nat × FFlags :=
  let n := levels vs.length
  match treeUp (fun _ u v => atomicOp op ty u v) n ((List.range (2 ^ n)).map fun j => vs[j]?) 0 with
  | (some v, fl) => (v, fl)
  | (none, fl) => (0, fl)

/-- Runs of equal index of a list sorted by index. -/
def runsOf : List (Nat × Nat) → List (Nat × List Nat)
  | [] => []
  | (x, i) :: r =>
    match runsOf r with
    | (y, is) :: q => if x = y then (y, i :: is) :: q else (x, [i]) :: (y, is) :: q
    | [] => [(x, [i])]

/-- What VAMO has done: elements done, causes with their elements, and the tree flags. -/
structure VamoRun where
  done : List Nat
  causes : List (Nat × Trap)
  fl : FFlags

/-- Performs or excludes one run. -/
def vamoStep (v : Reg) (op w : BitVec 3) (s0 : State) (e : VEntry) (acc : VamoRun) (r : Nat × List Nat) (s : State) : Res VamoRun :=
  let (x, fl) := vamoTree op e.ty (r.2.map fun i => s0.elem v.toNat e.w i)
  match resolveAligned s.ctx { kind := 3, quiet := true } (vamoAddr e r.1) e.w s with
  | .ok pl s1 =>
    if fillFirst s1 pl.pa e.w then .wait .event s0
    else
      .ok { acc with done := acc.done ++ r.2, fl := acc.fl ||| fl }
        (sendUpdate s1 e.bronze false (s1.vecLate e) pl w op (BitVec.ofNat 64 x))
  | .trap t s1 => .ok { acc with causes := acc.causes ++ r.2.map fun i => (i, t) } s1
  | .wait k _ => .wait k s0
  | .gone s1 => .gone s1

/-- The lowest element with a cause. -/
def lowestCause (l : List (Nat × Trap)) : Option (Nat × Trap) :=
  l.foldl (fun b c => match b with
    | none => some c
    | some x => if c.1 < x.1 then some c else some x) none

/-- The element at which a VAMO in Bronze mode stops: the highest v at most f below which the runs are whole, so that pdone is clear (R255). -/
def vamoCut (runs : List (Nat × List Nat)) (f : Nat) : Nat :=
  (List.range f).foldl (fun v _ => runs.foldl (fun v r => if r.2.any (v ≤ ·) then min v (r.2.headD v) else v) v) f

/-- VAMO. The bound is checked unless its field names x0: the pseudocode of R250 tests the register's value, R249 the field, and the model follows the
field (log entry 133). -/
def vamo (v b c : Reg) (p op : BitVec 3) (s : State) (e : VEntry) : Res Effects :=
  need (aligned e v && aligned e b) Code.illegal s
    (match vamoWidth e.ty with
     | none => vtrap Code.etype s
     | some w =>
       need (!(decide (10 ≤ e.ty) && decide (3 ≤ op.toNat) && decide (op.toNat ≤ 5))) Code.etype s
         (if e.vl ≤ s.ct.vec.vstart then .ok Effects.none s
          else
           let idx (i : Nat) := s.elem b.toNat e.w i
           let cands := pendingElems s e p
           let out (i : Nat) := c != 0 && decide (e.xc.toNat ≤ idx i)
           let bounds := (cands.filter out).map fun i =>
             (i, ({ code := Code.bounds, kind := 3, vec := true, sfva := vamoAddr e (idx i) } : Trap))
           let runs := runsOf (sortBy (fun x y => decide (x.1 ≤ y.1)) ((cands.filter fun i => !out i).map fun i => (idx i, i)))
           let go (rs : List (Nat × List Nat)) := foldRes (vamoStep v op w s e) rs ⟨[], bounds, 0⟩ s
           (go runs).andThen fun acc s1 =>
             match lowestCause acc.causes with
             | none => .ok (Effects.flags acc.fl) s1
             | some (f, t) =>
               if e.bronze then
                 let cut := vamoCut runs f
                 (go (runs.filter fun r => r.2.all (· < cut))).andThen fun acc2 s2 =>
                   let at_ := (cands.find? fun i => decide (cut ≤ i)).getD f
                   stopIndexed (s2.orFlags acc2.fl) e p at_ [] (8 * e.w) f t 0
               else stopIndexed (s1.orFlags acc.fl) e p f acc.done (8 * e.w) f t 0))

def vopVamo (v b c : Reg) (p op : BitVec 3) (s : State) (e : VEntry) : Res Effects := memOp (vamo v b c p op) s e

end Sys2Proof.Machine
end

