-- ==== Sys2Proof/Machine/Algebra.lean ====
section
/-!
DEFINITION. Amalgam: algebra tables and ALGLD (R164 to R167, R301), exact products (R168), and the vector algebra instructions (R169, R170,
R363).
-/

namespace Sys2Proof.Machine

-- ## Tables (Table 8.1, Table 8.2)

namespace Alg

def byte (t : BitVec 640) (off : Nat) : Nat := natBits t.toNat (8 * off) 8
/-- Component count n. -/
def n (t : BitVec 640) : Nat := byte t 0
def conj (t : BitVec 640) (i : Nat) : Bool := t.getLsbD (8 + i)
def rev (t : BitVec 640) (i : Nat) : Bool := t.getLsbD (16 + i)
/-- METRIC code of component i. -/
def metric (t : BitVec 640) (i : Nat) : Nat := natBits t.toNat (32 + 2 * i) 2
/-- Cell (i, j): none when Z is set, else NEG and K. -/
def cell (t : BitVec 640) (i j : Nat) : Option (Bool × Nat) :=
  let b := byte t (16 + 8 * i + j)
  if 128 ≤ b then none else some (natBits b 6 1 == 1, b % 8)

/-- Whether the listed K are distinct. -/
def distinct : List (Option (Bool × Nat)) → Bool
  | [] => true
  | none :: r => distinct r
  | some (_, k) :: r => !(r.any fun c => match c with | some (_, j) => j == k | none => false) && distinct r

/-- The checks of R165, step 3. -/
def ok (t : BitVec 640) : Bool :=
  let m := n t
  let idx := List.range 8
  let low := List.range m
  (m == 1 || m == 2 || m == 4 || m == 8) &&
  idx.all (fun i => decide (i < m) || (!conj t i && !rev t i && metric t i == 0)) &&
  idx.all (fun i => metric t i != 2) &&
  byte t 3 == 0 && (List.range 10).all (fun i => byte t (6 + i) == 0) &&
  idx.all (fun i => idx.all fun j =>
    let b := byte t (16 + 8 * i + j)
    if i < m ∧ j < m then (if 128 ≤ b then b == 128 else natBits b 3 3 == 0 && decide (b % 8 < m)) else b == 0) &&
  low.all (fun i => distinct (low.map fun j => cell t i j)) &&
  low.all (fun j => distinct (low.map fun i => cell t i j))

/-- Signed terms of component k of a product (R168): NEG, i, j. -/
def terms (t : BitVec 640) (k : Nat) : List (Bool × Nat × Nat) :=
  (List.range (n t)).flatMap fun i => (List.range (n t)).filterMap fun j =>
    match cell t i j with
    | some (neg, m) => if m = k then some (neg, i, j) else none
    | none => none

end Alg

-- ## Exact sums

/-- The exact sum of a list of terms: NaN where a term is, or where ∞ meets −∞; an exact zero sum takes the sign of R144, and an empty sum is
+0 (R168, R156). -/
def sumTerms (rdn : Bool) (l : List FVal) : FVal :=
  if l.any FVal.isNan then .nan (l.any FVal.raises)
  else
    match l with
    | [] => .fin false 0 0
    | a :: r => r.foldl (FVal.add rdn) a

/-- A signed exact product. -/
def term (neg : Bool) (a b : FVal) : FVal := if neg then (a.mul b).neg else a.mul b

/-- The product of two algebra elements, exactly (R168). -/
def prodF (t : BitVec 640) (rdn : Bool) (a b : List FVal) : List FVal :=
  (List.range (Alg.n t)).map fun k =>
    sumTerms rdn ((Alg.terms t k).map fun x => term x.1 (a.getD x.2.1 (.fin false 0 0)) (b.getD x.2.2 (.fin false 0 0)))

def prodI (t : BitVec 640) (a b : List Int) : List Int :=
  (List.range (Alg.n t)).map fun k =>
    (Alg.terms t k).foldl (fun acc x => let p := a.getD x.2.1 0 * b.getD x.2.2 0; if x.1 then acc - p else acc + p) 0

-- ## The instructions (R169, R170)

/-- The operations of Table 8.5 that do arithmetic. -/
inductive AlgOp where
  | mul
  | norm
  | sand
  deriving DecidableEq, Repr

def algF (t : BitVec 640) (op : AlgOp) (rdn : Bool) (a b : List FVal) : List FVal :=
  match op with
  | .mul => prodF t rdn a b
  | .sand => prodF t rdn (prodF t rdn a b) (a.zipIdx.map fun x => if Alg.conj t x.2 then x.1.neg else x.1)
  | .norm =>
    sumTerms rdn (a.zipIdx.filterMap fun x =>
      if Alg.metric t x.2 = 0 then none else some (term (Alg.metric t x.2 == 3) x.1 x.1)) :: List.replicate (Alg.n t - 1) (.fin false 0 0)

def algI (t : BitVec 640) (op : AlgOp) (a b : List Int) : List Int :=
  match op with
  | .mul => prodI t a b
  | .sand => prodI t (prodI t a b) (a.zipIdx.map fun x => if Alg.conj t x.2 then -x.1 else x.1)
  | .norm =>
    a.zipIdx.foldl (fun acc x => if Alg.metric t x.2 = 0 then acc else if Alg.metric t x.2 = 3 then acc - x.1 * x.1 else acc + x.1 * x.1) 0
      :: List.replicate (Alg.n t - 1) 0

/-- Table g of the acting task. -/
def State.alg (s : State) (g : BitVec 2) : BitVec 640 := s.ct.mx.algs[g.toNat]'g.isLt

/-- The components of the algebra element that element i belongs to. -/
def compsOf (s : State) (e : VEntry) (n : Nat) (r : Reg) (i : Nat) : List Nat :=
  (List.range n).map fun m => s.elem r.toNat e.w (n * (i / n) + m)

/-- The common checks of R169 and its driver: whole algebra elements, active by the bit of component 0. f gives element i. The checks are made whatever VL and VSTART hold (log entry 103); a pre-emption stops between
algebra elements. -/
def algebra (d a b : Reg) (p : BitVec 3) (g : BitVec 2) (rounds : Bool) (f : BitVec 3 → Nat → Nat × FFlags) (s : State) (e0 : VEntry) :
    Res Effects :=
  let n := Alg.n (s.alg g)
  let e := { e0 with stop := e0.stop.map fun k => k / n * n }
  match (if rounds && !tyIsInt e.ty then e.round 7 else some 0) with
  | none => vtrap Code.illegal s
  | some rm =>
    need (aligned e d && aligned e a && aligned e b && s.ct.vec.vstart % n == 0) Code.illegal s
      (need ((tyIsInt e.ty || isArithFp e.ty) && e.vl % n == 0) Code.etype s
        (if e.vl ≤ s.ct.vec.vstart then .ok Effects.none s
         else
          let (s1, fl) := writeActive s e d.toNat e.w (fun i => s.pbit p.toNat (n * (i / n))) (f rm) s
          endStrip s e fl (fun s1 => writeTail s1 e.vcfg e.vl d.toNat e.w e.g) s1))

/-- Element i of an arithmetic operation: one rounding per component, indexed by the component's own number (R169). -/
def algElem (op : AlgOp) (a b : Reg) (g : BitVec 2) (s : State) (e : VEntry) (rm : BitVec 3) (i : Nat) : Nat × FFlags :=
  let t := s.alg g
  let n := Alg.n t
  let xs := compsOf s e n a i
  let ys := compsOf s e n b i
  match tyFmt e.ty with
  | some f => f.deliver (e.rc s rm i) ((algF t op (rm == 2) (xs.map f.read) (ys.map f.read)).getD (i % n) (.fin false 0 0))
  | none => (wrapN (8 * e.w) ((algI t op (xs.map (tyInt e.ty)) (ys.map (tyInt e.ty))).getD (i % n) 0), 0)

def vopVamul (d a b : Reg) (p : BitVec 3) (g : BitVec 2) (s : State) (e : VEntry) : Res Effects :=
  algebra d a b p g true (algElem .mul a b g s e) s e
def vopVanorm (d a : Reg) (p : BitVec 3) (g : BitVec 2) (s : State) (e : VEntry) : Res Effects :=
  algebra d a a p g true (algElem .norm a a g s e) s e
def vopVasand (d a b : Reg) (p : BitVec 3) (g : BitVec 2) (s : State) (e : VEntry) : Res Effects :=
  algebra d a b p g true (algElem .sand a b g s e) s e

/-- A component with its sign changed where the mask names it (R170): the sign bit of a floating type, negation modulo 2^(8w) of an integer. -/
def flipIf (m : Bool) (e : VEntry) (v : Nat) : Nat :=
  if !m then v
  else if tyIsInt e.ty then (2 ^ (8 * e.w) - v) % 2 ^ (8 * e.w)
  else v ^^^ 2 ^ (8 * e.w - 1)

def vopVaconj (d a : Reg) (p : BitVec 3) (g : BitVec 2) (s : State) (e : VEntry) : Res Effects :=
  let t := s.alg g
  algebra d a a p g false (fun _ i => (flipIf (Alg.conj t (i % Alg.n t)) e (s.elem a.toNat e.w i), 0)) s e
def vopVaconjRev (d a : Reg) (p : BitVec 3) (g : BitVec 2) (s : State) (e : VEntry) : Res Effects :=
  let t := s.alg g
  algebra d a a p g false (fun _ i => (flipIf (Alg.rev t (i % Alg.n t)) e (s.elem a.toNat e.w i), 0)) s e

-- ## ALGLD (R165, R301)

/-- ALGLD algN, (xa): waits for the VIQ, loads 80 bytes in aligned 16-byte units, checks the image and replaces the table. -/
def execAlgld (t a : Reg) (s : State) : Host.Outcome State Fault Refusal :=
  withProfile .la s
    (whenDrained s
      (let va := s.getX a
       if va.toNat % 16 ≠ 0 then takeTrap (scalarRecord 16 (faultTrap Code.align { kind := 1 } va 0 false)) s
       else
        finish ((unitRead readSeen va 16 16 5 s []).andThen fun bs s1 =>
          let img := BitVec.ofNat 640 (leNat bs)
          if Alg.ok img then .ok () ((s1.onMx fun m => { m with algs := m.algs.setIfInBounds t.toNat img }).advance)
          else .trap { code := Code.illegal } s1)))

end Sys2Proof.Machine
end

