-- ==== Sys2Proof/Machine/Matrix.lean ====
section
/-!
DEFINITION. The matrix array: panels and MFILL (R145 to R153, R171, R172, R340 to R342), MMAC (R154 to R157, R343 to R345), tiles, codebooks and
drains (R158 to R160, R336 to R339).
-/

namespace Sys2Proof.Machine

-- ## Tiles

namespace State

/-- Cell (r, c) of tile t. -/
def cell (s : State) (t r c : Nat) : Nat := natBits ((s.ct.mx.acc.toList.getD (8 * t + r) 0).toNat) (32 * c) 32

/-- Writes row r of tile t from a list of cells, the first in column 0; the columns after the list keep their bits. -/
def putRow (s : State) (t r : Nat) (cs : List Nat) : State :=
  s.onMx fun m =>
    let old := m.acc.toList.getD (8 * t + r) 0
    { m with acc := m.acc.setIfInBounds (8 * t + r) (cs.zipIdx.foldl (fun v x => putBits v (32 * x.2) 32 x.1) old) }

def tileKind (s : State) (t : Nat) : TileKind := s.ct.mx.kinds.toList.getD t .empty
def setKind (s : State) (t : Nat) (k : TileKind) : State := s.onMx fun m => { m with kinds := m.kinds.setIfInBounds t k }

end State

/-- A granted tile (R48). -/
def tileOk (s : State) (t : Reg) : Bool := decide (t.toNat < s.ct.task.tiles)

-- ## Handles and panels (R147, R149)

def handleRow (h : Word) : Nat := bitsOf h 0 9
def handleLen (h : Word) : Nat := bitsOf h 16 9
/-- A valid handle (R147). -/
def handleOk (h : Word) : Bool :=
  bitsOf h 9 7 == 0 && bitsOf h 25 39 == 0 && handleLen h != 0 && decide (handleRow h + handleLen h ≤ Config.panelRows)

/-- Panel rows that two ranges share. -/
def rowsMeet (a la b lb : Nat) : Bool := decide (a < b + lb) && decide (b < a + la)

/-- The panel that a handle names for the acting task, with every row owned through a fill with exactly that handle (R149, R162). -/
def panelOf (s : State) (h : Word) : Option Panel :=
  (s.core s.ct.lcore).panels.find? fun p => p.row == handleRow h && p.len == handleLen h && p.task == s.ct.task.taskid

/-- K per panel row of a format (Table 7.1). -/
def kRowOf (m : BitVec 5) : Nat := if m == 0x0F || m == 0x10 then 256 else if m == 0x0A then 64 else 128

/-- K per pass of a pairing of Table 7.1; none where it is not in the table. -/
def pairing (ety : Nat) (m : BitVec 5) : Option Nat :=
  match ety with
  | 8 => if m == 0x08 || m == 0x09 || m == 0x0F || m == 0x10 then some 128 else none
  | 9 => if m == 0x08 || m == 0x09 || m == 0x0F || m == 0x10 then some 128 else none
  | 0 => if m == 0x01 || m == 0x11 || m == 0x0F then some 128 else none
  | 10 => if m == 0x0A || m == 0x0F || m == 0x10 then some 64 else none
  | _ => none

def mmacType (ety : Nat) : Bool := ety == 0 || ety == 8 || ety == 9 || ety == 10

/-- Value (k, c) of a panel. -/
def Panel.val (p : Panel) (k c : Nat) : FVal :=
  let raw := (Sparse.get 0 p.cells (192 * k + c)).toNat
  match p.mf.toNat with
  | 0x08 => FFmt.e4m3.read raw
  | 0x09 => FFmt.e5m2.read raw
  | 0x0A => FFmt.bf16.read raw
  | 0x10 => FFmt.bf16.read raw
  | _ => FVal.ofInt false (toSigned 8 raw) 0

def Panel.scale (p : Panel) (g c : Nat) : FVal := FFmt.f32.read (Sparse.get 0 p.scales (192 * g + c)).toNat
def Panel.zero (p : Panel) (g c : Nat) : FVal := FFmt.f32.read (Sparse.get 0 p.zeros (192 * g + c)).toNat

-- ## Passes (R155, R156)

/-- Truncates a product towards zero at 2^(e−56). -/
def truncAt (e : Int) (v : FVal) : FVal :=
  match v with
  | .fin s m x => if x < e - 56 then .fin s (m >>> (e - 56 - x).toNat) (e - 56) else v
  | v => v

/-- floor(log2 |p|) of a nonzero finite product. -/
def expOf (v : FVal) : Option Int :=
  match v with
  | .fin _ m x => if m = 0 then none else some (x + (bitLen m : Int) - 1)
  | _ => none

/-- The products of a pass with a BF16 A: truncated at the largest exponent minus 56 (Table 7.4). -/
def truncAll (ps : List FVal) : List FVal :=
  match ps.foldl (fun (b : Option Int) p =>
    match b, expOf p with
    | some x, some y => some (max x y)
    | none, y => y
    | x, none => x) none with
  | some e => ps.map (truncAt e)
  | none => ps

/-- The quantity that a pass of kind FP adds (Table 7.4). -/
def passQty (bf : Bool) (as bs : List FVal) (sz : Option (FVal × FVal)) : FVal :=
  let ps := List.zipWith FVal.mul as bs
  let sum := sumTerms false (if bf then truncAll ps else ps)
  match sz with
  | none => sum
  | some (sc, z) => sc.mul (FVal.add false sum (z.mul (sumTerms false as)).neg)

/-- One pass on one cell of kind FP: the cell keeps its bits where the quantity is exactly zero; the rounding sets MXOVF on overflow. -/
def passFp (bf : Bool) (as bs : List FVal) (sz : Option (FVal × FVal)) (cell : Nat) : Nat × BitVec 3 :=
  let q := passQty bf as bs sz
  if q.isZero then (cell, 0)
  else
    let (v, fl) := FFmt.f32.deliver Rc.rne (FVal.add false (FFmt.f32.read cell) q)
    (v, if fl &&& FFlags.of ≠ 0 then mxovf else 0)

/-- The integer of an exact value. -/
def FVal.toInt : FVal → Int
  | .fin s m e => FVal.intAt s m e 0
  | _ => 0

/-- One pass on one cell of kind INT: saturated to INT32 (R155, R156). -/
def passInt (as bs : List FVal) (cell : Nat) : Nat × BitVec 3 :=
  let v := toSigned 32 cell + (List.zipWith FVal.mul as bs).foldl (fun a p => a + p.toInt) 0
  let r := max (-(2 ^ 31 : Int)) (min (2 ^ 31 - 1) v)
  (wrapN 32 r, if r = v then 0 else mxsat)

/-- The A value of an element (R154). -/
def aVal (ety v : Nat) : FVal :=
  match tyFmt ety with
  | some f => f.read v
  | none => FVal.ofInt false (toSigned 8 v) 0

/-- All passes of one row on one cell, in increasing K. -/
def mmacCell (pn : Panel) (ety kp vl : Nat) (int : Bool) (row : List FVal) (c cell : Nat) : Nat × BitVec 3 :=
  (List.range (ceilDiv vl kp)).foldl (fun (acc : Nat × BitVec 3) j =>
    let k0 := j * kp
    let as := (row.drop k0).take kp
    let bs := (List.range as.length).map fun i => pn.val (k0 + i) c
    let sz := if pn.scaled then some (pn.scale (k0 / 128) c, pn.zero (k0 / 128) c) else none
    let (v, fl) := if int then passInt as bs acc.1 else passFp (ety == 10) as bs sz acc.1
    (v, acc.2 ||| fl)) (cell, 0)

def vopMmac (t a : Reg) (s : State) (e : VEntry) : Res Effects :=
  whole s
    (need (aligned e a && tileOk s t && handleOk e.xb && decide (e.vl ≤ s.L / e.w)) Code.illegal s
      (need (mmacType e.ty) Code.etype s
        (if e.vl = 0 then .ok Effects.none s
         else
          match panelOf s e.xb with
          | none => vtrap Code.panelAbsent s
          | some pn =>
            let int := e.ty == 0 && !pn.scaled
            let kind : TileKind := if int then .int else .fp
            match pairing e.ty pn.mf with
            | none => vtrap Code.etype s
            | some kp =>
              need (s.tileKind t.toNat == .empty || s.tileKind t.toNat == kind) Code.etype s
                (need (decide (e.vl ≤ pn.dataRows * pn.kRow)) Code.illegal s
                  (if pn.ready < pn.len then .wait .event s
                   else
                    let (s1, fl) := (List.range e.g).foldl (fun (acc : State × BitVec 3) r =>
                      let row := (List.range e.vl).map fun k => aVal e.ty (s.elem (a.toNat + r) e.w k)
                      let cells := (List.range 192).map fun c => mmacCell pn e.ty kp e.vl int row c (s.cell t.toNat r c)
                      (acc.1.putRow t.toNat r (cells.map (·.1)), cells.foldl (fun f x => f ||| x.2) acc.2)) (s, 0)
                    .ok { Effects.none with mflags := fl } (s1.setKind t.toNat kind))))))

-- ## Tiles and codebooks (R158, R336 to R339)

def vopMzero (t : Reg) (s : State) (e : VEntry) : Res Effects :=
  let _ := e
  whole s
    (need (tileOk s t) Code.illegal s
      (.ok Effects.none ((s.onMx fun m =>
        { m with acc := (List.range 8).foldl (fun a r => a.setIfInBounds (8 * t.toNat + r) 0) m.acc }).setKind t.toNat .empty)))

def vopMldacc (t a : Reg) (s : State) (e : VEntry) : Res Effects :=
  whole s
    (need (aligned e a && tileOk s t && decide (e.vl ≤ 192) && decide (e.vl ≤ s.L / 4)) Code.illegal s
      (need (e.ty == 2 || e.ty == 12) Code.etype s
        (if e.vl = 0 then .ok Effects.none s
         else
          let s1 := (List.range e.g).foldl (fun s1 r =>
            s1.putRow t.toNat r ((List.range e.vl).map fun c => s.elem (a.toNat + r) 4 c)) s
          .ok Effects.none (s1.setKind t.toNat (if e.ty == 2 then .int else .fp)))))

/-- The record of a non-resumable access (Table 11.8). -/
def wholeRecord (stride rem bits : Nat) (t : Trap) : Trap :=
  { t with vec := true, sfelem := 0, sfstride := BitVec.ofNat 64 stride, sfrem := BitVec.ofNat 64 rem, sfwidth := BitVec.ofNat 64 (bits + 0x100) }

/-- MCB (R337): one vector load of 32 bytes, which may perform later than it executes (R200, log entry 125). -/
def loadBook (c : Reg) (s : State) (e : VEntry) : Res Effects :=
  whole s
    (((resolveAligned s.ctx { kind := 1 } e.xa 32 s).mapTrap (wholeRecord 2 16 16)).andThen fun p s =>
      if s.vecLate e then .ok Effects.none (leaveLate (ownVector s p 32) true p (.load 32) (.book c.toNat))
      else
        let r := loadBytes s false p 32
        .ok Effects.none (setBook c.toNat r.1 r.2))

def vopMcb (c : Reg) (s : State) (e : VEntry) : Res Effects := memOp (loadBook c) s e

/-- A cell converted by MDRAIN (R159): its bits in the format of a type, and MXFLAG bits. An INT cell that saturates in E4M3 sets no SATN (log entry
100). A NaN cell of kind FP drained to .f32 keeps its bits: of R159's bit copy and its canonical NaN the model takes the copy (log entry 134). -/
def drainConv (k : TileKind) (ty cell : Nat) : Nat × BitVec 3 :=
  match k with
  | .empty => (0, 0)
  | .int =>
    if tyIsInt ty then
      let i := toSigned 32 cell
      let r := max (tyMin ty) (min (tyMax ty) i)
      (wrapN (tyBits ty) r, if r = i then 0 else mxsat)
    else ((convert Rc.rne 2 ty cell).1, 0)
  | .fp =>
    if ty = 12 then (cell, 0)
    else
      match FFmt.f32.read cell, ty with
      | .inf neg, 8 => (FFmt.e4m3.signBit neg + FFmt.e4m3.maxBits, satn)
      | v, _ =>
        let (r, fl) := ((tyFmt ty).getD .f32).deliver Rc.rne v
        (r, if fl &&& FFlags.of ≠ 0 then (if ty = 8 then satn else mxovf) else 0)

/-- An integer format on a tile of kind FP (R159). -/
def drainKindOk (s : State) (t : Reg) (ty : Nat) : Bool := !(s.tileKind t.toNat == .fp && tyIsInt ty)

/-- Cells (r, c) converted, for r below GRP and c below VL, in row order. -/
def drained (s : State) (e : VEntry) (t : Reg) (ty : Nat) : List (Nat × Nat × Nat × BitVec 3) :=
  (List.range e.g).flatMap fun r => (List.range e.vl).map fun c =>
    let x := drainConv (s.tileKind t.toNat) ty (s.cell t.toNat r c)
    (r, c, x.1, x.2)

def drainFlags (l : List (Nat × Nat × Nat × BitVec 3)) : BitVec 3 := l.foldl (fun f x => f ||| x.2.2.2) 0

/-- MDRAIN to registers (R338). -/
def vopMdrainRegister (t v : Reg) (m : BitVec 5) (s : State) (e : VEntry) : Res Effects :=
  let ty := mfType m 0
  whole s
    (need (aligned e v && tileOk s t && decide (e.vl ≤ 192) && decide (e.vl ≤ s.L / tyBytes ty)) Code.illegal s
      (need (drainKindOk s t ty && ty == e.ty) Code.etype s
        (if e.vl = 0 then .ok Effects.none s
         else
          let l := drained s e t ty
          let s1 := l.foldl (fun s1 x => s1.setElem (v.toNat + x.1) e.w x.2.1 x.2.2.1) s
          .ok { Effects.none with mflags := drainFlags l } ((List.range e.g).foldl (fun s1 r => writeTail s1 e.vcfg e.vl (v.toNat + r) e.w 1) s1))))

/-- MDRAIN to memory (R338): every cell is made ready before any byte is written. b = 0 packs the rows. -/
def drainMemory (t b : Reg) (m : BitVec 5) (s : State) (e : VEntry) : Res Effects :=
  let ty := mfType m 0
  let w := tyBytes ty
  let stride : Word := if b = 0 then BitVec.ofNat 64 (e.vl * w) else e.xb
  let rcd (c : Nat) := wholeRecord w (e.vl - c) (8 * w)
  let addr (r c : Nat) : Word := e.xa + BitVec.ofNat 64 r * stride + BitVec.ofNat 64 (c * w)
  whole s
    (need (tileOk s t && decide (e.vl ≤ 192)) Code.illegal s
      (need (drainKindOk s t ty) Code.etype s
        (if e.xa.toNat % w ≠ 0 then .trap (rcd 0 (faultTrap Code.align { kind := 2 } e.xa 0 false)) s
         else if stride.toNat % w ≠ 0 then .trap (rcd 0 (faultTrap Code.align { kind := 2 } (addr 1 0) 0 false)) s
         else
          let l := drained s e t ty
          (foldRes (fun (acc : List Place) x s =>
            ((resolveAligned s.ctx { kind := 2 } (addr x.1 x.2.1) w s).mapTrap (rcd x.2.1)).andThen fun p s =>
              if fillFirst s p.pa w then .wait .event s else .ok (acc ++ [p]) s)
            l [] s).andThen fun ps s =>
              .ok { Effects.none with mflags := drainFlags l }
                ((l.zip ps).foldl (fun s x => plainStore s false x.2 (addr x.1.1 x.1.2.1) (toBytes w x.1.2.2.1)) s))))

def vopMdrainMemory (t b : Reg) (m : BitVec 5) (s : State) (e : VEntry) : Res Effects := memOp (drainMemory t b m) s e

-- ## MFILL (R150, R341)

/-- A fill card (Table 7.3). -/
structure FillCard where
  baddr : Word
  cstride : Word
  k : Nat
  n : Nat
  planes : Nat
  cbook : Nat
  scale : Word
  zero : Word
  sstride : Word
  flags : Nat
  rest : Nat
  deriving DecidableEq, Repr

/-- The field of n bytes at an offset. -/
def fieldAt (bs : List Byte) (off n : Nat) : Nat := leNat ((bs.drop off).take n)

def FillCard.parse (bs : List Byte) : FillCard where
  baddr := BitVec.ofNat 64 (fieldAt bs 0 8)
  cstride := BitVec.ofNat 64 (fieldAt bs 8 8)
  k := fieldAt bs 0x10 4
  n := fieldAt bs 0x14 2
  planes := fieldAt bs 0x16 1
  cbook := fieldAt bs 0x17 1
  scale := BitVec.ofNat 64 (fieldAt bs 0x18 8)
  zero := BitVec.ofNat 64 (fieldAt bs 0x20 8)
  sstride := BitVec.ofInt 64 (toSigned 32 (fieldAt bs 0x28 4))
  flags := fieldAt bs 0x2C 1
  rest := fieldAt bs 0x2D 19

/-- The operands of a fill: format, algebra table if AE = 1, and whether the side is left. -/
structure FillOp where
  mf : BitVec 5
  alg : Option (BitVec 640)
  left : Bool

/-- The operands of an MFILL word under a table. -/
def fillOpOf (i : Instr) (alg : BitVec 640) : FillOp :=
  match i with
  | .mfill _ _ m e _ sd => ⟨m, if e == 1 then some alg else none, sd == 1⟩
  | _ => ⟨0, none, false⟩

namespace FillOp

/-- Component count n of the fill. -/
def comps (o : FillOp) : Nat :=
  match o.alg with
  | some t => Alg.n t
  | none => 1

/-- The checks of R150 and R341 on a card. -/
def cardOk (o : FillOp) (c : FillCard) : Bool :=
  decide (1 ≤ c.k) && decide (c.k ≤ 98304) && decide (1 ≤ c.n) && decide (c.n * o.comps ≤ 192) &&
  (if o.mf == 0x11 then c.k % 256 == 0 && decide (2 ≤ c.planes) && decide (c.planes ≤ 8) else c.planes == 0) &&
  (if o.mf == 0x10 then decide (c.cbook ≤ 7) else c.cbook == 0) &&
  decide (c.flags ≤ 1) && c.rest == 0 && !(c.zero != 0 && c.scale == 0) && !(c.scale != 0 && o.alg.isSome) &&
  !(c.flags == 1 && o.alg.isNone)

/-- AE = 1 takes .e4m3, .e5m2 or .bf16 (R341). -/
def fmtOk (o : FillOp) : Bool := o.alg.isNone || o.mf == 0x08 || o.mf == 0x09 || o.mf == 0x0A

/-- Bytes of one source unit, and of one column. -/
def unit (o : FillOp) : Nat := if o.mf == 0x0A then 2 else 1
def colBytes (o : FillOp) (c : FillCard) : Nat :=
  if o.mf == 0x0F || o.mf == 0x10 then ceilDiv c.k 2 else c.k * o.comps * o.unit

/-- Data rows, K groups and scale rows (R148). -/
def dataRows (o : FillOp) (c : FillCard) : Nat := ceilDiv (c.k * o.comps) (kRowOf o.mf)
def groups (c : FillCard) : Nat := ceilDiv c.k 128
def scaleRows (c : FillCard) : Nat := if c.scale = 0 then 0 else ceilDiv (groups c) 16

end FillOp

/-- Every source address of a fill in order, with its width and its fault record (R153): each column's data, then its scales and zero points. -/
def fillSources (o : FillOp) (c : FillCard) : List (Word × Nat × (Trap → Trap)) :=
  let nb := o.colBytes c
  let data := (List.range c.n).flatMap fun col => (List.range (nb / o.unit)).map fun j =>
    (c.baddr + BitVec.ofNat 64 col * c.cstride + BitVec.ofNat 64 (j * o.unit), o.unit, wholeRecord 1 (nb - j * o.unit) 8)
  let arr (base : Word) := (List.range c.n).flatMap fun col => (List.range (FillOp.groups c)).map fun g =>
    (base + BitVec.ofNat 64 g * c.sstride + BitVec.ofNat 64 (4 * col), 4, fun t : Trap =>
      { wholeRecord 0 (FillOp.groups c - g) 32 t with sfstride := c.sstride })
  data ++ (if c.scale = 0 then [] else arr c.scale) ++ (if c.zero = 0 then [] else arr c.zero)

/-- What a range [lo, hi) of addresses has in a window [a, b) whose byte a is byte at_ of a space. -/
def windowPart (lo hi a b space at_ : Nat) : List Foot :=
  if max lo a < min hi b then [⟨space, max lo a - a + at_, min hi b - a + at_⟩] else []

/-- The pieces of the len bytes from va on (R188): stash bytes by core and physical offset, the others by virtual address. -/
def footOf (cx : Ctx) (va : Word) (len : Nat) : List Foot :=
  let cl := 0xFD * 2 ^ 56
  let lc := 0xFE * 2 ^ 56
  let parts (lo hi : Nat) : List Foot :=
    windowPart lo hi lc (lc + 2 ^ 20) (1 + cx.lcore) cx.stashBase ++
      ((List.range 4).flatMap fun k => windowPart lo hi (cl + k * 2 ^ 20) (cl + (k + 1) * 2 ^ 20) (1 + 4 * clusterOf cx.lcore + k) 0) ++
      windowPart lo hi 0 cl 0 0 ++ windowPart lo hi (cl + 2 ^ 22) lc 0 (cl + 2 ^ 22) ++ windowPart lo hi (lc + 2 ^ 20) (2 ^ 64) 0 (lc + 2 ^ 20)
  if len ≤ 2 ^ 64 then parts va.toNat (va.toNat + len) ++ parts 0 (va.toNat + len - 2 ^ 64) else parts 0 (2 ^ 64)

/-- The bounding range of n pieces of len bytes, one every stride bytes from a base. -/
def strideFoot (cx : Ctx) (base : Word) (stride : Int) (n len : Nat) : List Foot :=
  let last := ((n : Int) - 1) * stride
  footOf cx (base + BitVec.ofInt 64 (min 0 last)) ((max 0 last - min 0 last).toNat + len)

/-- The read footprint of a fill (R188). -/
def fillReads (cx : Ctx) (o : FillOp) (c : FillCard) : List Foot :=
  let arr (base : Word) := if base = 0 then [] else strideFoot cx base c.sstride.toInt (FillOp.groups c) (4 * c.n)
  strideFoot cx c.baddr c.cstride.toInt c.n (o.colBytes c) ++ arr c.scale ++ arr c.zero

def emptyCard : Card := ⟨0, 0, 0, [], [], [], 0, false, 0, 0, 0, 0, []⟩

/-- Panels of a core that keep all their rows when a range is written. -/
def keepPanels (ps : List Panel) (row len : Nat) : List Panel := ps.filter fun p => !rowsMeet p.row p.len row len

/-- Fill records that keep all their rows; at most 16, the oldest dropped first (R161). -/
def addRecord (fs : List FillRec) (r : FillRec) : List FillRec :=
  let kept := fs.filter fun f => !rowsMeet (handleRow f.handle) (handleLen f.handle) (handleRow r.handle) (handleLen r.handle)
  let l := kept ++ [r]
  l.drop (l.length - Config.fillLimit)

/-- The panel that a fill makes, nothing of it read. -/
def newPanel (task : Word) (r : FillRec) : Panel :=
  let o := fillOpOf r.instr r.alg
  let c := FillCard.parse r.card
  { id := r.panel, task := task, row := handleRow r.handle, len := handleLen r.handle, mf := o.mf, kRow := kRowOf o.mf, dataRows := o.dataRows c,
    scaled := c.scale != 0, cells := [], scales := [], zeros := [], ready := 0, made := r }

/-- The steps that follow once a fill has read its source: each of its rows is written, and its job completes. -/
def fillSteps (core : Nat) (r : FillRec) : List Instr := List.replicate (handleLen r.handle) (.fillRowWrite core) ++ [.jobComplete core]

/-- Tags the rows of a fill, makes its record and hands its job to the scheduler (R151, R341). The record's panel is a new one. src: the lines of its
source. -/
def startFill (s : State) (r0 : FillRec) (src : List Nat) : State :=
  let id := s.pkg.idCtr
  let r := { r0 with panel := id, written := false, lines := [], poisoned := false }
  let pn := newPanel s.ct.task.taskid r
  let job : Job :=
    { id := id, engine := .fill id, tag := 0, task := s.ct.task.taskid, ctno := s.ct.ctno, card := emptyCard, troot := s.ct.sup.troot,
      stashBase := s.ct.task.stashBase, stashLen := s.ct.task.stashLen, launch := s.ct.task.launch, level := s.ct.level,
      reads := fillReads s.ctx (fillOpOf r.instr r.alg) (FillCard.parse r.card), writes := [⟨1000, pn.row, pn.row + pn.len⟩], state := .ready 0,
      err := none, fill := some r, src := src }
  let s1 := s.onPkg fun p => { p with idCtr := p.idCtr + 1 }
  let s2 := s1.onCore s.ct.lcore fun k => { k with panels := keepPanels k.panels pn.row pn.len ++ [pn], jobs := k.jobs ++ [job] }
  let s3 := s2.onMx fun m => { m with fills := addRecord m.fills r }
  s3.push [.jobStart s.ct.lcore]

/-- A FENCE .vv that came while an MFILL waited holds later vector accesses for the source reads of its job (R202, R318). -/
def markFill (s : State) (id : Nat) : State := s.onOrd fun o => { o with vvJobs := o.vvJobs ++ o.vvNow.map fun m => (id, m.1) }

/-- Adds the lines of an access to a list, each once. -/
def addLines (acc : List Nat) (pa n : Nat) : List Nat := acc ++ (linesOf pa n).filter fun l => !acc.contains l

/-- Every source access of a fill is made ready, before any is made (R341, R153): the lines of the source. -/
def readySources (cx : Ctx) (o : FillOp) (c : FillCard) (s : State) : Res (List Nat) :=
  foldRes (fun (acc : List Nat) x s =>
    ((resolveAligned cx { kind := 1, quiet := true } x.1 x.2.1 s).mapTrap x.2.2).andThen fun p s => .ok (addLines acc p.pa x.2.1) s) (fillSources o c) [] s

/-- MFILL (R341). -/
def fillPanel (i : Instr) (g : BitVec 2) (s : State) (e : VEntry) : Res Effects :=
  let o := fillOpOf i (s.alg g)
  whole s
    (need (handleOk e.xd && o.fmtOk) Code.illegal s
      (if e.xa.toNat % 64 ≠ 0 then .trap (scalarRecord 8 (faultTrap Code.align { kind := 1 } e.xa 0 false)) s
       else
        (unitLoad false e.xa 8 8 8 s []).andThen fun bs s =>
          let c := FillCard.parse bs
          need (o.cardOk c && decide (o.dataRows c + FillOp.scaleRows c ≤ handleLen e.xd)) Code.illegal s
            (if Config.jobLimit ≤ (s.core s.ct.lcore).jobs.length then .wait .job s
             else
              match readySources s.ctx o c s with
              | .ok src s1 =>
                .ok Effects.none (markFill (startFill s1
                  { instr := i, handle := e.xd, cardAddr := e.xa, card := bs,
                    book := if o.mf == 0x10 then s.ct.mx.books.toList.getD c.cbook 0 else 0,
                    alg := s.alg g, written := false, lines := [], panel := 0, refill := false, poisoned := false } src) s1.pkg.idCtr)
              | .trap t s1 =>
                .trap t (s1.onCore s.ct.lcore fun k => { k with panels := keepPanels k.panels (handleRow e.xd) (handleLen e.xd) })
              | .wait w s1 => .wait w s1
              | .gone s1 => .gone s1)))

/-- Its job reads what the vector stream has stored before (R153). -/
def vopMfill (i : Instr) (g : BitVec 2) (s : State) (e : VEntry) : Res Effects :=
  memOp (fun s e =>
    fillPanel i g (performWhere (fun l => s.myLate l && l.vec && l.writes) (drainWhere (fun b => s.mine b && b.vec) s)) e) s e

-- ## The fill job (R151, R152, R342)

/-- The access state of a job: that of its control thread at issue, at the level at which it issued it (R151, R184, R230). -/
def Job.ctx (j : Job) (core : Nat) : Ctx := ⟨j.level, bitsOf j.troot 12 40, j.troot, core, j.ctno, j.stashBase, j.stashLen, j.launch⟩

/-- The engine number of a job: copy 0, gather 1, fill 2, collective 3 (Table 15.1). -/
def Engine.num (e : Engine) : Nat :=
  match e with
  | .copy => 0
  | .gather => 1
  | .fill _ => 2
  | .coll => 3

/-- What a job asks for as it goes (R284): its core and engine, and the lines, each with whether it is written, that the position before and this one have
asked for, and the bits of the bytes written. -/
structure Asking where
  core : Nat
  eng : Nat
  last : List (Bool × Nat)
  now : List (Bool × Nat)
  full : List (Nat × Byte)

/-- The lines of an access are asked for, and counted as they return. A line that the position before, or this one, has asked for in the same way is not
asked for again (log entry 108). -/
def Asking.ask (k : Asking) (write : Bool) (lines : List Nat) (s : State) : Asking × State :=
  let new := (lines.map fun l => (write, l)).filter fun l => !k.now.contains l
  ({ k with now := k.now ++ new }, requestLines k.core k.eng ((new.filter fun l => !k.last.contains l).map (·.2)) s)

/-- The next position of a job. -/
def Asking.next (k : Asking) : Asking := { k with last := k.now, now := [] }

/-- Registers a source line with a fill (R152). -/
def registerLine (s : State) (panel line : Nat) : State :=
  let mark (r : FillRec) : FillRec := if r.panel = panel ∧ ¬ r.lines.contains line then { r with lines := r.lines ++ [line] } else r
  let upd (t : Thread) : Thread := { t with mx := { t.mx with fills := t.mx.fills.map mark } }
  (s.mapThreads upd).onPkg fun p =>
    { p with saved := p.saved.map upd, parked := p.parked.map fun k => { k with fills := k.fills.map mark } }

/-- A fill reads a line of its source once, and registers it as it does: as a vector load of its task, whose held stores it sees (R151, R152, R153). The
answer is the line's bytes, the lines read, and what the job has asked for. -/
def sourceLine (cx : Ctx) (task : Word) (panel line : Nat) (got : List (Nat × List Byte)) (k : Asking) (s : State) :
    (List Byte × List (Nat × List Byte) × Asking) × State :=
  match got.find? (·.1 == line) with
  | some g => ((g.2, got, k), s)
  | none =>
    let r := readBytes (l1Read s false cx.lcore line) cx.by_ line 64
    let bs := if r.2.m.wcb.isEmpty then r.1 else overlay (heldBytes r.2 task) (lastName r.2 line) r.1
    let q := k.ask false [line] r.2
    ((bs, got ++ [(line, bs)], q.1), registerLine (registerLine q.2 panel line) panel (nameLine q.2 line))

/-- Reads one unit of a fill's source. -/
def fillUnit (cx : Ctx) (task : Word) (panel : Nat) (va : Word) (n : Nat) (got : List (Nat × List Byte)) (k : Asking) (s : State) :
    Res (Nat × List (Nat × List Byte) × Asking) :=
  (resolveAligned cx { kind := 1 } va n s).andThen fun p s =>
    let r := sourceLine cx task panel (lineOf p.pa) got k s
    .ok (leNat ((r.1.1.drop (p.pa % 64)).take n), r.1.2) r.2

/-- The units of a fill in the order in which its job reads them (R151): each column's data, then scales and zero points. A unit of a plane of .bpi that is
not read is zero, and has no place. -/
def fillUnits (o : FillOp) (c : FillCard) : List (Option (Word × Nat)) :=
  let data := (List.range c.n).flatMap fun col => (List.range (o.colBytes c / o.unit)).map fun j =>
    if o.mf == 0x11 && decide (c.planes ≤ j % 256 / 32) then none
    else some (c.baddr + BitVec.ofNat 64 col * c.cstride + BitVec.ofNat 64 (j * o.unit), o.unit)
  let arr (base : Word) : List (Option (Word × Nat)) :=
    if base = 0 then []
    else (List.range (FillOp.groups c)).flatMap fun g => (List.range c.n).map fun col =>
      some (base + BitVec.ofNat 64 g * c.sstride + BitVec.ofNat 64 (4 * col), 4)
  data ++ arr c.scale ++ arr c.zero

/-- The value that p planes of .bpi give for element j of a column (R126). -/
def bpiValue (units : List Nat) (p j : Nat) : Int :=
  let t := (List.range p).foldl (fun a k => 2 * a + natBits (units.getD (j / 256 * 256 + 32 * k + j % 256 / 8) 0) (j % 8) 1) 0
  let v := toSigned p t
  if p = 8 then v else v * 2 ^ (8 - p) + 2 ^ (7 - p)

/-- Element k of a column as a panel cell (R151). -/
def plainCell (o : FillOp) (c : FillCard) (book : BitVec 256) (units : List Nat) (k : Nat) : Nat :=
  if c.k ≤ k then 0
  else
    match o.mf.toNat with
    | 0x0F => wrapN 8 (toSigned 4 (natBits (units.getD (k / 2) 0) (4 * (k % 2)) 4))
    | 0x10 => natBits book.toNat (16 * natBits (units.getD (k / 2) 0) (4 * (k % 2)) 4) 16
    | 0x11 => wrapN 8 (bpiValue units c.planes k)
    | _ => units.getD k 0

/-- Entry E[i][m] of element k of an algebra column (R171). -/
def algCell (o : FillOp) (t : BitVec 640) (c : FillCard) (units : List Nat) (k i m : Nat) : Nat :=
  let n := Alg.n t
  let sign := 2 ^ (8 * o.unit - 1)
  match (List.range n).findSome? (fun j =>
    match (if o.left then Alg.cell t j i else Alg.cell t i j) with
    | some (neg, q) => if q = m then some (neg, j) else none
    | none => none) with
  | some (neg, j) =>
    let b := units.getD (k * n + j) 0
    let b1 := if c.flags = 1 ∧ Alg.conj t j then b ^^^ sign else b
    if neg then b1 ^^^ sign else b1
  | none => 0

/-- The contents of a panel, in increasing key. Padding reads as the value 0 under every format, .lut4 too (log entry 101). -/
def panelCells (o : FillOp) (c : FillCard) (book : BitVec 256) (cols : List (List Nat)) : List (Nat × BitVec 16) :=
  let n := o.comps
  (List.range (c.k * n)).flatMap fun k => (List.range (c.n * n)).filterMap fun col =>
    let v := match o.alg with
      | some t => algCell o t c (cols.getD (col / n) []) (k / n) (k % n) (col % n)
      | none => plainCell o c book (cols.getD col []) k
    if v % 2 ^ 16 = 0 then none else some (192 * k + col, BitVec.ofNat 16 v)

/-- The scales or zero points of a panel, in increasing key. -/
def panelArray (c : FillCard) (us : List Nat) : List (Nat × BitVec 32) :=
  us.zipIdx.filterMap fun x => if x.1 % 2 ^ 32 = 0 then none else some (192 * (x.2 / c.n) + x.2 % c.n, BitVec.ofNat 32 x.1)

/-- What a panel holds once all units of its source have been read (R151). -/
def fillContents (pn : Panel) (us : List Nat) : Panel :=
  let o := fillOpOf pn.made.instr pn.made.alg
  let c := FillCard.parse pn.made.card
  let nb := o.colBytes c / o.unit
  let cols := (List.range c.n).map fun i => (us.drop (i * nb)).take nb
  let rest := us.drop (c.n * nb)
  let m := FillOp.groups c * c.n
  { pn with
    cells := panelCells o c pn.made.book cols
    scales := if c.scale = 0 then [] else panelArray c (rest.take m)
    zeros := if c.zero = 0 then [] else panelArray c ((if c.scale = 0 then rest else rest.drop m).take m) }

end Sys2Proof.Machine
end

