-- ==== Sys2Proof/Machine/Paging.lean ====
section
/-!
DEFINITION. What Korier does to map an absent page (R238, Table 11.6): its registered regions, the pages being migrated, its frames, and
the stores into the page tables.
-/

namespace Sys2Proof.Machine

/-- An address lies in a region registered with Korier for an address space. -/
def inRegion (s : State) (troot va : Word) : Bool := s.pkg.regions.any fun r => r.troot == troot && decide ((va - r.base).toNat < r.len)

/-- The entry at which the walk of an address ends, from level n down; 0 where a home is lost, none while one lies on a device that is not trained (R273). -/
def walkEntry (va : Word) : Nat → Nat → State → Option Word
  | n, table, s =>
    let at_ := table + 8 * vaIndex va n
    let e := BitVec.ofNat 64 (readHome s (.part (dieOf s.ct.lcore)) at_ 8).1
    if lostHome s at_ then some 0
    else if !s.inUse at_ then none
    else
      match n with
      | 0 => some e
      | m + 1 => if pteV e && !pteLeaf e && !pteBad e (m + 1) then walkEntry va m (bitsOf e 12 40 * 4096) s else some e

/-- The page of a root. -/
def rootTable (troot : Word) : Nat := bitsOf troot 12 40 * 4096

/-- Korier is migrating the page of an address (R238); none while the entry cannot be read. -/
def migrating (s : State) (troot va : Word) : Option Bool := (walkEntry va 3 (rootTable troot) s).map pteMoving

/-- Die d has a free frame (log entry 15). -/
def freeFrame (s : State) (d : Nat) : Bool := !s.dieFenced d && decide (s.pkg.frames.toList.getD d 0 + 4096 ≤ (d + 1) * 2 ^ 36)

/-- The die of a new frame by the placement hint (Table 11.6), and the lowest one with free frames where that has none. -/
def frameDie (s : State) (ph lcore : Nat) (va : Word) : Option Nat :=
  let any := (List.range 4).find? (freeFrame s)
  let pick (d : Nat) : Option Nat := if freeFrame s d then some d else any
  match ph with
  | 1 => pick (dieOf lcore)
  | 2 => pick (bitsOf va 12 2)
  | 3 => pick 0
  | 4 => pick 1
  | 5 => pick 2
  | 6 => pick 3
  | _ => any

/-- Korier's write at a home, from the die of the core that it serves (R280): it waits while a line of it lies on an untrained device, and one toward a lost home
is dropped (R270, R273). -/
def pagerWrite (lcore pa : Nat) (bs : List Byte) (s : State) : Res Unit :=
  (foldRes (fun (_ : Unit) l s => atHome l s) (linesOf pa bs.length) () s).andThen fun _ s => .ok () (writeHome (askDie s (dieOf lcore) (homeDie pa)) (.part (dieOf lcore)) pa bs)

/-- Takes the next frame of a die, with bytes in it. -/
def takeFrame (lcore d : Nat) (fill : Nat → Byte) (s : State) : Res Nat :=
  let f := s.pkg.frames.toList.getD d 0
  (pagerWrite lcore f ((List.range 4096).map fill) s).andThen fun _ s =>
    .ok f (s.onPkg fun p => { p with frames := p.frames.setIfInBounds d (f + 4096) })

/-- Stores a page-table entry. -/
def storePte (lcore at_ : Nat) (e : Word) (s : State) : Res Unit := pagerWrite lcore at_ (toBytes 8 e.toNat) s

/-- A pointer to a table. -/
def tableEntry (t : Nat) : Word := BitVec.ofNat 64 (t + 1)

/-- The leaf of a serviced page: readable, writable, executable, accessible from U, the placement hint kept, SW = 0 (log entry 15). -/
def leafEntry (f ph : Nat) : Word := BitVec.ofNat 64 (f + 0x1F + ph * 2 ^ 60)

/-- Maps the page of an address from level n down: an absent or malformed entry above level 0 becomes a pointer to a new table of zeros, and
the leaf is stored after the frame is filled. ph: the hint of the entry at which the walk first stopped. -/
def mapFrom (lcore : Nat) (va : Word) : Nat → Nat → Option Nat → State → Res Unit
  | n, table, ph, s =>
    let at_ := table + 8 * vaIndex va n
    (readPte s (.part (dieOf lcore)) at_).andThen fun e s =>
      let hint := ph.getD (bitsOf e 60 3)
      match frameDie s hint lcore va with
      | none => .ok () s
      | some d =>
        match n with
        | 0 =>
          if pteV e && !pteBad e 0 then .ok () s
          else
            (takeFrame lcore d (Config.frameFill (s.pkg.frames.toList.getD d 0 / 4096)) s).andThen fun f s =>
              storePte lcore at_ (leafEntry f hint) s
        | m + 1 =>
          if pteV e && !pteBad e (m + 1) then
            if pteLeaf e then .ok () s else mapFrom lcore va m (bitsOf e 12 40 * 4096) none s
          else
            (takeFrame lcore d (fun _ => 0) s).andThen fun t s =>
              (storePte lcore at_ (tableEntry t) s).andThen fun _ s => mapFrom lcore va m t (some hint) s

/-- Maps the page of an address, if Korier pages it and is not migrating it; it waits while it cannot read the entry (R273). -/
def servicePage (lcore : Nat) (troot : Word) (va : Word) (s : State) : Res Unit :=
  if !inRegion s troot va then .ok () s
  else
    match migrating s troot va with
    | none => .wait .memory s
    | some true => .ok () s
    | some false => mapFrom lcore va 3 (rootTable troot) none s

/-- Korier can map the page of an address. -/
def serviceable (s : State) (troot va : Word) : Bool :=
  windowOf va == .global && inRegion s troot va && ((List.range 4).any (freeFrame s))

/-- The pages of a fault record (R238): those of every element from SFVA to SFVA + SFSTRIDE·(SFREM − 1). -/
def recordPages (sfva stride rem width : Word) : List Word :=
  let n := max 1 rem.toNat
  let w := max 1 (bitsOf width 0 8 / 8)
  let page (a : Word) : Word := a &&& ~~~ 0xFFF
  ((List.range n).flatMap fun k =>
    let a := sfva + stride * BitVec.ofNat 64 k
    [page a, page (a + BitVec.ofNat 64 (w - 1))]).eraseDups

/-- Maps every page that a fault record names. -/
def serviceRecord (lcore : Nat) (troot sfva stride rem width : Word) (s : State) : Res Unit :=
  foldRes (fun (_ : Unit) va s => servicePage lcore troot va s) (recordPages sfva stride rem width) () s

/-- A fault of the acting thread's task that Korier services, holds, or waits to judge. -/
def pagerFault (s : State) (t : Trap) : Bool :=
  windowOf t.sfva == .global &&
    ((t.code == Code.pageAbsent && serviceable s s.ct.sup.troot t.sfva) ||
      ((t.code == Code.pageAbsent || t.code == Code.pageProt) && migrating s s.ct.sup.troot t.sfva != some false))

end Sys2Proof.Machine
end

