-- ==== Sys2Proof/Machine/VStream.lean ====
section
/-!
DEFINITION. The vector stream: which operation an entry performs, what it captures and costs, running the head of the VIQ and the nests of NLOOP
(R79 to R84, R196, R347), its records (R282, R290), the lane and array arbiters (R99), and the meanings of the vector instructions.
-/

namespace Sys2Proof.Machine

-- ## The operation of each vector instruction

/-- What an entry does when it executes. -/
def vecOp (i : Instr) (s : State) (e : VEntry) : Res Effects :=
  match i with
  | .vid d p _ => vopVid d p s e
  | .vsplat d b p _ f => vopVsplat d b p f s e
  | .vmv d a p _ => vopVmv d a p s e
  | .vext d a b _ f => vopVext d a b f s e
  | .vlast d a p _ => vopVlast d a p s e
  | .vextQ q a b _ f => vopVextQ q a b f s e
  | .vlastQ q a p _ => vopVlastQ q a p s e
  | .vadd d a b p _ f => vopVadd d a b p f s e
  | .vsub d a b p _ f => vopVsub d a b p f s e
  | .vmul d a b p _ f => vopVmul d a b p f s e
  | .vmulh d a b p _ f => vopVmulh d a b p f s e
  | .vmac d a b p _ f => vopVmac d a b p f s e
  | .vdiv d a b p _ f => vopVdiv d a b p f s e
  | .vmin d a b p _ f => vopVmin d a b p f s e
  | .vmax d a b p _ f => vopVmax d a b p f s e
  | .vand d a b p _ f => vopVand d a b p f s e
  | .vor d a b p _ f => vopVor d a b p f s e
  | .vxor d a b p _ f => vopVxor d a b p f s e
  | .vshl d a b p _ f => vopVshl d a b p f s e
  | .vshr d a b p _ f => vopVshr d a b p f s e
  | .vsar d a b p _ f => vopVsar d a b p f s e
  | .vsadd d a b p _ f => vopVsadd d a b p f s e
  | .vfadd d a b p _ f r => vopVfadd d a b p f r s e
  | .vfsub d a b p _ f r => vopVfsub d a b p f r s e
  | .vfmul d a b p _ f r => vopVfmul d a b p f r s e
  | .vfdiv d a b p _ f r => vopVfdiv d a b p f r s e
  | .vfmin d a b p _ f => vopVfmin d a b p f s e
  | .vfmax d a b p _ f => vopVfmax d a b p f s e
  | .vfscale d a b p _ f r => vopVfscale d a b p f r s e
  | .vfsplit d a p _ => vopVfsplit d a p s e
  | .vfsqrt d a p _ r => vopVfsqrt d a p r s e
  | .vfrsqe d a p _ => vopVfrsqe d a p s e
  | .vfcvt d a t p _ r => vopVfcvt d a t p r s e
  | .vfclass d a p _ => vopVfclass d a p s e
  | .vfma d a b c p r => vopVfma d a b c p r s e
  | .vcmp d a b p _ f c => vopVcmp d a b p f c s e
  | .vfcmp d a b p _ f c => vopVfcmp d a b p f c s e
  | .vrsum d a _ p _ => vopVrsum d a p s e
  | .vrosum d a _ p _ => vopVrosum d a p s e
  | .vrmax d a _ p _ => vopVrmax d a p s e
  | .vrmin d a _ p _ => vopVrmin d a p s e
  | .vrlog d a _ p _ k => vopVrlog d a p k s e
  | .vrsumQ q a _ p _ => vopVrsumQ q a p s e
  | .vrosumQ q a _ p _ => vopVrosumQ q a p s e
  | .vrmaxQ q a _ p _ => vopVrmaxQ q a p s e
  | .vrminQ q a _ p _ => vopVrminQ q a p s e
  | .vrlogQ q a _ p _ k => vopVrlogQ q a p k s e
  | .vslup d a b p _ f => vopVslup d a b p f s e
  | .vsldn d a b p _ f => vopVsldn d a b p f s e
  | .vperm d a b p _ => vopVperm d a b p s e
  | .vcompr d a p _ => vopVcompr d a p s e
  | .vmerge d a b p _ f => vopVmerge d a b p f s e
  | .pand d a b p _ => vopPand d a b p s e
  | .por d a b p _ => vopPor d a b p s e
  | .pxor d a b p _ => vopPxor d a b p s e
  | .pnot d a p _ => vopPnot d a p s e
  | .pset d _ p _ => vopPset d p s e
  | .pfirst d a p _ => vopPfirst d a p s e
  | .pbrkBefore d a p _ => vopPbrkBefore d a p s e
  | .pbrkThru d a p _ => vopPbrkThru d a p s e
  | .pcnt d a p _ => vopPcnt d a p s e
  | .pcntQ q a p _ => vopPcntQ q a p s e
  | .vdep d a p _ => vopVdep d a p s e
  | .vdepx d a b p _ => vopVdepx d a b p s e
  | .vpart d a b _ => vopVpart d a b s e
  | .vamul d a b p _ g => vopVamul d a b p g s e
  | .vaconj d a p _ g => vopVaconj d a p g s e
  | .vaconjRev d a p _ g => vopVaconjRev d a p g s e
  | .vanorm d a p _ g => vopVanorm d a p g s e
  | .vasand d a b p _ g => vopVasand d a b p g s e
  | .vld d _ p _ m => vopVld d p m s e
  | .vlds d _ _ p _ m => vopVlds d p m s e
  | .vldx d _ b p _ m => vopVldx d b p m s e
  | .vldff d _ b p _ m => vopVldff d b p m s e
  | .vst v _ p _ m => vopVst v p m s e
  | .vsts v _ _ p _ m => vopVsts v p m s e
  | .vstx v _ b p _ m => vopVstx v b p m s e
  | .vpref _ p _ m => vopVpref p m s e
  | .vldseg d _ n p _ m => vopVldseg d n p m s e
  | .vstseg v _ n p _ m => vopVstseg v n p m s e
  | .vamo v _ b c p o => vopVamo v b c p o s e
  | .mmac t a _ => vopMmac t a s e
  | .mzero t => vopMzero t s e
  | .mldacc t a => vopMldacc t a s e
  | .mcb c _ => vopMcb c s e
  | .mfill d a m ae g sd => vopMfill (.mfill d a m ae g sd) g s e
  | .mdrainMemory t _ b m => vopMdrainMemory t b m s e
  | .mdrainRegister t v m => vopMdrainRegister t v m s e
  | .qpopVector d q => vopQpopVector d q s e
  | .vcfg _ _ _ _ _ _ _ => vopVcfg s e
  | _ => .ok Effects.none s

/-- The x registers that an instruction reads in fields D, A, B and C; 0 where the field names none. -/
def vecRegs (i : Instr) : Reg × Reg × Reg × Reg :=
  match i with
  | .vsplat _ b _ _ f => (0, 0, (if f == 1 then b else 0), 0)
  | .vext _ _ b _ f => (0, 0, (if f == 1 then b else 0), 0)
  | .vextQ _ _ b _ f => (0, 0, (if f == 1 then b else 0), 0)
  | .vadd _ _ b _ _ f => (0, 0, (if f == 1 then b else 0), 0)
  | .vsub _ _ b _ _ f => (0, 0, (if f == 1 then b else 0), 0)
  | .vmul _ _ b _ _ f => (0, 0, (if f == 1 then b else 0), 0)
  | .vmulh _ _ b _ _ f => (0, 0, (if f == 1 then b else 0), 0)
  | .vmac _ _ b _ _ f => (0, 0, (if f == 1 then b else 0), 0)
  | .vdiv _ _ b _ _ f => (0, 0, (if f == 1 then b else 0), 0)
  | .vmin _ _ b _ _ f => (0, 0, (if f == 1 then b else 0), 0)
  | .vmax _ _ b _ _ f => (0, 0, (if f == 1 then b else 0), 0)
  | .vand _ _ b _ _ f => (0, 0, (if f == 1 then b else 0), 0)
  | .vor _ _ b _ _ f => (0, 0, (if f == 1 then b else 0), 0)
  | .vxor _ _ b _ _ f => (0, 0, (if f == 1 then b else 0), 0)
  | .vshl _ _ b _ _ f => (0, 0, (if f == 1 then b else 0), 0)
  | .vshr _ _ b _ _ f => (0, 0, (if f == 1 then b else 0), 0)
  | .vsar _ _ b _ _ f => (0, 0, (if f == 1 then b else 0), 0)
  | .vsadd _ _ b _ _ f => (0, 0, (if f == 1 then b else 0), 0)
  | .vfadd _ _ b _ _ f _ => (0, 0, (if f == 1 then b else 0), 0)
  | .vfsub _ _ b _ _ f _ => (0, 0, (if f == 1 then b else 0), 0)
  | .vfmul _ _ b _ _ f _ => (0, 0, (if f == 1 then b else 0), 0)
  | .vfdiv _ _ b _ _ f _ => (0, 0, (if f == 1 then b else 0), 0)
  | .vfmin _ _ b _ _ f => (0, 0, (if f == 1 then b else 0), 0)
  | .vfmax _ _ b _ _ f => (0, 0, (if f == 1 then b else 0), 0)
  | .vfscale _ _ b _ _ f _ => (0, 0, (if f == 1 then b else 0), 0)
  | .vcmp _ _ b _ _ f _ => (0, 0, (if f == 1 then b else 0), 0)
  | .vfcmp _ _ b _ _ f _ => (0, 0, (if f == 1 then b else 0), 0)
  | .vrsum _ _ b _ _ => (0, 0, b, 0)
  | .vrosum _ _ b _ _ => (0, 0, b, 0)
  | .vrmax _ _ b _ _ => (0, 0, b, 0)
  | .vrmin _ _ b _ _ => (0, 0, b, 0)
  | .vrlog _ _ b _ _ _ => (0, 0, b, 0)
  | .vrsumQ _ _ b _ _ => (0, 0, b, 0)
  | .vrosumQ _ _ b _ _ => (0, 0, b, 0)
  | .vrmaxQ _ _ b _ _ => (0, 0, b, 0)
  | .vrminQ _ _ b _ _ => (0, 0, b, 0)
  | .vrlogQ _ _ b _ _ _ => (0, 0, b, 0)
  | .vslup _ _ b _ _ f => (0, 0, (if f == 1 then b else 0), 0)
  | .vsldn _ _ b _ _ f => (0, 0, (if f == 1 then b else 0), 0)
  | .vmerge _ _ b _ _ f => (0, 0, (if f == 1 then b else 0), 0)
  | .pset _ b _ _ => (0, 0, b, 0)
  | .vld _ a _ _ _ => (0, a, 0, 0)
  | .vlds _ a b _ _ _ => (0, a, b, 0)
  | .vldx _ a _ _ _ _ => (0, a, 0, 0)
  | .vldff _ a _ _ _ _ => (0, a, 0, 0)
  | .vst _ a _ _ _ => (0, a, 0, 0)
  | .vsts _ a b _ _ _ => (0, a, b, 0)
  | .vstx _ a _ _ _ _ => (0, a, 0, 0)
  | .vpref a _ _ _ => (0, a, 0, 0)
  | .vldseg _ a _ _ _ _ => (0, a, 0, 0)
  | .vstseg _ a _ _ _ _ => (0, a, 0, 0)
  | .vamo _ a _ c _ _ => (0, a, 0, c)
  | .mmac _ _ b => (0, 0, b, 0)
  | .mcb _ a => (0, a, 0, 0)
  | .mfill d a _ _ _ _ => (d, a, 0, 0)
  | .mdrainMemory _ a b _ => (0, a, b, 0)
  | .vcfg _ a _ _ _ _ _ => (0, a, 0, 0)
  | _ => (0, 0, 0, 0)

/-- The governing predicate and the .dt bit. -/
def vecPred (i : Instr) : BitVec 3 × BitVec 1 :=
  match i with
  | .vid _ p z => (p, z)
  | .vsplat _ _ p z _ => (p, z)
  | .vmv _ _ p z => (p, z)
  | .vext _ _ _ z _ => (0, z)
  | .vlast _ _ p z => (p, z)
  | .vextQ _ _ _ z _ => (0, z)
  | .vlastQ _ _ p z => (p, z)
  | .vadd _ _ _ p z _ => (p, z)
  | .vsub _ _ _ p z _ => (p, z)
  | .vmul _ _ _ p z _ => (p, z)
  | .vmulh _ _ _ p z _ => (p, z)
  | .vmac _ _ _ p z _ => (p, z)
  | .vdiv _ _ _ p z _ => (p, z)
  | .vmin _ _ _ p z _ => (p, z)
  | .vmax _ _ _ p z _ => (p, z)
  | .vand _ _ _ p z _ => (p, z)
  | .vor _ _ _ p z _ => (p, z)
  | .vxor _ _ _ p z _ => (p, z)
  | .vshl _ _ _ p z _ => (p, z)
  | .vshr _ _ _ p z _ => (p, z)
  | .vsar _ _ _ p z _ => (p, z)
  | .vsadd _ _ _ p z _ => (p, z)
  | .vfadd _ _ _ p z _ _ => (p, z)
  | .vfsub _ _ _ p z _ _ => (p, z)
  | .vfmul _ _ _ p z _ _ => (p, z)
  | .vfdiv _ _ _ p z _ _ => (p, z)
  | .vfmin _ _ _ p z _ => (p, z)
  | .vfmax _ _ _ p z _ => (p, z)
  | .vfscale _ _ _ p z _ _ => (p, z)
  | .vfsplit _ _ p z => (p, z)
  | .vfsqrt _ _ p z _ => (p, z)
  | .vfrsqe _ _ p z => (p, z)
  | .vfcvt _ _ _ p z _ => (p, z)
  | .vfclass _ _ p z => (p, z)
  | .vfma _ _ _ _ p _ => (p, 0)
  | .vcmp _ _ _ p z _ _ => (p, z)
  | .vfcmp _ _ _ p z _ _ => (p, z)
  | .vrsum _ _ _ p z => (p, z)
  | .vrosum _ _ _ p z => (p, z)
  | .vrmax _ _ _ p z => (p, z)
  | .vrmin _ _ _ p z => (p, z)
  | .vrlog _ _ _ p z _ => (p, z)
  | .vrsumQ _ _ _ p z => (p, z)
  | .vrosumQ _ _ _ p z => (p, z)
  | .vrmaxQ _ _ _ p z => (p, z)
  | .vrminQ _ _ _ p z => (p, z)
  | .vrlogQ _ _ _ p z _ => (p, z)
  | .vslup _ _ _ p z _ => (p, z)
  | .vsldn _ _ _ p z _ => (p, z)
  | .vperm _ _ _ p z => (p, z)
  | .vcompr _ _ p z => (p, z)
  | .vmerge _ _ _ _ z _ => (0, z)
  | .pand _ _ _ p z => (p, z)
  | .por _ _ _ p z => (p, z)
  | .pxor _ _ _ p z => (p, z)
  | .pnot _ _ p z => (p, z)
  | .pset _ _ p z => (p, z)
  | .pfirst _ _ p z => (p, z)
  | .pbrkBefore _ _ p z => (p, z)
  | .pbrkThru _ _ p z => (p, z)
  | .pcnt _ _ p z => (p, z)
  | .pcntQ _ _ p z => (p, z)
  | .vdep _ _ p z => (p, z)
  | .vdepx _ _ _ p z => (p, z)
  | .vamul _ _ _ p z _ => (p, z)
  | .vaconj _ _ p z _ => (p, z)
  | .vaconjRev _ _ p z _ => (p, z)
  | .vanorm _ _ p z _ => (p, z)
  | .vasand _ _ _ p z _ => (p, z)
  | .vld _ _ p z _ => (p, z)
  | .vlds _ _ _ p z _ => (p, z)
  | .vldx _ _ _ p z _ => (p, z)
  | .vldff _ _ _ p z _ => (p, z)
  | .vst _ _ p z _ => (p, z)
  | .vsts _ _ _ p z _ => (p, z)
  | .vstx _ _ _ p z _ => (p, z)
  | .vpref _ p z _ => (p, z)
  | .vldseg _ _ _ p z _ => (p, z)
  | .vstseg _ _ _ p z _ => (p, z)
  | .vamo _ _ _ _ p _ => (p, 0)
  | _ => (0, 0)

/-- The rounding field of a rounding instruction under an element type (R400); none for any other. -/
def vecRound (i : Instr) (ety : Nat) : Option (BitVec 3) :=
  match i with
  | .vfadd _ _ _ _ _ _ r => some r
  | .vfsub _ _ _ _ _ _ r => some r
  | .vfmul _ _ _ _ _ _ r => some r
  | .vfdiv _ _ _ _ _ _ r => some r
  | .vfscale _ _ _ _ _ _ r => some r
  | .vfsqrt _ _ _ _ r => some r
  | .vfcvt _ _ _ _ _ r => some r
  | .vfma _ _ _ _ _ r => some r
  | .vrsum _ _ _ _ _ => if tyIsInt ety then none else some 7
  | .vrosum _ _ _ _ _ => if tyIsInt ety then none else some 7
  | .vrsumQ _ _ _ _ _ => if tyIsInt ety then none else some 7
  | .vrosumQ _ _ _ _ _ => if tyIsInt ety then none else some 7
  | .vamul _ _ _ _ _ _ => if tyIsInt ety then none else some 7
  | .vanorm _ _ _ _ _ => if tyIsInt ety then none else some 7
  | .vasand _ _ _ _ _ _ => if tyIsInt ety then none else some 7
  | _ => none

/-- Start-up and clocks per beat (Tables 3.5, 5.4, 19.1 and R252), for reductions those of floating types. -/
def vecCost (i : Instr) : Nat × Nat :=
  match i with
  | .vdiv _ _ _ _ _ _ | .vfdiv _ _ _ _ _ _ _ | .vfsqrt _ _ _ _ _ => (20, 4)
  | .vfadd _ _ _ _ _ _ _ | .vfsub _ _ _ _ _ _ _ | .vfmul _ _ _ _ _ _ _ | .vfmin _ _ _ _ _ _ | .vfmax _ _ _ _ _ _ | .vfscale _ _ _ _ _ _ _ | .vfsplit _ _ _ _ | .vfrsqe _ _ _ _ | .vfcvt _ _ _ _ _ _ | .vfclass _ _ _ _ | .vaconj _ _ _ _ _ | .vaconjRev _ _ _ _ _ => (6, 1)
  | .vfma _ _ _ _ _ _ | .vamul _ _ _ _ _ _ | .vanorm _ _ _ _ _ | .vasand _ _ _ _ _ _ => (8, 1)
  | .vrsum _ _ _ _ _ | .vrosum _ _ _ _ _ | .vrmax _ _ _ _ _ | .vrmin _ _ _ _ _ | .vrsumQ _ _ _ _ _ | .vrosumQ _ _ _ _ _ | .vrmaxQ _ _ _ _ _ | .vrminQ _ _ _ _ _ => (10, 1)
  | .vrlog _ _ _ _ _ _ | .vrlogQ _ _ _ _ _ _ | .vpart _ _ _ _ | .vld _ _ _ _ _ | .vlds _ _ _ _ _ _ | .vldx _ _ _ _ _ _ | .vldff _ _ _ _ _ _ | .vst _ _ _ _ _ | .vsts _ _ _ _ _ _ | .vstx _ _ _ _ _ _ | .vldseg _ _ _ _ _ _ | .vstseg _ _ _ _ _ _ | .mcb _ _ => (4, 1)
  | .vperm _ _ _ _ _ | .vcompr _ _ _ _ => (6, 2)
  | .vdep _ _ _ _ | .vdepx _ _ _ _ _ => (10, 3)
  | .vpref _ _ _ _ | .mzero _ | .mfill _ _ _ _ _ _ => (1, 0)
  | .vamo _ _ _ _ _ _ => (16, 2)
  | .mmac _ _ _ => (12, 0)
  | .mldacc _ _ | .mdrainMemory _ _ _ _ | .mdrainRegister _ _ _ => (6, 0)
  | .vcfg _ _ _ _ _ _ _ => (0, 0)
  | _ => (3, 1)

/-- What one element of an instruction leaves behind, as a breakpoint reports it (R290). -/
inductive ElemRes where
  | none
  | reg (r : Reg)
  | first (r : Reg)
  | queue
  | pred (r : Reg)
  | load (o : VAcc) (r : Reg)
  | store (o : VAcc) (r : Reg)
  | vamo (r b : Reg)
  | drain (r : Reg)
  | drainTo (t : Reg) (m : BitVec 5)

def vecRes (i : Instr) : ElemRes :=
  match i with
  | .vid d _ _ => .reg d
  | .vsplat d _ _ _ _ => .reg d
  | .vmv d _ _ _ => .reg d
  | .vext d _ _ _ _ => .first d
  | .vlast d _ _ _ => .first d
  | .vadd d _ _ _ _ _ => .reg d
  | .vsub d _ _ _ _ _ => .reg d
  | .vmul d _ _ _ _ _ => .reg d
  | .vmulh d _ _ _ _ _ => .reg d
  | .vmac d _ _ _ _ _ => .reg d
  | .vdiv d _ _ _ _ _ => .reg d
  | .vmin d _ _ _ _ _ => .reg d
  | .vmax d _ _ _ _ _ => .reg d
  | .vand d _ _ _ _ _ => .reg d
  | .vor d _ _ _ _ _ => .reg d
  | .vxor d _ _ _ _ _ => .reg d
  | .vshl d _ _ _ _ _ => .reg d
  | .vshr d _ _ _ _ _ => .reg d
  | .vsar d _ _ _ _ _ => .reg d
  | .vsadd d _ _ _ _ _ => .reg d
  | .vfadd d _ _ _ _ _ _ => .reg d
  | .vfsub d _ _ _ _ _ _ => .reg d
  | .vfmul d _ _ _ _ _ _ => .reg d
  | .vfdiv d _ _ _ _ _ _ => .reg d
  | .vfmin d _ _ _ _ _ => .reg d
  | .vfmax d _ _ _ _ _ => .reg d
  | .vfscale d _ _ _ _ _ _ => .reg d
  | .vfsplit d _ _ _ => .reg d
  | .vfsqrt d _ _ _ _ => .reg d
  | .vfrsqe d _ _ _ => .reg d
  | .vfcvt d _ _ _ _ _ => .reg d
  | .vfclass d _ _ _ => .reg d
  | .vfma d _ _ _ _ _ => .reg d
  | .vcmp d _ _ _ _ _ _ => .pred d
  | .vfcmp d _ _ _ _ _ _ => .pred d
  | .vrsum d _ _ _ _ => .first d
  | .vrosum d _ _ _ _ => .first d
  | .vrmax d _ _ _ _ => .first d
  | .vrmin d _ _ _ _ => .first d
  | .vrlog d _ _ _ _ _ => .first d
  | .vslup d _ _ _ _ _ => .reg d
  | .vsldn d _ _ _ _ _ => .reg d
  | .vperm d _ _ _ _ => .reg d
  | .vcompr d _ _ _ => .reg d
  | .vmerge d _ _ _ _ _ => .reg d
  | .pand d _ _ _ _ => .pred d
  | .por d _ _ _ _ => .pred d
  | .pxor d _ _ _ _ => .pred d
  | .pnot d _ _ _ => .pred d
  | .pset d _ _ _ => .pred d
  | .pfirst d _ _ _ => .pred d
  | .pbrkBefore d _ _ _ => .pred d
  | .pbrkThru d _ _ _ => .pred d
  | .pcnt d _ _ _ => .first d
  | .vdep d _ _ _ => .reg d
  | .vdepx d _ _ _ _ => .reg d
  | .vpart d _ _ _ => .pred d
  | .vamul d _ _ _ _ _ => .reg d
  | .vaconj d _ _ _ _ => .reg d
  | .vaconjRev d _ _ _ _ => .reg d
  | .vanorm d _ _ _ _ => .reg d
  | .vasand d _ _ _ _ _ => .reg d
  | .vld d _ _ _ m => .load ⟨.unit, m, 0⟩ d
  | .vlds d _ _ _ _ m => .load ⟨.strided, m, 0⟩ d
  | .vldx d _ b _ _ m => .load ⟨.indexed, m, b⟩ d
  | .vldff d _ _ _ _ m => .load ⟨.unit, m, 0⟩ d
  | .vst v _ _ _ m => .store ⟨.unit, m, 0⟩ v
  | .vsts v _ _ _ _ m => .store ⟨.strided, m, 0⟩ v
  | .vstx v _ b _ _ m => .store ⟨.indexed, m, b⟩ v
  | .vldseg d _ n _ _ m => .load ⟨.seg n.toNat, m, 0⟩ d
  | .vstseg v _ n _ _ m => .store ⟨.seg n.toNat, m, 0⟩ v
  | .vamo v _ b _ _ _ => .vamo v b
  | .qpopVector d _ => .reg d
  | .vextQ _ _ _ _ _ => .queue
  | .vlastQ _ _ _ _ => .queue
  | .vrsumQ _ _ _ _ _ => .queue
  | .vrosumQ _ _ _ _ _ => .queue
  | .vrmaxQ _ _ _ _ _ => .queue
  | .vrminQ _ _ _ _ _ => .queue
  | .vrlogQ _ _ _ _ _ _ => .queue
  | .pcntQ _ _ _ _ => .queue
  | .mdrainRegister _ v _ => .drain v
  | .mdrainMemory t _ _ m => .drainTo t m
  | _ => .none

/-- The algebra table of an instruction of major 0x2C. -/
def algTable (i : Instr) : Option (BitVec 2) :=
  match i with
  | .vamul _ _ _ _ _ g => some g
  | .vaconj _ _ _ _ g => some g
  | .vaconjRev _ _ _ _ g => some g
  | .vanorm _ _ _ _ g => some g
  | .vasand _ _ _ _ _ g => some g
  | _ => none

/-- Element i is active (R65, R70): in the strip, with the bit of its predicate; that of component 0 of its algebra element (R169). -/
def elemActive (s : State) (e : VEntry) (i : Nat) : Bool :=
  let n := match algTable e.instr with
    | some g => max 1 (Alg.n (s.alg g))
    | none => 1
  decide (s.ct.vec.vstart ≤ i) && decide (i < e.vl) && s.pbit (vecPred e.instr).1.toNat (n * (i / n))

/-- An instruction that makes memory accesses in the vector stream (R201, R318). -/
def isVecMem (i : Instr) : Bool :=
  match i with
  | .vpref _ _ _ _ => false
  | .mfill _ _ _ _ _ _ => true
  | .mdrainMemory _ _ _ _ => true
  | .mcb _ _ => true
  | i =>
    match vecRes i with
    | .load _ _ => true
    | .store _ _ => true
    | .vamo _ _ => true
    | _ => false

/-- An instruction that a pre-emption can stop at an element (R71, R72, R83): the resumable ones, VAMO and QPOP apart. -/
def stoppable (i : Instr) : Bool :=
  match i with
  | .vslup _ _ _ _ _ _ | .vsldn _ _ _ _ _ _ | .vperm _ _ _ _ _ | .vcompr _ _ _ _ | .vmerge _ _ _ _ _ _ | .vdep _ _ _ _ | .vdepx _ _ _ _ _ | .qpopVector _ _ => false
  | i =>
    match vecRes i with
    | .reg _ => true
    | .load _ _ => true
    | .store _ _ => true
    | .pred _ => isCompare i
    | _ => false
where
  isCompare (i : Instr) : Bool :=
    match i with
    | .vcmp _ _ _ _ _ _ _ | .vfcmp _ _ _ _ _ _ _ => true
    | _ => false

-- ## Occupancy (R84, R146, R383)

/-- An instruction that takes the matrix array (R146). -/
def isArray (i : Instr) : Bool :=
  match i with
  | .mmac _ _ _ => true
  | .mzero _ => true
  | .mldacc _ _ => true
  | .mfill _ _ _ _ _ _ => true
  | .mdrainMemory _ _ _ _ => true
  | .mdrainRegister _ _ _ => true
  | _ => false

def isVcfg (i : Instr) : Bool :=
  match i with
  | .vcfg _ _ _ _ _ _ _ => true
  | _ => false

/-- Bytes that one element takes in a beat, and the field groups counted. -/
def beatWidth (e : VEntry) : Nat × Nat :=
  match vecRes e.instr, e.instr with
  | .load o _, _ => (max e.w (o.bytes e), o.fields)
  | .store o _, _ => (max e.w (o.bytes e), o.fields)
  | _, .vfcvt _ _ t _ _ _ => (max e.w (tyBytes t.toNat), 1)
  | _, _ => (e.w, 1)

/-- Total beats (R84); MCB counts as a load of one beat, and VCFG occupies nothing (R99). -/
def totalBeats (e : VEntry) : Nat :=
  match e.instr with
  | .mcb _ _ => 1
  | .vcfg _ _ _ _ _ _ _ => 0
  | _ => (beatWidth e).2 * ceilDiv (e.vl * (beatWidth e).1) 64

/-- The elements of beat b. -/
def beatElems (e : VEntry) (b : Nat) : List Nat :=
  let per := max 1 (64 / (beatWidth e).1)
  (List.range per).map (b * per + ·)

/-- The beats of one field group. -/
def beatList (e : VEntry) : List Nat := if isVcfg e.instr then [] else List.range (ceilDiv (e.vl * (beatWidth e).1) 64)

/-- Active beats: those with an active element. -/
def activeBeats (s : State) (e : VEntry) : Nat :=
  (beatWidth e).2 * ((beatList e).filter fun b => (beatElems e b).any (elemActive s e)).length

/-- Beats to be worked: the active ones under .dt. -/
def workBeats (s : State) (e : VEntry) : Nat := if (vecPred e.instr).2 = 1 then activeBeats s e else totalBeats e

/-- An ordered sum. -/
def isOrderedSum (i : Instr) : Bool :=
  match i with
  | .vrosum _ _ _ _ _ | .vrosumQ _ _ _ _ _ => true
  | _ => false

/-- S and c of an entry bound to b lane groups: integer reductions start sooner, and c of a floating ordered sum is scaled by b (R383). -/
def costOf (e : VEntry) (b : Nat) : Nat × Nat :=
  let k := vecCost e.instr
  if k = (10, 1) ∧ tyIsInt e.ty then (4, 1)
  else if isOrderedSum e.instr then (6, 4 * (64 / e.w) * b)
  else k

/-- Clocks of an entry bound to b lane groups, or of the array (R84, R146, R383), but for the memory latency of its first beat. -/
def occupancy (s : State) (e : VEntry) (b : Nat) : Nat :=
  match e.instr with
  | .mmac _ _ _ => 12 + e.g * ceilDiv e.vl (if e.ty = 10 then 64 else 128)
  | .mzero _ => 1
  | .mfill _ _ _ _ _ _ => 1
  | .mldacc _ _ => 6 + 2 * e.g
  | .mdrainMemory _ _ _ _ => 6 + 2 * e.g
  | .mdrainRegister _ _ _ => 6 + 2 * e.g
  | .vcfg _ _ _ _ _ _ _ => 0
  | _ => (costOf e b).1 + ceilDiv ((costOf e b).2 * workBeats s e) b

/-- The occupancy that an issue is charged (R84, R99): for a memory instruction of the lanes with the latency of its first beat, a free value (log
entry 6). -/
def occupy (e : VEntry) (b : Nat) (s : State) : Nat × State :=
  if isVecMem e.instr && !isArray e.instr then
    let (f, s1) := s.useFresh
    (occupancy s e b + (Config.timing f).toNat, s1)
  else (occupancy s e b, s)

/-- The charge of an instruction that issues alone, to all eight lane groups. -/
def issueAlone (s : State) (e : VEntry) : State :=
  let (n, s1) := occupy e 8 s
  chargeAlone s1 n

-- ## Records (R282, R283, R290)

/-- An element of an entry was performed: active, not complete before, and complete in the state after. -/
def elemDone (s0 s1 : State) (e : VEntry) (stopped : Bool) (i : Nat) : Bool :=
  elemActive s0 e i && !s0.ct.vec.pdone.getLsbD i && (!stopped || decide (i < s1.ct.vec.vstart) || s1.ct.vec.pdone.getLsbD i) &&
    (match e.instr with
     | .vldff _ _ _ p _ m => (List.range (i + 1)).all fun j => !s0.pbit p.toNat j ||
         (match loadFields ⟨.unit, m, 0⟩ none s0 e p j s0 with
          | .trap _ _ => false
          | _ => true)
     | _ => true)

/-- Active elements of an instruction that leaves one result (R350, R375, R395): element 0, and for a reduction or count the active
elements it takes in (log entry 104); for VLAST element 0 where there is an active element. -/
def firstActive (s0 : State) (e : VEntry) (i : Nat) : Bool :=
  match e.instr with
  | .vext _ _ _ _ _ => i == 0
  | .vextQ _ _ _ _ _ => i == 0
  | .vlast _ _ p _ => i == 0 && (lastActive s0 e p).isSome
  | .vlastQ _ _ p _ => i == 0 && (lastActive s0 e p).isSome
  | _ => i == 0 || elemActive s0 e i

/-- Active elements of VCOMPR: those its result fills (R348). -/
def packedCount (s0 : State) (e : VEntry) : Nat := ((List.range e.vl).filter (elemActive s0 e)).length

/-- Result bits and virtual address of an element (R290); none for an instruction or an element that has none. ef: what the instruction delivers. Where R290
leaves it open the model takes (log entry 146): of a store the element's bits in the register, whatever the memory format; of a segment the first field, and of
VFSPLIT and MDRAIN the first register group or row. -/
def elemResult (s0 s1 : State) (e : VEntry) (ef : Option Effects) (i : Nat) : Option (Nat × Word) :=
  let stopped := ef.isNone
  let got (v : Nat) (a : Word) : Option (Nat × Word) := if elemDone s0 s1 e stopped i then some (v, a) else none
  match vecRes e.instr, e.instr with
  | .none, _ => none
  | .reg d, .vcompr _ _ _ _ => if i < packedCount s0 e ∧ !stopped then some (s1.elem d.toNat e.w i, 0) else none
  | .reg d, _ => got (s1.elem d.toNat e.w i) 0
  | .first d, _ => if i < e.vl ∧ !stopped ∧ firstActive s0 e i then some (s1.elem d.toNat e.w 0, 0) else none
  | .queue, _ =>
    match ef.bind (·.deliver) with
    | some (_, v) => if i < e.vl ∧ firstActive s0 e i then some (v.toNat % 2 ^ (8 * (if isCount e.instr then 8 else e.w)), 0) else none
    | none => none
  | .pred d, _ => got (if s1.pbit d.toNat i then 1 else 0) 0
  | .load o d, _ => got (s1.elem d.toNat e.w i) (o.place s0 e i 0).1
  | .store o v, _ => got (s0.elem v.toNat e.w i) (o.place s0 e i 0).1
  | .vamo v b, _ => got (s0.elem v.toNat e.w i) (vamoAddr e (s0.elem b.toNat e.w i))
  | .drain v, _ => got (s1.elem v.toNat e.w i) 0
  | .drainTo t m, _ =>
    let ty := mfType m 0
    got (drainConv (s0.tileKind t.toNat) ty (s0.cell t.toNat 0 i)).1 (e.xa + BitVec.ofNat 64 (i * tyBytes ty))
where
  isCount (i : Instr) : Bool :=
    match i with
    | .pcntQ _ _ _ _ => true
    | _ => false

/-- The elements that had completed when element i of an indexed instruction did, it among them: in the order in which the elements, or the runs of
VAMO, perform. -/
def doneWith (s0 : State) (e : VEntry) (i : Nat) : List Nat :=
  let p := (vecPred e.instr).1
  let upTo (l : List Nat) : List Nat := l.takeWhile (· != i) ++ [i]
  match vecRes e.instr with
  | .load ⟨.indexed, _, _⟩ _ => upTo (arrange s0.sched.order e.bronze (pendingElems s0 e p))
  | .store ⟨.indexed, _, _⟩ _ => upTo (arrange s0.sched.order e.bronze (pendingElems s0 e p))
  | .vamo _ b =>
    let k := s0.elem b.toNat e.w i
    (pendingElems s0 e p).filter fun j => decide (s0.elem b.toNat e.w j ≤ k)
  | _ => []

/-- pdone as it stood when element i completed (R71, R290): ordered instructions leave it clear. -/
def pdoneAt (s0 : State) (e : VEntry) (i : Nat) : BitVec 16384 :=
  match doneWith s0 e i with
  | [] => 0
  | done =>
    let v := ((pendingElems s0 e (vecPred e.instr).1).find? fun j => !done.contains j).getD e.vl
    predOf 16384 fun j => decide (v ≤ j) && (s0.ct.vec.pdone.getLsbD j || done.contains j)

/-- The instruction word of an entry. -/
def VEntry.word (e : VEntry) : Nat := ((encode e.instr).getD 0).toNat

/-- Breakpoints of the vector stream (EEN = 1) after an entry has run from s0 to s1; ef: what it delivers, none where it stopped. -/
def elemBreaks (s0 : State) (e : VEntry) (ef : Option Effects) (s1 : State) : State :=
  if !anyBreak s1 then s1
  else
    fireBreaks s1 ((s1.el (dieOf s1.ct.lcore)).bps.toList.zipIdx.filterMap fun b =>
      if b.1.en && b.1.een && b.1.pc == e.pc then
        (elemResult s0 s1 e ef b.1.elem.toNat).map fun r =>
          ⟨b.2, b.1.dump, e.pc, e.word, b.1.elem.toNat, r.1, r.2.toNat,
            natBits (pdoneAt s0 e b.1.elem.toNat).toNat (64 * (b.1.elem.toNat / 64)) 64⟩
      else none)

/-- How a sampled entry ended. -/
inductive SampleEnd where
  | done
  | stop
  | discard
  deriving DecidableEq, Repr

/-- The beats that an entry worked (R283): all that were to be worked, those up to where it stopped, or none. -/
def beatsWorked (s0 s1 : State) (e : VEntry) (how : SampleEnd) : Nat :=
  let per := max 1 (64 / (beatWidth e).1)
  let dt := (vecPred e.instr).2 == 1
  match how with
  | .done => workBeats s0 e
  | .discard => 0
  | .stop => (beatWidth e).2 * ((beatList e).filter fun b =>
      (!dt || (beatElems e b).any (elemActive s0 e)) && (decide (b * per < s1.ct.vec.vstart) || (beatElems e b).any s1.ct.vec.pdone.getLsbD)).length

/-- Free values for n fields. -/
def freeValues : Nat → State → List Nat × State
  | 0, s => ([], s)
  | n + 1, s =>
    let (f, s1) := s.useFresh
    let (l, s2) := freeValues n s1
    ((Config.timing f).toNat :: l, s2)

/-- Cycles from the issue of an array instruction to its end (R146, R283): its occupancy, the latency of its first access, and what it waits for accumulator
rows; where it stops before its end what it had had till then, and none where it never began. -/
def arrayBusy (s0 : State) (e : VEntry) (how : SampleEnd) (till latency rows : Nat) : Nat :=
  match how with
  | .done => occupancy s0 e 1 + latency + rows
  | .stop => till
  | .discard => 0

/-- The VSAMPLE record (Table 15.5) of a sampled entry; none of one that is not sampled. The waits are free values (log entry 6); BUSY is what R283 makes of
them, and a count that overflows its field holds all ones and sets SAT. -/
def sampleFields (s0 : State) (e : VEntry) (how : SampleEnd) (short elems : Nat) (s : State) : List (Nat × Nat × Nat) × State :=
  if !e.sampled then ([], s)
  else
    let b := match e.issue with
      | some i => i.groups
      | none => 0
    let ran := how != .discard
    let mem := isVecMem e.instr
    let queue := match vecRes e.instr with
      | .queue => true
      | _ => false
    let (t, s1) := freeValues 20 s
    let v (k : Nat) : Nat := t.getD k 0
    let latency := if mem then v 1 else 0
    let startup := if ran then (costOf e b).1 + latency else 0
    let worked := beatsWorked s0 s e how
    let beats (g : Nat) : Nat := if g < b then (worked + b - 1 - g) / b else 0
    let chain (g : Nat) : Nat := if g < b ∧ ran then v (4 + g) else 0
    let port (g : Nat) : Nat := if g < b ∧ ran ∧ mem then v (12 + g) else 0
    let qwait := if queue && how == .done then v 3 else 0
    let busy :=
      if isArray e.instr then arrayBusy s0 e how (startup + v 4) latency (v 4)
      else startup + ((List.range 8).map fun g => (costOf e b).2 * beats g + chain g + port g).foldl max 0 + qwait
    let fields : List (Nat × Nat × Nat) :=
      [(0x38, 4, v 0), (0x3C, 4, startup), (0x40, 4, busy), (0x44, 4, elems)] ++ (List.range 8).map (fun g => (0x48 + 2 * g, 2, beats g)) ++
        (List.range 8).map (fun g => (0x58 + 2 * g, 2, chain g)) ++ (List.range 8).map (fun g => (0x68 + 2 * g, 2, port g)) ++
        [(0x78, 2, min (v 2) (v 0)), (0x7A, 2, qwait)]
    let sat := fields.any fun f => decide (2 ^ (8 * f.2.1) ≤ f.2.2)
    let flags := (vecPred e.instr).2.toNat + (match how with
      | .done => 0
      | .stop => 2
      | .discard => 4) + short + (if sat then 16 else 0) + (if e.reex then 32 else 0)
    ([(0x20, 8, e.pc.toNat), (0x28, 4, e.word), (0x2C, 2, e.vl), (0x2E, 2, if ran then s0.ct.vec.vstart else 0), (0x30, 2, b),
      (0x32, 2, totalBeats e), (0x34, 2, activeBeats s0 e)] ++ fields.map (fun f => (f.1, f.2.1, min f.2.2 (2 ^ (8 * f.2.1) - 1))) ++ [(0x7C, 1, flags)],
      s1)

/-- A sampled entry that stops or is discarded writes its record at once (R282). -/
def sampleRecord (s0 : State) (e : VEntry) (how : SampleEnd) (short elems : Nat) (s : State) : State :=
  let r := sampleFields s0 e how short elems s
  writeSample r.2 r.1

/-- Entries that are discarded unstarted write their records (R282). -/
def discardRecords (es : List VEntry) (s : State) : State := es.foldl (fun s x => sampleRecord s x .discard 0 0 s) s

/-- Active elements completed. -/
def elemsDone (s0 s1 : State) (e : VEntry) (stopped : Bool) : Nat := ((List.range e.vl).filter (elemDone s0 s1 e stopped)).length

/-- The SHORT flag: a VLDFF that loaded fewer than its active elements. -/
def shortFlag (s0 s1 : State) (e : VEntry) : Nat :=
  match e.instr with
  | .vldff _ _ _ p _ _ => if ((List.range e.vl).all fun i => !s0.pbit p.toNat i || decide (i < s0.ct.vec.vstart) || elemDone s0 s1 e false i) then 0 else 8
  | _ => 0

-- ## The head of the VIQ

/-- The next position of a nest, i0 fastest; none after the last. -/
def nextPos : List NestDim → List Nat → Option (List Nat)
  | d :: ds, p :: ps => if p + 1 < d.count then some ((p + 1) :: ps) else (nextPos ds ps).map (0 :: ·)
  | _, _ => none

/-- The offset of a nest position (R347). -/
def nestOffset (r : NestRun) : Word := (r.dims.zip r.pos).foldl (fun a x => a + x.1.step * BitVec.ofNat 64 x.2) 0

/-- What the vector stream can do next: an entry at an index of the VIQ, or a nest without iterations to drop. -/
inductive Head where
  | idle
  | entry (e : VEntry) (at_ : Nat)
  | emptyNest (body : Nat)

/-- The head. A body word of a nest keeps in every iteration the ISN that it took at its dispatch (R196 has the body captured once and does not speak of
the ISN, log entry 117). -/
def headOf (s : State) : Head :=
  match s.ct.vec.viq with
  | [] => .idle
  | e :: _ =>
    if !e.nested then .entry e 0
    else
      match s.ct.nest.runs with
      | [] => .idle
      | r :: _ =>
        if s.ct.vec.viq.length < r.body then .idle
        else if r.dims.any (·.count == 0) then .emptyNest r.body
        else
          match s.ct.vec.viq[r.next]? with
          | some b => .entry { b with off := nestOffset r } r.next
          | none => .idle

/-- Frees the VIQ entries of a nest whose body has ended. -/
def dropNest (s : State) (body : Nat) : State :=
  (s.onVec fun x => { x with viq := x.viq.drop body }).onCt fun t => { t with nest := { t.nest with runs := t.nest.runs.tail } }

/-- Moves past the entry at an index: frees it, or advances its nest. -/
def popHead (s : State) (e : VEntry) (at_ : Nat) : State :=
  let s1 :=
    if !e.nested then s.onVec fun x => { x with viq := x.viq.tail }
    else
      match s.ct.nest.runs with
      | [] => s
      | r :: rs =>
        let s1 := s.onVec fun x => { x with viq := x.viq.modify at_ fun b => { b with done := none, issue := none, resumed := false } }
        let put (q : NestRun) : State := s1.onCt fun t => { t with nest := { t.nest with runs := q :: rs } }
        if r.next + 1 < r.body then put { r with next := r.next + 1 }
        else
          match nextPos r.dims r.pos with
          | some p => put { r with next := 0, pos := p }
          | none => dropNest s1 r.body
  let s2 := s1.onVec fun x => { x with hold := x.hold && !x.viq.isEmpty }
  if s2.ct.ord.vvOpen && !s2.ct.vec.viq.any (isVecMem ·.instr) then s2.onOrd fun o => { o with vvOpen := false } else s2

/-- An entry completes (R71, R76, R80): its lanes are free, its flags and delivery apply, and it leaves the VIQ. -/
def completeHead (s : State) (e : VEntry) (at_ : Nat) (ef : Effects) : State := popHead (applyEffects (freeIssue s e) ef) e at_

/-- The entries that re-execute after the entry at an index. -/
def restOf (s : State) (e : VEntry) : List VEntry := if e.nested then s.ct.vec.viq else s.ct.vec.viq.tail

/-- The VIQ entries that have still to complete: in the last iteration of a nest the words before the one to run next have done so. -/
def leftEntries (s : State) : List VEntry :=
  match s.ct.nest.runs with
  | r :: _ =>
    if s.ct.vec.viq.head?.any (·.nested) && (nextPos r.dims r.pos).isNone then s.ct.vec.viq.drop r.next else s.ct.vec.viq
  | [] => s.ct.vec.viq

/-- The entries that have still to complete but for the one that stops: the words of a nest's body are all among them until its last iteration. -/
def discarded (s : State) (e : VEntry) : List VEntry :=
  match s.ct.nest.runs with
  | r :: _ => if e.nested && (nextPos r.dims r.pos).isSome then s.ct.vec.viq.eraseIdx r.next else (leftEntries s).tail
  | [] => (leftEntries s).tail

/-- Sample records of a stop: the stopped entry, and the discarded ones. -/
def stopRecords (s0 : State) (e : VEntry) (s1 : State) : State :=
  discardRecords (discarded s0 e) (sampleRecord s0 e .stop 0 (elemsDone s0 s1 e true) s1)

/-- The last execution of an entry: one outside a nest, or of the nest's last iteration. A sampled word of a nest is dispatched once and writes
one record, then (log entry 105). -/
def lastRun (s : State) (e : VEntry) : Bool :=
  !e.nested ||
    match s.ct.nest.runs with
    | r :: _ => (nextPos r.dims r.pos).isNone
    | [] => true

/-- A nest's first body word begins with VSTART = 0 (R347), unless it is resumed. -/
def nestStart (s : State) (e : VEntry) : State :=
  match s.ct.nest.runs with
  | r :: _ => if e.nested && r.next == 0 && r.pos.all (· == 0) && !e.resumed then s.onVec fun x => { x with vstart := 0, pdone := 0 } else s
  | [] => s

/-- The state in which an entry executes: at the level at which it was dispatched. -/
def atLevel (s : State) (e : VEntry) : State := (nestStart s e).onCt fun x => { x with level := e.level }

/-- An entry that has executed and may not complete yet: what it owes waits in the VIQ, and its lanes are free (R75, R99). -/
def oweHead (s : State) (e : VEntry) (at_ : Nat) (ef : Effects) : State :=
  (freeIssue s e).onVec fun x => { x with viq := x.viq.modify at_ fun b => { b with done := some ef, issue := none } }

/-- The VIQ of a task that ends is dropped, from an entry that traps on (R242). -/
def dropViq (s : State) (e : VEntry) : State :=
  ((freeIssue (discardRecords (leftEntries s) s) e).onVec fun x => { x with viq := [] }).onCt fun x => { x with nest := { x.nest with runs := [] } }

/-- The head of the VIQ executes: its records, then its completion, or what it owes until it may complete; a memory instruction with accesses open lets
younger entries execute (R81, R201). An entry of U that traps while the
thread is in S waits for the return; where the task ends it waits for the pager, or is dropped with those behind it (R242). -/
def runHead (s : State) (e : VEntry) (at_ : Nat) : Option (Host.Outcome State Fault Refusal) :=
  let back (t : State) : State := t.onCt fun x => { x with level := s.ct.level }
  let b := nestStart s e
  match vecOp e.instr (atLevel s e) e with
  | .ok ef0 s0 =>
    let s1 := back s0
    let s2 := elemBreaks b e (some ef0) s1
    let r := if lastRun s e then sampleFields b e .done (shortFlag b s1 e) (elemsDone b s1 e false) s2 else ([], s2)
    let s3 := r.2
    let ef := { ef0.withOwed e with sample := r.1 }
    if staysOpen s3 ef then some (.next (popHead (moveOwing (freeIssue s3 e) ef) e at_))
    else if mayComplete s3 ef then some (.next (completeHead s3 e at_ ef))
    else some (.next (oweHead s3 e at_ ef))
  | .trap t s0 =>
    let s1 := if e.level = .s then s0 else back s0
    if e.level = .u ∧ s.ct.level ≠ .u then
      if s.ct.ctl.wait = .ending ∧ !pagerFault s t then some (.next (dropViq s1 e)) else none
    else some (vectorTrap (freeIssue (stopRecords b e (elemBreaks b e none s1)) e) e (restOf s e) t)
  | .wait _ _ => none
  | .gone s1 => some (.next ((back s1).onCtl fun c => { c with contain := true }))

-- ## The arbiters (R99)

/-- The weight and the minimum of a control thread (R107). -/
def weightOf (t : Thread) : Nat := t.task.share
def minimumOf (t : Thread) : Nat := t.task.minlg

/-- An entry can issue: its operation does not wait (R99). -/
def canIssue (s : State) (e : VEntry) : Bool :=
  match vecOp e.instr (atLevel s e) e with
  | .wait _ _ => false
  | _ => true

/-- An entry that still has to issue; VCFG takes neither lane groups nor the array. -/
def unissued (e : VEntry) : Bool := e.issue.isNone && e.done.isNone && !isVcfg e.instr

/-- The head entry of a control thread that can issue and has not. -/
def issuable (s : State) (t : Thread) : Option VEntry :=
  if t.status ≠ .running ∨ t.vec.stopped.isSome then none
  else
    let s1 := s.switchTo t.lcore t.ctno
    match headOf s1 with
    | .entry e _ => if unissued e && canIssue s1 e then some e else none
    | _ => none

def addDeficit (t : Thread) (i : Int) : Thread := { t with ctl := { t.ctl with deficit := clampDef (t.ctl.deficit + i) } }

/-- The control threads of a core in order of number. -/
def coreThreads (s : State) (core : Nat) : List Thread := (List.range 4).map fun n => s.thread core n

/-- The ready control thread with the largest DEF, ties to the lower number. -/
def bestReady : List Thread → Option Thread
  | [] => none
  | t :: r =>
    match bestReady r with
    | none => some t
    | some u => if u.ctl.deficit ≤ t.ctl.deficit then some t else some u

/-- Marks the head of a control thread as issued. -/
def markIssue (s : State) (t : Thread) (i : Issue) : State :=
  s.asThread t.lcore t.ctno fun s =>
    match headOf s with
    | .entry _ at_ => s.onVec fun x => { x with viq := x.viq.modify at_ fun b => { b with issue := some i } }
    | _ => s

/-- One clock of a core's arbiter. array: the matrix array's arbiter, else the lane arbiter. -/
def arbitrate (s : State) (core : Nat) (array : Bool) : State :=
  let ready (s : State) := (coreThreads s core).filter fun t => (issuable s t).isSome
  let rs := ready s
  let s1 := if array then s else rs.foldl (fun s t => s.putThread (addDeficit t (weightOf t))) s
  let total := rs.foldl (fun a t => a + weightOf t) 0
  let fit := (ready s1).filter fun t =>
    match issuable s1 t with
    | some e => isArray e.instr == array
    | none => false
  match bestReady fit with
  | none => s1
  | some t =>
    match issuable s1 t with
    | none => s1
    | some e =>
      let share := max (minimumOf t) (8 * weightOf t / max 1 total)
      let free := (s1.core core).freeLanes
      if array then
        if (s1.core core).arrayBusy then s1
        else
          let b := min 8 share
          let (occ, s1) := clocksOf s1 t e b
          let s2 := s1.putThread (addDeficit t (-(b * occ : Nat)))
          (markIssue s2 t ⟨0, true, occ⟩).onCore core fun k => { k with arrayBusy := true }
      else if free < minimumOf t ∨ free = 0 then s1
      else
        let b := min free share
        let (occ, s1) := clocksOf s1 t e b
        let s2 := s1.putThread (addDeficit t (-(b * occ : Nat)))
        (markIssue s2 t ⟨b, false, occ⟩).onCore core fun k => { k with freeLanes := k.freeLanes - b }
where
  clocksOf (s : State) (t : Thread) (e : VEntry) (b : Nat) : Nat × State :=
    ((occupy e b (s.switchTo t.lcore t.ctno)).1, (occupy e b s).2)

/-- One clock of both arbiters of a core. -/
def arbiterClock (s : State) (core : Nat) : State := arbitrate (arbitrate s core false) core true

/-- The step of the head of the VIQ; none where there is none or it waits (R75). The head issues before it runs: while the arbiters of its core give their
clock to another thread, that is the step (R99). -/
def headStep (s : State) : Option (Host.Outcome State Fault Refusal) :=
  match headOf s with
  | .idle => none
  | .emptyNest body =>
    some (.next ((dropNest (discardRecords (s.ct.vec.viq.take body) s) body).onVec fun x => { x with hold := x.hold && !x.viq.isEmpty }))
  | .entry e at_ =>
    match e.done with
    | some ef => if mayComplete s ef then some (.next (completeHead s e at_ ef)) else none
    | none =>
      if unissued e then
        if canIssue s e then
          let s1 := arbiterClock s s.ct.lcore
          match headOf s1 with
          | .entry e1 at1 => if e1.issue.isSome then runHead s1 e1 at1 else if s1.cores = s.cores then none else some (.next s1)
          | _ => none
        else none
      else runHead s e at_

/-- One step of the vector stream of the acting control thread: of the head of the VIQ, or of what has executed before it and owes its completion (R201). -/
def vectorStep (s : State) : Option (Host.Outcome State Fault Refusal) := (headStep s).or ((owingStep s).map .next)

/-- The head of the VIQ once it has issued: where it has not, the arbiters of its core have a clock for it (R99). -/
def issueHead (s : State) : State :=
  match headOf s with
  | .entry e _ => if unissued e then arbiterClock s s.ct.lcore else s
  | _ => s

/-- A pre-emption stops the head of the VIQ at an element, or after a number of elements of an indexed form (R71, R83, R107): what has retired
stays, the instruction and the entries behind it are kept. Where it has not issued, would not get so far, or ends before, nothing is done. -/
def cutHead (s0 : State) (k : Nat) : State :=
  let s := issueHead s0
  match headOf s with
  | .entry e _ =>
    if !stoppable e.instr || e.issue.isNone || e.done.isSome || e.level != .u then s0
    else
      match vecOp e.instr (atLevel s e) { e with stop := some k } with
      | .trap t s1 =>
        let b := nestStart s e
        if t.code = Code.preempt then stopVector (freeIssue (stopRecords b e (elemBreaks b e none s1)) e) e (restOf s e) t.owed
        else s0
      | _ => s0
  | _ => s0

/-- LANE_ISSUE: one clock of a core's lane arbiter. -/
def execLaneIssue (core : Nat) (s : State) : Host.Outcome State Fault Refusal := .next (arbitrate s core false)

/-- ARRAY_ISSUE: the matrix array of a core is granted. -/
def execArrayIssue (core : Nat) (s : State) : Host.Outcome State Fault Refusal := .next (arbitrate s core true)

/-- Changes the acting thread back after a step of another. -/
def backTo (core ctno : Nat) (o : Host.Outcome State Fault Refusal) : Host.Outcome State Fault Refusal :=
  match o with
  | .next s => .next (s.switchTo core ctno)
  | o => o

-- ## The meanings of the vector instructions

/-- Dispatches a vector instruction (R79): what it captures, the ISN it takes, and its operation. -/
def vector (pr : Profile) (i : Instr) (s : State) : Host.Outcome State Fault Refusal :=
  let r := vecRegs i
  dispatch pr s (capture s i r.1 r.2.1 r.2.2.1 r.2.2.2) (vecRound i s.ct.vec.vcfg.ty) issueAlone (vecOp i)

/-- VCFG (R61, R368): VL, VCFG and x[D] change at dispatch; VSTART and pdone in VIQ order. -/
def execVcfg (d a : Reg) (e : BitVec 4) (g t : BitVec 2) (m : BitVec 1) (sc : BitVec 3) (s : State) : Host.Outcome State Fault Refusal :=
  let c := vcfgOf e g t m sc
  withProfile .lv s
    (if s.immediate && !observed s then .next (applyEffects (setVcfg s d a c) Effects.none).advance
     else
      match enqueue s (capture s (.vcfg d a e g t m sc) 0 a 0 0) none with
      | some s1 => .next (setVcfg s1 d a c)
      | none => .next (s.waitFor .viqFull))

def execVid (d : Reg) (p : BitVec 3) (z : BitVec 1) (s : State) : Host.Outcome State Fault Refusal := vector .lv (.vid d p z) s
def execVsplat (d b : Reg) (p : BitVec 3) (z : BitVec 1) (f : BitVec 2) (s : State) : Host.Outcome State Fault Refusal := vector .lv (.vsplat d b p z f) s
def execVmv (d a : Reg) (p : BitVec 3) (z : BitVec 1) (s : State) : Host.Outcome State Fault Refusal := vector .lv (.vmv d a p z) s
def execVext (d a b : Reg) (z : BitVec 1) (f : BitVec 2) (s : State) : Host.Outcome State Fault Refusal := vector .lv (.vext d a b z f) s
def execVlast (d a : Reg) (p : BitVec 3) (z : BitVec 1) (s : State) : Host.Outcome State Fault Refusal := vector .lv (.vlast d a p z) s
def execVextQ (q a b : Reg) (z : BitVec 1) (f : BitVec 2) (s : State) : Host.Outcome State Fault Refusal := vector .lv (.vextQ q a b z f) s
def execVlastQ (q a : Reg) (p : BitVec 3) (z : BitVec 1) (s : State) : Host.Outcome State Fault Refusal := vector .lv (.vlastQ q a p z) s
def execVadd (d a b : Reg) (p : BitVec 3) (z : BitVec 1) (f : BitVec 2) (s : State) : Host.Outcome State Fault Refusal := vector .lv (.vadd d a b p z f) s
def execVsub (d a b : Reg) (p : BitVec 3) (z : BitVec 1) (f : BitVec 2) (s : State) : Host.Outcome State Fault Refusal := vector .lv (.vsub d a b p z f) s
def execVmul (d a b : Reg) (p : BitVec 3) (z : BitVec 1) (f : BitVec 2) (s : State) : Host.Outcome State Fault Refusal := vector .lv (.vmul d a b p z f) s
def execVmulh (d a b : Reg) (p : BitVec 3) (z : BitVec 1) (f : BitVec 2) (s : State) : Host.Outcome State Fault Refusal := vector .lv (.vmulh d a b p z f) s
def execVmac (d a b : Reg) (p : BitVec 3) (z : BitVec 1) (f : BitVec 2) (s : State) : Host.Outcome State Fault Refusal := vector .lv (.vmac d a b p z f) s
def execVdiv (d a b : Reg) (p : BitVec 3) (z : BitVec 1) (f : BitVec 2) (s : State) : Host.Outcome State Fault Refusal := vector .lv (.vdiv d a b p z f) s
def execVmin (d a b : Reg) (p : BitVec 3) (z : BitVec 1) (f : BitVec 2) (s : State) : Host.Outcome State Fault Refusal := vector .lv (.vmin d a b p z f) s
def execVmax (d a b : Reg) (p : BitVec 3) (z : BitVec 1) (f : BitVec 2) (s : State) : Host.Outcome State Fault Refusal := vector .lv (.vmax d a b p z f) s
def execVand (d a b : Reg) (p : BitVec 3) (z : BitVec 1) (f : BitVec 2) (s : State) : Host.Outcome State Fault Refusal := vector .lv (.vand d a b p z f) s
def execVor (d a b : Reg) (p : BitVec 3) (z : BitVec 1) (f : BitVec 2) (s : State) : Host.Outcome State Fault Refusal := vector .lv (.vor d a b p z f) s
def execVxor (d a b : Reg) (p : BitVec 3) (z : BitVec 1) (f : BitVec 2) (s : State) : Host.Outcome State Fault Refusal := vector .lv (.vxor d a b p z f) s
def execVshl (d a b : Reg) (p : BitVec 3) (z : BitVec 1) (f : BitVec 2) (s : State) : Host.Outcome State Fault Refusal := vector .lv (.vshl d a b p z f) s
def execVshr (d a b : Reg) (p : BitVec 3) (z : BitVec 1) (f : BitVec 2) (s : State) : Host.Outcome State Fault Refusal := vector .lv (.vshr d a b p z f) s
def execVsar (d a b : Reg) (p : BitVec 3) (z : BitVec 1) (f : BitVec 2) (s : State) : Host.Outcome State Fault Refusal := vector .lv (.vsar d a b p z f) s
def execVsadd (d a b : Reg) (p : BitVec 3) (z : BitVec 1) (f : BitVec 2) (s : State) : Host.Outcome State Fault Refusal := vector .lv (.vsadd d a b p z f) s
def execVfadd (d a b : Reg) (p : BitVec 3) (z : BitVec 1) (f : BitVec 2) (r : BitVec 3) (s : State) : Host.Outcome State Fault Refusal := vector .lv (.vfadd d a b p z f r) s
def execVfsub (d a b : Reg) (p : BitVec 3) (z : BitVec 1) (f : BitVec 2) (r : BitVec 3) (s : State) : Host.Outcome State Fault Refusal := vector .lv (.vfsub d a b p z f r) s
def execVfmul (d a b : Reg) (p : BitVec 3) (z : BitVec 1) (f : BitVec 2) (r : BitVec 3) (s : State) : Host.Outcome State Fault Refusal := vector .lv (.vfmul d a b p z f r) s
def execVfdiv (d a b : Reg) (p : BitVec 3) (z : BitVec 1) (f : BitVec 2) (r : BitVec 3) (s : State) : Host.Outcome State Fault Refusal := vector .lv (.vfdiv d a b p z f r) s
def execVfmin (d a b : Reg) (p : BitVec 3) (z : BitVec 1) (f : BitVec 2) (s : State) : Host.Outcome State Fault Refusal := vector .lv (.vfmin d a b p z f) s
def execVfmax (d a b : Reg) (p : BitVec 3) (z : BitVec 1) (f : BitVec 2) (s : State) : Host.Outcome State Fault Refusal := vector .lv (.vfmax d a b p z f) s
def execVfscale (d a b : Reg) (p : BitVec 3) (z : BitVec 1) (f : BitVec 2) (r : BitVec 3) (s : State) : Host.Outcome State Fault Refusal := vector .lv (.vfscale d a b p z f r) s
def execVfsplit (d a : Reg) (p : BitVec 3) (z : BitVec 1) (s : State) : Host.Outcome State Fault Refusal := vector .lv (.vfsplit d a p z) s
def execVfsqrt (d a : Reg) (p : BitVec 3) (z : BitVec 1) (r : BitVec 3) (s : State) : Host.Outcome State Fault Refusal := vector .lv (.vfsqrt d a p z r) s
def execVfrsqe (d a : Reg) (p : BitVec 3) (z : BitVec 1) (s : State) : Host.Outcome State Fault Refusal := vector .lv (.vfrsqe d a p z) s
def execVfcvt (d a : Reg) (t : BitVec 5) (p : BitVec 3) (z : BitVec 1) (r : BitVec 3) (s : State) : Host.Outcome State Fault Refusal := vector .lv (.vfcvt d a t p z r) s
def execVfclass (d a : Reg) (p : BitVec 3) (z : BitVec 1) (s : State) : Host.Outcome State Fault Refusal := vector .lv (.vfclass d a p z) s
def execVfma (d a b c : Reg) (p r : BitVec 3) (s : State) : Host.Outcome State Fault Refusal := vector .lv (.vfma d a b c p r) s
def execVcmp (d a b : Reg) (p : BitVec 3) (z : BitVec 1) (f : BitVec 2) (c : BitVec 4) (s : State) : Host.Outcome State Fault Refusal := vector .lv (.vcmp d a b p z f c) s
def execVfcmp (d a b : Reg) (p : BitVec 3) (z : BitVec 1) (f : BitVec 2) (c : BitVec 4) (s : State) : Host.Outcome State Fault Refusal := vector .lv (.vfcmp d a b p z f c) s
def execVrsum (d a b : Reg) (p : BitVec 3) (z : BitVec 1) (s : State) : Host.Outcome State Fault Refusal := vector .lv (.vrsum d a b p z) s
def execVrosum (d a b : Reg) (p : BitVec 3) (z : BitVec 1) (s : State) : Host.Outcome State Fault Refusal := vector .lv (.vrosum d a b p z) s
def execVrmax (d a b : Reg) (p : BitVec 3) (z : BitVec 1) (s : State) : Host.Outcome State Fault Refusal := vector .lv (.vrmax d a b p z) s
def execVrmin (d a b : Reg) (p : BitVec 3) (z : BitVec 1) (s : State) : Host.Outcome State Fault Refusal := vector .lv (.vrmin d a b p z) s
def execVrlog (d a b : Reg) (p : BitVec 3) (z : BitVec 1) (k : BitVec 2) (s : State) : Host.Outcome State Fault Refusal := vector .lv (.vrlog d a b p z k) s
def execVrsumQ (q a b : Reg) (p : BitVec 3) (z : BitVec 1) (s : State) : Host.Outcome State Fault Refusal := vector .lv (.vrsumQ q a b p z) s
def execVrosumQ (q a b : Reg) (p : BitVec 3) (z : BitVec 1) (s : State) : Host.Outcome State Fault Refusal := vector .lv (.vrosumQ q a b p z) s
def execVrmaxQ (q a b : Reg) (p : BitVec 3) (z : BitVec 1) (s : State) : Host.Outcome State Fault Refusal := vector .lv (.vrmaxQ q a b p z) s
def execVrminQ (q a b : Reg) (p : BitVec 3) (z : BitVec 1) (s : State) : Host.Outcome State Fault Refusal := vector .lv (.vrminQ q a b p z) s
def execVrlogQ (q a b : Reg) (p : BitVec 3) (z : BitVec 1) (k : BitVec 2) (s : State) : Host.Outcome State Fault Refusal := vector .lv (.vrlogQ q a b p z k) s
def execVslup (d a b : Reg) (p : BitVec 3) (z : BitVec 1) (f : BitVec 2) (s : State) : Host.Outcome State Fault Refusal := vector .lv (.vslup d a b p z f) s
def execVsldn (d a b : Reg) (p : BitVec 3) (z : BitVec 1) (f : BitVec 2) (s : State) : Host.Outcome State Fault Refusal := vector .lv (.vsldn d a b p z f) s
def execVperm (d a b : Reg) (p : BitVec 3) (z : BitVec 1) (s : State) : Host.Outcome State Fault Refusal := vector .lv (.vperm d a b p z) s
def execVcompr (d a : Reg) (p : BitVec 3) (z : BitVec 1) (s : State) : Host.Outcome State Fault Refusal := vector .lv (.vcompr d a p z) s
def execVmerge (d a b : Reg) (p : BitVec 3) (z : BitVec 1) (f : BitVec 2) (s : State) : Host.Outcome State Fault Refusal := vector .lv (.vmerge d a b p z f) s
def execPand (d a b : Reg) (p : BitVec 3) (z : BitVec 1) (s : State) : Host.Outcome State Fault Refusal := vector .lv (.pand d a b p z) s
def execPor (d a b : Reg) (p : BitVec 3) (z : BitVec 1) (s : State) : Host.Outcome State Fault Refusal := vector .lv (.por d a b p z) s
def execPxor (d a b : Reg) (p : BitVec 3) (z : BitVec 1) (s : State) : Host.Outcome State Fault Refusal := vector .lv (.pxor d a b p z) s
def execPnot (d a : Reg) (p : BitVec 3) (z : BitVec 1) (s : State) : Host.Outcome State Fault Refusal := vector .lv (.pnot d a p z) s
def execPset (d b : Reg) (p : BitVec 3) (z : BitVec 1) (s : State) : Host.Outcome State Fault Refusal := vector .lv (.pset d b p z) s
def execPfirst (d a : Reg) (p : BitVec 3) (z : BitVec 1) (s : State) : Host.Outcome State Fault Refusal := vector .lv (.pfirst d a p z) s
def execPbrkBefore (d a : Reg) (p : BitVec 3) (z : BitVec 1) (s : State) : Host.Outcome State Fault Refusal := vector .lv (.pbrkBefore d a p z) s
def execPbrkThru (d a : Reg) (p : BitVec 3) (z : BitVec 1) (s : State) : Host.Outcome State Fault Refusal := vector .lv (.pbrkThru d a p z) s
def execPcnt (d a : Reg) (p : BitVec 3) (z : BitVec 1) (s : State) : Host.Outcome State Fault Refusal := vector .lv (.pcnt d a p z) s
def execPcntQ (q a : Reg) (p : BitVec 3) (z : BitVec 1) (s : State) : Host.Outcome State Fault Refusal := vector .lv (.pcntQ q a p z) s
def execVdep (d a : Reg) (p : BitVec 3) (z : BitVec 1) (s : State) : Host.Outcome State Fault Refusal := vector .lv (.vdep d a p z) s
def execVdepx (d a b : Reg) (p : BitVec 3) (z : BitVec 1) (s : State) : Host.Outcome State Fault Refusal := vector .lv (.vdepx d a b p z) s
def execVpart (d a b : Reg) (z : BitVec 1) (s : State) : Host.Outcome State Fault Refusal := vector .lv (.vpart d a b z) s
def execVamul (d a b : Reg) (p : BitVec 3) (z : BitVec 1) (g : BitVec 2) (s : State) : Host.Outcome State Fault Refusal := vector .la (.vamul d a b p z g) s
def execVaconj (d a : Reg) (p : BitVec 3) (z : BitVec 1) (g : BitVec 2) (s : State) : Host.Outcome State Fault Refusal := vector .la (.vaconj d a p z g) s
def execVaconjRev (d a : Reg) (p : BitVec 3) (z : BitVec 1) (g : BitVec 2) (s : State) : Host.Outcome State Fault Refusal := vector .la (.vaconjRev d a p z g) s
def execVanorm (d a : Reg) (p : BitVec 3) (z : BitVec 1) (g : BitVec 2) (s : State) : Host.Outcome State Fault Refusal := vector .la (.vanorm d a p z g) s
def execVasand (d a b : Reg) (p : BitVec 3) (z : BitVec 1) (g : BitVec 2) (s : State) : Host.Outcome State Fault Refusal := vector .la (.vasand d a b p z g) s
def execVld (d a : Reg) (p : BitVec 3) (z : BitVec 1) (m : BitVec 5) (s : State) : Host.Outcome State Fault Refusal := vector .lv (.vld d a p z m) s
def execVlds (d a b : Reg) (p : BitVec 3) (z : BitVec 1) (m : BitVec 5) (s : State) : Host.Outcome State Fault Refusal := vector .lv (.vlds d a b p z m) s
def execVldx (d a b : Reg) (p : BitVec 3) (z : BitVec 1) (m : BitVec 5) (s : State) : Host.Outcome State Fault Refusal := vector .lv (.vldx d a b p z m) s
def execVldff (d a b : Reg) (p : BitVec 3) (z : BitVec 1) (m : BitVec 5) (s : State) : Host.Outcome State Fault Refusal := vector .lv (.vldff d a b p z m) s
def execVst (v a : Reg) (p : BitVec 3) (z : BitVec 1) (m : BitVec 5) (s : State) : Host.Outcome State Fault Refusal := vector .lv (.vst v a p z m) s
def execVsts (v a b : Reg) (p : BitVec 3) (z : BitVec 1) (m : BitVec 5) (s : State) : Host.Outcome State Fault Refusal := vector .lv (.vsts v a b p z m) s
def execVstx (v a b : Reg) (p : BitVec 3) (z : BitVec 1) (m : BitVec 5) (s : State) : Host.Outcome State Fault Refusal := vector .lv (.vstx v a b p z m) s
def execVpref (a : Reg) (p : BitVec 3) (z : BitVec 1) (m : BitVec 5) (s : State) : Host.Outcome State Fault Refusal := vector .lv (.vpref a p z m) s
def execVldseg (d a n : Reg) (p : BitVec 3) (z : BitVec 1) (m : BitVec 5) (s : State) : Host.Outcome State Fault Refusal := vector .lv (.vldseg d a n p z m) s
def execVstseg (v a n : Reg) (p : BitVec 3) (z : BitVec 1) (m : BitVec 5) (s : State) : Host.Outcome State Fault Refusal := vector .lv (.vstseg v a n p z m) s
def execVamo (v a b c : Reg) (p o : BitVec 3) (s : State) : Host.Outcome State Fault Refusal := vector .lv (.vamo v a b c p o) s
def execMmac (t a b : Reg) (s : State) : Host.Outcome State Fault Refusal := vector .lm (.mmac t a b) s
def execMzero (t : Reg) (s : State) : Host.Outcome State Fault Refusal := vector .lm (.mzero t) s
def execMldacc (t a : Reg) (s : State) : Host.Outcome State Fault Refusal := vector .lm (.mldacc t a) s
def execMcb (c a : Reg) (s : State) : Host.Outcome State Fault Refusal := vector .lm (.mcb c a) s
def execMfill (d a : Reg) (m : BitVec 5) (e : BitVec 1) (g : BitVec 2) (sd : BitVec 1) (s : State) : Host.Outcome State Fault Refusal := if e == 1 then withProfile .la s (vector .lm (.mfill d a m e g sd) s) else vector .lm (.mfill d a m e g sd) s
def execMdrainMemory (t a b : Reg) (m : BitVec 5) (s : State) : Host.Outcome State Fault Refusal := vector .lm (.mdrainMemory t a b m) s
def execMdrainRegister (t v : Reg) (m : BitVec 5) (s : State) : Host.Outcome State Fault Refusal := vector .lm (.mdrainRegister t v m) s
def execQpopVector (d q : Reg) (s : State) : Host.Outcome State Fault Refusal := vector .lv (.qpopVector d q) s

end Sys2Proof.Machine
end

