-- ==== Sys2Proof/Machine/Chunks.lean ====
section
/-!
DEFINITION. Launches, chunks and deques (R90 to R97): error records (R267), the completion of chunks and launches, the deques and their spill areas, and the dealing of chunks (R94, R95).
-/

namespace Sys2Proof.Machine

-- ## Launches and chunks

def State.launch (s : State) (id : Nat) : Option Launch := s.pkg.launches.find? (·.id == id)
def State.onLaunch (s : State) (id : Nat) (f : Launch → Launch) : State :=
  s.onPkg fun p => { p with launches := p.launches.map fun l => if l.id = id then f l else l }
def State.chunk (s : State) (id : Nat) : Option Chunk := s.pkg.chunks.find? (·.id == id)
def State.onChunk (s : State) (id : Nat) (f : Chunk → Chunk) : State :=
  s.onPkg fun p => { p with chunks := p.chunks.map fun c => if c.id = id then f c else c }

/-- The master distributor's die (R94): the lowest-numbered die that is ready and not fenced. -/
def masterDie (s : State) : Option Nat := (List.range 4).find? fun d => (s.die d).ready && !(s.die d).fenced

/-- Writes an error record and then the count (R267). -/
def landError (s : State) (d elog elsize : Nat) (e : ErrRec) : State :=
  let (n, s1) := readPhys s d elog 8
  let body := [(0x00, 8, e.task), (0x08, 8, e.seq), (0x10, 8, e.scause), (0x18, 8, e.sepc), (0x20, 8, e.sfva), (0x28, 8, e.index),
    (0x30, 2, e.lcore), (0x32, 1, e.code)]
  landPhys (landPhys s1 d (elog + 64 + 64 * (n % max 1 elsize)) ((recordBytes body).take 64)) d elog (toBytes 8 (n + 1))

/-- The addresses of an error log whose devices must be in use: its count and its records. -/
def logInUse (s : State) (elog elsize : Nat) : Bool := (List.range (max 1 elsize + 1)).all fun i => s.inUse (elog + 64 * i)

/-- Writes an error record from die d (R267), or keeps it until the log's devices are trained (R273); with ELOG = 0 there is none. -/
def errorRecord (s : State) (d elog elsize : Nat) (e : ErrRec) : State :=
  if elog = 0 then s
  else if s.answers elog && !logInUse s elog elsize then s.onPkg fun p => { p with owed := p.owed ++ [.error d elog elsize e] }
  else landError s d elog elsize e

/-- What waited for a device that is now trained goes on, in order. -/
def payOwed (s : State) : State :=
  s.pkg.owed.foldl (fun s o =>
    match o with
    | .write d pa bs => writePhys s d pa bs
    | .error d elog elsize e => errorRecord s d elog elsize e) (s.onPkg fun p => { p with owed := [] })

/-- Writes a LAUNCH record on the master's die (R286). -/
def launchRecord (s : State) (l : Launch) (word : Nat) : State :=
  match masterDie s with
  | some d => produce s d 0x08 Source.none [(0x20, 8, l.seq.toNat), (0x28, 8, l.queue), (0x30, 8, l.count), (0x38, 8, word)]
  | none => s

namespace Launched
abbrev done : Nat := 0x01
abbrev format : Nat := 0x02
abbrev contain : Nat := 0x0F
abbrev resource : Nat := 0x13
end Launched

/-- A launch ends with a status (R91): the completion word at DONE, a LAUNCH record, and its ring channels are free again (R106). -/
def finishLaunch (s : State) (id status : Nat) : State :=
  match s.launch id with
  | none => s
  | some l =>
    let s1 := (s.onLaunch id fun l => { l with ended := true }).onPkg fun p => { p with allot := p.allot.filter fun a => a.2.1 != id }
    if l.done = 0 then s1
    else
      let word := status + 256 * (l.complete % 2 ^ 56)
      launchRecord (writePhys s1 ((masterDie s1).getD 0) l.done.toNat (toBytes 8 word)) l word

/-- A launch ends when its last chunk is recorded complete, or, after a containment, when the chunks that still run have ended (R95). -/
def checkLaunch (s : State) (id : Nat) : State :=
  match s.launch id with
  | none => s
  | some l =>
    if l.ended then s
    else if l.contained then
      if (s.pkg.chunks.filter fun c => c.launch == id).all (·.complete) then finishLaunch s id Launched.contain else s
    else if l.dealt = l.count ∧ (s.pkg.chunks.filter fun c => c.launch == id).all (·.complete) then finishLaunch s id Launched.done
    else s

/-- A distributor's packets to every other die (R280). -/
def tellDies (s : State) (d : Nat) : State := ((List.range 4).filter (· != d)).foldl (fun s o => packet s d o) s

/-- A chunk whose count of live tasks is back at zero with no instance left to start is recorded complete, by the distributor of die d and then by
every other (R92). -/
def checkChunk (s : State) (d id : Nat) : State :=
  match s.chunk id with
  | none => s
  | some c =>
    if c.complete || c.live != 0 || c.unstarted != 0 then s
    else
      checkLaunch (((tellDies s d).onChunk id fun c => { c with complete := true }).onLaunch c.launch fun l => { l with complete := l.complete + c.n }) c.launch

/-- Adds a live task to a chunk, or subtracts one (R92). -/
def chunkAdd (s : State) (c : Option Nat) : State :=
  match c with
  | some id => s.onChunk id fun c => { c with live := c.live + 1 }
  | none => s

def chunkSub (s : State) (d : Nat) (c : Option Nat) : State :=
  match c with
  | some id => checkChunk (s.onChunk id fun c => { c with live := c.live - 1 }) d id
  | none => s

/-- The launch of a chunk. -/
def launchOf (s : State) (c : Option Nat) : Option Nat := (c.bind s.chunk).map (·.launch)

/-- The error log of a launch. -/
def elogOf (s : State) (l : Option Nat) : Nat × Nat :=
  match l.bind s.launch with
  | some x => (x.elog, x.elsize)
  | none => (0, 1)

-- ## Deques (R96)

/-- Entries of a core's deques held in hardware, and in the spill area. -/
def hwCount (k : Core) : Nat := (k.deques.toList.flatMap fun d => d.filter fun e => !e.spilled).length
def spilledCount (k : Core) : Nat := (k.deques.toList.flatMap fun d => d.filter fun e => e.spilled).length

/-- The 32 oldest hardware entries move to the spill area. -/
def spillOldest (k : Core) : Core :=
  let born := sortBy (fun a b => decide (a ≤ b)) (k.deques.toList.flatMap fun d => (d.filter fun e => !e.spilled).map (·.born))
  let old := born.take Config.spillCount
  { k with deques := k.deques.map fun d => d.map fun e => if old.contains e.born then { e with spilled := true } else e }

/-- A push would spill into a full spill area. -/
def pushBlocked (s : State) (core : Nat) : Bool :=
  decide (Config.dequeDepth ≤ hwCount (s.core core)) &&
    decide ((s.core core).spillCap < spilledCount (s.core core) + Config.spillCount)

/-- Pushes at the bottom of a class, spilling first where all 64 entries are in use. -/
def pushEntry (s : State) (core cls : Nat) (w : Startable) (pin : Bool) : State :=
  let s1 := if Config.dequeDepth ≤ hwCount (s.core core) then s.onCore core spillOldest else s
  (s1.onCore core fun k => { k with deques := k.deques.setIfInBounds cls (k.deques.toList.getD cls [] ++ [⟨w, pin, false, s1.pkg.idCtr⟩]) }).onPkg
    fun p => { p with idCtr := p.idCtr + 1 }

/-- A push that no instruction makes: Korier extends a full spill area (log entry 14). -/
def pushAlone (s : State) (core cls : Nat) (w : Startable) (pin : Bool) : State :=
  let s1 := if pushBlocked s core then s.onCore core fun k => { k with spillCap := k.spillCap + Config.spillCount } else s
  pushEntry s1 core cls w pin

/-- A logical core that has reported ready and is not fenced. -/
def State.coreReady (s : State) (core : Nat) : Bool :=
  s.pkg.ready.cores.getLsbD core && !s.pkg.fencedCores.contains core && !s.dieFenced (dieOf core)

/-- The fields of CTL (Table 4.2). -/
structure Ctl where
  prio : Nat
  profset : Nat
  slot : Nat
  share : Nat
  minlg : Nat
  vceil : Nat
  accmin : Nat
  accwant : Nat
  stash : Nat
  group : Nat
  join : Nat
  cont : Int
  deriving DecidableEq, Repr

def Ctl.parse (c : Nat) : Ctl where
  prio := natBits c 62 2
  profset := natBits c 58 4
  slot := natBits c 55 3
  share := natBits c 52 3 + 1
  minlg := natBits c 49 3 + 1
  vceil := 256 * 2 ^ natBits c 46 3
  accmin := natBits c 42 4
  accwant := natBits c 38 4
  stash := natBits c 34 4
  group := natBits c 22 12
  join := natBits c 16 6
  cont := toSigned 16 c

-- ## Dealing chunks (R94)

/-- The key of a core in the cycle of ready cores. -/
def cycleKey (core : Nat) : Nat := core % 32 * 4 + dieOf core

/-- Ready cores in the order of the cycle. -/
def cycleOf (s : State) : List Nat := sortBy (fun a b => decide (cycleKey a ≤ cycleKey b)) ((List.range 128).filter s.coreReady)

/-- The core at the next position of a launch's cycle. -/
def nextCore (s : State) (l : Launch) : Option Nat :=
  let c := cycleOf s
  match c.find? fun k => decide (l.cyclePos ≤ cycleKey k) with
  | some k => some k
  | none => c.head?

/-- The class of the record that a start record embeds. -/
def launchPrio (l : Launch) : Nat := (Ctl.parse l.ctl.toNat).prio

/-- Places a chunk as one range entry on the deque of a core; the master sends it to the core's die. -/
def placeChunk (s : State) (l : Launch) (c : Chunk) (core : Nat) : State :=
  let s0 := match masterDie s with
    | some m => packet s m (dieOf core)
    | none => s
  let s1 := (s0.onChunk c.id fun c => { c with core := core, unstarted := c.n }).onLaunch l.id fun l => { l with cyclePos := cycleKey core + 1 }
  pushAlone s1 core (launchPrio l) (.range c.id c.lo c.n) false

/-- Deals a chunk again whole (R95), or leaves it to the next deal where no core is ready (core 128 stands for none). -/
def redeal (s : State) (id : Nat) : State :=
  match s.chunk id with
  | none => s
  | some c =>
    match s.launch c.launch with
    | none => s
    | some l =>
      match nextCore s l with
      | none => s.onChunk id fun c => { c with core := 128, unstarted := c.n }
      | some k => placeChunk s l c k

/-- Deals the chunks that wait: those to be dealt again, then the undealt ones of a launch. -/
def dealChunks : Nat → Nat → State → State
  | 0, _, s => s
  | n + 1, id, s =>
    match s.launch id with
    | none => s
    | some l =>
      if l.ended || l.contained || decide (l.count ≤ l.dealt) then s
      else
        match nextCore s l with
        | none => s
        | some k =>
          let size := min (2 ^ l.lgrain) (l.count - l.dealt)
          let c : Chunk := ⟨s.pkg.idCtr, id, l.dealt, size, k, size, 0, false⟩
          let s1 := (s.onPkg fun p => { p with chunks := p.chunks ++ [c], idCtr := p.idCtr + 1 }).onLaunch id fun l => { l with dealt := l.dealt + size }
          dealChunks n id (placeChunk s1 { l with dealt := l.dealt + size } c k)

/-- Chunks still to be dealt of a launch. -/
def undealt (l : Launch) : Nat := ceilDiv (l.count - l.dealt) (2 ^ l.lgrain)

/-- Deals every chunk that waits in the master. -/
def dealAll (s : State) : State :=
  if (masterDie s).isNone then s
  else
    let again := (s.pkg.chunks.filter fun c => c.core == 128 && !c.complete).map (·.id)
    let s1 := again.foldl redeal s
    s1.pkg.launches.foldl (fun s l => dealChunks (undealt l) l.id s) s1

/-- Removes the range entries of a chunk from every deque. -/
def dropRanges (s : State) (id : Nat) : State :=
  let keep (e : DqEntry) : Bool :=
    match e.what with
    | .range c _ _ => c != id
    | _ => true
  { s with cores := s.cores.map fun k => { k with deques := k.deques.map fun d => d.filter keep } }

/-- The continuations that tasks of a chunk have named are lost with it (R292). -/
def forgetChunk (s : State) (id : Nat) : State := s.onPkg fun p => { p with contKeys := p.contKeys.filter fun k => k.chunk != some id }

/-- A chunk that a fenced agent held: a restartable one is dealt again whole; of a launch with NR no further chunk starts, those that have started
elsewhere run to their end, and the launch ends with CONTAIN (R95). -/
def loseChunk (s : State) (id : Nat) : State :=
  match s.chunk id with
  | none => s
  | some c =>
    if c.complete then s
    else
      match s.launch c.launch with
      | none => s
      | some l =>
        if l.nr then
          let out (k : Chunk) : Bool := k.launch == l.id && !k.complete && (k.id == id || (k.unstarted == k.n && k.live == 0))
          let s1 := (s.pkg.chunks.filter out).foldl (fun s k => dropRanges s k.id) (forgetChunk s id)
          let s2 := s1.onPkg fun p => { p with chunks := p.chunks.filter fun k => !out k }
          checkLaunch (s2.onLaunch l.id fun l => { l with contained := true }) l.id
        else redeal (dropRanges (forgetChunk s id) id) id

end Sys2Proof.Machine
end

