-- ==== Sys2Proof/Machine/Tasks.lean ====
section
/-!
DEFINITION. Tasks and what runs them: grants (R88), groups (R104, R105, R320), the iteration ring (R106, R325), parked records (R103, R361), tasks
that are lost (R271), task start (R87, R401), and pre-emption (R107, R243, R244).
-/

namespace Sys2Proof.Machine

-- ## The stash grant (R88, R177, R180)

/-- Sets a range of memory to zero, with what coherence does to its lines. -/
def zeroRange (s : State) (pa len : Nat) : State :=
  if len = 0 then s
  else
    let by_ : By := .part (homeDie pa)
    (clearPoison (markEarly (readyWrite s by_ .recall pa len) by_ pa len) pa len).onMem fun m => { m with mem := m.mem.filter fun c => decide (c.1 < pa) || decide (pa + len ≤ c.1) }

/-- What has been stored to a stash range, and the late accesses to it, perform before its lines change (R199). -/
def drainStash (s : State) (lo len : Nat) : State :=
  let within (a : Nat) : Bool := decide (lo ≤ a) && decide (a < lo + len)
  drainFor { store := fun _ e => within e.pa, line := fun l => within (l.stash.getD l.line), late := fun _ l => l.got.isNone && within l.pa } s

/-- SUNMAP over a range of a core's stash (Table 9.3): dirty lines are written back, and every line becomes SCRATCH and zero. -/
def sunmapRange (s0 : State) (core off len : Nat) : State :=
  if len = 0 then s0
  else
    let lo := stashPa core off
    let s := drainStash s0 lo len
    let mine (l : SLine) : Bool := decide (lo ≤ l.at_) && decide (l.at_ < lo + len)
    let s1 := (s.m.slines.filter mine).foldl State.writeBackLine s
    zeroRange (s1.onMem fun m => { m with slines := m.slines.filter fun l => !mine l }) lo len

/-- Releases the grant of a task, after SUNMAP over the whole of it. -/
def releaseGrant (s : State) (core base len : Nat) (task : Word) : State :=
  (sunmapRange s core base len).onCore core fun k => { k with stashUse := k.stashUse.filter fun u => u.2.2 != task }

/-- The lowest base at which len bytes of a core's stash are free. -/
def stashFit (k : Core) (len : Nat) : Option Nat :=
  ((List.range (Config.stashGrantable / 65536)).map (· * 65536)).find? fun b =>
    decide (b + len ≤ Config.stashGrantable) && k.stashUse.all fun u => decide (u.1 + u.2.1 ≤ b) || decide (b + len ≤ u.1)

/-- Grants a range: it is zero but for the cluster-stash pointer of its first byte (R177). -/
def grantStash (s : State) (core base len : Nat) (task : Word) : State :=
  if len = 0 then s
  else
    let p : Word := 0xFD00000000000000#64 + BitVec.ofNat 64 (core % 4 * 2 ^ 20 + base)
    ((zeroRange s (stashPa core base) len).setBytes (stashPa core base) (toBytes 8 p.toNat)).onCore core fun k =>
      { k with stashUse := k.stashUse ++ [(base, len, task)] }

-- ## Parked records (R103, R361)

/-- A group. R258 counts held updates from the previous phase and names no start for a group's first: the model counts every one that a member's task has issued
(log entry 148). -/
def State.group (s : State) (g : Nat) : Group := (s.pkg.groups.find? (·.id == g)).getD ⟨g, [], 0, 0⟩
def State.putGroup (s : State) (x : Group) : State := s.onPkg fun p => { p with groups := (p.groups.filter fun o => o.id != x.id) ++ [x] }

/-- The value and version of a channel that a die holds. -/
def ringCopy (s : State) (d c : Nat) : Word × Nat := (((s.pkg.chans.toList.getD c Channel.reset).copies.toList.getD d (0, 0)))

/-- Uncompleted jobs of a task on a core. -/
def jobsOf (s : State) (core : Nat) (task : Word) : List Job := (s.core core).jobs.filter fun j => j.task == task

/-- The event of a parked record has occurred; for a tag it is the completion of its jobs. -/
def eventOccurred (s : State) (p : Parked) : Bool :=
  match p.event with
  | .group g ph => decide (ph < (s.group g).phase)
  | .ring c v => decide (v.toNat ≤ (ringCopy s (dieOf p.core) c).1.toNat)
  | .tag _ => true

/-- The class of a parked record at its push (R96): its PRIO as the record then holds it; where it cannot be read, the one it was started with
(log entry 99). -/
def parkedClass (s : State) (p : Parked) : Nat × State :=
  match resolve { s.ctx with level := .u, root := bitsOf p.troot 12 40, troot := p.troot } { kind := 1 } (p.task.record + 0x38) 8 s with
  | .ok a s1 => let (v, s2) := readHome s1 (.part (dieOf p.core)) a.pa 8; ((Ctl.parse v).prio, s2)
  | _ => (p.task.prio, s)

/-- Once the jobs of a parked task have completed its grant is released, and once its event has also occurred its record is pushed. One that is to be
contained is not. -/
def serveParked (s : State) : State :=
  s.pkg.parked.foldl (fun s p =>
    if p.pushed || p.contain || !(jobsOf s p.core p.task.taskid).isEmpty then s
    else
      let s1 := releaseGrant s p.core p.task.stashBase p.task.stashLen p.task.taskid
      let occ := eventOccurred s1 p
      let p1 := { p with task := { p.task with stashBase := 0, stashLen := 0, maps := [] }, pushed := occ }
      let s2 := s1.onPkg fun k => { k with parked := k.parked.map fun q => if q.task.taskid = p.task.taskid then p1 else q }
      if occ then
        let (cls, s3) := parkedClass s2 p1
        pushAlone s3 p.core cls (.record p.task.record p.task.chunk p.troot p.task.lkey (some p.task.taskid)) false
      else s2) s

-- ## Groups (R104, R105, R320)

/-- The core of a task's context: the one it runs on, was saved on, or parked on. -/
def coreOf (s : State) (task : Word) : Option Nat :=
  match s.threads.find? fun t => t.status == .running && t.task.taskid == task with
  | some t => some t.lcore
  | none =>
    match s.pkg.saved.find? fun t => t.task.taskid == task with
    | some t => some t.lcore
    | none => (s.pkg.parked.find? fun p => p.task.taskid == task).map (·.core)

/-- The members of a group that have a context, with its core, in increasing LCORE (Table 10.19). Members on one core, which Table 10.19 does not order, keep
the order in which they joined (log entry 135). -/
def membersByCore (s : State) (tasks : List Word) : List (Word × Nat) :=
  sortBy (fun a b => decide (a.2 ≤ b.2)) (tasks.filterMap fun t => (coreOf s t).map fun c => (t, c))

/-- The drain of one member (Table 10.19), wherever its context is: a release of its core and of those from which it made the stores (R225). -/
def drainMember (s : State) (m : Word × Nat) : State :=
  let ls := s.m.wcb.filter fun l => l.task == m.1
  (ls.map (·.lcore)).foldl endRaces (endRaces (drainLines (fun l => l.task == m.1) s) m.2)

/-- The doublewords to which a listed task has issued a held update since a count of completed phases. -/
def heldSince (s : State) (tasks : List Word) (since : Nat) : List Nat :=
  ((s.pkg.heldBy.filter fun x => tasks.contains x.1 && decide (since ≤ x.2.2)).map (·.2.1)).eraseDups

/-- Applies the held updates of every doubleword to which a listed task has issued one since then (R258). -/
def settleHeld (s : State) (tasks : List Word) (since : Nat) : State := (heldSince s tasks since).foldl settleDword s

/-- A phase completes (R105): the drains and held updates of Bronze mode first, then the next phase, and parked members are pushed. -/
def completePhase (s : State) (g : Group) : State :=
  let tasks := g.members.map (·.who.task)
  let s1 := (membersByCore s tasks).foldl drainMember s
  let s2 := if g.members.all (·.who.bronze) then settleHeld s1 tasks g.since else s1
  let n := s2.pkg.phases + 1
  let s3 := (s2.onPkg fun p => { p with phases := n }).putGroup
    { g with phase := g.phase + 1, since := n, members := g.members.map fun m => { m with arrived := false } }
  serveParked (g.members.foldl (fun s m => packet s (g.id % 4) (dieOf m.who.lcore)) s3)

/-- A phase completes at the operation after which every current member has arrived (R320). -/
def checkPhase (s : State) (g : Nat) : State :=
  let x := s.group g
  if !x.members.isEmpty && x.members.all (·.arrived) then completePhase s x else s

def Group.has (g : Group) (t : Word) : Bool := g.members.any fun m => m.who.task == t

/-- A member runs in Bronze mode: its context's DETCTL, where it has one. -/
def memberBronze (s : State) (m : Member) : Bool :=
  ((((s.threads.filter (·.status == .running)) ++ s.pkg.saved).find? fun t => t.task.taskid == m.task).map (·.ord.detctl)).getD m.bronze

/-- Every member of a group runs in Bronze mode: what they hold at their arrivals waits for the drain of the phase (Table 10.19). -/
def phaseBronze (s : State) (g : Nat) : Bool := (s.group g).members.all fun m => memberBronze s m.who

/-- A task still holds stores in the write-combining buffer. -/
def holdsLines (s : State) (task : Word) : Bool := s.m.wcb.any fun l => l.task == task

/-- Where a member does not, what those that have arrived still hold performs, as the releases that their arrivals are (R205, R224). -/
def releaseArrived (s : State) (g : Nat) : State :=
  if phaseBronze s g then s
  else (membersByCore s (((s.group g).members.filter fun m => m.arrived && holdsLines s m.who.task).map (·.who.task))).foldl drainMember s

/-- Groups that a task belongs to. -/
def groupsOf (s : State) (t : Word) : List Nat := (s.pkg.groups.filter fun g => g.has t).map (·.id)

/-- The condition under which an operation traps GROUP (Table 4.9). -/
def groupRefuses (s : State) (g : Nat) (op : GroupOp) (t : Word) : Bool :=
  match op with
  | .join => !(s.group g).has t && (decide (Config.groupMembers ≤ (s.group g).members.length) || decide (Config.taskGroups ≤ (groupsOf s t).length))
  | _ => !(s.group g).has t

/-- The controller applies an operation that it does not refuse. -/
def applyGroup (s0 : State) (g : Nat) (op : GroupOp) (m : Member) : State :=
  let s := packet s0 (dieOf m.lcore) (g % 4)
  let x := s.group g
  match op with
  | .join => if x.has m.task then s else releaseArrived (s.putGroup { x with members := x.members ++ [⟨m, false⟩] }) g
  | .leave => checkPhase (s.putGroup { x with members := x.members.filter fun k => k.who.task != m.task }) g
  | _ => checkPhase (releaseArrived (s.putGroup { x with members := x.members.map fun k => if k.who.task = m.task then ⟨m, true⟩ else k }) g) g

/-- Group g is lost with its controller's die (R323). -/
def groupLost (s : State) (g : Nat) : Bool := s.dieFenced (g % 4)

/-- The acting task as a member. -/
def State.member (s : State) : Member := ⟨s.ct.task.taskid, s.ct.lcore, s.ct.ctno, s.ct.ord.detctl⟩

/-- Leaves every group, ignoring those that are lost (R323). -/
def leaveGroups (s : State) (m : Member) : State :=
  (groupsOf s m.task).foldl (fun s g => if groupLost s g then s else applyGroup s g .leave m) s

-- ## The iteration ring (R106, R325, R326)

/-- The die of a channel's order point: die c mod 4, or the lowest surviving one. -/
def orderDie (s : State) (c : Nat) : Nat :=
  if s.dieFenced (c % 4) then ((List.range 4).find? fun d => !s.dieFenced d).getD (c % 4) else c % 4

def State.onChan (s : State) (c : Nat) (f : Channel → Channel) : State :=
  s.onPkg fun p => { p with chans := p.chans.setIfInBounds c (f (p.chans.toList.getD c Channel.reset)) }

/-- The order point applies a post (R325): maximum, next version, its own die's copy; the ring then carries them on. -/
def applyPost (s : State) (c : Nat) (v : Word) : State :=
  let d := orderDie s c
  let s1 := s.onChan c fun k =>
    let v1 := if k.value.ult v then v else k.value
    { k with value := v1, version := k.version + 1, copies := k.copies.setIfInBounds d (v1, k.version + 1) }
  (serveParked s1).push ((List.range 3).map fun i => .ringHop c ((d + 1 + i) % 4))

/-- The value and version reach a die from the die before it on the ring. -/
def ringHopTo (s : State) (c d : Nat) : State :=
  let o := orderDie s c
  if d = o then s
  else
    let before := ((List.range 3).map fun i => (d + 3 - i) % 4).find? fun b => !s.dieFenced b || b == o
    match before with
    | none => s
    | some b =>
      let s1 := packet s b d
      let cp := ringCopy s b c
      let old := ringCopy s d c
      serveParked (if old.2 < cp.2 then s1.onChan c fun k => { k with copies := k.copies.setIfInBounds d cp } else s1)

-- ## Ending a task

/-- A control thread that holds no task; what the core keeps of it stays. -/
def Thread.freed (t : Thread) : Thread :=
  let i := Thread.idle t.lcore t.ctno
  { i with status := if t.status = .fenced then .fenced else .free, sup := t.sup, fwcsr := t.fwcsr,
           ctl := { CtlSt.start with deficit := t.ctl.deficit, sampleCnt := t.ctl.sampleCnt } }

/-- The late accesses of the acting control thread perform, and what they got is of no use any more: its task ends. -/
def dropLate (s : State) : State :=
  if s.m.late.isEmpty then s else (performWhere s.myLate s).onMem fun m => { m with late := m.late.filter fun l => !s.myLate l }

/-- What TEND does last, and every end of a task (R102, R242): leaves the groups, releases the grant, frees the control thread and subtracts
from the chunk. -/
def releaseTask (s0 : State) : State :=
  let s := dropLate s0
  let t := s.ct
  let s1 := leaveGroups s s.member
  let s2 := releaseGrant s1 t.lcore t.task.stashBase t.task.stashLen t.task.taskid
  chunkSub (dropAhead { s2 with ct := s2.ct.freed }) (dieOf t.lcore) t.task.chunk

-- ## Tasks that are lost (R95, R271, R323)

/-- A task that is lost leaves its groups and its chunk. -/
def loseTask (s : State) (m : Member) (c : Option Nat) : State :=
  let s1 := leaveGroups s m
  match c with
  | some id => s1.onChunk id fun k => { k with live := k.live - 1 }
  | none => s1

/-- The chunk of a lost task is treated as one held by a fenced die. -/
def loseChunkOf (s : State) (c : Option Nat) : State :=
  match c with
  | some id => loseChunk s id
  | none => s

/-- The record at an address no longer is the continuation that was named there (R292). -/
def forgetCont (s : State) (troot va : Word) : State :=
  s.onPkg fun p => { p with contKeys := p.contKeys.filter fun k => !(k.troot == troot && k.va == va) }

def Parked.member (p : Parked) : Member := ⟨p.task.taskid, p.core, 0, false⟩

/-- A parked task that takes CONTAIN ends with an error record for each error kept with its jobs and one for itself (R190, R271). -/
def endParked (s : State) (p : Parked) : State :=
  let l := elogOf s p.task.launch
  let s1 := s.onPkg fun k => { k with parked := k.parked.filter fun q => q.task.taskid != p.task.taskid }
  let s2 := loseTask (drainLines (fun l => l.task == p.task.taskid) s1) p.member p.task.chunk
  let s3 := releaseGrant s2 p.core p.task.stashBase p.task.stashLen p.task.taskid
  let e (cause addr code : Nat) : ErrRec :=
    ⟨p.task.taskid.toNat, (seqOf s3 p.task.launch).toNat, cause, 0, addr, p.task.inst.toNat, p.core, code⟩
  let s4 := p.errs.foldl (fun s k => errorRecord s (dieOf p.core) l.1 l.2 (e 0 k.addr.toNat k.code.toNat)) s3
  loseChunkOf (errorRecord s4 (dieOf p.core) l.1 l.2 (e (scauseOf { code := Code.contain } false 0).toNat 0 Code.contain.toNat)) p.task.chunk

/-- Parked tasks that are to be contained, or that wait for a group that is lost (R323), end once their jobs have completed. -/
def containParked (s : State) : State :=
  (s.pkg.parked.filter fun p =>
    (p.contain || (match p.event with
      | .group g _ => !p.pushed && groupLost s g
      | _ => false)) && (jobsOf s p.core p.task.taskid).isEmpty).foldl endParked s

-- ## Task start (R87, R88, R401)

/-- A profile set (R52): index 0 selects the code object that holds the entry PC under the task's root, the one loaded last where several do. -/
def profilesOf (s : State) (idx : Nat) (troot entry : Word) : BitVec 7 :=
  if idx = 0 then
    ((s.pkg.objects.reverse.find? fun o =>
      o.troot == troot && decide (o.lo.toNat ≤ entry.toNat) && decide (entry.toNat < o.lo.toNat + o.size)).map (·.profs)).getD 0
  else s.pkg.profsets.toList.getD idx 0

/-- The continuation that a record at tr names. -/
def Ctl.contOf (c : Ctl) (tr : Word) : Option Word := if c.cont = 0 then none else some (tr + BitVec.ofInt 64 (64 * c.cont))

/-- The trap of a start whose record cannot be read (R401). -/
def startTrap (t : Trap) : Trap :=
  { code := t.code, kind := 1, stash := t.stash, bad := t.bad, lvl := t.lvl, spend := true, sepc := some 0, sfva := t.sfva, held := t.held }

/-- Reads the record of the start in hand: an instance through its ring, any other through tr (R401). -/
def readRecord (s : State) : Res (List Byte) :=
  let tr := s.ct.task.record
  let bytesOf (a : Res Place) : Res (List Byte) := a.andThen fun p s =>
    let s1 := readyRead (l1Read s p.cached s.ct.lcore p.pa) s.me p.pa 64
    .ok (s1.bytesAt p.pa 64) s1
  match s.ct.task.slotPa with
  | some pa => bytesOf (landAt { kind := 1 } tr { pa := pa, cached := cacheable pa } s)
  | none => bytesOf (resolve { s.ctx with level := .u } { kind := 1 } tr 64 s)

/-- Field of eight bytes of a record. -/
def recWord (bs : List Byte) (off : Nat) : Word := BitVec.ofNat 64 (leNat ((bs.drop off).take 8))

/-- The x registers of a task at its first instruction (R87). -/
def startRegs (bs : List Byte) (tr inst : Word) : Vector Word 32 :=
  Vector.ofFn fun i : Fin 32 =>
    if i.val = 2 then tr
    else if 3 ≤ i.val ∧ i.val ≤ 8 then recWord bs (8 * (i.val - 2))
    else if i.val = 9 then inst
    else 0

/-- The grants and registers of a start whose record has been read; the PC holds a multiple of 4 (R27). -/
def grantStart (s : State) (bs : List Byte) (base : Nat) : State :=
  let c := Ctl.parse (recWord bs 0x38).toNat
  let len := 65536 * c.stash
  let entry := recWord bs 0 &&& ~~~ 3
  let s1 := grantStash s s.ct.lcore base len s.ct.task.taskid
  s1.onCt fun t =>
    { t with
      pc := entry
      x := startRegs bs t.task.record t.task.inst
      task := { t.task with
        cont := if t.task.isInst then none else c.contOf t.task.record, slot := c.slot, prio := c.prio, share := c.share, minlg := c.minlg,
        profs := profilesOf s c.profset t.sup.troot entry, regLen := min c.vceil 2048, tiles := min (max c.accmin c.accwant) 8,
        stashBase := if len = 0 then 0 else base, stashLen := len }
      ctl := { t.ctl with wait := .none, spend := none, ltask := some entry } }

/-- The join of a first start; a start after TPARK makes none (R87). -/
def joinStart (s : State) (g : Nat) (f : State → Host.Outcome State Fault Refusal) : Host.Outcome State Fault Refusal :=
  if g = 0 ∨ s.ct.task.again then f s
  else if groupLost s g then .next (s.onCtl fun c => { c with contain := true })
  else if groupRefuses s g .join s.ct.task.taskid then takeTrap { code := Code.group, sfva := BitVec.ofNat 64 g } s
  else f (applyGroup s g .join s.member)

/-- A misaligned ENTRY names no word, so the task traps LANDING before its first instruction (R56, log entry 28). -/
def checkEntry (entry : Word) (s : State) : Host.Outcome State Fault Refusal :=
  if entry.toNat % 4 = 0 then .next s else takeTrap { code := Code.landing } (s.onCtl fun c => { c with ltask := none })

/-- A record that a core has taken waits for its grant (R89). -/
def grantWaits (s : State) (core : Nat) : Bool := (coreThreads s core).any fun t => t.ctl.wait == .grant

/-- An earlier start of the acting thread's core waits for its grant, so that no later record starts there (R89). -/
def laterStart (s : State) : Bool :=
  (coreThreads s s.ct.lcore).any fun t => t.ctl.spend.isSome && t.ctl.wait == .grant && decide (t.task.startNo < s.ct.task.startNo)

/-- Goes on with the start in hand from the read of its record (R401, R88): a fault traps with SPEND, a stash that is not free waits, and so does a start behind
one that waits (R89). -/
def finishStart (s : State) : Host.Outcome State Fault Refusal :=
  if laterStart s then .next (s.waitFor .grant)
  else
  match readRecord s with
  | .ok bs s1 =>
    let c := Ctl.parse (recWord bs 0x38).toNat
    match stashFit (s1.core s1.ct.lcore) (65536 * c.stash) with
    | none => .next (s1.waitFor .grant)
    | some base =>
      let s2 := grantStart s1 bs base
      let s3 := (logged s2 1 s2.ct.pc (BitVec.ofNat 64 (4 * s2.ct.lcore + s2.ct.ctno))).2
      joinStart s3 c.group (checkEntry (recWord bs 0))
  | .trap t s1 => takeTrap (startTrap t) (s1.onCt fun x => { x with level := .u })
  | .wait w s1 => .next (s1.waitFor w)
  | .gone s1 => .next (s1.onCtl fun c => { c with contain := true })

/-- What a control thread takes: the entry's record or one instance, and the state without it. -/
structure Pick where
  what : Startable
  state : State

/-- Replaces the entries of one class. -/
def setDeque (s : State) (core cls : Nat) (d : List DqEntry) : State :=
  s.onCore core fun k => { k with deques := k.deques.setIfInBounds cls d }

/-- A pop by the owner (R96, R94): the bottom of the lowest class; a range entry starts its lowest instance. -/
def popOwn (s : State) (core : Nat) : Option Pick :=
  ((List.range 4).find? fun c => !((s.core core).deques.toList.getD c []).isEmpty).bind fun c =>
    let d := (s.core core).deques.toList.getD c []
    d.getLast?.map fun e =>
      match e.what with
      | .range ch lo n =>
        ⟨.range ch lo 1, setDeque s core c (if n ≤ 1 then d.dropLast else d.dropLast ++ [{ e with what := .range ch (lo + 1) (n - 1) }])⟩
      | w => ⟨w, setDeque s core c d.dropLast⟩

/-- Distance between cores (R97). -/
def distance (a b : Nat) : Nat :=
  if clusterOf a = clusterOf b then 1
  else if dieOf a = dieOf b then 2
  else if (dieOf a + dieOf b) % 2 = 1 then 3 else 4

/-- The cores that a thief scans, in order. -/
def victims (core : Nat) : List Nat :=
  let all := (List.range 127).map fun i => (core + 1 + i) % 128
  [1, 2, 3, 4].flatMap fun k => all.filter fun v => distance core v == k

/-- The first class of a core that holds an unpinned entry, and that entry's index from the top. -/
def stealable (k : Core) : Option (Nat × Nat) :=
  (List.range 4).findSome? fun c => ((k.deques.toList.getD c []).findIdx? fun e => !e.pin).map fun i => (c, i)

/-- Takes an unpinned entry of a class of another core (R97, R94): of a range the highest half, whose lowest instance starts. -/
def stealAt (s : State) (core v c i : Nat) : Option Pick :=
  let d := (s.core v).deques.toList.getD c []
  (d[i]?).map fun e =>
    let s0 := packet (packet s (dieOf core) (dieOf v)) (dieOf v) (dieOf core)
    match e.what with
    | .range ch lo n =>
      let k := max 1 (n / 2)
      let s1 := setDeque s0 v c (if n ≤ k then d.eraseIdx i else d.set i { e with what := .range ch lo (n - k) })
      let s2 := if 1 < k then pushAlone s1 core c (.range ch (lo + n - k + 1) (k - 1)) false else s1
      ⟨.range ch (lo + n - k) 1, s2⟩
    | w => ⟨w, setDeque s0 v c (d.eraseIdx i)⟩

/-- A steal (R97): the topmost unpinned entry. -/
def steal (s : State) (core : Nat) : Option Pick :=
  ((victims core).findSome? fun v => (stealable (s.core v)).map fun ci => (v, ci.1, ci.2)).bind fun x => stealAt s core x.1 x.2.1 x.2.2

/-- Takes an entry of a class of the core's own deques; a range entry starts its lowest instance. -/
def popAt (s : State) (core c i : Nat) : Option Pick :=
  let d := (s.core core).deques.toList.getD c []
  (d[i]?).map fun e =>
    match e.what with
    | .range ch lo n =>
      ⟨.range ch lo 1, setDeque s core c (if n ≤ 1 then d.eraseIdx i else d.set i { e with what := .range ch (lo + 1) (n - 1) })⟩
    | w => ⟨w, setDeque s core c (d.eraseIdx i)⟩

/-- Everything that a core could take, its own entries first, each class from the bottom, then those it could steal. -/
def allPicks (s : State) (core : Nat) : List Pick :=
  ((List.range 4).flatMap fun c => (List.range ((s.core core).deques.toList.getD c []).length).reverse.filterMap (popAt s core c)) ++
    (victims core).flatMap fun v => (List.range 4).flatMap fun c =>
      (((s.core v).deques.toList.getD c []).zipIdx.filter fun e => !e.1.pin).filterMap fun e => stealAt s core v c e.2

/-- The lineage key and event index of what would start (R292). -/
def lineage (s : State) (w : Startable) : Word × Nat × Option Nat :=
  match w with
  | .range ch lo _ =>
    let l := (s.chunk ch).bind fun c => s.launch c.launch
    (mix 0 (((l.map (·.base)).getD 0) + BitVec.ofNat 64 lo), 0, l.map (·.id))
  | .record _ ch _ lk res =>
    let ev := match res with
      | some t => ((s.pkg.saved.find? fun x => x.task.taskid == t).map (·.task.events)).getD
          (((s.pkg.parked.find? fun x => x.task.taskid == t).map (·.task.events)).getD 0)
      | none => 0
    (lk, ev, launchOf s ch)

/-- Forcing has stopped for the task that would resume (R294). -/
def strayed (s : State) (w : Startable) : Bool :=
  match w with
  | .record _ _ _ _ (some t) =>
    s.pkg.saved.any (fun x => x.task.taskid == t && x.task.diverged) || s.pkg.parked.any (fun x => x.task.taskid == t && x.task.diverged)
  | _ => false

/-- A start that a log names (R294): the die whose log it is, the PC logged, and the control thread. -/
structure Forced where
  die : Nat
  pc : Word
  core : Nat
  ctno : Nat
  deriving DecidableEq, Repr

/-- The start that a REPLAY record of a die's log names. -/
def startIn (d : Nat) (r : Nat × Word × Word) : Option Forced :=
  if r.1 = 1 then some ⟨d, r.2.1, r.2.2.toNat / 4 % 128, r.2.2.toNat % 4⟩ else none

/-- The start that a log names for what would start, if one does, and the state after the reads of the logs (R280). -/
def forcedStart (s : State) (w : Startable) : Option Forced × State :=
  let k := lineage s w
  let forces (d : Nat) : Bool := (s.el d).replaying && k.2.2.isSome && seqOf s k.2.2 == (s.el d).erepseq && !strayed s w
  ((List.range 4).filter forces).foldl (fun a d =>
    match a.1 with
    | some f => (some f, a.2)
    | none => let r := findLog a.2 d k.1 k.2.1; (r.1.bind (startIn d), r.2)) (none, s)

/-- A start that is no longer forced: its log's die writes DIVERGE (R294), with the logged PC as the one found, since nothing has started (log entry
123). -/
def unforced (f : Option Forced) (s : State) : State :=
  match f with
  | some f => divergeAt s f.die f.pc f.pc
  | none => s

/-- A task new to the acting control thread, its start still to be finished. A start acquires (R205). -/
def newThread (s : State) (core ctno : Nat) (root : Word) (f : TaskSt → TaskSt) : State :=
  let s0 := s.switchTo core ctno
  let old := s0.ct
  let t0 := { TaskSt.start with startNo := s0.pkg.startCtr }
  let t1 := f t0
  let i := Thread.idle core ctno
  dropAhead { s0 with
    ct := { i with status := .running, x := i.x.set 2 t1.record, task := t1, sup := { old.sup with troot := root }, fwcsr := old.fwcsr,
                   ctl := { CtlSt.start with deficit := old.ctl.deficit, sampleCnt := old.ctl.sampleCnt, spend := some t1.record } }
    pkg := { s0.pkg with startCtr := s0.pkg.startCtr + 1 } }

/-- The next TASKID (R87). -/
def freshTask (s : State) : Word × State := (BitVec.ofNat 64 s.pkg.taskCtr, s.onPkg fun p => { p with taskCtr := p.taskCtr + 1 })

/-- A saved context resumes (R243, R244), with the effect of fence.all.p: its saved entries re-execute before the scalar stream dispatches anything
further. R107 and R244 do not say whether a task that resumes counts as started anew: the model counts it among the most recently started from its resumption on
(log entry 139). -/
def resumeContext (s : State) (core ctno : Nat) (t : Thread) : State :=
  let s0 := s.switchTo core ctno
  let old := s0.ct
  let t1 := { t with lcore := core, ctno := ctno, status := .running, sup := { old.sup with troot := t.sup.troot }, fwcsr := old.fwcsr,
                     task := { t.task with startNo := s0.pkg.startCtr },
                     vec := { t.vec with hold := !t.vec.viq.isEmpty },
                     ctl := { t.ctl with wait := .none, deficit := old.ctl.deficit, sampleCnt := old.ctl.sampleCnt } }
  let s1 := { s0 with ct := t1, pkg := { s0.pkg with startCtr := s0.pkg.startCtr + 1, saved := s0.pkg.saved.filter fun x => x.task.taskid != t.task.taskid } }
  dropAhead s1

/-- Starts what has been taken on a control thread. f: a logged start that is not followed. -/
def startOn (s : State) (core ctno : Nat) (w : Startable) (f : Option Forced) : Host.Outcome State Fault Refusal :=
  match w with
  | .range ch lo _ =>
    match (s.chunk ch).bind fun c => s.launch c.launch with
    | none => .next s
    | some l =>
      let (tid, s1) := freshTask (s.onChunk ch fun c => { c with unstarted := c.unstarted - 1, live := c.live + 1 })
      let inst := l.base + BitVec.ofNat 64 lo
      finishStart (unforced f (newThread s1 core ctno l.troot fun t =>
        { t with taskid := tid, record := l.tva, slotPa := some l.slotPa, chunk := some ch, inst := inst, isInst := true,
                 launch := some l.id, lkey := mix 0 inst }))
  | .record va ch root lk none =>
    let (tid, s1) := freshTask s
    finishStart (unforced f (newThread s1 core ctno root fun t =>
      { t with taskid := tid, record := va, chunk := ch, launch := launchOf s ch, lkey := lk }))
  | .record va ch root lk (some tid) =>
    match s.pkg.saved.find? fun x => x.task.taskid == tid with
    | some t =>
      let s1 := unforced f (resumeContext s core ctno t)
      .next (logged s1 1 s1.ct.pc (BitVec.ofNat 64 (4 * core + ctno))).2
    | none =>
      match s.pkg.parked.find? fun x => x.task.taskid == tid with
      | some p =>
        let s1 := s.onPkg fun k => { k with parked := k.parked.filter fun x => x.task.taskid != tid }
        let s2 := newThread s1 core ctno root fun t =>
          { t with taskid := tid, record := va, chunk := ch, launch := p.task.launch, lkey := lk, events := p.task.events,
                   spawns := p.task.spawns, diverged := p.task.diverged, again := true }
        finishStart (unforced f ((s2.onMx fun m => { m with fills := p.fills }).onUli fun u => { u with errs := p.errs }))
      | none => .next s

/-- Starts a pick where it can start now (R294): on the control thread that a log names for it, if that is free; where that core is out of service on the
control thread at hand, as a start that no log names. None while it waits for the thread, or for the grant of an earlier record of that core (R89). -/
def startPick (core ctno : Nat) (p : Pick) : Option (Host.Outcome State Fault Refusal) :=
  let r := forcedStart p.state p.what
  match r.1 with
  | some f =>
    if !r.2.coreReady f.core then some (startOn r.2 core ctno p.what (some f))
    else if (r.2.thread f.core f.ctno).status = .free ∧ !grantWaits r.2 f.core then some (startOn r.2 f.core f.ctno p.what none)
    else none
  | none => some (startOn r.2 core ctno p.what none)

/-- The first entry of a list of positions in allPicks that can start does; what the logs were asked for the others stays asked. -/
def startFirst (core ctno : Nat) : List Nat → State → Host.Outcome State Fault Refusal
  | [], s => .next s
  | k :: r, s =>
    match (allPicks s core)[k]? with
    | none => startFirst core ctno r s
    | some p => (startPick core ctno p).getD (startFirst core ctno r (forcedStart s p.what).2)

/-- TASK_START: a free control thread of a ready core pops or steals and starts (R96, R97). While a record of the core waits for its grant no
later one starts there (R89). A replayed start takes place on the control thread that the log names, or waits for it; entries behind one that waits may
start (R294). -/
def execTaskStart (core ctno : Nat) (s : State) : Host.Outcome State Fault Refusal :=
  if (s.thread core ctno).status ≠ .free ∨ !s.coreReady core ∨ grantWaits s core then .next s
  else
    match (match popOwn s core with
      | some p => some p
      | none => steal s core) with
    | none => .next s
    | some p =>
      backTo s.ct.lcore s.ct.ctno ((startPick core ctno p).getD (startFirst core ctno (List.range (allPicks s core).length) s))

-- ## Pre-emption (R107, R243, R244)

/-- The lowest class with an entry in a core's deques. -/
def waitingClass (s : State) (core : Nat) : Option Nat := (List.range 4).find? fun c => !((s.core core).deques.toList.getD c []).isEmpty

/-- Of two tasks the one to pre-empt: the higher class number, then the later start. -/
def worse (a b : Thread) : Bool := decide (a.task.prio < b.task.prio) || (a.task.prio == b.task.prio && decide (a.task.startNo < b.task.startNo))

def worst : List Thread → Option Thread
  | [] => none
  | t :: r =>
    match worst r with
    | none => some t
    | some u => some (if worse t u then u else t)

/-- A control thread at an instruction boundary of U, where pre-emption takes effect: not between a checked JALR and its landing check (R330), nor
while a post is under way, nor at a word of a nest's body unless a full VIQ stalls it there (R107, R79). -/
def Thread.atBoundary (t : Thread) : Bool :=
  t.level == .u && t.ctl.spend.isNone && !t.ctl.lpend && t.ctl.post.isNone &&
    (match t.nest.capture with
     | some c => t.ctl.wait == .viqFull && c.at_ == t.pc
     | none => true) && !(t.ctl.target.any fun x => x.1 == t.pc)

/-- The control thread that a core is to pre-empt (R107), if any: of the tasks that run, that of the highest class number, then the one started last. One whose
start is pending does not run yet. -/
def preemptChoice (s : State) (core : Nat) : Option Thread :=
  match waitingClass s core with
  | none => none
  | some k =>
    let ts := coreThreads s core
    if ts.any (fun t => t.status == .free) then none
    else worst (ts.filter fun t => t.status == .running && t.ctl.spend.isNone && decide (k < t.task.prio))

/-- The control thread that a core pre-empts now: while the one chosen is not at a boundary nothing is pre-empted. -/
def preemptVictim (s : State) (core : Nat) : Option Thread := (preemptChoice s core).filter Thread.atBoundary

/-- Pushes the record of a pre-empted task on its own core once its jobs have completed (R399); a stash grant pins it (R244). -/
def requeueSaved (s : State) (t : Thread) : State :=
  if (jobsOf s t.lcore t.task.taskid).isEmpty then
    pushAlone s t.lcore t.task.prio (.record t.task.record t.task.chunk t.sup.troot t.task.lkey (some t.task.taskid)) (t.task.stashLen != 0)
  else s

/-- An entry as a saved context keeps it: one that has executed keeps what it owes, any other re-executes. -/
def VEntry.kept (e : VEntry) : VEntry := if e.done.isSome then { e with issue := none } else e.again

/-- Saves the context of the acting control thread (R243), as by fence.all.p: what has executed completes and its late accesses land, its stores perform,
except lines that wait for the drain of a Bronze phase (R224, log entry 122), and what it read ahead is dropped. The VIQ entries are kept, to re-execute (R83). Its panels stay in the B-store until something
else removes them (log entry 106). -/
def saveContext (s0 : State) : State :=
  let s := landWhere s0.myLate (payAll s0)
  let waiting := !s.ct.ctl.gwait.isEmpty && s.ct.ord.detctl
  let s1 := endRaces (dropAhead (if waiting then drainSbuf s else drainStores s)) s.ct.lcore
  let s2 := s1.ct.vec.viq.foldl freeIssue s1
  let t := s2.ct
  let kept := { t with ctl := { t.ctl with wait := .none }, vec := { t.vec with viq := t.vec.viq.map VEntry.kept }, fwcsr := [] }
  requeueSaved { s2 with ct := t.freed, pkg := { s2.pkg with saved := s2.pkg.saved ++ [kept] } } kept

/-- The head of the VIQ stops at the element that the schedule names (R71, R83); the stop stays in the context that is saved, with SEPC at the
stopped instruction. Entries that have not begun are discarded, and their samples recorded (R282). -/
def cutVictim (s : State) : State :=
  let s1 := match s.sched.cut with
    | some k => cutHead s k
    | none => s
  if s1.ct.vec.stopped.isSome then s1 else discardRecords ((leftEntries s1).filter (·.done.isNone)) s1

/-- PREEMPT: the acting thread's core pre-empts a task of a lower class at its instruction boundary, if R107 says so. The trap's record stays in
the supervisor CSRs of the control thread. -/
def execPreempt (s : State) : Host.Outcome State Fault Refusal :=
  match preemptVictim s s.ct.lcore with
  | none => .next s
  | some t =>
    let here := (s.ct.lcore, s.ct.ctno)
    let s1 := s.switchTo t.lcore t.ctno
    let s2 := cutVictim s1
    let sepc := (s2.ct.vec.stopped.map (·.entry.pc)).getD s2.ct.pc
    .next ((saveContext (resumeStopped (s2.record { code := Code.preempt, sepc := some sepc } Level.u.prv))).switchTo here.1 here.2)

-- ## The steps of the group controllers and the ring

/-- GROUP_OP_APPLY: an operation reaches its controller (R320); one that the controller refuses, or that names a lost group, changes nothing. -/
def execGroupOpApply (g : Nat) (op : GroupOp) (m : Member) (s : State) : Host.Outcome State Fault Refusal :=
  .next (if groupLost s g || groupRefuses s g op m.task then s else applyGroup s g op m)

/-- ORDER_POINT_APPLY: a channel's order point applies a post. -/
def execOrderPointApply (c : Nat) (v : Word) (s : State) : Host.Outcome State Fault Refusal := .next (applyPost s c v)

/-- RING_HOP: an applied value and version reach a die. -/
def execRingHop (c d : Nat) (s : State) : Host.Outcome State Fault Refusal := .next (ringHopTo s c d)

end Sys2Proof.Machine
end

