-- ==== Sys2Proof/Machine/Engines.lean ====
section
/-!
DEFINITION. Engine jobs: cards and their checks (R185, R186), footprints (R188), the scheduler (R189), what a job moves (R187, R269, R151),
page faults and kept errors (R190, R238), completion (R191), and XCOPY, XGATH, XCOLL and XWAIT (R397 to R399).
-/

namespace Sys2Proof.Machine

-- ## Cards

/-- A 48-bit pointer field widened by its window (R185). -/
def widen (win v : Nat) : Word :=
  match win with
  | 0 => BitVec.ofInt 64 (toSigned 48 v)
  | 1 => 0xFE00000000000000#64 + BitVec.ofNat 64 (v % 2 ^ 20)
  | _ => 0xFD00000000000000#64 + BitVec.ofNat 64 (v % 2 ^ 22)

/-- A pointer field keeps the layout of its window. -/
def widenOk (win v : Nat) : Bool :=
  match win with
  | 0 => true
  | 1 => decide (v < 2 ^ 20)
  | 2 => decide (v < 2 ^ 22)
  | _ => false

/-- The job that an instruction issues. -/
inductive JobKind where
  | copy
  | gather
  | coll
  deriving DecidableEq, Repr

def JobKind.engine : JobKind → Engine
  | .copy => .copy
  | .gather => .gather
  | .coll => .coll

/-- A field of a card. -/
def cardAt (bs : List Byte) (off n : Nat) : Nat := leNat ((bs.drop off).take n)

/-- CTL of a card. -/
def cardCtl (bs : List Byte) : Nat := cardAt bs 0x3C 4

/-- The regions of an extension (R185). -/
def cardRegions (bs : List Byte) (n : Nat) : List Region :=
  (List.range n).map fun e =>
    ⟨BitVec.ofNat 64 (cardAt bs (64 + 16 * e) 8), cardAt bs (64 + 16 * e + 8) 7, cardAt bs (64 + 16 * e + 15) 1 == 1⟩

/-- A card and its extension, read (Tables 9.6 and 9.7). -/
def parseCard (bs : List Byte) : Card :=
  let ctl := cardCtl bs
  { src := widen (natBits ctl 18 2) (cardAt bs 0 6)
    dst := widen (natBits ctl 20 2) (cardAt bs 6 6)
    idx := widen (natBits ctl 22 2) (cardAt bs 12 6)
    cnt := (List.range 6).map fun d => cardAt bs (0x12 + 2 * d) 2
    sstr := (List.range 5).map fun d => toSigned 24 (cardAt bs (0x1E + 3 * d) 3)
    dstr := (List.range 5).map fun d => toSigned 24 (cardAt bs (0x2D + 3 * d) 3)
    op := natBits ctl 25 4
    int := natBits ctl 24 1 == 1
    idxf := natBits ctl 16 2
    ndim := natBits ctl 10 3
    dfmt := BitVec.ofNat 5 (natBits ctl 5 5)
    sfmt := BitVec.ofNat 5 (natBits ctl 0 5)
    regions := cardRegions bs (natBits ctl 13 3) }

/-- Bits of one element of a job's format. -/
def fmtBits (m : BitVec 5) : Nat := if mfPacked m ≠ 0 then mfPacked m else tyBits (mfType m 0)

/-- A format of R185. -/
def jobFmtOk (m : BitVec 5) : Bool := decide (1 ≤ m.toNat) && decide (m.toNat ≤ 15)

/-- Elements of the formats .i4 and .i2 come in whole bytes (R186). -/
def packedOk (m : BitVec 5) (c : Card) (str : List Int) : Bool :=
  match mfPacked m with
  | 0 => true
  | n => decide (c.cnt.headD 0 % (8 / n) = 0) && str.all fun i => decide (i % ((8 / n : Nat) : Int) = 0)

/-- Stride of dimension d ≥ 1. -/
def strideOf (l : List Int) (d : Nat) : Int := l.getD (d - 1) 0

/-- Least and greatest element number of an operand (R187), over the dimensions listed. -/
def elemSpan (c : Card) (str : List Int) (dims : List Nat) : Int × Int :=
  dims.foldl (fun a d =>
    let k := ((c.cnt.getD d 1 : Nat) : Int) - 1
    let x := if d = 0 then k else k * strideOf str d
    (a.1 + min 0 x, a.2 + max 0 x)) (0, 0)

/-- The bounding pieces of element numbers lo to hi from a pointer. -/
def spanFoot (cx : Ctx) (base : Word) (m : BitVec 5) (sp : Int × Int) : List Foot :=
  let b0 := sp.1 * ((fmtBits m : Nat) : Int) / 8
  let b1 := ((sp.2 + 1) * ((fmtBits m : Nat) : Int) + 7) / 8
  footOf cx (base + BitVec.ofInt 64 b0) (b1 - b0).toNat

/-- Bytes of one index (Table 9.7). -/
def idxBytes (f : Nat) : Nat := if f = 3 then 8 else 4

/-- The index array of an XGATH. -/
def idxFoot (cx : Ctx) (c : Card) : List Foot :=
  if c.idxf = 0 then [] else footOf cx c.idx (idxBytes c.idxf * c.cnt.getD (c.ndim - 1) 0)

def regionFeet (cx : Ctx) (c : Card) (write : Bool) : List Foot :=
  (c.regions.filter fun r => r.write == write).flatMap fun r => footOf cx r.base r.len

/-- The read footprint (R188). -/
def readFeet (cx : Ctx) (c : Card) : List Foot :=
  let rs := regionFeet cx c false
  (if rs.isEmpty then spanFoot cx c.src c.sfmt (elemSpan c c.sstr (List.range c.ndim)) else rs) ++ idxFoot cx c

/-- The write footprint (R188). -/
def writeFeet (cx : Ctx) (c : Card) : List Foot :=
  let rs := regionFeet cx c true
  if rs.isEmpty then spanFoot cx c.dst c.dfmt (elemSpan c c.dstr (List.range c.ndim)) else rs

def Foot.meets (a b : Foot) : Bool := a.space == b.space && decide (a.lo < b.hi) && decide (b.lo < a.hi)
def feetMeet (a b : List Foot) : Bool := a.any fun x => b.any fun y => x.meets y

/-- Formats on which a reduction works (Table 14.5). -/
def collFmt (m : BitVec 5) : Option (BitVec 3) :=
  match m.toNat with
  | 0x03 => some 0
  | 0x04 => some 1
  | 0x07 => some 2
  | 0x0C => some 3
  | 0x0D => some 4
  | _ => none

/-- The checks of R186, R269 and R398 on the bytes of a card and its extension. -/
def cardOk (k : JobKind) (cx : Ctx) (bs : List Byte) : Bool :=
  let ctl := cardCtl bs
  let c := parseCard bs
  let nreg := natBits ctl 13 3
  let swin := natBits ctl 18 2
  let dwin := natBits ctl 20 2
  let iwin := natBits ctl 22 2
  let below := (List.range 6).all fun d => if d < c.ndim then c.cnt.getD d 0 != 0 else c.cnt.getD d 0 == 0
  let strides := (List.range 5).all fun d => decide (d + 1 < c.ndim) || (c.sstr.getD d 0 == 0 && c.dstr.getD d 0 == 0)
  let regions := c.regions.all fun r => r.len != 0
  let ext := (List.range 4).all fun e =>
    if e < nreg then decide (cardAt bs (64 + 16 * e + 15) 1 ≤ 1) else decide (nreg = 0) || cardAt bs (64 + 16 * e) 16 == 0
  natBits ctl 29 3 == 0 && decide (1 ≤ c.ndim) && decide (c.ndim ≤ 6) && below && strides && decide (nreg ≤ 4) && regions && ext &&
    jobFmtOk c.sfmt && jobFmtOk c.dfmt && packedOk c.sfmt c c.sstr && packedOk c.dfmt c c.dstr &&
    widenOk swin (cardAt bs 0 6) && widenOk dwin (cardAt bs 6 6) && widenOk iwin (cardAt bs 12 6) &&
    (match k with
     | .copy => c.op == 0 && c.idxf == 0 && cardAt bs 12 6 == 0 && iwin == 0
     | .gather => c.op == 0 && c.idxf != 0 && (c.regions.any fun r => !r.write) && (decide (c.ndim ≤ 1) || strideOf c.sstr (c.ndim - 1) == 0)
     | .coll => decide (1 ≤ c.op) && decide (c.op ≤ 4) && c.idxf == 0 && cardAt bs 12 6 == 0 && iwin == 0 && swin == 0 && dwin == 0 &&
         (c.op == 1 || (collFmt c.dfmt).isSome)) &&
    !feetMeet (readFeet cx c) (writeFeet cx c)

-- ## Errors and completion

/-- The control threads that may hold a task: running, saved, or parked. f changes a thread, g a parked task. -/
def State.onTaskHolder (s : State) (task : Word) (f : Thread → Thread) (g : Parked → Parked) : State :=
  let upd (t : Thread) : Thread := if t.task.taskid = task then f t else t
  (s.mapThreads upd).onPkg fun p =>
    { p with saved := p.saved.map upd, parked := p.parked.map fun k => if k.task.taskid = task then g k else k }

/-- The kept error of a trap. -/
def Trap.kept (t : Trap) : BitVec 8 × Word := (t.code, t.sfva)

def State.putJob (s : State) (core : Nat) (j : Job) : State :=
  s.onCore core fun k => { k with jobs := k.jobs.map fun o => if o.id = j.id then j else o }

-- ## What a job moves (R187, R269)

/-- The nest index of a position, i0 fastest. -/
def nestIndex : List Nat → Nat → List Nat
  | [], _ => []
  | c :: cs, n => n % c :: nestIndex cs (n / c)

/-- The number of positions of a card. -/
def positions (c : Card) : Nat := (c.cnt.take c.ndim).foldl (· * ·) 1

/-- Element number of a nest index under strides, over the dimensions listed. -/
def elemNumber (str : List Int) (ix : List Nat) (dims : List Nat) : Int :=
  dims.foldl (fun a d => a + (if d = 0 then ((ix.getD 0 0 : Nat) : Int) else ((ix.getD d 0 : Nat) : Int) * strideOf str d)) 0

/-- Byte address and bit within it of an element. -/
def elemPlace (base : Word) (m : BitVec 5) (n : Int) : Word × Nat :=
  let b := n * ((fmtBits m : Nat) : Int)
  (base + BitVec.ofInt 64 (b / 8), (b % 8).toNat)

/-- A request from a core's die to a home, and its reply (R280). -/
def roundFrom (s : State) (lcore pa : Nat) : State := askDie s (dieOf lcore) (homeDie pa)

/-- Bytes that one element of a format touches. -/
def fmtBytes (m : BitVec 5) : Nat := max 1 (fmtBits m / 8)

/-- The pieces of an access: whole where it is aligned, byte by byte otherwise. -/
def piecesOf (va : Word) (n : Nat) : List (Word × Nat) :=
  if va.toNat % n = 0 then [(va, n)] else (List.range n).map fun i => (va + BitVec.ofNat 64 i, 1)

/-- The agent of a job's accesses. -/
def Job.by_ (j : Job) (core : Nat) : By := .job core j.ctno

/-- What an access of a job answers: its value, and what the job has asked for. -/
abbrev Asked (α : Type) := α × Asking

/-- An engine reads n bytes. -/
def engineRead (cx : Ctx) (va : Word) (n : Nat) (k : Asking) (s : State) : Res (Asked Nat) :=
  (foldRes (fun (acc : Asked (List Byte)) x s =>
    (resolve cx { kind := 1 } x.1 x.2 s).andThen fun p s =>
      let b := readBytes (l1Read s false cx.lcore p.pa) cx.by_ p.pa x.2
      let r := acc.2.ask false (linesOf p.pa x.2) b.2
      .ok (acc.1 ++ b.1, r.1) r.2) (piecesOf va n) ([], k) s).andThen fun r s => .ok (leNat r.1, r.2) s

/-- The bits of bytes that a job has written in one step: once it has written all of a line its writes are a full-line write, which clears the line's poison
(R271, log entry 138). -/
def Asking.wrote (k : Asking) (pa n : Nat) (mask : Byte) (s : State) : Asking × State :=
  if s.m.poison.isEmpty then (k, s)
  else
    let bits (f : List (Nat × Byte)) (a : Nat) : Byte := ((f.find? (·.1 == a)).map (·.2)).getD 0
    let f := (List.range n).foldl (fun f i => f.filter (·.1 != pa + i) ++ [(pa + i, bits f (pa + i) ||| mask)]) k.full
    ({ k with full := f }, (linesOf pa n).foldl (fun s l => if (List.range 64).all fun i => bits f (l + i) == 0xFF then clearPoison s l 64 else s) s)

/-- An engine writes n bytes (R182): it takes no ownership. -/
def engineWrite (cx : Ctx) (by_ : By) (va : Word) (n v : Nat) (k : Asking) (s : State) : Res Asking :=
  foldRes (fun (acc : Asking) x s =>
    (resolve cx { kind := 2 } x.1 x.2 s).andThen fun p s =>
      let s1 := writeHome (roundFrom s cx.lcore p.pa) by_ p.pa (toBytes x.2 (v / 2 ^ (8 * (x.1 - va).toNat)))
      let r := acc.wrote p.pa x.2 0xFF s1
      let q := r.1.ask true (linesOf p.pa x.2) r.2
      .ok q.1 q.2) (piecesOf va n) k s

/-- An engine reduces into an element of n bytes (Table 14.5): each piece of it is made ready, and its line taken from every holder; then the old value is
read, and the new one written. The read and the write of its line count as one request (log entry 144). -/
def engineReduce (cx : Ctx) (by_ : By) (va : Word) (w op : BitVec 3) (v : Nat) (k : Asking) (s : State) : Res Asking :=
  let n := amoBytes w
  (foldRes (fun (acc : Asked (List (Nat × Nat))) x s =>
    (resolve cx { kind := 3 } x.1 x.2 s).andThen fun p s =>
      let c := claimBytes (roundFrom s cx.lcore p.pa) by_ .recall p.pa x.2
      let r := acc.2.ask true (linesOf p.pa x.2) c.2
      .ok (acc.1 ++ [(c.1, x.2)], r.1) r.2) (piecesOf va n) ([], k) s).andThen fun r s =>
    let old := leNat (r.1.flatMap fun p => s.bytesAt p.1 p.2)
    let new := toBytes n (atomicOp op (amoType w) old v).1
    let bytes := if r.1.length = 1 then [new] else new.map ([·])
    .ok r.2 ((r.1.zip bytes).foldl (fun s x => (markEarly s by_ x.1.1 x.1.2).setBytes x.1.1 x.2) s)

/-- The bytes of an access lie in the declared regions of its kind (R188). -/
def inRegions (cx : Ctx) (c : Card) (write : Bool) (va : Word) (n : Nat) : Bool :=
  let rs := regionFeet cx c write
  rs.isEmpty || (List.range n).all fun i => feetMeet (footOf cx (va + BitVec.ofNat 64 i) 1) rs

/-- The error of a region violation. -/
def boundsError {α : Type} (kind : BitVec 2) (va : Word) (s : State) : Res α := .trap (faultTrap Code.bounds { kind := kind } va 0 false) s

/-- A value of the source format as the destination format holds it (R134 to R138); equal formats copy bits. -/
def convertFmt (sf df : BitVec 5) (raw : Nat) : Nat :=
  if sf = df then raw
  else
    let n := mfPacked sf
    let ty := if n ≠ 0 then 0 else mfType sf 0
    let v := if n ≠ 0 then wrapN 8 (toSigned n raw) else raw
    match mfPacked df with
    | 0 => (convert Rc.rne ty (mfType df 0) v).1
    | k =>
      let i := toSigned 64 (convert Rc.rne ty 3 v).1
      wrapN k (max (-(2 ^ (k - 1) : Nat)) (min ((2 ^ (k - 1) : Nat) - 1) i))

/-- The source element number of a position (R187): of an XGATH the outermost term is an index value. -/
def sourceNumber (cx : Ctx) (c : Card) (ix : List Nat) (k : Asking) (s : State) : Res (Asked Int) :=
  if c.idxf = 0 then .ok (elemNumber c.sstr ix (List.range c.ndim), k) s
  else
    let o := c.ndim - 1
    let n := idxBytes c.idxf
    (engineRead cx (c.idx + BitVec.ofNat 64 (n * ix.getD o 0)) n k s).andThen fun v s =>
      let i : Int := if c.idxf = 2 then v.1 else toSigned (8 * n) v.1
      .ok (elemNumber c.sstr ix (List.range o) + i, v.2) s

/-- Reads the source element of a position, converted. -/
def moveRead (cx : Ctx) (c : Card) (ix : List Nat) (k : Asking) (s : State) : Res (Asked Nat) :=
  (sourceNumber cx c ix k s).andThen fun n s =>
    let p := elemPlace c.src c.sfmt n.1
    if !inRegions cx c false p.1 (fmtBytes c.sfmt) then boundsError 1 p.1 s
    else (engineRead cx p.1 (fmtBytes c.sfmt) n.2 s).andThen fun v s =>
      .ok (convertFmt c.sfmt c.dfmt (natBits v.1 p.2 (fmtBits c.sfmt)), v.2) s

/-- Writes the destination element of a position, or reduces into it (Table 14.5). The read and the write of a packed element's byte count as one request
(log entry 144). -/
def moveWrite (cx : Ctx) (by_ : By) (c : Card) (ix : List Nat) (v : Nat) (k : Asking) (s : State) : Res Asking :=
  let at_ := elemPlace c.dst c.dfmt (elemNumber c.dstr ix (List.range c.ndim))
  let n := fmtBytes c.dfmt
  if !inRegions cx c true at_.1 n then boundsError 2 at_.1 s
  else
    match (if c.op ≤ 1 then none else collFmt c.dfmt) with
    | some w => engineReduce cx by_ at_.1 w (if c.op = 2 then 0 else if c.op = 3 then 2 else 1) v k s
    | none =>
      if fmtBits c.dfmt < 8 then
        (resolve cx { kind := 2 } at_.1 1 s).andThen fun p s =>
          let c1 := claimBytes (roundFrom s cx.lcore p.pa) by_ (.merge by_.cluster) p.pa 1
          let s2 := performHome c1.2 by_ (.merge by_.cluster) c1.1 [putBits (c1.2.byteAt c1.1) at_.2 (fmtBits c.dfmt) v]
          let q := k.wrote p.pa 1 (BitVec.ofNat 8 ((2 ^ fmtBits c.dfmt - 1) * 2 ^ at_.2)) s2
          let r := q.1.ask true (linesOf p.pa 1) q.2
          .ok r.1 r.2
      else engineWrite cx by_ at_.1 n v k s

/-- Moves one position. -/
def movePos (cx : Ctx) (by_ : By) (c : Card) (pos : Nat) (k : Asking) (s : State) : Res Asking :=
  let ix := nestIndex (c.cnt.take c.ndim) pos
  (moveRead cx c ix k s).andThen fun v s => moveWrite cx by_ c ix v.1 v.2 s

/-- How far a job got. -/
inductive Moved where
  | all (s : State)
  | stopped (pos : Nat) (t : Trap) (s : State)
  | later (pos : Nat) (s : State)
  | gone (s : State)

/-- Moves the positions from pos on, n of them. -/
def moveFrom (cx : Ctx) (by_ : By) (c : Card) : Nat → Nat → Asking → State → Moved
  | 0, _, _, s => .all s
  | n + 1, pos, k, s =>
    match movePos cx by_ c pos k s with
    | .ok k1 s1 => moveFrom cx by_ c n (pos + 1) k1.next s1
    | .trap t s1 => .stopped pos t s1
    | .wait _ s1 => .later pos s1
    | .gone s1 => .gone s1

-- ## The scheduler (R189)

/-- A job waits for an earlier one with which it has a footprint edge. -/
def edge (a b : Job) : Bool := feetMeet a.writes b.reads || feetMeet a.reads b.writes || feetMeet a.writes b.writes

/-- The job that starts: of those that are ready and have no edge to an earlier uncompleted one, the oldest. R189 lets any of them start; which one is the
model's choice (log entry 109). -/
def nextJob : List Job → List Job → Option Job
  | _, [] => none
  | before, j :: r =>
    match j.state with
    | .ready _ => if before.any fun b => edge b j then nextJob (before ++ [j]) r else some j
    | _ => nextJob (before ++ [j]) r

/-- SCAUSE of a job fault (R238): ENG is set. -/
def jobCause (t : Trap) : Word := scauseOf t true 0

/-- A fill's rows are left owned by no task (R342). -/
def dropPanel (s : State) (core id : Nat) : State := s.onCore core fun k => { k with panels := k.panels.filter fun p => p.id != id }

/-- A refill that meets poison leaves that with its fill record (R342). -/
def markPoisoned (s : State) (task : Word) (panel : Nat) : State :=
  let mark (r : FillRec) : FillRec := if r.panel = panel ∧ r.refill then { r with poisoned := true } else r
  s.onTaskHolder task (fun t => { t with mx := { t.mx with fills := t.mx.fills.map mark } }) fun p => { p with fills := p.fills.map mark }

/-- The state of a job after it stopped on a cause: it pauses on PAGE_ABSENT, and any other error ends it (R190); a fill ends with its rows
owned by no task (R342). -/
def stopJob (s : State) (core : Nat) (j : Job) (pos : Nat) (t : Trap) : State :=
  if t.code = Code.pageAbsent then
    (s.putJob core { j with state := .paused pos (jobCause t) t.sfva false }).push [.jobPageFault core]
  else
    match j.engine with
    | .fill id =>
      let s1 := if t.code = Code.poison then markPoisoned s j.task id else s
      dropPanel (s1.putJob core { j with state := .moved }) core id
    | _ => s.putJob core { j with state := .moved, err := some t.kept }

/-- Nothing asked for yet. -/
def Job.asking (j : Job) (core : Nat) : Asking := ⟨core, j.engine.num, [], [], []⟩

/-- Reads units of a fill's source, from a position on: the job as it then stands, and how far it got. -/
def fillFrom (cx : Ctx) (panel : Nat) : List (Option (Word × Nat)) → Nat → Job → Asking → State → Job × Moved
  | [], _, j, _, s => (j, .all s)
  | none :: r, pos, j, k, s => fillFrom cx panel r (pos + 1) { j with units := 0 :: j.units } k s
  | some u :: r, pos, j, k, s =>
    match fillUnit cx j.task panel u.1 u.2 j.got k s with
    | .ok v s1 => fillFrom cx panel r (pos + 1) { j with units := v.1 :: j.units, got := v.2.1 } v.2.2 s1
    | .trap t s1 => (j, .stopped pos t s1)
    | .wait _ s1 => (j, .later pos s1)
    | .gone s1 => (j, .gone s1)

/-- A fill's job runs on from its position, as far as the schedule lets it in one step (log entry 109): it reads its source, also where its panel is gone
(R151, R152, R190); once it has read all of it, its panel, where it is there, holds what was read. -/
def runFill (s : State) (core id pos : Nat) (j : Job) (r : FillRec) : State :=
  let us := (fillUnits (fillOpOf r.instr r.alg) (FillCard.parse r.card)).drop pos
  let n := if s.sched.jobLines = 0 then us.length else s.sched.jobLines
  let f := fillFrom (j.ctx core) id (us.take n) pos j (j.asking core) s
  match f.2 with
  | .all s1 =>
    if n < us.length then (s1.putJob core { f.1 with state := .ready (pos + n) }).push [.jobStart core]
    else
      let done := fillContents (newPanel j.task r) f.1.units.reverse
      ((s1.onCore core fun k => { k with panels := k.panels.map fun p => if p.id = id then done else p }).putJob core
        { j with state := .moved, got := [], units := [] }).push (fillSteps core r)
  | .stopped p t s1 => stopJob s1 core f.1 p t
  | .later p s1 => s1.putJob core { f.1 with state := .ready p }
  | .gone s1 => containTaskId (dropPanel (s1.putJob core { j with state := .moved, got := [], units := [] }) core id) j.task

/-- Runs a job from where it stands, as far as the schedule lets it in one step (log entry 109). -/
def runJob (s : State) (core : Nat) (j : Job) : State :=
  let pos := match j.state with
    | .ready p => p
    | _ => 0
  match j.engine, j.fill with
  | .fill id, some r => runFill s core id pos j r
  | .fill _, none => s.putJob core { j with state := .moved }
  | _, _ =>
    let left := positions j.card - pos
    let n := if s.sched.jobLines = 0 then left else min left s.sched.jobLines
    match moveFrom (j.ctx core) (j.by_ core) j.card n pos (j.asking core) s with
    | .all s1 =>
      if n < left then (s1.putJob core { j with state := .ready (pos + n) }).push [.jobStart core, .jobComplete core]
      else s1.putJob core { j with state := .moved }
    | .stopped p t s1 => stopJob s1 core j p t
    | .later p s1 => s1.putJob core { j with state := .ready p }
    | .gone s1 => containTaskId (s1.putJob core { j with state := .moved }) j.task

/-- JOB_START: the scheduler of a core starts the oldest job that has no footprint edge to an earlier uncompleted one; the job makes
its writes. -/
def execJobStart (core : Nat) (s : State) : Host.Outcome State Fault Refusal :=
  match nextJob [] (s.core core).jobs with
  | some j => .next (runJob s core j)
  | none => .next s

/-- Every row of a fill's panel has been written, where the fill has one (R151). -/
def fillDone (s : State) (core : Nat) (j : Job) : Bool :=
  match j.engine with
  | .fill id => (s.core core).panels.all fun p => p.id != id || decide (p.len ≤ p.ready)
  | _ => true

/-- Puts a kept error in its place: errors stay in the order in which their jobs were issued (R190, R399). -/
def keepError (es : List KeptError) (e : KeptError) : List KeptError := insertBy (fun a b => decide (a.job ≤ b.job)) e es

/-- What a completed job leaves: PEND where its card sets INT, and its error with its tag (R190, R191). -/
def reportJob (s : State) (j : Job) : State :=
  let keep (es : List KeptError) : List KeptError :=
    match j.err with
    | some (c, a) => keepError es ⟨j.id, j.tag, c, a⟩
    | none => es
  s.onTaskHolder j.task
    (fun t => { t with uli := { t.uli with pend := if j.card.int then t.uli.pend ||| (1#32 <<< j.tag) else t.uli.pend, errs := keep t.uli.errs } })
    (fun p => { p with errs := keep p.errs })

/-- A pre-empted task whose jobs have all completed is queued again (R399). -/
def requeueAfter (s : State) (task : Word) : State :=
  match s.pkg.saved.find? fun t => t.task.taskid == task with
  | some t => requeueSaved s t
  | none => s

/-- JOB_COMPLETE: a job all of whose writes have performed leaves the scheduler. -/
def execJobComplete (core : Nat) (s : State) : Host.Outcome State Fault Refusal :=
  match (s.core core).jobs.find? fun j => j.state == .moved && fillDone s core j with
  | none => .next s
  | some j =>
    let s1 := s.onCore core fun k => { k with jobs := k.jobs.filter fun o => o.id != j.id }
    let s2 := containParked (serveParked (requeueAfter (reportJob s1 j) j.task))
    .next (if (s2.core core).jobs.isEmpty then s2 else s2.push [.jobStart core, .jobComplete core])

/-- JOB_PAGE_FAULT: a paused job posts its fault to Korier's ring (R238). -/
def execJobPageFault (core : Nat) (s : State) : Host.Outcome State Fault Refusal :=
  match (s.core core).jobs.findSome? (fun j =>
    match j.state with
    | .paused p c v false => some (j, p, c, v)
    | _ => none) with
  | none => .next s
  | some (j, p, c, v) =>
    .next ((s.putJob core { j with state := .paused p c v true }).onPkg fun k => { k with jobFaults := k.jobFaults ++ [⟨core, j.tag, v, c⟩] })

/-- FILL_ROW_WRITE: the fill of a core writes the next row of the oldest panel whose source has been read, and the row becomes ready (R151). -/
def execFillRowWrite (core : Nat) (s : State) : Host.Outcome State Fault Refusal :=
  let k := s.core core
  let moved (id : Nat) : Bool := k.jobs.any fun j => j.engine == .fill id && j.state == .moved
  match k.panels.find? fun p => decide (p.ready < p.len) && moved p.id with
  | none => .next s
  | some p => .next (s.onCore core fun k => { k with panels := k.panels.map fun q => if q.id = p.id then { q with ready := q.ready + 1 } else q })

-- ## The instructions (R397 to R399)

/-- Issues a job (R398): ALIGN, the card and its extension by scalar loads, the checks, a free place, and the hand-over. -/
def issueJob (k : JobKind) (t a : Reg) (s : State) : Host.Outcome State Fault Refusal :=
  let c := s.getX a
  if c.toNat % 64 ≠ 0 then takeTrap (scalarRecord 8 (faultTrap Code.align { kind := 1 } c 0 false)) s
  else
    finish ((unitLoad true c 8 8 8 s []).andThen fun bs s =>
      (if natBits (cardCtl bs) 13 3 = 0 then .ok bs s else unitLoad true (c + 64) 8 8 8 s bs).andThen fun bs s =>
        if !cardOk k s.ctx bs then .trap { code := Code.illegal } s
        else if Config.jobLimit ≤ (s.core s.ct.lcore).jobs.length then .wait .job s
        else
          let card := parseCard bs
          let job : Job :=
            { id := s.pkg.idCtr, engine := k.engine, tag := t.toNat, task := s.ct.task.taskid, ctno := s.ct.ctno, card := card,
              troot := s.ct.sup.troot, stashBase := s.ct.task.stashBase, stashLen := s.ct.task.stashLen, launch := s.ct.task.launch, level := s.ct.level,
              reads := readFeet s.ctx card, writes := writeFeet s.ctx card, state := .ready 0, err := none }
          let s1 := (s.onPkg fun p => { p with idCtr := p.idCtr + 1 }).onCore s.ct.lcore fun k => { k with jobs := k.jobs ++ [job] }
          .ok () ((s1.push [.jobStart s.ct.lcore, .jobComplete s.ct.lcore]).advance))

def execXcopy (t a : Reg) (s : State) : Host.Outcome State Fault Refusal := withProfile .lx s (issueJob .copy t a s)
def execXgath (t a : Reg) (s : State) : Host.Outcome State Fault Refusal := withProfile .lx s (issueJob .gather t a s)
def execXcoll (t a : Reg) (s : State) : Host.Outcome State Fault Refusal := withProfile .lx s (issueJob .coll t a s)

/-- A job of a tag: fills have none. -/
def Job.ofTag (j : Job) (t : Nat) : Bool :=
  match j.engine with
  | .fill _ => false
  | _ => j.tag == t

/-- XWAIT and a completion handler acquire the writes of the jobs they report (R189). -/
def acquireJobs (s : State) : State := acquire s 0 false [.scalar, .vector]

/-- XWAIT (R399). The trap of a kept error holds its code and SFVA; its SCAUSE.KIND and ENG, which R190 and R399 do not give, are 0 (log entry 137). -/
def execXwait (t : Reg) (s : State) : Host.Outcome State Fault Refusal :=
  withProfile .lx s
    (if (jobsOf s s.ct.lcore s.ct.task.taskid).any fun j => j.ofTag t.toNat then .next (s.waitFor .job)
     else
      let s1 := s.onUli fun u => { u with pend := u.pend &&& ~~~ (1#32 <<< t.toNat) }
      match s1.ct.uli.errs.find? fun e => e.tag == t.toNat with
      | some e => takeTrap { code := e.code, sfva := e.addr, report := true } ((acquireJobs s1).onUli fun u => { u with errs := u.errs.erase e })
      | none => .next (acquireJobs s1).advance)

end Sys2Proof.Machine
end

