-- ==== Sys2Proof/Machine/System.lean ====
section
/-!
DEFINITION. The system instructions: SYSC, BRK, SRET, CSRR, CSRW, WAITE, URET (R306, R309 to R311, R355, R362, R396), TMARK (R289), NSET and
NLOOP (R195, R196, R346, R347), QPUSH, QPOP and QCNT (R351, R352), and the delivery of a user-level completion (R192).
-/

namespace Sys2Proof.Machine

-- ## Traps on request, and the return

/-- A trap that an instruction asks for (R306): once the VIQ is empty, with every fault CSR zero. -/
def requestTrap (code : BitVec 8) (s : State) : Host.Outcome State Fault Refusal :=
  withProfile .lb s (whenDrained s (takeTrap { code := code } s))

/-- SYSC and BRK (R306); the handler finds the number in the word at SEPC. -/
def execSysc (n : BitVec 10) (s : State) : Host.Outcome State Fault Refusal := let _ := n; requestTrap Code.syscall s
def execBrk (n : BitVec 10) (s : State) : Host.Outcome State Fault Refusal := let _ := n; requestTrap Code.brk s

/-- The level that SCAUSE.PRV codes; only U and S occur (Table 11.9). -/
def prvLevel (scause : Word) : Level := if bitsOf scause 19 2 = 0 then .u else .s

/-- The landing check of a return, made where a stopped vector instruction would resume: the word at the pc, then the stop goes on. s0: the state before
the return, which waits for the fetch. -/
def landThenResume (s0 s : State) : Host.Outcome State Fault Refusal :=
  match fetchWord s s.ct.pc with
  | .ok w s1 => if isLand w then .next (resumeStopped s1) else takeTrap { code := Code.landing } s1
  | .trap t s1 => takeTrap { t with lpend := true } s1
  | .wait _ _ => .next s0
  | .gone s1 => .next (s1.onCtl fun c => { c with contain := true })

/-- THE RETURN FROM A TRAP (R355): the level, then the start in hand, or the pending landing check and the stopped instruction. The check is left to the
scalar stream where nothing is stopped. -/
def returnFromTrap (s : State) : Host.Outcome State Fault Refusal :=
  let c := s.ct.sup.scause
  let s1 := s.enter (prvLevel c) (s.ct.sup.sepc &&& ~~~ 3)
  if c.getLsbD 15 then finishStart (s1.onCtl fun x => { x with spend := some s.ct.task.record })
  else if c.getLsbD 8 && s1.ct.vec.stopped.isSome then landThenResume s s1
  else .next (resumeStopped (s1.onCtl fun x => { x with lpend := c.getLsbD 8 }))

/-- SRET traps PRIV in U (R39). -/
def execSret (s : State) : Host.Outcome State Fault Refusal :=
  withProfile .lb s (if s.ct.level = .u then takeTrap { code := Code.priv } s else returnFromTrap s)

-- ## CSRs (Tables 2.7 and 16.5)

def csrProfile (n : Nat) : Profile :=
  if n ≤ 2 then .lv
  else if n = 5 then .lm
  else if 7 ≤ n ∧ n ≤ 9 then .lo
  else if n = 0xA ∨ n = 0xB then .lx
  else if n = 0xC then .lt
  else .lb

/-- CSRs that no CSRW writes: VCFG, VL, RACEADDR, TASKID and LCORE. -/
def csrReadOnly (n : Nat) : Bool := n == 0 || n == 1 || n == 9 || n == 0xC || n == 0xD

def csrSuper (n : Nat) : Bool := decide (0x100 ≤ n) && decide (n < 0x200)

/-- The CSRs of firmware, which only M reaches (R39, R241). -/
def csrFirmware (n : Nat) : Bool := decide (0x200 ≤ n)

/-- A firmware CSR holds what was written last: the spec names none of its fields (log entry 10). -/
def State.fwRead (s : State) (n : Nat) : Word := ((s.ct.fwcsr.find? fun c => c.1 == n).map (·.2)).getD 0
def State.fwWrite (s : State) (n : Nat) (v : Word) : State :=
  let rest := s.ct.fwcsr.filter fun c => c.1 != n
  s.onCt fun t => { t with fwcsr := if v = 0 then rest else insertBy (fun a b => decide (a.1 ≤ b.1)) (n, v) rest }

/-- CSRs whose read waits for the VIQ. -/
def csrReadWaits (n : Nat) : Bool := n == 2 || n == 3 || n == 5 || n == 8 || n == 9

/-- CSRs whose write waits for the VIQ. -/
def csrWriteWaits (n : Nat) : Bool := n == 2 || n == 3 || n == 5 || n == 6 || n == 7 || n == 8 || n == 0x107

/-- ULISTAT (Table 9.10). -/
def UliSt.word (u : UliSt) : Word :=
  u.pend ++ (0 : BitVec 18) ++ bit u.err ++ u.tag ++ (0 : BitVec 6) ++ bit u.act ++ bit u.mask

/-- The value of a CSR, unlisted bits zero. -/
def csrValue (s : State) (n : Nat) : Word :=
  match n with
  | 0x000 => s.ct.vec.vcfg.word
  | 0x001 => BitVec.ofNat 64 s.ct.vec.vl
  | 0x002 => BitVec.ofNat 64 s.ct.vec.vstart
  | 0x003 => s.ct.fp.fstat.setWidth 64
  | 0x004 => s.ct.fp.frm.setWidth 64
  | 0x005 => s.ct.mx.mxflag.setWidth 64
  | 0x006 => s.ct.fp.seed
  | 0x007 => (bit s.ct.ord.detctl).setWidth 64
  | 0x008 => (bit s.ct.ord.race).setWidth 64
  | 0x009 => s.ct.ord.raceaddr
  | 0x00A => s.ct.uli.ulivec
  | 0x00B => s.ct.uli.word
  | 0x00C => s.ct.task.taskid
  | 0x00D => BitVec.ofNat 64 s.ct.lcore
  | 0x100 => s.ct.sup.scause
  | 0x101 => s.ct.sup.sepc
  | 0x102 => s.ct.sup.sfva
  | 0x103 => s.ct.sup.sfelem
  | 0x104 => s.ct.sup.sfstride
  | 0x105 => s.ct.sup.sfrem
  | 0x106 => s.ct.sup.sfwidth
  | 0x107 => s.ct.sup.troot
  | n => if csrFirmware n then s.fwRead n else 0

def State.onFp (s : State) (f : FpSt → FpSt) : State := { s with ct := { s.ct with fp := f s.ct.fp } }
def State.onSup (s : State) (f : SupSt → SupSt) : State := { s with ct := { s.ct with sup := f s.ct.sup } }

/-- Stores the bits that CSRW keeps. A change of DETCTL drains what the thread has buffered and drops what it read ahead, so that one byte keeps one
order (R200); the new root of TROOT applies to every later access (R226). -/
def csrStore (s : State) (n : Nat) (v : Word) : State :=
  match n with
  | 0x002 => s.onVec fun x => { x with vstart := bitsOf v 0 15 }
  | 0x003 => s.onFp fun x => { x with fstat := v.setWidth 5 }
  | 0x004 => s.onFp fun x => { x with frm := v.setWidth 3 }
  | 0x005 => s.onMx fun x => { x with mxflag := v.setWidth 3 }
  | 0x006 => s.onFp fun x => { x with seed := v }
  | 0x007 => (if s.ct.ord.detctl == v.getLsbD 0 then s else dropAhead (drainStores s)).onOrd fun x => { x with detctl := v.getLsbD 0 }
  | 0x008 => s.onOrd fun x => { x with race := v.getLsbD 0 }
  | 0x00A => s.onUli fun x => { x with ulivec := v }
  | 0x00B => s.onUli fun x => { x with pend := v.extractLsb' 32 32, mask := v.getLsbD 0 }
  | 0x100 => s.onSup fun x => { x with scause := v &&& 0x1EFFFF }
  | 0x101 => s.onSup fun x => { x with sepc := v &&& ~~~ 3 }
  | 0x102 => s.onSup fun x => { x with sfva := v }
  | 0x103 => s.onSup fun x => { x with sfelem := v }
  | 0x104 => s.onSup fun x => { x with sfstride := v }
  | 0x105 => s.onSup fun x => { x with sfrem := v }
  | 0x106 => s.onSup fun x => { x with sfwidth := v &&& 0xFFF }
  | 0x107 => (dropAhead s).onSup fun x => { x with troot := v &&& 0xFFFFFFFFFF000 }
  | n => if csrFirmware n then s.fwWrite n v else s

/-- A logged event of a task running in U (R293, R294). -/
def taskLogged (s : State) (ty : Nat) (v : Word) : Word × State := if s.ct.level = .u then logged s ty s.ct.pc v else (v, s)

/-- The type of the logged event that a read of a CSR is (Table 15.8). -/
def csrLogged (s : State) (n : Nat) (v : Word) : Word × State :=
  if n = 0xC ∨ n = 8 ∨ n = 9 then taskLogged s 4 v
  else if n = 0xB then taskLogged s 6 v
  else (v, s)

/-- The checks that CSRR and CSRW share (R39): profile and privilege. -/
def csrAccess (n : Nat) (waits : Bool) (s : State) (f : Host.Outcome State Fault Refusal) : Host.Outcome State Fault Refusal :=
  withProfile (csrProfile n) s
    (if (csrSuper n && s.ct.level == .u) || (csrFirmware n && s.ct.level != .m) then takeTrap { code := Code.priv } s
     else if waits then whenDrained s f else f)

def execCsrr (d : Reg) (c : BitVec 10) (s : State) : Host.Outcome State Fault Refusal :=
  withProfile .lb s (csrAccess c.toNat (csrReadWaits c.toNat) s
    (let r := csrLogged s c.toNat (csrValue s c.toNat)
     .next ((r.2.setX d r.1).advance)))

/-- A CSRW to a CSR that no level writes traps ILLEGAL first (R39, R49). -/
def execCsrw (v : Reg) (c : BitVec 10) (s : State) : Host.Outcome State Fault Refusal :=
  if csrReadOnly c.toNat then takeTrap { code := Code.illegal } s
  else
    withProfile .lb s (csrAccess c.toNat (csrWriteWaits c.toNat) s (.next ((csrStore s c.toNat (s.getX v)).advance)))

-- ## WAITE, URET, TMARK

/-- The control thread is the one its core pre-empts at this boundary (R107). -/
def preemptDue (s : State) : Bool :=
  match preemptVictim s s.ct.lcore with
  | some t => t.is s.ct.lcore s.ct.ctno
  | none => false

/-- The control thread is the one its core is to pre-empt, at its next boundary. -/
def preemptPending (s : State) : Bool :=
  match preemptChoice s s.ct.lcore with
  | some t => t.is s.ct.lcore s.ct.ctno
  | none => false

/-- An event that completes WAITE is pending (R396). -/
def eventPending (s : State) : Bool :=
  s.ct.uli.pend != 0 || s.ct.ctl.contain || preemptPending s || (s.ct.level != .u && s.pkg.jobFaults.any fun f => f.core == s.ct.lcore)

/-- WAITE. One that has begun completes before a completion is delivered (Table 19.12). -/
def execWaite (s : State) : Host.Outcome State Fault Refusal :=
  withProfile .lb s
    (if eventPending s then .next ((s.onCtl fun c => { c with waite := none }).advance)
     else .next ((s.onCtl fun c => { c with waite := some s.ct.pc }).waitFor .event))

/-- k0 (Table 1.1). -/
abbrev k0Reg : Reg := 21

/-- URET (R362): only in a completion handler. -/
def execUret (s : State) : Host.Outcome State Fault Refusal :=
  withProfile .lx s
    (if !s.ct.uli.act || s.ct.task.reflected then takeTrap { code := Code.illegal } s
     else
      let back := s.getX k0Reg &&& ~~~ 3
      .next ((s.swapBank.onUli fun u => { u with act := false }).jump back))

/-- TMARK (R289): a MARK record subject to the filter, and the triggers whose ETVAL equals the value, combined with those that a drop of that record
fires (R287). The TRIG records need only ON (log entry 145). -/
def execTmark (a : Reg) (s : State) : Host.Outcome State Fault Refusal :=
  withProfile .lb s
    (let d := dieOf s.ct.lcore
     let v := s.getX a
     let s1 := if passes s s.ct s.ct.pc then produceRaw s d 0x04 s.ct.source [(0x20, 8, s.ct.pc.toNat), (0x28, 8, v.toNat)] else s
     let fs := if (s.el d).etval = v then firings s1 d (fun t _ => trigSrc t == 3) 3 s.ct.source [] else []
     .next (fireAll s1 d (s.el d).elost fs (coreEngines s.ct.lcore)).advance)

-- ## NSET and NLOOP

/-- NSET (R195): a count above 65,535 traps ILLEGAL. -/
def execNset (d a b : Reg) (s : State) : Host.Outcome State Fault Refusal :=
  withProfile .lx s
    (if 65535 < (s.getX a).toNat then takeTrap { code := Code.illegal } s
     else
      .next ((s.onCt fun t => { t with nest := { t.nest with dims := t.nest.dims.set d.toNat ⟨(s.getX a).toNat, s.getX b⟩ } }).advance))

/-- The profiles that a word needs (Tables 2.4 to 2.6 and the reference entries). -/
def wordProfiles (w : IWord) : List Profile :=
  let maj := (w >>> 26).toNat
  let f := (w.extractLsb' 0 6).toNat
  if maj = 0x01 then (if w.extractLsb' 21 5 == 0 then [] else [.lb])
  else if maj = 0x1D then (if f ≤ 3 then [.lo] else if 0x10 ≤ f then [.lb] else [.lt])
  else if maj = 0x1E then
    (if f ≤ 2 then [.lv] else if f = 0x13 then [.lx] else if f = 0x14 then [.lb] else if f = 0x18 then [.la]
     else if 0x1A ≤ f then [.lx] else [.lt])
  else if maj = 0x1F then [.lx]
  else if maj < 0x20 then [.lb]
  else if maj = 0x2C then [.la]
  else if maj = 0x31 then [.lm]
  else if maj = 0x32 then
    (match decode w with
     | some (.mfill _ _ _ e _ _) => if e = 1 then [.lm, .la] else [.lm]
     | _ => [.lm])
  else [.lv]

/-- A word that may stand in a body (R196): one that R79 sends to the VIQ, other than VCFG. -/
def inNest (w : IWord) : Bool :=
  match decode w with
  | some (.qpopVector _ _) => true
  | _ => decide (0x21 ≤ (w >>> 26).toNat)

/-- Fetches n words from an address on; a fault is reported at the NLOOP (R347). -/
def fetchBody : Nat → Word → List IWord → State → Res (List IWord)
  | 0, _, acc, s => .ok acc s
  | n + 1, va, acc, s => (fetchWord s va).andThen fun w s => fetchBody n (va + 4) (acc ++ [w]) s

/-- NLOOP (R196): captures the body and the dimensions, resets the dimensions, and hands the nest to the vector stream. -/
def execNloop (k : BitVec 5) (s : State) : Host.Outcome State Fault Refusal :=
  withProfile .lx s
    (let n := k.toNat + 1
     finish (((fetchBody n (s.ct.pc + 4) [] s).mapTrap fun t => { t with sepc := some s.ct.pc }).andThen fun ws s =>
       if ws.any fun w => (decode w).isNone then .trap { code := Code.illegal } s
       else if ws.any fun w => (wordProfiles w).any fun p => !s.has p then .trap { code := Code.profile } s
       else if ws.any fun w => !inNest w then .trap { code := Code.illegal } s
       else
        let run : NestRun := ⟨s.ct.nest.dims, n, List.replicate 6 0, 0⟩
        let s1 := s.onCt fun t => { t with nest := ⟨dimsStart, some ⟨t.pc + 4, ws⟩, t.nest.runs ++ [run]⟩ }
        .ok () s1.advance))

-- ## Queues

/-- The values that a queue holds. -/
def State.queue (s : State) (q : Nat) : List Word := s.ct.vec.queues.toList.getD q []

/-- QPUSH (R352): q4 to q7 trap QUEUE; a full queue blocks the scalar stream (R75). -/
def execQpush (q a : Reg) (s : State) : Host.Outcome State Fault Refusal :=
  withProfile .lv s
    (if 4 ≤ q.toNat then takeTrap { code := Code.queue } s
     else if s.roomIn q.toNat then .next ((s.pushQueue q.toNat (s.getX a)).advance)
     else .next (s.waitFor .queue))

/-- QPOP of q4 to q7 (R352): an empty queue blocks the scalar stream. -/
def execQpop (d q : Reg) (s : State) : Host.Outcome State Fault Refusal :=
  withProfile .lv s
    (match s.queue q.toNat with
     | [] => .next (s.waitFor .queue)
     | v :: r => .next (((s.onVec fun x => { x with queues := x.queues.setIfInBounds q.toNat r }).setX d v).advance))

/-- QCNT (R352, R77). -/
def execQcnt (d q : Reg) (s : State) : Host.Outcome State Fault Refusal :=
  withProfile .lv s
    (let r := taskLogged s 2 (BitVec.ofNat 64 (s.queue q.toNat).length)
     .next ((r.2.setX d r.1).advance))

-- ## User-level completions (R192, R294)

/-- Delivers the completion of a tag: TAG, ERR and ACT, the shadow bank with the interrupted address in k0, and the jump to ULIVEC, which must name
a LAND. -/
def deliverTag (s : State) (t : Nat) : State :=
  let err := s.ct.uli.errs.any fun e => e.tag == t
  let s1 := (logged s 5 s.ct.pc (BitVec.ofNat 64 (2 * t + if err then 1 else 0))).2
  let s2 := s1.onUli fun u => { u with pend := u.pend &&& ~~~ (1#32 <<< t), tag := BitVec.ofNat 5 t, err := err, act := true }
  let s3 := s2.swapBank.setX k0Reg s.ct.pc
  ((acquireJobs s3).jump (s3.ct.uli.ulivec &&& ~~~ 3)).onCtl fun c => { c with lpend := true }

/-- The delivery that a log forces at this boundary (R294): none where forcing has stopped, the tag at the logged address otherwise; and the state after
the reads of the log. -/
def forcedTag (s : State) : Option (Option Nat) × State :=
  let d := dieOf s.ct.lcore
  if (s.el d).replaying && inReplay s s.ct && !s.ct.task.diverged then
    let r := findLog s d s.ct.task.lkey s.ct.task.events
    (some (match r.1 with
      | some (ty, pc, v) => if ty = 5 ∧ pc = s.ct.pc then some (v.toNat / 2 % 32) else none
      | none => none), r.2)
  else (none, s)

/-- The tag to deliver at this boundary: the lowest pending one; under replay the logged one, once it is pending. -/
def tagToDeliver (s : State) : Option Nat :=
  match (forcedTag s).1 with
  | some t => t.filter s.ct.uli.pend.getLsbD
  | none => (List.range 32).find? fun t => s.ct.uli.pend.getLsbD t

/-- The acting control thread can take a delivery (R192). A nest whose body is still to be dispatched is one instruction (R196); the waits of TEND and
TPARK for the VIQ, which discard deliveries to queues, are no boundary, the wait for jobs is one (log entry 110). -/
def atOpen (s : State) : Bool :=
  s.ct.status == .running && s.ct.level == .u && !s.ct.uli.mask && !s.ct.uli.act && s.ct.uli.ulivec != 0 && s.ct.nest.capture.isNone &&
    s.ct.ctl.spend.isNone && !s.landing && s.ct.ctl.post.isNone && s.ct.ctl.ltask.isNone && s.ct.ctl.wait != .ending &&
    s.ct.ctl.waite != some s.ct.pc

/-- A completion can be delivered to the acting control thread. -/
def deliverable (s : State) : Bool := atOpen s && (tagToDeliver s).isSome

/-- A replayed task waits at this boundary for the completion of the logged tag (R294). -/
def awaitsDelivery (s : State) : Bool := atOpen s && (tagToDeliver s).isNone && (forcedTag s).1.any Option.isSome

/-- The log is asked for the delivery at a boundary as the word there begins, once (R280, R294, log entry 152). -/
def askLog (s : State) : State := if atOpen s && s.ct.ctl.wait == .none && !logWaits s then (forcedTag s).2 else s

/-- UL_DELIVERY: a completion is delivered to the acting control thread, where R192 lets one be. -/
def execUlDelivery (s : State) : Host.Outcome State Fault Refusal :=
  if deliverable s then
    match tagToDeliver s with
    | some t => .next (deliverTag (askLog s) t)
    | none => .next s
  else .next s

end Sys2Proof.Machine
end

