-- ==== Sys2Proof/Machine/Sync.lean ====
section
/-!
DEFINITION. AMO and CAS (R245 to R248, R302, R303, R308), FENCE and the implicit releases (R202 to R206, R317), the group instructions (R319 to
R323) and IPOST and IWAIT (R324 to R326).
-/

namespace Sys2Proof.Machine

-- ## Releases

/-- Every memory access of every earlier VIQ entry has performed. -/
def vecQuiet (s : State) : Bool :=
  (s.ct.vec.viq.all fun e => !isVecMem e.instr || (e.done.isSome && !e.nested)) && (readingFills s).isEmpty

/-- An implicit release at .p (R205): the scalar stream waits for the vector accesses, and everything buffered performs. keep: the lines of a
Bronze phase stay for its drain (R224). -/
def release (keep : Bool) (s : State) (f : State → Host.Outcome State Fault Refusal) : Host.Outcome State Fault Refusal :=
  if vecQuiet s then f (if keep then nextInterval (endRaces (drainSbuf s) s.ct.lcore) else releaseAll s)
  else .next (s.waitFor .drain)

-- ## FENCE

/-- A FENCE stalls the scalar stream for the vector accesses: .vs and .all (R202). -/
def fenceWaits (k : BitVec 2) (s : State) : Bool := (k == 1 || k == 3) && !vecQuiet s

/-- What a FENCE of the acting control thread at a scope leaves on an access that later vector accesses come after: its interval and its scope. -/
def fenceMark (s : State) (sc : Nat) : Nat × Nat := (s.ct.ord.fenceIvl, sc)

/-- The accesses of one stream of the acting thread that have not performed hold its later vector accesses, at a scope. -/
def holdVector (s : State) (sc : Nat) (vec : Bool) : State :=
  s.onMem fun m =>
    { m with sbuf := m.sbuf.map fun e => if s.mine e && e.vec == vec then { e with beforeV := e.beforeV ++ [fenceMark s sc] } else e,
             late := m.late.map fun l => if s.myLate l && l.vec == vec then { l with beforeV := l.beforeV ++ [fenceMark s sc] } else l }

/-- So do the accesses of the VIQ entries that have not executed, and the fills that still read (R202, R318). -/
def holdQueued (s : State) (sc : Nat) : State :=
  let open_ (e : VEntry) : Bool := isVecMem e.instr && (e.done.isNone || e.nested)
  (s.onVec fun x => { x with viq := x.viq.map fun e => if open_ e then { e with vv := e.vv ++ [fenceMark s sc] } else e }).onOrd fun o =>
    { o with vvJobs := o.vvJobs ++ (readingFills s).map fun j => (j, o.fenceIvl), vvOpen := !vecQuiet s }

/-- At .s later vector accesses wait for the host too. -/
def holdHost (s : State) (sc : Nat) : State := s.onOrd fun o => { o with vhold := if sc = 5 then o.vhold ++ [o.fenceIvl] else o.vhold }

/-- Accesses of one stream of the acting thread have still to perform. -/
def openAccess (s : State) (vec : Bool) : Bool :=
  (s.m.sbuf.any fun e => s.mine e && e.vec == vec) || s.m.late.any fun l => s.myLate l && l.vec == vec && l.got.isNone

/-- Later vector accesses come after what has not performed: whatever the vector stream read ahead is dropped; else what an agent of the scope has
written since. -/
def vectorAfter (pending : Bool) (sc : Nat) (s : State) : State :=
  if pending then forgetEarly s (s.ahead .vector) else acquire s sc true [.vector]

/-- What performs at a FENCE's scope as its stall ends: the vector accesses for .vs, every access for .all; and under Bronze mode everything, at home (R224).
There a FENCE that does not stall leaves the drain of the stores of VIQ entries that have not executed to their execution (log entry 86). -/
def fenceDrain (sc : Nat) (k : BitVec 2) (s : State) : State :=
  if s.ct.ord.detctl then drainStores s
  else if k = 1 ∨ k = 3 then
    performLateAt sc (fun l => s.myLate l && (k == 3 || l.vec)) (performAt sc (fun e => s.mine e && (k == 3 || e.vec)) s)
  else s

/-- The order that a FENCE makes at a scope, what it drains having performed (R202, R57): the scalar stream does not wait for .sv and .vv, which hold the
vector accesses that begin later. -/
def fenceOrder (sc : Nat) (k : BitVec 2) (s : State) : State :=
  if k = 0 then holdHost (vectorAfter (openAccess s false) sc (holdVector s sc false)) sc
  else if k = 1 then acquire s sc true [.scalar]
  else if k = 2 then holdHost (holdQueued (vectorAfter (!vecQuiet s || openAccess s true) sc (holdVector s sc true)) sc) sc
  else acquire s sc true [.scalar, .vector, .fetch]

/-- FENCE (R202, R203): one that stalls executes again in full. Page-table stores complete as they perform (R206, R234), and jobs issued later find every
earlier access performed (R189). At .s the host's copies are also gone (R199). -/
def execFence (sc : BitVec 3) (k : BitVec 2) (s : State) : Host.Outcome State Fault Refusal :=
  withProfile .lo s
    (if fenceWaits k s then .next (s.waitFor .drain)
     else
      let s1 := fenceDrain sc.toNat k s
      if sc = 5 ∧ (k = 1 ∨ k = 3) ∧ !hostQuiet s1 then .next (s1.waitFor .drain)
      else
        let s2 := nextInterval (fenceOrder sc.toNat k s1)
        .next (if k = 3 ∧ 4 ≤ sc.toNat then endRaces s2 s2.ct.lcore else s2).advance)

-- ## AMO and CAS

/-- The atomic releases: .rel and .ar (R204). -/
def orRel (o : BitVec 2) : Bool := o == 2 || o == 3

/-- The atomic acquires: .acq and .ar. -/
def orAcq (o : BitVec 2) : Bool := o == 1 || o == 3

/-- The acting control thread has buffered stores to the lines of [pa, pa+n). -/
def bufferMeets (s : State) (pa n : Nat) : Bool :=
  (s.m.sbuf.any fun e => s.mine e && (nameLines s pa n).contains (nameLine s e.pa)) || s.m.wcb.any fun l => s.myLine l && (nameLines s pa n).contains l.line

/-- Makes an atomic's address ready (R246, R303): ALIGN, window, translation needing R and W, home and poison; what this thread has stored to the
line performs first, and what it read ahead of the bytes is dropped (R200). -/
def atomicAddr (va : Word) (n : Nat) (s : State) : Res Place :=
  let go (s : State) : Res Place := (resolveAligned s.ctx { kind := 3 } va n s).mapTrap (scalarRecord n)
  (go s).andThen fun p s =>
    (if bufferMeets s p.pa n then go (drainAt s p.pa n) else .ok p s).andThen fun p s =>
      .ok p (performFirst (dropOwn s true p.pa n) true true p.pa n)

/-- A release before an atomic (R204): every earlier scalar access performs at its scope, at .s also toward the host. -/
def atomicRelease (sc : BitVec 3) (o : BitVec 2) (s : State) (f : State → Host.Outcome State Fault Refusal) :
    Host.Outcome State Fault Refusal :=
  if orRel o then
    let s1 :=
      if s.ct.ord.detctl then drainStores s
      else performLateAt sc.toNat (fun l => s.myLate l && !l.vec) (performAt sc.toNat (fun e => s.mine e && !e.vec) s)
    if sc = 5 ∧ !hostQuiet s1 then .next (s1.waitFor .drain)
    else f (if 4 ≤ sc.toNat then endRaces s1 s1.ct.lcore else s1)
  else f s

/-- An acquire after an atomic (R204): no later scalar access uses what an agent of the scope has overwritten. -/
def atomicAcquire (sc : BitVec 3) (o : BitVec 2) (s : State) : State := if orAcq o then acquire s sc.toNat false [.scalar] else s

/-- AMO (R246, R257): performed at the home; under Bronze mode a floating add without a destination is held. One that does not acquire may perform later
(R200, R204, log entry 125). -/
def execAmo (d a b : Reg) (sc : BitVec 3) (o : BitVec 2) (p w : BitVec 3) (s : State) : Host.Outcome State Fault Refusal :=
  withProfile .lb s (atomicRelease sc o s fun s =>
    let v := s.getX b
    finish ((atomicAddr (s.getX a) (amoBytes w) s).andThen fun at_ s =>
      if d = 0 ∧ heldNow s.ct.ord.detctl p w then .ok () ((atomicAcquire sc o (sendUpdate s true true false at_ w p v)).advance)
      else if !orAcq o && s.defers then .ok () ((leaveLate s false at_ (.update w p v) (if d = 0 then .none else .amo d w)).advance)
      else
        let r := performUpdate (roundTrip s at_.pa) s.me (atomicHold s at_) ⟨at_.pa, w, p, v, none, s.ct.lcore, s.ct.ctno⟩
        let s1 := atomicAcquire sc o (r.2.orFlags r.1.2)
        if d = 0 then .ok () s1.advance
        else
          let l := taskLogged s1 3 (amoExtend w r.1.1)
          .ok () ((l.2.setX d l.1).advance)))

/-- Compare and swap at the home (R247): the old value, and the state. -/
def casAt (by_ : By) (h : Hold) (pa n : Nat) (expected new : Nat) (s : State) : Nat × State :=
  let s0 := drainTranslated (drainFor (needRead by_ s pa n) s) by_ pa n
  let at_ := placeNow s0 pa
  let s1 := openRead s0 at_ n
  let old := s1.numAt at_ n
  (old, if old = expected then (markEarly (recallLine s1 by_ h at_) by_ at_ n).setBytes at_ (toBytes n new) else recallUnwritten s1 h at_)

/-- CAS (R247, R308). One that does not acquire may perform later. -/
def execCas (d a b : Reg) (sc : BitVec 3) (o : BitVec 2) (w : BitVec 1) (s : State) : Host.Outcome State Fault Refusal :=
  withProfile .lb s (atomicRelease sc o s fun s =>
    let n := if w = 0 then 4 else 8
    let want := (s.getX d).toNat % 2 ^ (8 * n)
    let new := (s.getX b).toNat
    finish ((atomicAddr (s.getX a) n s).andThen fun p s =>
      if !orAcq o && s.defers then
        .ok () ((leaveLate s false p (.cas n want (new % 2 ^ (8 * n))) (.amo d (if w = 0 then 0 else 1))).advance)
      else
      let r := casAt s.me (atomicHold s p) p.pa n want new (roundTrip s p.pa)
      let l := taskLogged (atomicAcquire sc o r.2) 3 (amoExtend (if w = 0 then 0 else 1) r.1)
      .ok () ((l.2.setX d l.1).advance)))

-- ## Groups

/-- A group that a group instruction names: beyond 4,095 it traps GROUP, and one lost with its controller's die takes CONTAIN (R323). -/
def withGroup (v : Word) (op : GroupOp) (s : State) (f : Nat → Host.Outcome State Fault Refusal) : Host.Outcome State Fault Refusal :=
  if 4096 ≤ v.toNat then takeTrap { code := Code.group } s
  else if groupLost s v.toNat then finish (.gone s)
  else if groupRefuses s v.toNat op s.ct.task.taskid then takeTrap { code := Code.group } (askDie s (dieOf s.ct.lcore) (v.toNat % 4))
  else f v.toNat

/-- A join or a leave, and the controller's reply that it is not refused (R280, R321). -/
def askGroup (s : State) (g : Nat) (op : GroupOp) : State := packet (applyGroup s g op s.member) (g % 4) (dieOf s.ct.lcore)

/-- GJOIN (R321): no memory order. -/
def execGjoin (a : Reg) (s : State) : Host.Outcome State Fault Refusal :=
  withProfile .lt s (withGroup (s.getX a) .join s fun g => .next ((askGroup s g .join).advance))

/-- GLEAVE (R321): release at .p, then the leave. -/
def execGleave (a : Reg) (s : State) : Host.Outcome State Fault Refusal :=
  withProfile .lt s (withGroup (s.getX a) .leave s fun g => release false s fun s => .next ((askGroup s g .leave).advance))

/-- The arrival that a blocked GSYNC at this address has made (R322). -/
def arrivalAt (s : State) : Option (Nat × Nat) := (s.ct.ctl.gwait.find? fun w => w.2.2 == s.ct.pc).map fun w => (w.1, w.2.1)

/-- GSYNC and IWAIT acquire at .p as they complete (R205): what others have written. What a stream of the thread itself wrote meanwhile it may still have read
ahead, as Table 13.1 (R261) allows a thread that leaves its FENCE out (log entry 136). -/
def acquireAll (s : State) : State := acquire s 4 false [.scalar, .vector]

/-- GSYNC completes: its arrival is spent. -/
def gsyncDone (s : State) : State := ((acquireAll s).onCtl fun c => { c with gwait := c.gwait.filter fun w => w.2.2 != s.ct.pc }).advance

/-- Waits for the phase of the arrival made, or goes on when it has completed. -/
def gsyncWait (g ph : Nat) (s : State) : Host.Outcome State Fault Refusal :=
  if groupLost s g then finish (.gone s)
  else if ph < (s.group g).phase then .next (gsyncDone s)
  else .next (s.waitFor .group)

/-- GSYNC (R321, R322): release, arrival at the current phase, and the wait for its completion. The arrival counts once. -/
def execGsync (a : Reg) (s : State) : Host.Outcome State Fault Refusal :=
  withProfile .lt s
    (match arrivalAt s with
     | some (g, ph) => gsyncWait g ph s
     | none =>
       withGroup (s.getX a) .arrive s fun g => release (s.ct.ord.detctl && phaseBronze s g) s fun s =>
         let ph := (s.group g).phase
         let s1 := s.onCtl fun c => { c with gwait := c.gwait ++ [(g, ph, s.ct.pc)] }
         gsyncWait g ph (applyGroup s1 g .arrive s1.member))

-- ## The iteration ring

/-- The order point has applied a post, and tells the core, whose IPOST then completes (R325). -/
def postDone (s : State) (c : Nat) (v : Word) : State := (packet (applyPost s c v) (orderDie s c) (dieOf s.ct.lcore)).advance

/-- IPOST (R325): release at .p; it completes when the order point has applied the post. Where the schedule leaves stores in flight the post is under way
for a step, in which the order point may be lost (R326, log entry 70). -/
def execIpost (c a : Reg) (s : State) : Host.Outcome State Fault Refusal :=
  withProfile .lt s
    (match s.ct.ctl.post with
     | some (k, v) => .next (postDone (s.onCtl fun x => { x with post := none }) k v)
     | none => release false s fun s =>
       let s1 := packet s (dieOf s.ct.lcore) (orderDie s c.toNat)
       if s.sched.deferStores then .next ((s1.onCtl fun x => { x with post := some (c.toNat, s.getX a) }).waitFor .ring)
       else .next (postDone s1 c.toNat (s.getX a)))

/-- IWAIT (R325): blocks until the core's copy holds the value. -/
def execIwait (c a : Reg) (s : State) : Host.Outcome State Fault Refusal :=
  withProfile .lt s
    (if (s.getX a).toNat ≤ (ringCopy s (dieOf s.ct.lcore) c.toNat).1.toNat then .next (acquireAll s).advance else .next (s.waitFor .ring))

end Sys2Proof.Machine
end

