-- ==== Sys2Proof/Machine/TaskOps.lean ====
section
/-!
DEFINITION. The task instructions (R100 to R103, R357 to R361): TALLOC, TFREE, TSPAWN, TEND and TPARK.
-/

namespace Sys2Proof.Machine

-- ## Record pools (R100, R358)

/-- Bytes of the record region and of one core's pool. -/
abbrev regionBytes : Nat := 2 ^ 21
abbrev poolBytes : Nat := 2 ^ 14

/-- Loads the n doublewords from an address on, by scalar loads. -/
def loadWords : Nat → Word → List Word → State → Res (List Word)
  | 0, _, acc, s => .ok acc s
  | n + 1, va, acc, s => (scalarLoad s va 8).andThen fun v s => loadWords n (va + 8) (acc ++ [BitVec.ofNat 64 v]) s

/-- Stores doublewords from an address on, by scalar stores. -/
def storeWords : List Word → Word → State → Res Unit
  | [], _, s => .ok () s
  | w :: r, va, s => (scalarStore s va 8 w.toNat).andThen fun _ s => storeWords r (va + 8) s

/-- CTL with CONT 0, SLOT 0 and JOIN 1. -/
def freshCtl (c : Word) : Word := putBits (putBits (putBits c 0 16 0) 55 3 0) 16 6 1

/-- The lowest free record of a pool. -/
def freeRecord (k : Core) : Option Nat := (List.range 256).find? fun i => k.pool.getLsbD i

/-- tr (Table 1.1). -/
abbrev trReg : Reg := 2

/-- TALLOC (R358). The record at tr is read first: its fault comes before RESOURCE for an empty free list, where R49 ranks neither (log entry
111). -/
def execTalloc (d : Reg) (s : State) : Host.Outcome State Fault Refusal :=
  withProfile .lt s (finish ((loadWords 8 (s.getX trReg) [] s).andThen fun ws s =>
    match freeRecord (s.core s.ct.lcore) with
    | none => .trap { code := Code.resource } s
    | some k =>
      let at_ := s.pkg.recRegion + BitVec.ofNat 64 (poolBytes * s.ct.lcore + 64 * k)
      (storeWords (ws.set 7 (freshCtl (ws.getD 7 0))) at_ s).andThen fun _ s =>
        let s1 := s.onCore s.ct.lcore fun c => { c with pool := c.pool &&& ~~~ (1#256 <<< k) }
        .ok () (((forgetCont s1 s1.ct.sup.troot at_).setX d at_).advance)))

/-- TFREE (R358): frees the record in the pool of the core that holds it, by a request to that pool (R280). -/
def execTfree (a : Reg) (s : State) : Host.Outcome State Fault Refusal :=
  withProfile .lt s
    (let v := s.getX a
     let off := (v - s.pkg.recRegion).toNat
     if v.toNat % 64 ≠ 0 then takeTrap { code := Code.align } s
     else if regionBytes ≤ off then takeTrap { code := Code.resource } s
     else
      let s1 := (packet s (dieOf s.ct.lcore) (dieOf (off / poolBytes))).onCore (off / poolBytes) fun c =>
        { c with pool := c.pool ||| (1#256 <<< (off % poolBytes / 64)) }
      .next ((forgetCont s1 s.ct.sup.troot v).advance))

-- ## TSPAWN (R101, R359)

/-- The signed distance between two records, in records. -/
def recDistance (a b : Word) : Int := (a - b).toInt / 64

def inReach (i : Int) : Bool := decide (-32768 ≤ i) && decide (i ≤ 32767)

/-- The stores that TSPAWN makes to the records: the caller's continuation moves on to cont, and tr names cont. -/
def linkRecords (tr cont ctl : Word) (s : State) : Res Unit :=
  let moved : Res Unit :=
    match s.ct.task.cont with
    | none => .ok () s
    | some cc =>
      (scalarLoad s (cont + 0x38) 8).andThen fun v s =>
        let c := putBits (putBits (BitVec.ofNat 64 v) 0 16 (wrapN 16 (recDistance cc cont))) 55 3 s.ct.task.slot
        (scalarStore s (cont + 0x38) 8 c.toNat).andThen fun _ s => .ok () (s.onTask fun t => { t with cont := none })
  moved.andThen fun _ s => scalarStore s (tr + 0x38) 8 (putBits ctl 0 16 (wrapN 16 (recDistance cont tr))).toNat

/-- The checks on a continuation: the record reaches it, and it reaches the caller's own. -/
def contReachable (s : State) (tr cont : Word) : Bool :=
  recDistance cont tr != 0 && inReach (recDistance cont tr) &&
    (match s.ct.task.cont with
     | none => true
     | some cc => inReach (recDistance cc cont))

/-- The lineage key of a continuation is that of the first TSPAWN that names it, under its root (R292). -/
def nameCont (s : State) (cont : Word) (key : Word) : State :=
  if cont = 0 ∨ s.pkg.contKeys.any (fun c => c.troot == s.ct.sup.troot && c.va == cont) then s
  else s.onPkg fun p => { p with contKeys := p.contKeys ++ [⟨s.ct.sup.troot, cont, key, s.ct.task.chunk⟩] }

/-- The push of TSPAWN, after its release. -/
def spawnPush (tr cont : Word) (prio : Nat) (s : State) : State :=
  let t := s.ct.task
  let k := t.spawns
  let s1 := nameCont s cont (mix t.lkey (BitVec.ofNat 64 (2 * k + 2)))
  let s2 := (chunkAdd s1 t.chunk).onTask fun t => { t with spawns := t.spawns + 1 }
  pushEntry s2 s2.ct.lcore prio (.record tr t.chunk s2.ct.sup.troot (mix t.lkey (BitVec.ofNat 64 (2 * k + 1))) none) false

/-- TSPAWN (R101). -/
def execTspawn (a b : Reg) (s : State) : Host.Outcome State Fault Refusal :=
  withProfile .lt s
    (let tr := s.getX a
     let cont := s.getX b
     if tr.toNat % 64 ≠ 0 ∨ cont.toNat % 64 ≠ 0 then takeTrap { code := Code.align } s
     else if !vecQuiet s then .next (s.waitFor .drain)
     else
      finish ((scalarLoad s (tr + 0x38) 8).andThen fun v s =>
        let c := Ctl.parse v
        if 8 < c.accmin ∨ 5 < c.slot ∨ (cont ≠ 0 ∧ !contReachable s tr cont) ∨ pushBlocked s s.ct.lcore then
          .trap { code := Code.resource } s
        else
          (if cont = 0 then .ok () s else linkRecords tr cont (BitVec.ofNat 64 v) s).andThen fun _ s =>
            .ok () ((spawnPush tr cont c.prio (releaseAll s)).advance)))

-- ## TEND (R102, R360)

/-- The key under which a continuation was named. -/
def contKey (s : State) (cont : Word) : Word :=
  ((s.pkg.contKeys.find? fun x => x.troot == s.ct.sup.troot && x.va == cont).map (·.key)).getD 0

/-- A delivery to a continuation: one atomic update of its line at its home; at JOIN = 1 it is enqueued, and its chunk counts it (R92). -/
def deliver (cx : Ctx) (cont : Word) (slot : Nat) (v : Word) (s : State) : Res Unit :=
  let a : Acc := { kind := 3 }
  ((resolve cx a (cont + BitVec.ofNat 64 (8 + 8 * slot)) 8 s).mapTrap (scalarRecord 8)).andThen fun p s =>
    ((resolve cx a (cont + 0x38) 8 s).mapTrap (scalarRecord 8)).andThen fun pc s =>
      let k := claimBytes (roundTrip s pc.pa) s.me .recall (lineOf pc.pa) 64
      let ctlAt := k.1 + pc.pa % 64
      let (v0, s1) := readHome k.2 s.me ctlAt 8
      let ctl := BitVec.ofNat 64 v0
      let c := Ctl.parse v0
      if c.join = 1 ∧ pushBlocked s1 s1.ct.lcore then .trap { code := Code.resource } s1
      else
        let s2 := performHome s1 s.me .recall (k.1 + p.pa % 64) (toBytes 8 v.toNat)
        if c.join = 0 then .ok () s2
        else
          let s3 := performHome s2 s.me .recall ctlAt (toBytes 8 (putBits ctl 16 6 (c.join - 1)).toNat)
          if c.join ≠ 1 then .ok () s3
          else
            let key := contKey s3 cont
            let s4 := chunkAdd (forgetCont s3 s3.ct.sup.troot cont) s3.ct.task.chunk
            .ok () (pushEntry s4 s4.ct.lcore c.prio (.record cont s4.ct.task.chunk s4.ct.sup.troot key none) false)

/-- What every end waits for (R78, R190): the VIQ, deliveries being discarded, then the jobs of the task. -/
def whenEnded (s : State) (f : Host.Outcome State Fault Refusal) : Host.Outcome State Fault Refusal :=
  if !s.viqEmpty then .next (s.waitFor .ending)
  else if !(jobsOf s s.ct.lcore s.ct.task.taskid).isEmpty then .next (s.waitFor .job)
  else f

/-- TEND (R102): a kept error first (R190), whose trap has KIND 0 and ENG 0 as XWAIT's (log entry 137), the release, at .s toward the chunk's completion (R205), the delivery, and the end. -/
def execTend (a : Reg) (s : State) : Host.Outcome State Fault Refusal :=
  withProfile .lt s (whenEnded s
    (match s.ct.uli.errs with
     | e :: r => takeTrap { code := e.code, sfva := e.addr, report := true } (s.onUli fun u => { u with errs := r })
     | [] =>
       let s1 := drainStores s
       if !hostQuiet s1 then .next (s1.waitFor .drain)
       else
        match s1.ct.task.cont with
        | none => .next (releaseTask (releaseAll s1))
        | some c =>
          match deliver s1.ctx c s1.ct.task.slot (s1.getX a) (releaseAll s1) with
          | .ok _ s2 => .next (releaseTask s2)
          | .trap t s2 => takeTrap t s2
          | .wait w s2 => .next (s2.waitFor w)
          | .gone s2 => finish (.gone s2)))

-- ## TPARK (R103, R361)

/-- Parks the acting task: what it keeps waits for the event, and the control thread is free. -/
def parkNow (ev : ParkEvent) (s : State) : State :=
  let t := s.ct
  let p : Parked := ⟨ev, t.lcore, { t.task with record := s.getX trReg }, t.sup.troot, t.mx.fills, t.uli.errs, false, false⟩
  dropAhead { s with ct := t.freed, pkg := { s.pkg with parked := s.pkg.parked ++ [p] } }

/-- A record pushed at once by the TPARK that parked it traps RESOURCE where the spill area is full (R96); the TPARK has then no effect. -/
def pushesAtOnce (s0 s1 : State) : Bool :=
  pushBlocked s0 s0.ct.lcore && s1.pkg.parked.any fun p => p.pushed && p.task.taskid == s0.ct.task.taskid

/-- The order of R361: the VIQ, RESOURCE for an instance, the checks of the event, the release, and the push. RESOURCE for an instance comes before
ILLEGAL or GROUP of its event, where R49 ranks none of them against it (log entry 112). -/
def park (s : State) (keep : Bool) (check : (State → Host.Outcome State Fault Refusal) → Host.Outcome State Fault Refusal)
    (f : State → State) : Host.Outcome State Fault Refusal :=
  withProfile .lt s
    (if !s.viqEmpty then .next (s.waitFor .ending)
     else if s.ct.task.isInst then takeTrap { code := Code.resource } s
     else check fun s => release keep s fun s =>
       let s1 := f s
       if pushesAtOnce s s1 then takeTrap { code := Code.resource } s else .next s1)

/-- TPARK on a group: an arrival at the current phase, whose completion is the event. -/
def execTparkGroup (a : Reg) (s : State) : Host.Outcome State Fault Refusal :=
  let g := (s.getX a).toNat
  park s (s.ct.ord.detctl && phaseBronze s g) (fun k => withGroup (s.getX a) .park s fun _ => k s) fun s =>
    let m := s.member
    serveParked (applyGroup (parkNow (.group g (s.group g).phase) s) g .park m)

/-- TPARK on a ring channel. -/
def execTparkRing (c a : Reg) (s : State) : Host.Outcome State Fault Refusal :=
  park s false (fun k => k s) fun s => serveParked (parkNow (.ring c.toNat (s.getX a)) s)

/-- TPARK on a tag: one of 32 or more traps ILLEGAL. -/
def execTparkTag (a : Reg) (s : State) : Host.Outcome State Fault Refusal :=
  park s false (fun k => if 32 ≤ (s.getX a).toNat then takeTrap { code := Code.illegal } s else k s) fun s =>
    serveParked (parkNow (.tag (s.getX a).toNat) s)

end Sys2Proof.Machine
end

