-- ==== Sys2Proof/Machine/Stash.lean ====
section
/-!
DEFINITION. The stash instructions SMAP, SUNMAP and SFLUSH (R179, R180, R353, R354).
-/

namespace Sys2Proof.Machine

/-- A range of the local window that lies in the grant: its first offset, where every byte from va to va + len − 1 does (Table 9.4). -/
def stashRange (s : State) (va len : Word) : Option Nat :=
  let g := s.ct.task.stashLen
  match windowOf va, windowOf (va + len - 1) with
  | .local_ off, .local_ last => if off < g ∧ last < g ∧ (len = 0 ∨ off + len.toNat ≤ g) then some off else none
  | _, _ => none

/-- The physical range of a stash range, on the task's core. -/
def rangeLo (s : State) (off : Nat) : Nat := s.ct.task.stashBase + off

/-- An uncompleted job of the task overlaps a stash range by physical offset (R354). -/
def jobOverlaps (s : State) (off len : Nat) : Bool :=
  let f : Foot := ⟨1 + s.ct.lcore, rangeLo s off, rangeLo s off + len⟩
  (jobsOf s s.ct.lcore s.ct.task.taskid).any fun j => feetMeet j.reads [f] || feetMeet j.writes [f]

def Mapping.meets (m : Mapping) (off len : Nat) : Bool := decide (m.off < off + len) && decide (off < m.off + m.len)
def Mapping.inside (m : Mapping) (off len : Nat) : Bool := decide (off ≤ m.off) && decide (m.off + m.len ≤ off + len)

/-- Runs a stash instruction on a range: the waits, then ALIGN, WINDOW and the instruction's own checks (Table 9.4). -/
def onRange (s : State) (va len : Word) (others : Bool) (refuse : Nat → Option (BitVec 8)) (f : Nat → State → Res Unit) :
    Host.Outcome State Fault Refusal :=
  withProfile .lt s (whenDrained s
    (if va.toNat % 64 ≠ 0 ∨ len.toNat % 64 ≠ 0 ∨ !others then takeTrap { code := Code.align } s
     else
      match stashRange s va len with
      | none => takeTrap { code := Code.window } s
      | some off =>
        match refuse off with
        | some c => takeTrap { code := c } s
        | none =>
          if jobOverlaps s off len.toNat then .next (s.waitFor .job)
          else finish ((f off (dropAhead (drainStores s))).andThen fun _ s => .ok () s.advance)))

/-- Lines of a range become MAPPED; until its first fill a line has no name but its own. -/
def mapRange (off len : Nat) (va : Word) (s0 : State) : State :=
  let lo := stashPa s0.ct.lcore (rangeLo s0 off)
  let s := drainStash s0 lo len
  let new : List SLine := (List.range (len / 64)).map fun i =>
    ⟨lo + 64 * i, .mapped, va + BitVec.ofNat 64 (64 * i), lo + 64 * i, s.ct.sup.troot, []⟩
  (s.onMem fun m => { m with slines := m.slines ++ new }).onTask fun t => { t with maps := t.maps ++ [⟨off, len, va⟩] }

/-- SMAP (R180). -/
def execSmap (a b c : Reg) (s : State) : Host.Outcome State Fault Refusal :=
  let va := s.getX b
  let len := s.getX c
  onRange s (s.getX a) len (va.toNat % 64 == 0)
    (fun off =>
      if len = 0 ∨ windowOf va ≠ .global ∨ s.ct.task.maps.any (fun m => m.meets off len.toNat) then some Code.illegal
      else if Config.mapLimit ≤ s.ct.task.maps.length then some Code.resource
      else none)
    fun off s => .ok () (mapRange off len.toNat va s)

/-- Writes the DIRTY lines of a range back, lowest first; each is then CLEAN. -/
def cleanRange (off len : Nat) (s0 : State) : Res Unit :=
  let lo := stashPa s0.ct.lcore (rangeLo s0 off)
  let s := drainStash s0 lo len
  let dirty := sortBy (fun (a b : SLine) => decide (a.at_ ≤ b.at_))
    (s.m.slines.filter fun l => l.state == .dirty && decide (lo ≤ l.at_) && decide (l.at_ < lo + len))
  foldRes (fun (_ : Unit) l s =>
    (atHome l.pa s).andThen fun _ s =>
      .ok () ((s.writeBackLine l).onMem fun m => { m with slines := putSLine m.slines { l with state := .clean } })) dirty () s

/-- The check of SUNMAP and SFLUSH: an empty range, or a mapping that lies partly inside it. -/
def partlyMapped (s : State) (len : Word) (off : Nat) : Option (BitVec 8) :=
  if len = 0 ∨ s.ct.task.maps.any (fun m => m.meets off len.toNat && !m.inside off len.toNat) then some Code.illegal else none

/-- SUNMAP (R180): lines are written back and become SCRATCH and zero, and the mappings inside the range go. -/
def execSunmap (a b : Reg) (s : State) : Host.Outcome State Fault Refusal :=
  let len := s.getX b
  onRange s (s.getX a) len true (partlyMapped s len) fun off s =>
    (cleanRange off len.toNat s).andThen fun _ s =>
      .ok () ((sunmapRange s s.ct.lcore (rangeLo s off) len.toNat).onTask fun t => { t with maps := t.maps.filter fun m => !m.inside off len.toNat })

/-- SFLUSH (R180): DIRTY lines are written back and become CLEAN; mappings are kept. -/
def execSflush (a b : Reg) (s : State) : Host.Outcome State Fault Refusal :=
  let len := s.getX b
  onRange s (s.getX a) len true (partlyMapped s len) fun off s => cleanRange off len.toNat s

end Sys2Proof.Machine
end

