-- ==== Sys2Proof/Machine/Korier.lean ====
section
/-!
DEFINITION. Korier's services (R162, R238, R242, R267, R307) as steps: what Korier does with the trap of the acting control thread, mapping
absent pages, refilling panels, reflecting a trap and returning from its handler, ending a task by a trap, CONTAIN (R271), and the extension of a
spill area (R96). The trap has entered S; each service leaves it as SRET does (log entry 14).
-/

namespace Sys2Proof.Machine

-- ## What Korier does with a trap

/-- The acting control thread is in S with a synchronous trap that its task took in U. -/
def forTask (s : State) : Bool :=
  let c := bitsOf s.ct.sup.scause 0 8
  s.ct.status == .running && s.ct.level == .s && prvLevel s.ct.sup.scause == .u && c != 0 && decide (c < 0x14) && c != 0x0F

/-- Trap code of the record in the supervisor CSRs. -/
def trapCode (s : State) : BitVec 8 := s.ct.sup.scause.extractLsb' 0 8

/-- The acting task as U accesses memory. -/
def userCtx (s : State) : Ctx := { s.ctx with level := .u }

/-- The access that faulted is now permitted; none while its tables cannot be read. Nothing of the attempt stays. -/
def accessNow (s : State) : Option Bool :=
  if windowOf s.ct.sup.sfva != .global then some false
  else
    match translate (userCtx s) { kind := s.ct.sup.scause.extractLsb' 9 2 } s.ct.sup.sfva s with
    | .ok _ _ => some true
    | .wait _ _ => none
    | _ => some false

/-- The number in the SYSC word at SEPC. -/
def syscNumber (s : State) : Option Nat :=
  match fetchWord (s.onCt fun t => { t with level := .u }) s.ct.sup.sepc with
  | .ok w _ => some (w.extractLsb' 11 10).toNat
  | _ => none

/-- The fill record of the handle of a stopped MMAC. -/
def stoppedFill (s : State) : Option FillRec := s.ct.vec.stopped.bind fun st => s.ct.mx.fills.find? fun r => r.handle == st.entry.xb

/-- What Korier does; await: it waits for a device that is not trained. -/
inductive Disposition where
  | idle
  | await
  | hold
  | back
  | page
  | refill (r : FillRec)
  | call (n : Nat)
  | reflect (code : BitVec 8)
  | finish (code : BitVec 8)
  deriving DecidableEq, Repr

/-- A trap is reflected where a handler is registered and ACT is clear; a start has none. Otherwise the task ends (R242). -/
def orEnd (s : State) (code : BitVec 8) : Disposition :=
  if s.ct.task.handler ≠ 0 ∧ !s.ct.uli.act ∧ !s.ct.sup.scause.getLsbD 15 then .reflect code else .finish code

/-- PAGE_ABSENT and PAGE_PROT (R238): a fault on a page being migrated is held and then returned to, an access that has become permitted returns, an absent
page of a registered region is mapped, and any other fault is reflected or ends the task. The error of a job that XWAIT or TEND reports is no fault of an access
that could be made again (log entry 137). -/
def pageDisposition (s : State) (code : BitVec 8) : Disposition :=
  let va := s.ct.sup.sfva
  if s.ct.ctl.report then orEnd s code
  else if windowOf va != .global then orEnd s code
  else
    match migrating s s.ct.sup.troot va, accessNow s with
    | none, _ => .await
    | some true, _ => .hold
    | some false, now =>
      if s.ct.ctl.held then .back
      else if now = none then .await
      else if now = some true then .back
      else if code = Code.pageAbsent ∧ serviceable s s.ct.sup.troot va then .page
      else orEnd s code

/-- What Korier does with a trap. A panel whose refill met poison is not refilled again: that is reflected (R342). While ACT = 1 a panel is not refilled
either: R242 ends the task on every trap but those that it names. -/
def disposition (s : State) : Disposition :=
  let code := trapCode s
  if !forTask s then .idle
  else if s.ct.ctl.wait = .ending then .finish code
  else if code = Code.pageAbsent ∨ code = Code.pageProt then pageDisposition s code
  else if code = Code.syscall then
    match syscNumber s with
    | some 1 => .call 1
    | some 2 => if s.ct.task.reflected then .call 2 else .finish code
    | some 3 => .call 3
    | _ => .finish code
  else if code = Code.panelAbsent then
    match stoppedFill s with
    | some r => if r.written then orEnd s Code.panelStale else if r.poisoned then orEnd s Code.poison else if s.ct.uli.act then .finish code else .refill r
    | none => orEnd s code
  else orEnd s code

-- ## PAGE_ABSENT (R238)

/-- The oldest posted job fault that Korier can act on: one on a page being migrated is held. -/
def readyFault (s : State) : Option (JobFault × Job) :=
  s.pkg.jobFaults.findSome? fun f =>
    ((s.core f.core).jobs.find? fun j =>
      match j.state with
      | .paused _ c v true => c == f.scause && v == f.sfva && j.tag == f.tag
      | _ => false).bind fun j => if migrating s j.troot f.sfva = some false then some (f, j) else none

/-- A job fault that no mapping mends ends its job with the error kept (R190); a fill leaves its rows owned by no task. -/
def failJob (s : State) (f : JobFault) (j : Job) : State :=
  (match j.engine with
   | .fill id => dropPanel (s.putJob f.core { j with state := .moved }) f.core id
   | _ => s.putJob f.core { j with state := .moved, err := some (f.scause.extractLsb' 0 8, f.sfva) }).push [.jobComplete f.core]

/-- Resumes a job after its page is mapped, or ends it. While a device that Korier needs is not trained the fault stays posted. -/
def resumeJob (s : State) (f : JobFault) (j : Job) : State :=
  let done (s : State) : State := s.onPkg fun p => { p with jobFaults := p.jobFaults.erase f }
  let pos := match j.state with
    | .paused p _ _ _ => p
    | _ => 0
  let present : Bool :=
    match translate (j.ctx f.core) { kind := f.scause.extractLsb' 9 2, quiet := true } f.sfva s with
    | .ok _ _ => true
    | _ => false
  let go (s : State) : State := (done (s.putJob f.core { j with state := .ready pos })).push [.jobStart f.core, .jobComplete f.core]
  if present then go s
  else if serviceable s j.troot f.sfva then
    match servicePage f.core j.troot f.sfva s with
    | .ok _ s1 => go s1
    | .trap _ s1 => s1
    | .wait _ s1 => s1
    | .gone s1 => containTaskId (failJob (done s1) f j) j.task
  else failJob (done s) f j

/-- Korier's fence.all.p after it has mapped pages (R238, step 3): what the thread has buffered performs, and what it read ahead is dropped. -/
def pagerFence (s : State) : State := dropAhead (releaseAll s)

/-- What follows a service of pages: the return, or the containment of the task (R271). -/
def afterPages (r : Res Unit) (f : State → Host.Outcome State Fault Refusal) : Host.Outcome State Fault Refusal :=
  match r with
  | .ok _ s => f (pagerFence s)
  | .trap _ s => .next s
  | .wait _ s => .next s
  | .gone s => .next (s.onCtl fun c => { c with contain := true })

/-- Korier holds a fault on a page that is being migrated (R238). -/
def holdFault (s : State) : State := if disposition s = .hold then s.onCtl fun c => { c with held := true } else s

/-- PAGE_ABSENT_SERVICE: Korier maps the pages of the acting thread's fault and returns with SRET; where that thread has no fault to service, it
takes the oldest fault that a job has posted. It waits for a device that is not trained. -/
def execPageAbsentService (s : State) : Host.Outcome State Fault Refusal :=
  match disposition s with
  | .page =>
    let u := s.ct.sup
    afterPages (serviceRecord s.ct.lcore u.troot u.sfva u.sfstride u.sfrem u.sfwidth s) returnFromTrap
  | .back => returnFromTrap s
  | _ =>
    let s1 := holdFault s
    match readyFault s1 with
    | some (f, j) => .next (resumeJob s1 f j)
    | none => .next s1

-- ## PANEL_ABSENT (R162)

/-- PANEL_REFILL: Korier runs the recorded fill again from the captured card and codebook, and returns with SRET. -/
def execPanelRefill (s : State) : Host.Outcome State Fault Refusal :=
  match disposition s with
  | .refill r =>
    if Config.jobLimit ≤ (s.core s.ct.lcore).jobs.length then .next s
    else
      match readySources (userCtx s) (fillOpOf r.instr r.alg) (FillCard.parse r.card) s with
      | .ok src s1 => returnFromTrap (startFill s1 { r with refill := true } src)
      | _ => returnFromTrap (startFill s { r with refill := true } [])
  | _ => .next s

-- ## Reflection (R242)

/-- The words of a frame, in their order. -/
def frameWords (s : State) : List Word :=
  let u := s.ct.sup
  [u.scause, u.sepc, u.sfva, u.sfelem, u.sfstride, u.sfrem, u.sfwidth, BitVec.ofNat 64 s.ct.vec.vstart]

/-- Writes the frame, as a store of the thread that it reaches in order. -/
def writeFrame (p : Place) (s : State) : State :=
  let bs := (frameWords s).flatMap fun w => toBytes 8 w.toNat
  storeNow (dropOwn (dropOwn s true p.pa 64) false p.pa 64) true p 0xFF bs

/-- Enters the handler: ACT, the shadow bank with the frame address in k0, and the stop held in the context. -/
def enterHandler (s : State) : State :=
  let s1 := s.onTask fun t => { t with reflected := true, heldStop := s.ct.vec.stopped, heldSup := s.ct.sup }
  let s2 := (s1.onVec fun x => { x with stopped := none }).onUli fun u => { u with act := true }
  (s2.swapBank.setX k0Reg s.ct.task.frame).enter .u s.ct.task.handler

/-- The task ends: Korier goes on with TASK_TRAP_END. -/
def endTask (s : State) : State := s.waitFor .ending

/-- Rewrites the trap code of the record (PANEL_STALE). -/
def setCode (code : BitVec 8) (s : State) : State := s.onSup fun u => { u with scause := putBits u.scause 0 8 code.toNat }

/-- Reflects a trap; tries counts how often an absent page of the frame is mapped first. -/
def reflectTrap : Nat → State → Host.Outcome State Fault Refusal
  | tries, s =>
    match resolve (userCtx s) { kind := 2 } s.ct.task.frame 64 s with
    | .ok p s1 => .next (enterHandler (writeFrame p s1))
    | .trap t s1 =>
      if windowOf t.sfva == .global && migrating s1 s.ct.sup.troot t.sfva != some false then .next s
      else if t.code = Code.pageAbsent ∧ serviceable s1 s.ct.sup.troot t.sfva then
        match tries with
        | 0 => .next s
        | n + 1 => afterPages (servicePage s.ct.lcore s.ct.sup.troot t.sfva s1) (reflectTrap n)
      else .next (endTask s)
    | .wait _ s1 => .next s1
    | .gone s1 => .next (s1.onCtl fun c => { c with contain := true })

/-- a0, a1 and k1 (Table 1.1). -/
abbrev a0Reg : Reg := 3
abbrev a1Reg : Reg := 4
abbrev k1Reg : Reg := 22

/-- The return to the instruction after the one that trapped. -/
def returnNext (s : State) : State := s.enter .u (s.ct.sup.sepc + 4)

/-- The word at an address is a LAND that U can fetch. -/
def landsAt (s : State) (va : Word) : Bool :=
  match fetchWord (s.onCt fun t => { t with level := .u }) va with
  | .ok w _ => isLand w
  | _ => false

/-- A frame address: aligned to 64, global or local stash. -/
def frameOk (va : Word) : Bool :=
  decide (va.toNat % 64 = 0) &&
    (match windowOf va with
     | .global => true
     | .local_ _ => true
     | _ => false)

/-- sysc 1: registers a handler and its frame, or removes it. -/
def registerHandler (s : State) : State :=
  let h := s.getX a0Reg
  let f := s.getX a1Reg
  if h = 0 then returnNext ((s.onTask fun t => { t with handler := 0, frame := 0 }).setX a0Reg 0)
  else if landsAt s h && frameOk f then returnNext ((s.onTask fun t => { t with handler := h, frame := f }).setX a0Reg 0)
  else returnNext (s.setX a0Reg (BitVec.allOnes 64))

/-- sysc 3: the base value of a ring channel for the task's launch (R106, R307). -/
def ringBase (s : State) : State :=
  let c := (s.getX a0Reg).toNat
  let give (s : State) (b : Word) : State :=
    let l := logged s 7 s.ct.sup.sepc b
    returnNext ((l.2.setX a0Reg 0).setX a1Reg l.1)
  if 15 < c then returnNext (s.setX a0Reg (BitVec.ofInt 64 (-2)))
  else
    match s.pkg.allot.find? fun a => a.1 == c with
    | some (_, l, b) => if s.ct.task.launch = some l then give s b else returnNext (s.setX a0Reg (BitVec.allOnes 64))
    | none =>
      let b := (s.pkg.chans.toList.getD c Channel.reset).value
      match s.ct.task.launch with
      | some l => give (s.onPkg fun p => { p with allot := p.allot ++ [(c, l, b)] }) b
      | none => give s b

-- ### The actions of sysc 2

/-- The state after a handler has run: the main bank, ACT clear, and the stop and the record as they were. -/
def leaveHandler (s : State) : State :=
  let s1 := s.swapBank.onUli fun u => { u with act := false }
  let s2 := s1.onVec fun x => { x with stopped := s.ct.task.heldStop }
  (s2.onSup fun u => { s.ct.task.heldSup with troot := u.troot }).onTask fun t => { t with reflected := false, heldStop := none }

/-- The destination groups of an instruction: first registers, and registers in each; none where a group is illegal (R48). -/
def destGroups (e : VEntry) : List (Nat × Nat) :=
  let g := e.g
  let l : List (Nat × Nat) :=
    match vecRes e.instr, e.instr with
    | .load o d, _ => (List.range o.fields).map fun f => (d.toNat + f * g, g)
    | _, .vfsplit d _ _ _ => [(d.toNat, g), (d.toNat + g, g)]
    | _, .mdrainRegister _ v _ => if v.toNat % g = 0 then (List.range g).map fun r => (v.toNat + r, 1) else []
    | .reg d, _ => [(d.toNat, g)]
    | .first d, _ => [(d.toNat, g)]
    | _, _ => []
  if l.all fun x => x.1 % x.2 == 0 && decide (x.1 + x.2 ≤ 32) then l else []

/-- The predicate that an instruction writes. -/
def destPred (e : VEntry) : Option Reg :=
  match vecRes e.instr, e.instr with
  | _, .vldff _ _ b _ _ _ => some b
  | .pred d, _ => some d
  | _, _ => none

/-- Elements of a list are left as inactive under VCFG.MPOL. -/
def inactive (e : VEntry) (is : List Nat) (s : State) : State :=
  if !e.vcfg.mz then s
  else
    let s1 := (destGroups e).foldl (fun s g => is.foldl (fun s i => s.setElem g.1 e.w i 0) s) s
    match destPred e with
    | some d => s1.setPred d.toNat (predOf 16384 fun i => s1.pbit d.toNat i && !is.contains i)
    | none => s1

/-- The tails of a completion (R65, R69). -/
def tails (e : VEntry) (s : State) : State :=
  let s1 := (destGroups e).foldl (fun s g => writeTail s e.vcfg e.vl g.1 e.w g.2) s
  match destPred e with
  | some d => s1.setPred d.toNat (predOf e.vl fun i => s1.pbit d.toNat i)
  | none => s1

/-- The stopped instruction completes with no further element, delivering the flags of those that had retired (R131), and its saved entries re-execute. -/
def completeStopped (e : VEntry) (s : State) : State :=
  let rest := (stripFrom s e).filter fun i => !s.ct.vec.pdone.getLsbD i
  let s1 := if e.vl ≤ s.ct.vec.vstart then s else tails e (inactive e rest s)
  let s2 := resumeStopped (s1.enter .u s1.ct.sup.sepc)
  match headOf s2 with
  | .entry h at_ => completeHead s2 h at_ (Effects.none.withOwed h)
  | _ => s2

/-- An indexed instruction. -/
def isIndexed (i : Instr) : Bool :=
  match i with
  | .vldx _ _ _ _ _ _ => true
  | .vstx _ _ _ _ _ _ => true
  | .vamo _ _ _ _ _ _ => true
  | _ => false

/-- A stop at an element of an ordered or indexed access: any other stop has no element to skip. -/
def elementStop (e : VEntry) (code : BitVec 8) : Bool :=
  (shortens code || code == Code.bounds) &&
    (match vecRes e.instr with
     | .load _ _ => true
     | .store _ _ => true
     | .vamo _ _ => true
     | _ => false)

/-- SKIP ELEMENT of an indexed stop. -/
def skipIndexed (e : VEntry) (f : Nat) (s : State) : Host.Outcome State Fault Refusal :=
  let p := (vecPred e.instr).1.toNat
  let s1 := (inactive e [f] s).onVec fun x => { x with pdone := x.pdone ||| BitVec.ofNat 16384 (2 ^ f) }
  match (stripFrom s1 e).find? fun i => s1.pbit p i && !s1.ct.vec.pdone.getLsbD i with
  | none => .next (completeStopped e s1)
  | some v =>
    let between := (stripFrom s1 e).filter fun i => decide (i < v) && !s1.pbit p i
    returnFromTrap ((inactive e between s1).onVec fun x => { x with vstart := v })

/-- SKIP ELEMENT of an ordered stop. -/
def skipOrdered (e : VEntry) (f : Nat) (s : State) : Host.Outcome State Fault Refusal :=
  let s1 := (inactive e [f] s).onVec fun x => { x with vstart := f + 1 }
  if f + 1 < e.vl then returnFromTrap s1
  else .next (completeStopped e (tails e s1))

/-- SKIP INSTRUCTION. -/
def skipInstruction (s : State) : State :=
  match s.ct.vec.stopped with
  | none => returnNext s
  | some st => completeStopped st.entry s

/-- sysc 2 with its action. -/
def handlerAction (action : Word) (s : State) : Host.Outcome State Fault Refusal :=
  match action.toNat with
  | 0 => if trapCode s = Code.brk then .next (returnNext s) else returnFromTrap s
  | 1 =>
    match s.ct.vec.stopped with
    | some st =>
      let f := s.ct.sup.sfelem.toNat
      if !elementStop st.entry (trapCode s) then .next (skipInstruction s)
      else if isIndexed st.entry.instr then skipIndexed st.entry f s
      else skipOrdered st.entry f s
    | none => .next (skipInstruction s)
  | 2 => .next (skipInstruction s)
  | _ => .next (endTask s)

/-- TRAP_REFLECT: Korier reflects the trap of the acting thread to its task, or serves sysc 1, 2 or 3. -/
def execTrapReflect (s : State) : Host.Outcome State Fault Refusal :=
  match disposition s with
  | .reflect code => reflectTrap 2 (setCode code s)
  | .call 1 => .next (registerHandler s)
  | .call 2 => handlerAction (s.getX k1Reg) (leaveHandler s)
  | .call _ => .next (ringBase s)
  | _ => .next (holdFault s)

-- ## The end of a task by a trap (R242)

/-- The error record of the acting task, with a code and the SCAUSE and SFVA given. -/
def taskError (t : Thread) (seq : Word) (scause sepc sfva : Word) (code : Nat) : ErrRec :=
  ⟨t.task.taskid.toNat, seq.toNat, scause.toNat, sepc.toNat, sfva.toNat, t.task.inst.toNat, t.lcore, code⟩

/-- Writes an error record into the log of a task's launch (R267). -/
def writeTaskError (t : Thread) (scause sepc sfva : Word) (code : Nat) (s : State) : State :=
  let l := elogOf s t.task.launch
  errorRecord s (dieOf t.lcore) l.1 l.2 (taskError t (seqOf s t.task.launch) scause sepc sfva code)

/-- Records of the errors kept with a task's jobs, in the order of the jobs (R190). R242 gives such a record the job's error code and nothing more: the model takes
SCAUSE and SEPC from the trap that ends the task, and SFVA from the failing address (log entry 140). -/
def writeKeptOf (t : Thread) (s : State) : State :=
  t.uli.errs.foldl (fun s e => writeTaskError t t.sup.scause t.sup.sepc e.addr e.code.toNat s) s

/-- Records of the errors kept with the acting task's jobs, which are then gone. -/
def writeKept (s : State) : State := (writeKeptOf s.ct s).onUli fun u => { u with errs := [] }

/-- How the delivery of an end went. -/
inductive Delivered where
  | done (s : State)
  | held (s : State)
  | gone (s : State)

/-- The delivery: an absent page of a registered region is mapped and a full spill area extended first; a fault on a page being migrated is
held; any other skips the delivery, with a record of its own. -/
def trapDeliver (cont : Word) (code : BitVec 8) : Nat → State → Delivered
  | tries, s =>
    match deliver (userCtx s) cont s.ct.task.slot (code.setWidth 64) s with
    | .ok _ s1 => .done s1
    | .wait _ s1 => .held s1
    | .gone s1 => .gone s1
    | .trap t s1 =>
      let skip : Delivered := .done (writeTaskError s.ct (scauseOf t false 0) s.ct.sup.sepc t.sfva t.code.toNat s1)
      if windowOf t.sfva == .global && (t.code == Code.pageAbsent || t.code == Code.pageProt) && migrating s1 s.ct.sup.troot t.sfva != some false then .held s
      else
        match tries with
        | 0 => skip
        | n + 1 =>
          if t.code = Code.resource then
            trapDeliver cont code n (s1.onCore s.ct.lcore fun k => { k with spillCap := k.spillCap + Config.spillCount })
          else if t.code = Code.pageAbsent ∧ serviceable s1 s.ct.sup.troot t.sfva then
            match servicePage s.ct.lcore s.ct.sup.troot t.sfva s1 with
            | .ok _ s2 => trapDeliver cont code n (pagerFence s2)
            | .trap _ s2 => .held s2
            | .wait _ s2 => .held s2
            | .gone s2 => .gone s2
          else skip

/-- The trap of the head of the VIQ, for the pager. -/
def headTrap (s : State) : Option Trap :=
  match headOf s with
  | .entry e _ =>
    (match vecOp e.instr (s.onCt fun x => { x with level := e.level }) e with
     | .trap t _ => some t
     | _ => none)
  | _ => none

/-- The last steps of an end: the groups, the grant, the chunk, and the record of the trap. -/
def finishEnd (code : BitVec 8) (s : State) : State :=
  let t := s.ct
  writeTaskError t t.sup.scause t.sup.sepc t.sup.sfva code.toNat (releaseTask s)

/-- Ends the acting task by a trap with a code. -/
def trapEnd (code : BitVec 8) (s0 : State) : State :=
  let s := (endTask s0).onVec fun x => { x with stopped := none }
  if !s.viqEmpty then
    match headTrap s with
    | some t =>
      if pagerFault s t then
        match serviceRecord s.ct.lcore s.ct.sup.troot t.sfva t.sfstride t.sfrem t.sfwidth s with
        | .ok _ s1 => pagerFence s1
        | .trap _ s1 => s1
        | .wait _ s1 => s1
        | .gone s1 => s1.onCtl fun c => { c with contain := true }
      else s
    | none => s
  else if !(jobsOf s s.ct.lcore s.ct.task.taskid).isEmpty then s
  else
    let s1 := releaseAll (writeKept s)
    if !hostQuiet s1 then s1
    else
      match (if s1.ct.sup.scause.getLsbD 15 then none else s1.ct.task.cont) with
      | none => finishEnd code s1
      | some c =>
        match trapDeliver c code 4 s1 with
        | .done s2 => finishEnd code s2
        | .held s2 => s2
        | .gone s2 => s2.onCtl fun c => { c with contain := true }

/-- TASK_TRAP_END: Korier ends the acting thread's task, as far as the end can go. -/
def execTaskTrapEnd (s : State) : Host.Outcome State Fault Refusal :=
  match disposition s with
  | .finish code => .next (trapEnd code (setCode code s))
  | _ => .next (holdFault s)

-- ## CONTAIN (R271)

/-- CONTAIN: the acting thread's pending containment is taken at this boundary. Korier waits for the task's jobs, ends the task without a delivery and
writes an error record for it and for each error kept with its jobs (R190); the chunk is treated as one held by a fenced die. A control thread that firmware has fenced stays out of service. -/
def execContain (s : State) : Host.Outcome State Fault Refusal :=
  if !s.ct.ctl.contain then .next s
  else if s.ct.status = .free then .next (s.onCtl fun c => { c with contain := false })
  else if !(jobsOf s s.ct.lcore s.ct.task.taskid).isEmpty then .next s
  else
    let t := s.ct
    let cause := scauseOf { code := Code.contain } false 0
    let sepc := if t.level = .u then t.pc else t.sup.sepc
    let s1 := s.record { code := Code.contain, sepc := some sepc } 0
    let s2 := t.vec.viq.foldl freeIssue (discardRecords ((leftEntries s1).filter (·.done.isNone)) (releaseAll s1))
    let s3 := loseTask s2 s2.member t.task.chunk
    let s4 := releaseGrant s3 t.lcore t.task.stashBase t.task.stashLen t.task.taskid
    let s5 := writeTaskError t cause sepc 0 Code.contain.toNat (writeKeptOf t (dropAhead { s4 with ct := s4.ct.freed }))
    .next (loseChunkOf s5 t.task.chunk)

-- ## The spill area (R96)

/-- SPILL_AREA_EXTENSION: Korier extends the spill area of a core; a thread there whose push trapped RESOURCE returns with SRET. -/
def execSpillAreaExtension (core more : Nat) (s : State) : Host.Outcome State Fault Refusal :=
  let blocked := s.ct.lcore == core && forTask s && trapCode s == Code.resource && pushBlocked s core
  let s1 := s.onCore core fun k => { k with spillCap := k.spillCap + more }
  if blocked && !pushBlocked s1 core then returnFromTrap s1 else .next s1

end Sys2Proof.Machine
end

