-- ==== Sys2Proof/Machine/Device.lean ====
section
/-!
DEFINITION. The steps of the host, the mailbox, the distributors, firmware and the loader: submission queues and launches (R90 to R95, R265 to
R267), device memory seen by the host and by peers (R264, R268), readiness, fencing, spares and failures (R270 to R273, R163), reset and firmware
(R262, R274, R275), clocks (R276), and code objects (R50 to R52).
-/

namespace Sys2Proof.Machine

/-- Adds an answer of the mailbox or of data-object exchange. -/
def State.answer (s : State) (a : Answer) : State := s.onPkg fun p => { p with answers := p.answers ++ [a] }

-- ## Submission queues

/-- A power of two from lo to hi. -/
def powerIn (lo hi n : Nat) : Bool := decide (lo ≤ n) && decide (n ≤ hi) && n == 2 ^ n.log2

/-- A virtual address whose bits 63 to 47 are equal. -/
def canonical (va : Word) : Bool := bitsOf va 47 17 == 0 || bitsOf va 47 17 == 2 ^ 17 - 1

/-- The die of the master distributor. -/
def masterAt (s : State) : Nat := (masterDie s).getD 0

/-- A queue record (Table 14.3) as a queue; its HEAD counter begins at what the HEAD line holds, once the device of that line is in use (R273). -/
def parseQueue (q : Nat) (r : List Byte) (s : State) : SubQueue :=
  { num := q, ring := fieldAt r 0 8, size := fieldAt r 8 4, tail := fieldAt r 0x10 8, head := fieldAt r 0x18 8, elog := fieldAt r 0x20 8,
    elsize := fieldAt r 0x28 4, troot := BitVec.ofNat 64 (fieldAt r 0x30 8), ringva := BitVec.ofNat 64 (fieldAt r 0x38 8),
    headVal := BitVec.ofNat 64 (readPhys s (masterAt s) (fieldAt r 0x18 8) 8).1, stopped := false, leaving := false,
    unread := s.answers (fieldAt r 0x18 8) && !s.inUse (fieldAt r 0x18 8) }

/-- The cases in which a registration returns Invalid Input (R265). -/
def queueOk (r : List Byte) (k : SubQueue) : Bool :=
  r.length == 64 && decide (k.num < 64) && k.ring % 128 == 0 && k.tail % 64 == 0 && k.head % 64 == 0 && k.elog % 64 == 0 &&
    k.ringva.toNat % 128 == 0 && canonical k.ringva && powerIn 2 65536 k.size && fieldAt r 0x0C 4 == 0 && fieldAt r 0x2C 4 == 0 &&
    (k.elog == 0 || powerIn 1 65536 k.elsize) && (k.troot &&& ~~~ 0xFFFFFFFFFF000) == 0

/-- REGISTER_QUEUE. R265 does not say what a registration of a number that is still registered, and has not stopped, does: the model replaces the queue and
answers success (log entry 149). -/
def execRegisterQueue (q : Nat) (qrec : List Byte) (s : State) : Host.Outcome State Fault Refusal :=
  let k := parseQueue q qrec s
  if queueOk qrec k then
    let s1 := if k.unread then s else (readPhys s (masterAt s) k.head 8).2
    .next ((((s1.onPkg fun p => { p with queues := (p.queues.filter fun o => o.num != q) ++ [k] }).answer .success).push [.tailSnoop q]))
  else .next (s.answer .invalidInput)

/-- A launch of a queue can still start. -/
def canStart (s : State) (q : Nat) : Bool :=
  s.pkg.launches.any fun l => l.queue == q && !l.ended &&
    ((!l.contained && decide (l.dealt < l.count)) || s.pkg.chunks.any fun c => c.launch == l.id && c.unstarted != 0)

/-- UNREGISTER_QUEUE: nothing further is picked up from the queue, and the command completes at a step at which no launch of the queue can still
start. -/
def execUnregisterQueue (q : Nat) (s : State) : Host.Outcome State Fault Refusal :=
  if !s.pkg.queues.any fun k => k.num == q then .next (s.answer .invalidInput)
  else if canStart s q then
    .next (s.onPkg fun p => { p with queues := p.queues.map fun k => if k.num = q then { k with leaving := true } else k })
  else .next ((s.onPkg fun p => { p with queues := p.queues.filter fun k => k.num != q }).answer .success)

/-- The error record of a distributor (R267). -/
def masterError (s : State) (k : SubQueue) (seq addr : Nat) : State :=
  errorRecord s (masterAt s) k.elog k.elsize ⟨0, seq, 0, 0, addr, k.num, 0xFFFF, Launched.format⟩

/-- A start record breaks the format (Table 4.5). -/
def formatBad (r : List Byte) : Bool :=
  let c := Ctl.parse (fieldAt r 0x38 8)
  c.cont != 0 || decide (5 < c.slot) || decide (40 < natBits (fieldAt r 0x58 8) 1 6) || natBits (fieldAt r 0x58 8) 7 57 != 0 ||
    decide (2 ^ 48 < fieldAt r 0x40 8) || (r.drop 0x68).any (· != 0)

/-- The launch of a start record at a ring position. -/
def parseLaunch (s : State) (k : SubQueue) (pa slot : Nat) (r : List Byte) : Launch :=
  { id := s.pkg.idCtr, queue := k.num, slotPa := pa, tva := k.ringva + BitVec.ofNat 64 (128 * slot), count := fieldAt r 0x40 8,
    base := BitVec.ofNat 64 (fieldAt r 0x48 8), done := BitVec.ofNat 64 (fieldAt r 0x50 8), nr := natBits (fieldAt r 0x58 8) 0 1 == 1,
    lgrain := natBits (fieldAt r 0x58 8) 1 6, seq := BitVec.ofNat 64 (fieldAt r 0x60 8), ctl := BitVec.ofNat 64 (fieldAt r 0x38 8),
    troot := k.troot, elog := k.elog, elsize := k.elsize, dealt := 0, cyclePos := 0, complete := 0, contained := false, ended := false }

/-- The slot of a queue's ring at a counter value. -/
def SubQueue.slotAt (k : SubQueue) (pos : Word) : Nat := k.ring + 128 * (pos.toNat % k.size)

/-- The master picks up one start record (R90, R91, R89): refused, done at once, or to be dealt. One whose home no longer answers is passed
over. -/
def pickUp (s : State) (k : SubQueue) (pos : Word) : State :=
  let pa := k.slotAt pos
  let s0 := readyRead (askDie s (masterAt s) (homeDie pa)) (.part (masterAt s)) pa 128
  let r := s0.bytesAt pa 128
  let l := parseLaunch s0 k pa (pos.toNat % k.size) r
  let s1 := launchRecord s0 l 0
  if !(s.answers pa && s.answers (pa + 64)) then s
  else if l.done.toNat % 8 ≠ 0 then masterError s1 k l.seq.toNat pa
  else
    let s2 := s1.onPkg fun p => { p with launches := p.launches ++ [l], idCtr := p.idCtr + 1 }
    if formatBad r then finishLaunch s2 l.id Launched.format
    else if 8 < (Ctl.parse l.ctl.toNat).accmin then finishLaunch s2 l.id Launched.resource
    else if l.count = 0 then finishLaunch s2 l.id Launched.done
    else s2

/-- Changes a queue. -/
def State.onQueue (s : State) (q : Nat) (f : SubQueue → SubQueue) : State :=
  s.onPkg fun p => { p with queues := p.queues.map fun o => if o.num = q then f o else o }

/-- Start records between HEAD and a value of TAIL (R266), modulo 2^64. -/
def SubQueue.fresh (k : SubQueue) (tail : Word) : Nat := (tail - k.headVal).toNat

/-- The devices of HEAD and of the start records that a value of TAIL announces are in use (R273). -/
def ringInUse (s : State) (k : SubQueue) (tail : Word) : Bool :=
  s.inUse k.head && (List.range (k.fresh tail)).all fun i =>
    let pa := k.slotAt (k.headVal + BitVec.ofNat 64 i)
    s.inUse pa && s.inUse (pa + 64)

/-- The master takes what a value of TAIL announces (R266, R93). -/
def takeTail (s : State) (k : SubQueue) (tail : Word) : State :=
  if k.size < k.fresh tail then (masterError s k 0 k.tail).onQueue k.num fun o => { o with stopped := true }
  else if k.fresh tail = 0 || !ringInUse s k tail then s
  else
    let s1 := (List.range (k.fresh tail)).foldl (fun s i => pickUp s k (k.headVal + BitVec.ofNat 64 i)) s
    dealAll ((writePhys s1 (masterAt s1) k.head (toBytes 8 tail.toNat)).onQueue k.num fun o => { o with headVal := tail })

/-- The master reads HEAD of a queue whose registration could not (R273). -/
def readHead (s : State) (k : SubQueue) : SubQueue × State :=
  if k.unread then
    let r := readPhys s (masterAt s) k.head 8
    let k1 := { k with headVal := BitVec.ofNat 64 r.1, unread := false }
    (k1, r.2.onQueue k.num fun _ => k1)
  else (k, s)

/-- The master reads TAIL of a queue and takes what it finds; HEAD comes first. -/
def snoopTail (s : State) (k : SubQueue) : State :=
  if k.unread && !s.inUse k.head then s
  else
    let h := readHead s k
    let r := readPhys h.2 (masterAt s) k.tail 8
    takeTail r.2 h.1 (BitVec.ofNat 64 r.1)

/-- TAIL_SNOOP: without a master no queue is read (R94), and a read waits for its device (R273). -/
def execTailSnoop (q : Nat) (s : State) : Host.Outcome State Fault Refusal :=
  match s.pkg.queues.find? fun k => k.num == q with
  | some k =>
    if (masterDie s).isNone || k.stopped || k.leaving || !s.answers k.tail || !s.inUse k.tail then .next s else .next (snoopTail s k)
  | none => .next s

-- ## The mailbox and data-object exchange

/-- SET_POWER_CAP. -/
def execSetPowerCap (watts : Nat) (s : State) : Host.Outcome State Fault Refusal :=
  if 600 ≤ watts ∧ watts ≤ 2400 then .next ((s.onPkg fun p => { p with powerCap := watts }).answer .success)
  else .next (s.answer .invalidInput)

/-- GET_FW_INFO: the bytes of the answer are free values (log entry 20). -/
def execGetFwInfo (s : State) : Host.Outcome State Fault Refusal :=
  let (f, s1) := s.useFresh
  .next (s1.answer (.fwInfo (Config.fwInfo f)))

/-- The image of a slot. -/
def Firmware.image (f : Firmware) (slot : Bool) : List Byte := if slot then f.slot1 else f.slot0

/-- The boot ROM runs an image whose signature verifies and whose security version is not below the fused counter. -/
def bootable (f : Firmware) (slot : Bool) : Bool := Config.fwVerifies (f.image slot) && decide (f.fused ≤ Config.fwVersion (f.image slot))

/-- Puts an image into the inactive slot. -/
def Firmware.put (f : Firmware) (image : List Byte) : Firmware := if f.active then { f with slot0 := image } else { f with slot1 := image }

/-- A valid image ends recovery (R274): the boot ROM runs it at once (log entry 113). -/
def Firmware.revive (f : Firmware) : Firmware :=
  if f.recovery && bootable f (!f.active) then { f with active := !f.active, next := !f.active, recovery := false } else f

/-- TRANSFER_FW writes the inactive slot. -/
def execTransferFw (image : List Byte) (s : State) : Host.Outcome State Fault Refusal :=
  .next ((s.onPkg fun p => { p with fw := (p.fw.put image).revive }).answer .success)

/-- ACTIVATE_FW selects the inactive slot for the next reset. -/
def execActivateFw (s : State) : Host.Outcome State Fault Refusal :=
  .next ((s.onPkg fun p => { p with fw := { p.fw with next := !p.fw.active } }).answer .success)

/-- The bytes of the configuration that are measured (R275): the fuses, of which the spec names the security counter, SPAREMAP and COLMAP. -/
def configBytes (s : State) : List Byte :=
  toBytes 8 s.pkg.fw.fused ++ s.pkg.ready.spare.toList ++ (List.range 128).map fun n => BitVec.ofNat 8 (s.core n).spareCols

/-- GET_MEASUREMENTS: the boot ROM, the active image, the Korier image and the configuration (R275). What a measurement of its content looks
like is a free value (log entry 20). -/
def execGetMeasurements (s : State) : Host.Outcome State Fault Refusal :=
  let (f, s1) := s.useFresh
  .next (s1.answer (.measurements ([[1], s.pkg.fw.image s.pkg.fw.active, [3], configBytes s].map fun c => Config.spdmAnswer c f)))

/-- SPDM_REQUEST: a signed response, a free value. -/
def execSpdmRequest (req : List Byte) (s : State) : Host.Outcome State Fault Refusal :=
  let (f, s1) := s.useFresh
  .next (s1.answer (.spdm (Config.spdmAnswer req f)))

-- ## Memory seen by the host and by peers

/-- Every byte of a range lies in device memory, or in host memory. -/
def hostRange (addr len : Nat) : Bool :=
  decide (addr + len ≤ 2 ^ 38) || (decide (2 ^ 51 ≤ addr) && decide (addr + len ≤ 2 ^ 52))

/-- The devices that hold the bytes are in use (R273). -/
def hostReady (s : State) (addr len : Nat) : Bool := (linesOf addr len).all s.inUse

/-- BAR 0 maps the device registers (R262, R273): the host names one at its device physical address. -/
def inBar (addr len : Nat) : Bool := decide (2 ^ 48 ≤ addr) && decide (addr + len ≤ 2 ^ 48 + 2 ^ 32)

/-- Reads bytes of the device registers, in rising order. -/
def barRead (s : State) (addr len : Nat) : List Byte × State :=
  (List.range len).foldl (fun acc i => let r := devRead acc.2 (addr + i) 1; (acc.1 ++ [BitVec.ofNat 8 r.1], r.2)) ([], s)

/-- Writes bytes of the device registers, one register after another. -/
def barWrite (s : State) (addr : Nat) (bytes : List Byte) : State :=
  (List.range (ceilDiv (addr % 8 + bytes.length) 8)).foldl (fun s i =>
    let lo := max addr (8 * (addr / 8 + i))
    let bs := (bytes.drop (lo - addr)).take (8 * (addr / 8 + i + 1) - lo)
    devWrite s lo bs.length (leNat bs)) s

/-- HOST_MEM_READ: the home records the host as a sharer; a poisoned line or a fenced home returns poison (R270, R271). A read of BAR 0 reads device
registers; the Electrum block of a fenced die is a fenced home too. -/
def execHostMemRead (addr len : Nat) (s : State) : Host.Outcome State Fault Refusal :=
  if len == 0 then .next s
  else if inBar addr len then
    if (linesOf addr len).any (lostHome s) then .next (s.answer .poisoned)
    else let r := barRead s addr len; .next (r.2.answer (.hostRead r.1))
  else if !hostRange addr len || !hostReady s addr len || !s.pkg.ready.hostUp then .next s
  else if (linesOf addr len).any fun l => lostHome s l || s.m.poison.contains l then .next (s.answer .poisoned)
  else
    let s1 := readyRead s .outside addr len
    let ls := if addr < 2 ^ 38 then linesOf addr len else []
    let s2 := s1.onMem fun m => { m with hostShared := m.hostShared ++ ls.filter fun l => !m.hostShared.contains l }
    .next (s2.answer (.hostRead (s1.bytesAt addr len)))

/-- Queues whose TAIL line a write touches: the master's copy is invalidated (R266). -/
def snooped (s : State) (addr len : Nat) : List Instr :=
  (s.pkg.queues.filter fun k => (linesOf addr len).contains (lineOf k.tail)).map fun k => .tailSnoop k.num

/-- A write of the host to a line, or of a peer, performs at its home: device copies end as after any write (R264). -/
def outsideWrite (s : State) (pa : Nat) (bs : List Byte) : State :=
  performHome (drainTranslated s .outside pa bs.length) .outside .recall pa bs

/-- HOST_MEM_WRITE: it performs at the home, and invalidates device copies as any write does; what is to a fenced home is dropped, and answered with an
error (R264, R270). A write of BAR 0 writes device registers; the Electrum block of a fenced die is a fenced home too. -/
def execHostMemWrite (addr : Nat) (bytes : List Byte) (s : State) : Host.Outcome State Fault Refusal :=
  let n := bytes.length
  let lost := (linesOf addr n).any (lostHome s)
  if bytes.isEmpty then .next s
  else if inBar addr n then .next (if lost then s.answer .error else barWrite s addr bytes)
  else if !hostRange addr n || !hostReady s addr n || !s.pkg.ready.hostUp then .next s
  else
    let s1 := s.onMem fun m => { m with cxlHeld := m.cxlHeld.filter fun l => !(linesOf addr n).contains l }
    let s2 :=
      if lost then
        ((pieces addr n).foldl (fun s p =>
          if lostHome s (addr + p.1) then s else outsideWrite s (addr + p.1) ((bytes.drop p.1).take p.2)) s1).answer .error
      else outsideWrite s1 addr bytes
    .next (s2.push (snooped s addr n))

/-- BACK_INVALIDATE_RESPONSE: the host has answered for a line. -/
def execBackInvalidateResponse (line : Nat) (s : State) : Host.Outcome State Fault Refusal :=
  .next (s.onMem fun m => { m with biWait := m.biWait.erase line })

/-- The aperture of a port (R268). -/
def apertureOf (port off : Nat) : Nat := 2 ^ 50 + port * 2 ^ 46 + off

/-- PEER_ACCESS: an access at an offset of a port's aperture performs at the peer's home: its bytes are what the peer then holds there. Its packet
carries the peer's causal counter, a free value (R280, log entry 98). Nothing reaches a peer through a port that is not up, or at an offset that
it does not populate. -/
def execPeerAccess (port off : Nat) (bytes : List Byte) (s : State) : Host.Outcome State Fault Refusal :=
  if bytes.isEmpty || decide (16 ≤ port) || !s.pkg.ready.linkUp.getLsbD port || decide (2 ^ 38 < off + bytes.length) then .next s
  else
    let (f, s1) := s.useFresh
    let s2 := receivePacket s1 (homeDie (apertureOf port off)) (Config.peerCausal f)
    .next (outsideWrite s2 (apertureOf port off) bytes)

/-- LINK_REPLAY changes only timing. -/
def execLinkReplay (port : Nat) (s : State) : Host.Outcome State Fault Refusal := let _ := port; .next s

/-- CXL_CACHE_SNOOP: a host line held through CXL.cache goes back to the host. -/
def execCxlCacheSnoop (line : Nat) (s : State) : Host.Outcome State Fault Refusal :=
  .next (s.onMem fun m => { m with cxlHeld := m.cxlHeld.filter (· != line) })

-- ## Readiness (R273)

def State.onReady (s : State) (f : ReadyMap → ReadyMap) : State := s.onPkg fun p => { p with ready := f p.ready }

/-- Each queue is read by the master, or by a new master. -/
def snoopAll (s : State) : State := s.push (s.pkg.queues.map fun k => .tailSnoop k.num)

/-- READY_REPORT: a function that is not fenced is in use from now on; a new core joins the cycle, and chunks that wait are dealt (R94). In recovery
nothing but CXL.io, the mailbox and data-object exchange is in service (R274). Table 14.7 keeps no mark of a host link that was fenced: the model lets its
report put it into use again (log entry 142). -/
def execReadyReport (f : ReadyFn) (s : State) : Host.Outcome State Fault Refusal :=
  if s.pkg.fw.recovery then .next s
  else
    match f with
    | .die d => if s.dieFenced d then .next s else .next (snoopAll (dealAll (s.onDie d fun x => { x with ready := true })))
    | .core c =>
      if s.pkg.fencedCores.contains c || s.dieFenced (dieOf c) then .next s
      else .next (dealAll (s.onReady fun r => { r with cores := r.cores ||| (1#128 <<< c) }))
    | .link p => if s.pkg.ready.linkFailed.getLsbD p then .next s else .next (s.onReady fun r => { r with linkUp := r.linkUp ||| (1#16 <<< p) })
    | .host => .next (snoopAll (s.onReady fun r => { r with hostUp := true }))

/-- The job steps of every core that has jobs. -/
def wakeJobs (s : State) : State :=
  s.push ((List.range 128).flatMap fun c => if (s.core c).jobs.isEmpty then [] else [.jobStart c, .jobComplete c])

/-- MEM_TRAINED: the device is in use, and what waits for it goes on: the accesses of threads and jobs, the distributors' and Korier's writes, and the
reading of queues. In recovery no memory is in service (R274). -/
def execMemTrained (dev : Nat) (s : State) : Host.Outcome State Fault Refusal :=
  if s.pkg.fw.recovery then .next s
  else .next (snoopAll (wakeJobs (payOwed (s.onReady fun r => { r with trained := r.trained ||| (1#32 <<< dev) }))))

/-- What an agent that has been lost leaves outstanding (R271): the tasks with accesses toward it that have not performed take CONTAIN, a parked one at once;
the accesses are dropped (R270). -/
def containStores (s : State) : State :=
  let lostLate (l : Late) : Bool := l.got.isNone && lostEither s l.pa
  let tasks := ((s.m.sbuf.filter fun e => lostEither s e.pa).map (·.task)) ++ ((s.m.wcb.filter fun l => lostHome s l.line).map (·.task)) ++
    (s.m.late.filter lostLate).map (·.task)
  let kept := s.onMem fun m =>
    { m with sbuf := m.sbuf.filter fun e => !lostEither s e.pa, wcb := m.wcb.filter fun l => !lostHome s l.line, late := m.late.filter fun l => !lostLate l }
  containParked (tasks.eraseDups.foldl containTaskId kept)

/-- MEM_DEVICE_FAILURE: ECC corrects one device of a pair; a second failure contains the pair's addresses. R273 does not number the pairs: the model pairs
devices 2k and 2k + 1 (log entry 131). What waits for a device that was not trained goes on (R273). -/
def execMemDeviceFailure (dev : Nat) (s : State) : Host.Outcome State Fault Refusal :=
  let s1 := s.onReady fun r => { r with failed := r.failed ||| (1#32 <<< dev) }
  let other := if dev % 2 = 0 then dev + 1 else dev - 1
  let pair := dev / 2
  if s.pkg.ready.failed.getLsbD other ∧ !s.pkg.containedPairs.contains pair then
    .next (snoopAll (wakeJobs (payOwed (containStores (s1.onPkg fun p => { p with containedPairs := p.containedPairs ++ [pair] })))))
  else .next (snoopAll (wakeJobs (payOwed s1)))

-- ## Fencing (R270, R271, R95)

/-- The dirty lines that L1 slices and stashes of lost cores own, homed on surviving dies. -/
def ownedLines (lost : List Nat) (s : State) : List Nat :=
  let dirty := (s.m.slines.filter fun l => lost.contains (stashCore l.at_) && l.state == .dirty).map (·.pa)
  ((((s.m.owners ++ s.m.wbuf).filter fun o => lost.contains (sliceOf o.2 o.1)).map (·.1)) ++ dirty).filter fun l =>
    match homeOf l with
    | .dram d => !s.dieFenced d
    | _ => false

/-- Those lines are poisoned at their homes, and what the lost cores had buffered or held is gone. A late access of another core to one of them performs
before (log entry 151). -/
def poisonOwned (lost : List Nat) (s0 : State) : State :=
  let inLost (o : Nat × Nat) : Bool := lost.contains (sliceOf o.2 o.1)
  let isLost (l : SLine) : Bool := lost.contains (stashCore l.at_)
  let s := performWhere (fun l => !lost.contains l.lcore && (ownedLines lost s0).contains (nameLine s0 l.pa)) s0
  let lines := ownedLines lost s
  s.onMem fun m =>
    { m with poison := m.poison ++ (lines.filter fun l => !m.poison.contains l).eraseDups, owners := m.owners.filter fun o => !inLost o,
             wbuf := m.wbuf.filter fun o => !inLost o, copies := m.copies.filter fun c => !lost.contains c.1,
             slines := m.slines.filter fun l => !isLost l, sbuf := m.sbuf.filter fun e => !lost.contains e.lcore,
             wcb := m.wcb.filter fun l => !lost.contains l.lcore, early := m.early.filter fun e => !lost.contains e.lcore,
             late := m.late.filter fun l => !lost.contains l.lcore, tlb := m.tlb.filter fun e => !lost.contains e.lcore }

def Thread.member (t : Thread) : Member := ⟨t.task.taskid, t.lcore, t.ctno, t.ord.detctl⟩

/-- The tasks of a lost control thread, context or parked record, with their chunks. -/
def lostTasks (lost : List Nat) (s : State) : List (Member × Option Nat) :=
  ((s.threads.filter fun t => t.status == .running && lost.contains t.lcore).map fun t => (t.member, t.task.chunk)) ++
    ((s.pkg.saved.filter fun t => lost.contains t.lcore).map fun t => (t.member, t.task.chunk)) ++
    ((s.pkg.parked.filter fun p => lost.contains p.core).map fun p => (p.member, p.task.chunk))

/-- Deque entries of lost cores. -/
def lostEntries (lost : List Nat) (s : State) : List DqEntry := lost.flatMap fun c => (s.core c).deques.toList.flatten

/-- The chunk of an entry. -/
def DqEntry.chunk (e : DqEntry) : Option Nat :=
  match e.what with
  | .record _ ch _ _ _ => ch
  | .range ch _ _ => some ch

/-- A record that has not run yet counts as one live task of its chunk. -/
def DqEntry.counted (e : DqEntry) : Option Nat :=
  match e.what with
  | .record _ ch _ _ none => ch
  | _ => none

/-- What a core keeps when it is fenced: the record pool, the spill area's size and its array columns. -/
def Core.emptied (k : Core) : Core := { Core.reset with pool := k.pool, spillCap := k.spillCap, spareCols := k.spareCols }

/-- The tasks, contexts and entries of lost cores are gone, and the continuations named in their record pools (R292). dealt: chunks that the lost die held. -/
def loseCores (lost : List Nat) (dealt : Chunk → Bool) (s : State) : State :=
  let tasks := lostTasks lost s
  let entries := lostEntries lost s
  let held := (s.pkg.chunks.filter fun c => !c.complete && dealt c).map (·.id)
  let chunks := ((tasks.filterMap (·.2)) ++ (entries.filterMap DqEntry.chunk) ++ held).eraseDups
  let free (t : Thread) : Thread := if lost.contains t.lcore then { t.freed with status := .fenced } else t
  let s1 := (s.mapThreads free).onPkg fun p =>
    { p with saved := p.saved.filter fun t => !lost.contains t.lcore, parked := p.parked.filter fun k => !lost.contains k.core,
             jobFaults := p.jobFaults.filter fun f => !lost.contains f.core,
             contKeys := p.contKeys.filter fun k => !lost.contains ((k.va - p.recRegion).toNat / 2 ^ 14) }
  let s2 := lost.foldl (fun s c => s.onCore c Core.emptied) s1
  let s3 := tasks.foldl (fun s t => loseTask s t.1 t.2) s2
  let s4 := (entries.filterMap DqEntry.counted).foldl (fun s c => s.onChunk c fun k => { k with live := k.live - 1 }) s3
  chunks.foldl loseChunk s4

/-- SPAREMAP after a core is fenced: a spare that served the number has failed. -/
def spareFails (c : Nat) (s : State) : State :=
  let k := clusterOf c
  let b := s.pkg.ready.spare.toList.getD k 0
  if b.getLsbD 7 ∧ (b &&& 3).toNat = c % 4 then s.onReady fun r => { r with spare := r.spare.setIfInBounds k 0x40 } else s

/-- A core is fenced. -/
def fenceCore (c : Nat) (s : State) : State :=
  if s.pkg.fencedCores.contains c then s
  else
    let s1 := (s.onPkg fun p => { p with fencedCores := p.fencedCores ++ [c] }).onReady fun r => { r with cores := r.cores &&& ~~~ (1#128 <<< c) }
    dealAll (loseCores [c] (fun _ => false) (poisonOwned [c] (spareFails c s1)))

/-- Posts under way to an order point that is lost: their posters take CONTAIN (R326). -/
def containPosts (d : Nat) (s : State) : State :=
  s.mapThreads fun t =>
    match t.ctl.post with
    | some (c, _) => if orderDie s c = d then { t with ctl := { t.ctl with post := none, contain := true } } else t
    | none => t

/-- Order points of a fenced die go on from the new die's own copies (R326). -/
def moveOrderPoints (s : State) : State :=
  (List.range 16).foldl (fun s c =>
    if s.dieFenced (c % 4) then
      let cp := ringCopy s (orderDie s c) c
      s.onChan c fun k => { k with value := cp.1, version := cp.2 }
    else s) s

/-- A die is fenced (R95): its groups are lost, its order points move, its chunks are dealt again, and a new master reads the queues. -/
def fenceDie (d : Nat) (s : State) : State :=
  if s.dieFenced d then s
  else
    let lost := (List.range 32).map (32 * d + ·)
    let s1 := (containPosts d s).onDie d fun x => { x with fenced := true, ready := false }
    let s2 := s1.onReady fun r => { r with cores := lost.foldl (fun a c => a &&& ~~~ (1#128 <<< c)) r.cores }
    let s3 := moveOrderPoints (poisonOwned lost s2)
    snoopAll (dealAll (loseCores lost (fun c => dieOf c.core == d) s3))

/-- Fences an agent; a link that is fenced fails, and a host that is fenced has answered every snoop (R270). What was outstanding toward it, and what
waits for a group that is lost (R323), takes CONTAIN. -/
def fenceAgent (a : Agent) (s : State) : State :=
  containStores
    (match a with
     | .core c => fenceCore c s
     | .die d => fenceDie d s
     | .link p => s.onReady fun r => { r with linkUp := r.linkUp &&& ~~~ (1#16 <<< p), linkFailed := r.linkFailed ||| (1#16 <<< p) }
     | .host => (s.onReady fun r => { r with hostUp := false }).onMem fun m => { m with hostShared := [], biWait := [], cxlHeld := [] })

/-- AGENT_TIMEOUT and INTERNAL_ERROR: firmware fences the agent. -/
def execAgentTimeout (a : Agent) (s : State) : Host.Outcome State Fault Refusal := .next (fenceAgent a s)
def execInternalError (a : Agent) (s : State) : Host.Outcome State Fault Refusal := .next (fenceAgent a s)

/-- SPARE_SERVICE: the spare of a cluster that has passed self-test takes the number of the core that was fenced first (R3, R272). -/
def execSpareService (cluster : Nat) (s : State) : Host.Outcome State Fault Refusal :=
  let b := s.pkg.ready.spare.toList.getD cluster 0
  match s.pkg.fencedCores.find? fun c => clusterOf c == cluster with
  | none => .next s
  | some c =>
    if b.getLsbD 6 || b.getLsbD 7 || s.dieFenced (dieOf c) then .next s
    else
      let s1 := s.onPkg fun p => { p with fencedCores := p.fencedCores.filter (· != c) }
      let s2 := s1.onReady fun r =>
        { r with cores := r.cores ||| (1#128 <<< c), spare := r.spare.setIfInBounds cluster (0x80 ||| BitVec.ofNat 8 (c % 4)) }
      let wake (t : Thread) : Thread := if t.lcore = c then { Thread.idle c t.ctno with sup := t.sup } else t
      .next (dealAll ((s2.mapThreads wake).onCore c fun k => { k with spareCols := 0 }))

/-- COLUMN_FAIL: a spare column replaces a failed one with no visible change; the fifth failure fences the core. -/
def execColumnFail (core : Nat) (s : State) : Host.Outcome State Fault Refusal :=
  if (s.core core).spareCols < 4 then .next (s.onCore core fun k => { k with spareCols := k.spareCols + 1 }) else .next (fenceAgent (.core core) s)

/-- BSTORE_PARITY_ERROR: the row becomes absent, so no fill owns the panel that holds it and an MMAC that names it traps PANEL_ABSENT. -/
def execBstoreParityError (core row : Nat) (s : State) : Host.Outcome State Fault Refusal :=
  .next (s.onCore core fun k => { k with panels := k.panels.filter fun p => !(decide (p.row ≤ row) && decide (row < p.row + p.len)) })

/-- CLOCK_CHANGE: the clock code, and a CLOCK record; no result depends on it. -/
def execClockChange (die : Nat) (code cause : BitVec 8) (s : State) : Host.Outcome State Fault Refusal :=
  .next (produce (s.onDie die fun x => { x with clock := code.setWidth 2 }) die 0x07 Source.none [(0x20, 1, code.toNat), (0x21, 1, cause.toNat)])

-- ## Reset (R274)

/-- Which slot boots: the one selected, else the other; with neither the module stays in recovery. -/
def bootFw (f : Firmware) : Firmware :=
  if bootable f f.next then { f with active := f.next, recovery := false }
  else if bootable f (!f.next) then { f with active := !f.next, next := !f.next, recovery := false }
  else { f with recovery := true }

/-- DEVICE_RESET: the boot ROM's verification, and every state of the device as State.reset has it. What the host and the peers hold stays, and so
do the image slots and the answers given. -/
def execDeviceReset (s : State) : Host.Outcome State Fault Refusal :=
  let kept := s.m.mem.filter fun c => decide (2 ^ 50 ≤ c.1)
  .next { State.reset with
    m := { MemSt.reset with mem := kept }
    pkg := { PkgSt.reset with fw := bootFw s.pkg.fw, answers := s.pkg.answers }
    sched := s.sched
    fresh := s.fresh }

-- ## Code objects (R50 to R52)

/-- The HK-40's version of each profile (R51). -/
def profileVersions : List Nat := [1, 2, 1, 1, 1, 1, 1]

/-- PROF bytes as a profile set. -/
def profSet (bs : List Byte) : BitVec 7 := (List.range 7).foldl (fun a i => if bs.getD i 0 != 0 then a ||| (1#7 <<< i) else a) 0

/-- The loader's checks (R51). -/
def objectOk (im : List Byte) : Bool :=
  let f := fieldAt im
  let inside (off len : Nat) : Bool := decide (off + len ≤ im.length)
  let entry (k : Nat) : Bool :=
    let o := f (f 0x20 4 + 16 * k) 4
    o % 4 == 0 && decide (o + 4 ≤ f 0x14 4) && isLandTask (BitVec.ofNat 32 (f (f 0x10 4 + o) 4))
  inside 0 64 && (im.take 4).map (·.toNat) == [0x4C, 0x5A, 0x43, 0x4F] && f 4 2 == 1 && f 6 2 == 0 && f 0x0F 1 == 0 && f 0x38 8 == 0 &&
    f 8 1 != 0 && ((List.range 7).all fun i => decide (f (8 + i) 1 ≤ profileVersions.getD i 0)) &&
    inside (f 0x10 4) (f 0x14 4) && inside (f 0x18 4) (f 0x1C 4) && inside (f 0x20 4) (16 * f 0x24 4) && inside (f 0x28 4) (f 0x2C 4) &&
    inside (f 0x30 4) (8 * f 0x34 4) && (List.range (f 0x24 4)).all entry

/-- The image with its relocations applied for a load address. One whose eight bytes lie outside the data section, of which R50 and R51 say nothing, is
applied anywhere inside the image and has no effect beyond it (log entry 114). -/
def relocated (im : List Byte) (va : Word) : List Byte :=
  let f := fieldAt im
  (List.range (f 0x34 4)).foldl (fun a k =>
    let at_ := f 0x18 4 + f (f 0x30 4 + 8 * k) 4
    if at_ + 8 ≤ a.length then a.take at_ ++ toBytes 8 (BitVec.ofNat 64 (fieldAt a at_ 8) + va).toNat ++ a.drop (at_ + 8) else a) im

/-- CODE_OBJECT_LOAD: an image that the loader accepts has its text and data placed from a physical address on, its text known by virtual
address under the acting thread's root (log entry 115), and its profiles added to a profile-set entry; one that it refuses changes nothing. -/
def execCodeObjectLoad (image : List Byte) (pa : Nat) (va : Word) (profset : BitVec 4) (s : State) : Host.Outcome State Fault Refusal :=
  if !objectOk image then .next s
  else
    let im := relocated image va
    let f := fieldAt im
    let section_ (off len : Nat) : List Byte := (im.drop off).take len
    let s1 := writePhys s (dieOf s.ct.lcore) (pa + f 0x10 4) (section_ (f 0x10 4) (f 0x14 4))
    let s2 := writePhys s1 (dieOf s.ct.lcore) (pa + f 0x18 4) (section_ (f 0x18 4) (f 0x1C 4))
    let profs := profSet ((im.drop 8).take 7)
    let obj : CodeObject := ⟨s.ct.sup.troot, va + BitVec.ofNat 64 (f 0x10 4), f 0x14 4, profs⟩
    .next (s2.onPkg fun p =>
      { p with objects := p.objects ++ [obj],
               profsets := if profset = 0 then p.profsets else p.profsets.setIfInBounds profset.toNat (p.profsets.toList.getD profset.toNat 0 ||| profs) })

end Sys2Proof.Machine
end

