-- ==== Sys2Proof/Machine/Events.lean ====
section
/-!
DEFINITION. The steps of the memory system (R179, R207, R211, R234, R236, R253, R258) and of Electrum (R278, R284, R285, R287), and the trap of a word
that no instruction has (R46).
-/

namespace Sys2Proof.Machine

-- ## The memory system

/-- TRANSLATION_INVALIDATE: sharers of a page-table line drop what they derived from it, after the accesses translated through it have performed;
mapped stash lines become MAPPED (R234). -/
def execTranslationInvalidate (line : Nat) (s : State) : Host.Outcome State Fault Refusal :=
  let l := lineOf line
  .next (dropTranslations (drainFor (needLines [l]) s) (homeDie l) (fun ds => ds.any fun d => lineOf d == l) (fun e => e.deps.any fun d => lineOf d == l))

/-- DIRTY_WRITEBACK: a cluster evicts a dirty line, which stays in its writeback buffer; once it is there the home acknowledges it. The line's
value is the home's throughout (R207). A line that no cluster owns leaves the LLC, which drops its race record (R225, log entry 116). Any of these
waits until the updates of the line have been applied (R253). The writeback and its acknowledgement cross between the owner's die and the home's (R280). -/
def execDirtyWriteback (line : Nat) (s : State) : Host.Outcome State Fault Refusal :=
  let l := lineOf line
  let own (o : Nat × Nat) : Bool := o.1 == l
  let s1 := settle s l 64
  let tell (s : State) (c : Nat) : State :=
    if s1.m.wbuf.any own then packet s (homeDie l) (c / 8) else packet s (c / 8) (homeDie l)
  let from_ := if s1.m.wbuf.any own then s1.m.wbuf else s1.m.owners
  .next (((from_.filter own).foldl (fun s o => tell s o.2) s1).onMem fun m =>
    if m.wbuf.any own then { m with wbuf := m.wbuf.filter fun o => !own o }
    else if m.owners.any own then { m with wbuf := m.wbuf ++ m.owners.filter own, owners := m.owners.filter fun o => !own o }
    else { m with races := m.races.filter fun r => !own r })

/-- WRITEBACK_FORWARD: the buffer serves the forward, which waits for the updates of the line (R253), and the home discards the writeback and acknowledges
it. Each crosses between the owner's die and the home's (R280). -/
def execWritebackForward (line : Nat) (s : State) : Host.Outcome State Fault Refusal :=
  let l := lineOf line
  let s1 := settle s l 64
  let s2 := (s1.m.wbuf.filter fun o => o.1 == l).foldl (fun s o => packet (askDie s (homeDie l) (o.2 / 8)) (homeDie l) (o.2 / 8)) s1
  .next (s2.onMem fun m => { m with wbuf := m.wbuf.filter fun o => o.1 != l })

/-- STASH_REMOTE_READ: a DIRTY stash line supplies its data and becomes CLEAN (Table 9.3). -/
def execStashRemoteRead (line : Nat) (s : State) : Host.Outcome State Fault Refusal := .next (syncStash s (lineOf line) false)

/-- STASH_REMOTE_WRITE: the stash line is written back where DIRTY, and becomes MAPPED. -/
def execStashRemoteWrite (line : Nat) (s : State) : Host.Outcome State Fault Refusal := .next (syncStash s (lineOf line) true)

/-- UPDATE_ARRIVAL: an update joins the chain of its doubleword, with a packet to its home's die where it is another's. One that is not held finds the
held ones applied (R258, event 2). One toward a home that answers no more is dropped (R270). -/
def execUpdateArrival (u : Update) (s : State) : Host.Outcome State Fault Refusal :=
  if lostHome s u.addr then .next s
  else
    let s1 := packet s (dieOf u.lcore) (homeDie u.addr)
    match u.held with
    | some _ => .next (joinChain s1 (updateBy u) .recall u)
    | none => .next (joinChain (settleDword s1 (u.addr - u.addr % 8)) (updateBy u) .recall u)

/-- CHAIN_APPLY: the chain of a doubleword is applied and its entry freed; held updates that it holds are applied early, and counted (R258). -/
def execChainApply (dword : Nat) (s : State) : Host.Outcome State Fault Refusal :=
  let dw := dword - dword % 8
  let s1 := settleDword s dw
  .next (if heldCount s dw = 0 then s1 else countEvent s1 (homeDie dw) 1)

/-- STORE_BUFFER_DRAIN: the oldest buffered store of the acting control thread performs. -/
def execStoreBufferDrain (s : State) : Host.Outcome State Fault Refusal := .next (drainOne s 0)

/-- The cached form of a walk's result. -/
def cacheWalk (c : Ctx) (va : Word) (e : Word) (at_ lvl : Nat) (deps : List Nat) : TlbEntry :=
  let bits := pageBits lvl (pteS16 e)
  ⟨c.lcore, c.root, pteG e, va.toNat % 2 ^ 48 / 2 ^ bits * 2 ^ bits, bits, e, at_, lvl, deps⟩

/-- HARDWARE_PREFETCH: a speculative load by the acting thread's core (R236). Refused, it is dropped and counted, one outside the global window and one to
an MT = 1 page among them, of which R236 says only that they are not made (log entry 128); otherwise the translation is cached, and the line fills the cluster's L1. One that would wait or meet a lost home has no effect. -/
def execHardwarePrefetch (va : Word) (s : State) : Host.Outcome State Fault Refusal :=
  if windowOf va ≠ .global then .next (countEvent s (dieOf s.ct.lcore) 0)
  else
    match translate s.ctx { kind := 1, spec := true } va s with
    | .ok p _ =>
      match walk s.ctx va s with
      | .ok (.leaf e at_ n deps) s1 =>
        if pteMt e ≠ 0 then .next s
        else .next ((l1Read s1 p.cached s.ct.lcore p.pa).onMem fun m => { m with tlb := m.tlb ++ [cacheWalk s.ctx va e at_ n deps] })
      | _ => .next s
    | .trap _ _ => .next (countEvent s (dieOf s.ct.lcore) 0)
    | _ => .next s

-- ## Electrum

/-- A step of the register block of a die; a fenced die's block is out of reach. -/
def onBlock (d : Nat) (f : Electrum → Electrum) (s : State) : Host.Outcome State Fault Refusal := .next (if s.dieFenced d then s else s.onEl d f)

def execEctlClr (die : Nat) (s : State) : Host.Outcome State Fault Refusal :=
  onBlock die (fun e => { e with ewptr := 0, erptr := 0, elost := 0 }) s

def execEctlUnfreeze (die : Nat) (s : State) : Host.Outcome State Fault Refusal := onBlock die (fun e => { e with frozen := false }) s

def execElostClear (die : Nat) (s : State) : Host.Outcome State Fault Refusal := onBlock die (fun e => { e with elost := 0 }) s

def execCounterClear (die k : Nat) (s : State) : Host.Outcome State Fault Refusal :=
  onBlock die (fun e => { e with counts := e.counts.setIfInBounds k 0 }) s

def execHistClear (die core engine : Nat) (s : State) : Host.Outcome State Fault Refusal :=
  onBlock die (fun e => e.putHist { e.histOf core engine with buckets := Vector.replicate 32 0 }) s

def execTrigFiredClear (die n : Nat) (s : State) : Host.Outcome State Fault Refusal :=
  onBlock die (fun e => { e with trigs := e.trigs.setIfInBounds n ((e.trigs.toList.getD n 0) &&& 0x1FFF) }) s

/-- ELECTRUM_REGISTER_WRITE: a write of a register of the block, as through BAR 0 or by a store of S. -/
def execElectrumRegisterWrite (die off : Nat) (v : Word) (s : State) : Host.Outcome State Fault Refusal := onBlock die (fun e => e.write off v) s

/-- ENGINE_REQUEST_DONE: a request of an engine of a core returns (R284, R285). -/
def execEngineRequestDone (core engine latency : Nat) (s : State) : Host.Outcome State Fault Refusal :=
  .next (requestDone s core engine latency)

/-- TRIGGER_GLOBAL_ARRIVAL: the packet reaches the die, which applies the actions (R287). -/
def execTriggerGlobalArrival (die : Nat) (acts : TrigActs) (carried : Nat) (s : State) : Host.Outcome State Fault Refusal :=
  .next (if s.dieFenced die then s else applyActs (receivePacket s die carried) die acts [])

-- ## Words that no instruction has

/-- ILLEGAL_INSTRUCTION (R46): the trap ILLEGAL, with no other effect. -/
def execIllegalInstruction (w : IWord) (s : State) : Host.Outcome State Fault Refusal := let _ := w; takeTrap { code := Code.illegal } s

end Sys2Proof.Machine
end

