-- ==== Sys2Proof/Machine/Late.lean ====
section
/-!
DEFINITION. Accesses that perform later than they execute (R200, R208, log entry 125): which instructions pass one by, how what it got lands in its
register, and the turn of a vector stream.
-/

namespace Sys2Proof.Machine

-- ## What passes a late access by

/-- The register fields of an instruction's word: D, A, B and C (Table 2.1), whatever they name. -/
def regFields (i : Instr) : List Nat :=
  match encode i with
  | some w => [w.extractLsb' 21 5, w.extractLsb' 16 5, w.extractLsb' 11 5, w.extractLsb' 6 5].map (·.toNat)
  | none => []

/-- An instruction that reads a codebook, or writes one. -/
def usesBook (i : Instr) : Bool :=
  match i with
  | .mcb _ _ => true
  | .mfill _ _ _ _ _ _ => true
  | _ => false

/-- A vector instruction under a grouping factor has to do with what a late access writes: a register of one of the eight groups that one of its register
fields can begin, or a codebook. -/
def Late.clashes (l : Late) (i : Instr) (g len : Nat) : Bool :=
  match l.dest with
  | .elem reg w k _ _ _ _ =>
    let r := reg + k * w / len
    (regFields i).any fun f => decide (f ≤ r) && decide (r < f + 8 * g)
  | .book _ => usesBook i
  | _ => false

/-- An instruction of the vector stream: its major is 0x21 or above (Table 2.3), or it is the QPOP that writes a vector register. -/
def onVectors (i : Instr) : Bool :=
  match i, encode i with
  | .qpopVector _ _, _ => true
  | _, some w => decide (0x21 ≤ (w >>> 26).toNat)
  | _, none => false

/-- The x registers of an instruction that late accesses of other registers let pass; none for one that all of them precede. A vector instruction, whose
operands are captured, is among the first. -/
def passRegs (i : Instr) : Option (List Reg) :=
  match i with
  | .add d a b | .sub d a b | .and d a b | .or d a b | .xor d a b | .shl d a b | .shr d a b | .sar d a b | .slt d a b | .sltu d a b | .mul d a b
  | .mulh d a b | .mulhu d a b | .div d a b | .divu d a b | .rem d a b | .remu d a b | .min d a b | .max d a b => some [d, a, b]
  | .popc d a | .addImm d a _ | .subImm d a _ | .andImm d a _ | .orImm d a _ | .xorImm d a _ | .shlImm d a _ | .shrImm d a _ | .sarImm d a _
  | .sltImm d a _ | .sltuImm d a _ | .mulImm d a _ | .minImm d a _ | .maxImm d a _ | .ld d a _ _ | .st d a _ _ | .jalr d a _ => some [d, a]
  | .lim d _ | .limInsert d _ _ | .addpc d _ => some [d]
  | .nop | .hint _ | .land | .landTask | .jmp _ | .fence _ _ => some []
  | .jal _ => some [1]
  | .br _ a b _ => some [a, b]
  | .fadd _ d a b _ | .fsub _ d a b _ | .fmul _ d a b _ | .fdiv _ d a b _ | .fmin _ d a b | .fmax _ d a b => some [d, a, b]
  | .fma _ d a b c _ => some [d, a, b, c]
  | .fsqrt _ d a _ | .fclass d a _ | .fcvt d a _ _ _ => some [d, a]
  | .fcmp d a b _ _ => some [d, a, b]
  | .csrr d c => if c == 0x003 then none else some [d]
  | .csrw v c => if c == 0x003 || c == 0x007 || c == 0x107 then none else some [v]
  | .amo d a b _ _ _ _ | .cas d a b _ _ _ => some [d, a, b]
  | .qpush _ a => some [a]
  | .qpop d _ | .qcnt d _ => some [d]
  | .nset _ a b => some [a, b]
  | .xcopy _ a | .xgath _ a | .xcoll _ a => some [a]
  | .vcfg d a _ _ _ _ _ => some [d, a]
  | i => if onVectors i then (let r := vecRegs i; some [r.1, r.2.1, r.2.2.1, r.2.2.2]) else none

/-- A late access lands before an instruction of its control thread executes: one whose register it names, or, where it may execute at once, a vector register or
codebook. -/
def Late.precedes (l : Late) (i : Instr) (g len : Nat) : Bool :=
  match passRegs i with
  | none => true
  | some rs =>
    match l.dest with
    | .ld r _ => rs.contains r
    | .amo r _ => rs.contains r
    | .none => false
    | _ => onVectors i && l.clashes i g len

/-- The late accesses that precede an instruction of the scalar stream land. -/
def landFor (i : Instr) (s : State) : State :=
  if s.m.late.isEmpty then s
  else landWhere (fun l => s.myLate l && l.precedes i s.ct.vec.vcfg.g s.L) s

/-- The late accesses that precede the head of the VIQ land. -/
def landHead (s : State) : State :=
  if s.m.late.isEmpty then s
  else
    match headOf s with
    | .entry e _ => landWhere (fun l => s.myLate l && l.vec && l.clashes e.instr e.g s.L) s
    | _ => s

/-- A step of the part that late accesses let pass: one of the memory system or of an engine, which touches no register. -/
def passesLate (i : Instr) : Bool :=
  match i with
  | .storeBufferDrain | .dirtyWriteback _ | .writebackForward _ | .stashRemoteRead _ | .stashRemoteWrite _ | .updateArrival _ | .chainApply _
  | .translationInvalidate _ | .jobStart _ | .jobComplete _ | .fillRowWrite _ | .hostMemRead _ _ | .hostMemWrite _ _ | .peerAccess _ _ _ | .cxlCacheSnoop _
  | .backInvalidateResponse _ | .laneIssue _ | .arrayIssue _ | .vectorComplete _ _ => true
  | _ => false

/-- The k-th late access performs. -/
def performNth (s : State) (k : Nat) : State :=
  match s.m.late[k]? with
  | some l => if l.got.isNone then performWhere (· == l) s else s
  | none => s

-- ## The turn of a vector stream

/-- The vector stream's step, if it has one: once it has stopped, what had executed before goes on to its completion (R83). -/
def vectorTurn (s : State) : Option (Host.Outcome State Fault Refusal) :=
  if s.ct.vec.stopped.isSome then (owingStep s).map .next else vectorStep (landHead s)

/-- VECTOR_COMPLETE: the head of a control thread's VIQ runs and completes. -/
def execVectorComplete (core ctno : Nat) (s : State) : Host.Outcome State Fault Refusal :=
  let t := s.thread core ctno
  if t.status ≠ .running then .next s
  else
    match vectorTurn (s.switchTo core ctno) with
    | some o => backTo s.ct.lcore s.ct.ctno o
    | none => .next s

end Sys2Proof.Machine
end

