-- ==== Sys2Proof/Machine/Dispatch.lean ====
section
/-!
DEFINITION. What each instruction does: one arm per constructor of Instr, each a direct call of its meaning.
-/

namespace Sys2Proof.Machine

def exec (i : Instr) (s : State) : Host.Outcome State Fault Refusal :=
  match i with
  | .add d a b => Sys2Proof.Machine.execAdd d a b s
  | .sub d a b => Sys2Proof.Machine.execSub d a b s
  | .and d a b => Sys2Proof.Machine.execAnd d a b s
  | .or d a b => Sys2Proof.Machine.execOr d a b s
  | .xor d a b => Sys2Proof.Machine.execXor d a b s
  | .shl d a b => Sys2Proof.Machine.execShl d a b s
  | .shr d a b => Sys2Proof.Machine.execShr d a b s
  | .sar d a b => Sys2Proof.Machine.execSar d a b s
  | .slt d a b => Sys2Proof.Machine.execSlt d a b s
  | .sltu d a b => Sys2Proof.Machine.execSltu d a b s
  | .mul d a b => Sys2Proof.Machine.execMul d a b s
  | .mulh d a b => Sys2Proof.Machine.execMulh d a b s
  | .mulhu d a b => Sys2Proof.Machine.execMulhu d a b s
  | .div d a b => Sys2Proof.Machine.execDiv d a b s
  | .divu d a b => Sys2Proof.Machine.execDivu d a b s
  | .rem d a b => Sys2Proof.Machine.execRem d a b s
  | .remu d a b => Sys2Proof.Machine.execRemu d a b s
  | .min d a b => Sys2Proof.Machine.execMin d a b s
  | .max d a b => Sys2Proof.Machine.execMax d a b s
  | .popc d a => Sys2Proof.Machine.execPopc d a s
  | .addImm d a imm => Sys2Proof.Machine.execAddImm d a imm s
  | .subImm d a imm => Sys2Proof.Machine.execSubImm d a imm s
  | .andImm d a imm => Sys2Proof.Machine.execAndImm d a imm s
  | .orImm d a imm => Sys2Proof.Machine.execOrImm d a imm s
  | .xorImm d a imm => Sys2Proof.Machine.execXorImm d a imm s
  | .shlImm d a n => Sys2Proof.Machine.execShlImm d a n s
  | .shrImm d a n => Sys2Proof.Machine.execShrImm d a n s
  | .sarImm d a n => Sys2Proof.Machine.execSarImm d a n s
  | .sltImm d a imm => Sys2Proof.Machine.execSltImm d a imm s
  | .sltuImm d a imm => Sys2Proof.Machine.execSltuImm d a imm s
  | .mulImm d a imm => Sys2Proof.Machine.execMulImm d a imm s
  | .minImm d a imm => Sys2Proof.Machine.execMinImm d a imm s
  | .maxImm d a imm => Sys2Proof.Machine.execMaxImm d a imm s
  | .lim d imm => Sys2Proof.Machine.execLim d imm s
  | .limInsert d h imm => Sys2Proof.Machine.execLimInsert d h imm s
  | .addpc d o => Sys2Proof.Machine.execAddpc d o s
  | .nop => Sys2Proof.Machine.execNop s
  | .hint h => Sys2Proof.Machine.execHint h s
  | .land => Sys2Proof.Machine.execLand s
  | .landTask => Sys2Proof.Machine.execLandTask s
  | .ld d a m imm => Sys2Proof.Machine.execLd d a m imm s
  | .st v a m imm => Sys2Proof.Machine.execSt v a m imm s
  | .br c a b o => Sys2Proof.Machine.execBr c a b o s
  | .jmp o => Sys2Proof.Machine.execJmp o s
  | .jal o => Sys2Proof.Machine.execJal o s
  | .jalr d a imm => Sys2Proof.Machine.execJalr d a imm s
  | .fadd f d a b r => Sys2Proof.Machine.execFadd f d a b r s
  | .fsub f d a b r => Sys2Proof.Machine.execFsub f d a b r s
  | .fmul f d a b r => Sys2Proof.Machine.execFmul f d a b r s
  | .fdiv f d a b r => Sys2Proof.Machine.execFdiv f d a b r s
  | .fsqrt f d a r => Sys2Proof.Machine.execFsqrt f d a r s
  | .fma f d a b c r => Sys2Proof.Machine.execFma f d a b c r s
  | .fmin f d a b => Sys2Proof.Machine.execFmin f d a b s
  | .fmax f d a b => Sys2Proof.Machine.execFmax f d a b s
  | .fcmp d a b t c => Sys2Proof.Machine.execFcmp d a b t c s
  | .fcvt d a t u r => Sys2Proof.Machine.execFcvt d a t u r s
  | .fclass d a t => Sys2Proof.Machine.execFclass d a t s
  | .sysc n => Sys2Proof.Machine.execSysc n s
  | .brk n => Sys2Proof.Machine.execBrk n s
  | .sret => Sys2Proof.Machine.execSret s
  | .csrr d c => Sys2Proof.Machine.execCsrr d c s
  | .csrw v c => Sys2Proof.Machine.execCsrw v c s
  | .waite => Sys2Proof.Machine.execWaite s
  | .amo d a b sc o p w => Sys2Proof.Machine.execAmo d a b sc o p w s
  | .fence sc k => Sys2Proof.Machine.execFence sc k s
  | .gjoin a => Sys2Proof.Machine.execGjoin a s
  | .gleave a => Sys2Proof.Machine.execGleave a s
  | .gsync a => Sys2Proof.Machine.execGsync a s
  | .ipost c a => Sys2Proof.Machine.execIpost c a s
  | .iwait c a => Sys2Proof.Machine.execIwait c a s
  | .cas d a b sc o w => Sys2Proof.Machine.execCas d a b sc o w s
  | .qpush q a => Sys2Proof.Machine.execQpush q a s
  | .qpop d q => Sys2Proof.Machine.execQpop d q s
  | .qpopVector d q => Sys2Proof.Machine.execQpopVector d q s
  | .qcnt d q => Sys2Proof.Machine.execQcnt d q s
  | .talloc d => Sys2Proof.Machine.execTalloc d s
  | .tfree a => Sys2Proof.Machine.execTfree a s
  | .tspawn a b => Sys2Proof.Machine.execTspawn a b s
  | .tend a => Sys2Proof.Machine.execTend a s
  | .tparkGroup a => Sys2Proof.Machine.execTparkGroup a s
  | .tparkRing c a => Sys2Proof.Machine.execTparkRing c a s
  | .tparkTag a => Sys2Proof.Machine.execTparkTag a s
  | .smap a b c => Sys2Proof.Machine.execSmap a b c s
  | .sunmap a b => Sys2Proof.Machine.execSunmap a b s
  | .sflush a b => Sys2Proof.Machine.execSflush a b s
  | .uret => Sys2Proof.Machine.execUret s
  | .tmark a => Sys2Proof.Machine.execTmark a s
  | .algld t a => Sys2Proof.Machine.execAlgld t a s
  | .nset d a b => Sys2Proof.Machine.execNset d a b s
  | .nloop k => Sys2Proof.Machine.execNloop k s
  | .xcopy t a => Sys2Proof.Machine.execXcopy t a s
  | .xgath t a => Sys2Proof.Machine.execXgath t a s
  | .xcoll t a => Sys2Proof.Machine.execXcoll t a s
  | .xwait t => Sys2Proof.Machine.execXwait t s
  | .vcfg d a e g t m sc => Sys2Proof.Machine.execVcfg d a e g t m sc s
  | .vid d p z => Sys2Proof.Machine.execVid d p z s
  | .vsplat d b p z f => Sys2Proof.Machine.execVsplat d b p z f s
  | .vmv d a p z => Sys2Proof.Machine.execVmv d a p z s
  | .vext d a b z f => Sys2Proof.Machine.execVext d a b z f s
  | .vlast d a p z => Sys2Proof.Machine.execVlast d a p z s
  | .vextQ q a b z f => Sys2Proof.Machine.execVextQ q a b z f s
  | .vlastQ q a p z => Sys2Proof.Machine.execVlastQ q a p z s
  | .vadd d a b p z f => Sys2Proof.Machine.execVadd d a b p z f s
  | .vsub d a b p z f => Sys2Proof.Machine.execVsub d a b p z f s
  | .vmul d a b p z f => Sys2Proof.Machine.execVmul d a b p z f s
  | .vmulh d a b p z f => Sys2Proof.Machine.execVmulh d a b p z f s
  | .vmac d a b p z f => Sys2Proof.Machine.execVmac d a b p z f s
  | .vdiv d a b p z f => Sys2Proof.Machine.execVdiv d a b p z f s
  | .vmin d a b p z f => Sys2Proof.Machine.execVmin d a b p z f s
  | .vmax d a b p z f => Sys2Proof.Machine.execVmax d a b p z f s
  | .vand d a b p z f => Sys2Proof.Machine.execVand d a b p z f s
  | .vor d a b p z f => Sys2Proof.Machine.execVor d a b p z f s
  | .vxor d a b p z f => Sys2Proof.Machine.execVxor d a b p z f s
  | .vshl d a b p z f => Sys2Proof.Machine.execVshl d a b p z f s
  | .vshr d a b p z f => Sys2Proof.Machine.execVshr d a b p z f s
  | .vsar d a b p z f => Sys2Proof.Machine.execVsar d a b p z f s
  | .vsadd d a b p z f => Sys2Proof.Machine.execVsadd d a b p z f s
  | .vfadd d a b p z f r => Sys2Proof.Machine.execVfadd d a b p z f r s
  | .vfsub d a b p z f r => Sys2Proof.Machine.execVfsub d a b p z f r s
  | .vfmul d a b p z f r => Sys2Proof.Machine.execVfmul d a b p z f r s
  | .vfdiv d a b p z f r => Sys2Proof.Machine.execVfdiv d a b p z f r s
  | .vfmin d a b p z f => Sys2Proof.Machine.execVfmin d a b p z f s
  | .vfmax d a b p z f => Sys2Proof.Machine.execVfmax d a b p z f s
  | .vfscale d a b p z f r => Sys2Proof.Machine.execVfscale d a b p z f r s
  | .vfsplit d a p z => Sys2Proof.Machine.execVfsplit d a p z s
  | .vfsqrt d a p z r => Sys2Proof.Machine.execVfsqrt d a p z r s
  | .vfrsqe d a p z => Sys2Proof.Machine.execVfrsqe d a p z s
  | .vfcvt d a t p z r => Sys2Proof.Machine.execVfcvt d a t p z r s
  | .vfclass d a p z => Sys2Proof.Machine.execVfclass d a p z s
  | .vfma d a b c p r => Sys2Proof.Machine.execVfma d a b c p r s
  | .vcmp d a b p z f c => Sys2Proof.Machine.execVcmp d a b p z f c s
  | .vfcmp d a b p z f c => Sys2Proof.Machine.execVfcmp d a b p z f c s
  | .vrsum d a b p z => Sys2Proof.Machine.execVrsum d a b p z s
  | .vrosum d a b p z => Sys2Proof.Machine.execVrosum d a b p z s
  | .vrmax d a b p z => Sys2Proof.Machine.execVrmax d a b p z s
  | .vrmin d a b p z => Sys2Proof.Machine.execVrmin d a b p z s
  | .vrlog d a b p z k => Sys2Proof.Machine.execVrlog d a b p z k s
  | .vrsumQ q a b p z => Sys2Proof.Machine.execVrsumQ q a b p z s
  | .vrosumQ q a b p z => Sys2Proof.Machine.execVrosumQ q a b p z s
  | .vrmaxQ q a b p z => Sys2Proof.Machine.execVrmaxQ q a b p z s
  | .vrminQ q a b p z => Sys2Proof.Machine.execVrminQ q a b p z s
  | .vrlogQ q a b p z k => Sys2Proof.Machine.execVrlogQ q a b p z k s
  | .vslup d a b p z f => Sys2Proof.Machine.execVslup d a b p z f s
  | .vsldn d a b p z f => Sys2Proof.Machine.execVsldn d a b p z f s
  | .vperm d a b p z => Sys2Proof.Machine.execVperm d a b p z s
  | .vcompr d a p z => Sys2Proof.Machine.execVcompr d a p z s
  | .vmerge d a b p z f => Sys2Proof.Machine.execVmerge d a b p z f s
  | .pand d a b p z => Sys2Proof.Machine.execPand d a b p z s
  | .por d a b p z => Sys2Proof.Machine.execPor d a b p z s
  | .pxor d a b p z => Sys2Proof.Machine.execPxor d a b p z s
  | .pnot d a p z => Sys2Proof.Machine.execPnot d a p z s
  | .pset d b p z => Sys2Proof.Machine.execPset d b p z s
  | .pfirst d a p z => Sys2Proof.Machine.execPfirst d a p z s
  | .pbrkBefore d a p z => Sys2Proof.Machine.execPbrkBefore d a p z s
  | .pbrkThru d a p z => Sys2Proof.Machine.execPbrkThru d a p z s
  | .pcnt d a p z => Sys2Proof.Machine.execPcnt d a p z s
  | .pcntQ q a p z => Sys2Proof.Machine.execPcntQ q a p z s
  | .vdep d a p z => Sys2Proof.Machine.execVdep d a p z s
  | .vdepx d a b p z => Sys2Proof.Machine.execVdepx d a b p z s
  | .vpart d a b z => Sys2Proof.Machine.execVpart d a b z s
  | .vamul d a b p z g => Sys2Proof.Machine.execVamul d a b p z g s
  | .vaconj d a p z g => Sys2Proof.Machine.execVaconj d a p z g s
  | .vaconjRev d a p z g => Sys2Proof.Machine.execVaconjRev d a p z g s
  | .vanorm d a p z g => Sys2Proof.Machine.execVanorm d a p z g s
  | .vasand d a b p z g => Sys2Proof.Machine.execVasand d a b p z g s
  | .vld d a p z m => Sys2Proof.Machine.execVld d a p z m s
  | .vlds d a b p z m => Sys2Proof.Machine.execVlds d a b p z m s
  | .vldx d a b p z m => Sys2Proof.Machine.execVldx d a b p z m s
  | .vldff d a b p z m => Sys2Proof.Machine.execVldff d a b p z m s
  | .vst v a p z m => Sys2Proof.Machine.execVst v a p z m s
  | .vsts v a b p z m => Sys2Proof.Machine.execVsts v a b p z m s
  | .vstx v a b p z m => Sys2Proof.Machine.execVstx v a b p z m s
  | .vpref a p z m => Sys2Proof.Machine.execVpref a p z m s
  | .vldseg d a n p z m => Sys2Proof.Machine.execVldseg d a n p z m s
  | .vstseg v a n p z m => Sys2Proof.Machine.execVstseg v a n p z m s
  | .vamo v a b c p o => Sys2Proof.Machine.execVamo v a b c p o s
  | .mmac t a b => Sys2Proof.Machine.execMmac t a b s
  | .mzero t => Sys2Proof.Machine.execMzero t s
  | .mldacc t a => Sys2Proof.Machine.execMldacc t a s
  | .mcb c a => Sys2Proof.Machine.execMcb c a s
  | .mfill d a m e g sd => Sys2Proof.Machine.execMfill d a m e g sd s
  | .mdrainMemory t a b m => Sys2Proof.Machine.execMdrainMemory t a b m s
  | .mdrainRegister t v m => Sys2Proof.Machine.execMdrainRegister t v m s
  | .laneIssue core => Sys2Proof.Machine.execLaneIssue core s
  | .arrayIssue core => Sys2Proof.Machine.execArrayIssue core s
  | .vectorComplete core ctno => Sys2Proof.Machine.execVectorComplete core ctno s
  | .translationInvalidate line => Sys2Proof.Machine.execTranslationInvalidate line s
  | .writebackForward line => Sys2Proof.Machine.execWritebackForward line s
  | .stashRemoteRead line => Sys2Proof.Machine.execStashRemoteRead line s
  | .stashRemoteWrite line => Sys2Proof.Machine.execStashRemoteWrite line s
  | .updateArrival u => Sys2Proof.Machine.execUpdateArrival u s
  | .chainApply dword => Sys2Proof.Machine.execChainApply dword s
  | .taskStart core ctno => Sys2Proof.Machine.execTaskStart core ctno s
  | .groupOpApply g op m => Sys2Proof.Machine.execGroupOpApply g op m s
  | .orderPointApply chan v => Sys2Proof.Machine.execOrderPointApply chan v s
  | .ringHop chan die => Sys2Proof.Machine.execRingHop chan die s
  | .jobStart core => Sys2Proof.Machine.execJobStart core s
  | .jobComplete core => Sys2Proof.Machine.execJobComplete core s
  | .jobPageFault core => Sys2Proof.Machine.execJobPageFault core s
  | .fillRowWrite core => Sys2Proof.Machine.execFillRowWrite core s
  | .ulDelivery => Sys2Proof.Machine.execUlDelivery s
  | .preempt => Sys2Proof.Machine.execPreempt s
  | .contain => Sys2Proof.Machine.execContain s
  | .pageAbsentService => Sys2Proof.Machine.execPageAbsentService s
  | .panelRefill => Sys2Proof.Machine.execPanelRefill s
  | .trapReflect => Sys2Proof.Machine.execTrapReflect s
  | .taskTrapEnd => Sys2Proof.Machine.execTaskTrapEnd s
  | .tailSnoop q => Sys2Proof.Machine.execTailSnoop q s
  | .registerQueue q qrec => Sys2Proof.Machine.execRegisterQueue q qrec s
  | .unregisterQueue q => Sys2Proof.Machine.execUnregisterQueue q s
  | .setPowerCap watts => Sys2Proof.Machine.execSetPowerCap watts s
  | .getFwInfo => Sys2Proof.Machine.execGetFwInfo s
  | .transferFw image => Sys2Proof.Machine.execTransferFw image s
  | .activateFw => Sys2Proof.Machine.execActivateFw s
  | .getMeasurements => Sys2Proof.Machine.execGetMeasurements s
  | .hostMemRead addr len => Sys2Proof.Machine.execHostMemRead addr len s
  | .hostMemWrite addr bytes => Sys2Proof.Machine.execHostMemWrite addr bytes s
  | .backInvalidateResponse line => Sys2Proof.Machine.execBackInvalidateResponse line s
  | .peerAccess port off bytes => Sys2Proof.Machine.execPeerAccess port off bytes s
  | .linkReplay port => Sys2Proof.Machine.execLinkReplay port s
  | .deviceReset => Sys2Proof.Machine.execDeviceReset s
  | .readyReport f => Sys2Proof.Machine.execReadyReport f s
  | .memTrained dev => Sys2Proof.Machine.execMemTrained dev s
  | .agentTimeout a => Sys2Proof.Machine.execAgentTimeout a s
  | .internalError a => Sys2Proof.Machine.execInternalError a s
  | .spareService cluster => Sys2Proof.Machine.execSpareService cluster s
  | .columnFail core => Sys2Proof.Machine.execColumnFail core s
  | .bstoreParityError core row => Sys2Proof.Machine.execBstoreParityError core row s
  | .clockChange die code cause => Sys2Proof.Machine.execClockChange die code cause s
  | .ectlClr die => Sys2Proof.Machine.execEctlClr die s
  | .ectlUnfreeze die => Sys2Proof.Machine.execEctlUnfreeze die s
  | .elostClear die => Sys2Proof.Machine.execElostClear die s
  | .counterClear die k => Sys2Proof.Machine.execCounterClear die k s
  | .histClear die core engine => Sys2Proof.Machine.execHistClear die core engine s
  | .trigFiredClear die n => Sys2Proof.Machine.execTrigFiredClear die n s
  | .electrumRegisterWrite die off v => Sys2Proof.Machine.execElectrumRegisterWrite die off v s
  | .engineRequestDone core engine latency => Sys2Proof.Machine.execEngineRequestDone core engine latency s
  | .triggerGlobalArrival die acts carried => Sys2Proof.Machine.execTriggerGlobalArrival die acts carried s
  | .illegalInstruction w => Sys2Proof.Machine.execIllegalInstruction w s
  | .storeBufferDrain => Sys2Proof.Machine.execStoreBufferDrain s
  | .dirtyWriteback line => Sys2Proof.Machine.execDirtyWriteback line s
  | .hardwarePrefetch va => Sys2Proof.Machine.execHardwarePrefetch va s
  | .cxlCacheSnoop line => Sys2Proof.Machine.execCxlCacheSnoop line s
  | .memDeviceFailure dev => Sys2Proof.Machine.execMemDeviceFailure dev s
  | .spillAreaExtension core more => Sys2Proof.Machine.execSpillAreaExtension core more s
  | .codeObjectLoad image pa va profset => Sys2Proof.Machine.execCodeObjectLoad image pa va profset s
  | .spdmRequest req => Sys2Proof.Machine.execSpdmRequest req s

end Sys2Proof.Machine
end

