-- ==== Sys2Proof/Machine/Schedule.lean ====
section
/-!
DEFINITION. What one step of the machine does: what the schedule names, the steps of the part that follow from earlier ones, and the streams of the
acting control thread, which fetches, checks a landing, decodes and runs its next word (R27, R54 to R58, R79, R239, R240).
-/

namespace Sys2Proof.Machine

-- ## The scalar stream

/-- The word at the pc that a checked JALR has fetched (R54), or the word fetched there. -/
def heldWord (s : State) : Res IWord :=
  match s.ct.ctl.target.filter fun t => t.1 == s.ct.pc with
  | some t => .ok t.2 (s.onCtl fun c => { c with target := none })
  | none => fetchWord s s.ct.pc

/-- The word at the pc has not begun before: the scalar stream does not wait at it, or waited for its fetch. -/
def begins (s : State) : Bool := s.ct.ctl.wait == .none || s.ct.ctl.wait == .fetch

/-- A state with the causal counters of another. -/
def withCausal (s t : State) : State := (List.range 4).foldl (fun t d => t.onDie d fun x => { x with causal := (s.die d).causal }) t

/-- The word held or fetched. One that has begun and waits was fetched then: reading it again on a later turn sends no packet of its own (R280). -/
def currentWord (s : State) : Res IWord :=
  match heldWord s with
  | .ok w s1 => .ok w (if begins s then s1 else withCausal s s1)
  | r => r

/-- The word at the pc: one that NLOOP captured (R58), or one held or fetched, once the log has been asked for a delivery before it (R294). -/
def nextWord (s : State) : Res IWord :=
  match s.ct.nest.capture with
  | some c => if c.at_ = s.ct.pc then .ok (c.words.headD 0) s else currentWord (askLog s)
  | none => currentWord (askLog s)

/-- The trap LANDING at the pc (R56); SFVA is 0. -/
def landingTrap (s : State) : Host.Outcome State Fault Refusal := takeTrap { code := Code.landing } s

/-- The scalar stream at a task's first word (R56). A fetch that faults there leaves the check to the return, at the entry PC alone (log entry 118). -/
def atStart (s : State) : Bool := s.ct.ctl.ltask == some s.ct.pc && s.ct.level == .u

/-- Landing checks are made. -/
def landed (s : State) : State := s.onCtl fun c => { c with lpend := false, ltask := if s.ct.level = .u then none else c.ltask }

/-- Runs a word that has been fetched: pending landing checks, breakpoints (R290), and the instruction, after the late accesses that precede it; a word that
no instruction has traps ILLEGAL (R46). -/
def runWord (w : IWord) (s : State) : Host.Outcome State Fault Refusal :=
  let s1 := landed s
  if s.ct.ctl.lpend && !isLand w then landingTrap s1
  else if atStart s && !isLandTask w then landingTrap s1
  else
    let s2 := if begins s1 then scalarBreaks s1 s1.ct.pc w else s1
    let i := (decode w).getD (.illegalInstruction w)
    exec i (landFor i s2)

/-- The scalar stream waits before the word at the pc begins, or goes on with the wait of one that has begun. -/
def waitFetch (s : State) : State := if begins s then s.waitFor .fetch else s

/-- One step of the scalar stream. A fetch that faults keeps the landing check pending (R55). -/
def scalarStep (s : State) : Host.Outcome State Fault Refusal :=
  match nextWord s with
  | .ok w s1 => runWord w s1
  | .trap t s1 => takeTrap { t with lpend := s1.ct.ctl.lpend } s1
  | .wait _ s1 => .next (waitFetch s1)
  | .gone s1 => .next (s1.onCtl fun c => { c with contain := true })

-- ## The streams of a control thread

/-- The head of the VIQ waits for a queue that the scalar stream fills or empties, or for the host (R75, R201). -/
def queueBlocked (s : State) : Bool :=
  match headOf s with
  | .entry e _ =>
    e.done.isSome ||
      (match vecOp e.instr (atLevel s e) e with
       | .wait .queue _ => true
       | _ => false)
  | _ => false

/-- Saved entries re-execute before the scalar stream goes on (R83); one that a queue blocks stops its own stream alone (R75). -/
def held (s : State) : Bool := s.ct.vec.hold && s.ct.nest.capture.isNone && s.ct.level == .u && !s.ct.vec.viq.isEmpty && !queueBlocked s

/-- The VIQ has no entry to execute. -/
def viqIdle (s : State) : Bool :=
  match headOf s with
  | .idle => true
  | _ => false

/-- The streams: saved entries run first, and the vector stream runs first unless the schedule leaves vector instructions in flight (log entry 4) or it has only
accesses open (R201), for which the scalar stream does not wait. -/
def runStreams (s : State) : Host.Outcome State Fault Refusal :=
  if (s.sched.deferVector || viqIdle s) && s.ct.ctl.wait == .none && !held s then scalarStep s
  else
    match vectorTurn s with
    | some o => o
    | none => if held s then .next s else scalarStep s

/-- The scalar stream waits before its next word begins, while the vector stream goes on. -/
def vectorOrWait (s : State) : Host.Outcome State Fault Refusal :=
  let s1 := waitFetch (askLog s)
  (vectorTurn s1).getD (.next s1)

/-- A containment can be taken: not inside a JALR whose target is checked (R330), nor inside a post. -/
def containNow (s : State) : Bool := s.ct.ctl.contain && s.ct.ctl.post.isNone && !(s.ct.ctl.target.any fun t => t.1 == s.ct.pc)

/-- What comes before the streams at an instruction boundary (R239, R192, R401): CONTAIN, the end of a task that Korier is ending, PREEMPT, a completion,
the wait for one that a log forces (R294) or for a replay log on a device not yet trained (R273), and a start in hand. A completion that is due is delivered before the instruction at the boundary, an XWAIT among them,
executes: of the outcomes of Table 9.11 the fourth is then not seen while delivery is enabled (log entry 119). A PREEMPT or CONTAIN that becomes due while a WAITE
blocks is taken first, and the WAITE then executes again in full (log entry 147). -/
def boundaryNow (s : State) : Option (Host.Outcome State Fault Refusal) :=
  if containNow s then some (execContain s)
  else if s.ct.level == .s && s.ct.ctl.wait == .ending then some ((vectorTurn s).getD (execTaskTrapEnd s))
  else if s.ct.level == .u && preemptDue s then some (execPreempt s)
  else if deliverable s then some (execUlDelivery s)
  else if awaitsDelivery s || (s.ct.level == .u && logWaits s) then some (vectorOrWait s)
  else if s.ct.level == .u && s.ct.ctl.spend.isSome then some (finishStart s)
  else none

/-- The same, once the late accesses have landed. -/
def boundary (s : State) : Option (Host.Outcome State Fault Refusal) := if (boundaryNow s).isSome then boundaryNow (landAll s) else none

/-- A turn of the acting control thread. A free one looks for a task; a fenced one does nothing but what containment asks. -/
def runThread (s : State) : Host.Outcome State Fault Refusal :=
  match s.ct.status with
  | .free => execTaskStart s.ct.lcore s.ct.ctno (landAll s)
  | .fenced => execContain (landAll s)
  | .running => (boundary s).getD (runStreams s)

-- ## The schedule

/-- A step of the part, which no word encodes. -/
def isEvent (i : Instr) : Bool :=
  i.wf && (encode i).isNone &&
    (match i with
     | .illegalInstruction _ => false
     | _ => true)

/-- A step of the part, after the late accesses that it does not pass by. -/
def runEvent (i : Instr) (s : State) : Host.Outcome State Fault Refusal := exec i (if passesLate i then s else landAll s)

/-- What a slot of the schedule runs. -/
def runSlot (sl : Slot) (s : State) : Host.Outcome State Fault Refusal :=
  match sl with
  | .event i => if isEvent i then runEvent i s else .next s
  | .switch core ctno => .next (if core < 128 ∧ ctno < 4 then s.switchTo core ctno else s)
  | .vector => if s.ct.status = .running then (vectorTurn s).getD (.next s) else .next s
  | .scalar => if s.ct.status = .running then (boundary s).getD (if held s then .next s else scalarStep s) else .next s
  | .drain k => .next (drainOne s k)
  | .peek port va n => .next (if s.ct.status = .running ∧ s.ct.level = .u then peekAt s port va n else s)
  | .forget port => .next (forgetEarly s (s.ahead port))
  | .perform k => .next (performNth s k)

/-- One step: the schedule's slot, else the oldest step that follows from earlier ones, else a turn of the acting control thread. -/
def runStep (s : State) : Host.Outcome State Fault Refusal :=
  match s.sched.slots with
  | sl :: r => runSlot sl { s with sched := { s.sched with slots := r } }
  | [] =>
    match s.pending with
    | i :: r => runEvent i { s with pending := r }
    | [] => runThread s

-- ## A place to run one word

/-- The page tables of withFetchWord: a root whose first entry points to a table whose first entry maps 1 GiB onto itself, open to every access. -/
abbrev probeRoot : Nat := 0x2000
abbrev probePc : Nat := 0x1000

/-- The acting control thread as a running task at a word, with every profile. -/
def probeThread (t : Thread) : Thread :=
  { t with
    status := .running
    level := .u
    pc := BitVec.ofNat 64 probePc
    task := { t.task with profs := BitVec.allOnes 7, prio := 0 }
    vec := { t.vec with viq := [], owing := [], stopped := none, hold := false }
    sup := { t.sup with troot := BitVec.ofNat 64 probeRoot }
    nest := { t.nest with capture := none, runs := [] }
    uli := { t.uli with mask := true }
    ctl := { t.ctl with wait := .none, lpend := false, ltask := none, contain := false, spend := none, target := none, post := none } }

/-- Memory with the tables and the word. -/
def probeMem (m : List Host.Cell) (w : Nat) : List Host.Cell :=
  Memory.write (Memory.write (Memory.write m probePc (toBytes 4 w)) probeRoot (toBytes 8 0x3001)) 0x3000 (toBytes 8 0xFF)

/-- A state whose next step fetches a word (log entry 7). -/
def probe (s : State) (nbits w : Nat) : State :=
  { s with
    ct := probeThread s.ct
    dies := s.dies.map fun d => { d with fenced := false }
    m := { s.m with mem := probeMem s.m.mem (w % 2 ^ min nbits 32), slines := [], poison := [], chains := [], tlb := [], early := [], late := [] }
    pkg := { s.pkg with ready := { s.pkg.ready with trained := BitVec.allOnes 32 }, containedPairs := [] }
    sched := { s.sched with slots := [], deferVector := false, deferLoads := false, keepFetched := false }
    pending := [] }

end Sys2Proof.Machine
end

