-- ==== Sys2Proof/Machine/Step.lean ====
section
/-!
DEFINITION. The step of the machine, and the state in which a given word is the next that it runs.
-/

namespace Sys2Proof.Machine

/-- One step (Schedule.lean). -/
def step (s : State) : Host.Outcome State Fault Refusal := runStep s

/-- s with an instruction stored where step fetches its next one, and all that this takes. -/
def State.withFetchWord (s : State) (nbits w : Nat) : State := probe s nbits w

end Sys2Proof.Machine
end

