-- ==== Sys2Proof/Machine/Context.lean ====
section
/-!
DEFINITION. The image of a saved context (R243, Table 11.11): its sections in the order of the table, each starting at a multiple of 64 bytes. The model
keeps a saved context as its control thread (PkgSt.saved); the order within a section, which the spec leaves to Korier, is the model's (log entry 107).
-/

namespace Sys2Proof.Machine

/-- The number of bytes rounded up to 64. -/
def upTo64 (n : Nat) : Nat := (n + 63) / 64 * 64

/-- The words of a list, eight bytes each. -/
def wordsOf (ws : List Word) : List Byte := ws.flatMap fun w => toBytes 8 w.toNat

/-- The slabs of register r that are not released under td, as bytes. -/
def keptSlabs (t : Thread) (r : Nat) : List Byte :=
  let l := t.task.regLen
  let v := (t.vec.vfile.toList.getD r 0).toNat
  (List.range (l / 256)).flatMap fun k => if t.vec.released.contains (r * (l / 256) + k) then [] else toBytes 256 (natBits v (2048 * k) 2048)

/-- The stops of a context: that of its vector stream, and the one that is held while the handler of a reflected trap runs (R242). -/
def stopsOf (t : Thread) : List Stopped := t.vec.stopped.toList ++ t.task.heldStop.toList

/-- The entries that re-execute: the stopped instructions with those saved behind them, and the VIQ. -/
def savedEntries (t : Thread) : List VEntry := (stopsOf t).flatMap (fun st => st.entry :: st.saved) ++ t.vec.viq

/-- The scalars that an instruction has captured: at most two. -/
def capturedScalars (e : VEntry) : List Word :=
  let r := vecRegs e.instr
  (([(r.1, e.xd), (r.2.1, e.xa), (r.2.2.1, e.xb), (r.2.2.2, e.xc)].filter fun p => p.1 != 0).map (·.2)).take 2

/-- An entry of 32 bytes: word, VCFG, FRM, ISN and captured scalars. -/
def entryBytes (e : VEntry) : List Byte :=
  ((toBytes 4 e.word ++ toBytes 2 e.vcfg.word.toNat ++ toBytes 2 e.frm.toNat ++ toBytes 8 e.isn.toNat ++ wordsOf (capturedScalars e)) ++
    List.replicate 32 0).take 32

/-- The nests of a context, oldest first: those that a stop holds, and those in the vector stream. -/
def savedNests (t : Thread) : List NestRun := (stopsOf t).flatMap (·.nest) ++ t.nest.runs

/-- The counts of dimensions, two bytes each (R195). -/
def countBytes (ds : List NestDim) : List Byte := ds.flatMap fun d => toBytes 2 d.count

/-- The steps of dimensions. -/
def stepBytes (ds : List NestDim) : List Byte := wordsOf (ds.map (·.step))

/-- The stopped-instruction state, in 64 bytes: which stops there are and whether each has a landing check pending, the scalar PC of the last, the number of
nests, and the steps that NSET has set (log entry 107). -/
def stopBytes (t : Thread) : List Byte :=
  let flag (i : Nat) (o : Option Stopped) : Nat := (if o.isSome then 2 ^ i else 0) + (if o.any (·.lpend) then 2 ^ (i + 2) else 0)
  ((toBytes 2 (flag 0 t.vec.stopped + flag 1 t.task.heldStop) ++ toBytes 2 (savedNests t).length ++
    toBytes 8 (((stopsOf t).getLast?.map Stopped.spc).getD 0).toNat ++ stepBytes t.nest.dims) ++ List.replicate 64 0).take 64

/-- Nest dimensions and position, in 128 bytes: the counts that NSET has set, and of the oldest nest that is under way its counts and steps, its position, its
number of body words and the one to run next (log entry 107). -/
def nestBytes (t : Thread) : List Byte :=
  let run := match savedNests t with
    | r :: _ => countBytes r.dims ++ stepBytes r.dims ++ r.pos.flatMap (toBytes 2) ++ toBytes 2 r.body ++ toBytes 2 r.next
    | [] => []
  (countBytes t.nest.dims ++ run ++ List.replicate 128 0).take 128

def TileKind.code (k : TileKind) : Nat :=
  match k with
  | .empty => 0
  | .fp => 1
  | .int => 2

/-- A record of the fill list (R161). -/
def fillBytes (r : FillRec) : List Byte :=
  let word := ((encode r.instr).getD 0).toNat
  ((toBytes 4 word ++ toBytes 4 (if r.written then 1 else 0) ++ wordsOf [r.handle, r.cardAddr] ++ r.card ++ toBytes 32 r.book.toNat ++
    toBytes 80 r.alg.toNat) ++ List.replicate 256 0).take 256

/-- The sections of Table 11.11: the size of each and its content. -/
def imageSections (t : Thread) : List (Nat × List Byte) :=
  let l := t.task.regLen
  let es := savedEntries t
  let tiles := t.task.tiles
  let regs := (List.range 32).flatMap (keptSlabs t)
  let released := t.vec.released.foldl (fun a i => a ||| 2 ^ i) 0
  [(64, toBytes 4 l ++ toBytes 2 tiles ++ (t.mx.kinds.toList.map fun k => BitVec.ofNat 8 k.code) ++ toBytes 2 es.length ++
      toBytes 2 t.mx.fills.length ++ (t.vec.queues.toList.map fun q => BitVec.ofNat 8 q.length) ++ toBytes 32 released),
    (320, wordsOf (t.x.toList.drop 1 ++ [t.pc] ++ t.uli.kother.toList)),
    (192, wordsOf [t.vec.vcfg.word, BitVec.ofNat 64 t.vec.vl, BitVec.ofNat 64 t.vec.vstart, t.fp.fstat.setWidth 64, t.fp.frm.setWidth 64,
      t.mx.mxflag.setWidth 64, t.fp.seed, t.fp.isn, if t.ord.detctl then 1 else 0, if t.ord.race then 1 else 0, t.ord.raceaddr, t.uli.ulivec,
      t.uli.word, t.task.taskid, t.sup.troot, BitVec.ofNat 64 t.ord.fenceIvl, t.task.cont.getD 0, BitVec.ofNat 64 t.task.slot,
      t.task.profs.setWidth 64]),
    (512, t.vec.queues.toList.flatMap fun q => wordsOf ((q ++ List.replicate 8 0).take 8)),
    (upTo64 (64 + 32 * es.length + 128), stopBytes t ++ es.flatMap entryBytes ++
      nestBytes t),
    (upTo64 (8 * l), ((t.vec.preds.toList.drop 1) ++ [t.vec.pdone]).flatMap fun p => toBytes l p.toNat),
    (regs.length, regs),
    (6144 * tiles, (t.mx.acc.toList.take (8 * tiles)).flatMap fun r => toBytes 768 r.toNat),
    (576, (t.mx.books.toList.flatMap fun b => toBytes 32 b.toNat) ++ t.mx.algs.toList.flatMap fun a => toBytes 80 a.toNat),
    (256 * t.mx.fills.length, t.mx.fills.flatMap fillBytes)]

/-- Bytes of an image. -/
def imageSize (t : Thread) : Nat := ((imageSections t).map (·.1)).foldl (· + ·) 0

/-- The image of a saved context. -/
def contextImage (t : Thread) : List Byte := (imageSections t).flatMap fun x => (x.2 ++ List.replicate x.1 0).take x.1

end Sys2Proof.Machine
end

