-- ==== Sys2Proof/Safety.lean ====
section
/-!
DEFINITION. What counts as a safe run, and the vocabulary that claims about the machine use: what a state leaves unchanged, what a trap entry
leaves, memory with nothing in flight, and what a vector instruction leaves in a register group.
-/

namespace Sys2Proof.Machine

-- ## Runs

/-- A run of n steps in which no step stops with a fault or a refusal. -/
def SafeRun : Nat → State → Prop
  | 0, _ => True
  | n + 1, s =>
    match step s with
    | .next t => SafeRun n t
    | .fault _ => False
    | .refused _ => False

-- ## What is unchanged

/-- Every byte of memory reads as before. -/
def SameBytes (s t : State) : Prop := ∀ a, t.byteAt a = s.byteAt a

/-- Every byte outside [lo, lo+n) reads as before. -/
def SameBytesOutside (s t : State) (lo n : Nat) : Prop := ∀ a, (a < lo ∨ lo + n ≤ a) → t.byteAt a = s.byteAt a

/-- The bytes [lo, lo+n) hold a number, lowest byte first, and every other byte reads as before. -/
def BytesSet (s t : State) (lo n v : Nat) : Prop :=
  (∀ k, k < n → t.byteAt (lo + k) = BitVec.ofNat 8 (v / 256 ^ k)) ∧ SameBytesOutside s t lo n

/-- The acting control thread at an address, waiting for nothing, and nothing else changed. -/
def MovedTo (s t : State) (pc : Word) : Prop :=
  t = { s with ct := { s.ct with pc := pc, ctl := { s.ct.ctl with wait := .none } } }

/-- The scalar stream stays at its word and waits; nothing else changed. -/
def Waits (s t : State) (w : Wait) : Prop := t = { s with ct := { s.ct with ctl := { s.ct.ctl with wait := w } } }

/-- x[d] holds v, x0 reads as zero, and every other x register reads as before (R13). -/
def XResult (s t : State) (d : Reg) (v : Word) : Prop := ∀ r : Reg, t.getX r = if r = 0 then 0 else if r = d then v else s.getX r

/-- Nothing but the x registers, the pc and the wait changed. -/
def OnlyX (s t : State) : Prop :=
  t = { s with ct := { s.ct with x := t.ct.x, pc := t.ct.pc, ctl := { s.ct.ctl with wait := .none } } }

/-- The result of a scalar instruction that writes one x register: x[d] := v, the next word, every byte of memory and all else unchanged. -/
def ScalarResult (s t : State) (d : Reg) (v : Word) : Prop :=
  XResult s t d v ∧ t.ct.pc = s.ct.pc + 4 ∧ OnlyX s t ∧ SameBytes s t

/-- s after memory was reached as t leaves it: lines may have changed hands between the L1s and the host (R181, R182, R264), and dies have exchanged
packets (R280). -/
def State.accessed (s t : State) : State :=
  { s with m := { s.m with owners := t.m.owners, copies := t.m.copies, cxlHeld := t.m.cxlHeld }, dies := t.dies }

/-- Nothing but the causal counters of the dies changed in them. -/
def SameDies (s t : State) : Prop := ∀ d, t.die d = { s.die d with causal := (t.die d).causal }

/-- t is s after memory was reached and no byte written. -/
def Reached (s t : State) : Prop := t = s.accessed t ∧ SameDies s t

/-- The result of a scalar load: x[d] := v, the next word, every byte of memory unchanged, and all else but what reaching memory changes. -/
def LoadResult (s t : State) (d : Reg) (v : Word) : Prop :=
  XResult s t d v ∧ t.ct.pc = s.ct.pc + 4 ∧ OnlyX (s.accessed t) t ∧ SameDies s t ∧ SameBytes s t

/-- The result of a scalar floating-point instruction (R124, R131, R132): the bits zero-extended in x[d], its flags ORed into FSTAT, an ISN
taken where its rounding is .rsr, the next word, every byte of memory and all else unchanged. -/
def FpResult (s t : State) (d : Reg) (r : Nat × FFlags) (rsr : Bool) : Prop :=
  XResult s t d (BitVec.ofNat 64 r.1) ∧ SameBytes s t ∧
    t = { s with ct := { s.ct with
          x := t.ct.x
          pc := s.ct.pc + 4
          fp := { s.ct.fp with fstat := s.ct.fp.fstat ||| r.2, isn := if rsr then s.ct.fp.isn + 1 else s.ct.fp.isn }
          ctl := { s.ct.ctl with wait := .none } } }

/-- The acting control thread at the next word, waiting for nothing, with everything else as in t. -/
def Passed (s t u : State) : Prop := u = { t with ct := { t.ct with pc := s.ct.pc + 4, ctl := { t.ct.ctl with wait := .none } } }

-- ## Profiles (R52)

/-- The profile that an instruction word needs where it runs (Tables 2.4 to 2.6); none for the hint space, for a CSRW that no level may make, and for the
steps of the part. -/
def profileOf (i : Instr) : Option Profile :=
  match i with
  | .nop | .hint _ => none
  | .csrw _ c => if csrReadOnly c.toNat then none else some .lb
  | .fence _ _ => some .lo
  | .algld _ _ | .vamul _ _ _ _ _ _ | .vaconj _ _ _ _ _ | .vaconjRev _ _ _ _ _ | .vanorm _ _ _ _ _ | .vasand _ _ _ _ _ _ => some .la
  | .gjoin _ | .gleave _ | .gsync _ | .ipost _ _ | .iwait _ _ | .talloc _ | .tfree _ | .tspawn _ _ | .tend _ | .tparkGroup _
  | .tparkRing _ _ | .tparkTag _ | .smap _ _ _ | .sunmap _ _ | .sflush _ _ => some .lt
  | .uret | .nset _ _ _ | .nloop _ | .xcopy _ _ | .xgath _ _ | .xcoll _ _ | .xwait _ => some .lx
  | .mmac _ _ _ | .mzero _ | .mldacc _ _ | .mcb _ _ | .mfill _ _ _ _ _ _ | .mdrainMemory _ _ _ _ | .mdrainRegister _ _ _ => some .lm
  | .qpush _ _ | .qpop _ _ | .qpopVector _ _ | .qcnt _ _ => some .lv
  | .add _ _ _ | .sub _ _ _ | .and _ _ _ | .or _ _ _ | .xor _ _ _ | .shl _ _ _ | .shr _ _ _ | .sar _ _ _ | .slt _ _ _ | .sltu _ _ _
  | .mul _ _ _ | .mulh _ _ _ | .mulhu _ _ _ | .div _ _ _ | .divu _ _ _ | .rem _ _ _ | .remu _ _ _ | .min _ _ _ | .max _ _ _ | .popc _ _
  | .addImm _ _ _ | .subImm _ _ _ | .andImm _ _ _ | .orImm _ _ _ | .xorImm _ _ _ | .shlImm _ _ _ | .shrImm _ _ _ | .sarImm _ _ _
  | .sltImm _ _ _ | .sltuImm _ _ _ | .mulImm _ _ _ | .minImm _ _ _ | .maxImm _ _ _ | .lim _ _ | .limInsert _ _ _ | .addpc _ _ | .land
  | .landTask | .ld _ _ _ _ | .st _ _ _ _ | .br _ _ _ _ | .jmp _ | .jal _ | .jalr _ _ _ | .fadd _ _ _ _ _ | .fsub _ _ _ _ _
  | .fmul _ _ _ _ _ | .fdiv _ _ _ _ _ | .fsqrt _ _ _ _ | .fma _ _ _ _ _ _ | .fmin _ _ _ _ | .fmax _ _ _ _ | .fcmp _ _ _ _ _
  | .fcvt _ _ _ _ _ | .fclass _ _ _ | .sysc _ | .brk _ | .sret | .csrr _ _ | .waite | .amo _ _ _ _ _ _ _ | .cas _ _ _ _ _ _
  | .tmark _ => some .lb
  | .vcfg _ _ _ _ _ _ _ | .vid _ _ _ | .vsplat _ _ _ _ _ | .vmv _ _ _ _ | .vext _ _ _ _ _ | .vlast _ _ _ _ | .vextQ _ _ _ _ _
  | .vlastQ _ _ _ _ | .vadd _ _ _ _ _ _ | .vsub _ _ _ _ _ _ | .vmul _ _ _ _ _ _ | .vmulh _ _ _ _ _ _ | .vmac _ _ _ _ _ _
  | .vdiv _ _ _ _ _ _ | .vmin _ _ _ _ _ _ | .vmax _ _ _ _ _ _ | .vand _ _ _ _ _ _ | .vor _ _ _ _ _ _ | .vxor _ _ _ _ _ _
  | .vshl _ _ _ _ _ _ | .vshr _ _ _ _ _ _ | .vsar _ _ _ _ _ _ | .vsadd _ _ _ _ _ _ | .vfadd _ _ _ _ _ _ _ | .vfsub _ _ _ _ _ _ _
  | .vfmul _ _ _ _ _ _ _ | .vfdiv _ _ _ _ _ _ _ | .vfmin _ _ _ _ _ _ | .vfmax _ _ _ _ _ _ | .vfscale _ _ _ _ _ _ _ | .vfsplit _ _ _ _
  | .vfsqrt _ _ _ _ _ | .vfrsqe _ _ _ _ | .vfcvt _ _ _ _ _ _ | .vfclass _ _ _ _ | .vfma _ _ _ _ _ _ | .vcmp _ _ _ _ _ _ _
  | .vfcmp _ _ _ _ _ _ _ | .vrsum _ _ _ _ _ | .vrosum _ _ _ _ _ | .vrmax _ _ _ _ _ | .vrmin _ _ _ _ _ | .vrlog _ _ _ _ _ _
  | .vrsumQ _ _ _ _ _ | .vrosumQ _ _ _ _ _ | .vrmaxQ _ _ _ _ _ | .vrminQ _ _ _ _ _ | .vrlogQ _ _ _ _ _ _ | .vslup _ _ _ _ _ _
  | .vsldn _ _ _ _ _ _ | .vperm _ _ _ _ _ | .vcompr _ _ _ _ | .vmerge _ _ _ _ _ _ | .pand _ _ _ _ _ | .por _ _ _ _ _ | .pxor _ _ _ _ _
  | .pnot _ _ _ _ | .pset _ _ _ _ | .pfirst _ _ _ _ | .pbrkBefore _ _ _ _ | .pbrkThru _ _ _ _ | .pcnt _ _ _ _ | .pcntQ _ _ _ _
  | .vdep _ _ _ _ | .vdepx _ _ _ _ _ | .vpart _ _ _ _ | .vld _ _ _ _ _ | .vlds _ _ _ _ _ _ | .vldx _ _ _ _ _ _ | .vldff _ _ _ _ _ _
  | .vst _ _ _ _ _ | .vsts _ _ _ _ _ _ | .vstx _ _ _ _ _ _ | .vpref _ _ _ _ | .vldseg _ _ _ _ _ _ | .vstseg _ _ _ _ _ _
  | .vamo _ _ _ _ _ _ => some .lv
  | _ => none

-- ## Traps

/-- What a trap of U leaves (R237, R240): S at the supervisor entry, PRV = U, the record, no wait, no pending landing check and no fetched word; TROOT,
every register, memory and all else unchanged, with nothing noted beside the record (R190, R238). cause holds SCAUSE without PRV, which is 0 for U. -/
def TrapTaken (s t : State) (cause sepc sfva sfwidth : Word) : Prop :=
  t = { s with ct := { s.ct with
        level := .s, pc := s.pkg.sEntry,
        sup := { s.ct.sup with scause := cause, sepc := sepc, sfva := sfva, sfelem := 0, sfstride := 0, sfrem := 0, sfwidth := sfwidth },
        ctl := { s.ct.ctl with wait := .none, lpend := false, target := none, held := false, report := false } } }

/-- The same of a trap that reports the error kept with a job (R190): the note beside the record says so (log entry 137). -/
def ReportTaken (s t : State) (cause sepc sfva : Word) : Prop :=
  t = { s with ct := { s.ct with
        level := .s, pc := s.pkg.sEntry,
        sup := { s.ct.sup with scause := cause, sepc := sepc, sfva := sfva, sfelem := 0, sfstride := 0, sfrem := 0, sfwidth := 0 },
        ctl := { s.ct.ctl with wait := .none, lpend := false, target := none, held := false, report := true } } }

/-- A trap at the acting word that names no fault CSR. -/
def PlainTrap (s t : State) (code : BitVec 8) : Prop := TrapTaken s t (code.setWidth 64) s.ct.pc 0 0

-- ## Memory with nothing in flight

/-- No buffered store, nothing read ahead or left to perform late, no fill that has registered a line, no mapped stash line, no cached translation, no chained update, no poison and no
host copy: an access touches its own bytes alone. -/
structure Calm (s : State) : Prop where
  slines : s.m.slines = []
  poison : s.m.poison = []
  hostShared : s.m.hostShared = []
  biWait : s.m.biWait = []
  chains : s.m.chains = []
  tlb : s.m.tlb = []
  sbuf : s.m.sbuf = []
  wcb : s.m.wcb = []
  early : s.m.early = []
  late : s.m.late = []
  fills : ∀ t ∈ s.threads, t.mx.fills = []
  savedFills : ∀ t ∈ s.pkg.saved, t.mx.fills = []
  parkedFills : ∀ p ∈ s.pkg.parked, p.fills = []

/-- A state that the instruction of s can have reached on its way: x registers, vector, floating-point and ordering state of the acting thread,
line ownership and copies, race records, the dies' causal counters and the count of free values may differ, and bytes of memory at the
addresses listed. -/
def Along (may : Nat → Prop) (s s' : State) : Prop :=
  (∃ (x : Vector Word 32) (v : VecSt) (f : FpSt) (o : OrdSt) (c : CtlSt) (mem : List Host.Cell) (own cop races : List (Nat × Nat))
    (cxl : List Nat) (ds : Vector Die 4) (n : Nat),
    s' = { s with
      ct := { s.ct with x := x, vec := v, fp := f, ord := o, ctl := c }
      m := { s.m with mem := mem, owners := own, copies := cop, races := races, cxlHeld := cxl }
      dies := ds
      fresh := n }) ∧
    (∀ d, (s'.die d).fenced = (s.die d).fenced) ∧ ∀ a, ¬ may a → s'.byteAt a = s.byteAt a

/-- The die of the acting thread neither records nor replays events (R293, R294). -/
def NoReplay (s : State) : Prop := (s.el (dieOf s.ct.lcore)).recording = false ∧ (s.el (dieOf s.ct.lcore)).replaying = false

/-- An access is ready at a physical address, changes nothing on its way, and stays ready whatever the instruction has already written at
the addresses listed. -/
def Ready (may : Nat → Prop) (s : State) (a : Acc) (va : Word) (n pa : Nat) : Prop :=
  (∀ s', Along may s s' → ∃ p : Place, p.pa = pa ∧ resolveAligned s'.ctx a va n s' = .ok p s') ∧ homeOf pa ≠ .device

-- ## Vector instructions

/-- Nothing is in flight in the vector stream, and Electrum watches neither samples nor breakpoints: a vector instruction runs and completes as
it is dispatched (log entry 4). -/
def VecReady (s : State) : Prop := s.immediate = true ∧ observed s = false

/-- No FENCE and no mode holds a vector memory access back: the fills that it must come after have read (R202, R224). -/
def VecOpen (s : State) : Prop :=
  (∀ j ∈ s.ct.ord.vvJobs, j.2 < s.ct.ord.fenceIvl → j.1 ∉ readingFills s) ∧ (s.ct.ord.detctl = true → readingFills s = [])

/-- s after a vector memory instruction has reached memory as t leaves it: it is counted, what earlier FENCEs held it for is over, and the latency of its
first beat took k free values (log entry 6). -/
def State.vecAccessed (s t : State) (k : Nat) : State :=
  { s.accessed t with
    ct := { s.ct with ord := { s.ct.ord with
      opSeq := s.ct.ord.opSeq + 1
      vhold := s.ct.ord.vhold.filter (s.ct.ord.fenceIvl ≤ ·)
      vvJobs := s.ct.ord.vvJobs.filter (s.ct.ord.fenceIvl ≤ ·.2)
      vvNow := [] } }
    fresh := s.fresh + k }

/-- The vector state is one that R59 to R61 allow: a register length, an element type and a VL. -/
def VecForm (s : State) : Prop :=
  (s.L = 256 ∨ s.L = 512 ∨ s.L = 1024 ∨ s.L = 2048) ∧ s.ct.vec.vcfg.ty ≤ 13 ∧ s.ct.vec.vl ≤ vlmax s.L s.ct.vec.vcfg

/-- Element width of the acting thread's VCFG in bytes. -/
def State.ew (s : State) : Nat := s.ct.vec.vcfg.w

/-- A vector register field that VCFG.GRP allows (R64). -/
def GroupOk (s : State) (r : Reg) : Prop := r.toNat % s.ct.vec.vcfg.g = 0

/-- What tail element j of a group holds, whose old bits are given (R65, R67): by TPOL its old bits, ones, or ones but for the 256-byte slabs
that lie wholly in the tail. -/
def tailAfter (s : State) (old j : Nat) : Nat :=
  match s.ct.vec.vcfg.tpol.toNat with
  | 0 => old
  | 2 => if s.ct.vec.vl * s.ew ≤ j * s.ew / 256 * 256 then 0 else 2 ^ (8 * s.ew) - 1
  | _ => 2 ^ (8 * s.ew) - 1

/-- What element j of a destination group holds after an instruction that wrote it (R65 to R67): prestart elements keep their bits, active ones
hold the low bits of the result, inactive ones keep theirs or are zero by MPOL, and the tail is by TPOL. -/
def elemAfter (s : State) (d : Nat) (act : Nat → Bool) (f : Nat → Nat) (j : Nat) : Nat :=
  let old := s.elem d s.ew j
  if j < s.ct.vec.vstart then old
  else if j < s.ct.vec.vl then (if act j then f j % 2 ^ (8 * s.ew) else if s.ct.vec.vcfg.mz then 0 else old)
  else tailAfter s old j

/-- A destination group after an instruction: as elemAfter says, or untouched where no element is stepped through (R66). -/
def GroupAfter (s t : State) (d : Nat) (act : Nat → Bool) (f : Nat → Nat) : Prop :=
  ∀ j, j < vlmax s.L s.ct.vec.vcfg →
    t.elem d s.ew j = if s.ct.vec.vstart < s.ct.vec.vl then elemAfter s d act f j else s.elem d s.ew j

/-- Nothing changed but the registers of the groups listed and their released slabs, the predicates, the queues, VSTART and pdone, which are
zero, FSTAT, the ISN, MXFLAG, DEF, and the pc and wait of the scalar stream. -/
def VecOnly (s t : State) (dest : Nat → Prop) : Prop :=
  (t = { s with ct := { s.ct with
      pc := s.ct.pc + 4
      vec := { s.ct.vec with
        vfile := t.ct.vec.vfile, released := t.ct.vec.released, preds := t.ct.vec.preds, queues := t.ct.vec.queues, vstart := 0, pdone := 0 }
      fp := { s.ct.fp with fstat := t.ct.fp.fstat, isn := t.ct.fp.isn }
      mx := { s.ct.mx with mxflag := t.ct.mx.mxflag }
      ctl := { s.ct.ctl with wait := .none, deficit := t.ct.ctl.deficit } } }) ∧
    (∀ r, r < 32 → ¬ dest r → t.ct.vec.vfile.toList[r]? = s.ct.vec.vfile.toList[r]?) ∧ SameBytes s t

/-- The registers of the group that begins at d. -/
def inGroup (s : State) (d r : Nat) : Prop := d ≤ r ∧ r < d + s.ct.vec.vcfg.g

/-- Predicates, queues and MXFLAG are unchanged, FSTAT has the flags given ORed in, and an ISN is taken where the rounding is .rsr. -/
def FlagsOnly (s t : State) (fl : FFlags) (rsr : Bool) : Prop :=
  t.ct.vec.preds = s.ct.vec.preds ∧ t.ct.vec.queues = s.ct.vec.queues ∧ t.ct.mx = s.ct.mx ∧
    t.ct.fp = { s.ct.fp with fstat := s.ct.fp.fstat ||| fl, isn := if rsr then s.ct.fp.isn + 1 else s.ct.fp.isn }

/-- The result of a vector instruction that writes one group and nothing else. -/
def VecResult (s t : State) (d : Reg) (act : Nat → Bool) (f : Nat → Nat) : Prop :=
  GroupAfter s t d.toNat act f ∧ VecOnly s t (inGroup s d.toNat) ∧ FlagsOnly s t 0 false

/-- The same with flags. -/
def VecFpResult (s t : State) (d : Reg) (act : Nat → Bool) (f : Nat → Nat × FFlags) (fl : FFlags) (rsr : Bool) : Prop :=
  GroupAfter s t d.toNat act (fun i => (f i).1) ∧ VecOnly s t (inGroup s d.toNat) ∧ FlagsOnly s t fl rsr

/-- A vector instruction of the profile may run at once in a state of the form that R59 to R61 allow. -/
def VecStart (s : State) (p : Profile) : Prop := VecReady s ∧ VecForm s ∧ s.has p = true

/-- Elements from VSTART to VL−1 that the predicate makes active. -/
def State.todo (s : State) (p : BitVec 3) (i : Nat) : Bool :=
  decide (s.ct.vec.vstart ≤ i) && decide (i < s.ct.vec.vl) && s.pbit p.toNat i

/-- The flags of the elements that are to be worked, ORed. -/
def orFlagsOf (s : State) (p : BitVec 3) (f : Nat → FFlags) : FFlags :=
  ((List.range s.ct.vec.vl).filter (s.todo p)).foldl (fun a i => a ||| f i) 0

/-- Operand b of the vv, vx and vi forms (R41, R356). -/
def State.vecB (s : State) (b : Reg) (f : BitVec 2) (i : Nat) : Nat :=
  match f.toNat with
  | 0 => s.elem b.toNat s.ew i
  | 1 => (s.getX b).toNat % 2 ^ (8 * s.ew)
  | _ => (b.signExtend 64).toNat % 2 ^ (8 * s.ew)

/-- A predicate after an instruction that wrote it (R66, R69, R70): p0 stays ones; prestart bits are kept, active bits hold the result, inactive ones are
kept or cleared by MPOL, and bits from VL on are cleared. -/
def PredAfter (s t : State) (d : Reg) (p : BitVec 3) (f : Nat → Bool) : Prop :=
  (∀ r j, r < 8 → r ≠ d.toNat → t.pbit r j = s.pbit r j) ∧
    ∀ j, j < 16384 → t.pbit d.toNat j =
      if d = 0 then true
      else if s.ct.vec.vl ≤ s.ct.vec.vstart then s.pbit d.toNat j
      else if s.ct.vec.vl ≤ j then false
      else if j < s.ct.vec.vstart then s.pbit d.toNat j
      else if s.pbit p.toNat j then f j
      else if s.ct.vec.vcfg.mz then false else s.pbit d.toNat j

/-- The result of a vector instruction that writes a predicate and FSTAT. -/
def PredResult (s t : State) (d : Reg) (p : BitVec 3) (f : Nat → Bool) (fl : FFlags) : Prop :=
  PredAfter s t d p f ∧ VecOnly s t (fun _ => False) ∧ t.ct.vec.queues = s.ct.vec.queues ∧ t.ct.mx = s.ct.mx ∧
    t.ct.fp = { s.ct.fp with fstat := s.ct.fp.fstat ||| fl }

/-- A value is delivered to a queue and nothing else changes but flags (R76). -/
def Delivers (s t : State) (q : Reg) (v : Word) (fl : FFlags) (rsr : Bool) : Prop :=
  t.queue q.toNat = s.queue q.toNat ++ [v] ∧ (∀ r, r ≠ q.toNat → t.queue r = s.queue r) ∧ VecOnly s t (fun _ => False) ∧
    t.ct.vec.preds = s.ct.vec.preds ∧ t.ct.mx = s.ct.mx ∧
    t.ct.fp = { s.ct.fp with fstat := s.ct.fp.fstat ||| fl, isn := if rsr then s.ct.fp.isn + 1 else s.ct.fp.isn }

/-- Bit x of memory: bit x mod 8 of byte x div 8. -/
def State.memBit (s : State) (x : Nat) : Bool := (s.byteAt (x / 8)).getLsbD (x % 8)

/-- Bits of one element of a memory format (Table 2.11), under an element type. -/
def memBits (m : BitVec 5) (ty : Nat) : Nat :=
  if m = 0x0E then 2 else if m = 0x0F then 4 else if m = 0x12 ∨ m = 0x13 then 8 else 8 * tyBytes (mfType m ty)

/-- What a load makes of an element's code in memory (R125, R128, R139), with flags. -/
def memValue (m : BitVec 5) (ty raw : Nat) : Nat × FFlags :=
  if m = 0x0E then convert Rc.rne 0 ty ((BitVec.ofNat 2 raw).signExtend 8).toNat
  else if m = 0x0F then convert Rc.rne 0 ty ((BitVec.ofNat 4 raw).signExtend 8).toNat
  else if m = 0x12 ∨ m = 0x13 then ((tyFmt ty).getD .f32).deliver Rc.rne (scaleVal (m == 0x13) raw)
  else if mfType m ty = ty then (raw, 0)
  else convert Rc.rne (mfType m ty) ty raw

/-- What a vector store may change: memory and what reaching it changes, and the wait, pc, VSTART, pdone, FSTAT and DEF of the acting thread. -/
def VecStoreOnly (s t : State) (fl : FFlags) : Prop :=
  SameDies s t ∧
    (let u := s.vecAccessed t 1
     t = { u with
      ct := { u.ct with
        pc := s.ct.pc + 4
        vec := { s.ct.vec with vstart := 0, pdone := 0 }
        fp := { s.ct.fp with fstat := s.ct.fp.fstat ||| fl }
        ctl := { s.ct.ctl with wait := .none, deficit := t.ct.ctl.deficit } }
      m := { u.m with mem := t.m.mem } })

/-- A matrix instruction changed tiles, MXFLAG and DEF at most, and VSTART and pdone are zero. -/
def MatrixOnly (s t : State) (fl : BitVec 3) : Prop :=
  t = { s with ct := { s.ct with
    pc := s.ct.pc + 4
    vec := { s.ct.vec with vstart := 0, pdone := 0 }
    mx := { s.ct.mx with acc := t.ct.mx.acc, kinds := t.ct.mx.kinds, mxflag := s.ct.mx.mxflag ||| fl }
    ctl := { s.ct.ctl with wait := .none, deficit := t.ct.ctl.deficit } } }

/-- The cells of a tile after an instruction: f gives (row, column); every other tile keeps its cells and its kind. -/
def TileAfter (s t : State) (tile : Reg) (k : TileKind) (f : Nat → Nat → Nat) : Prop :=
  (∀ r c, r < 8 → c < 192 → t.cell tile.toNat r c = f r c) ∧ t.tileKind tile.toNat = k ∧
    ∀ o, o < 8 → o ≠ tile.toNat → t.tileKind o = s.tileKind o ∧ ∀ r c, r < 8 → c < 192 → t.cell o r c = s.cell o r c

end Sys2Proof.Machine
end

