-- ==== Sys2Proof/Certificates/Slice0/Obligations.lean ====
section
/-!
DEFINITION. The statements about the model: what its instructions and steps do, as the numbered rules of the spec say it.
-/

open Sys2Proof Sys2Proof.Machine


-- ## Encoding

/-- R28, R46: the word that the encoder gives a well-formed instruction decodes to that instruction, with every operand at every value its field admits. A
word decodes only to a well-formed instruction, and that instruction's word is the word: no bit of a word that the decoder accepts is without meaning
(R46). R46: major 0 and the majors from 0x33 on hold no instruction. -/
def Obligations.Encoding : Prop :=
  (∀ (i : Instr) (w : IWord), i.wf = true → encode i = some w → decode w = some i) ∧
  (∀ (w : IWord) (i : Instr), decode w = some i → i.wf = true ∧ encode i = some w) ∧
  (∀ w : IWord, (w.toNat / 2 ^ 26 = 0 ∨ 0x33 ≤ w.toNat / 2 ^ 26) → decode w = none)

/-- Words that the spec writes out decode to the instructions it writes beside them (R47, Table 2.15, R193, R194, R300, R301, R305, R331). -/
def Obligations.WordsOfTheTables : Prop :=
  decode 0x04200001 = some .landTask ∧
  decode 0x04200000 = some .land ∧
  decode 0x04000000 = some .nop ∧
  decode 0x39600000 = some (.lim 11 0) ∧
  decode 0x8125C100 = some (.vcfg 9 5 12 0 1 0 0) ∧
  decode 0x48095036 = some (.br 6 9 10 3) ∧
  decode 0x3C600010 = some (.addpc 3 16) ∧
  decode 0x78000013 = some .uret ∧
  decode 0x7CA00003 = some (.xwait 5) ∧
  decode 0x78250018 = some (.algld 1 5)

-- ## The step

/-- A step of a running thread that nothing comes before runs the instruction that its next word decodes to: after the landing check that was pending
(R55, R56), for a word that begins also after the breakpoint that its die may have (R290), and after the accesses left to perform later that the
instruction may not pass by have landed (log entry 125), which changes nothing where there is none; a word that no instruction has runs as the illegal
one (R46). -/
def Obligations.StepRunsTheDecodedInstruction : Prop :=
  ∀ (s s1 : State) (w : IWord),
    s.sched.slots = [] → s.pending = [] → s.ct.status = .running → boundary s = none →
    s.ct.vec.viq = [] → (s.ct.vec.owing = [] ∨ s.ct.ctl.wait = .none) → s.ct.vec.hold = false → s.ct.pc.toNat % 4 = 0 →
    nextWord s = .ok w s1 →
    (s1.ct.ctl.lpend = true → isLand w = true) → (atStart s1 = true → isLandTask w = true) →
    ∀ i, (decode w = some i ∨ (decode w = none ∧ i = .illegalInstruction w)) →
      let u := if s1.ct.ctl.wait = .none ∨ s1.ct.ctl.wait = .fetch then scalarBreaks (landed s1) s1.ct.pc w else landed s1
      step s = exec i (landFor i u) ∧ (anyBreak s1 = false → u = landed s1) ∧ (u.m.late = [] → step s = exec i u)

/-- R56: a task whose first word is no LAND.task, and a JALR target that is no LAND and whose check was left pending (R55), trap LANDING at that word; the
check of a start is made once, so that a later SRET is checked under LPEND alone. R46, R237, R240: a word that no instruction has traps ILLEGAL to S
in U; in S the trap goes to M, and the control thread is fenced. R52: in U an instruction of a profile that the task does not declare traps PROFILE
and does nothing else; an MFILL with an epilogue also needs LA. R130: a rounding instruction whose dynamic rounding finds FRM at 6 or 7 traps ILLEGAL.
R39: in U, SRET, and a CSRR or CSRW of a supervisor or firmware CSR, trap PRIV and have no other effect. -/
def Obligations.WordTraps : Prop :=
  (∀ (s s1 : State) (w : IWord),
    s.sched.slots = [] → s.pending = [] → s.ct.status = .running → boundary s = none →
    s.ct.vec.viq = [] → (s.ct.vec.owing = [] ∨ s.ct.ctl.wait = .none) → s.ct.vec.hold = false → s.ct.pc.toNat % 4 = 0 →
    nextWord s = .ok w s1 → s1.ct.level = .u →
    ((s1.ct.ctl.ltask = some s1.ct.pc ∧ isLandTask w = false) ∨ (s1.ct.ctl.lpend = true ∧ isLand w = false)) →
    ∃ t, step s = .next t ∧ PlainTrap (landed s1) t Code.landing ∧ t.ct.ctl.ltask = none) ∧
  (∀ (s : State) (w : IWord),
    (s.ct.level = .u → ∃ t, exec (.illegalInstruction w) s = .next t ∧ PlainTrap s t Code.illegal) ∧
    (s.ct.level = .s → ∃ t, exec (.illegalInstruction w) s = .next t ∧ t.ct.level = .m ∧ t.ct.pc = s.pkg.mEntry ∧
      t.ct.status = .fenced ∧ t.ct.sup.scause = 0x80001 ∧ t.ct.sup.sepc = s.ct.pc ∧ t.ct.sup.troot = s.ct.sup.troot ∧
      t.ct.x = s.ct.x ∧ t.m = s.m ∧ t.pkg = s.pkg)) ∧
  (∀ (i : Instr) (s : State) (p : Profile), s.ct.level = .u → s.ct.task.profs.getLsbD p.bit = false →
    (profileOf i = some p ∨ (p = .la ∧ ∃ d a m g sd, i = .mfill d a m 1 g sd)) →
    ∃ t, exec i s = .next t ∧ PlainTrap s t Code.profile) ∧
  (∀ (s : State) (f : BitVec 4) (d a b c : Reg) (t u : BitVec 5), s.has .lb = true → s.ct.level = .u → 6 ≤ s.ct.fp.frm.toNat →
    ∀ i ∈ ([.fadd f d a b 7, .fsub f d a b 7, .fmul f d a b 7, .fdiv f d a b 7, .fsqrt f d a 7, .fma f d a b c 7, .fcvt d a t u 7] : List Instr),
      ∃ z, exec i s = .next z ∧ PlainTrap s z Code.illegal) ∧
  (∀ s : State, s.ct.level = .u → s.has .lb = true →
    (∃ t, exec .sret s = .next t ∧ PlainTrap s t Code.priv) ∧
    ∀ (r : Reg) (c : BitVec 10), 0x100 ≤ c.toNat →
      (∃ t, exec (.csrr r c) s = .next t ∧ PlainTrap s t Code.priv) ∧ ∃ t, exec (.csrw r c) s = .next t ∧ PlainTrap s t Code.priv)

-- ## Reset and memory

/-- What reset leaves, as R273, R278, R106 and R96 say: no die or core has reported ready, no control thread runs, every deque is empty and every record
free, Electrum's registers read as zero but ECTL.SAMP as 15, and every ring channel holds 0. Memory lists nothing at reset, in the canonical form. -/
def Obligations.ResetLeaves : Prop :=
  ((∀ d, d < 4 → (State.reset.die d).ready = false ∧ (State.reset.die d).fenced = false ∧
    ∀ off, (State.reset.el d).read off = if off = 0 then 0xF000 else 0) ∧
  State.reset.pkg.ready.cores = 0 ∧ State.reset.pkg.ready.trained = 0 ∧
  (∀ c n, (State.reset.thread c n).status = .free) ∧
  (∀ c, c < 128 → (∀ k, k < 4 → (State.reset.core c).deques.toList.getD k [] = []) ∧ (State.reset.core c).pool = BitVec.allOnes 256 ∧
    (State.reset.core c).jobs = [] ∧ (State.reset.core c).freeLanes = 8) ∧
  (∀ c d, c < 16 → d < 4 → ringCopy State.reset d c = (0, 0))) ∧
  (Memory.wf State.reset.m.mem = true ∧ ∀ a, State.reset.byteAt a = 0)

/-- Every step of the machine keeps the canonical form of memory: addresses strictly rising, and no entry equal to what an unlisted address reads as (log
entry 1). -/
def Obligations.MemoryFormKept : Prop :=
  ∀ s t : State, Memory.wf s.m.mem = true → step s = .next t → Memory.wf t.m.mem = true

-- ## Scalar integer

/-- R298, Table 16.3: the register forms write xd and change nothing else. R298, R30: the immediate forms take sext(I), for AND, OR and XOR zext(I), and
for the shifts the amount. -/
def Obligations.IntegerArithmetic : Prop :=
  (∀ (s : State) (d a b : Reg), s.has .lb = true →
    let x := s.getX a
    let y := s.getX b
    ∀ r ∈ ([(.add d a b, x + y), (.sub d a b, x - y), (.and d a b, x &&& y), (.or d a b, x ||| y), (.xor d a b, x ^^^ y),
        (.shl d a b, x <<< (y &&& 63)), (.shr d a b, x >>> (y &&& 63)), (.sar d a b, BitVec.sshiftRight' x (y &&& 63)),
        (.slt d a b, if x.toInt < y.toInt then 1 else 0), (.sltu d a b, if x.toNat < y.toNat then 1 else 0),
        (.mul d a b, x * y), (.mulh d a b, (x.signExtend 128 * y.signExtend 128).extractLsb' 64 64),
        (.mulhu d a b, (x.setWidth 128 * y.setWidth 128).extractLsb' 64 64),
        (.div d a b, if y = 0 then BitVec.allOnes 64 else x.sdiv y), (.divu d a b, if y = 0 then BitVec.allOnes 64 else x / y),
        (.rem d a b, if y = 0 then x else x.srem y), (.remu d a b, if y = 0 then x else x % y),
        (.min d a b, if x.toInt < y.toInt then x else y), (.max d a b, if x.toInt < y.toInt then y else x),
        (.popc d a, BitVec.ofNat 64 ((List.range 64).countP fun k => x.getLsbD k))] : List (Instr × Word)),
      ∃ t, exec r.1 s = .next t ∧ ScalarResult s t d r.2) ∧
  (∀ (s : State) (d a : Reg) (i : BitVec 16) (n : BitVec 6), s.has .lb = true →
    let x := s.getX a
    let y := i.signExtend 64
    let z := i.setWidth 64
    ∀ r ∈ ([(.addImm d a i, x + y), (.subImm d a i, x - y), (.andImm d a i, x &&& z), (.orImm d a i, x ||| z), (.xorImm d a i, x ^^^ z),
        (.shlImm d a n, x <<< n.toNat), (.shrImm d a n, x >>> n.toNat), (.sarImm d a n, x.sshiftRight n.toNat),
        (.sltImm d a i, if x.toInt < y.toInt then 1 else 0), (.sltuImm d a i, if x.toNat < y.toNat then 1 else 0), (.mulImm d a i, x * y),
        (.minImm d a i, if x.toInt < y.toInt then x else y), (.maxImm d a i, if x.toInt < y.toInt then y else x)] : List (Instr × Word)),
      ∃ t, exec r.1 s = .next t ∧ ScalarResult s t d r.2)

/-- R335, R300, R47, R331: LIM and ADDPC write xd; hint words and LAND only move on. -/
def Obligations.ConstantsAndHints : Prop :=
  (∀ (s : State) (d : Reg) (i : BitVec 16), s.has .lb = true → ∃ t, exec (.lim d i) s = .next t ∧ ScalarResult s t d (i.signExtend 64)) ∧
  (∀ (s : State) (d : Reg) (h : BitVec 5) (i : BitVec 16), 1 ≤ h.toNat → h.toNat ≤ 3 → s.has .lb = true →
    ∃ t v, exec (.limInsert d h i) s = .next t ∧ ScalarResult s t d v ∧
      ∀ k, k < 64 → v.getLsbD k =
        if 16 * h.toNat ≤ k ∧ k < 16 * h.toNat + 16 then i.getLsbD (k - 16 * h.toNat) else (s.getX d).getLsbD k) ∧
  (∀ (s : State) (d : Reg) (o : BitVec 21), s.has .lb = true →
    ∃ t, exec (.addpc d o) s = .next t ∧ ScalarResult s t d (s.ct.pc + 4 * o.signExtend 64)) ∧
  (∀ (s : State) (h : BitVec 21), ∃ t, exec (.hint h) s = .next t ∧ MovedTo s t (s.ct.pc + 4)) ∧
  (∀ (s : State), ∃ t, exec .nop s = .next t ∧ MovedTo s t (s.ct.pc + 4)) ∧
  (∀ (s : State), s.has .lb = true →
    (∃ t, exec .land s = .next t ∧ MovedTo s t (s.ct.pc + 4)) ∧ ∃ t, exec .landTask s = .next t ∧ MovedTo s t (s.ct.pc + 4))

-- ## Control flow

/-- R304: BR goes to PC + 4·sext(offset) where its condition holds and to the next word where it does not, and changes nothing else. -/
def Obligations.Branches : Prop :=
  ∀ (s : State) (c : BitVec 4) (a b : Reg) (o : BitVec 12), s.has .lb = true → c.toNat ≤ 9 →
    let x := s.getX a
    let y := s.getX b
    let taken := match c.toNat with
      | 0 => decide (x = y)
      | 1 => decide (x ≠ y)
      | 2 => decide (x.toInt < y.toInt)
      | 3 => decide (x.toInt ≤ y.toInt)
      | 4 => decide (y.toInt < x.toInt)
      | 5 => decide (y.toInt ≤ x.toInt)
      | 6 => decide (x.toNat < y.toNat)
      | 7 => decide (x.toNat ≤ y.toNat)
      | 8 => decide (y.toNat < x.toNat)
      | _ => decide (y.toNat ≤ x.toNat)
    ∃ t, exec (.br c a b o) s = .next t ∧ MovedTo s t (if taken then s.ct.pc + 4 * o.signExtend 64 else s.ct.pc + 4)

/-- R53: JAL writes lr := (PC + 4) | 1 and jumps; JMP and BR move the pc and change nothing else; none of them leaves a landing check pending. -/
def Obligations.JumpAndLink : Prop :=
  ∀ (s : State) (o : BitVec 21), s.has .lb = true →
    (∃ t, exec (.jal o) s = .next t ∧ XResult s t 1 ((s.ct.pc + 4) ||| 1) ∧ t.ct.pc = s.ct.pc + 4 * o.signExtend 64 ∧ OnlyX s t ∧
      SameBytes s t ∧ t.ct.ctl.lpend = s.ct.ctl.lpend) ∧
    (∃ t, exec (.jmp o) s = .next t ∧ MovedTo s t (s.ct.pc + 4 * o.signExtend 64) ∧ t.ct.ctl.lpend = s.ct.ctl.lpend) ∧
    ∀ (c : BitVec 4) (a b : Reg) (p : BitVec 12), ∃ t, exec (.br c a b p) s = .next t ∧ t.ct.ctl.lpend = s.ct.ctl.lpend ∧
      (MovedTo s t (s.ct.pc + 4 * p.signExtend 64) ∨ MovedTo s t (s.ct.pc + 4))

/-- R54, R55: a return clears bit 0 and is not checked; a target with bit 1 set traps ALIGN with SFVA the target; any other target must hold a LAND, and
the word fetched for the check is the one that runs there, or JALR traps LANDING with SEPC the target and SFVA its own address. Where the fetch of the
target faults, JALR has written xd and jumped, and the fault is recorded at the target with LPEND set. xd is written after xa is read. -/
def Obligations.JumpRegister : Prop :=
  ∀ (s : State) (d a : Reg) (i : BitVec 16), s.has .lb = true →
    let raw := s.getX a + i.signExtend 64
    let tgt := raw &&& ~~~ 1
    (tgt.getLsbD 1 = false → raw.getLsbD 0 = true →
      ∃ t, exec (.jalr d a i) s = .next t ∧ XResult s t d ((s.ct.pc + 4) ||| 1) ∧ t.ct.pc = tgt ∧ OnlyX s t) ∧
    (tgt.getLsbD 1 = false → raw.getLsbD 0 = false → ∀ w s1, fetchWord s tgt = .ok w s1 → s1.ct.pc = s.ct.pc → s1.ct.level = s.ct.level →
      (isLand w = true → ∃ t, exec (.jalr d a i) s = .next t ∧ XResult s1 t d ((s.ct.pc + 4) ||| 1) ∧ t.ct.pc = tgt ∧
        OnlyX (s1.onCtl fun c => { c with target := some (tgt, w) }) t ∧ ∃ u, heldWord t = .ok w u) ∧
      (isLand w = false → s.ct.level = .u → ∃ t, exec (.jalr d a i) s = .next t ∧ TrapTaken s1 t 0x09 tgt s.ct.pc 0)) ∧
    (tgt.getLsbD 1 = true → s.ct.level = .u → ∃ t, exec (.jalr d a i) s = .next t ∧ TrapTaken s t 0x04 s.ct.pc tgt 0) ∧
    (tgt.getLsbD 1 = false → raw.getLsbD 0 = false → ∀ f s1, fetchWord s tgt = .trap f s1 → s1.ct.pc = s.ct.pc → s1.ct.level = .u →
      ∃ t, exec (.jalr d a i) s = .next t ∧ XResult s1 t d ((s.ct.pc + 4) ||| 1) ∧ t.ct.level = .s ∧ t.ct.pc = s1.pkg.sEntry ∧
        t.ct.sup.sepc = tgt ∧ t.ct.sup.scause.getLsbD 8 = true ∧ t.ct.sup.scause.setWidth 8 = f.code ∧ t.ct.sup.sfva = f.sfva)

-- ## Scalar memory

/-- R333, R181, Table 17.5: where its aligned address is ready and nothing is in flight, LD writes the bytes at the address, sign-extended for .i8, .i16
and .i32 and zero-extended otherwise, and leaves every byte of memory and all else as it was. A line that may be cached is then held by the core's
cluster; any other line changes no hands. Where the schedule lets accesses perform later (R200, R208, log entry 125), LD only leaves its load: a slot
of the schedule performs it, with the bytes that then stand there, and it lands in xd before an instruction that it must precede. -/
def Obligations.ScalarLoad : Prop :=
  ∀ (s : State) (d a : Reg) (m : BitVec 5) (i : BitVec 11) (p : Place), s.has .lb = true → scalarMfOk m = true → Calm s →
    let n := match m.toNat with
      | 1 => 1
      | 5 => 1
      | 2 => 2
      | 6 => 2
      | 0x0A => 2
      | 0x0B => 2
      | 3 => 4
      | 7 => 4
      | 0x0C => 4
      | _ => 8
    resolveAligned s.ctx { kind := 1, plain := true } (s.getX a + i.signExtend 64) n s = .ok p s → homeOf p.pa ≠ .device →
    let value (k : Nat) : Word := if m.toNat ≤ 3 then (BitVec.ofNat (8 * n) k).signExtend 64 else (BitVec.ofNat (8 * n) k).setWidth 64
    let l : Late :=
      { lcore := s.ct.lcore, ctno := s.ct.ctno, task := s.ct.task.taskid, vec := false, seq := s.ct.ord.opSeq, pa := p.pa, cached := p.cached,
        deps := p.deps, op := .load n, dest := .ld d m, beforeV := [], scope := none, got := none }
    (s.defers = false → ∃ t, exec (.ld d a m i) s = .next t ∧ LoadResult s t d (value (s.numAt p.pa n)) ∧
      (p.cached = true → l1Holds t (clusterOf s.ct.lcore) (lineOf p.pa) = true) ∧
      (p.cached = false → t.m.owners = s.m.owners ∧ t.m.copies = s.m.copies)) ∧
    (s.defers = true → ∃ t, exec (.ld d a m i) s = .next t ∧
      t = { s with
        ct := { s.ct with pc := s.ct.pc + 4, ctl := { s.ct.ctl with wait := .none } }
        m := { s.m with late := [l] } }) ∧
    (∀ (u : State) (r : List Slot), Calm { u with m := { u.m with late := [] } } → u.m.late = [l] → lostHome u p.pa = false →
      u.sched.slots = .perform 0 :: r →
      ∃ t bs, step u = .next t ∧ t.m.late = [{ l with got := some (bs, 0) }] ∧ leNat bs = u.numAt p.pa n ∧ t.ct = u.ct ∧ SameBytes u t) ∧
    ∀ (u : State) (bs : List Byte) (j : Instr), u.m.late = [{ l with got := some (bs, 0) }] → u.ct.lcore = s.ct.lcore → u.ct.ctno = s.ct.ctno →
      bs.length = n → (passRegs j = none ∨ ∃ rs, passRegs j = some rs ∧ d ∈ rs) →
      let t := landFor j u
      XResult u t d (value (leNat bs)) ∧
        t = { u with
          ct := { u.ct with x := t.ct.x }
          m := { u.m with late := [] } }

/-- R333, R182: where its aligned address is ready, nothing is in flight and the store is not to be held, ST writes the low bytes of xs at the address and
no other byte, and nothing else changes. The core's cluster owns a line that may be cached, and no other cluster holds it; any other line takes no
owner. Where the schedule leaves stores in flight (R211, log entry 5) the bytes wait in the store buffer instead. -/
def Obligations.ScalarStore : Prop :=
  ∀ (s : State) (v a : Reg) (m : BitVec 5) (i : BitVec 11) (p : Place), s.has .lb = true → scalarMfOk m = true → Calm s →
    s.ct.ord.detctl = false → Memory.wf s.m.mem = true →
    resolveAligned s.ctx { kind := 2, plain := true } (s.getX a + i.signExtend 64) (scalarBytes m) s = .ok p s → homeOf p.pa ≠ .device →
    (s.sched.deferStores = true → ∃ t, exec (.st v a m i) s = .next t ∧
      t = { s with
        ct := { s.ct with pc := s.ct.pc + 4, ctl := { s.ct.ctl with wait := .none } }
        m := { s.m with sbuf := [{
          lcore := s.ct.lcore, ctno := s.ct.ctno, task := s.ct.task.taskid, va := s.getX a + i.signExtend 64, pa := p.pa,
          bytes := toBytes (scalarBytes m) (s.getX v).toNat, vec := false, op := s.ct.ord.opSeq, own := p.cached, deps := p.deps, beforeV := [],
          scope := none, mask := 0xFF }] } }) ∧
    (s.sched.deferStores = false →
     ∃ t, exec (.st v a m i) s = .next t ∧ BytesSet s t p.pa (scalarBytes m) (s.getX v).toNat ∧ SameDies s t ∧
      t = { s.accessed t with
        ct := { s.ct with pc := s.ct.pc + 4, ctl := { s.ct.ctl with wait := .none } }
        m := { (s.accessed t).m with mem := t.m.mem } } ∧
      (p.cached = true → (lineOf p.pa, clusterOf s.ct.lcore) ∈ t.m.owners ∧
        (∀ o ∈ t.m.owners, o.1 = lineOf p.pa → o.2 = clusterOf s.ct.lcore) ∧ ∀ k ∈ t.m.copies, k.2 ≠ lineOf p.pa) ∧
      (p.cached = false → t.m.owners = s.m.owners))

/-- R333, Table 11.8: a misaligned LD, ST, AMO or CAS of U traps ALIGN before any other check of its address, with SFVA the address, its kind and its
width in the record, and has no other effect but one, which is the model's choice (log entry 153): one that releases at package scope or wider first
ends its core's race records. R180, Table 9.4: a stash instruction on a misaligned range traps ALIGN, and one whose range leaves the grant traps
WINDOW. R319, R320, Table 4.9: a group number beyond 4,095 traps GROUP, and so does an operation that the table refuses, for which the controller has
been asked and has answered (R280); both leave the groups as they are. -/
def Obligations.AccessTraps : Prop :=
  (∀ (s : State) (d a b : Reg) (va : Word), s.has .lb = true → s.ct.level = .u →
    let released (s : State) (sc : BitVec 3) (o : BitVec 2) : State := { s with m := { s.m with
      races := if orRel o ∧ 4 ≤ sc.toNat then s.m.races.filter (fun q => q.2 != s.ct.lcore) else s.m.races } }
    (∀ (m : BitVec 5) (i : BitVec 11), scalarMfOk m = true → va = s.getX a + i.signExtend 64 → va.toNat % scalarBytes m ≠ 0 →
      (∃ t, exec (.ld d a m i) s = .next t ∧ TrapTaken s t 0x204 s.ct.pc va (0x100 + 8 * BitVec.ofNat 64 (scalarBytes m))) ∧
      ∃ t, exec (.st d a m i) s = .next t ∧ TrapTaken s t 0x404 s.ct.pc va (0x100 + 8 * BitVec.ofNat 64 (scalarBytes m))) ∧
    (∀ (sc : BitVec 3) (o : BitVec 2) (p w : BitVec 3), orRel o = false ∨ Calm s → va = s.getX a → va.toNat % amoBytes w ≠ 0 →
      ∃ t, exec (.amo d a b sc o p w) s = .next t ∧ TrapTaken (released s sc o) t 0x604 s.ct.pc va (0x100 + 8 * BitVec.ofNat 64 (amoBytes w))) ∧
    (∀ (sc : BitVec 3) (o : BitVec 2) (w : BitVec 1), orRel o = false ∨ Calm s → va = s.getX a → va.toNat % (if w = 0 then 4 else 8) ≠ 0 →
      ∃ t, exec (.cas d a b sc o w) s = .next t ∧ TrapTaken (released s sc o) t 0x604 s.ct.pc va (0x100 + 8 * (if w = 0 then 4 else 8)))) ∧
  (∀ (s : State) (a b c : Reg), s.has .lt = true → s.viqEmpty = true → s.ct.level = .u →
    ((s.getX a).toNat % 64 ≠ 0 ∨ (s.getX b).toNat % 64 ≠ 0 →
      ∀ i ∈ ([.smap a b c, .sunmap a b, .sflush a b] : List Instr), ∃ t, exec i s = .next t ∧ PlainTrap s t Code.align) ∧
    ((s.getX a).toNat % 64 ≠ 0 ∨ (s.getX b).toNat % 64 ≠ 0 ∨ (s.getX c).toNat % 64 ≠ 0 →
      ∃ t, exec (.smap a b c) s = .next t ∧ PlainTrap s t Code.align) ∧
    ((s.getX a).toNat % 64 = 0 → (s.getX b).toNat % 64 = 0 →
      (stashRange s (s.getX a) (s.getX b) = none →
        ∀ i ∈ ([.sunmap a b, .sflush a b] : List Instr), ∃ t, exec i s = .next t ∧ PlainTrap s t Code.window) ∧
      ((s.getX c).toNat % 64 = 0 → stashRange s (s.getX a) (s.getX c) = none → ∃ t, exec (.smap a b c) s = .next t ∧ PlainTrap s t Code.window))) ∧
  (∀ (s : State) (a : Reg), s.has .lt = true → s.ct.level = .u → arrivalAt s = none →
    let refused (t : State) : Prop := SameDies s t ∧ PlainTrap { s with dies := t.dies } t Code.group
    (4096 ≤ (s.getX a).toNat → ∀ i ∈ ([.gjoin a, .gleave a, .gsync a] : List Instr), ∃ t, exec i s = .next t ∧ PlainTrap s t Code.group) ∧
    ((s.getX a).toNat < 4096 → groupLost s (s.getX a).toNat = false → (s.group (s.getX a).toNat).has s.ct.task.taskid = false →
      (∀ i ∈ ([.gleave a, .gsync a] : List Instr), ∃ t, exec i s = .next t ∧ refused t) ∧
      (512 ≤ (s.group (s.getX a).toNat).members.length ∨ 4 ≤ (groupsOf s s.ct.task.taskid).length →
        ∃ t, exec (.gjoin a) s = .next t ∧ refused t)))

-- ## Scalar floating point

/-- R313, R130, R132: the rounding instructions deliver the exact result rounded once in the mode that their field or FRM names; .rsr takes an ISN. R314
to R316, R143: FMIN, FMAX, FCMP and FCLASS round nothing; FCVT converts, and a signed integer result is sign-extended. -/
def Obligations.FloatingPoint : Prop :=
  (∀ (s : State) (f : BitVec 4) (d a b c : Reg) (r rm : BitVec 3), s.has .lb = true → roundingOf r s.ct.fp.frm = some rm →
    let g := majFmt f
    let rc : Rc := ⟨rm, s.ct.fp.seed, s.ct.fp.isn, 0⟩
    let x := g.read (s.getX a).toNat
    let y := g.read (s.getX b).toNat
    let z := g.read (s.getX c).toNat
    ∀ q ∈ ([(.fadd f d a b r, g.deliver rc (x.add (rm == 2) y)), (.fsub f d a b r, g.deliver rc (x.add (rm == 2) y.neg)),
        (.fmul f d a b r, g.deliver rc (x.mul y)),
        (.fdiv f d a b r, ((g.deliver rc (x.div y).1).1, (g.deliver rc (x.div y).1).2 ||| (x.div y).2)),
        (.fsqrt f d a r, g.deliver rc x.sqrt), (.fma f d a b c r, g.deliver rc ((x.mul y).add (rm == 2) z))] :
        List (Instr × Nat × FFlags)),
      ∃ t, exec q.1 s = .next t ∧ FpResult s t d q.2 (rm == 5)) ∧
  (∀ (s : State) (f : BitVec 4) (d a b : Reg) (t u : BitVec 5) (c : BitVec 4), s.has .lb = true → ftypeOk t = true →
    let g := majFmt f
    let h := (tyFmt t.toNat).getD .f64
    (∃ z, exec (.fmin f d a b) s = .next z ∧ FpResult s z d (g.minmax false (s.getX a).toNat (s.getX b).toNat) false) ∧
    (∃ z, exec (.fmax f d a b) s = .next z ∧ FpResult s z d (g.minmax true (s.getX a).toNat (s.getX b).toNat) false) ∧
    (∃ z, exec (.fcmp d a b t c) s = .next z ∧
      let k := h.compare c (s.getX a).toNat (s.getX b).toNat
      FpResult s z d (if k.1 then 1 else 0, k.2) false) ∧
    (∃ z, exec (.fclass d a t) s = .next z ∧ ScalarResult s z d (BitVec.ofNat 64 (h.classify (s.getX a).toNat))) ∧
    ∀ (v : BitVec 5) (r rm : BitVec 3), roundingOf r s.ct.fp.frm = some rm → v.toNat ≤ 13 → u.toNat ≤ 13 →
      let k := convert ⟨rm, s.ct.fp.seed, s.ct.fp.isn, 0⟩ u.toNat v.toNat (s.getX a).toNat
      let n := 8 * tyBytes v.toNat
      ∃ z, exec (.fcvt d a v u r) s = .next z ∧
        FpResult s z d ((if v.toNat < 4 then ((BitVec.ofNat n k.1).signExtend 64).toNat else k.1), k.2) (rm == 5))

/-- R123: an addition, subtraction, product, quotient, square root or fused multiply-add whose result is a NaN delivers the canonical NaN of the format,
and so does a conversion to another floating type. -/
def Obligations.CanonicalNan : Prop :=
  ∀ (g : FFmt) (nan : Nat), (g, nan) ∈ [(FFmt.e4m3, 0x7F), (.e5m2, 0x7E), (.bf16, 0x7FC0), (.f16, 0x7E00), (.f32, 0x7FC00000), (.f64, 0x7FF8000000000000)] →
    (∀ (op : Nat) (rc : Rc) (a b : Nat), rc.rm.toNat ≤ 5 → (g.read (g.binop op rc a b).1).isNan = true → (g.binop op rc a b).1 = nan) ∧
    (∀ (rc : Rc) (a : Nat), rc.rm.toNat ≤ 5 → (g.read (g.sqrt rc a).1).isNan = true → (g.sqrt rc a).1 = nan) ∧
    (∀ (rc : Rc) (a b c : Nat), rc.rm.toNat ≤ 5 → (g.read (g.fma rc a b c).1).isNan = true → (g.fma rc a b c).1 = nan) ∧
    ∀ (rc : Rc) (src dst v : Nat), rc.rm.toNat ≤ 5 → tyFmt dst = some g → src ≤ 13 →
      (g.read (convert rc src dst v).1).isNan = true → (convert rc src dst v).1 = nan

-- ## System

/-- R306: SYSC and BRK of U trap SYSCALL and BREAK once the VIQ is empty, with SEPC at the instruction and every fault CSR zero; before that they wait. -/
def Obligations.RequestedTraps : Prop :=
  ∀ (s : State) (n : BitVec 10), s.has .lb = true →
    (s.viqEmpty = true → s.ct.level = .u →
      (∃ t, exec (.sysc n) s = .next t ∧ TrapTaken s t 0x11 s.ct.pc 0 0) ∧ ∃ t, exec (.brk n) s = .next t ∧ TrapTaken s t 0x10 s.ct.pc 0 0) ∧
    (s.viqEmpty = false → (∃ t, exec (.sysc n) s = .next t ∧ Waits s t .drain) ∧ ∃ t, exec (.brk n) s = .next t ∧ Waits s t .drain)

/-- R355: SRET restores the level of SCAUSE.PRV, continues at SEPC with bits 1 and 0 cleared and the landing check of SCAUSE.LPEND, or, where the trap
stopped a vector instruction, goes on with that instruction and its saved entries, after the landing check of the word at SEPC where LPEND asks for
it; with a start in hand it finishes that. Other codes of PRV than 0 act as S (log entry 59). -/
def Obligations.SupervisorReturn : Prop :=
  ∀ s : State, s.ct.level ≠ .u →
    let c := s.ct.sup.scause
    let level : Level := if c.toNat / 2 ^ 19 % 4 = 0 then .u else .s
    (c.getLsbD 15 = false → s.ct.vec.stopped = none →
      ∃ t, exec .sret s = .next t ∧
        t = { s with ct := { s.ct with
          level := level, pc := s.ct.sup.sepc &&& ~~~ 3, ctl := { s.ct.ctl with wait := .none, lpend := c.getLsbD 8, target := none } } }) ∧
    (c.getLsbD 15 = false → ∀ st, s.ct.vec.stopped = some st →
      let back : State := { s with ct := { s.ct with
        level := level, pc := s.ct.sup.sepc &&& ~~~ 3, ctl := { s.ct.ctl with wait := .none, lpend := false, target := none } } }
      let resumed (u t : State) : Prop := t.ct.level = level ∧ t.ct.pc = st.spc ∧ t.ct.ctl.lpend = st.lpend ∧ t.ct.vec.stopped = none ∧
        (st.entry.nested = false → t.ct.vec.viq = s.ct.vec.viq ++ { st.entry with resumed := true } :: st.saved) ∧
        (st.entry.nested = true → ∃ l, t.ct.vec.viq = s.ct.vec.viq ++ l ∧ l.length = st.saved.length ∧
          ∀ (k : Nat) (b : VEntry), st.saved[k]? = some b → ∃ e r, l[k]? = some { b with owed := e, resumed := r }) ∧
        t.ct.vec.vstart = s.ct.vec.vstart ∧ t.ct.x = s.ct.x ∧ t.m = u.m
      (c.getLsbD 8 = false → ∃ t, exec .sret s = .next t ∧ resumed s t) ∧
      (c.getLsbD 8 = true → ∀ w u, fetchWord back back.ct.pc = .ok w u → u.ct = back.ct →
        (isLand w = true → ∃ t, exec .sret s = .next t ∧ resumed u t) ∧
        (isLand w = false → level = .u → ∃ t, exec .sret s = .next t ∧ PlainTrap u t Code.landing))) ∧
    (c.getLsbD 15 = true → exec .sret s = finishStart { s with ct := { s.ct with
      level := level, pc := s.ct.sup.sepc &&& ~~~ 3,
      ctl := { s.ct.ctl with wait := .none, lpend := false, target := none, spend := some s.ct.task.record } } })

/-- R39, Table 16.5: CSRR returns the register, once the VIQ is empty where the table says that it waits; nothing is recorded or replayed. R39, R309 to
R311, Tables 2.7 and 16.5: CSRW keeps the listed bits of its CSR and changes nothing else; a CSR that no level writes traps ILLEGAL, whatever profile
the task declares (log entry 89). R235: translations carry their root, so a CSRW of TROOT drops none. R39, R241: the CSRs from 0x200 on are
firmware's: M reads back what it wrote last to each (log entry 10), and from U and S they trap PRIV. -/
def Obligations.ControlRegisters : Prop :=
  (∀ (s : State) (d : Reg) (n : Nat) (v : Word),
    (n, v) ∈ [(0x000, s.ct.vec.vcfg.word), (0x001, BitVec.ofNat 64 s.ct.vec.vl), (0x002, BitVec.ofNat 64 s.ct.vec.vstart),
      (0x003, s.ct.fp.fstat.setWidth 64), (0x004, s.ct.fp.frm.setWidth 64), (0x005, s.ct.mx.mxflag.setWidth 64), (0x006, s.ct.fp.seed),
      (0x007, if s.ct.ord.detctl then 1 else 0), (0x008, if s.ct.ord.race then 1 else 0), (0x009, s.ct.ord.raceaddr), (0x00A, s.ct.uli.ulivec),
      (0x00B, s.ct.uli.pend.setWidth 64 <<< 32 ||| (if s.ct.uli.err then 0x2000 else 0) ||| s.ct.uli.tag.setWidth 64 <<< 8 |||
        (if s.ct.uli.act then 2 else 0) ||| (if s.ct.uli.mask then 1 else 0)),
      (0x00C, s.ct.task.taskid), (0x00D, BitVec.ofNat 64 s.ct.lcore), (0x100, s.ct.sup.scause), (0x101, s.ct.sup.sepc), (0x102, s.ct.sup.sfva),
      (0x103, s.ct.sup.sfelem), (0x104, s.ct.sup.sfstride), (0x105, s.ct.sup.sfrem), (0x106, s.ct.sup.sfwidth), (0x107, s.ct.sup.troot)] →
    s.has .lb = true → s.has (csrProfile n) = true → (s.ct.level = .u → n < 0x100) →
    (s.el (dieOf s.ct.lcore)).recording = false → (s.el (dieOf s.ct.lcore)).replaying = false →
    (csrReadWaits n = true → s.viqEmpty = true) →
    ∃ t, exec (.csrr d (BitVec.ofNat 10 n)) s = .next t ∧ ScalarResult s t d v) ∧
  (∀ (s : State) (r : Reg),
    let v := s.getX r
    (∀ (n : Nat) (u : State), (n, u) ∈ ([
        (0x002, { s with ct := { s.ct with vec := { s.ct.vec with vstart := v.toNat % 2 ^ 15 } } }),
        (0x003, { s with ct := { s.ct with fp := { s.ct.fp with fstat := v.setWidth 5 } } }),
        (0x004, { s with ct := { s.ct with fp := { s.ct.fp with frm := v.setWidth 3 } } }),
        (0x005, { s with ct := { s.ct with mx := { s.ct.mx with mxflag := v.setWidth 3 } } }),
        (0x006, { s with ct := { s.ct with fp := { s.ct.fp with seed := v } } }),
        (0x007, { s with ct := { s.ct with ord := { s.ct.ord with detctl := v.getLsbD 0 } } }),
        (0x008, { s with ct := { s.ct with ord := { s.ct.ord with race := v.getLsbD 0 } } }),
        (0x00A, { s with ct := { s.ct with uli := { s.ct.uli with ulivec := v } } }),
        (0x00B, { s with ct := { s.ct with uli := { s.ct.uli with pend := v.extractLsb' 32 32, mask := v.getLsbD 0 } } }),
        (0x100, { s with ct := { s.ct with sup := { s.ct.sup with scause := v &&& 0x1EFFFF } } }),
        (0x101, { s with ct := { s.ct with sup := { s.ct.sup with sepc := v &&& ~~~ 3 } } }),
        (0x102, { s with ct := { s.ct with sup := { s.ct.sup with sfva := v } } }),
        (0x103, { s with ct := { s.ct with sup := { s.ct.sup with sfelem := v } } }),
        (0x104, { s with ct := { s.ct with sup := { s.ct.sup with sfstride := v } } }),
        (0x105, { s with ct := { s.ct with sup := { s.ct.sup with sfrem := v } } }),
        (0x106, { s with ct := { s.ct with sup := { s.ct.sup with sfwidth := v &&& 0xFFF } } }),
        (0x107, { s with ct := { s.ct with sup := { s.ct.sup with troot := v &&& 0xFFFFFFFFFF000 } } })] : List (Nat × State)) →
      s.has .lb = true → s.has (csrProfile n) = true → (s.ct.level = .u → n < 0x100) → (csrWriteWaits n = true → s.viqEmpty = true) →
      (n = 0x007 ∨ n = 0x107 → s.m.sbuf = [] ∧ s.m.wcb = [] ∧ s.m.early = [] ∧ s.m.late = []) →
      ∃ t, exec (.csrw r (BitVec.ofNat 10 n)) s = .next t ∧ Passed s u t) ∧
    ∀ n ∈ [0x000, 0x001, 0x009, 0x00C, 0x00D], s.ct.level = .u → ∃ t, exec (.csrw r (BitVec.ofNat 10 n)) s = .next t ∧ PlainTrap s t Code.illegal) ∧
  (∀ (s : State) (r : Reg), s.ct.level ≠ .u → s.viqEmpty = true →
    ∃ t, exec (.csrw r 0x107) s = .next t ∧ t.m.tlb = s.m.tlb ∧ t.m.slines = s.m.slines ∧ t.ct.sup.troot = s.getX r &&& 0xFFFFFFFFFF000) ∧
  (∀ (s : State) (r : Reg) (n : Nat), 0x200 ≤ n → n < 0x400 → s.has .lb = true →
    (s.ct.level = .m →
      (∃ t, exec (.csrr r (BitVec.ofNat 10 n)) s = .next t ∧ ScalarResult s t r (s.fwRead n)) ∧
      ∃ t, exec (.csrw r (BitVec.ofNat 10 n)) s = .next t ∧ t.fwRead n = s.getX r ∧ (∀ k, k ≠ n → t.fwRead k = s.fwRead k) ∧
        t = { s with ct := { s.ct with fwcsr := t.ct.fwcsr, pc := s.ct.pc + 4, ctl := { s.ct.ctl with wait := .none } } }) ∧
    (s.ct.level ≠ .m →
      (exec (.csrr r (BitVec.ofNat 10 n)) s = takeTrap { code := Code.priv } s) ∧
      exec (.csrw r (BitVec.ofNat 10 n)) s = takeTrap { code := Code.priv } s))

/-- R396, R107: WAITE completes where a completion, a containment, a pre-emption or, above U, a job fault of its core is pending, and waits at its word
otherwise. A pre-emption is pending where a record of a lower class number waits at the core, no control thread of the core is free, and the thread
runs the task of the highest class number; with no record waiting or a thread free, none is. -/
def Obligations.WaitForEvent : Prop :=
  ∀ s : State, s.has .lb = true →
    let event := s.ct.uli.pend ≠ 0 ∨ s.ct.ctl.contain = true ∨ preemptPending s = true ∨
      (s.ct.level ≠ .u ∧ ∃ f ∈ s.pkg.jobFaults, f.core = s.ct.lcore)
    (event → ∃ t, exec .waite s = .next t ∧
      t = { s with ct := { s.ct with pc := s.ct.pc + 4, ctl := { s.ct.ctl with wait := .none, waite := none } } }) ∧
    (¬ event → ∃ t, exec .waite s = .next t ∧
      t = { s with ct := { s.ct with ctl := { s.ct.ctl with wait := .event, waite := some s.ct.pc } } }) ∧
    ((∀ k, k < 4 → (s.core s.ct.lcore).deques.toList.getD k [] = []) → preemptPending s = false) ∧
    ((∃ n, n < 4 ∧ (s.thread s.ct.lcore n).status = .free) → preemptPending s = false) ∧
    (∀ k, k < s.ct.task.prio → k < 4 → (s.core s.ct.lcore).deques.toList.getD k [] ≠ [] → s.ct.ctno < 4 → s.ct.status = .running →
      (∀ n, n < 4 → (s.thread s.ct.lcore n).status ≠ .free) →
      s.ct.ctl.spend = none →
      (∀ n, n < 4 → n ≠ s.ct.ctno → (s.thread s.ct.lcore n).task.prio < s.ct.task.prio) → preemptPending s = true)

-- ## Atomics and order

/-- R246, R182, R248, Table 12.1: where its address is ready and nothing is in flight, AMO applies its operation to the bytes at the address, returns
their old value in xd (.i32 sign-extended, the others zero-extended), ORs in the flags of a floating add, and changes no other byte. The core's
cluster takes ownership of a line that may be cached; a release at package scope or wider ends race records; nothing else changes. Where the schedule
lets accesses perform later (R200, log entry 125), an AMO that does not acquire (R204) only leaves its access, which returns its value as it lands.
R247, R248: CAS writes xb where the old value equals xd, and returns the old value in xd either way; one that fails recalls the line and takes it as
one that succeeds does. One that does not acquire may be left to perform later (log entry 125). -/
def Obligations.Atomics : Prop :=
  (∀ (s : State) (d a b : Reg) (sc : BitVec 3) (o : BitVec 2) (p w : BitVec 3) (pa : Nat), s.has .lb = true → Calm s → NoReplay s →
    Memory.wf s.m.mem = true → w.toNat ≤ 4 → ¬ (d = 0 ∧ heldNow s.ct.ord.detctl p w = true) →
    Ready (fun _ => False) s { kind := 3 } (s.getX a) (amoBytes w) pa →
    let n := amoBytes w
    let old := s.numAt pa n
    let r := atomicOp p (amoType w) old (s.getX b).toNat
    let races := if orRel o ∧ 4 ≤ sc.toNat then s.m.races.filter (fun q => q.2 != s.ct.lcore) else s.m.races
    (orAcq o = false → s.defers = true → ∀ q, resolveAligned s.ctx { kind := 3 } (s.getX a) n { s with m := { s.m with races := races } } =
        .ok q { s with m := { s.m with races := races } } → ∃ t, exec (.amo d a b sc o p w) s = .next t ∧
      t = { s with
        ct := { s.ct with pc := s.ct.pc + 4, ctl := { s.ct.ctl with wait := .none } }
        m := { s.m with
          races := races
          late := [{ lcore := s.ct.lcore, ctno := s.ct.ctno, task := s.ct.task.taskid, vec := false, seq := s.ct.ord.opSeq, pa := pa,
                     cached := q.cached, deps := q.deps, op := .update w p (s.getX b), dest := if d = 0 then .none else .amo d w,
                     beforeV := [], scope := none, got := none }] } }) ∧
    (orAcq o = true ∨ s.defers = false → ∃ t, exec (.amo d a b sc o p w) s = .next t ∧
      XResult s t d (if w = 0 then (BitVec.ofNat 32 old).signExtend 64 else BitVec.ofNat 64 old) ∧ BytesSet s t pa n r.1 ∧ SameDies s t ∧
      (t = { s.accessed t with
        ct := { s.ct with
          x := t.ct.x, pc := s.ct.pc + 4, fp := { s.ct.fp with fstat := s.ct.fp.fstat ||| r.2 }, ctl := { s.ct.ctl with wait := .none } }
        m := { (s.accessed t).m with mem := t.m.mem, races := races } }) ∧
      (orRel o = false → ∀ q, resolveAligned s.ctx { kind := 3 } (s.getX a) n s = .ok q s → q.cached = true →
        (lineOf pa, clusterOf s.ct.lcore) ∈ t.m.owners))) ∧
  (∀ (s : State) (d a b : Reg) (sc : BitVec 3) (o : BitVec 2) (w : BitVec 1) (pa : Nat), s.has .lb = true → Calm s → NoReplay s →
    Memory.wf s.m.mem = true → Ready (fun _ => False) s { kind := 3 } (s.getX a) (if w = 0 then 4 else 8) pa →
    let n := if w = 0 then 4 else 8
    let old := s.numAt pa n
    let races := if orRel o ∧ 4 ≤ sc.toNat then s.m.races.filter (fun q => q.2 != s.ct.lcore) else s.m.races
    (orAcq o = false → s.defers = true → ∀ q, resolveAligned s.ctx { kind := 3 } (s.getX a) n { s with m := { s.m with races := races } } =
        .ok q { s with m := { s.m with races := races } } → ∃ t, exec (.cas d a b sc o w) s = .next t ∧
      t = { s with
        ct := { s.ct with pc := s.ct.pc + 4, ctl := { s.ct.ctl with wait := .none } }
        m := { s.m with
          races := races
          late := [{ lcore := s.ct.lcore, ctno := s.ct.ctno, task := s.ct.task.taskid, vec := false, seq := s.ct.ord.opSeq, pa := pa,
                     cached := q.cached, deps := q.deps, op := .cas n ((s.getX d).toNat % 2 ^ (8 * n)) ((s.getX b).toNat % 2 ^ (8 * n)),
                     dest := .amo d (if w = 0 then 0 else 1), beforeV := [], scope := none, got := none }] } }) ∧
    (orAcq o = true ∨ s.defers = false → ∃ t, exec (.cas d a b sc o w) s = .next t ∧
      XResult s t d (if w = 0 then (BitVec.ofNat 32 old).signExtend 64 else BitVec.ofNat 64 old) ∧ SameDies s t ∧
      (old = (s.getX d).toNat % 2 ^ (8 * n) → BytesSet s t pa n (s.getX b).toNat) ∧
      (old ≠ (s.getX d).toNat % 2 ^ (8 * n) → SameBytes s t) ∧
      (t = { s.accessed t with
        ct := { s.ct with x := t.ct.x, pc := s.ct.pc + 4, ctl := { s.ct.ctl with wait := .none } }
        m := { (s.accessed t).m with mem := t.m.mem, races := races } }) ∧
      (orRel o = false → ∀ q, resolveAligned s.ctx { kind := 3 } (s.getX a) n s = .ok q s → q.cached = true →
        (lineOf pa, clusterOf s.ct.lcore) ∈ t.m.owners)))

/-- R202, R203, R224, R225: a FENCE.vs or .all waits for the vector accesses, and at .s for every back-invalidate that the host has to answer (log entry
87); .sv and .vv stall the scalar stream in no mode, and outside Bronze mode mark the thread's buffered stores, and the accesses that it has left to
perform late, of the scalar or the vector stream with their interval and scope, at which these perform before a vector access that begins later. Where
nothing is in flight a FENCE opens the next fence interval, .vv also marks the memory entries of the VIQ that have not executed and the fills that
still read, .sv and .vv at .s hold later vector accesses for the host too, and FENCE.all at package scope or wider ends the core's race records. After
any kind in Bronze mode the thread has nothing buffered. After .vs its vector accesses, and after .all all its accesses, have performed at the scope:
none of its stores is left at .p and each that is left at a narrower one is marked as performed for its agents (R199, log entry 120), and so is each
access left to perform late. -/
def Obligations.Fences : Prop :=
  ∀ (s : State) (sc : BitVec 3) (k : BitVec 2), s.has .lo = true →
    let queued (e : VEntry) : VEntry :=
      if isVecMem e.instr = true ∧ (e.done = none ∨ e.nested = true) then { e with vv := e.vv ++ [(s.ct.ord.fenceIvl, sc.toNat)] } else e
    (fenceWaits k s = true → ∃ t, exec (.fence sc k) s = .next t ∧ Waits s t .drain) ∧
    (k = 0 ∨ k = 2 → ∃ t, exec (.fence sc k) s = .next t ∧ t.ct.pc = s.ct.pc + 4 ∧ t.ct.x = s.ct.x ∧
      (s.ct.ord.detctl = false → SameBytes s t ∧
        (t.m.sbuf = s.m.sbuf.map fun e =>
          if s.mine e = true ∧ e.vec = (k == 2) then { e with beforeV := e.beforeV ++ [(s.ct.ord.fenceIvl, sc.toNat)] } else e) ∧
        t.m.late = s.m.late.map fun l =>
          if s.myLate l = true ∧ l.vec = (k == 2) then { l with beforeV := l.beforeV ++ [(s.ct.ord.fenceIvl, sc.toNat)] } else l)) ∧
    (sc = 5 → k = 1 ∨ k = 3 → fenceWaits k s = false → s.m.sbuf = [] → s.m.wcb = [] → s.m.late = [] → hostQuiet s = false →
      ∃ t, exec (.fence sc k) s = .next t ∧ Waits s t .drain) ∧
    (fenceWaits k s = false → Calm s → ∃ t, exec (.fence sc k) s = .next t ∧
      t = { s with
        ct := { s.ct with
          pc := s.ct.pc + 4
          vec := if k = 2 then { s.ct.vec with viq := s.ct.vec.viq.map queued } else s.ct.vec
          ord := { s.ct.ord with
            fenceIvl := s.ct.ord.fenceIvl + 1
            vhold := if (k = 0 ∨ k = 2) ∧ sc = 5 then s.ct.ord.vhold ++ [s.ct.ord.fenceIvl] else s.ct.ord.vhold
            vvJobs := if k = 2 then s.ct.ord.vvJobs ++ (readingFills s).map fun j => (j, s.ct.ord.fenceIvl) else s.ct.ord.vvJobs
            vvOpen := if k = 2 then !vecQuiet s else s.ct.ord.vvOpen }
          ctl := { s.ct.ctl with wait := .none } }
        m := { s.m with races := if k = 3 ∧ 4 ≤ sc.toNat then s.m.races.filter (fun r => r.2 != s.ct.lcore) else s.m.races } }) ∧
    (fenceWaits k s = false → sc.toNat ≤ 4 → ∃ t, exec (.fence sc k) s = .next t ∧ t.ct.pc = s.ct.pc + 4 ∧ t.ct.x = s.ct.x ∧
      (s.ct.ord.detctl = true → (∀ e ∈ t.m.sbuf, s.mine e = false) ∧ ∀ l ∈ t.m.wcb, s.myLine l = false) ∧
      (k = 1 ∨ k = 3 →
        (∀ e ∈ t.m.sbuf, s.mine e = true → (k = 3 ∨ e.vec = true) → sc.toNat < 4 ∧ ∃ n, e.scope = some n ∧ sc.toNat ≤ n) ∧
        ∀ l ∈ t.m.late, s.myLate l = true → l.got = none → (k = 3 ∨ l.vec = true) → sc.toNat < 4 ∧ ∃ n, l.scope = some n ∧ sc.toNat ≤ n))

-- ## Groups and the ring

/-- R319 to R322, Table 4.9: GJOIN makes the task a member and GLEAVE ends its membership; GSYNC records one arrival and waits while a member has not
arrived, and completes once the phase of its arrival has. Other groups and all else are unchanged. -/
def Obligations.GroupMembership : Prop :=
  ∀ (s : State) (a : Reg) (g : Nat), s.has .lt = true → g = (s.getX a).toNat → g < 4096 → groupLost s g = false →
    (groupRefuses s g .join s.ct.task.taskid = false → s.m.wcb = [] →
      ∃ t, exec (.gjoin a) s = .next t ∧ (t.group g).has s.ct.task.taskid = true ∧ (t.group g).phase = (s.group g).phase ∧
        (∀ h, h ≠ g → t.group h = s.group h) ∧ SameDies s t ∧
        t = { s with
          ct := { s.ct with pc := s.ct.pc + 4, ctl := { s.ct.ctl with wait := .none } }
          dies := t.dies
          pkg := { s.pkg with groups := t.pkg.groups } }) ∧
    (groupRefuses s g .leave s.ct.task.taskid = false → vecQuiet s = true → Calm s →
      (∃ m ∈ (s.group g).members, m.who.task ≠ s.ct.task.taskid ∧ m.arrived = false) →
      ∃ t, exec (.gleave a) s = .next t ∧ (t.group g).has s.ct.task.taskid = false ∧ (t.group g).phase = (s.group g).phase ∧
        (∀ h, h ≠ g → t.group h = s.group h) ∧ SameDies s t ∧
        t = { s with
          ct := { s.ct with
            pc := s.ct.pc + 4, ord := { s.ct.ord with fenceIvl := s.ct.ord.fenceIvl + 1 }, ctl := { s.ct.ctl with wait := .none } }
          m := { s.m with races := s.m.races.filter fun r => r.2 != s.ct.lcore }
          dies := t.dies
          pkg := { s.pkg with groups := t.pkg.groups } }) ∧
    (groupRefuses s g .arrive s.ct.task.taskid = false → vecQuiet s = true → Calm s → arrivalAt s = none →
      (∃ m ∈ (s.group g).members, m.who.task ≠ s.ct.task.taskid ∧ m.arrived = false) →
      ∃ t, exec (.gsync a) s = .next t ∧ (t.group g).phase = (s.group g).phase ∧
        (∀ m ∈ (t.group g).members, m.who.task = s.ct.task.taskid → m.arrived = true) ∧
        ((t.group g).members.map (·.who.task) = (s.group g).members.map (·.who.task)) ∧
        (∀ h, h ≠ g → t.group h = s.group h) ∧ SameDies s t ∧
        t = { s with
          ct := { s.ct with
            ord := { s.ct.ord with fenceIvl := s.ct.ord.fenceIvl + 1 }
            ctl := { s.ct.ctl with wait := .group, gwait := s.ct.ctl.gwait ++ [(g, (s.group g).phase, s.ct.pc)] } }
          m := { s.m with races := s.m.races.filter fun r => r.2 != s.ct.lcore }
          dies := t.dies
          pkg := { s.pkg with groups := t.pkg.groups } }) ∧
    (∀ ph, arrivalAt s = some (g, ph) → ph < (s.group g).phase → s.m.early = [] →
      ∃ t, exec (.gsync a) s = .next t ∧
        t = { s with ct := { s.ct with
          pc := s.ct.pc + 4, ctl := { s.ct.ctl with wait := .none, gwait := s.ct.ctl.gwait.filter fun w => w.2.2 != s.ct.pc } } })

/-- R325, R106: IPOST raises the value at the channel's order point to the greater of the two and hands the next version to the ring; it completes then.
Where the schedule leaves stores in flight it waits meanwhile, for one step, with its post under way: that is the model's choice (log entry 70). IWAIT
goes on where its die's copy has reached the value, and blocks otherwise. -/
def Obligations.IterationRing : Prop :=
  (∀ (s : State) (c a : Reg), s.has .lt = true → c.toNat < 16 → s.pkg.parked = [] →
    let posted (t : State) (c : Nat) (v : Word) : Prop :=
      let k := s.pkg.chans.toList.getD c Channel.reset
      (t.pkg.chans.toList.getD c Channel.reset).value.toNat = max k.value.toNat v.toNat ∧
      (t.pkg.chans.toList.getD c Channel.reset).version = k.version + 1 ∧
      (∀ h, h ≠ c → t.pkg.chans.toList.getD h Channel.reset = s.pkg.chans.toList.getD h Channel.reset)
    (s.ct.ctl.post = none → vecQuiet s = true → Calm s → s.sched.deferStores = false →
      ∃ t, exec (.ipost c a) s = .next t ∧ posted t c.toNat (s.getX a) ∧ SameDies s t ∧
        t = { s with
          ct := { s.ct with
            pc := s.ct.pc + 4, ord := { s.ct.ord with fenceIvl := s.ct.ord.fenceIvl + 1 }, ctl := { s.ct.ctl with wait := .none } }
          m := { s.m with races := s.m.races.filter fun r => r.2 != s.ct.lcore }
          dies := t.dies
          pkg := { s.pkg with chans := t.pkg.chans }
          pending := t.pending }) ∧
    (s.ct.ctl.post = none → vecQuiet s = true → Calm s → s.sched.deferStores = true →
      ∃ t, exec (.ipost c a) s = .next t ∧ SameDies s t ∧
        t = { s with
          ct := { s.ct with
            ord := { s.ct.ord with fenceIvl := s.ct.ord.fenceIvl + 1 }
            ctl := { s.ct.ctl with wait := .ring, post := some (c.toNat, s.getX a) } }
          m := { s.m with races := s.m.races.filter fun r => r.2 != s.ct.lcore }
          dies := t.dies }) ∧
    ∀ k v, k < 16 → s.ct.ctl.post = some (k, v) →
      ∃ t, exec (.ipost c a) s = .next t ∧ posted t k v ∧ SameDies s t ∧
        t = { s with
          ct := { s.ct with pc := s.ct.pc + 4, ctl := { s.ct.ctl with wait := .none, post := none } }
          dies := t.dies
          pkg := { s.pkg with chans := t.pkg.chans }
          pending := t.pending }) ∧
  ∀ (s : State) (c a : Reg), s.has .lt = true →
    let v := (ringCopy s (dieOf s.ct.lcore) c.toNat).1
    (s.getX a ≤ v → s.m.early = [] → ∃ t, exec (.iwait c a) s = .next t ∧ MovedTo s t (s.ct.pc + 4)) ∧
    (v < s.getX a → ∃ t, exec (.iwait c a) s = .next t ∧ Waits s t .ring)

-- ## Queues

/-- R352, R75: QPUSH appends to q0 to q3, QPOP takes the oldest value of q4 to q7, and each blocks on a full or an empty queue; QPUSH to another queue
traps QUEUE. R77: QCNT returns the number of values in the queue as it executes, 0 to 8 where no queue holds more; nothing is recorded or replayed. -/
def Obligations.Queues : Prop :=
  (∀ (s : State) (d a q : Reg), s.has .lv = true → q.toNat < 8 →
    (q.toNat < 4 → (s.queue q.toNat).length < 8 → ∃ t, exec (.qpush q a) s = .next t ∧ t.queue q.toNat = s.queue q.toNat ++ [s.getX a] ∧
      (∀ r, r ≠ q.toNat → t.queue r = s.queue r) ∧
      t = { s with ct := { s.ct with
        pc := s.ct.pc + 4, vec := { s.ct.vec with queues := t.ct.vec.queues }, ctl := { s.ct.ctl with wait := .none } } }) ∧
    (q.toNat < 4 → 8 ≤ (s.queue q.toNat).length → ∃ t, exec (.qpush q a) s = .next t ∧ Waits s t .queue) ∧
    (4 ≤ q.toNat → s.ct.level = .u → ∃ t, exec (.qpush q a) s = .next t ∧ PlainTrap s t Code.queue) ∧
    (∀ v r, s.queue q.toNat = v :: r → ∃ t, exec (.qpop d q) s = .next t ∧ XResult s t d v ∧ t.queue q.toNat = r ∧
      (∀ k, k ≠ q.toNat → t.queue k = s.queue k) ∧
      t = { s with ct := { s.ct with
        x := t.ct.x, pc := s.ct.pc + 4, vec := { s.ct.vec with queues := t.ct.vec.queues }, ctl := { s.ct.ctl with wait := .none } } }) ∧
    (s.queue q.toNat = [] → ∃ t, exec (.qpop d q) s = .next t ∧ Waits s t .queue)) ∧
  (∀ (s : State) (d q : Reg), s.has .lv = true → q.toNat < 8 → NoReplay s → (s.queue q.toNat).length ≤ 8 →
    ∃ t v, exec (.qcnt d q) s = .next t ∧ ScalarResult s t d v ∧ v.toNat = (s.queue q.toNat).length ∧ v.toNat ≤ 8)

-- ## Tasks

/-- R358, R100: where the running task's record and the new one are ready to be read and written, TALLOC copies the record into the lowest free one of its
core's pool, with CONT and SLOT 0 and JOIN 1 in CTL, takes that record from the pool and returns its address; with no free record it traps RESOURCE,
after the record at tr has been read (log entry 111). TFREE gives a record back, and traps ALIGN or RESOURCE on an address that is none. -/
def Obligations.TaskRecords : Prop :=
  (∀ (s : State) (d : Reg) (k pr pw : Nat), s.has .lt = true → Calm s → Memory.wf s.m.mem = true → s.ct.ord.detctl = false →
    s.sched.deferStores = false → s.ct.lcore < 128 → freeRecord (s.core s.ct.lcore) = some k →
    let at_ := s.pkg.recRegion + BitVec.ofNat 64 (16384 * s.ct.lcore + 64 * k)
    let may := fun a => pw ≤ a ∧ a < pw + 64
    (∀ i, i < 8 → Ready may s { kind := 1, plain := true } (s.getX 2 + BitVec.ofNat 64 (8 * i)) 8 (pr + 8 * i)) →
    (∀ i, i < 8 → Ready may s { kind := 2, plain := true } (at_ + BitVec.ofNat 64 (8 * i)) 8 (pw + 8 * i)) →
    ∃ t, exec (.talloc d) s = .next t ∧ XResult s t d at_ ∧ SameBytesOutside s t pw 64 ∧
      (∀ i, i < 7 → t.numAt (pw + 8 * i) 8 = s.numAt (pr + 8 * i) 8) ∧
      (let c := Ctl.parse (s.numAt (pr + 56) 8)
       Ctl.parse (t.numAt (pw + 56) 8) = { c with cont := 0, slot := 0, join := 1 }) ∧
      (t.core s.ct.lcore).pool = (s.core s.ct.lcore).pool &&& ~~~ (1#256 <<< k) ∧ (∀ c, c ≠ s.ct.lcore → t.core c = s.core c) ∧
      SameDies s t ∧
      t = { s.accessed t with
        ct := { s.ct with x := t.ct.x, pc := s.ct.pc + 4, ctl := { s.ct.ctl with wait := .none } }
        cores := t.cores
        m := { (s.accessed t).m with mem := t.m.mem }
        pkg := { s.pkg with contKeys := s.pkg.contKeys.filter fun q => !(q.troot == s.ct.sup.troot && q.va == at_) } }) ∧
  (∀ (s : State) (d : Reg) (pr : Nat), s.has .lt = true → s.ct.level = .u → Calm s → freeRecord (s.core s.ct.lcore) = none →
    (∀ i, i < 8 → Ready (fun _ => False) s { kind := 1, plain := true } (s.getX 2 + BitVec.ofNat 64 (8 * i)) 8 (pr + 8 * i)) →
    ∃ t, exec (.talloc d) s = .next t ∧ PlainTrap (s.accessed t) t Code.resource ∧ SameDies s t) ∧
  ∀ (s : State) (a : Reg), s.has .lt = true →
    let off := (s.getX a - s.pkg.recRegion).toNat
    ((s.getX a).toNat % 64 = 0 → off < 2 ^ 21 →
      ∃ t, exec (.tfree a) s = .next t ∧ (t.core (off / 2 ^ 14)).pool = (s.core (off / 2 ^ 14)).pool ||| (1#256 <<< (off % 2 ^ 14 / 64)) ∧
        (∀ c, c ≠ off / 2 ^ 14 → t.core c = s.core c) ∧ SameDies s t ∧
        t = { s with
          ct := { s.ct with pc := s.ct.pc + 4, ctl := { s.ct.ctl with wait := .none } }
          cores := t.cores
          dies := t.dies
          pkg := { s.pkg with contKeys := s.pkg.contKeys.filter fun q => !(q.troot == s.ct.sup.troot && q.va == s.getX a) } }) ∧
    ((s.getX a).toNat % 64 ≠ 0 → s.ct.level = .u → ∃ t, exec (.tfree a) s = .next t ∧ PlainTrap s t Code.align) ∧
    ((s.getX a).toNat % 64 = 0 → 2 ^ 21 ≤ off → s.ct.level = .u → ∃ t, exec (.tfree a) s = .next t ∧ PlainTrap s t Code.resource)

/-- R101, R359: TSPAWN pushes a record at the bottom of its class on the core's deque, with the caller's root and chunk; where it names a continuation the
record's CONT is set to it, and the caller's own continuation moves on to that record's CTL. Deques with room are meant, and records that are ready; a
record that R101 refuses traps RESOURCE. -/
def Obligations.TaskSpawn : Prop :=
  ∀ (s : State) (a b : Reg) (pc : Nat), s.has .lt = true → vecQuiet s = true → Calm s → Memory.wf s.m.mem = true → s.ct.ord.detctl = false →
    s.sched.deferStores = false → s.ct.lcore < 128 → (s.getX a).toNat % 64 = 0 → (s.getX b).toNat % 64 = 0 → hwCount (s.core s.ct.lcore) < 64 →
    let tr := s.getX a
    let cont := s.getX b
    let c := Ctl.parse (s.numAt pc 8)
    let pushed (t : State) : Prop := ∃ key born,
      (t.core s.ct.lcore).deques.toList.getD c.prio [] =
        (s.core s.ct.lcore).deques.toList.getD c.prio [] ++ [⟨.record tr s.ct.task.chunk s.ct.sup.troot key none, false, false, born⟩] ∧
      (∀ k, k ≠ c.prio → (t.core s.ct.lcore).deques.toList.getD k [] = (s.core s.ct.lcore).deques.toList.getD k []) ∧
      (∀ k, k ≠ s.ct.lcore → t.core k = s.core k) ∧ SameDies s t ∧
      t = { s.accessed t with
        ct := { s.ct with
          pc := s.ct.pc + 4
          task := { s.ct.task with spawns := s.ct.task.spawns + 1, cont := t.ct.task.cont }
          ord := { s.ct.ord with fenceIvl := s.ct.ord.fenceIvl + 1 }
          ctl := { s.ct.ctl with wait := .none } }
        cores := t.cores
        m := { (s.accessed t).m with mem := t.m.mem, races := s.m.races.filter fun r => r.2 != s.ct.lcore }
        pkg := { s.pkg with chunks := t.pkg.chunks, contKeys := t.pkg.contKeys, idCtr := t.pkg.idCtr } }
    (∀ pk, (∀ x, x < pc + 8 ∧ pc ≤ x → x < pk ∨ pk + 8 ≤ x) →
      let may := fun x => (pc ≤ x ∧ x < pc + 8) ∨ (pk ≤ x ∧ x < pk + 8)
      Ready may s { kind := 1, plain := true } (tr + 0x38) 8 pc → Ready may s { kind := 2, plain := true } (tr + 0x38) 8 pc →
      (8 < c.accmin ∨ 5 < c.slot → s.ct.level = .u →
        ∃ t, exec (.tspawn a b) s = .next t ∧ PlainTrap (s.accessed t) t Code.resource ∧ SameDies s t) ∧
      (c.accmin ≤ 8 → c.slot ≤ 5 → cont = 0 → ∃ t, exec (.tspawn a b) s = .next t ∧ pushed t ∧ SameBytes s t ∧ t.ct.task.cont = s.ct.task.cont) ∧
      (c.accmin ≤ 8 → c.slot ≤ 5 → cont ≠ 0 → contReachable s tr cont = true → s.ct.task.cont = none →
        ∃ t, exec (.tspawn a b) s = .next t ∧ pushed t ∧ t.ct.task.cont = none ∧
          BytesSet s t pc 8 (putBits (BitVec.ofNat 64 (s.numAt pc 8)) 0 16 ((cont - tr).toInt / 64 % 65536).toNat).toNat) ∧
      (∀ cc, c.accmin ≤ 8 → c.slot ≤ 5 → cont ≠ 0 → contReachable s tr cont = true → s.ct.task.cont = some cc →
        Ready may s { kind := 1, plain := true } (cont + 0x38) 8 pk → Ready may s { kind := 2, plain := true } (cont + 0x38) 8 pk →
        ∃ t, exec (.tspawn a b) s = .next t ∧ pushed t ∧ t.ct.task.cont = none ∧
          (Ctl.parse (t.numAt pk 8)).cont = (cc - cont).toInt / 64 ∧ (Ctl.parse (t.numAt pk 8)).slot = s.ct.task.slot % 8 ∧
          (Ctl.parse (t.numAt pc 8)).cont = (cont - tr).toInt / 64 ∧
          ∀ x, ¬ may x → t.byteAt x = s.byteAt x))

/-- R102, R360: TEND of a task with nothing left to wait for frees its control thread; where the task has a continuation it stores its result in the
continuation's slot and takes one from JOIN, and the delivery that brings JOIN to 0 pushes the continuation. A kept error traps first (R190), in a
record of KIND 0 and ENG 0 (log entry 137). -/
def Obligations.TaskEnd : Prop :=
  ∀ (s : State) (a : Reg), s.has .lt = true → s.ct.status = .running → s.ct.lcore < 128 →
    (s.viqEmpty = false → ∃ t, exec (.tend a) s = .next t ∧ Waits s t .ending) ∧
    (s.viqEmpty = true → jobsOf s s.ct.lcore s.ct.task.taskid ≠ [] → ∃ t, exec (.tend a) s = .next t ∧ Waits s t .job) ∧
    (s.viqEmpty = true → jobsOf s s.ct.lcore s.ct.task.taskid = [] →
      (∀ e r, s.ct.uli.errs = e :: r → s.ct.level = .u → ∃ t, exec (.tend a) s = .next t ∧
        ReportTaken { s with ct := { s.ct with uli := { s.ct.uli with errs := r } } } t (e.code.setWidth 64) s.ct.pc e.addr) ∧
      (s.ct.uli.errs = [] → Calm s → groupsOf s s.ct.task.taskid = [] → s.ct.task.stashLen = 0 → s.ct.task.chunk = none →
        (s.ct.task.cont = none → ∃ t, exec (.tend a) s = .next t ∧ t.ct.status = .free ∧
          t = { s with
            ct := s.ct.freed
            cores := t.cores
            m := { s.m with races := s.m.races.filter fun r => r.2 != s.ct.lcore } }) ∧
        ∀ (c : Word) (pv pc : Nat), s.ct.task.cont = some c → Memory.wf s.m.mem = true → (pv + 8 ≤ pc ∨ pc + 8 ≤ pv) →
          let may := fun x => (pc ≤ x ∧ x < pc + 8) ∨ (pv ≤ x ∧ x < pv + 8)
          Ready may s { kind := 3 } (c + BitVec.ofNat 64 (8 + 8 * s.ct.task.slot)) 8 pv → Ready may s { kind := 3 } (c + 0x38) 8 pc →
          hwCount (s.core s.ct.lcore) < 64 →
          let k := Ctl.parse (s.numAt pc 8)
          1 ≤ k.join →
          ∃ t, exec (.tend a) s = .next t ∧ t.ct = s.ct.freed ∧ t.numAt pv 8 = (s.getX a).toNat ∧
            Ctl.parse (t.numAt pc 8) = { k with join := k.join - 1 } ∧ (∀ x, ¬ may x → t.byteAt x = s.byteAt x) ∧
            SameDies s t ∧ t.others = s.others ∧ t.pkg.groups = s.pkg.groups ∧ t.pkg.launches = s.pkg.launches ∧
            (2 ≤ k.join → (t.core s.ct.lcore).deques = (s.core s.ct.lcore).deques) ∧
            (k.join = 1 → ∃ key born, (t.core s.ct.lcore).deques.toList.getD k.prio [] =
              (s.core s.ct.lcore).deques.toList.getD k.prio [] ++ [⟨.record c none s.ct.sup.troot key none, false, false, born⟩])))

/-- R103, R361: TPARK frees the control thread and keeps the task's record until its event: the completion of the group's phase after the task's arrival,
the channel's value, or the completion of the tag's jobs, which has occurred where the task has none (its record is then read for its class, and meant
to lie in the record region). An instance traps RESOURCE, before any check of its event (log entry 112). -/
def Obligations.TaskPark : Prop :=
  ∀ (s : State) (c a : Reg), s.has .lt = true → s.viqEmpty = true →
    (s.ct.task.isInst = true → s.ct.level = .u →
      ∀ i ∈ ([.tparkGroup a, .tparkRing c a, .tparkTag a] : List Instr), ∃ t, exec i s = .next t ∧ PlainTrap s t Code.resource) ∧
    (s.ct.task.isInst = false → s.ct.level = .u → 32 ≤ (s.getX a).toNat → ∃ t, exec (.tparkTag a) s = .next t ∧ PlainTrap s t Code.illegal) ∧
    (s.ct.task.isInst = false → vecQuiet s = true → Calm s → s.pkg.parked = [] → jobsOf s s.ct.lcore s.ct.task.taskid = [] →
      s.ct.task.stashLen = 0 →
      let held (t : State) (p : Parked) : Prop := t.ct = s.ct.freed ∧ t.pkg.parked = [p] ∧ p.core = s.ct.lcore ∧
        p.task.taskid = s.ct.task.taskid ∧ p.task.record = s.getX 2 ∧ p.troot = s.ct.sup.troot ∧ p.errs = s.ct.uli.errs ∧
        SameBytes s t ∧ SameDies s t ∧ t.others = s.others ∧ t.pkg.chunks = s.pkg.chunks
      (∀ g, g = (s.getX a).toNat → g < 4096 → groupLost s g = false → groupRefuses s g .park s.ct.task.taskid = false →
        (∃ m ∈ (s.group g).members, m.who.task ≠ s.ct.task.taskid ∧ m.arrived = false) →
        ∃ t p, exec (.tparkGroup a) s = .next t ∧ held t p ∧ p.event = .group g (s.group g).phase ∧ p.pushed = false ∧
          ∀ m ∈ (t.group g).members, m.who.task = s.ct.task.taskid → m.arrived = true) ∧
      ((ringCopy s (dieOf s.ct.lcore) c.toNat).1 < s.getX a →
        ∃ t p, exec (.tparkRing c a) s = .next t ∧ held t p ∧ p.event = .ring c.toNat (s.getX a) ∧ p.pushed = false) ∧
      ((s.getX a).toNat < 32 → s.ct.lcore < 128 → hwCount (s.core s.ct.lcore) < 64 → (s.getX 2 + 0x38 - s.pkg.recRegion).toNat < 2 ^ 21 →
        ∃ t p, exec (.tparkTag a) s = .next t ∧ held t p ∧ p.event = .tag (s.getX a).toNat ∧ p.pushed = true))

-- ## Stash

/-- R180, Tables 9.3 and 9.4: SMAP maps the range line by line without touching memory, beside whatever lines are mapped already; SUNMAP ends the mappings
inside its range and leaves the range zero, and of the lines of the range it writes each DIRTY one back to its global line, while MAPPED and CLEAN
ones write nothing; SFLUSH writes a DIRTY line of its range back to its global line and leaves it CLEAN, mapped as before. -/
def Obligations.StashMapping : Prop :=
  ∀ (s : State) (a b c : Reg) (off : Nat), s.has .lt = true → s.viqEmpty = true → (s.getX a).toNat % 64 = 0 →
    (∀ len : Word, len = s.getX c → len.toNat % 64 = 0 → len ≠ 0 → (s.getX b).toNat % 64 = 0 → windowOf (s.getX b) = .global →
      Calm { s with m := { s.m with slines := [] } } → stashRange s (s.getX a) len = some off → jobOverlaps s off len.toNat = false → s.ct.task.maps.length < 16 →
      (∀ m ∈ s.ct.task.maps, m.off + m.len ≤ off ∨ off + len.toNat ≤ m.off) →
      ∃ t, exec (.smap a b c) s = .next t ∧
        (∀ k, k < len.toNat / 64 →
          let at_ := stashPa s.ct.lcore (s.ct.task.stashBase + off) + 64 * k
          t.m.slines[s.m.slines.length + k]? =
            some { at_ := at_, state := .mapped, va := s.getX b + BitVec.ofNat 64 (64 * k), pa := at_, troot := s.ct.sup.troot, deps := [] }) ∧
        t.m.slines.take s.m.slines.length = s.m.slines ∧ t.m.slines.length = s.m.slines.length + len.toNat / 64 ∧
        t = { s with
          ct := { s.ct with
            pc := s.ct.pc + 4
            task := { s.ct.task with maps := s.ct.task.maps ++ [⟨off, len.toNat, s.getX b⟩] }
            ctl := { s.ct.ctl with wait := .none } }
          m := { s.m with slines := t.m.slines } }) ∧
    (∀ len : Word, len = s.getX b → len.toNat % 64 = 0 → len ≠ 0 → stashRange s (s.getX a) len = some off →
      jobOverlaps s off len.toNat = false → (∀ m ∈ s.ct.task.maps, m.meets off len.toNat = true → m.inside off len.toNat = true) →
      let lo := stashPa s.ct.lcore (s.ct.task.stashBase + off)
      (Calm s → Memory.wf s.m.mem = true → ∃ t, exec (.sunmap a b) s = .next t ∧
        (∀ k, k < len.toNat → t.byteAt (lo + k) = 0) ∧ SameBytesOutside s t lo len.toNat ∧ SameDies s t ∧
        t = { s.accessed t with
          ct := { s.ct with
            pc := s.ct.pc + 4
            task := { s.ct.task with maps := s.ct.task.maps.filter fun m => !m.inside off len.toNat }
            ctl := { s.ct.ctl with wait := .none } }
          m := { (s.accessed t).m with mem := t.m.mem } }) ∧
      (Calm { s with m := { s.m with slines := [] } } → Memory.wf s.m.mem = true → (s.m.slines.map (·.at_)).Nodup →
        (∀ l ∈ s.m.slines, lo ≤ l.at_ ∧ l.at_ + 64 ≤ lo + len.toNat) →
        (∀ l ∈ s.m.slines, l.state = .dirty → (l.pa + 64 ≤ lo ∨ lo + len.toNat ≤ l.pa) ∧ atHome l.pa s = .ok () s) →
        (∀ l ∈ s.m.slines, ∀ o ∈ s.m.slines, l.state = .dirty → o.state = .dirty → l.at_ ≠ o.at_ → l.pa + 64 ≤ o.pa ∨ o.pa + 64 ≤ l.pa) →
        ∃ t, exec (.sunmap a b) s = .next t ∧ (∀ k, k < len.toNat → t.byteAt (lo + k) = 0) ∧
          (∀ l ∈ s.m.slines, l.state = .dirty → ∀ k, k < 64 → t.byteAt (l.pa + k) = s.byteAt (l.at_ + k)) ∧
          (∀ x, (x < lo ∨ lo + len.toNat ≤ x) → (∀ l ∈ s.m.slines, l.state = .dirty → x < l.pa ∨ l.pa + 64 ≤ x) → t.byteAt x = s.byteAt x) ∧
          SameDies s t ∧
          t = { s.accessed t with
            ct := { s.ct with
              pc := s.ct.pc + 4
              task := { s.ct.task with maps := s.ct.task.maps.filter fun m => !m.inside off len.toNat }
              ctl := { s.ct.ctl with wait := .none } }
            m := { (s.accessed t).m with mem := t.m.mem, slines := [] } }) ∧
      (∀ l : SLine, Calm { s with m := { s.m with slines := [] } } → Memory.wf s.m.mem = true → s.m.slines = [l] → l.state = .dirty →
        lo ≤ l.at_ → l.at_ < lo + len.toNat → (l.at_ + 64 ≤ l.pa ∨ l.pa + 64 ≤ l.at_) → atHome l.pa s = .ok () s →
        ∃ t, exec (.sflush a b) s = .next t ∧ (∀ k, k < 64 → t.byteAt (l.pa + k) = s.byteAt (l.at_ + k)) ∧ SameBytesOutside s t l.pa 64 ∧
          SameDies s t ∧
          t = { s with
            ct := { s.ct with pc := s.ct.pc + 4, ctl := { s.ct.ctl with wait := .none } }
            m := { s.m with mem := t.m.mem, slines := [{ l with state := .clean }] }
            dies := t.dies }) ∧
      (Calm s → ∃ t, exec (.sflush a b) s = .next t ∧ MovedTo s t (s.ct.pc + 4)))

-- ## Handlers, marks, nests, tables, engines

/-- R193: URET, the word 0x7800_0013, returns to the shadow k0 with bits 1 and 0 cleared, switches back to the main k0 to k7, sets ACT to 0, and leaves no
landing check; with ACT = 0, or in a handler entered by reflection (R362), it traps ILLEGAL. -/
def Obligations.UserHandlerReturn : Prop :=
  decode 0x78000013 = some .uret ∧
  ∀ s : State, s.has .lx = true →
    (s.ct.uli.act = true → s.ct.task.reflected = false →
      ∃ t, exec .uret s = .next t ∧ t.ct.pc = s.getX 21 &&& ~~~ 3 ∧ t.ct.uli.act = false ∧
        (∀ n : Fin 8, t.getX (BitVec.ofNat 5 (21 + n.val)) = s.ct.uli.kother[n] ∧ t.ct.uli.kother[n] = s.getX (BitVec.ofNat 5 (21 + n.val))) ∧
        (∀ r : Reg, r.toNat < 21 ∨ 29 ≤ r.toNat → t.getX r = s.getX r) ∧ t.ct.ctl.lpend = s.ct.ctl.lpend ∧
        t = { s with ct := { s.ct with
          pc := t.ct.pc, x := t.ct.x, uli := { s.ct.uli with act := false, kother := t.ct.uli.kother }, ctl := { s.ct.ctl with wait := .none } } }) ∧
    (s.ct.uli.act = false ∨ s.ct.task.reflected = true → s.ct.level = .u → ∃ t, exec .uret s = .next t ∧ PlainTrap s t Code.illegal)

/-- R289: TMARK changes nothing a task can see. With Electrum off and another value in ETVAL nothing changes at all; with it on, and the task passing the
filter, it writes a MARK record with the address and the value into the next slot, stamped with the die's causal counter and a cycle that does not
fall; a record toward a home that does not answer is dropped (R270). -/
def Obligations.Mark : Prop :=
  ∀ (s : State) (a : Reg), s.has .lb = true →
    let d := dieOf s.ct.lcore
    let e := s.el d
    let slot := e.ebase.toNat + 128 * (e.ewptr.toNat % 2 ^ e.esize.toNat)
    e.etval ≠ s.getX a →
    (e.live = false → ∃ t, exec (.tmark a) s = .next t ∧ MovedTo s t (s.ct.pc + 4)) ∧
    (e.live = true → s.ct.lcore < 128 → s.dieFenced d = false → e.frozen = false → e.wrap = true → e.lossPend = 0 → passes s s.ct s.ct.pc = true →
      Calm s → Memory.wf s.m.mem = true →
      ((∀ l ∈ linesOf slot 128, s.answers l = false) → ∃ t, exec (.tmark a) s = .next t ∧ t.ct.pc = s.ct.pc + 4 ∧ (t.el d).ewptr = e.ewptr + 1 ∧ SameBytes s t) ∧
      ((∀ l ∈ linesOf slot 128, s.answers l = true ∧ s.inUse l = true) →
      ∃ t, exec (.tmark a) s = .next t ∧ t.ct.pc = s.ct.pc + 4 ∧ t.ct.x = s.ct.x ∧ (t.el d).ewptr = e.ewptr + 1 ∧
        t.numAt (slot + 0x10) 1 = 4 ∧ t.numAt (slot + 0x11) 1 = d ∧ t.numAt (slot + 0x20) 8 = s.ct.pc.toNat ∧
        t.numAt (slot + 0x28) 8 = (s.getX a).toNat ∧ t.numAt slot 8 = (s.die d).causal.toNat ∧
        (s.die d).cycle.toNat ≤ t.numAt (slot + 8) 8 ∧ SameBytesOutside s t slot 128))

/-- R195, R346: NSET sets one dimension, and a count above 65,535 traps ILLEGAL. R196, R58: NLOOP captures the words that follow it and the dimensions,
which are reset; whatever is stored to those words then, the words that run are the captured ones, each in its turn. A body with a word that no
instruction has, or that may not stand in one, traps ILLEGAL, and one of a profile that is not declared PROFILE; the words that may are those of the
vector majors but VCFG, and QPOP to a vector register. R195, R196, R347: the body runs once for each position of the nest, i0 fastest, word by word;
every address base of an iteration is moved by the sum of i_d times STEP_d; the first iteration begins with VSTART = 0, but where a stop resumes in
it. A nest with a count of 0 runs no iteration. -/
def Obligations.Nests : Prop :=
  (∀ (s : State) (d a b : Reg), s.has .lx = true →
    ((s.getX a).toNat ≤ 65535 → ∃ t, exec (.nset d a b) s = .next t ∧
      t = { s with ct := { s.ct with
        pc := s.ct.pc + 4
        nest := { s.ct.nest with dims := s.ct.nest.dims.set d.toNat ⟨(s.getX a).toNat, s.getX b⟩ }
        ctl := { s.ct.ctl with wait := .none } } }) ∧
    (65535 < (s.getX a).toNat → s.ct.level = .u → ∃ t, exec (.nset d a b) s = .next t ∧ PlainTrap s t Code.illegal)) ∧
  ((∀ (s : State) (k : BitVec 5) (ws : List IWord), s.has .lx = true → fetchBody (k.toNat + 1) (s.ct.pc + 4) [] s = .ok ws s →
    ((∀ w ∈ ws, (decode w).isSome = true ∧ inNest w = true ∧ ∀ p ∈ wordProfiles w, s.has p = true) →
      ∃ t, exec (.nloop k) s = .next t ∧
        (t = { s with ct := { s.ct with
          pc := s.ct.pc + 4
          nest := ⟨List.replicate 6 ⟨1, 0⟩, some ⟨s.ct.pc + 4, ws⟩, s.ct.nest.runs ++ [⟨s.ct.nest.dims, k.toNat + 1, List.replicate 6 0, 0⟩]⟩
          ctl := { s.ct.ctl with wait := .none } } }) ∧
        ∀ m : MemSt, nextWord { t with m := m } = .ok (ws.headD 0) { t with m := m }) ∧
    ((∃ w ∈ ws, decode w = none) → s.ct.level = .u → ∃ t, exec (.nloop k) s = .next t ∧ PlainTrap s t Code.illegal) ∧
    ((∀ w ∈ ws, (decode w).isSome = true) → (∃ w ∈ ws, ∃ p ∈ wordProfiles w, s.has p = false) → s.ct.level = .u →
      ∃ t, exec (.nloop k) s = .next t ∧ PlainTrap s t Code.profile) ∧
    ((∀ w ∈ ws, (decode w).isSome = true ∧ ∀ p ∈ wordProfiles w, s.has p = true) → (∃ w ∈ ws, inNest w = false) → s.ct.level = .u →
      ∃ t, exec (.nloop k) s = .next t ∧ PlainTrap s t Code.illegal)) ∧
  (∀ w : IWord, inNest w = true ↔ (∃ d q, decode w = some (.qpopVector d q)) ∨ 0x21 ≤ w.toNat / 2 ^ 26) ∧
  ∀ (u : State) (c : Capture), u.ct.nest.capture = some c → c.at_ = u.ct.pc →
    nextWord u = .ok (c.words.headD 0) u ∧
      (passBody u).ct.nest.capture = if c.words.length ≤ 1 then none else some ⟨c.at_ + 4, c.words.tail⟩) ∧
  ((∀ (s : State) (r : NestRun) (rs : List NestRun) (e : VEntry) (es : List VEntry), s.ct.nest.runs = r :: rs → s.ct.vec.viq = e :: es →
    e.nested = true → r.body ≤ (e :: es).length → r.next < r.body →
    ((∃ d ∈ r.dims, d.count = 0) → (∀ x ∈ (e :: es).take r.body, x.sampled = false) → ∃ t, vectorStep s = some (.next t) ∧ t.ct.vec.viq = (e :: es).drop r.body ∧ t.ct.nest.runs = rs ∧
      t.ct.x = s.ct.x ∧ t.ct.vec.vfile = s.ct.vec.vfile ∧ t.m = s.m) ∧
    ((∀ d ∈ r.dims, d.count ≠ 0) → ∀ b, (e :: es)[r.next]? = some b → b.nested = true →
      let o := ((r.dims.zip r.pos).map fun x => x.1.step * BitVec.ofNat 64 x.2).foldr (· + ·) 0
      headOf s = .entry { b with off := o } r.next ∧
      (∀ (m : BitVec 5) (i : Nat), mfPacked m = 0 → mfIsScale m = false →
        (VAcc.place ⟨.unit, m, 0⟩ s { b with off := o } i 0).1 = b.xa + o + BitVec.ofNat 64 (i * VAcc.bytes ⟨.unit, m, 0⟩ b)) ∧
      (r.next + 1 < r.body → (popHead s b r.next).ct.nest.runs = { r with next := r.next + 1 } :: rs) ∧
      (r.body = r.next + 1 → ∀ p, nextPos r.dims r.pos = some p → (popHead s b r.next).ct.nest.runs = { r with next := 0, pos := p } :: rs) ∧
      (r.body = r.next + 1 → nextPos r.dims r.pos = none →
        (popHead s b r.next).ct.nest.runs = rs ∧ (popHead s b r.next).ct.vec.viq = (e :: es).drop r.body) ∧
      (r.next = 0 → (∀ p ∈ r.pos, p = 0) → b.resumed = false → (nestStart s b).ct.vec.vstart = 0))) ∧
  ∀ (ds : List NestDim) (ps : List Nat), ds.length = ps.length →
    (∀ p, nextPos ds ps = some p → ∃ d, p[d]? = ps[d]?.map (· + 1) ∧ d < ps.length ∧ (∀ k, d < k → p[k]? = ps[k]?) ∧
      ∀ k, k < d → p[k]? = some 0 ∧ ∀ (q : Nat) (c : NestDim), ps[k]? = some q → ds[k]? = some c → c.count ≤ q + 1) ∧
    (nextPos ds ps = none → ∀ (k q : Nat) (c : NestDim), ps[k]? = some q → ds[k]? = some c → c.count ≤ q + 1))

/-- R165, R301: ALGLD replaces its table by the 80 bytes at the address, where they pass the checks, and traps ILLEGAL where they do not; it waits for the
VIQ, and a misaligned address traps ALIGN. -/
def Obligations.AlgebraTableLoad : Prop :=
  ∀ (s : State) (t0 a : Reg) (pa : Nat), s.has .la = true → t0.toNat < 4 →
    (s.viqEmpty = false → ∃ t, exec (.algld t0 a) s = .next t ∧ Waits s t .drain) ∧
    (s.viqEmpty = true → (s.getX a).toNat % 16 ≠ 0 → s.ct.level = .u →
      ∃ t, exec (.algld t0 a) s = .next t ∧ TrapTaken s t 0x204 s.ct.pc (s.getX a) 0x180) ∧
    (s.viqEmpty = true → (s.getX a).toNat % 16 = 0 → Calm s →
      (∀ k, k < 5 → Ready (fun _ => False) s { kind := 1 } (s.getX a + BitVec.ofNat 64 (16 * k)) 16 (pa + 16 * k)) →
      let img := BitVec.ofNat 640 (s.numAt pa 80)
      (Alg.ok img = true → ∃ t, exec (.algld t0 a) s = .next t ∧
        (∀ g : BitVec 2, t.alg g = if g.toNat = t0.toNat then img else s.alg g) ∧ SameDies s t ∧
        t = { s.accessed t with ct := { s.ct with
          pc := s.ct.pc + 4, mx := { s.ct.mx with algs := t.ct.mx.algs }, ctl := { s.ct.ctl with wait := .none } } }) ∧
      (Alg.ok img = false → s.ct.level = .u → ∃ t, exec (.algld t0 a) s = .next t ∧ PlainTrap (s.accessed t) t Code.illegal ∧ SameDies s t))

/-- R398, R185, R186: XCOPY, XGATH and XCOLL hand a job with the card at the address to their core's scheduler, and go on; a misaligned address traps
ALIGN, a card that R186 refuses traps ILLEGAL, and a full scheduler makes the thread wait. R194, R190, R399: XWAIT waits while the task has an
uncompleted job of the tag, then clears PEND of the tag and goes on, or traps with the oldest kept error of the tag, which is dropped; KIND and ENG of
that trap are 0 (log entry 137). Kept errors stand in the order in which their jobs were issued, whichever job fails first. -/
def Obligations.EngineJobs : Prop :=
  (∀ (s : State) (t0 a : Reg) (pa : Nat), s.has .lx = true → s.ct.lcore < 128 →
    ∀ q ∈ ([(.xcopy t0 a, .copy), (.xgath t0 a, .gather), (.xcoll t0 a, .coll)] : List (Instr × JobKind)),
      ((s.getX a).toNat % 64 ≠ 0 → s.ct.level = .u →
        ∃ t, exec q.1 s = .next t ∧ TrapTaken s t 0x204 s.ct.pc (s.getX a) 0x140) ∧
      ((s.getX a).toNat % 64 = 0 → Calm s →
        (let regions := natBits (cardCtl (s.bytesAt pa 64)) 13 3
         ∀ k, k < (if regions = 0 then 8 else 16) → Ready (fun _ => False) s { kind := 1 } (s.getX a + BitVec.ofNat 64 (8 * k)) 8 (pa + 8 * k)) →
        let bs := s.bytesAt pa (if natBits (cardCtl (s.bytesAt pa 64)) 13 3 = 0 then 64 else 128)
        (cardOk q.2 s.ctx bs = true → (s.core s.ct.lcore).jobs.length < 32 →
          ∃ t, exec q.1 s = .next t ∧
            (t.core s.ct.lcore).jobs = (s.core s.ct.lcore).jobs ++
              [{ id := s.pkg.idCtr, engine := q.2.engine, tag := t0.toNat, task := s.ct.task.taskid, ctno := s.ct.ctno, card := parseCard bs,
                 troot := s.ct.sup.troot, stashBase := s.ct.task.stashBase, stashLen := s.ct.task.stashLen, launch := s.ct.task.launch, level := s.ct.level,
                 reads := readFeet s.ctx (parseCard bs), writes := writeFeet s.ctx (parseCard bs), state := .ready 0, err := none }] ∧
            (∀ c, c ≠ s.ct.lcore → t.core c = s.core c) ∧ SameDies s t ∧ SameBytes s t ∧
            t = { s.accessed t with
              ct := { s.ct with pc := s.ct.pc + 4, ctl := { s.ct.ctl with wait := .none } }
              cores := t.cores
              pkg := { s.pkg with idCtr := s.pkg.idCtr + 1 }
              pending := s.pending ++ [.jobStart s.ct.lcore, .jobComplete s.ct.lcore] }) ∧
        (cardOk q.2 s.ctx bs = true → 32 ≤ (s.core s.ct.lcore).jobs.length →
          ∃ t, exec q.1 s = .next t ∧ Waits (s.accessed t) t .job ∧ SameDies s t) ∧
        (cardOk q.2 s.ctx bs = false → s.ct.level = .u →
          ∃ t, exec q.1 s = .next t ∧ PlainTrap (s.accessed t) t Code.illegal ∧ SameDies s t))) ∧
  ((∀ (s : State) (t0 : Reg), s.has .lx = true →
    let cleared := s.ct.uli.pend &&& ~~~ (1#32 <<< t0.toNat)
    ((∃ j ∈ (s.core s.ct.lcore).jobs, j.task = s.ct.task.taskid ∧ j.ofTag t0.toNat = true) →
      ∃ t, exec (.xwait t0) s = .next t ∧ Waits s t .job) ∧
    ((∀ j ∈ (s.core s.ct.lcore).jobs, j.task = s.ct.task.taskid → j.ofTag t0.toNat = false) → s.m.early = [] →
      ((∀ e ∈ s.ct.uli.errs, e.tag ≠ t0.toNat) → ∃ t, exec (.xwait t0) s = .next t ∧
        t = { s with ct := { s.ct with
          pc := s.ct.pc + 4, uli := { s.ct.uli with pend := cleared }, ctl := { s.ct.ctl with wait := .none } } }) ∧
      ∀ e l r, s.ct.uli.errs = l ++ e :: r → e.tag = t0.toNat → (∀ x ∈ l, x.tag ≠ t0.toNat) → s.ct.level = .u →
        ∃ t, exec (.xwait t0) s = .next t ∧
          ReportTaken { s with ct := { s.ct with uli := { s.ct.uli with pend := cleared, errs := l ++ r } } } t
            (e.code.setWidth 64) s.ct.pc e.addr)) ∧
  ∀ (es : List KeptError) (e : KeptError), (es.map (·.job)).Pairwise (· ≤ ·) →
    ((keepError es e).map (·.job)).Pairwise (· ≤ ·) ∧ ∀ x, x ∈ keepError es e ↔ x = e ∨ x ∈ es)

-- ## Vector configuration and integers

/-- R60: VLMAX is L·GRP / w, from 32 to 16,384 for the register lengths, groupings and types that there are. -/
def Obligations.LargestLength : Prop :=
  (∀ (l : Nat) (c : Vcfg), l ∈ [256, 512, 1024, 2048] → c.etype.toNat ≤ 13 →
    vlmax l c * tyBytes c.etype.toNat = l * 2 ^ c.grp.toNat ∧ 32 ≤ vlmax l c ∧ vlmax l c ≤ 16384) ∧
  vlmax 256 ⟨13, 0, 0, 0, 0⟩ = 32 ∧ vlmax 2048 ⟨0, 3, 0, 0, 0⟩ = 16384

/-- R61: VCFG sets VL to the lesser of x[A] and VLMAX, writes it to x[D], and sets VCFG to its fields; VSTART and pdone are then zero, and nothing else
changes. -/
def Obligations.VectorConfigure : Prop :=
  ∀ (s : State) (d a : Reg) (e : BitVec 4) (g t : BitVec 2) (m : BitVec 1) (sc : BitVec 3), VecReady s → s.has .lv = true →
    let vl := min (s.getX a).toNat (s.L * 2 ^ g.toNat / tyBytes e.toNat)
    ∃ u, exec (.vcfg d a e g t m sc) s = .next u ∧ XResult s u d (BitVec.ofNat 64 vl) ∧ SameBytes s u ∧
      u = { s with ct := { s.ct with
        x := u.ct.x
        pc := s.ct.pc + 4
        vec := { s.ct.vec with vcfg := ⟨e, g, t, m, sc⟩, vl := vl, vstart := 0, pdone := 0 }
        ctl := { s.ct.ctl with wait := .none } } }

/-- R365, R65 to R67: the integer instructions write each active element of vd from va and b, in integers of the element type; the logical ones take any
type. Inactive, prestart and tail elements are as the policies say, and nothing else changes. -/
def Obligations.VectorInteger : Prop :=
  ∀ (s : State) (d a b : Reg) (p : BitVec 3) (z : BitVec 1) (f : BitVec 2), VecStart s .lv → GroupOk s d → GroupOk s a →
    (f = 0 → GroupOk s b) →
    let ty := s.ct.vec.vcfg.ty
    let n := 8 * s.ew
    let x (i : Nat) := BitVec.ofNat n (s.elem a.toNat s.ew i)
    let y (i : Nat) := BitVec.ofNat n (s.vecB b f i)
    let old (i : Nat) := BitVec.ofNat n (s.elem d.toNat s.ew i)
    let k (i : Nat) := s.vecB b f i % n
    let v (u : BitVec n) : Int := if ty < 4 then u.toInt else u.toNat
    let lo : Int := if ty < 4 then -2 ^ (n - 1) else 0
    let hi : Int := if ty < 4 then 2 ^ (n - 1) - 1 else 2 ^ n - 1
    (ty < 8 → ∀ q ∈ ([(.vadd d a b p z f, fun i => x i + y i), (.vsub d a b p z f, fun i => x i - y i), (.vmul d a b p z f, fun i => x i * y i),
        (.vmulh d a b p z f, fun i => BitVec.ofInt n (v (x i) * v (y i) / 2 ^ n)), (.vmac d a b p z f, fun i => old i + x i * y i),
        (.vdiv d a b p z f, fun i =>
          if y i = 0 then BitVec.allOnes n else if ty < 4 then (x i).sdiv (y i) else x i / y i),
        (.vmin d a b p z f, fun i => if v (y i) < v (x i) then y i else x i), (.vmax d a b p z f, fun i => if v (x i) < v (y i) then y i else x i),
        (.vshl d a b p z f, fun i => x i <<< k i), (.vshr d a b p z f, fun i => x i >>> k i), (.vsar d a b p z f, fun i => (x i).sshiftRight (k i)),
        (.vsadd d a b p z f, fun i => BitVec.ofInt n (max lo (min hi (v (x i) + v (y i)))))] : List (Instr × (Nat → BitVec n))),
      ∃ t, exec q.1 s = .next t ∧ VecResult s t d (s.pbit p.toNat) fun i => (q.2 i).toNat) ∧
    ∀ q ∈ ([(.vand d a b p z f, fun i => x i &&& y i), (.vor d a b p z f, fun i => x i ||| y i), (.vxor d a b p z f, fun i => x i ^^^ y i)] :
        List (Instr × (Nat → BitVec n))),
      ∃ t, exec q.1 s = .next t ∧ VecResult s t d (s.pbit p.toNat) fun i => (q.2 i).toNat

/-- R374, R372, R392, R74, R109, R110: the moves and permutes write each active element from the element, index or scalar that they name; QPOP into a
register takes the oldest value of q0 to q3 and fills every element; VDEP and VDEPX give the nearest earlier active element with an equal key, or all
ones. -/
def Obligations.VectorMoves : Prop :=
  ∀ (s : State) (d a b : Reg) (p : BitVec 3) (z : BitVec 1) (f : BitVec 2), VecStart s .lv → GroupOk s d → GroupOk s a →
    let ty := s.ct.vec.vcfg.ty
    let act := s.pbit p.toNat
    let vl := s.ct.vec.vl
    let el (r : Reg) (i : Nat) := s.elem r.toNat s.ew i
    let imm := match tyFmt ty with
      | some g => (g.deliver Rc.rne (FVal.ofInt false b.toInt 0)).1
      | none => (b.signExtend 64).toNat
    let ix := if f = 1 then (s.getX b).toNat else b.toNat
    let nearest (key other : Reg) (r : Nat → Nat) : Prop := ∀ i, i < vl → act i = true →
      (r i = 2 ^ (8 * s.ew) - 1 ∧ ∀ j, j < i → act j = true → el other j ≠ el key i) ∨
      (r i < i ∧ act (r i) = true ∧ el other (r i) = el key i ∧ ∀ j, r i < j → j < i → act j = true → el other j ≠ el key i)
    (ty < 8 → ∃ t, exec (.vid d p z) s = .next t ∧ VecResult s t d act fun i => i) ∧
    (f = 1 ∨ f = 2 → ∃ t, exec (.vsplat d b p z f) s = .next t ∧ VecResult s t d act fun _ => if f = 1 then (s.getX b).toNat else imm) ∧
    (∃ t, exec (.vmv d a p z) s = .next t ∧ VecResult s t d act (el a)) ∧
    (s.ct.vec.vstart = 0 → f = 1 ∨ f = 2 →
      (∃ t, exec (.vslup d a b p z f) s = .next t ∧ VecResult s t d act fun i => if ix ≤ i then el a (i - ix) else el d i) ∧
      ∃ t, exec (.vsldn d a b p z f) s = .next t ∧ VecResult s t d act fun i => if i + ix < vl then el a (i + ix) else 0) ∧
    (s.ct.vec.vstart = 0 → GroupOk s b →
      (∃ t, exec (.vperm d a b p z) s = .next t ∧ VecResult s t d act fun i => if el b i < vl then el a (el b i) else 0) ∧
      (vl < 2 ^ (8 * s.ew) →
        (∃ t r, exec (.vdep d a p z) s = .next t ∧ VecResult s t d act r ∧ nearest a a r) ∧
        ∃ t r, exec (.vdepx d a b p z) s = .next t ∧ VecResult s t d act r ∧ nearest a b r)) ∧
    (s.ct.vec.vstart = 0 →
      let out := (List.range vl).filter act
      ∃ t, exec (.vcompr d a p z) s = .next t ∧ VecResult s t d (fun i => decide (i < out.length)) fun i => el a (out.getD i 0)) ∧
    (s.ct.vec.vstart = 0 → f ≠ 3 → (f = 0 → GroupOk s b) →
      ∃ t, exec (.vmerge d a b p z f) s = .next t ∧ VecResult s t d (fun _ => true) fun i =>
        if act i then (if f = 2 then imm else s.vecB b f i) else el a i) ∧
    ∀ (q : Reg) (v : Word) (r : List Word), q.toNat < 4 → s.queue q.toNat = v :: r →
      ∃ t, exec (.qpopVector d q) s = .next t ∧ GroupAfter s t d.toNat (fun _ => true) (fun _ => v.toNat) ∧ VecOnly s t (inGroup s d.toNat) ∧
        t.queue q.toNat = r ∧ (∀ k, k ≠ q.toNat → t.queue k = s.queue k) ∧ t.ct.vec.preds = s.ct.vec.preds ∧ t.ct.fp = s.ct.fp ∧ t.ct.mx = s.ct.mx

/-- R375, R117, R350: VEXT takes the element that its index names, 0 beyond VL; VLAST takes the highest active element, and writes nothing where there is
none; PCNT counts. Their plain forms write element 0 of vd, and the .q forms deliver the value extended by its type (R76). -/
def Obligations.VectorToScalar : Prop :=
  ∀ (s : State) (d a b q : Reg) (p : BitVec 3) (z : BitVec 1) (f : BitVec 2), VecStart s .lv → GroupOk s d → GroupOk s a →
    s.ct.vec.vstart = 0 → 4 ≤ q.toNat → q.toNat < 8 → s.roomIn q.toNat = true → s.ct.ctl.wait ≠ .ending →
    let ty := s.ct.vec.vcfg.ty
    let n := 8 * s.ew
    let ext (v : Nat) : Word := if ty < 4 then (BitVec.ofNat n v).signExtend 64 else BitVec.ofNat 64 v
    let ix := if f = 1 then (s.getX b).toNat else b.toNat
    let cell := if ix < s.ct.vec.vl then s.elem a.toNat s.ew ix else 0
    let count := (List.range s.ct.vec.vl).countP fun i => s.pbit p.toNat i && s.pbit b.toNat i
    (f = 1 ∨ f = 2 →
      (∃ t, exec (.vext d a b z f) s = .next t ∧ VecResult s t d (fun i => i == 0) fun _ => cell) ∧
      ∃ t, exec (.vextQ q a b z f) s = .next t ∧ Delivers s t q (ext cell) 0 false) ∧
    (∀ i, i < s.ct.vec.vl → s.pbit p.toNat i = true → (∀ j, i < j → j < s.ct.vec.vl → s.pbit p.toNat j = false) →
      (∃ t, exec (.vlast d a p z) s = .next t ∧ VecResult s t d (fun i => i == 0) fun _ => s.elem a.toNat s.ew i) ∧
      ∃ t, exec (.vlastQ q a p z) s = .next t ∧ Delivers s t q (ext (s.elem a.toNat s.ew i)) 0 false) ∧
    ((∀ j, j < s.ct.vec.vl → s.pbit p.toNat j = false) →
      (∃ t, exec (.vlast d a p z) s = .next t ∧ VecResult s t d (fun _ => false) fun _ => 0) ∧
      ∃ t, exec (.vlastQ q a p z) s = .next t ∧ Delivers s t q 0 0 false) ∧
    (b.toNat < 8 →
      (ty < 8 → ∃ t, exec (.pcnt d b p z) s = .next t ∧ VecResult s t d (fun i => i == 0) fun _ => count) ∧
      ∃ t, exec (.pcntQ q b p z) s = .next t ∧ Delivers s t q (BitVec.ofNat 64 count) 0 false)

/-- R140 to R144, R395: VRSUM of an integer type is init plus the active elements modulo 2^(8w), and of a floating type the rounded pairwise tree, with
init unchanged where no element is active; VROSUM adds in element order; VRMAX, VRMIN and VRLOG fold. The plain form writes element 0 of vd, and the
.q form delivers the value. -/
def Obligations.Reductions : Prop :=
  ∀ (s : State) (d a b q : Reg) (p : BitVec 3) (z : BitVec 1) (k : BitVec 2) (rm : BitVec 3), VecStart s .lv → GroupOk s d → GroupOk s a →
    s.ct.vec.vstart = 0 → 4 ≤ q.toNat → q.toNat < 8 → s.roomIn q.toNat = true → s.ct.ctl.wait ≠ .ending → k ≠ 3 →
    let ty := s.ct.vec.vcfg.ty
    let n := 8 * s.ew
    let g := (tyFmt ty).getD .f64
    let rc (i : Nat) : Rc := ⟨rm, s.ct.fp.seed, s.ct.fp.isn, i⟩
    let init := (s.getX b).toNat % 2 ^ n
    let on := (List.range s.ct.vec.vl).filter (s.pbit p.toNat)
    let el (i : Nat) := s.elem a.toNat s.ew i
    let v (u : Nat) : Int := if ty < 4 then (BitVec.ofNat n u).toInt else u
    let ext (v : Nat) : Word := if ty < 4 then (BitVec.ofNat n v).signExtend 64 else BitVec.ofNat 64 v
    let both (i j : Instr) (r : Nat × FFlags) (rsr : Bool) : Prop :=
      (∃ t, exec i s = .next t ∧ VecFpResult s t d (fun i => i == 0) (fun _ => r) r.2 rsr) ∧
      ∃ t, exec j s = .next t ∧ Delivers s t q (ext r.1) r.2 rsr
    (ty < 8 →
      let sum := (on.foldl (fun c i => c + el i) init) % 2 ^ n
      both (.vrsum d a b p z) (.vrsumQ q a b p z) (sum, 0) false ∧ both (.vrosum d a b p z) (.vrosumQ q a b p z) (sum, 0) false ∧
      both (.vrmax d a b p z) (.vrmaxQ q a b p z) (on.foldl (fun c i => if v c < v (el i) then el i else c) init, 0) false ∧
      both (.vrmin d a b p z) (.vrminQ q a b p z) (on.foldl (fun c i => if v (el i) < v c then el i else c) init, 0) false) ∧
    (10 ≤ ty → roundingOf 7 s.ct.fp.frm = some rm →
      let tree := treeUp (fun e x y => g.binop 0 (rc e) x y) (levels s.ct.vec.vl)
        ((List.range (2 ^ levels s.ct.vec.vl)).map fun i => if i ∈ on then some (el i) else none) 0
      both (.vrsum d a b p z) (.vrsumQ q a b p z)
        (match tree with
         | (some r, fl) => ((g.binop 0 (rc 0) init r).1, fl ||| (g.binop 0 (rc 0) init r).2)
         | (none, _) => (init, 0)) (rm == 5) ∧
      both (.vrosum d a b p z) (.vrosumQ q a b p z)
        (on.foldl (fun c i => ((g.binop 0 (rc i) c.1 (el i)).1, c.2 ||| (g.binop 0 (rc i) c.1 (el i)).2)) (init, 0)) (rm == 5)) ∧
    (10 ≤ ty →
      both (.vrmax d a b p z) (.vrmaxQ q a b p z)
        (on.foldl (fun c i => ((g.minmax true c.1 (el i)).1, c.2 ||| (g.minmax true c.1 (el i)).2)) (init, 0)) false ∧
      both (.vrmin d a b p z) (.vrminQ q a b p z)
        (on.foldl (fun c i => ((g.minmax false c.1 (el i)).1, c.2 ||| (g.minmax false c.1 (el i)).2)) (init, 0)) false) ∧
    both (.vrlog d a b p z k) (.vrlogQ q a b p z k)
      (on.foldl (fun c i => if k = 0 then c &&& el i else if k = 1 then c ||| el i else c ^^^ el i) init, 0) false

/-- R349, R350, R116, R370, R371, R111: what the predicate instructions and the compares write into pd; PSET's x register and VPART's vector register are
any of the 32. VPART's run ends at the first member that depends on an earlier member. -/
def Obligations.Predicates : Prop :=
  ∀ (s : State) (d a b : Reg) (p : BitVec 3) (z : BitVec 1), VecStart s .lv → d.toNat < 8 →
    let pa := s.pbit a.toNat
    let pb := s.pbit b.toNat
    let hit (i : Nat) := s.pbit p.toNat i && pa i
    let upTo (i : Nat) := (List.range i).any hit
    let x (r : Reg) (i : Nat) := s.elem r.toNat s.ew i
    let n := 8 * s.ew
    (s.ct.vec.vstart = 0 → ∃ t, exec (.pset d b p z) s = .next t ∧ PredResult s t d p (fun i => decide (i < (s.getX b).toNat)) 0) ∧
    (s.ct.vec.vstart = 0 → a.toNat < 8 →
      ∀ q ∈ ([(.pnot d a p z, fun i => !pa i), (.pfirst d a p z, fun i => hit i && !upTo i), (.pbrkBefore d a p z, fun i => !upTo (i + 1)),
          (.pbrkThru d a p z, fun i => !upTo i)] : List (Instr × (Nat → Bool))),
        ∃ t, exec q.1 s = .next t ∧ PredResult s t d p q.2 0) ∧
    (s.ct.vec.vstart = 0 → a.toNat < 8 → b.toNat < 8 →
      ∀ q ∈ ([(.pand d a b p z, fun i => pa i && pb i), (.por d a b p z, fun i => pa i || pb i), (.pxor d a b p z, fun i => pa i ^^ pb i)] :
          List (Instr × (Nat → Bool))),
        ∃ t, exec q.1 s = .next t ∧ PredResult s t d p q.2 0) ∧
    (s.ct.vec.vstart = 0 → GroupOk s a → b.toNat < 8 →
      ∃ t r, exec (.vpart d a b z) s = .next t ∧ PredResult s t d 0 r 0 ∧
        ∀ i, i < s.ct.vec.vl → (r i = true ↔ pb i = true ∧ ∀ j, j ≤ i → pb j = true → x a j < j → pb (x a j) = false)) ∧
    ∀ (c : BitVec 4) (f : BitVec 2) (va vb : Reg), GroupOk s va → (f = 0 → GroupOk s vb) →
      let u (i : Nat) := BitVec.ofNat n (x va i)
      let w (i : Nat) := BitVec.ofNat n (s.vecB vb f i)
      (s.ct.vec.vcfg.ty < 8 → f ≠ 3 → c.toNat ≤ 9 →
        ∃ t, exec (.vcmp d va vb p z f c) s = .next t ∧ PredResult s t d p (fun i =>
          match c.toNat with
          | 0 => u i == w i
          | 1 => u i != w i
          | 2 => (u i).slt (w i)
          | 3 => (u i).sle (w i)
          | 4 => (w i).slt (u i)
          | 5 => (w i).sle (u i)
          | 6 => (u i).ult (w i)
          | 7 => (u i).ule (w i)
          | 8 => (w i).ult (u i)
          | _ => (w i).ule (u i)) 0) ∧
      (10 ≤ s.ct.vec.vcfg.ty → f.toNat ≤ 1 → c.toNat ≤ 5 →
        let k (i : Nat) := ((tyFmt s.ct.vec.vcfg.ty).getD .f64).compare c (x va i) (s.vecB vb f i)
        ∃ t, exec (.vfcmp d va vb p z f c) s = .next t ∧ PredResult s t d p (fun i => (k i).1) (orFlagsOf s p fun i => (k i).2))

-- ## Vector floating point and algebra

/-- R376 to R381: each active element is the exact result rounded once in the element type, with e of .rsr the element number; the flags of the elements
worked are ORed into FSTAT, and one ISN is taken under .rsr. VFSPLIT writes two groups, and VFCVT reads a group of its source type. -/
def Obligations.VectorFloat : Prop :=
  ∀ (s : State) (d a b c : Reg) (p : BitVec 3) (z : BitVec 1) (f : BitVec 2) (r rm : BitVec 3), VecStart s .lv → GroupOk s d → GroupOk s a →
    let ty := s.ct.vec.vcfg.ty
    let g := (tyFmt ty).getD .f64
    let rc (i : Nat) : Rc := ⟨rm, s.ct.fp.seed, s.ct.fp.isn, i⟩
    let x (i : Nat) := s.elem a.toNat s.ew i
    let y (i : Nat) := s.vecB b f i
    let vx (i : Nat) := g.read (x i)
    let vy (i : Nat) := g.read (y i)
    let makes (i : Instr) (h : Nat → Nat × FFlags) (rsr : Bool) : Prop :=
      ∃ t, exec i s = .next t ∧ VecFpResult s t d (s.pbit p.toNat) h (orFlagsOf s p fun i => (h i).2) rsr
    (10 ≤ ty → f.toNat ≤ 1 → (f = 0 → GroupOk s b) →
      makes (.vfmin d a b p z f) (fun i => g.minmax false (x i) (y i)) false ∧ makes (.vfmax d a b p z f) (fun i => g.minmax true (x i) (y i)) false ∧
      (roundingOf r s.ct.fp.frm = some rm →
        makes (.vfadd d a b p z f r) (fun i => g.deliver (rc i) ((vx i).add (rm == 2) (vy i))) (rm == 5) ∧
        makes (.vfsub d a b p z f r) (fun i => g.deliver (rc i) ((vx i).add (rm == 2) (vy i).neg)) (rm == 5) ∧
        makes (.vfmul d a b p z f r) (fun i => g.deliver (rc i) ((vx i).mul (vy i))) (rm == 5) ∧
        makes (.vfdiv d a b p z f r)
          (fun i => ((g.deliver (rc i) ((vx i).div (vy i)).1).1, (g.deliver (rc i) ((vx i).div (vy i)).1).2 ||| ((vx i).div (vy i)).2)) (rm == 5) ∧
        makes (.vfscale d a b p z f r) (fun i => g.deliver (rc i) ((vx i).scale (BitVec.ofNat (8 * s.ew) (y i)).toInt)) (rm == 5))) ∧
    (10 ≤ ty →
      makes (.vfrsqe d a p z) (fun i => g.rsqe (x i)) false ∧ makes (.vfclass d a p z) (fun i => (g.classify (x i), 0)) false ∧
      (roundingOf r s.ct.fp.frm = some rm →
        makes (.vfsqrt d a p z r) (fun i => g.deliver (rc i) (vx i).sqrt) (rm == 5) ∧
        (GroupOk s b → GroupOk s c → makes (.vfma d a b c p r)
          (fun i => g.deliver (rc i) (((vx i).mul (g.read (s.elem b.toNat s.ew i))).add (rm == 2) (g.read (s.elem c.toNat s.ew i)))) (rm == 5))) ∧
      (d.toNat + 2 * s.ct.vec.vcfg.g ≤ 32 →
        let d2 := d.toNat + s.ct.vec.vcfg.g
        ∃ t, exec (.vfsplit d a p z) s = .next t ∧ GroupAfter s t d.toNat (s.pbit p.toNat) (fun i => (g.split (x i)).1) ∧
          GroupAfter s t d2 (s.pbit p.toNat) (fun i => (g.split (x i)).2.1) ∧
          VecOnly s t (fun r => inGroup s d.toNat r ∨ inGroup s d2 r) ∧ FlagsOnly s t (orFlagsOf s p fun i => (g.split (x i)).2.2) false)) ∧
    ∀ u : BitVec 5, u.toNat ≤ 13 → (8 ≤ u.toNat ∨ 8 ≤ ty) → roundingOf r s.ct.fp.frm = some rm →
      let w := tyBytes u.toNat
      let last := a.toNat + (s.ct.vec.vl * w + s.L - 1) / s.L
      last ≤ 32 → (d.toNat + s.ct.vec.vcfg.g ≤ a.toNat ∨ last ≤ d.toNat ∨ (a = d ∧ w = s.ew)) →
      makes (.vfcvt d a u p z r) (fun i => convert (rc i) u.toNat ty (s.elem a.toNat w i)) (rm == 5)

/-- R168 to R170: the algebra instructions work on whole algebra elements, active by the predicate bit of component 0; each component of a product is the
exact sum of the table's signed products, rounded once, or modulo 2^(8w) for integers, and the conjugations change the signs that the table names. -/
def Obligations.VectorAlgebra : Prop :=
  ∀ (s : State) (d a b : Reg) (p : BitVec 3) (z : BitVec 1) (q : BitVec 2) (rm : BitVec 3), VecStart s .la → GroupOk s d → GroupOk s a →
    GroupOk s b → Alg.ok (s.alg q) = true →
    let ty := s.ct.vec.vcfg.ty
    let n := Alg.n (s.alg q)
    let bits := 8 * s.ew
    s.ct.vec.vstart % n = 0 → s.ct.vec.vl % n = 0 → (ty < 8 ∨ 10 ≤ ty) →
    let g := (tyFmt ty).getD .f64
    let act (i : Nat) := s.pbit p.toNat (i / n * n)
    let el (r : Reg) (i m : Nat) := s.elem r.toNat s.ew (i / n * n + m)
    let ints (r : Reg) (i : Nat) : List Int := (List.range n).map fun m => if ty < 4 then (BitVec.ofNat bits (el r i m)).toInt else (el r i m : Int)
    let reals (r : Reg) (i : Nat) : List FVal := (List.range n).map fun m => g.read (el r i m)
    let flip (m : Bool) (v : Nat) : Nat := if !m then v else if ty < 8 then (-BitVec.ofNat bits v).toNat else v ^^^ 2 ^ (bits - 1)
    let flags (h : Nat → Nat × FFlags) : FFlags :=
      ((List.range s.ct.vec.vl).filter fun i => decide (s.ct.vec.vstart ≤ i) && act i).foldl (fun f i => f ||| (h i).2) 0
    (∃ t, exec (.vaconj d a p z q) s = .next t ∧ VecResult s t d act fun i => flip (Alg.conj (s.alg q) (i % n)) (el a i (i % n))) ∧
    (∃ t, exec (.vaconjRev d a p z q) s = .next t ∧ VecResult s t d act fun i => flip (Alg.rev (s.alg q) (i % n)) (el a i (i % n))) ∧
    (ty < 8 → ∀ k ∈ ([(.vamul d a b p z q, fun i => algI (s.alg q) .mul (ints a i) (ints b i)),
        (.vasand d a b p z q, fun i => algI (s.alg q) .sand (ints a i) (ints b i)),
        (.vanorm d a p z q, fun i => algI (s.alg q) .norm (ints a i) (ints a i))] : List (Instr × (Nat → List Int))),
      ∃ t, exec k.1 s = .next t ∧ VecResult s t d act fun i => (BitVec.ofInt bits ((k.2 i).getD (i % n) 0)).toNat) ∧
    (10 ≤ ty → roundingOf 7 s.ct.fp.frm = some rm → ∀ k ∈ ([(.vamul d a b p z q, fun i => algF (s.alg q) .mul (rm == 2) (reals a i) (reals b i)),
        (.vasand d a b p z q, fun i => algF (s.alg q) .sand (rm == 2) (reals a i) (reals b i)),
        (.vanorm d a p z q, fun i => algF (s.alg q) .norm (rm == 2) (reals a i) (reals a i))] : List (Instr × (Nat → List FVal))),
      let h (i : Nat) := g.deliver ⟨rm, s.ct.fp.seed, s.ct.fp.isn, i⟩ ((k.2 i).getD (i % n) (.fin false 0 0))
      ∃ t, exec k.1 s = .next t ∧ VecFpResult s t d act h (flags h) (rm == 5))

-- ## Vector memory

/-- R383 to R388, R113, R139: where every access to be made is ready, nothing is in flight and no FENCE holds it, a vector load fills the active elements
of its groups from memory, converted to VCFG.ETYPE; an indexed load leaves the elements that pdone marks as they are; and VLDFF, which then shortens
nothing, also sets the active bits of pd below VL. Every byte of memory and all else but what reaching memory changes are unchanged. Where the
schedule lets loads perform later (R200, R208, log entry 125), each element that may has an access of its own waiting instead, which returns what its
bytes hold when it performs and lands in the element, converted, before an instruction that has to do with the register; its flags go to what the
instruction owes at its completion (R80, R385), for which it waits beside the VIQ (R201). -/
def Obligations.VectorLoads : Prop :=
  (∀ (s : State) (d a b n pd : Reg) (p : BitVec 3) (z : BitVec 1) (m : BitVec 5) (pa : Nat → Nat → Nat), VecStart s .lv → Calm s → VecOpen s →
    GroupOk s d → loadMfOk m = true → 2 ≤ n.toNat → n.toNat ≤ 8 → pd.toNat < 8 → (m = 0x12 ∨ m = 0x13 → 10 ≤ s.ct.vec.vcfg.ty) →
    let ty := s.ct.vec.vcfg.ty
    let g := s.ct.vec.vcfg.g
    let w := memBits m ty
    let scale : Bool := m == 0x12 || m == 0x13
    let base := s.getX a
    let at_ (k : Nat) : Word × Nat := (base + BitVec.ofNat 64 (k * w / 8), k * w % 8)
    let line (i : Nat) : Word × Nat := if scale then (base + BitVec.ofNat 64 (i / 32), 0) else at_ i
    ∀ q ∈ ([(.vld d a p z m, 1, fun i _ => line i), (.vldff d a pd p z m, 1, fun i _ => line i),
        (.vlds d a b p z m, 1, fun i _ => (base + BitVec.ofNat 64 (if scale then i / 32 else i) * s.getX b, 0)),
        (.vldx d a b p z m, 1, fun i _ => (base + BitVec.ofNat 64 (s.elem b.toNat s.ew i), 0)),
        (.vldseg d a n p z m, n.toNat, fun i f => at_ (i * n.toNat + f))] : List (Instr × Nat × (Nat → Nat → Word × Nat))),
      let indexed := match q.1 with
        | .vldx _ _ _ _ _ _ => true
        | _ => false
      let ff := match q.1 with
        | .vldff _ _ _ _ _ _ => true
        | _ => false
      let skip (i : Nat) := indexed && s.ct.vec.pdone.getLsbD i
      (indexed = true → GroupOk s b ∧ d ≠ b) → d.toNat + q.2.1 * g ≤ 32 → (q.2.1 ≠ 1 ∨ ff = true → vecMfOk m = true) →
      let val (i f : Nat) := memValue m ty (s.numAt (pa i f) (max 1 (w / 8)) / 2 ^ (q.2.2 i f).2 % 2 ^ w)
      (s.defers = false ∨ s.ct.ord.detctl = true →
       (∀ i f, s.todo p i = true → f < q.2.1 → Ready (fun _ => False) s { kind := 1 } (q.2.2 i f).1 (max 1 (w / 8)) (pa i f)) →
       ∃ t, exec q.1 s = .next t ∧
        (∀ f, f < q.2.1 → GroupAfter s t (d.toNat + f * g) (s.pbit p.toNat) fun i =>
          if skip i then s.elem (d.toNat + f * g) s.ew i else (val i f).1) ∧
        VecOnly (s.vecAccessed t 1) t (fun r => d.toNat ≤ r ∧ r < d.toNat + q.2.1 * g) ∧ SameDies s t ∧
        (if ff then PredAfter s t pd p (fun _ => true) else t.ct.vec.preds = s.ct.vec.preds) ∧ t.ct.vec.queues = s.ct.vec.queues ∧ t.ct.mx = s.ct.mx ∧
        t.ct.fp = { s.ct.fp with
          fstat := s.ct.fp.fstat ||| orFlagsOf s p fun i => if skip i then 0 else (List.range q.2.1).foldl (fun u f => u ||| (val i f).2) 0 }) ∧
      (s.defers = true → s.ct.ord.detctl = false →
       (∀ i f s', s.todo p i = true → f < q.2.1 → Along (fun _ => False) s { s' with m := { s'.m with late := [] } } →
         ∃ k : Place, k.pa = pa i f ∧ homeOf k.pa ≠ .device ∧ lostHome s k.pa = false ∧
           resolveAligned s'.ctx { kind := 1 } (q.2.2 i f).1 (max 1 (w / 8)) s' = .ok k s') →
       ∃ t, exec q.1 s = .next t ∧ SameDies s t ∧ t.ct.fp = s.ct.fp ∧
        (let u := s.vecAccessed t 1
         VecOnly { u with
           ct := { u.ct with vec := { u.ct.vec with owing := t.ct.vec.owing } }
           m := { u.m with late := t.m.late } } t (fun r => d.toNat ≤ r ∧ r < d.toNat + q.2.1 * g)) ∧
        ((∃ i, s.todo p i = true ∧ skip i = false) → t.ct.vec.owing = s.ct.vec.owing ++
          [{ fflags := 0, mflags := 0, deliver := none, host := s.ct.vec.vcfg.scope == 5, mem := some (s.ct.ord.opSeq + 1, s.ct.vec.vcfg.scope.toNat) }]) ∧
        ((∀ i, s.todo p i = true → skip i = true) → t.ct.vec.owing = s.ct.vec.owing) ∧
        ∀ i f, s.todo p i = true → f < q.2.1 → skip i = false → t.elem (d.toNat + f * g) s.ew i = s.elem (d.toNat + f * g) s.ew i ∧
          ∃ l ∈ t.m.late, l.lcore = s.ct.lcore ∧ l.ctno = s.ct.ctno ∧ l.vec = true ∧ l.seq = s.ct.ord.opSeq + 1 ∧ l.pa = pa i f ∧ l.op = .load (max 1 (w / 8)) ∧
            l.dest = .elem (d.toNat + f * g) s.ew i m ty (q.2.2 i f).2 w ∧
            (l.got = none ∨ ∃ bs, l.got = some (bs, 0) ∧ leNat bs = s.numAt (pa i f) (max 1 (w / 8))))) ∧
  ∀ (u : State) (e : VEntry) (at_ : Nat) (l : Late) (reg w i : Nat) (m : BitVec 5) (ety sh bits : Nat) (bs : List Byte), VecForm u →
    u.m.late = [l] → u.myLate l = true → l.vec = true → l.dest = .elem reg w i m ety sh bits → l.got = some (bs, 0) → headOf u = .entry e at_ →
    l.clashes e.instr e.g u.L = true → w ∈ [1, 2, 4, 8] → reg * u.L + (i + 1) * w ≤ 32 * u.L →
    (∀ b ∈ u.ct.vec.viq, ∀ ef, b.done = some ef → ef.mem.any (·.1 == l.seq) = false) →
    let x := codeValue m ety (leNat bs / 2 ^ sh % 2 ^ bits)
    let t := landHead u
    t.elem reg w i = x.1 % 2 ^ (8 * w) ∧ t.ct.fp = u.ct.fp ∧ t.m = { u.m with late := [] } ∧
      (t.ct.vec.owing = u.ct.vec.owing.map fun ef => if ef.mem.any (·.1 == l.seq) = true then { ef with fflags := ef.fflags ||| x.2 } else ef) ∧
      (∀ r k, r * u.L + (k + 1) * w ≤ 32 * u.L → reg * u.L + i * w ≠ r * u.L + k * w → t.elem r w k = u.elem r w k) ∧
      t.ct.x = u.ct.x ∧ t.ct.vec.viq = u.ct.vec.viq ∧ t.others = u.others

/-- R383 to R388, R125, R139: where every access to be made is ready, nothing is in flight, no FENCE holds it, no fill has one of its lines still to read
and the schedule leaves no store buffered, a vector store writes the active elements converted to the memory format; every bit that no element covers
reads as before, and where elements share a location the whole of one of them survives, which R388 leaves open outside Bronze mode (log entry 13).
Where the schedule leaves stores in flight (R211, log entry 5) each element waits in the store buffer instead, memory reads as before, and the
instruction owes its completion (R201). VPREF changes nothing but a count of dropped translations. -/
def Obligations.VectorStores : Prop :=
  (∀ (s : State) (v a b n : Reg) (p : BitVec 3) (z : BitVec 1) (m : BitVec 5) (pa : Nat → Nat → Nat), VecStart s .lv → Calm s → VecOpen s →
    GroupOk s v →
    vecMfOk m = true → 2 ≤ n.toNat → n.toNat ≤ 8 → s.ct.ord.detctl = false → Memory.wf s.m.mem = true →
    let g := s.ct.vec.vcfg.g
    let w := memBits m s.ct.vec.vcfg.ty
    let base := s.getX a
    let at_ (k : Nat) : Word × Nat := (base + BitVec.ofNat 64 (k * w / 8), k * w % 8)
    ∀ q ∈ ([(.vst v a p z m, 1, fun i _ => at_ i), (.vsts v a b p z m, 1, fun i _ => (base + BitVec.ofNat 64 i * s.getX b, 0)),
        (.vstx v a b p z m, 1, fun i _ => (base + BitVec.ofNat 64 (s.elem b.toNat s.ew i), 0)),
        (.vstseg v a n p z m, n.toNat, fun i f => at_ (i * n.toNat + f))] : List (Instr × Nat × (Nat → Nat → Word × Nat))),
      let indexed := match q.1 with
        | .vstx _ _ _ _ _ _ => true
        | _ => false
      let doing (i f : Nat) : Prop := s.todo p i = true ∧ f < q.2.1 ∧ ¬ (indexed = true ∧ s.ct.vec.pdone.getLsbD i = true)
      let bit (i f : Nat) := 8 * pa i f + (q.2.2 i f).2
      let covers (i f x : Nat) : Prop := doing i f ∧ bit i f ≤ x ∧ x < bit i f + w
      let may (x : Nat) : Prop := ∃ i f, doing i f ∧ pa i f ≤ x ∧ x < pa i f + max 1 (w / 8)
      let out (i f : Nat) := elemToMem ⟨.unit, m, 0⟩ (entry0 s .nop) (s.elem (v.toNat + f * g) s.ew i)
      (indexed = true → GroupOk s b) → v.toNat + q.2.1 * g ≤ 32 →
      let flags := orFlagsOf s p fun i =>
        if indexed && s.ct.vec.pdone.getLsbD i then 0 else (List.range q.2.1).foldl (fun u f => u ||| (out i f).2) 0
      (s.sched.deferStores = true →
       (∀ i f s', doing i f → Along (fun _ => False) s { s' with m := { s'.m with sbuf := [] } } → fillFirst s (pa i f) (max 1 (w / 8)) = false ∧
         ∃ k : Place, k.pa = pa i f ∧ homeOf k.pa ≠ .device ∧ resolveAligned s'.ctx { kind := 2 } (q.2.2 i f).1 (max 1 (w / 8)) s' = .ok k s') →
       ∃ t, exec q.1 s = .next t ∧ SameBytes s t ∧ SameDies s t ∧
        (∀ i f, doing i f → ∃ e ∈ t.m.sbuf, s.mine e = true ∧ e.vec = true ∧ e.op = s.ct.ord.opSeq + 1 ∧ e.pa = pa i f ∧ e.scope = none ∧
          (w < 8 → e.mask = BitVec.ofNat 8 ((2 ^ w - 1) * 2 ^ (q.2.2 i f).2) ∧ e.bytes = [BitVec.ofNat 8 ((out i f).1 * 2 ^ (q.2.2 i f).2)]) ∧
          (8 ≤ w → e.mask = 0xFF ∧ e.bytes = toBytes (w / 8) (out i f).1)) ∧
        (∀ e ∈ t.m.sbuf, ∃ i f, doing i f ∧ e.pa = pa i f) ∧
        ((∃ i f, doing i f) → t.ct.vec.owing = s.ct.vec.owing ++ [{
          fflags := flags
          mflags := 0
          deliver := none
          host := s.ct.vec.vcfg.scope == 5
          mem := some (s.ct.ord.opSeq + 1, s.ct.vec.vcfg.scope.toNat) }]) ∧
        ((∀ i f, ¬ doing i f) → t.ct.vec.owing = s.ct.vec.owing) ∧
        (let u := s.vecAccessed t 1
         t = { u with
          ct := { u.ct with
            pc := s.ct.pc + 4
            vec := { s.ct.vec with vstart := 0, pdone := 0, owing := t.ct.vec.owing }
            ctl := { s.ct.ctl with wait := .none, deficit := t.ct.ctl.deficit } }
          m := { u.m with sbuf := t.m.sbuf } })) ∧
      (s.sched.deferStores = false →
       (∀ i f, doing i f → Ready may s { kind := 2 } (q.2.2 i f).1 (max 1 (w / 8)) (pa i f) ∧ fillFirst s (pa i f) (max 1 (w / 8)) = false) →
       ∃ t, exec q.1 s = .next t ∧
        (∀ i f, doing i f → (∀ j h, doing j h → bit j h = bit i f ∨ bit j h + w ≤ bit i f ∨ bit i f + w ≤ bit j h) →
          ∃ j h, doing j h ∧ bit j h = bit i f ∧ ∀ k, k < w → t.memBit (bit i f + k) = (out j h).1.testBit k) ∧
        (∀ x, (∀ i f, ¬ covers i f x) → t.memBit x = s.memBit x) ∧
        VecStoreOnly s t flags)) ∧
  ∀ (s : State) (a : Reg) (p : BitVec 3) (z : BitVec 1) (m : BitVec 5), VecStart s .lv →
    ∃ t, exec (.vpref a p z m) s = .next t ∧ (∀ k, t.die k = { s.die k with el := { (s.die k).el with counts := (t.el k).counts } }) ∧
      t = { s with
        ct := { s.ct with
          pc := s.ct.pc + 4
          vec := { s.ct.vec with vstart := 0, pdone := 0 }
          ctl := { s.ct.ctl with wait := .none, deficit := t.ct.ctl.deficit } }
        dies := t.dies }

/-- R249 to R251: where every index is in bounds and every address ready, VAMO applies to the element at each index the tree of the operation over the
values that name it, in element order, with one update; the flags of the trees are ORed in, and no other byte changes. x0 as the bound register checks
no bound, whatever another one holds is the bound (log entry 133). A task in Bronze mode holds its floating adds and is left out. Where the schedule
lets accesses perform later (R200, log entry 125) each update is left to, and performs before another of its line; the instruction owes its completion
(R201). -/
def Obligations.VectorAtomics : Prop :=
  ∀ (s : State) (v a b c : Reg) (p o w : BitVec 3) (pa : Nat → Nat), VecStart s .lv → Calm s → VecOpen s →
    GroupOk s v → GroupOk s b → s.ct.ord.detctl = false → Memory.wf s.m.mem = true → vamoWidth s.ct.vec.vcfg.ty = some w → o ≠ 7 →
    (10 ≤ s.ct.vec.vcfg.ty → o.toNat < 3 ∨ o.toNat = 6) →
    let ty := s.ct.vec.vcfg.ty
    let ix (i : Nat) := s.elem b.toNat s.ew i
    let doing (i : Nat) : Bool := s.todo p i && !s.ct.vec.pdone.getLsbD i
    let may (x : Nat) : Prop := ∃ i, doing i = true ∧ pa (ix i) ≤ x ∧ x < pa (ix i) + s.ew
    (∀ i, doing i = true → (c = 0 ∨ ix i < (s.getX c).toNat) ∧ fillFirst s (pa (ix i)) s.ew = false) →
    (∀ i j, doing i = true → doing j = true → ix i ≠ ix j → pa (ix i) + s.ew ≤ pa (ix j) ∨ pa (ix j) + s.ew ≤ pa (ix i)) →
    let tree (x : Nat) := vamoTree o ty (((List.range s.ct.vec.vl).filter fun i => doing i && ix i == x).map fun i => s.elem v.toNat s.ew i)
    let new (i : Nat) := (atomicOp o ty (s.numAt (pa (ix i)) s.ew) (tree (ix i)).1).1 % 2 ^ (8 * s.ew)
    let flags := orFlagsOf s p fun i => if doing i then (tree (ix i)).2 else 0
    (s.defers = false →
      (∀ i, doing i = true → Ready may s { kind := 3, quiet := true } (s.getX a + BitVec.ofNat 64 (s.ew * ix i)) s.ew (pa (ix i))) →
      ∃ t, exec (.vamo v a b c p o) s = .next t ∧ (∀ i, doing i = true → t.numAt (pa (ix i)) s.ew = new i) ∧
        (∀ x, ¬ may x → t.byteAt x = s.byteAt x) ∧ VecStoreOnly s t flags) ∧
    (s.defers = true →
      (∀ i s', doing i = true → Along may s { s' with m := { s'.m with late := [] } } →
        ∃ k : Place, k.pa = pa (ix i) ∧ homeOf k.pa ≠ .device ∧ lostHome s k.pa = false ∧
          resolveAligned s'.ctx { kind := 3, quiet := true } (s.getX a + BitVec.ofNat 64 (s.ew * ix i)) s.ew s' = .ok k s') →
      ∃ t, exec (.vamo v a b c p o) s = .next t ∧ SameDies s t ∧ (∀ x, ¬ may x → t.byteAt x = s.byteAt x) ∧
        (∀ i, doing i = true → ∃ l ∈ t.m.late, s.myLate l = true ∧ l.vec = true ∧ l.seq = s.ct.ord.opSeq + 1 ∧ l.pa = pa (ix i) ∧
          l.op = .update w o (BitVec.ofNat 64 (tree (ix i)).1) ∧ l.dest = .none ∧
          t.numAt (pa (ix i)) s.ew = if l.got = none then s.numAt (pa (ix i)) s.ew else new i) ∧
        ((∃ i, doing i = true) → t.ct.vec.owing = s.ct.vec.owing ++ [{
          fflags := flags
          mflags := 0
          deliver := none
          host := s.ct.vec.vcfg.scope == 5
          mem := some (s.ct.ord.opSeq + 1, s.ct.vec.vcfg.scope.toNat) }]) ∧
        ((∀ i, doing i = false) → t.ct.vec.owing = s.ct.vec.owing) ∧
        (let u := s.vecAccessed t 1
         t = { u with
          ct := { u.ct with
            pc := s.ct.pc + 4
            vec := { s.ct.vec with vstart := 0, pdone := 0, owing := t.ct.vec.owing }
            ctl := { s.ct.ctl with wait := .none, deficit := t.ct.ctl.deficit } }
          m := { u.m with mem := t.m.mem, late := t.m.late } }))

-- ## The matrix array

/-- R154 to R160, R336 to R345: MMAC adds to the first GRP rows of its tile the products of the rows of va with the panel that its handle names, pass by
pass; MZERO empties a tile; MLDACC and MDRAIN move rows between registers, memory and a tile, MDRAIN converting with the flags of MXFLAG; MCB loads a
codebook, at once or, where the schedule lets accesses perform later (log entry 125), by a load that lands in it; where the schedule leaves stores in
flight (log entry 5) an MDRAIN to memory buffers its cells and owes its completion (R201). Other tiles and all else are unchanged. A NaN cell goes out
by .f32 with its own bits (log entry 134). Where cells of an MDRAIN share a location the whole of one survives (log entry 13). -/
def Obligations.MatrixArray : Prop :=
  ∀ (s : State) (tile a b v : Reg), VecStart s .lm → s.ct.vec.vstart = 0 → tile.toNat < min 8 s.ct.task.tiles →
    let ty := s.ct.vec.vcfg.ty
    let g := s.ct.vec.vcfg.g
    let vl := s.ct.vec.vl
    let old (r c : Nat) := s.cell tile.toNat r c
    (∀ (pn : Panel) (kp : Nat), GroupOk s a → handleOk (s.getX b) = true → 0 < vl → vl ≤ s.L / s.ew → panelOf s (s.getX b) = some pn →
      pairing ty pn.mf = some kp → vl ≤ pn.dataRows * pn.kRow → pn.len ≤ pn.ready → mmacType ty = true →
      let int := ty == 0 && !pn.scaled
      let kind : TileKind := if int then .int else .fp
      (s.tileKind tile.toNat = .empty ∨ s.tileKind tile.toNat = kind) →
      let row (r : Nat) := (List.range vl).map fun k => aVal ty (s.elem (a.toNat + r) s.ew k)
      let out (r c : Nat) := mmacCell pn ty kp vl int (row r) c (old r c)
      let flags := (List.range g).foldl (fun u r => (List.range 192).foldl (fun u c => u ||| (out r c).2) u) 0
      ∃ t, exec (.mmac tile a b) s = .next t ∧ TileAfter s t tile kind (fun r c => if r < g then (out r c).1 % 2 ^ 32 else old r c) ∧
        MatrixOnly s t flags) ∧
    (∃ t, exec (.mzero tile) s = .next t ∧ TileAfter s t tile .empty (fun _ _ => 0) ∧ MatrixOnly s t 0) ∧
    (GroupOk s a → 0 < vl → vl ≤ 192 → vl ≤ s.L / 4 → ty = 2 ∨ ty = 12 →
      ∃ t, exec (.mldacc tile a) s = .next t ∧
        TileAfter s t tile (if ty = 2 then .int else .fp) (fun r c => if r < g ∧ c < vl then s.elem (a.toNat + r) 4 c else old r c) ∧
        MatrixOnly s t 0) ∧
    (∀ m : BitVec 5, drainMfOk m = true → mfType m 0 = ty → GroupOk s v → 0 < vl → vl ≤ 192 → vl ≤ s.L / s.ew →
      (s.tileKind tile.toNat = .fp → 8 ≤ ty) →
      let out (r c : Nat) := drainConv (s.tileKind tile.toNat) ty (old r c)
      ∃ t, exec (.mdrainRegister tile v m) s = .next t ∧
        (∀ r j, r < g → j < s.L / s.ew → t.elem (v.toNat + r) s.ew j =
          if j < vl then (out r j).1 % 2 ^ (8 * s.ew) else tailAfter s (s.elem (v.toNat + r) s.ew j) j) ∧
        VecOnly s t (inGroup s v.toNat) ∧ t.ct.vec.preds = s.ct.vec.preds ∧ t.ct.vec.queues = s.ct.vec.queues ∧ t.ct.fp = s.ct.fp ∧
        t.ct.mx = { s.ct.mx with mxflag := s.ct.mx.mxflag ||| (List.range g).foldl (fun u r => (List.range vl).foldl (fun u c => u ||| (out r c).2) u) 0 }) ∧
    (∀ (m : BitVec 5) (pa : Nat → Nat → Nat), drainMfOk m = true → vl ≤ 192 → Calm s → VecOpen s → s.ct.ord.detctl = false →
      Memory.wf s.m.mem = true → (s.tileKind tile.toNat = .fp → 8 ≤ mfType m 0) →
      let w := tyBytes (mfType m 0)
      let stride : Word := if b = 0 then BitVec.ofNat 64 (vl * w) else s.getX b
      (s.getX a).toNat % w = 0 → stride.toNat % w = 0 →
      let out (r c : Nat) := drainConv (s.tileKind tile.toNat) (mfType m 0) (old r c)
      let holds (r c x : Nat) : Prop := r < g ∧ c < vl ∧ pa r c ≤ x ∧ x < pa r c + w
      let to_ (r c : Nat) := s.getX a + BitVec.ofNat 64 r * stride + BitVec.ofNat 64 (c * w)
      let flags := (List.range g).foldl (fun u r => (List.range vl).foldl (fun u c => u ||| (out r c).2) u) 0
      (s.sched.deferStores = true →
       (∀ r c s', r < g → c < vl → Along (fun _ => False) s { s' with m := { s'.m with sbuf := [] } } → fillFirst s (pa r c) w = false ∧
         ∃ k : Place, k.pa = pa r c ∧ homeOf k.pa ≠ .device ∧ resolveAligned s'.ctx { kind := 2 } (to_ r c) w s' = .ok k s') →
       ∃ t, exec (.mdrainMemory tile a b m) s = .next t ∧ SameBytes s t ∧ SameDies s t ∧
        (∀ r c, r < g → c < vl → ∃ e ∈ t.m.sbuf, s.mine e = true ∧ e.vec = true ∧ e.op = s.ct.ord.opSeq + 1 ∧ e.pa = pa r c ∧ e.scope = none ∧
          e.mask = 0xFF ∧ e.bytes = toBytes w (out r c).1) ∧
        (∀ e ∈ t.m.sbuf, ∃ r c, r < g ∧ c < vl ∧ e.pa = pa r c) ∧
        (0 < vl → t.ct.vec.owing = s.ct.vec.owing ++ [{
          fflags := 0
          mflags := flags
          deliver := none
          host := s.ct.vec.vcfg.scope == 5
          mem := some (s.ct.ord.opSeq + 1, s.ct.vec.vcfg.scope.toNat) }]) ∧
        (vl = 0 → t.ct.vec.owing = s.ct.vec.owing) ∧
        (let u := s.vecAccessed t 0
         t = { u with
          ct := { u.ct with
            pc := s.ct.pc + 4
            vec := { s.ct.vec with vstart := 0, pdone := 0, owing := t.ct.vec.owing }
            ctl := { s.ct.ctl with wait := .none, deficit := t.ct.ctl.deficit } }
          m := { u.m with sbuf := t.m.sbuf } })) ∧
      (s.sched.deferStores = false →
       (∀ r c, r < g → c < vl → Ready (fun x => ∃ r c, holds r c x) s { kind := 2 } (to_ r c) w (pa r c) ∧ fillFirst s (pa r c) w = false) →
      ∃ t, exec (.mdrainMemory tile a b m) s = .next t ∧
        (∀ r c, r < g → c < vl → (∀ i j, i < g → j < vl → pa i j = pa r c ∨ pa i j + w ≤ pa r c ∨ pa r c + w ≤ pa i j) →
          ∃ i j, i < g ∧ j < vl ∧ pa i j = pa r c ∧ ∀ k, k < w → t.byteAt (pa r c + k) = BitVec.ofNat 8 ((out i j).1 / 256 ^ k)) ∧
        (∀ x, (∀ r c, ¬ holds r c x) → t.byteAt x = s.byteAt x) ∧ SameDies s t ∧
        (let u := s.vecAccessed t 0
         t = { u with
          ct := { u.ct with
            pc := s.ct.pc + 4
            vec := { s.ct.vec with vstart := 0, pdone := 0 }
            mx := { s.ct.mx with mxflag := s.ct.mx.mxflag ||| flags }
            ctl := { s.ct.ctl with wait := .none, deficit := t.ct.ctl.deficit } }
          m := { u.m with mem := t.m.mem } }))) ∧
    ∀ (c : Reg) (pa : Nat), c.toNat < 8 → Calm s → VecOpen s → Ready (fun _ => False) s { kind := 1 } (s.getX a) 32 pa →
     (s.defers = true → s.ct.ord.detctl = false → ∃ t l, exec (.mcb c a) s = .next t ∧ t.m.late = [l] ∧ s.myLate l = true ∧ l.vec = true ∧ l.pa = pa ∧
       l.op = .load 32 ∧ l.dest = .book c.toNat ∧ l.got = none ∧ t.ct.mx = s.ct.mx ∧ t.ct.pc = s.ct.pc + 4 ∧ t.ct.x = s.ct.x ∧ SameBytes s t) ∧
     (s.defers = false ∨ s.ct.ord.detctl = true → ∃ t, exec (.mcb c a) s = .next t ∧
        (∀ k, k < 8 → t.ct.mx.books.toList.getD k 0 = if k = c.toNat then BitVec.ofNat 256 (s.numAt pa 32) else s.ct.mx.books.toList.getD k 0) ∧
        SameDies s t ∧
        (let u := s.vecAccessed t 1
         t = { u with ct := { u.ct with
          pc := s.ct.pc + 4
          vec := { s.ct.vec with vstart := 0, pdone := 0 }
          mx := { s.ct.mx with books := t.ct.mx.books }
          ctl := { s.ct.ctl with wait := .none, deficit := t.ct.ctl.deficit } } }))

/-- R147 to R151, R341: with a card that passes its checks and a source that can be read, MFILL takes the rows of its handle for a new panel, whose rows
are not yet ready, records the fill, and hands its job to the scheduler; where the scheduler is full it stays in the VIQ without effect (log entry
44). A handle or an algebra format that is refused traps ILLEGAL before the card is looked at (R49). -/
def Obligations.MatrixFill : Prop :=
  ∀ (s : State) (d a : Reg) (m : BitVec 5) (e : BitVec 1) (q : BitVec 2) (sd : BitVec 1) (pa : Nat), VecStart s .lm → (e = 1 → s.has .la = true) →
    s.ct.vec.vstart = 0 → Calm s → VecOpen s → s.ct.lcore < 128 →
    let i : Instr := .mfill d a m e q sd
    let o : FillOp := ⟨m, if e = 1 then some (s.alg q) else none, sd == 1⟩
    let bs := s.bytesAt pa 64
    let c := FillCard.parse bs
    let h := s.getX d
    (handleOk h = false ∨ o.fmtOk = false → s.ct.level = .u → ∃ t, exec i s = .next t ∧ t.ct.level = .s ∧ t.ct.pc = s.pkg.sEntry ∧
      t.ct.sup.scause = 0x801 ∧ t.ct.sup.sepc = s.ct.pc ∧ SameBytes s t ∧ t.cores = s.cores) ∧
    (handleOk h = true → o.fmtOk = true → (s.getX a).toNat % 64 = 0 →
      (∀ k, k < 8 → Ready (fun _ => False) s { kind := 1 } (s.getX a + BitVec.ofNat 64 (8 * k)) 8 (pa + 8 * k)) →
      o.cardOk c = true → o.dataRows c + FillOp.scaleRows c ≤ handleLen h →
      (32 ≤ (s.core s.ct.lcore).jobs.length → ∃ t w, exec i s = .next t ∧ w.instr = i ∧ w.pc = s.ct.pc ∧ w.issue = none ∧ w.done = none ∧
        t = { s with ct := { s.ct with
          pc := s.ct.pc + 4, vec := { s.ct.vec with viq := [w] }, ctl := { s.ct.ctl with wait := .none } } }) ∧
      ((s.core s.ct.lcore).jobs.length < 32 →
        (∀ x ∈ fillSources o c, ∀ s', Along (fun _ => False) s s' →
          ∃ p, resolveAligned s'.ctx { kind := 1, quiet := true } x.1 x.2.1 s' = .ok p s') →
        ∃ t pn j r, exec i s = .next t ∧
          (t.core s.ct.lcore).panels = (s.core s.ct.lcore).panels.filter (fun p => !rowsMeet p.row p.len (handleRow h) (handleLen h)) ++ [pn] ∧
          pn.row = handleRow h ∧ pn.len = handleLen h ∧ pn.task = s.ct.task.taskid ∧ pn.mf = m ∧ pn.ready = 0 ∧ pn.dataRows = o.dataRows c ∧
          (t.core s.ct.lcore).jobs = (s.core s.ct.lcore).jobs ++ [j] ∧ j.engine = .fill pn.id ∧ j.task = s.ct.task.taskid ∧ j.level = s.ct.level ∧ j.state = .ready 0 ∧
          j.reads = fillReads s.ctx o c ∧ (∀ k, k ≠ s.ct.lcore → t.core k = s.core k) ∧
          t.ct.mx.fills.getLast? = some r ∧ r.handle = h ∧ r.card = bs ∧ r.panel = pn.id ∧ r.written = false ∧ SameDies s t ∧
          (let u := s.vecAccessed t 0
           t = { u with
            ct := { u.ct with
              pc := s.ct.pc + 4
              vec := { s.ct.vec with vstart := 0, pdone := 0 }
              mx := { s.ct.mx with fills := t.ct.mx.fills }
              ctl := { s.ct.ctl with wait := .none, deficit := t.ct.ctl.deficit } }
            cores := t.cores
            pkg := { s.pkg with idCtr := s.pkg.idCtr + 1 }
            pending := s.pending ++ [.jobStart s.ct.lcore] })))

-- ## The memory system and the vector stream's steps

/-- R179, R207, R211, R225, R234, R236, R250, R253, R257, R258, R264, R270, R271, Table 9.3: what each step of the memory system changes, and that it
changes nothing else. A store translated through a page-table line performs before the line's translations go; one toward a lost home is dropped and
its task contained. A writeback is two steps, of which the first leaves the line in a buffer (log entry 79); of a line that no cluster owns it drops
the race records (log entry 116); and a chain applies at any time (log entry 80). -/
def Obligations.MemorySystemSteps : Prop :=
  (∀ (s : State) (line : Nat), s.m.sbuf = [] → s.m.wcb = [] → s.m.early = [] → s.m.late = [] → s.m.slines = [] →
    ∃ t, exec (.translationInvalidate line) s = .next t ∧ SameDies s t ∧
      t = { s with
        m := { s.m with tlb := s.m.tlb.filter fun e => !(e.deps.any fun d => d - d % 64 == line - line % 64) }
        dies := t.dies }) ∧
  (∀ (s : State) (b : BufStore), Calm { s with m := { s.m with sbuf := [] } } → s.m.sbuf = [b] → b.mask = 0xFF → Memory.wf s.m.mem = true →
    (lostHome s b.pa = false →
      let put (t : State) : Prop := t.bytesAt b.pa b.bytes.length = b.bytes ∧ SameBytesOutside s t b.pa b.bytes.length ∧ SameDies s t ∧
        t = { s.accessed t with m := { (s.accessed t).m with mem := t.m.mem, sbuf := [] } }
      (s.mine b = true → ∃ t, exec .storeBufferDrain s = .next t ∧ put t) ∧
      ∀ line, (∃ d ∈ b.deps, d - d % 64 = line - line % 64) → ∃ t, exec (.translationInvalidate line) s = .next t ∧ put t) ∧
    (lostHome s b.pa = true → s.mine b = true → s.ct.task.taskid = b.task →
      ∃ t, exec .storeBufferDrain s = .next t ∧ t.m = { s.m with sbuf := [] } ∧ t.ct = { s.ct with ctl := { s.ct.ctl with contain := true } })) ∧
  (∀ s : State, (∀ e ∈ s.m.sbuf, s.mine e = false) → exec .storeBufferDrain s = .next s) ∧
  (∀ (s : State) (line : Nat), s.m.chains = [] →
    let l := line - line % 64
    let sent (i : Instr) (m : MemSt) : Prop := ∃ t, exec i s = .next t ∧ SameDies s t ∧ t = { s with m := m, dies := t.dies }
    let gone : MemSt := { s.m with wbuf := s.m.wbuf.filter fun o => o.1 != l }
    sent (.writebackForward line) gone ∧
    ((∃ o ∈ s.m.wbuf, o.1 = l) → sent (.dirtyWriteback line) gone) ∧
    ((∀ o ∈ s.m.wbuf, o.1 ≠ l) → (∃ o ∈ s.m.owners, o.1 = l) → sent (.dirtyWriteback line) { s.m with
      wbuf := s.m.wbuf ++ s.m.owners.filter (fun o => o.1 == l), owners := s.m.owners.filter fun o => o.1 != l }) ∧
    ((∀ o ∈ s.m.wbuf, o.1 ≠ l) → (∀ o ∈ s.m.owners, o.1 ≠ l) →
      exec (.dirtyWriteback line) s = .next { s with m := { s.m with races := s.m.races.filter fun r => r.1 != l } }) ∧
    exec (.cxlCacheSnoop line) s = .next { s with m := { s.m with cxlHeld := s.m.cxlHeld.filter fun x => x != line } }) ∧
  (∀ (s : State) (x : SLine) (line : Nat), s.m.slines = [x] → x.pa = line - line % 64 → x.state = .dirty → Memory.wf s.m.mem = true →
    s.m.chains = [] → s.m.poison = [] → s.m.early = [] → lostHome s x.pa = false →
    ∀ q ∈ ([(.stashRemoteRead line, .clean), (.stashRemoteWrite line, .mapped)] : List (Instr × SLineState)),
      ∃ t, exec q.1 s = .next t ∧ (∀ k, k < 64 → t.byteAt (x.pa + k) = s.byteAt (x.at_ + k)) ∧ SameBytesOutside s t x.pa 64 ∧ SameDies s t ∧
        t = { s with
          m := { s.m with mem := t.m.mem, slines := [{ x with state := q.2 }] }
          dies := t.dies }) ∧
  (∀ (s : State) (u : Update), u.held = none →
    (lostHome s u.addr = true → exec (.updateArrival u) s = .next s) ∧
    (lostHome s u.addr = false → Calm s →
      ∃ t, exec (.updateArrival u) s = .next t ∧ (∀ o ∈ t.m.owners, o.1 ≠ u.addr - u.addr % 64) ∧ (∀ c ∈ t.m.copies, c.2 ≠ u.addr - u.addr % 64) ∧
        SameDies s t ∧ t = { s.accessed t with m := { (s.accessed t).m with chains := [(u.addr - u.addr % 8, [u])] } })) ∧
  (∀ (s : State) (u : Update) (dw : Nat), s.m.chains = [(dw - dw % 8, [u])] → Calm { s with m := { s.m with chains := [] } } → u.held = none →
    Memory.wf s.m.mem = true →
    let n := amoBytes u.width
    ∃ t, exec (.chainApply dw) s = .next t ∧
      BytesSet s t u.addr n (atomicOp u.op (amoType u.width) (s.numAt u.addr n) u.value.toNat).1 ∧ SameDies s t ∧
      t = { s.accessed t with m := { (s.accessed t).m with mem := t.m.mem, chains := [] } }) ∧
  (∀ (s : State) (u w : Update) (a b : HeldTag) (dw : Nat), s.m.chains = [(dw - dw % 8, [w, u])] → Calm { s with m := { s.m with chains := [] } } →
    u.held = some a → w.held = some b → a.interval < b.interval → u.addr = w.addr → u.width = w.width → Memory.wf s.m.mem = true →
    let n := amoBytes u.width
    let ty := amoType u.width
    let first := (atomicOp u.op ty (s.numAt u.addr n) u.value.toNat).1 % 2 ^ (8 * n)
    ∃ t, exec (.chainApply dw) s = .next t ∧ BytesSet s t u.addr n (atomicOp w.op ty first w.value.toNat).1 ∧ t.m.chains = [] ∧
      (t.el (homeDie (dw - dw % 8))).counts.toList.getD 1 0 = (s.el (homeDie (dw - dw % 8))).counts.toList.getD 1 0 + 1) ∧
  ∀ (s : State) (va : Word), s.ct.lcore < 128 → Calm s →
    ∃ t new, exec (.hardwarePrefetch va) s = .next t ∧
      t = { s.accessed t with
        m := { (s.accessed t).m with tlb := new }
        fresh := t.fresh } ∧
      (∀ k, t.die k = { s.die k with causal := (t.die k).causal, el := { (s.die k).el with counts := (t.el k).counts } }) ∧
      (windowOf va ≠ .global →
        (t.el (dieOf s.ct.lcore)).counts.toList.getD 0 0 = (s.el (dieOf s.ct.lcore)).counts.toList.getD 0 0 + 1 ∧ new = [])

/-- R99, R107, R71, R76, R80, R201: the lane arbiter issues the head of the one ready control thread on the lane groups that it has a share of, and the
array's arbiter on the array; DEF moves by the weight and the work: the lane groups times the occupancy of the entry, with the latency of a memory
instruction's first beat (a free value, log entry 6). A head that has executed completes where its queue has room and the host has answered: VSTART
and pdone become 0, its flags and its delivery take effect, its lanes are free, and it leaves the VIQ. One that has executed with accesses open
completes once they have performed, where no head goes first: its flags take effect then, with those of an element that landed late (R385, log entry
125). -/
def Obligations.VectorStreamSteps : Prop :=
  (∀ (s : State) (c : Nat), (∀ n, n < 4 → (s.thread c n).status ≠ .running) →
    exec (.laneIssue c) s = .next s ∧ exec (.arrayIssue c) s = .next s) ∧
  (∀ (s : State) (e : VEntry) (r : List VEntry), s.ct.lcore < 128 → s.ct.ctno < 4 → s.ct.status = .running → s.ct.vec.stopped = none →
    (∀ n, n < 4 → n ≠ s.ct.ctno → (s.thread s.ct.lcore n).status ≠ .running) → s.ct.vec.viq = e :: r → e.nested = false → e.issue = none →
    e.done = none → isVcfg e.instr = false → 1 ≤ s.ct.task.share →
    (∀ d : Int, canIssue { s with ct := { s.ct with ctl := { s.ct.ctl with deficit := d } } } e = true) →
    let k := s.core s.ct.lcore
    let lanes := min k.freeLanes (max s.ct.task.minlg 8)
    let def1 := max (-4096) (min 4096 (s.ct.ctl.deficit + (s.ct.task.share : Int)))
    let issued (t : State) (i : Issue) (d : Int) : Prop :=
      t = { s with
        ct := { s.ct with
          vec := { s.ct.vec with viq := { e with issue := some i } :: r }
          ctl := { s.ct.ctl with deficit := max (-4096) (min 4096 d) } }
        cores := t.cores
        fresh := if isVecMem e.instr && !isArray e.instr then s.fresh + 1 else s.fresh } ∧ ∀ c, c ≠ s.ct.lcore → t.core c = s.core c
    (isArray e.instr = false → s.ct.task.minlg ≤ k.freeLanes → 0 < k.freeLanes →
      let clocks := occupancy s e lanes + (if isVecMem e.instr then (Config.timing s.fresh).toNat else 0)
      ∃ t, exec (.laneIssue s.ct.lcore) s = .next t ∧ issued t ⟨lanes, false, clocks⟩ (def1 - (lanes * clocks : Nat)) ∧
        t.core s.ct.lcore = { k with freeLanes := k.freeLanes - lanes }) ∧
    (isArray e.instr = true → k.arrayBusy = false →
      let clocks := occupancy s e 8
      ∃ t, exec (.arrayIssue s.ct.lcore) s = .next t ∧ issued t ⟨0, true, clocks⟩ (s.ct.ctl.deficit - (8 * clocks : Nat)) ∧
        t.core s.ct.lcore = { k with arrayBusy := true })) ∧
  (∀ (s : State) (ef : Effects), VecForm s → s.ct.status = .running → s.ct.vec.viq = [] → s.ct.vec.owing = [ef] → ef.sample = [] → ef.deliver = none →
    let paid (t : State) (fl : FFlags) : Prop := t = { s with
      ct := { s.ct with
        vec := { s.ct.vec with owing := [], vfile := t.ct.vec.vfile }
        fp := { s.ct.fp with fstat := s.ct.fp.fstat ||| fl }
        mx := { s.ct.mx with mxflag := s.ct.mx.mxflag ||| ef.mflags } }
      m := t.m }
    (staysOpen s ef = false → ∃ t, exec (.vectorComplete s.ct.lcore s.ct.ctno) s = .next t ∧ paid t ef.fflags ∧ t.m = s.m ∧
      t.ct.vec.vfile = s.ct.vec.vfile) ∧
    (∀ (op sc reg w i sh bits ety : Nat) (l : Late) (m : BitVec 5) (bs : List Byte), ef.mem = some (op, sc) → ef.host = false → s.m.sbuf = [] →
      s.m.late = [l] → s.myLate l = true → l.vec = true → l.seq = op → l.dest = .elem reg w i m ety sh bits → l.got = some (bs, 0) →
      w ∈ [1, 2, 4, 8] → reg * s.L + (i + 1) * w ≤ 32 * s.L →
      let x := codeValue m ety (leNat bs / 2 ^ sh % 2 ^ bits)
      ∃ t, exec (.vectorComplete s.ct.lcore s.ct.ctno) s = .next t ∧ paid t (ef.fflags ||| x.2) ∧ t.m = { s.m with late := [] } ∧
        t.elem reg w i = x.1 % 2 ^ (8 * w) ∧
        (∀ r k, r * s.L + (k + 1) * w ≤ 32 * s.L → reg * s.L + i * w ≠ r * s.L + k * w → t.elem r w k = s.elem r w k))) ∧
  ∀ (s : State) (e : VEntry) (r : List VEntry) (ef : Effects) (groups clocks : Nat), s.ct.lcore < 128 → s.ct.status = .running →
    s.ct.vec.stopped = none → s.ct.vec.viq = e :: r → e.nested = false → e.done = some ef → e.issue = some ⟨groups, false, clocks⟩ → s.m.sbuf = [] → s.m.late = [] →
    ef.sample = [] → s.ct.ctl.wait ≠ .ending → (∀ d, ef.deliver = some d → d.1 < 8 ∧ s.roomIn d.1 = true) → (ef.host = true → s.m.biWait = []) →
    ∃ t, exec (.vectorComplete s.ct.lcore s.ct.ctno) s = .next t ∧
      t = { s with
        ct := { s.ct with
          vec := { s.ct.vec with
            vstart := 0, pdone := 0, viq := r, hold := s.ct.vec.hold && !r.isEmpty, queues := t.ct.vec.queues }
          fp := { s.ct.fp with fstat := s.ct.fp.fstat ||| ef.fflags }
          mx := { s.ct.mx with mxflag := s.ct.mx.mxflag ||| ef.mflags }
          ord := { s.ct.ord with vvOpen := s.ct.ord.vvOpen && r.any fun x => isVecMem x.instr } }
        cores := t.cores } ∧
      (∀ q, t.queue q = s.queue q ++ (match ef.deliver with
        | some d => if d.1 = q then [d.2] else []
        | none => [])) ∧
      (t.core s.ct.lcore = { s.core s.ct.lcore with freeLanes := min 8 ((s.core s.ct.lcore).freeLanes + groups) }) ∧
      ∀ c, c ≠ s.ct.lcore → t.core c = s.core c

-- ## Tasks

/-- R87, R27, R56, R90, R96: a free control thread of a ready core takes the bottom entry of the lowest class that has one; of a range entry it starts the
lowest instance: the pc and the arguments come from the record that the start record embeds, tr is its address, x9 the instance number, every other
register 0, the vector state is that of R63, and the TASKID is the next value of a counter (log entry 16); its first word is checked for LAND.task.
The rest of the range stays. An entry that is no multiple of 4 traps LANDING (log entry 28). -/
def Obligations.TaskStart : Prop :=
  (∀ (s : State) (c n : Nat), (s.thread c n).status ≠ .free ∨ s.coreReady c = false → exec (.taskStart c n) s = .next s) ∧
  ∀ (s : State) (k ch lo n born : Nat) (pin spilled : Bool) (l : List DqEntry) (c : Chunk) (la : Launch), s.ct.lcore < 128 → s.ct.ctno < 4 →
    s.ct.status = .free → s.coreReady s.ct.lcore = true → (∀ i, i < 4 → (s.thread s.ct.lcore i).ctl.wait ≠ .grant) →
    Calm s → (∀ d, (s.el d).recording = false ∧ (s.el d).replaying = false) → k < 4 →
    (∀ i, i < k → (s.core s.ct.lcore).deques.toList.getD i [] = []) →
    (s.core s.ct.lcore).deques.toList.getD k [] = l ++ [⟨.range ch lo n, pin, spilled, born⟩] → s.chunk ch = some c → c.id = ch →
    s.launch c.launch = some la → la.id = c.launch →
    atHome la.slotPa s = .ok () s →
    let word (i : Nat) := BitVec.ofNat 64 (s.numAt (la.slotPa + 8 * i) 8)
    let ctl := Ctl.parse (word 7).toNat
    ctl.stash = 0 → ctl.group = 0 →
    ((word 0).toNat % 4 ≠ 0 → ∃ t, exec (.taskStart s.ct.lcore s.ct.ctno) s = .next t ∧ t.ct.level = .s ∧ t.ct.pc = s.pkg.sEntry ∧
      t.ct.sup.scause = 0x09 ∧ t.ct.sup.sepc = word 0 &&& ~~~ 3 ∧ t.ct.ctl.ltask = none) ∧
    ((word 0).toNat % 4 = 0 →
    ∃ t, exec (.taskStart s.ct.lcore s.ct.ctno) s = .next t ∧ t.ct.status = .running ∧ t.ct.level = .u ∧ t.ct.pc = word 0 ∧
      t.ct.ctl.ltask = some (word 0) ∧
      (∀ r : Reg, t.getX r = if r = 2 then la.tva else if 3 ≤ r.toNat ∧ r.toNat ≤ 8 then word (r.toNat - 2)
        else if r = 9 then la.base + BitVec.ofNat 64 lo else 0) ∧
      t.ct.vec = VecSt.start ∧ t.ct.fp = FpSt.start ∧ t.ct.mx = MxSt.start ∧ t.ct.sup = { s.ct.sup with troot := la.troot } ∧
      t.ct.task.taskid = BitVec.ofNat 64 s.pkg.taskCtr ∧ t.pkg.taskCtr = s.pkg.taskCtr + 1 ∧ t.ct.task.isInst = true ∧ t.ct.task.chunk = some ch ∧
      t.ct.task.prio = ctl.prio ∧ t.ct.task.regLen = min ctl.vceil 2048 ∧ t.ct.task.tiles = min (max ctl.accmin ctl.accwant) 8 ∧
      (t.core s.ct.lcore).deques.toList.getD k [] =
        l ++ (if n ≤ 1 then [] else [⟨.range ch (lo + 1) (n - 1), pin, spilled, born⟩]) ∧
      (∀ i, i ≠ k → (t.core s.ct.lcore).deques.toList.getD i [] = (s.core s.ct.lcore).deques.toList.getD i []) ∧
      (∀ i, i ≠ s.ct.lcore → t.core i = s.core i) ∧ t.m = (s.accessed t).m ∧ SameDies s t ∧ t.others = s.others)

/-- R320, R325, R106, Table 4.9: a group operation that its controller takes changes its group alone, and one that it refuses changes nothing; a post
raises its channel's value; a hop brings a die the value and version of the die before it where they are newer. -/
def Obligations.GroupAndRingSteps : Prop :=
  (∀ (s : State) (g : Nat) (m : Member),
    (∀ op : GroupOp, groupLost s g = true ∨ groupRefuses s g op m.task = true → exec (.groupOpApply g op m) s = .next s) ∧
    (groupLost s g = false → groupRefuses s g .join m.task = false → (s.group g).has m.task = false → s.m.wcb = [] →
      ∃ t, exec (.groupOpApply g .join m) s = .next t ∧ (t.group g).members = (s.group g).members ++ [⟨m, false⟩] ∧
        (t.group g).phase = (s.group g).phase ∧ (∀ h, h ≠ g → t.group h = s.group h) ∧ SameDies s t ∧
        t = { s with
          dies := t.dies
          pkg := { s.pkg with groups := t.pkg.groups } }) ∧
    (groupLost s g = false → (s.group g).has m.task = true → (∃ x ∈ (s.group g).members, x.who.task ≠ m.task ∧ x.arrived = false) → s.m.wcb = [] →
      ∃ t, exec (.groupOpApply g .arrive m) s = .next t ∧ (t.group g).phase = (s.group g).phase ∧
        (t.group g).members = (s.group g).members.map (fun x => if x.who.task = m.task then ⟨m, true⟩ else x) ∧
        (∀ h, h ≠ g → t.group h = s.group h) ∧ SameDies s t ∧
        t = { s with
          dies := t.dies
          pkg := { s.pkg with groups := t.pkg.groups } })) ∧
  (∀ (s : State) (c : Nat) (v : Word), c < 16 → s.pkg.parked = [] →
    let k := s.pkg.chans.toList.getD c Channel.reset
    ∃ t, exec (.orderPointApply c v) s = .next t ∧ (t.pkg.chans.toList.getD c Channel.reset).value.toNat = max k.value.toNat v.toNat ∧
      (t.pkg.chans.toList.getD c Channel.reset).version = k.version + 1 ∧
      (∀ h, h ≠ c → t.pkg.chans.toList.getD h Channel.reset = s.pkg.chans.toList.getD h Channel.reset) ∧
      t = { s with
        pkg := { s.pkg with chans := t.pkg.chans }
        pending := t.pending }) ∧
  ∀ (s : State) (c d : Nat), c < 16 → d < 4 → s.pkg.parked = [] → (∀ k, k < 4 → s.dieFenced k = false) →
    let before := ringCopy s ((d + 3) % 4) c
    ∃ t, exec (.ringHop c d) s = .next t ∧
      ringCopy t d c = (if d = c % 4 then ringCopy s d c else if (ringCopy s d c).2 < before.2 then before else ringCopy s d c) ∧
      (∀ k h, k < 4 → h < 16 → (k, h) ≠ (d, c) → ringCopy t k h = ringCopy s k h) ∧ SameDies s t ∧
      t = { s with
        dies := t.dies
        pkg := { s.pkg with chans := t.pkg.chans } }

/-- R107, R192, R239, R243, R244, R271: PREEMPT takes the running task of the highest class number, at its boundary; it saves the victim's context whole,
ends the race records of its core, queues its record again in the class of PRIO at its start (log entry 53) and frees the thread; a completion is
delivered as the lowest pending tag, at a LAND, with the main k0 to k7 set aside; CONTAIN ends the task that is running without a delivery. None of
them does anything where its condition does not hold. -/
def Obligations.BoundaryEvents : Prop :=
  (∀ s : State, preemptVictim s s.ct.lcore = none → exec .preempt s = .next s) ∧
  (∀ (s : State) (c : Nat) (t : Thread), preemptVictim s c = some t → t.level = .u ∧ t.ctl.lpend = false ∧
    ∀ u ∈ coreThreads s c, u.status = .running → u.ctl.spend = none → u.task.prio ≤ t.task.prio) ∧
  (∀ s : State, preemptVictim s s.ct.lcore = some s.ct → Calm s → s.ct.lcore < 128 → s.ct.ctl.gwait = [] → s.ct.vec.viq = [] →
    s.ct.vec.owing = [] → s.ct.vec.stopped = none → jobsOf s s.ct.lcore s.ct.task.taskid = [] → hwCount (s.core s.ct.lcore) < 64 → s.ct.task.prio < 4 →
    ∃ t kept born, exec .preempt s = .next t ∧ t.ct.status = .free ∧ t.ct.sup.scause = 0x20 ∧ t.ct.sup.sepc = s.ct.pc ∧
      t.pkg.saved = s.pkg.saved ++ [kept] ∧ kept.x = s.ct.x ∧ kept.pc = s.ct.pc ∧ kept.vec = s.ct.vec ∧ kept.fp = s.ct.fp ∧ kept.task = s.ct.task ∧
      kept.uli = s.ct.uli ∧ kept.mx = s.ct.mx ∧ kept.nest = s.ct.nest ∧
      (t.core s.ct.lcore).deques.toList.getD s.ct.task.prio [] = (s.core s.ct.lcore).deques.toList.getD s.ct.task.prio [] ++
        [⟨.record s.ct.task.record s.ct.task.chunk s.ct.sup.troot s.ct.task.lkey (some s.ct.task.taskid), s.ct.task.stashLen != 0, false, born⟩] ∧
      t.m = { s.m with races := s.m.races.filter fun r => r.2 != s.ct.lcore } ∧ t.others = s.others) ∧
  (∀ s : State, deliverable s = false → exec .ulDelivery s = .next s) ∧
  (∀ (s : State) (k : Nat), deliverable s = true → NoReplay s → k < 32 → s.ct.uli.pend.getLsbD k = true →
    (∀ j, j < k → s.ct.uli.pend.getLsbD j = false) → s.m.early = [] →
    ∃ t, exec .ulDelivery s = .next t ∧ t.ct.pc = s.ct.uli.ulivec &&& ~~~ 3 ∧ t.ct.ctl.lpend = true ∧ t.ct.uli.act = true ∧ t.ct.uli.tag = BitVec.ofNat 5 k ∧
      t.ct.uli.err = s.ct.uli.errs.any (fun e => e.tag == k) ∧ t.ct.uli.pend = s.ct.uli.pend &&& ~~~ (1#32 <<< k) ∧ t.getX 21 = s.ct.pc ∧
      (∀ n : Fin 8, 0 < n.val → t.getX (BitVec.ofNat 5 (21 + n.val)) = s.ct.uli.kother[n]) ∧
      (∀ n : Fin 8, t.ct.uli.kother[n] = s.getX (BitVec.ofNat 5 (21 + n.val))) ∧
      (∀ r : Reg, r.toNat < 21 ∨ 29 ≤ r.toNat → t.getX r = s.getX r) ∧
      t = { s with ct := { s.ct with pc := t.ct.pc, x := t.ct.x, uli := t.ct.uli, ctl := { s.ct.ctl with wait := .none, lpend := true } } }) ∧
  (∀ s : State, s.ct.ctl.contain = false → exec .contain s = .next s) ∧
  (∀ s : State, s.ct.ctl.contain = true → s.ct.status = .free →
    exec .contain s = .next { s with ct := { s.ct with ctl := { s.ct.ctl with contain := false } } }) ∧
  ∀ s : State, s.ct.ctl.contain = true → s.ct.status = .running → s.ct.level = .u → jobsOf s s.ct.lcore s.ct.task.taskid = [] → Calm s →
    s.ct.vec.viq = [] → groupsOf s s.ct.task.taskid = [] → s.ct.task.stashLen = 0 → s.ct.task.chunk = none → s.ct.task.launch = none →
    ∃ t, exec .contain s = .next t ∧ t.ct.status = .free ∧ t.ct.ctl.contain = false ∧ t.ct.sup.scause = 0x0F ∧ t.ct.sup.sepc = s.ct.pc ∧
      (∀ r, t.getX r = 0) ∧ SameBytes s t ∧ t.others = s.others ∧ t.pkg = s.pkg

-- ## Jobs

/-- R185, R187 to R191, R238, R269, R151: the scheduler starts the oldest ready job that has no footprint edge to an earlier uncompleted one (which of the
jobs without an edge starts is log entry 109), and none where every ready job has an edge; an XCOPY of bytes moves them, all at once or as many as the
schedule lets it in a step; a job of one dimension of an XCOPY, XGATH or XCOLL, at formats of whole bytes, reads at each position the element that its
index, sign- or zero-extended, or else the position names, converts it where the formats differ, and writes it or, from op 2 on, combines it with the
destination element; a completed job leaves, and sets PEND where its card says so; a paused job posts its fault once; a fill writes one row. -/
def Obligations.JobSteps : Prop :=
  (∀ (s : State) (c : Nat), (s.core c).jobs = [] →
    exec (.jobStart c) s = .next s ∧ exec (.jobComplete c) s = .next s ∧ exec (.jobPageFault c) s = .next s ∧ exec (.fillRowWrite c) s = .next s) ∧
  (∀ (s : State) (c : Nat), (∀ (before r : List Job) (j : Job) (n : Nat), (s.core c).jobs = before ++ j :: r → j.state = .ready n →
    ∃ b ∈ before, edge b j = true) → exec (.jobStart c) s = .next s) ∧
  (∀ (s : State) (c : Nat) (before r : List Job) (j : Job) (n ps pd : Nat), c < 128 → (s.core c).jobs = before ++ j :: r →
    (∀ o ∈ before ++ r, o.id ≠ j.id) → (∀ b ∈ before, edge b j = false) →
    (∀ (first last : List Job) (b : Job) (k : Nat), before = first ++ b :: last → b.state = .ready k → ∃ o ∈ first, edge o b = true) →
    j.engine = .copy → j.state = .ready 0 → Calm s →
    Memory.wf s.m.mem = true → j.card.ndim = 1 → j.card.cnt = [n, 0, 0, 0, 0, 0] → j.card.op = 0 → j.card.idxf = 0 → j.card.regions = [] →
    j.card.sfmt = 5 → j.card.dfmt = 5 → (ps + n ≤ pd ∨ pd + n ≤ ps) → (s.el (dieOf c)).hist = false →
    let may := fun x => pd ≤ x ∧ x < pd + n
    (∀ i s', i < n → Along may s s' →
      ∃ p : Place, p.pa = ps + i ∧ resolve (j.ctx c) { kind := 1 } (j.card.src + BitVec.ofNat 64 i) 1 s' = .ok p s') →
    (∀ i s', i < n → Along may s s' →
      ∃ p : Place, p.pa = pd + i ∧ resolve (j.ctx c) { kind := 2 } (j.card.dst + BitVec.ofNat 64 i) 1 s' = .ok p s') →
    let m := if s.sched.jobLines = 0 then n else min n s.sched.jobLines
    ∃ t, exec (.jobStart c) s = .next t ∧ (∀ i, i < m → t.byteAt (pd + i) = s.byteAt (ps + i)) ∧ SameBytesOutside s t pd m ∧
      (t.core c).jobs = before ++ { j with state := if m < n then .ready m else .moved } :: r ∧ (∀ k, k ≠ c → t.core k = s.core k) ∧ SameDies s t ∧
      t = { s.accessed t with
        m := { (s.accessed t).m with mem := t.m.mem }
        cores := t.cores
        pending := if m < n then s.pending ++ [.jobStart c, .jobComplete c] else s.pending }) ∧
  (∀ (s : State) (c : Nat) (before r : List Job) (j : Job) (n pd : Nat) (w : BitVec 3) (psrc pidx : Nat → Nat), c < 128 → (s.core c).jobs = before ++ j :: r →
    (∀ o ∈ before ++ r, o.id ≠ j.id) → (∀ b ∈ before, edge b j = false) →
    (∀ (first last : List Job) (b : Job) (k : Nat), before = first ++ b :: last → b.state = .ready k → ∃ o ∈ first, edge o b = true) →
    j.engine ∈ ([.copy, .gather, .coll] : List Engine) → j.state = .ready 0 → s.sched.jobLines = 0 → Calm s → Memory.wf s.m.mem = true →
    (s.el (dieOf c)).hist = false → j.card.ndim = 1 → j.card.cnt = [n, 0, 0, 0, 0, 0] → j.card.op ≤ 4 →
    jobFmtOk j.card.sfmt = true → jobFmtOk j.card.dfmt = true → 8 ≤ fmtBits j.card.sfmt → 8 ≤ fmtBits j.card.dfmt →
    (2 ≤ j.card.op → collFmt j.card.dfmt = some w) →
    let sb := fmtBits j.card.sfmt / 8
    let db := fmtBits j.card.dfmt / 8
    let ib := if j.card.idxf = 3 then 8 else 4
    let ix (i : Nat) := s.numAt (pidx i) ib
    let num (i : Nat) : Int := if j.card.idxf = 0 then i else if j.card.idxf = 2 then ix i else toSigned (8 * ib) (ix i)
    let from_ (i : Nat) := j.card.src + BitVec.ofInt 64 (num i * sb)
    let to_ (i : Nat) := j.card.dst + BitVec.ofNat 64 (i * db)
    let at_ (i : Nat) := j.card.idx + BitVec.ofNat 64 (ib * i)
    let may := fun x => pd ≤ x ∧ x < pd + n * db
    (∀ i, i < n → (from_ i).toNat % sb = 0 ∧ (to_ i).toNat % db = 0 ∧ (at_ i).toNat % ib = 0 ∧
      inRegions (j.ctx c) j.card false (from_ i) sb = true ∧ inRegions (j.ctx c) j.card true (to_ i) db = true ∧
      (psrc i + sb ≤ pd ∨ pd + n * db ≤ psrc i) ∧ (pidx i + ib ≤ pd ∨ pd + n * db ≤ pidx i)) →
    (∀ i s', i < n → Along may s s' →
      (∃ p : Place, p.pa = psrc i ∧ resolve (j.ctx c) { kind := 1 } (from_ i) sb s' = .ok p s') ∧
      (∃ p : Place, p.pa = pd + i * db ∧ resolve (j.ctx c) { kind := if j.card.op ≤ 1 then 2 else 3 } (to_ i) db s' = .ok p s') ∧
      (j.card.idxf ≠ 0 → ∃ p : Place, p.pa = pidx i ∧ resolve (j.ctx c) { kind := 1 } (at_ i) ib s' = .ok p s')) →
    let raw (i : Nat) := s.numAt (psrc i) sb
    let val (i : Nat) := if j.card.sfmt = j.card.dfmt then raw i else (convert Rc.rne (mfType j.card.sfmt 0) (mfType j.card.dfmt 0) (raw i)).1
    let opc : BitVec 3 := if j.card.op = 2 then 0 else if j.card.op = 3 then 2 else 1
    let new (i : Nat) := if j.card.op ≤ 1 then val i
      else (atomicOp opc (amoType w) (s.numAt (pd + i * db) db) (val i)).1
    ∃ t, exec (.jobStart c) s = .next t ∧ (∀ i, i < n → t.numAt (pd + i * db) db = new i % 2 ^ (8 * db)) ∧ SameBytesOutside s t pd (n * db) ∧
      (t.core c).jobs = before ++ { j with state := .moved } :: r ∧ (∀ k, k ≠ c → t.core k = s.core k) ∧ SameDies s t ∧
      t = { s.accessed t with
        m := { (s.accessed t).m with mem := t.m.mem }
        cores := t.cores }) ∧
  (∀ (s : State) (c : Nat) (j : Job) (r : List Job), c < 128 → (s.core c).jobs = j :: r → (∀ o ∈ r, o.id ≠ j.id) → j.state = .moved → j.engine = .copy →
    s.pkg.parked = [] → s.pkg.saved = [] → s.ct.task.taskid = j.task → (∀ o ∈ s.others, o.task.taskid ≠ j.task) → j.err = none → j.tag < 32 →
    ∃ t, exec (.jobComplete c) s = .next t ∧ (t.core c).jobs = r ∧ (∀ k, k ≠ c → t.core k = s.core k) ∧
      t = { s with
        ct := { s.ct with uli := { s.ct.uli with pend := if j.card.int then s.ct.uli.pend ||| (1#32 <<< j.tag) else s.ct.uli.pend } }
        cores := t.cores
        pending := s.pending ++ (if r = [] then [] else [.jobStart c, .jobComplete c]) }) ∧
  (∀ (s : State) (c : Nat) (j : Job) (pos : Nat) (cause va : Word), c < 128 → (s.core c).jobs = [j] → j.state = .paused pos cause va false →
    ∃ t, exec (.jobPageFault c) s = .next t ∧ (t.core c).jobs = [{ j with state := .paused pos cause va true }] ∧
      t.pkg.jobFaults = s.pkg.jobFaults ++ [⟨c, j.tag, va, cause⟩] ∧ (∀ k, k ≠ c → t.core k = s.core k) ∧
      t = { s with
        cores := t.cores
        pkg := { s.pkg with jobFaults := t.pkg.jobFaults } }) ∧
  ∀ (s : State) (c : Nat) (j : Job) (pn : Panel), c < 128 → (s.core c).jobs = [j] → j.engine = .fill pn.id → j.state = .moved → (s.core c).panels = [pn] →
    pn.ready < pn.len →
    ∃ t, exec (.fillRowWrite c) s = .next t ∧ (t.core c).panels = [{ pn with ready := pn.ready + 1 }] ∧ (t.core c).jobs = [j] ∧
      (∀ k, k ≠ c → t.core k = s.core k) ∧ t = { s with cores := t.cores }

-- ## Korier

/-- R162, R238, R242, R307, R342, R96: Korier's services as the model puts them into steps (log entry 14): a page whose access has become permitted is
returned to; a serviced one is mapped and returned to; a panel is filled again from its record, as a refill, when the scheduler has room; a trap is
written to the task's frame and its handler entered with the frame address in k0; a fault on a page being migrated is held, and returned to once the
page's mark is clear; a PANEL_ABSENT while ACT = 1 ends the task; SYSC 1 registers a handler; a task with no handler ends, its trap code delivered to
its continuation; a spill area grows. A step whose condition does not hold changes nothing. -/
def Obligations.KorierServices : Prop :=
  (∀ s : State, s.ct.level = .u → s.pkg.jobFaults = [] →
    exec .pageAbsentService s = .next s ∧ exec .panelRefill s = .next s ∧ exec .trapReflect s = .next s ∧ exec .taskTrapEnd s = .next s) ∧
  (∀ s : State, s.ct.vec.stopped = none → s.ct.sup.scause.getLsbD 15 = false →
    let back (t : State) : Prop := t.ct.level = .u ∧ t.ct.pc = s.ct.sup.sepc &&& ~~~ 3 ∧ t.ct.x = s.ct.x ∧ t.ct.vec = s.ct.vec ∧ t.ct.task = s.ct.task
    let u := s.ct.sup
    (disposition s = .back → ∃ t, exec .pageAbsentService s = .next t ∧ back t ∧ t.m = s.m ∧ t.pkg = s.pkg) ∧
    (disposition s = .page →
      match serviceRecord s.ct.lcore u.troot u.sfva u.sfstride u.sfrem u.sfwidth s with
      | .ok _ _ => ∃ t, exec .pageAbsentService s = .next t ∧ back t
      | .wait _ s1 => exec .pageAbsentService s = .next s1
      | _ => True)) ∧
  (∀ (s : State) (r : FillRec) (st : Stopped), disposition s = .refill r → s.ct.vec.stopped = some st → s.ct.lcore < 128 →
    (s.core s.ct.lcore).jobs.length < 32 → s.ct.sup.scause.getLsbD 15 = false → s.ct.sup.scause.getLsbD 8 = false →
    (∀ x ∈ fillSources (fillOpOf r.instr r.alg) (FillCard.parse r.card), ∃ p, resolveAligned (userCtx s) { kind := 1, quiet := true } x.1 x.2.1 s = .ok p s) →
    ∃ t pn, exec .panelRefill s = .next t ∧ t.ct.level = .u ∧ t.ct.pc = st.spc ∧ t.ct.vec.stopped = none ∧ pn.made.refill = true ∧
      (t.core s.ct.lcore).panels.getLast? = some pn ∧ pn.row = handleRow r.handle ∧ pn.len = handleLen r.handle ∧ pn.ready = 0 ∧ pn.made.card = r.card ∧
      t.ct.x = s.ct.x ∧ SameBytes s t) ∧
  (∀ (s : State) (r : FillRec), disposition s = .refill r → 32 ≤ (s.core s.ct.lcore).jobs.length → exec .panelRefill s = .next s) ∧
  (∀ (s : State) (r : FillRec), disposition s = .refill r → r.poisoned = false ∧ r.written = false ∧ s.ct.uli.act = false) ∧
  (∀ s : State, forTask s = true → s.ct.ctl.wait ≠ .ending → trapCode s = Code.panelAbsent → s.ct.uli.act = true →
    ∃ code, disposition s = .finish code) ∧
  (∀ s : State, disposition s = .hold → s.pkg.jobFaults = [] →
    exec .pageAbsentService s = .next { s with ct := { s.ct with ctl := { s.ct.ctl with held := true } } }) ∧
  (∀ s : State, forTask s = true → s.ct.ctl.wait ≠ .ending → trapCode s = Code.pageAbsent ∨ trapCode s = Code.pageProt → s.ct.ctl.report = false →
    windowOf s.ct.sup.sfva = .global → migrating s s.ct.sup.troot s.ct.sup.sfva = some false → s.ct.ctl.held = true → disposition s = .back) ∧
  (∀ (s : State) (code : BitVec 8) (p : Place), disposition s = .reflect code → Calm s → Memory.wf s.m.mem = true →
    resolve (userCtx s) { kind := 2 } s.ct.task.frame 64 (setCode code s) = .ok p (setCode code s) → homeOf p.pa ≠ .device →
    let pa := p.pa
    ∃ t, exec .trapReflect s = .next t ∧ t.ct.level = .u ∧ t.ct.pc = s.ct.task.handler ∧ t.ct.uli.act = true ∧ t.ct.task.reflected = true ∧
      t.getX 21 = s.ct.task.frame ∧ (∀ n : Fin 8, t.ct.uli.kother[n] = s.getX (BitVec.ofNat 5 (21 + n.val))) ∧
      (∀ r : Reg, r.toNat < 21 ∨ 29 ≤ r.toNat → t.getX r = s.getX r) ∧
      (t.numAt pa 8 % 256 = code.toNat ∧ t.numAt pa 8 / 256 = s.ct.sup.scause.toNat / 256) ∧ t.numAt (pa + 8) 8 = s.ct.sup.sepc.toNat ∧
      t.numAt (pa + 16) 8 = s.ct.sup.sfva.toNat ∧ t.numAt (pa + 24) 8 = s.ct.sup.sfelem.toNat ∧ t.numAt (pa + 32) 8 = s.ct.sup.sfstride.toNat ∧
      t.numAt (pa + 40) 8 = s.ct.sup.sfrem.toNat ∧ t.numAt (pa + 48) 8 = s.ct.sup.sfwidth.toNat ∧
      t.numAt (pa + 56) 8 = s.ct.vec.vstart % 2 ^ 64 ∧ SameBytesOutside s t pa 64) ∧
  (∀ s : State, disposition s = .call 1 →
    ∃ t, exec .trapReflect s = .next t ∧ t.ct.level = .u ∧ t.ct.pc = s.ct.sup.sepc + 4 ∧ (∀ r : Reg, r ≠ 3 → t.getX r = s.getX r) ∧ SameBytes s t ∧
      (s.getX 3 ≠ 0 → landsAt s (s.getX 3) = true → frameOk (s.getX 4) = true →
        t.getX 3 = 0 ∧ t.ct.task.handler = s.getX 3 ∧ t.ct.task.frame = s.getX 4) ∧
      (s.getX 3 ≠ 0 → (landsAt s (s.getX 3) && frameOk (s.getX 4)) = false → t.getX 3 = BitVec.allOnes 64 ∧ t.ct.task.handler = s.ct.task.handler)) ∧
  (∀ (s : State) (code : BitVec 8), disposition s = .finish code → Calm s → s.viqEmpty = true → jobsOf s s.ct.lcore s.ct.task.taskid = [] →
    s.ct.uli.errs = [] → groupsOf s s.ct.task.taskid = [] → s.ct.task.stashLen = 0 → s.ct.task.chunk = none → s.ct.task.launch = none →
    s.ct.task.cont = none →
    ∃ t, exec .taskTrapEnd s = .next t ∧ t.ct.status = .free ∧ (∀ r, t.getX r = 0) ∧ SameBytes s t ∧ t.others = s.others ∧ t.pkg = s.pkg) ∧
  (∀ (s : State) (code : BitVec 8) (k : Word) (pv pc : Nat), disposition s = .finish code → Calm s → s.viqEmpty = true →
    jobsOf s s.ct.lcore s.ct.task.taskid = [] → s.ct.uli.errs = [] → groupsOf s s.ct.task.taskid = [] → s.ct.task.stashLen = 0 →
    s.ct.task.chunk = none → (elogOf s s.ct.task.launch).1 = 0 → s.ct.sup.scause.getLsbD 15 = false → s.ct.task.cont = some k → s.ct.lcore < 128 →
    Memory.wf s.m.mem = true → (pv + 8 ≤ pc ∨ pc + 8 ≤ pv) →
    let may := fun x => (pc ≤ x ∧ x < pc + 8) ∨ (pv ≤ x ∧ x < pv + 8)
    (∀ s', Along may (setCode code s) s' →
      (∃ p : Place, p.pa = pv ∧ resolve (userCtx s') { kind := 3 } (k + BitVec.ofNat 64 (8 + 8 * s.ct.task.slot)) 8 s' = .ok p s') ∧
      ∃ p : Place, p.pa = pc ∧ resolve (userCtx s') { kind := 3 } (k + 0x38) 8 s' = .ok p s') → homeOf pv ≠ .device → homeOf pc ≠ .device →
    let c := Ctl.parse (s.numAt pc 8)
    1 ≤ c.join → hwCount (s.core s.ct.lcore) < 64 →
    ∃ t, exec .taskTrapEnd s = .next t ∧ t.ct.status = .free ∧ (∀ r, t.getX r = 0) ∧ t.numAt pv 8 = code.toNat ∧
      Ctl.parse (t.numAt pc 8) = { c with join := c.join - 1 } ∧ (∀ x, ¬ may x → t.byteAt x = s.byteAt x) ∧ SameDies s t ∧ t.others = s.others ∧
      (2 ≤ c.join → (t.core s.ct.lcore).deques = (s.core s.ct.lcore).deques) ∧
      (c.join = 1 → ∃ key born, (t.core s.ct.lcore).deques.toList.getD c.prio [] =
        (s.core s.ct.lcore).deques.toList.getD c.prio [] ++ [⟨.record k none s.ct.sup.troot key none, false, false, born⟩])) ∧
  ∀ (s : State) (c more : Nat), c < 128 → (s.ct.lcore ≠ c ∨ s.ct.level = .u) →
    ∃ t, exec (.spillAreaExtension c more) s = .next t ∧ t.core c = { s.core c with spillCap := (s.core c).spillCap + more } ∧
      (∀ k, k ≠ c → t.core k = s.core k) ∧ t = { s with cores := t.cores }

-- ## The host

/-- R262 to R268, R274, R275, R93 to R95, Tables 14.2 and 14.3: the mailbox commands answer and keep what they set; queues are registered, read and
unregistered; TAIL_SNOOP takes what TAIL announces, up to the ring's size; the host's and peers' accesses perform at their homes, BAR 0 being the
device registers, and of a write to lost and surviving homes the surviving lines alone take their bytes; a reset leaves the state of reset with what
the host, the peers and the image slots hold (log entry 77). TRANSFER_FW ends recovery in its own step (log entry 113); HEAD is read at registration,
or at a later snoop where its device is not yet in use (log entry 72); the addresses of the host's accesses are log entry 75, and a peer of a port
that is not up does nothing (log entry 76). -/
def Obligations.HostSteps : Prop :=
  (∀ (s : State) (w : Nat),
    (600 ≤ w → w ≤ 2400 →
      exec (.setPowerCap w) s = .next { s with pkg := { s.pkg with powerCap := w, answers := s.pkg.answers ++ [.success] } }) ∧
    (w < 600 ∨ 2400 < w → exec (.setPowerCap w) s = .next { s with pkg := { s.pkg with answers := s.pkg.answers ++ [.invalidInput] } })) ∧
  (∀ (s : State) (im req : List Byte),
    (let f := s.pkg.fw
     let runs := f.recovery && Config.fwVerifies im && decide (f.fused ≤ Config.fwVersion im)
     ∃ t, exec (.transferFw im) s = .next t ∧ t.pkg.fw.image (!f.active) = im ∧ t.pkg.fw.image f.active = f.image f.active ∧
      t = { s with pkg := { s.pkg with
        fw := { f with
          slot0 := t.pkg.fw.slot0, slot1 := t.pkg.fw.slot1, recovery := f.recovery && !runs
          active := if runs then !f.active else f.active, next := if runs then !f.active else f.next }
        answers := s.pkg.answers ++ [.success] } }) ∧
    exec .activateFw s = .next { s with pkg := { s.pkg with fw := { s.pkg.fw with next := !s.pkg.fw.active }, answers := s.pkg.answers ++ [.success] } } ∧
    (∃ t b, exec .getFwInfo s = .next t ∧
      t = { s with
        pkg := { s.pkg with answers := s.pkg.answers ++ [.fwInfo b] }
        fresh := s.fresh + 1 }) ∧
    (∃ t p, exec .getMeasurements s = .next t ∧ p.length = 4 ∧
      t = { s with
        pkg := { s.pkg with answers := s.pkg.answers ++ [.measurements p] }
        fresh := s.fresh + 1 }) ∧
    ∃ t b, exec (.spdmRequest req) s = .next t ∧
      t = { s with
        pkg := { s.pkg with answers := s.pkg.answers ++ [.spdm b] }
        fresh := s.fresh + 1 }) ∧
  (∀ (s : State) (q : Nat) (r : List Byte), let k := parseQueue q r s
    (queueOk r k = true → Calm s →
      ∃ t, exec (.registerQueue q r) s = .next t ∧ t.pkg.queues = (s.pkg.queues.filter fun o => o.num != q) ++ [k] ∧ SameDies s t ∧
        (k.unread = (s.answers k.head && !s.inUse k.head)) ∧ (s.answers k.head = true → k.headVal.toNat = s.numAt k.head 8) ∧
        t = { s with
          dies := t.dies
          fresh := t.fresh
          pkg := { s.pkg with queues := t.pkg.queues, answers := s.pkg.answers ++ [.success] }
          pending := s.pending ++ [.tailSnoop q] }) ∧
    (queueOk r k = false → exec (.registerQueue q r) s = .next { s with pkg := { s.pkg with answers := s.pkg.answers ++ [.invalidInput] } }) ∧
    (64 ≤ q → queueOk r k = false) ∧
    ((∀ o ∈ s.pkg.queues, o.num ≠ q) →
      exec (.unregisterQueue q) s = .next { s with pkg := { s.pkg with answers := s.pkg.answers ++ [.invalidInput] } } ∧
      exec (.tailSnoop q) s = .next s) ∧
    ((∃ o ∈ s.pkg.queues, o.num = q) → canStart s q = false → exec (.unregisterQueue q) s = .next { s with pkg := { s.pkg with
      queues := s.pkg.queues.filter fun o => o.num != q, answers := s.pkg.answers ++ [.success] } }) ∧
    (masterDie s = none → exec (.tailSnoop q) s = .next s)) ∧
  (∀ (s : State) (k : SubQueue) (v : Word), s.pkg.queues = [k] → masterDie s ≠ none → k.stopped = false → k.leaving = false → s.answers k.tail = true →
    s.inUse k.tail = true → k.tail % 64 = 0 → k.head % 64 = 0 → Calm s → s.numAt k.tail 8 = v.toNat →
    (k.unread = true → s.inUse k.head = false → exec (.tailSnoop k.num) s = .next s) ∧
    (k.unread = true → s.inUse k.head = true → s.answers k.head = true → s.numAt k.head 8 = v.toNat →
      ∃ t, exec (.tailSnoop k.num) s = .next t ∧ t.pkg.queues = [{ k with headVal := v, unread := false }] ∧ SameDies s t ∧ SameBytes s t) ∧
    (k.unread = false → v = k.headVal → ∃ t, exec (.tailSnoop k.num) s = .next t ∧ SameDies s t ∧ t = { s with dies := t.dies }) ∧
    (k.unread = false → k.size < (v - k.headVal).toNat → ∃ t, exec (.tailSnoop k.num) s = .next t ∧ t.pkg.queues = [{ k with stopped := true }] ∧
      t.pkg.launches = s.pkg.launches ∧ t.ct.x = s.ct.x) ∧
    (k.unread = false → (v - k.headVal).toNat ≤ k.size → v ≠ k.headVal → ringInUse s k v = true → s.answers k.head = true → Memory.wf s.m.mem = true →
      (∀ d, (s.el d).live = false) →
      ∃ t, exec (.tailSnoop k.num) s = .next t ∧ t.pkg.queues = [{ k with headVal := v }] ∧ t.numAt k.head 8 = v.toNat ∧ t.ct.x = s.ct.x)) ∧
  (∀ (s : State) (a : Nat) (bs : List Byte), hostRange a bs.length = true → hostReady s a bs.length = true → s.pkg.ready.hostUp = true → bs ≠ [] →
    s.pkg.queues = [] →
    ((∀ l ∈ linesOf a bs.length, lostHome s l = false) → Calm s → Memory.wf s.m.mem = true →
      (∃ t, exec (.hostMemRead a bs.length) s = .next t ∧ t.pkg.answers = s.pkg.answers ++ [.hostRead (s.bytesAt a bs.length)] ∧
        t = { s with
          m := { s.m with hostShared := t.m.hostShared }
          pkg := { s.pkg with answers := t.pkg.answers } }) ∧
      ∃ t, exec (.hostMemWrite a bs) s = .next t ∧ t.bytesAt a bs.length = bs ∧ SameBytesOutside s t a bs.length ∧ SameDies s t ∧
        (∀ o ∈ t.m.owners, o.1 ∉ linesOf a bs.length) ∧ t = { s.accessed t with m := { (s.accessed t).m with mem := t.m.mem } }) ∧
    ((∃ l ∈ linesOf a bs.length, lostHome s l = true) →
      exec (.hostMemRead a bs.length) s = .next { s with pkg := { s.pkg with answers := s.pkg.answers ++ [.poisoned] } } ∧
      (Calm s → Memory.wf s.m.mem = true → ∃ t, exec (.hostMemWrite a bs) s = .next t ∧ SameBytesOutside s t a bs.length ∧ SameDies s t ∧
        (∀ k, k < bs.length → t.byteAt (a + k) = if lostHome s (lineOf (a + k)) = true then s.byteAt (a + k) else bs.getD k 0) ∧
        t = { s.accessed t with
          m := { (s.accessed t).m with mem := t.m.mem }
          pkg := { s.pkg with answers := s.pkg.answers ++ [.error] } }))) ∧
  (∀ (s : State) (d off : Nat) (v : Word), d < 4 → off < 2 ^ 16 → off % 8 = 0 →
    let at_ := 2 ^ 48 + 0x100000 + 0x10000 * d + off
    let told (a : Answer) : State := { s with pkg := { s.pkg with answers := s.pkg.answers ++ [a] } }
    (s.dieFenced d = true → exec (.hostMemRead at_ 8) s = .next (told .poisoned) ∧ exec (.hostMemWrite at_ (toBytes 8 v.toNat)) s = .next (told .error)) ∧
    (s.dieFenced d = false → exec (.hostMemRead at_ 8) s = .next (told (.hostRead (toBytes 8 ((s.el d).read off).toNat))) ∧
      ∃ t, exec (.hostMemWrite at_ (toBytes 8 v.toNat)) s = .next t ∧ t.el d = (s.el d).write off v ∧ (∀ k, k ≠ d → t.die k = s.die k) ∧
        t = { s with dies := t.dies })) ∧
  (∀ (s : State) (line port off : Nat) (bs : List Byte),
    exec (.backInvalidateResponse line) s = .next { s with m := { s.m with biWait := s.m.biWait.erase line } } ∧ exec (.linkReplay port) s = .next s ∧
    (port < 16 → s.pkg.ready.linkUp.getLsbD port = false → exec (.peerAccess port off bs) s = .next s) ∧
    (port < 16 → s.pkg.ready.linkUp.getLsbD port = true → bs ≠ [] → off + bs.length ≤ 2 ^ 38 → Calm s → Memory.wf s.m.mem = true →
      ∃ t, exec (.peerAccess port off bs) s = .next t ∧ t.bytesAt (2 ^ 50 + port * 2 ^ 46 + off) bs.length = bs ∧
        SameBytesOutside s t (2 ^ 50 + port * 2 ^ 46 + off) bs.length ∧ SameDies s t ∧
        t = { s.accessed t with
          m := { (s.accessed t).m with mem := t.m.mem }
          fresh := s.fresh + 1 })) ∧
  ∀ s : State, ∃ t, exec .deviceReset s = .next t ∧ t.ct = State.reset.ct ∧ t.others = [] ∧ t.cores = State.reset.cores ∧ t.dies = State.reset.dies ∧
    (∀ a, a < 2 ^ 50 → t.byteAt a = 0) ∧ (Memory.wf s.m.mem = true → ∀ a, 2 ^ 50 ≤ a → t.byteAt a = s.byteAt a) ∧
    t.pkg.fw.slot0 = s.pkg.fw.slot0 ∧ t.pkg.fw.slot1 = s.pkg.fw.slot1 ∧ t.pkg.ready = ReadyMap.reset ∧ t.pkg.queues = [] ∧ t.pkg.launches = []

-- ## Readiness and failures

/-- R270 to R273, R276, R50 to R52, R94, R95: what reports ready is in use; a fenced link or host is out; the first failure of a pair of devices is
corrected and the second contains the pair; a spare takes a fenced core's number; four columns of a core are replaced; a row with a parity error is
absent; a code object that the loader accepts adds its profiles. Launches and chunks are none here. Nothing reports ready in recovery (log entry 78),
devices 2k and 2k + 1 are a pair (log entry 131), a spare begins with empty deques and four spare columns (log entry 83), fencing the host clears what
it held (log entry 90), and the root of a loaded object is the loading thread's (log entry 115). -/
def Obligations.DeviceSteps : Prop :=
  (∀ s : State, s.pkg.fw.recovery = true → (∀ f : ReadyFn, exec (.readyReport f) s = .next s) ∧ ∀ dev, exec (.memTrained dev) s = .next s) ∧
  (∀ (s : State) (c d p dev : Nat), s.pkg.fw.recovery = false → s.pkg.chunks = [] → s.pkg.launches = [] → s.pkg.queues = [] → c < 128 → d < 4 → p < 16 →
    dev < 32 → (∀ k, k < 128 → (s.core k).jobs = []) → s.pkg.owed = [] → s.m.sbuf = [] → s.m.wcb = [] → s.m.late = [] → s.pkg.parked = [] →
    (s.pkg.fencedCores.contains c = false → s.dieFenced (dieOf c) = false →
      exec (.readyReport (.core c)) s = .next { s with pkg := { s.pkg with ready := { s.pkg.ready with cores := s.pkg.ready.cores ||| (1#128 <<< c) } } }) ∧
    (s.dieFenced d = false → ∃ t, exec (.readyReport (.die d)) s = .next t ∧ t.die d = { s.die d with ready := true } ∧
      (∀ k, k ≠ d → t.die k = s.die k) ∧ t = { s with dies := t.dies }) ∧
    (s.pkg.ready.linkFailed.getLsbD p = false → exec (.readyReport (.link p)) s = .next { s with pkg := { s.pkg with
      ready := { s.pkg.ready with linkUp := s.pkg.ready.linkUp ||| (1#16 <<< p) } } }) ∧
    exec (.readyReport .host) s = .next { s with pkg := { s.pkg with ready := { s.pkg.ready with hostUp := true } } } ∧
    exec (.memTrained dev) s = .next { s with pkg := { s.pkg with ready := { s.pkg.ready with trained := s.pkg.ready.trained ||| (1#32 <<< dev) } } } ∧
    (∃ t, exec (.memDeviceFailure dev) s = .next t ∧ t.pkg.ready.failed = s.pkg.ready.failed ||| (1#32 <<< dev) ∧
      (let pair := dev / 2
       let other := if dev % 2 = 0 then dev + 1 else dev - 1
       t.pkg.containedPairs = if s.pkg.ready.failed.getLsbD other ∧ pair ∉ s.pkg.containedPairs then s.pkg.containedPairs ++ [pair] else s.pkg.containedPairs) ∧
      t = { s with pkg := { s.pkg with ready := t.pkg.ready, containedPairs := t.pkg.containedPairs } }) ∧
    (∀ i ∈ ([.agentTimeout (.link p), .internalError (.link p)] : List Instr), exec i s = .next { s with pkg := { s.pkg with ready := { s.pkg.ready with
      linkUp := s.pkg.ready.linkUp &&& ~~~ (1#16 <<< p), linkFailed := s.pkg.ready.linkFailed ||| (1#16 <<< p) } } }) ∧
    (∀ i ∈ ([.agentTimeout .host, .internalError .host] : List Instr), exec i s = .next { s with
      m := { s.m with hostShared := [], biWait := [], cxlHeld := [] }
      pkg := { s.pkg with ready := { s.pkg.ready with hostUp := false } } }) ∧
    (∀ i ∈ ([.agentTimeout (.core c), .internalError (.core c)] : List Instr), s.pkg.fencedCores.contains c = false →
      ∃ t, exec i s = .next t ∧ t.pkg.fencedCores = s.pkg.fencedCores ++ [c] ∧ t.coreReady c = false ∧
        (t.core c).deques.toList = [[], [], [], []] ∧ (t.core c).jobs = [] ∧ (s.ct.lcore = c → t.ct.status = .fenced) ∧
        (s.m.slines = [] → s.pkg.groups = [] → SameBytes s t)) ∧
    (∀ i ∈ ([.agentTimeout (.die d), .internalError (.die d)] : List Instr), s.dieFenced d = false →
      s.pkg.saved = [] → s.pkg.groups = [] → s.others = [] → s.ct.ctl.post = none → dieOf s.ct.lcore ≠ d →
      ∃ t, exec i s = .next t ∧ t.dieFenced d = true ∧ (t.die d).ready = false ∧ (∀ k, k < 128 → dieOf k = d → t.coreReady k = false) ∧ t.ct = s.ct)) ∧
  (∀ (s : State) (c : Nat), c < 128 →
    ((s.core c).spareCols < 4 → ∃ t, exec (.columnFail c) s = .next t ∧ t.core c = { s.core c with spareCols := (s.core c).spareCols + 1 } ∧
      (∀ k, k ≠ c → t.core k = s.core k) ∧ t = { s with cores := t.cores }) ∧
    ∀ row : Nat, ∃ t, exec (.bstoreParityError c row) s = .next t ∧ (∀ p ∈ (t.core c).panels, p ∈ (s.core c).panels ∧ ¬ (p.row ≤ row ∧ row < p.row + p.len)) ∧
      (∀ p ∈ (s.core c).panels, ¬ (p.row ≤ row ∧ row < p.row + p.len) → p ∈ (t.core c).panels) ∧
      (∀ k, k ≠ c → t.core k = s.core k) ∧ t = { s with cores := t.cores }) ∧
  (∀ (s : State) (cl c : Nat), cl < 32 → s.pkg.chunks = [] → s.pkg.launches = [] →
    ((∀ k ∈ s.pkg.fencedCores, k / 4 ≠ cl) → exec (.spareService cl) s = .next s) ∧
    (s.pkg.fencedCores = [c] → c / 4 = cl → (s.pkg.ready.spare.toList.getD cl 0) &&& 0xC0 = 0 → s.dieFenced (dieOf c) = false →
      ∃ t, exec (.spareService cl) s = .next t ∧ t.pkg.fencedCores = [] ∧ t.coreReady c = true ∧
        t.pkg.ready.spare.toList.getD cl 0 = 0x80 ||| BitVec.ofNat 8 (c % 4) ∧ (t.core c).spareCols = 0 ∧ SameBytes s t)) ∧
  (∀ (s : State) (d : Nat) (code cause : BitVec 8), d < 4 → (s.el d).live = false →
    ∃ t, exec (.clockChange d code cause) s = .next t ∧ t.die d = { s.die d with clock := code.setWidth 2 } ∧ (∀ k, k ≠ d → t.die k = s.die k) ∧
      t = { s with dies := t.dies }) ∧
  ∀ (s : State) (im : List Byte) (pa : Nat) (va : Word) (q : BitVec 4),
    (objectOk im = false → exec (.codeObjectLoad im pa va q) s = .next s) ∧
    (objectOk im = true → Calm s → ∃ t o, exec (.codeObjectLoad im pa va q) s = .next t ∧ t.pkg.objects = s.pkg.objects ++ [o] ∧
      o.profs = profSet ((im.drop 8).take 7) ∧ o.troot = s.ct.sup.troot ∧
      (∀ k, k < 16 → t.pkg.profsets.toList.getD k 0 = if k = q.toNat ∧ q ≠ 0 then s.pkg.profsets.toList.getD k 0 ||| o.profs
        else s.pkg.profsets.toList.getD k 0) ∧ t.ct = s.ct)

-- ## Electrum

/-- R278, R284, R285, R287: the steps that software's writes of the register block bring about change that block alone, and none of a fenced die does
anything; a request is added to its histogram while HIST is 1 and FROZEN 0; the actions of a global trigger apply as FREEZE, else STOP, else START,
and a snapshot belongs to the die that fired (log entry 81). CLR clears the pointers and ELOST and keeps what a LOSS record still has to report
(R288). -/
def Obligations.ElectrumSteps : Prop :=
  (∀ (s : State) (d off c k n : Nat) (v : Word), d < 4 → s.dieFenced d = true →
    ∀ i ∈ ([.ectlClr d, .ectlUnfreeze d, .elostClear d, .counterClear d k, .histClear d c n, .trigFiredClear d n, .electrumRegisterWrite d off v] : List Instr),
      exec i s = .next s) ∧
  (∀ (s : State) (d off c n : Nat) (v : Word), d < 4 → s.dieFenced d = false →
    let e := s.el d
    let only (t : State) (f : Electrum) : Prop := t.die d = { s.die d with el := f } ∧ (∀ x, x ≠ d → t.die x = s.die x) ∧ t = { s with dies := t.dies }
    (∃ t, exec (.ectlClr d) s = .next t ∧ only t { e with ewptr := 0, erptr := 0, elost := 0 }) ∧
    (∃ t, exec (.ectlUnfreeze d) s = .next t ∧ only t { e with frozen := false }) ∧
    (∃ t, exec (.elostClear d) s = .next t ∧ only t { e with elost := 0 }) ∧
    (∀ k, k < 4 → ∃ t, exec (.counterClear d k) s = .next t ∧ only t { e with counts := (t.el d).counts } ∧
      ∀ j, j < 4 → (t.el d).counts.toList.getD j 0 = if j = k then 0 else e.counts.toList.getD j 0) ∧
    (∀ k, k < 4 → ∃ t, exec (.trigFiredClear d k) s = .next t ∧ only t { e with trigs := (t.el d).trigs } ∧
      ∀ j b, j < 4 → b < 14 → ((t.el d).trigs.toList.getD j 0).getLsbD b = (((e.trigs.toList.getD j 0).getLsbD b) && !(decide (j = k) && decide (b = 13)))) ∧
    (∃ t, exec (.histClear d c n) s = .next t ∧ only t { e with hists := (t.el d).hists } ∧
      (∀ b, b < 32 → ((t.el d).histOf c n).buckets.toList.getD b 0 = 0) ∧ ((t.el d).histOf c n).ctl = (e.histOf c n).ctl ∧
      ∀ x y, (x, y) ≠ (c, n) → (t.el d).histOf x y = e.histOf x y) ∧
    (∃ t, exec (.electrumRegisterWrite d off v) s = .next t ∧ only t (e.write off v) ∧
      (off = 0x050 → (t.el d).read 0x050 = v) ∧ (off = 0x008 → (t.el d).read 0x008 = v &&& 0xFFFFFFFFFF000) ∧
      (off = 0x018 → (t.el d).read 0x018 = e.read 0x018))) ∧
  (∀ (s : State) (c n lat : Nat), c < 128 →
    let d := dieOf c
    let e := s.el d
    (e.hist = false ∨ e.frozen = true → exec (.engineRequestDone c n lat) s = .next s) ∧
    (e.hist = true → e.frozen = false → s.dieFenced d = false → (e.histOf (c % 32) n).ctl.toNat % 256 = 0 →
      (∀ b, b < 32 → (e.histOf (c % 32) n).buckets.toList.getD b 0 ≠ BitVec.allOnes 32) →
      ∃ t, exec (.engineRequestDone c n lat) s = .next t ∧
        (∀ b, b < 32 → ((t.el d).histOf (c % 32) n).buckets.toList.getD b 0 =
          (e.histOf (c % 32) n).buckets.toList.getD b 0 + (if b = min 31 (max lat 1).log2 then 1 else 0)) ∧
        (∀ x, x ≠ d → t.die x = s.die x) ∧ t = { s with dies := t.dies })) ∧
  ∀ (s : State) (d carried : Nat) (a : TrigActs), d < 4 → s.dieFenced d = false →
    ∃ t, exec (.triggerGlobalArrival d a carried) s = .next t ∧
      (t.el d) = (if a.freeze then { s.el d with frozen := true } else if a.stop then { s.el d with on := false }
        else if a.start then { s.el d with on := true } else s.el d) ∧
      (t.die d).causal = BitVec.ofNat 48 (max (s.die d).causal.toNat (carried + 1)) ∧ (∀ x, x ≠ d → t.die x = s.die x) ∧ t = { s with dies := t.dies }

-- ## Saved contexts

/-- R243, Table 11.11: the image of a saved context is its sections, each at a multiple of 64 bytes; without released slabs it takes 64 + 320 + 192 + 512
bytes, those of the VIQ and the nest, 40·L rounded as the table rounds, and the tiles, tables and fill records; R243's two examples take 35,264 and
139,072 bytes. -/
def Obligations.ContextImage : Prop :=
  (∀ t : Thread, (contextImage t).length = imageSize t) ∧
  (∀ t : Thread, t.task.regLen ∈ [256, 512, 1024, 2048] → t.vec.released = [] →
    imageSize t % 64 = 0 ∧ imageSize t = 1664 + ((64 + 32 * (savedEntries t).length + 128 + 63) / 64 * 64) + 40 * t.task.regLen + 6144 * t.task.tiles +
      256 * t.mx.fills.length) ∧
  ∀ t : Thread, t.vec.released = [] →
    (t.task.regLen = 512 → t.task.tiles = 2 → (savedEntries t).length = 3 → t.mx.fills.length = 2 → imageSize t = 35264) ∧
    (t.task.regLen = 2048 → t.task.tiles = 8 → (savedEntries t).length = 64 → t.mx.fills.length = 16 → imageSize t = 139072)
end

