-- ==== Sys2Proof/Laws/Memory.lean ====
section
/-!
SUPPORT. The sparse form of memory: a write is read back, leaves every other byte alone, and keeps the canonical form.
-/

namespace Sys2Proof.Laws

open Sys2Proof.Machine

variable {α : Type} [DecidableEq α]

-- ## Sparse maps

theorem wfFrom_mono {d : α} : ∀ {m : List (Nat × α)} {lo hi : Nat}, hi ≤ lo → Sparse.wfFrom d lo m = true → Sparse.wfFrom d hi m = true
  | [], _, _, _, _ => rfl
  | (a, v) :: r, lo, hi, h, w => by
    simp only [Sparse.wfFrom, Bool.and_eq_true, decide_eq_true_eq] at w ⊢
    exact ⟨⟨by omega, w.1.2⟩, w.2⟩

theorem get_below {d : α} : ∀ {m : List (Nat × α)} {lo k : Nat}, Sparse.wfFrom d lo m = true → k < lo → Sparse.get d m k = d
  | [], _, _, _, _ => rfl
  | (a, v) :: r, lo, k, w, h => by
    simp only [Sparse.wfFrom, Bool.and_eq_true, decide_eq_true_eq] at w
    simp only [Sparse.get]
    rw [if_neg (by omega), if_pos (by omega)]

theorem wfFrom_cell {d : α} {k lo : Nat} {v : α} {r : List (Nat × α)} (hk : lo ≤ k) (hr : Sparse.wfFrom d (k + 1) r = true) :
    Sparse.wfFrom d lo (Sparse.cell d k v ++ r) = true := by
  unfold Sparse.cell
  split
  · exact wfFrom_mono (by omega) hr
  · simp [Sparse.wfFrom, *]

theorem wfFrom_set {d : α} : ∀ {m : List (Nat × α)} {lo k : Nat} {v : α}, Sparse.wfFrom d lo m = true → lo ≤ k →
    Sparse.wfFrom d lo (Sparse.set d m k v) = true
  | [], lo, k, v, _, h => by
    have := wfFrom_cell (d := d) (v := v) h (r := []) rfl
    simpa [Sparse.set] using this
  | (a, u) :: r, lo, k, v, w, h => by
    simp only [Sparse.wfFrom, Bool.and_eq_true, decide_eq_true_eq] at w
    simp only [Sparse.set]
    split
    · subst k; exact wfFrom_cell h w.2
    · split
      · exact wfFrom_cell h (by simp [Sparse.wfFrom, w]; omega)
      · simp only [Sparse.wfFrom, Bool.and_eq_true, decide_eq_true_eq]
        exact ⟨w.1, wfFrom_set w.2 (by omega)⟩

/-- A write keeps the canonical form. -/
theorem wf_set {d : α} {m : List (Nat × α)} (k : Nat) (v : α) (h : Sparse.wf d m = true) : Sparse.wf d (Sparse.set d m k v) = true :=
  wfFrom_set h (Nat.zero_le k)

theorem get_cell {d : α} {lo : Nat} {k j : Nat} {v : α} {r : List (Nat × α)} (hr : Sparse.wfFrom d lo r = true) (h : k < lo) :
    Sparse.get d (Sparse.cell d k v ++ r) j = if j = k then v else if j < k then d else Sparse.get d r j := by
  unfold Sparse.cell
  split
  · subst v
    by_cases e : j = k
    · subst j; simp [get_below hr h]
    · by_cases l : j < k
      · simp [e, l, get_below hr (show j < lo by omega)]
      · simp [e, l]
  · simp [Sparse.get]

theorem get_set_from {d : α} : ∀ {m : List (Nat × α)} {lo k j : Nat} {v : α}, Sparse.wfFrom d lo m = true →
    Sparse.get d (Sparse.set d m k v) j = if j = k then v else Sparse.get d m j
  | [], lo, k, j, v, _ => by
    have := get_cell (d := d) (lo := k + 1) (k := k) (j := j) (v := v) (r := []) rfl (by omega)
    simp only [List.append_nil] at this
    simp only [Sparse.set, this, Sparse.get]
    split <;> simp
  | (a, u) :: r, lo, k, j, v, w => by
    have w' := w
    simp only [Sparse.wfFrom, Bool.and_eq_true, decide_eq_true_eq] at w'
    simp only [Sparse.set]
    split
    · subst k
      rw [get_cell w'.2 (by omega)]
      by_cases e : j = a <;> simp [Sparse.get, e]
    · split
      · have hr : Sparse.wfFrom d a ((a, u) :: r) = true := by simp [Sparse.wfFrom, w']
        rw [get_cell hr (by omega)]
        by_cases e : j = k
        · simp [e]
        · by_cases l : j < k
          · simp [Sparse.get, e, l, show ¬ j = a by omega, show j < a by omega]
          · simp [e, l]
      · have ih := get_set_from (k := k) (j := j) (v := v) w'.2
        simp only [Sparse.get, ih]
        by_cases e : j = k
        · simp [e, show ¬ k = a by omega, show ¬ k < a by omega]
        · simp [e]

/-- A read after a write: the value at its key, and every other key as before. -/
theorem get_set {d : α} {m : List (Nat × α)} (h : Sparse.wf d m = true) (k j : Nat) (v : α) :
    Sparse.get d (Sparse.set d m k v) j = if j = k then v else Sparse.get d m j := get_set_from h

theorem wfFrom_filter {d : α} (p : Nat × α → Bool) : ∀ {m : List (Nat × α)} {lo : Nat}, Sparse.wfFrom d lo m = true →
    Sparse.wfFrom d lo (m.filter p) = true
  | [], _, _ => rfl
  | (a, v) :: r, lo, w => by
    simp only [Sparse.wfFrom, Bool.and_eq_true, decide_eq_true_eq] at w
    have ih := wfFrom_filter p w.2
    simp only [List.filter]
    split
    · simp [Sparse.wfFrom, w, ih]
    · exact wfFrom_mono (by omega) ih

-- ## Memory

theorem mem_wf_write : ∀ (bs : List Byte) (m : List Host.Cell) (pa : Nat), Memory.wf m = true → Memory.wf (Memory.write m pa bs) = true
  | [], _, _, h => h
  | _ :: r, _, pa, h => mem_wf_write r _ (pa + 1) (wf_set pa _ h)

theorem mem_wf_filter (p : Host.Cell → Bool) {m : List Host.Cell} (h : Memory.wf m = true) : Memory.wf (m.filter p) = true :=
  wfFrom_filter p h

/-- What a byte reads as after bytes have been written from pa on. -/
theorem byte_write : ∀ (bs : List Byte) (m : List Host.Cell) (pa a : Nat), Memory.wf m = true →
    Memory.byte (Memory.write m pa bs) a = if h : pa ≤ a ∧ a < pa + bs.length then bs[a - pa]'(by omega) else Memory.byte m a
  | [], m, pa, a, _ => by simp [Memory.write]
  | b :: r, m, pa, a, h => by
    have ih := byte_write r (Sparse.set unlisted m pa b) (pa + 1) a (wf_set pa b h)
    simp only [Memory.write]
    rw [ih]
    have hg : Memory.byte (Sparse.set unlisted m pa b) a = if a = pa then b else Memory.byte m a := get_set h pa a b
    by_cases c : pa + 1 ≤ a ∧ a < pa + 1 + r.length
    · rw [dif_pos c, dif_pos ⟨by omega, by simp; omega⟩]
      have e : a - pa = (a - (pa + 1)) + 1 := by omega
      simp [e]
    · rw [dif_neg c, hg]
      by_cases e : a = pa
      · subst a; simp
      · rw [if_neg e, dif_neg (by simp only [List.length_cons]; omega)]

theorem length_toBytes : ∀ (n v : Nat), (toBytes n v).length = n
  | 0, _ => rfl
  | n + 1, v => by simp [toBytes, length_toBytes n]

theorem getElem_toBytes : ∀ (n v k : Nat) (h : k < (toBytes n v).length), (toBytes n v)[k] = BitVec.ofNat 8 (v / 256 ^ k)
  | 0, _, _, h => absurd h (by simp [toBytes])
  | n + 1, v, 0, _ => by simp [toBytes]
  | n + 1, v, k + 1, h => by
    simp only [toBytes, List.getElem_cons_succ]
    rw [getElem_toBytes n (v / 256) k]
    rw [Nat.div_div_eq_div_mul, Nat.pow_succ, Nat.mul_comm]

theorem length_bytes : ∀ (n : Nat) (m : List Host.Cell) (pa : Nat), (Memory.bytes m pa n).length = n
  | 0, _, _ => rfl
  | n + 1, m, pa => by simp [Memory.bytes, length_bytes n]

/-- The number that n bytes hold depends on those bytes alone. -/
theorem bytes_congr : ∀ (n : Nat) (m m' : List Host.Cell) (pa : Nat), (∀ k, k < n → Memory.byte m (pa + k) = Memory.byte m' (pa + k)) →
    Memory.bytes m pa n = Memory.bytes m' pa n
  | 0, _, _, _, _ => rfl
  | n + 1, m, m', pa, h => by
    have h0 := h 0 (by omega)
    simp only [Nat.add_zero] at h0
    simp only [Memory.bytes, h0]
    rw [bytes_congr n m m' (pa + 1) fun k hk => by have := h (k + 1) (by omega); rwa [show pa + 1 + k = pa + (k + 1) by omega]]

/-- A byte after a write of the state's memory. -/
theorem byteAt_setBytes (s : State) (pa a : Nat) (bs : List Byte) (h : Memory.wf s.m.mem = true) :
    (s.setBytes pa bs).byteAt a = if h : pa ≤ a ∧ a < pa + bs.length then bs[a - pa]'(by omega) else s.byteAt a :=
  byte_write bs s.m.mem pa a h

theorem wf_setBytes (s : State) (pa : Nat) (bs : List Byte) (h : Memory.wf s.m.mem = true) : Memory.wf (s.setBytes pa bs).m.mem = true :=
  mem_wf_write bs _ pa h

end Sys2Proof.Laws
end

