-- ==== Sys2Proof/Laws/State.lean ====
section
/-!
SUPPORT. Beside State: one lemma per field for each named update of the state.
-/

namespace Sys2Proof.Machine

-- ## An update of one part of the acting control thread

@[simp] theorem State.onTask_ct_lcore (s : State) (f : TaskSt → TaskSt) : (s.onTask f).ct.lcore = s.ct.lcore := rfl
@[simp] theorem State.onTask_ct_ctno (s : State) (f : TaskSt → TaskSt) : (s.onTask f).ct.ctno = s.ct.ctno := rfl
@[simp] theorem State.onTask_ct_status (s : State) (f : TaskSt → TaskSt) : (s.onTask f).ct.status = s.ct.status := rfl
@[simp] theorem State.onTask_ct_level (s : State) (f : TaskSt → TaskSt) : (s.onTask f).ct.level = s.ct.level := rfl
@[simp] theorem State.onTask_ct_pc (s : State) (f : TaskSt → TaskSt) : (s.onTask f).ct.pc = s.ct.pc := rfl
@[simp] theorem State.onTask_ct_x (s : State) (f : TaskSt → TaskSt) : (s.onTask f).ct.x = s.ct.x := rfl
@[simp] theorem State.onTask_ct_task (s : State) (f : TaskSt → TaskSt) : (s.onTask f).ct.task = f s.ct.task := rfl
@[simp] theorem State.onTask_ct_vec (s : State) (f : TaskSt → TaskSt) : (s.onTask f).ct.vec = s.ct.vec := rfl
@[simp] theorem State.onTask_ct_fp (s : State) (f : TaskSt → TaskSt) : (s.onTask f).ct.fp = s.ct.fp := rfl
@[simp] theorem State.onTask_ct_ord (s : State) (f : TaskSt → TaskSt) : (s.onTask f).ct.ord = s.ct.ord := rfl
@[simp] theorem State.onTask_ct_uli (s : State) (f : TaskSt → TaskSt) : (s.onTask f).ct.uli = s.ct.uli := rfl
@[simp] theorem State.onTask_ct_sup (s : State) (f : TaskSt → TaskSt) : (s.onTask f).ct.sup = s.ct.sup := rfl
@[simp] theorem State.onTask_ct_mx (s : State) (f : TaskSt → TaskSt) : (s.onTask f).ct.mx = s.ct.mx := rfl
@[simp] theorem State.onTask_ct_nest (s : State) (f : TaskSt → TaskSt) : (s.onTask f).ct.nest = s.ct.nest := rfl
@[simp] theorem State.onTask_ct_ctl (s : State) (f : TaskSt → TaskSt) : (s.onTask f).ct.ctl = s.ct.ctl := rfl
@[simp] theorem State.onTask_ct_fwcsr (s : State) (f : TaskSt → TaskSt) : (s.onTask f).ct.fwcsr = s.ct.fwcsr := rfl
@[simp] theorem State.onTask_others (s : State) (f : TaskSt → TaskSt) : (s.onTask f).others = s.others := rfl
@[simp] theorem State.onTask_cores (s : State) (f : TaskSt → TaskSt) : (s.onTask f).cores = s.cores := rfl
@[simp] theorem State.onTask_dies (s : State) (f : TaskSt → TaskSt) : (s.onTask f).dies = s.dies := rfl
@[simp] theorem State.onTask_m (s : State) (f : TaskSt → TaskSt) : (s.onTask f).m = s.m := rfl
@[simp] theorem State.onTask_pkg (s : State) (f : TaskSt → TaskSt) : (s.onTask f).pkg = s.pkg := rfl
@[simp] theorem State.onTask_sched (s : State) (f : TaskSt → TaskSt) : (s.onTask f).sched = s.sched := rfl
@[simp] theorem State.onTask_pending (s : State) (f : TaskSt → TaskSt) : (s.onTask f).pending = s.pending := rfl
@[simp] theorem State.onTask_fresh (s : State) (f : TaskSt → TaskSt) : (s.onTask f).fresh = s.fresh := rfl

@[simp] theorem State.onVec_ct_lcore (s : State) (f : VecSt → VecSt) : (s.onVec f).ct.lcore = s.ct.lcore := rfl
@[simp] theorem State.onVec_ct_ctno (s : State) (f : VecSt → VecSt) : (s.onVec f).ct.ctno = s.ct.ctno := rfl
@[simp] theorem State.onVec_ct_status (s : State) (f : VecSt → VecSt) : (s.onVec f).ct.status = s.ct.status := rfl
@[simp] theorem State.onVec_ct_level (s : State) (f : VecSt → VecSt) : (s.onVec f).ct.level = s.ct.level := rfl
@[simp] theorem State.onVec_ct_pc (s : State) (f : VecSt → VecSt) : (s.onVec f).ct.pc = s.ct.pc := rfl
@[simp] theorem State.onVec_ct_x (s : State) (f : VecSt → VecSt) : (s.onVec f).ct.x = s.ct.x := rfl
@[simp] theorem State.onVec_ct_task (s : State) (f : VecSt → VecSt) : (s.onVec f).ct.task = s.ct.task := rfl
@[simp] theorem State.onVec_ct_vec (s : State) (f : VecSt → VecSt) : (s.onVec f).ct.vec = f s.ct.vec := rfl
@[simp] theorem State.onVec_ct_fp (s : State) (f : VecSt → VecSt) : (s.onVec f).ct.fp = s.ct.fp := rfl
@[simp] theorem State.onVec_ct_ord (s : State) (f : VecSt → VecSt) : (s.onVec f).ct.ord = s.ct.ord := rfl
@[simp] theorem State.onVec_ct_uli (s : State) (f : VecSt → VecSt) : (s.onVec f).ct.uli = s.ct.uli := rfl
@[simp] theorem State.onVec_ct_sup (s : State) (f : VecSt → VecSt) : (s.onVec f).ct.sup = s.ct.sup := rfl
@[simp] theorem State.onVec_ct_mx (s : State) (f : VecSt → VecSt) : (s.onVec f).ct.mx = s.ct.mx := rfl
@[simp] theorem State.onVec_ct_nest (s : State) (f : VecSt → VecSt) : (s.onVec f).ct.nest = s.ct.nest := rfl
@[simp] theorem State.onVec_ct_ctl (s : State) (f : VecSt → VecSt) : (s.onVec f).ct.ctl = s.ct.ctl := rfl
@[simp] theorem State.onVec_ct_fwcsr (s : State) (f : VecSt → VecSt) : (s.onVec f).ct.fwcsr = s.ct.fwcsr := rfl
@[simp] theorem State.onVec_others (s : State) (f : VecSt → VecSt) : (s.onVec f).others = s.others := rfl
@[simp] theorem State.onVec_cores (s : State) (f : VecSt → VecSt) : (s.onVec f).cores = s.cores := rfl
@[simp] theorem State.onVec_dies (s : State) (f : VecSt → VecSt) : (s.onVec f).dies = s.dies := rfl
@[simp] theorem State.onVec_m (s : State) (f : VecSt → VecSt) : (s.onVec f).m = s.m := rfl
@[simp] theorem State.onVec_pkg (s : State) (f : VecSt → VecSt) : (s.onVec f).pkg = s.pkg := rfl
@[simp] theorem State.onVec_sched (s : State) (f : VecSt → VecSt) : (s.onVec f).sched = s.sched := rfl
@[simp] theorem State.onVec_pending (s : State) (f : VecSt → VecSt) : (s.onVec f).pending = s.pending := rfl
@[simp] theorem State.onVec_fresh (s : State) (f : VecSt → VecSt) : (s.onVec f).fresh = s.fresh := rfl

@[simp] theorem State.onCtl_ct_lcore (s : State) (f : CtlSt → CtlSt) : (s.onCtl f).ct.lcore = s.ct.lcore := rfl
@[simp] theorem State.onCtl_ct_ctno (s : State) (f : CtlSt → CtlSt) : (s.onCtl f).ct.ctno = s.ct.ctno := rfl
@[simp] theorem State.onCtl_ct_status (s : State) (f : CtlSt → CtlSt) : (s.onCtl f).ct.status = s.ct.status := rfl
@[simp] theorem State.onCtl_ct_level (s : State) (f : CtlSt → CtlSt) : (s.onCtl f).ct.level = s.ct.level := rfl
@[simp] theorem State.onCtl_ct_pc (s : State) (f : CtlSt → CtlSt) : (s.onCtl f).ct.pc = s.ct.pc := rfl
@[simp] theorem State.onCtl_ct_x (s : State) (f : CtlSt → CtlSt) : (s.onCtl f).ct.x = s.ct.x := rfl
@[simp] theorem State.onCtl_ct_task (s : State) (f : CtlSt → CtlSt) : (s.onCtl f).ct.task = s.ct.task := rfl
@[simp] theorem State.onCtl_ct_vec (s : State) (f : CtlSt → CtlSt) : (s.onCtl f).ct.vec = s.ct.vec := rfl
@[simp] theorem State.onCtl_ct_fp (s : State) (f : CtlSt → CtlSt) : (s.onCtl f).ct.fp = s.ct.fp := rfl
@[simp] theorem State.onCtl_ct_ord (s : State) (f : CtlSt → CtlSt) : (s.onCtl f).ct.ord = s.ct.ord := rfl
@[simp] theorem State.onCtl_ct_uli (s : State) (f : CtlSt → CtlSt) : (s.onCtl f).ct.uli = s.ct.uli := rfl
@[simp] theorem State.onCtl_ct_sup (s : State) (f : CtlSt → CtlSt) : (s.onCtl f).ct.sup = s.ct.sup := rfl
@[simp] theorem State.onCtl_ct_mx (s : State) (f : CtlSt → CtlSt) : (s.onCtl f).ct.mx = s.ct.mx := rfl
@[simp] theorem State.onCtl_ct_nest (s : State) (f : CtlSt → CtlSt) : (s.onCtl f).ct.nest = s.ct.nest := rfl
@[simp] theorem State.onCtl_ct_ctl (s : State) (f : CtlSt → CtlSt) : (s.onCtl f).ct.ctl = f s.ct.ctl := rfl
@[simp] theorem State.onCtl_ct_fwcsr (s : State) (f : CtlSt → CtlSt) : (s.onCtl f).ct.fwcsr = s.ct.fwcsr := rfl
@[simp] theorem State.onCtl_others (s : State) (f : CtlSt → CtlSt) : (s.onCtl f).others = s.others := rfl
@[simp] theorem State.onCtl_cores (s : State) (f : CtlSt → CtlSt) : (s.onCtl f).cores = s.cores := rfl
@[simp] theorem State.onCtl_dies (s : State) (f : CtlSt → CtlSt) : (s.onCtl f).dies = s.dies := rfl
@[simp] theorem State.onCtl_m (s : State) (f : CtlSt → CtlSt) : (s.onCtl f).m = s.m := rfl
@[simp] theorem State.onCtl_pkg (s : State) (f : CtlSt → CtlSt) : (s.onCtl f).pkg = s.pkg := rfl
@[simp] theorem State.onCtl_sched (s : State) (f : CtlSt → CtlSt) : (s.onCtl f).sched = s.sched := rfl
@[simp] theorem State.onCtl_pending (s : State) (f : CtlSt → CtlSt) : (s.onCtl f).pending = s.pending := rfl
@[simp] theorem State.onCtl_fresh (s : State) (f : CtlSt → CtlSt) : (s.onCtl f).fresh = s.fresh := rfl

@[simp] theorem State.onUli_ct_lcore (s : State) (f : UliSt → UliSt) : (s.onUli f).ct.lcore = s.ct.lcore := rfl
@[simp] theorem State.onUli_ct_ctno (s : State) (f : UliSt → UliSt) : (s.onUli f).ct.ctno = s.ct.ctno := rfl
@[simp] theorem State.onUli_ct_status (s : State) (f : UliSt → UliSt) : (s.onUli f).ct.status = s.ct.status := rfl
@[simp] theorem State.onUli_ct_level (s : State) (f : UliSt → UliSt) : (s.onUli f).ct.level = s.ct.level := rfl
@[simp] theorem State.onUli_ct_pc (s : State) (f : UliSt → UliSt) : (s.onUli f).ct.pc = s.ct.pc := rfl
@[simp] theorem State.onUli_ct_x (s : State) (f : UliSt → UliSt) : (s.onUli f).ct.x = s.ct.x := rfl
@[simp] theorem State.onUli_ct_task (s : State) (f : UliSt → UliSt) : (s.onUli f).ct.task = s.ct.task := rfl
@[simp] theorem State.onUli_ct_vec (s : State) (f : UliSt → UliSt) : (s.onUli f).ct.vec = s.ct.vec := rfl
@[simp] theorem State.onUli_ct_fp (s : State) (f : UliSt → UliSt) : (s.onUli f).ct.fp = s.ct.fp := rfl
@[simp] theorem State.onUli_ct_ord (s : State) (f : UliSt → UliSt) : (s.onUli f).ct.ord = s.ct.ord := rfl
@[simp] theorem State.onUli_ct_uli (s : State) (f : UliSt → UliSt) : (s.onUli f).ct.uli = f s.ct.uli := rfl
@[simp] theorem State.onUli_ct_sup (s : State) (f : UliSt → UliSt) : (s.onUli f).ct.sup = s.ct.sup := rfl
@[simp] theorem State.onUli_ct_mx (s : State) (f : UliSt → UliSt) : (s.onUli f).ct.mx = s.ct.mx := rfl
@[simp] theorem State.onUli_ct_nest (s : State) (f : UliSt → UliSt) : (s.onUli f).ct.nest = s.ct.nest := rfl
@[simp] theorem State.onUli_ct_ctl (s : State) (f : UliSt → UliSt) : (s.onUli f).ct.ctl = s.ct.ctl := rfl
@[simp] theorem State.onUli_ct_fwcsr (s : State) (f : UliSt → UliSt) : (s.onUli f).ct.fwcsr = s.ct.fwcsr := rfl
@[simp] theorem State.onUli_others (s : State) (f : UliSt → UliSt) : (s.onUli f).others = s.others := rfl
@[simp] theorem State.onUli_cores (s : State) (f : UliSt → UliSt) : (s.onUli f).cores = s.cores := rfl
@[simp] theorem State.onUli_dies (s : State) (f : UliSt → UliSt) : (s.onUli f).dies = s.dies := rfl
@[simp] theorem State.onUli_m (s : State) (f : UliSt → UliSt) : (s.onUli f).m = s.m := rfl
@[simp] theorem State.onUli_pkg (s : State) (f : UliSt → UliSt) : (s.onUli f).pkg = s.pkg := rfl
@[simp] theorem State.onUli_sched (s : State) (f : UliSt → UliSt) : (s.onUli f).sched = s.sched := rfl
@[simp] theorem State.onUli_pending (s : State) (f : UliSt → UliSt) : (s.onUli f).pending = s.pending := rfl
@[simp] theorem State.onUli_fresh (s : State) (f : UliSt → UliSt) : (s.onUli f).fresh = s.fresh := rfl

@[simp] theorem State.onOrd_ct_lcore (s : State) (f : OrdSt → OrdSt) : (s.onOrd f).ct.lcore = s.ct.lcore := rfl
@[simp] theorem State.onOrd_ct_ctno (s : State) (f : OrdSt → OrdSt) : (s.onOrd f).ct.ctno = s.ct.ctno := rfl
@[simp] theorem State.onOrd_ct_status (s : State) (f : OrdSt → OrdSt) : (s.onOrd f).ct.status = s.ct.status := rfl
@[simp] theorem State.onOrd_ct_level (s : State) (f : OrdSt → OrdSt) : (s.onOrd f).ct.level = s.ct.level := rfl
@[simp] theorem State.onOrd_ct_pc (s : State) (f : OrdSt → OrdSt) : (s.onOrd f).ct.pc = s.ct.pc := rfl
@[simp] theorem State.onOrd_ct_x (s : State) (f : OrdSt → OrdSt) : (s.onOrd f).ct.x = s.ct.x := rfl
@[simp] theorem State.onOrd_ct_task (s : State) (f : OrdSt → OrdSt) : (s.onOrd f).ct.task = s.ct.task := rfl
@[simp] theorem State.onOrd_ct_vec (s : State) (f : OrdSt → OrdSt) : (s.onOrd f).ct.vec = s.ct.vec := rfl
@[simp] theorem State.onOrd_ct_fp (s : State) (f : OrdSt → OrdSt) : (s.onOrd f).ct.fp = s.ct.fp := rfl
@[simp] theorem State.onOrd_ct_ord (s : State) (f : OrdSt → OrdSt) : (s.onOrd f).ct.ord = f s.ct.ord := rfl
@[simp] theorem State.onOrd_ct_uli (s : State) (f : OrdSt → OrdSt) : (s.onOrd f).ct.uli = s.ct.uli := rfl
@[simp] theorem State.onOrd_ct_sup (s : State) (f : OrdSt → OrdSt) : (s.onOrd f).ct.sup = s.ct.sup := rfl
@[simp] theorem State.onOrd_ct_mx (s : State) (f : OrdSt → OrdSt) : (s.onOrd f).ct.mx = s.ct.mx := rfl
@[simp] theorem State.onOrd_ct_nest (s : State) (f : OrdSt → OrdSt) : (s.onOrd f).ct.nest = s.ct.nest := rfl
@[simp] theorem State.onOrd_ct_ctl (s : State) (f : OrdSt → OrdSt) : (s.onOrd f).ct.ctl = s.ct.ctl := rfl
@[simp] theorem State.onOrd_ct_fwcsr (s : State) (f : OrdSt → OrdSt) : (s.onOrd f).ct.fwcsr = s.ct.fwcsr := rfl
@[simp] theorem State.onOrd_others (s : State) (f : OrdSt → OrdSt) : (s.onOrd f).others = s.others := rfl
@[simp] theorem State.onOrd_cores (s : State) (f : OrdSt → OrdSt) : (s.onOrd f).cores = s.cores := rfl
@[simp] theorem State.onOrd_dies (s : State) (f : OrdSt → OrdSt) : (s.onOrd f).dies = s.dies := rfl
@[simp] theorem State.onOrd_m (s : State) (f : OrdSt → OrdSt) : (s.onOrd f).m = s.m := rfl
@[simp] theorem State.onOrd_pkg (s : State) (f : OrdSt → OrdSt) : (s.onOrd f).pkg = s.pkg := rfl
@[simp] theorem State.onOrd_sched (s : State) (f : OrdSt → OrdSt) : (s.onOrd f).sched = s.sched := rfl
@[simp] theorem State.onOrd_pending (s : State) (f : OrdSt → OrdSt) : (s.onOrd f).pending = s.pending := rfl
@[simp] theorem State.onOrd_fresh (s : State) (f : OrdSt → OrdSt) : (s.onOrd f).fresh = s.fresh := rfl

@[simp] theorem State.onMx_ct_lcore (s : State) (f : MxSt → MxSt) : (s.onMx f).ct.lcore = s.ct.lcore := rfl
@[simp] theorem State.onMx_ct_ctno (s : State) (f : MxSt → MxSt) : (s.onMx f).ct.ctno = s.ct.ctno := rfl
@[simp] theorem State.onMx_ct_status (s : State) (f : MxSt → MxSt) : (s.onMx f).ct.status = s.ct.status := rfl
@[simp] theorem State.onMx_ct_level (s : State) (f : MxSt → MxSt) : (s.onMx f).ct.level = s.ct.level := rfl
@[simp] theorem State.onMx_ct_pc (s : State) (f : MxSt → MxSt) : (s.onMx f).ct.pc = s.ct.pc := rfl
@[simp] theorem State.onMx_ct_x (s : State) (f : MxSt → MxSt) : (s.onMx f).ct.x = s.ct.x := rfl
@[simp] theorem State.onMx_ct_task (s : State) (f : MxSt → MxSt) : (s.onMx f).ct.task = s.ct.task := rfl
@[simp] theorem State.onMx_ct_vec (s : State) (f : MxSt → MxSt) : (s.onMx f).ct.vec = s.ct.vec := rfl
@[simp] theorem State.onMx_ct_fp (s : State) (f : MxSt → MxSt) : (s.onMx f).ct.fp = s.ct.fp := rfl
@[simp] theorem State.onMx_ct_ord (s : State) (f : MxSt → MxSt) : (s.onMx f).ct.ord = s.ct.ord := rfl
@[simp] theorem State.onMx_ct_uli (s : State) (f : MxSt → MxSt) : (s.onMx f).ct.uli = s.ct.uli := rfl
@[simp] theorem State.onMx_ct_sup (s : State) (f : MxSt → MxSt) : (s.onMx f).ct.sup = s.ct.sup := rfl
@[simp] theorem State.onMx_ct_mx (s : State) (f : MxSt → MxSt) : (s.onMx f).ct.mx = f s.ct.mx := rfl
@[simp] theorem State.onMx_ct_nest (s : State) (f : MxSt → MxSt) : (s.onMx f).ct.nest = s.ct.nest := rfl
@[simp] theorem State.onMx_ct_ctl (s : State) (f : MxSt → MxSt) : (s.onMx f).ct.ctl = s.ct.ctl := rfl
@[simp] theorem State.onMx_ct_fwcsr (s : State) (f : MxSt → MxSt) : (s.onMx f).ct.fwcsr = s.ct.fwcsr := rfl
@[simp] theorem State.onMx_others (s : State) (f : MxSt → MxSt) : (s.onMx f).others = s.others := rfl
@[simp] theorem State.onMx_cores (s : State) (f : MxSt → MxSt) : (s.onMx f).cores = s.cores := rfl
@[simp] theorem State.onMx_dies (s : State) (f : MxSt → MxSt) : (s.onMx f).dies = s.dies := rfl
@[simp] theorem State.onMx_m (s : State) (f : MxSt → MxSt) : (s.onMx f).m = s.m := rfl
@[simp] theorem State.onMx_pkg (s : State) (f : MxSt → MxSt) : (s.onMx f).pkg = s.pkg := rfl
@[simp] theorem State.onMx_sched (s : State) (f : MxSt → MxSt) : (s.onMx f).sched = s.sched := rfl
@[simp] theorem State.onMx_pending (s : State) (f : MxSt → MxSt) : (s.onMx f).pending = s.pending := rfl
@[simp] theorem State.onMx_fresh (s : State) (f : MxSt → MxSt) : (s.onMx f).fresh = s.fresh := rfl

@[simp] theorem State.onFp_ct_lcore (s : State) (f : FpSt → FpSt) : (s.onFp f).ct.lcore = s.ct.lcore := rfl
@[simp] theorem State.onFp_ct_ctno (s : State) (f : FpSt → FpSt) : (s.onFp f).ct.ctno = s.ct.ctno := rfl
@[simp] theorem State.onFp_ct_status (s : State) (f : FpSt → FpSt) : (s.onFp f).ct.status = s.ct.status := rfl
@[simp] theorem State.onFp_ct_level (s : State) (f : FpSt → FpSt) : (s.onFp f).ct.level = s.ct.level := rfl
@[simp] theorem State.onFp_ct_pc (s : State) (f : FpSt → FpSt) : (s.onFp f).ct.pc = s.ct.pc := rfl
@[simp] theorem State.onFp_ct_x (s : State) (f : FpSt → FpSt) : (s.onFp f).ct.x = s.ct.x := rfl
@[simp] theorem State.onFp_ct_task (s : State) (f : FpSt → FpSt) : (s.onFp f).ct.task = s.ct.task := rfl
@[simp] theorem State.onFp_ct_vec (s : State) (f : FpSt → FpSt) : (s.onFp f).ct.vec = s.ct.vec := rfl
@[simp] theorem State.onFp_ct_fp (s : State) (f : FpSt → FpSt) : (s.onFp f).ct.fp = f s.ct.fp := rfl
@[simp] theorem State.onFp_ct_ord (s : State) (f : FpSt → FpSt) : (s.onFp f).ct.ord = s.ct.ord := rfl
@[simp] theorem State.onFp_ct_uli (s : State) (f : FpSt → FpSt) : (s.onFp f).ct.uli = s.ct.uli := rfl
@[simp] theorem State.onFp_ct_sup (s : State) (f : FpSt → FpSt) : (s.onFp f).ct.sup = s.ct.sup := rfl
@[simp] theorem State.onFp_ct_mx (s : State) (f : FpSt → FpSt) : (s.onFp f).ct.mx = s.ct.mx := rfl
@[simp] theorem State.onFp_ct_nest (s : State) (f : FpSt → FpSt) : (s.onFp f).ct.nest = s.ct.nest := rfl
@[simp] theorem State.onFp_ct_ctl (s : State) (f : FpSt → FpSt) : (s.onFp f).ct.ctl = s.ct.ctl := rfl
@[simp] theorem State.onFp_ct_fwcsr (s : State) (f : FpSt → FpSt) : (s.onFp f).ct.fwcsr = s.ct.fwcsr := rfl
@[simp] theorem State.onFp_others (s : State) (f : FpSt → FpSt) : (s.onFp f).others = s.others := rfl
@[simp] theorem State.onFp_cores (s : State) (f : FpSt → FpSt) : (s.onFp f).cores = s.cores := rfl
@[simp] theorem State.onFp_dies (s : State) (f : FpSt → FpSt) : (s.onFp f).dies = s.dies := rfl
@[simp] theorem State.onFp_m (s : State) (f : FpSt → FpSt) : (s.onFp f).m = s.m := rfl
@[simp] theorem State.onFp_pkg (s : State) (f : FpSt → FpSt) : (s.onFp f).pkg = s.pkg := rfl
@[simp] theorem State.onFp_sched (s : State) (f : FpSt → FpSt) : (s.onFp f).sched = s.sched := rfl
@[simp] theorem State.onFp_pending (s : State) (f : FpSt → FpSt) : (s.onFp f).pending = s.pending := rfl
@[simp] theorem State.onFp_fresh (s : State) (f : FpSt → FpSt) : (s.onFp f).fresh = s.fresh := rfl

@[simp] theorem State.onSup_ct_lcore (s : State) (f : SupSt → SupSt) : (s.onSup f).ct.lcore = s.ct.lcore := rfl
@[simp] theorem State.onSup_ct_ctno (s : State) (f : SupSt → SupSt) : (s.onSup f).ct.ctno = s.ct.ctno := rfl
@[simp] theorem State.onSup_ct_status (s : State) (f : SupSt → SupSt) : (s.onSup f).ct.status = s.ct.status := rfl
@[simp] theorem State.onSup_ct_level (s : State) (f : SupSt → SupSt) : (s.onSup f).ct.level = s.ct.level := rfl
@[simp] theorem State.onSup_ct_pc (s : State) (f : SupSt → SupSt) : (s.onSup f).ct.pc = s.ct.pc := rfl
@[simp] theorem State.onSup_ct_x (s : State) (f : SupSt → SupSt) : (s.onSup f).ct.x = s.ct.x := rfl
@[simp] theorem State.onSup_ct_task (s : State) (f : SupSt → SupSt) : (s.onSup f).ct.task = s.ct.task := rfl
@[simp] theorem State.onSup_ct_vec (s : State) (f : SupSt → SupSt) : (s.onSup f).ct.vec = s.ct.vec := rfl
@[simp] theorem State.onSup_ct_fp (s : State) (f : SupSt → SupSt) : (s.onSup f).ct.fp = s.ct.fp := rfl
@[simp] theorem State.onSup_ct_ord (s : State) (f : SupSt → SupSt) : (s.onSup f).ct.ord = s.ct.ord := rfl
@[simp] theorem State.onSup_ct_uli (s : State) (f : SupSt → SupSt) : (s.onSup f).ct.uli = s.ct.uli := rfl
@[simp] theorem State.onSup_ct_sup (s : State) (f : SupSt → SupSt) : (s.onSup f).ct.sup = f s.ct.sup := rfl
@[simp] theorem State.onSup_ct_mx (s : State) (f : SupSt → SupSt) : (s.onSup f).ct.mx = s.ct.mx := rfl
@[simp] theorem State.onSup_ct_nest (s : State) (f : SupSt → SupSt) : (s.onSup f).ct.nest = s.ct.nest := rfl
@[simp] theorem State.onSup_ct_ctl (s : State) (f : SupSt → SupSt) : (s.onSup f).ct.ctl = s.ct.ctl := rfl
@[simp] theorem State.onSup_ct_fwcsr (s : State) (f : SupSt → SupSt) : (s.onSup f).ct.fwcsr = s.ct.fwcsr := rfl
@[simp] theorem State.onSup_others (s : State) (f : SupSt → SupSt) : (s.onSup f).others = s.others := rfl
@[simp] theorem State.onSup_cores (s : State) (f : SupSt → SupSt) : (s.onSup f).cores = s.cores := rfl
@[simp] theorem State.onSup_dies (s : State) (f : SupSt → SupSt) : (s.onSup f).dies = s.dies := rfl
@[simp] theorem State.onSup_m (s : State) (f : SupSt → SupSt) : (s.onSup f).m = s.m := rfl
@[simp] theorem State.onSup_pkg (s : State) (f : SupSt → SupSt) : (s.onSup f).pkg = s.pkg := rfl
@[simp] theorem State.onSup_sched (s : State) (f : SupSt → SupSt) : (s.onSup f).sched = s.sched := rfl
@[simp] theorem State.onSup_pending (s : State) (f : SupSt → SupSt) : (s.onSup f).pending = s.pending := rfl
@[simp] theorem State.onSup_fresh (s : State) (f : SupSt → SupSt) : (s.onSup f).fresh = s.fresh := rfl

-- ## An update of the acting control thread, memory, or the package

@[simp] theorem State.onCt_ct (s : State) (f : Thread → Thread) : (s.onCt f).ct = f s.ct := rfl
@[simp] theorem State.onCt_others (s : State) (f : Thread → Thread) : (s.onCt f).others = s.others := rfl
@[simp] theorem State.onCt_cores (s : State) (f : Thread → Thread) : (s.onCt f).cores = s.cores := rfl
@[simp] theorem State.onCt_dies (s : State) (f : Thread → Thread) : (s.onCt f).dies = s.dies := rfl
@[simp] theorem State.onCt_m (s : State) (f : Thread → Thread) : (s.onCt f).m = s.m := rfl
@[simp] theorem State.onCt_pkg (s : State) (f : Thread → Thread) : (s.onCt f).pkg = s.pkg := rfl
@[simp] theorem State.onCt_sched (s : State) (f : Thread → Thread) : (s.onCt f).sched = s.sched := rfl
@[simp] theorem State.onCt_pending (s : State) (f : Thread → Thread) : (s.onCt f).pending = s.pending := rfl
@[simp] theorem State.onCt_fresh (s : State) (f : Thread → Thread) : (s.onCt f).fresh = s.fresh := rfl

@[simp] theorem State.onMem_ct (s : State) (f : MemSt → MemSt) : (s.onMem f).ct = s.ct := rfl
@[simp] theorem State.onMem_others (s : State) (f : MemSt → MemSt) : (s.onMem f).others = s.others := rfl
@[simp] theorem State.onMem_cores (s : State) (f : MemSt → MemSt) : (s.onMem f).cores = s.cores := rfl
@[simp] theorem State.onMem_dies (s : State) (f : MemSt → MemSt) : (s.onMem f).dies = s.dies := rfl
@[simp] theorem State.onMem_m (s : State) (f : MemSt → MemSt) : (s.onMem f).m = f s.m := rfl
@[simp] theorem State.onMem_pkg (s : State) (f : MemSt → MemSt) : (s.onMem f).pkg = s.pkg := rfl
@[simp] theorem State.onMem_sched (s : State) (f : MemSt → MemSt) : (s.onMem f).sched = s.sched := rfl
@[simp] theorem State.onMem_pending (s : State) (f : MemSt → MemSt) : (s.onMem f).pending = s.pending := rfl
@[simp] theorem State.onMem_fresh (s : State) (f : MemSt → MemSt) : (s.onMem f).fresh = s.fresh := rfl

@[simp] theorem State.onPkg_ct (s : State) (f : PkgSt → PkgSt) : (s.onPkg f).ct = s.ct := rfl
@[simp] theorem State.onPkg_others (s : State) (f : PkgSt → PkgSt) : (s.onPkg f).others = s.others := rfl
@[simp] theorem State.onPkg_cores (s : State) (f : PkgSt → PkgSt) : (s.onPkg f).cores = s.cores := rfl
@[simp] theorem State.onPkg_dies (s : State) (f : PkgSt → PkgSt) : (s.onPkg f).dies = s.dies := rfl
@[simp] theorem State.onPkg_m (s : State) (f : PkgSt → PkgSt) : (s.onPkg f).m = s.m := rfl
@[simp] theorem State.onPkg_pkg (s : State) (f : PkgSt → PkgSt) : (s.onPkg f).pkg = f s.pkg := rfl
@[simp] theorem State.onPkg_sched (s : State) (f : PkgSt → PkgSt) : (s.onPkg f).sched = s.sched := rfl
@[simp] theorem State.onPkg_pending (s : State) (f : PkgSt → PkgSt) : (s.onPkg f).pending = s.pending := rfl
@[simp] theorem State.onPkg_fresh (s : State) (f : PkgSt → PkgSt) : (s.onPkg f).fresh = s.fresh := rfl

@[simp] theorem State.push_ct (s : State) (is : List Instr) : (s.push is).ct = s.ct := rfl
@[simp] theorem State.push_others (s : State) (is : List Instr) : (s.push is).others = s.others := rfl
@[simp] theorem State.push_cores (s : State) (is : List Instr) : (s.push is).cores = s.cores := rfl
@[simp] theorem State.push_dies (s : State) (is : List Instr) : (s.push is).dies = s.dies := rfl
@[simp] theorem State.push_m (s : State) (is : List Instr) : (s.push is).m = s.m := rfl
@[simp] theorem State.push_pkg (s : State) (is : List Instr) : (s.push is).pkg = s.pkg := rfl
@[simp] theorem State.push_sched (s : State) (is : List Instr) : (s.push is).sched = s.sched := rfl
@[simp] theorem State.push_pending (s : State) (is : List Instr) : (s.push is).pending = s.pending ++ is := rfl
@[simp] theorem State.push_fresh (s : State) (is : List Instr) : (s.push is).fresh = s.fresh := rfl

@[simp] theorem State.useFresh_fst (s : State) : s.useFresh.1 = s.fresh := rfl
@[simp] theorem State.useFresh_ct (s : State) : s.useFresh.2.ct = s.ct := rfl
@[simp] theorem State.useFresh_others (s : State) : s.useFresh.2.others = s.others := rfl
@[simp] theorem State.useFresh_cores (s : State) : s.useFresh.2.cores = s.cores := rfl
@[simp] theorem State.useFresh_dies (s : State) : s.useFresh.2.dies = s.dies := rfl
@[simp] theorem State.useFresh_m (s : State) : s.useFresh.2.m = s.m := rfl
@[simp] theorem State.useFresh_pkg (s : State) : s.useFresh.2.pkg = s.pkg := rfl
@[simp] theorem State.useFresh_sched (s : State) : s.useFresh.2.sched = s.sched := rfl
@[simp] theorem State.useFresh_pending (s : State) : s.useFresh.2.pending = s.pending := rfl
@[simp] theorem State.useFresh_fresh (s : State) : s.useFresh.2.fresh = s.fresh + 1 := rfl

@[simp] theorem State.setBytes_mem (s : State) (pa : Nat) (bs : List Byte) : (s.setBytes pa bs).m.mem = Memory.write s.m.mem pa bs := rfl
@[simp] theorem State.setBytes_m_slines (s : State) (pa : Nat) (bs : List Byte) : (s.setBytes pa bs).m.slines = s.m.slines := rfl
@[simp] theorem State.setBytes_m_poison (s : State) (pa : Nat) (bs : List Byte) : (s.setBytes pa bs).m.poison = s.m.poison := rfl
@[simp] theorem State.setBytes_m_owners (s : State) (pa : Nat) (bs : List Byte) : (s.setBytes pa bs).m.owners = s.m.owners := rfl
@[simp] theorem State.setBytes_m_copies (s : State) (pa : Nat) (bs : List Byte) : (s.setBytes pa bs).m.copies = s.m.copies := rfl
@[simp] theorem State.setBytes_m_wbuf (s : State) (pa : Nat) (bs : List Byte) : (s.setBytes pa bs).m.wbuf = s.m.wbuf := rfl
@[simp] theorem State.setBytes_m_hostShared (s : State) (pa : Nat) (bs : List Byte) : (s.setBytes pa bs).m.hostShared = s.m.hostShared := rfl
@[simp] theorem State.setBytes_m_biWait (s : State) (pa : Nat) (bs : List Byte) : (s.setBytes pa bs).m.biWait = s.m.biWait := rfl
@[simp] theorem State.setBytes_m_cxlHeld (s : State) (pa : Nat) (bs : List Byte) : (s.setBytes pa bs).m.cxlHeld = s.m.cxlHeld := rfl
@[simp] theorem State.setBytes_m_chains (s : State) (pa : Nat) (bs : List Byte) : (s.setBytes pa bs).m.chains = s.m.chains := rfl
@[simp] theorem State.setBytes_m_races (s : State) (pa : Nat) (bs : List Byte) : (s.setBytes pa bs).m.races = s.m.races := rfl
@[simp] theorem State.setBytes_m_tlb (s : State) (pa : Nat) (bs : List Byte) : (s.setBytes pa bs).m.tlb = s.m.tlb := rfl
@[simp] theorem State.setBytes_m_sbuf (s : State) (pa : Nat) (bs : List Byte) : (s.setBytes pa bs).m.sbuf = s.m.sbuf := rfl
@[simp] theorem State.setBytes_m_wcb (s : State) (pa : Nat) (bs : List Byte) : (s.setBytes pa bs).m.wcb = s.m.wcb := rfl
@[simp] theorem State.setBytes_m_early (s : State) (pa : Nat) (bs : List Byte) : (s.setBytes pa bs).m.early = s.m.early := rfl
@[simp] theorem State.setBytes_ct (s : State) (pa : Nat) (bs : List Byte) : (s.setBytes pa bs).ct = s.ct := rfl
@[simp] theorem State.setBytes_others (s : State) (pa : Nat) (bs : List Byte) : (s.setBytes pa bs).others = s.others := rfl
@[simp] theorem State.setBytes_cores (s : State) (pa : Nat) (bs : List Byte) : (s.setBytes pa bs).cores = s.cores := rfl
@[simp] theorem State.setBytes_dies (s : State) (pa : Nat) (bs : List Byte) : (s.setBytes pa bs).dies = s.dies := rfl
@[simp] theorem State.setBytes_pkg (s : State) (pa : Nat) (bs : List Byte) : (s.setBytes pa bs).pkg = s.pkg := rfl
@[simp] theorem State.setBytes_sched (s : State) (pa : Nat) (bs : List Byte) : (s.setBytes pa bs).sched = s.sched := rfl
@[simp] theorem State.setBytes_pending (s : State) (pa : Nat) (bs : List Byte) : (s.setBytes pa bs).pending = s.pending := rfl
@[simp] theorem State.setBytes_fresh (s : State) (pa : Nat) (bs : List Byte) : (s.setBytes pa bs).fresh = s.fresh := rfl

-- ## Moving on, waiting, entering a level, and the record of a trap

@[simp] theorem State.advance_ct_lcore (s : State) : s.advance.ct.lcore = s.ct.lcore := rfl
@[simp] theorem State.advance_ct_ctno (s : State) : s.advance.ct.ctno = s.ct.ctno := rfl
@[simp] theorem State.advance_ct_status (s : State) : s.advance.ct.status = s.ct.status := rfl
@[simp] theorem State.advance_ct_level (s : State) : s.advance.ct.level = s.ct.level := rfl
@[simp] theorem State.advance_ct_pc (s : State) : s.advance.ct.pc = s.ct.pc + 4 := rfl
@[simp] theorem State.advance_ct_x (s : State) : s.advance.ct.x = s.ct.x := rfl
@[simp] theorem State.advance_ct_task (s : State) : s.advance.ct.task = s.ct.task := rfl
@[simp] theorem State.advance_ct_vec (s : State) : s.advance.ct.vec = s.ct.vec := rfl
@[simp] theorem State.advance_ct_fp (s : State) : s.advance.ct.fp = s.ct.fp := rfl
@[simp] theorem State.advance_ct_ord (s : State) : s.advance.ct.ord = s.ct.ord := rfl
@[simp] theorem State.advance_ct_uli (s : State) : s.advance.ct.uli = s.ct.uli := rfl
@[simp] theorem State.advance_ct_sup (s : State) : s.advance.ct.sup = s.ct.sup := rfl
@[simp] theorem State.advance_ct_mx (s : State) : s.advance.ct.mx = s.ct.mx := rfl
@[simp] theorem State.advance_ct_nest (s : State) : s.advance.ct.nest = s.ct.nest := rfl
@[simp] theorem State.advance_ct_ctl (s : State) : s.advance.ct.ctl = { s.ct.ctl with wait := .none } := rfl
@[simp] theorem State.advance_ct_fwcsr (s : State) : s.advance.ct.fwcsr = s.ct.fwcsr := rfl
@[simp] theorem State.advance_others (s : State) : s.advance.others = s.others := rfl
@[simp] theorem State.advance_cores (s : State) : s.advance.cores = s.cores := rfl
@[simp] theorem State.advance_dies (s : State) : s.advance.dies = s.dies := rfl
@[simp] theorem State.advance_m (s : State) : s.advance.m = s.m := rfl
@[simp] theorem State.advance_pkg (s : State) : s.advance.pkg = s.pkg := rfl
@[simp] theorem State.advance_sched (s : State) : s.advance.sched = s.sched := rfl
@[simp] theorem State.advance_pending (s : State) : s.advance.pending = s.pending := rfl
@[simp] theorem State.advance_fresh (s : State) : s.advance.fresh = s.fresh := rfl

@[simp] theorem State.jump_ct_lcore (s : State) (a : Word) : (s.jump a).ct.lcore = s.ct.lcore := rfl
@[simp] theorem State.jump_ct_ctno (s : State) (a : Word) : (s.jump a).ct.ctno = s.ct.ctno := rfl
@[simp] theorem State.jump_ct_status (s : State) (a : Word) : (s.jump a).ct.status = s.ct.status := rfl
@[simp] theorem State.jump_ct_level (s : State) (a : Word) : (s.jump a).ct.level = s.ct.level := rfl
@[simp] theorem State.jump_ct_pc (s : State) (a : Word) : (s.jump a).ct.pc = a := rfl
@[simp] theorem State.jump_ct_x (s : State) (a : Word) : (s.jump a).ct.x = s.ct.x := rfl
@[simp] theorem State.jump_ct_task (s : State) (a : Word) : (s.jump a).ct.task = s.ct.task := rfl
@[simp] theorem State.jump_ct_vec (s : State) (a : Word) : (s.jump a).ct.vec = s.ct.vec := rfl
@[simp] theorem State.jump_ct_fp (s : State) (a : Word) : (s.jump a).ct.fp = s.ct.fp := rfl
@[simp] theorem State.jump_ct_ord (s : State) (a : Word) : (s.jump a).ct.ord = s.ct.ord := rfl
@[simp] theorem State.jump_ct_uli (s : State) (a : Word) : (s.jump a).ct.uli = s.ct.uli := rfl
@[simp] theorem State.jump_ct_sup (s : State) (a : Word) : (s.jump a).ct.sup = s.ct.sup := rfl
@[simp] theorem State.jump_ct_mx (s : State) (a : Word) : (s.jump a).ct.mx = s.ct.mx := rfl
@[simp] theorem State.jump_ct_nest (s : State) (a : Word) : (s.jump a).ct.nest = s.ct.nest := rfl
@[simp] theorem State.jump_ct_ctl (s : State) (a : Word) : (s.jump a).ct.ctl = { s.ct.ctl with wait := .none } := rfl
@[simp] theorem State.jump_ct_fwcsr (s : State) (a : Word) : (s.jump a).ct.fwcsr = s.ct.fwcsr := rfl
@[simp] theorem State.jump_others (s : State) (a : Word) : (s.jump a).others = s.others := rfl
@[simp] theorem State.jump_cores (s : State) (a : Word) : (s.jump a).cores = s.cores := rfl
@[simp] theorem State.jump_dies (s : State) (a : Word) : (s.jump a).dies = s.dies := rfl
@[simp] theorem State.jump_m (s : State) (a : Word) : (s.jump a).m = s.m := rfl
@[simp] theorem State.jump_pkg (s : State) (a : Word) : (s.jump a).pkg = s.pkg := rfl
@[simp] theorem State.jump_sched (s : State) (a : Word) : (s.jump a).sched = s.sched := rfl
@[simp] theorem State.jump_pending (s : State) (a : Word) : (s.jump a).pending = s.pending := rfl
@[simp] theorem State.jump_fresh (s : State) (a : Word) : (s.jump a).fresh = s.fresh := rfl

@[simp] theorem State.waitFor_ct_lcore (s : State) (w : Wait) : (s.waitFor w).ct.lcore = s.ct.lcore := rfl
@[simp] theorem State.waitFor_ct_ctno (s : State) (w : Wait) : (s.waitFor w).ct.ctno = s.ct.ctno := rfl
@[simp] theorem State.waitFor_ct_status (s : State) (w : Wait) : (s.waitFor w).ct.status = s.ct.status := rfl
@[simp] theorem State.waitFor_ct_level (s : State) (w : Wait) : (s.waitFor w).ct.level = s.ct.level := rfl
@[simp] theorem State.waitFor_ct_pc (s : State) (w : Wait) : (s.waitFor w).ct.pc = s.ct.pc := rfl
@[simp] theorem State.waitFor_ct_x (s : State) (w : Wait) : (s.waitFor w).ct.x = s.ct.x := rfl
@[simp] theorem State.waitFor_ct_task (s : State) (w : Wait) : (s.waitFor w).ct.task = s.ct.task := rfl
@[simp] theorem State.waitFor_ct_vec (s : State) (w : Wait) : (s.waitFor w).ct.vec = s.ct.vec := rfl
@[simp] theorem State.waitFor_ct_fp (s : State) (w : Wait) : (s.waitFor w).ct.fp = s.ct.fp := rfl
@[simp] theorem State.waitFor_ct_ord (s : State) (w : Wait) : (s.waitFor w).ct.ord = s.ct.ord := rfl
@[simp] theorem State.waitFor_ct_uli (s : State) (w : Wait) : (s.waitFor w).ct.uli = s.ct.uli := rfl
@[simp] theorem State.waitFor_ct_sup (s : State) (w : Wait) : (s.waitFor w).ct.sup = s.ct.sup := rfl
@[simp] theorem State.waitFor_ct_mx (s : State) (w : Wait) : (s.waitFor w).ct.mx = s.ct.mx := rfl
@[simp] theorem State.waitFor_ct_nest (s : State) (w : Wait) : (s.waitFor w).ct.nest = s.ct.nest := rfl
@[simp] theorem State.waitFor_ct_ctl (s : State) (w : Wait) : (s.waitFor w).ct.ctl = { s.ct.ctl with wait := w } := rfl
@[simp] theorem State.waitFor_ct_fwcsr (s : State) (w : Wait) : (s.waitFor w).ct.fwcsr = s.ct.fwcsr := rfl
@[simp] theorem State.waitFor_others (s : State) (w : Wait) : (s.waitFor w).others = s.others := rfl
@[simp] theorem State.waitFor_cores (s : State) (w : Wait) : (s.waitFor w).cores = s.cores := rfl
@[simp] theorem State.waitFor_dies (s : State) (w : Wait) : (s.waitFor w).dies = s.dies := rfl
@[simp] theorem State.waitFor_m (s : State) (w : Wait) : (s.waitFor w).m = s.m := rfl
@[simp] theorem State.waitFor_pkg (s : State) (w : Wait) : (s.waitFor w).pkg = s.pkg := rfl
@[simp] theorem State.waitFor_sched (s : State) (w : Wait) : (s.waitFor w).sched = s.sched := rfl
@[simp] theorem State.waitFor_pending (s : State) (w : Wait) : (s.waitFor w).pending = s.pending := rfl
@[simp] theorem State.waitFor_fresh (s : State) (w : Wait) : (s.waitFor w).fresh = s.fresh := rfl

@[simp] theorem State.enter_ct_lcore (s : State) (l : Level) (a : Word) : (s.enter l a).ct.lcore = s.ct.lcore := rfl
@[simp] theorem State.enter_ct_ctno (s : State) (l : Level) (a : Word) : (s.enter l a).ct.ctno = s.ct.ctno := rfl
@[simp] theorem State.enter_ct_status (s : State) (l : Level) (a : Word) : (s.enter l a).ct.status = s.ct.status := rfl
@[simp] theorem State.enter_ct_level (s : State) (l : Level) (a : Word) : (s.enter l a).ct.level = l := rfl
@[simp] theorem State.enter_ct_pc (s : State) (l : Level) (a : Word) : (s.enter l a).ct.pc = a := rfl
@[simp] theorem State.enter_ct_x (s : State) (l : Level) (a : Word) : (s.enter l a).ct.x = s.ct.x := rfl
@[simp] theorem State.enter_ct_task (s : State) (l : Level) (a : Word) : (s.enter l a).ct.task = s.ct.task := rfl
@[simp] theorem State.enter_ct_vec (s : State) (l : Level) (a : Word) : (s.enter l a).ct.vec = s.ct.vec := rfl
@[simp] theorem State.enter_ct_fp (s : State) (l : Level) (a : Word) : (s.enter l a).ct.fp = s.ct.fp := rfl
@[simp] theorem State.enter_ct_ord (s : State) (l : Level) (a : Word) : (s.enter l a).ct.ord = s.ct.ord := rfl
@[simp] theorem State.enter_ct_uli (s : State) (l : Level) (a : Word) : (s.enter l a).ct.uli = s.ct.uli := rfl
@[simp] theorem State.enter_ct_sup (s : State) (l : Level) (a : Word) : (s.enter l a).ct.sup = s.ct.sup := rfl
@[simp] theorem State.enter_ct_mx (s : State) (l : Level) (a : Word) : (s.enter l a).ct.mx = s.ct.mx := rfl
@[simp] theorem State.enter_ct_nest (s : State) (l : Level) (a : Word) : (s.enter l a).ct.nest = s.ct.nest := rfl
@[simp] theorem State.enter_ct_ctl (s : State) (l : Level) (a : Word) : (s.enter l a).ct.ctl = { s.ct.ctl with wait := .none, lpend := false, target := none } := rfl
@[simp] theorem State.enter_ct_fwcsr (s : State) (l : Level) (a : Word) : (s.enter l a).ct.fwcsr = s.ct.fwcsr := rfl
@[simp] theorem State.enter_others (s : State) (l : Level) (a : Word) : (s.enter l a).others = s.others := rfl
@[simp] theorem State.enter_cores (s : State) (l : Level) (a : Word) : (s.enter l a).cores = s.cores := rfl
@[simp] theorem State.enter_dies (s : State) (l : Level) (a : Word) : (s.enter l a).dies = s.dies := rfl
@[simp] theorem State.enter_m (s : State) (l : Level) (a : Word) : (s.enter l a).m = s.m := rfl
@[simp] theorem State.enter_pkg (s : State) (l : Level) (a : Word) : (s.enter l a).pkg = s.pkg := rfl
@[simp] theorem State.enter_sched (s : State) (l : Level) (a : Word) : (s.enter l a).sched = s.sched := rfl
@[simp] theorem State.enter_pending (s : State) (l : Level) (a : Word) : (s.enter l a).pending = s.pending := rfl
@[simp] theorem State.enter_fresh (s : State) (l : Level) (a : Word) : (s.enter l a).fresh = s.fresh := rfl

@[simp] theorem State.orFlags_ct_lcore (s : State) (f : BitVec 5) : (s.orFlags f).ct.lcore = s.ct.lcore := rfl
@[simp] theorem State.orFlags_ct_ctno (s : State) (f : BitVec 5) : (s.orFlags f).ct.ctno = s.ct.ctno := rfl
@[simp] theorem State.orFlags_ct_status (s : State) (f : BitVec 5) : (s.orFlags f).ct.status = s.ct.status := rfl
@[simp] theorem State.orFlags_ct_level (s : State) (f : BitVec 5) : (s.orFlags f).ct.level = s.ct.level := rfl
@[simp] theorem State.orFlags_ct_pc (s : State) (f : BitVec 5) : (s.orFlags f).ct.pc = s.ct.pc := rfl
@[simp] theorem State.orFlags_ct_x (s : State) (f : BitVec 5) : (s.orFlags f).ct.x = s.ct.x := rfl
@[simp] theorem State.orFlags_ct_task (s : State) (f : BitVec 5) : (s.orFlags f).ct.task = s.ct.task := rfl
@[simp] theorem State.orFlags_ct_vec (s : State) (f : BitVec 5) : (s.orFlags f).ct.vec = s.ct.vec := rfl
@[simp] theorem State.orFlags_ct_fp (s : State) (f : BitVec 5) : (s.orFlags f).ct.fp = { s.ct.fp with fstat := s.ct.fp.fstat ||| f } := rfl
@[simp] theorem State.orFlags_ct_ord (s : State) (f : BitVec 5) : (s.orFlags f).ct.ord = s.ct.ord := rfl
@[simp] theorem State.orFlags_ct_uli (s : State) (f : BitVec 5) : (s.orFlags f).ct.uli = s.ct.uli := rfl
@[simp] theorem State.orFlags_ct_sup (s : State) (f : BitVec 5) : (s.orFlags f).ct.sup = s.ct.sup := rfl
@[simp] theorem State.orFlags_ct_mx (s : State) (f : BitVec 5) : (s.orFlags f).ct.mx = s.ct.mx := rfl
@[simp] theorem State.orFlags_ct_nest (s : State) (f : BitVec 5) : (s.orFlags f).ct.nest = s.ct.nest := rfl
@[simp] theorem State.orFlags_ct_ctl (s : State) (f : BitVec 5) : (s.orFlags f).ct.ctl = s.ct.ctl := rfl
@[simp] theorem State.orFlags_ct_fwcsr (s : State) (f : BitVec 5) : (s.orFlags f).ct.fwcsr = s.ct.fwcsr := rfl
@[simp] theorem State.orFlags_others (s : State) (f : BitVec 5) : (s.orFlags f).others = s.others := rfl
@[simp] theorem State.orFlags_cores (s : State) (f : BitVec 5) : (s.orFlags f).cores = s.cores := rfl
@[simp] theorem State.orFlags_dies (s : State) (f : BitVec 5) : (s.orFlags f).dies = s.dies := rfl
@[simp] theorem State.orFlags_m (s : State) (f : BitVec 5) : (s.orFlags f).m = s.m := rfl
@[simp] theorem State.orFlags_pkg (s : State) (f : BitVec 5) : (s.orFlags f).pkg = s.pkg := rfl
@[simp] theorem State.orFlags_sched (s : State) (f : BitVec 5) : (s.orFlags f).sched = s.sched := rfl
@[simp] theorem State.orFlags_pending (s : State) (f : BitVec 5) : (s.orFlags f).pending = s.pending := rfl
@[simp] theorem State.orFlags_fresh (s : State) (f : BitVec 5) : (s.orFlags f).fresh = s.fresh := rfl

@[simp] theorem State.record_ct_lcore (s : State) (t : Trap) (p : BitVec 2) : (s.record t p).ct.lcore = s.ct.lcore := rfl
@[simp] theorem State.record_ct_ctno (s : State) (t : Trap) (p : BitVec 2) : (s.record t p).ct.ctno = s.ct.ctno := rfl
@[simp] theorem State.record_ct_status (s : State) (t : Trap) (p : BitVec 2) : (s.record t p).ct.status = s.ct.status := rfl
@[simp] theorem State.record_ct_level (s : State) (t : Trap) (p : BitVec 2) : (s.record t p).ct.level = s.ct.level := rfl
@[simp] theorem State.record_ct_pc (s : State) (t : Trap) (p : BitVec 2) : (s.record t p).ct.pc = s.ct.pc := rfl
@[simp] theorem State.record_ct_x (s : State) (t : Trap) (p : BitVec 2) : (s.record t p).ct.x = s.ct.x := rfl
@[simp] theorem State.record_ct_task (s : State) (t : Trap) (p : BitVec 2) : (s.record t p).ct.task = s.ct.task := rfl
@[simp] theorem State.record_ct_vec (s : State) (t : Trap) (p : BitVec 2) : (s.record t p).ct.vec = s.ct.vec := rfl
@[simp] theorem State.record_ct_fp (s : State) (t : Trap) (p : BitVec 2) : (s.record t p).ct.fp = s.ct.fp := rfl
@[simp] theorem State.record_ct_ord (s : State) (t : Trap) (p : BitVec 2) : (s.record t p).ct.ord = s.ct.ord := rfl
@[simp] theorem State.record_ct_uli (s : State) (t : Trap) (p : BitVec 2) : (s.record t p).ct.uli = s.ct.uli := rfl
@[simp] theorem State.record_ct_sup (s : State) (t : Trap) (p : BitVec 2) : (s.record t p).ct.sup = ⟨scauseOf t false p, t.sepc.getD s.ct.pc, t.sfva, t.sfelem, t.sfstride, t.sfrem, t.sfwidth, s.ct.sup.troot⟩ := rfl
@[simp] theorem State.record_ct_mx (s : State) (t : Trap) (p : BitVec 2) : (s.record t p).ct.mx = s.ct.mx := rfl
@[simp] theorem State.record_ct_nest (s : State) (t : Trap) (p : BitVec 2) : (s.record t p).ct.nest = s.ct.nest := rfl
@[simp] theorem State.record_ct_ctl (s : State) (t : Trap) (p : BitVec 2) : (s.record t p).ct.ctl = { s.ct.ctl with held := t.held, report := t.report } := rfl
@[simp] theorem State.record_ct_fwcsr (s : State) (t : Trap) (p : BitVec 2) : (s.record t p).ct.fwcsr = s.ct.fwcsr := rfl
@[simp] theorem State.record_others (s : State) (t : Trap) (p : BitVec 2) : (s.record t p).others = s.others := rfl
@[simp] theorem State.record_cores (s : State) (t : Trap) (p : BitVec 2) : (s.record t p).cores = s.cores := rfl
@[simp] theorem State.record_dies (s : State) (t : Trap) (p : BitVec 2) : (s.record t p).dies = s.dies := rfl
@[simp] theorem State.record_m (s : State) (t : Trap) (p : BitVec 2) : (s.record t p).m = s.m := rfl
@[simp] theorem State.record_pkg (s : State) (t : Trap) (p : BitVec 2) : (s.record t p).pkg = s.pkg := rfl
@[simp] theorem State.record_sched (s : State) (t : Trap) (p : BitVec 2) : (s.record t p).sched = s.sched := rfl
@[simp] theorem State.record_pending (s : State) (t : Trap) (p : BitVec 2) : (s.record t p).pending = s.pending := rfl
@[simp] theorem State.record_fresh (s : State) (t : Trap) (p : BitVec 2) : (s.record t p).fresh = s.fresh := rfl

end Sys2Proof.Machine
end

