-- ==== Sys2Proof/Laws/Ops.lean ====
section
/-!
SUPPORT. For each shared operation over registers, levels and control threads, one lemma that says what it can do.
-/

namespace Sys2Proof.Laws

open Sys2Proof.Machine

-- ## x registers (R13)

@[simp] theorem getX_zero (s : State) : s.getX 0 = 0 := rfl

theorem getX_setX (s : State) (d r : Reg) (v : Word) : (s.setX d v).getX r = if r = 0 then 0 else if r = d then v else s.getX r := by
  unfold State.getX State.setX
  split
  · rfl
  · split
    · subst_vars; simp_all
    · split
      · subst_vars; simp
      · rename_i h1 h2 h3
        simp only
        rw [Vector.getElem_set_ne]
        intro h; apply h3; exact BitVec.eq_of_toNat_eq h.symm

/-- A write of an x register changes the x registers alone. -/
theorem setX_only (s : State) (d : Reg) (v : Word) : s.setX d v = { s with ct := { s.ct with x := (s.setX d v).ct.x } } := by
  unfold State.setX; split <;> rfl

@[simp] theorem setX_ct_pc (s : State) (d : Reg) (v : Word) : (s.setX d v).ct.pc = s.ct.pc := by rw [setX_only]
@[simp] theorem setX_ct_level (s : State) (d : Reg) (v : Word) : (s.setX d v).ct.level = s.ct.level := by rw [setX_only]
@[simp] theorem setX_ct_ctl (s : State) (d : Reg) (v : Word) : (s.setX d v).ct.ctl = s.ct.ctl := by rw [setX_only]
@[simp] theorem setX_ct_vec (s : State) (d : Reg) (v : Word) : (s.setX d v).ct.vec = s.ct.vec := by rw [setX_only]
@[simp] theorem setX_ct_task (s : State) (d : Reg) (v : Word) : (s.setX d v).ct.task = s.ct.task := by rw [setX_only]
@[simp] theorem setX_ct_uli (s : State) (d : Reg) (v : Word) : (s.setX d v).ct.uli = s.ct.uli := by rw [setX_only]
@[simp] theorem setX_m (s : State) (d : Reg) (v : Word) : (s.setX d v).m = s.m := by rw [setX_only]
@[simp] theorem setX_pkg (s : State) (d : Reg) (v : Word) : (s.setX d v).pkg = s.pkg := by rw [setX_only]
@[simp] theorem setX_cores (s : State) (d : Reg) (v : Word) : (s.setX d v).cores = s.cores := by rw [setX_only]
@[simp] theorem setX_dies (s : State) (d : Reg) (v : Word) : (s.setX d v).dies = s.dies := by rw [setX_only]
@[simp] theorem setX_others (s : State) (d : Reg) (v : Word) : (s.setX d v).others = s.others := by rw [setX_only]

/-- What every scalar instruction with one result does. -/
theorem writeBack_next (s : State) (d : Reg) (v : Word) : ∃ t, writeBack s d v = .next t ∧ ScalarResult s t d v := by
  refine ⟨_, rfl, fun r => getX_setX s d r v, ?_, ?_, fun a => ?_⟩
  · unfold State.setX State.advance; split <;> rfl
  · unfold OnlyX State.setX State.advance; split <;> rfl
  · unfold State.setX State.advance; split <;> rfl

-- ## Profiles (R52)

theorem withProfile_has {s : State} {p : Profile} (h : s.has p = true) (f : Host.Outcome State Fault Refusal) : withProfile p s f = f := by
  simp [withProfile, h]

theorem withProfile_next {s t : State} {p : Profile} {f : Host.Outcome State Fault Refusal} (h : withProfile p s f = .next t) :
    (s.has p = true ∧ f = .next t) ∨ (s.has p = false ∧ takeTrap { code := Code.profile } s = .next t) := by
  unfold withProfile at h
  split at h
  · exact .inl ⟨by assumption, h⟩
  · exact .inr ⟨by simp_all, h⟩

-- ## Traps (R237, R240)

/-- A trap of U enters S with its record. -/
theorem takeTrap_u {s : State} (t : Trap) (h : s.ct.level = .u) : takeTrap t s = .next ((s.record t Level.u.prv).enter .s s.pkg.sEntry) := by
  simp [takeTrap, h]

/-- All that a trap does: from U to S, from S to M with the control thread fenced. -/
theorem takeTrap_next {s u : State} {t : Trap} (h : takeTrap t s = .next u) :
    (s.ct.level = .u ∧ u = (s.record t Level.u.prv).enter .s s.pkg.sEntry) ∨
    (s.ct.level = .s ∧ u.ct.level = .m ∧ u.ct.pc = s.pkg.mEntry ∧ u.ct.status = .fenced ∧ u.ct.ctl.contain = true ∧
      u.ct.sup = (s.record t Level.s.prv).ct.sup ∧ u.ct.x = s.ct.x ∧ u.m = s.m ∧ u.pkg = s.pkg ∧ u.cores = s.cores ∧ u.dies = s.dies) := by
  unfold takeTrap at h
  split at h
  · cases h; exact .inl ⟨by assumption, rfl⟩
  · cases h; exact .inr ⟨by assumption, rfl, rfl, rfl, rfl, rfl, rfl, rfl, rfl, rfl, rfl⟩
  · cases h

theorem scauseOf_plain : ∀ code : BitVec 8, scauseOf { code := code } false 0 = code.setWidth 64 := by decide

/-- A trap that names no fault CSR, as the statements say it. -/
theorem plainTrap_u (s : State) (code : BitVec 8) (h : s.ct.level = .u) : ∃ t, takeTrap { code := code } s = .next t ∧ PlainTrap s t code := by
  refine ⟨_, takeTrap_u _ h, ?_⟩
  have e : scauseOf { code := code } false Level.u.prv = code.setWidth 64 := scauseOf_plain code
  unfold PlainTrap TrapTaken
  rw [← e]
  rfl

-- ## Results

/-- What a scalar instruction's outcome is, by its result. -/
theorem finish_next {r : Res Unit} {t : State} (h : finish r = .next t) :
    (∃ u, r = .ok u t) ∨ (∃ q s, r = .trap q s ∧ takeTrap q s = .next t) ∨ (∃ w s, r = .wait w s ∧ t = s.waitFor w) ∨
    ∃ s, r = .gone s ∧ t = s.onCtl fun c => { c with contain := true } := by
  cases r <;> simp_all [finish]

theorem whenDrained_next {s t : State} {f : Host.Outcome State Fault Refusal} (h : whenDrained s f = .next t) :
    (s.viqEmpty = true ∧ f = .next t) ∨ (s.viqEmpty = false ∧ t = s.waitFor .drain) := by
  unfold whenDrained at h
  split at h
  · exact .inl ⟨by assumption, h⟩
  · cases h; exact .inr ⟨by simp_all, rfl⟩

theorem whenEnded_next {s t : State} {f : Host.Outcome State Fault Refusal} (h : whenEnded s f = .next t) :
    (s.viqEmpty = true ∧ jobsOf s s.ct.lcore s.ct.task.taskid = [] ∧ f = .next t) ∨ t = s.waitFor .ending ∨ t = s.waitFor .job := by
  unfold whenEnded at h
  split at h
  · cases h; exact .inr (.inl rfl)
  · split at h
    · cases h; exact .inr (.inr rfl)
    · exact .inl ⟨by simp_all, by simp_all, h⟩

/-- A release goes on once the vector accesses have performed, or waits for them. -/
theorem release_next {keep : Bool} {s t : State} {f : State → Host.Outcome State Fault Refusal} (h : release keep s f = .next t) :
    (vecQuiet s = true ∧ f (if keep then nextInterval (endRaces (drainSbuf s) s.ct.lcore) else releaseAll s) = .next t) ∨
    (vecQuiet s = false ∧ t = s.waitFor .drain) := by
  unfold release at h
  split at h
  · exact .inl ⟨by assumption, h⟩
  · cases h; exact .inr ⟨by simp_all, rfl⟩

/-- The return from a trap (R355), where no start is in hand and no vector instruction is stopped. -/
theorem returnFromTrap_plain (s : State) (h : s.ct.sup.scause.getLsbD 15 = false) (v : s.ct.vec.stopped = none) :
    returnFromTrap s = .next { s with ct := { s.ct with
      level := prvLevel s.ct.sup.scause
      pc := s.ct.sup.sepc &&& ~~~ 3
      ctl := { s.ct.ctl with wait := .none, lpend := s.ct.sup.scause.getLsbD 8, target := none } } } := by
  simp only [returnFromTrap, h, Bool.false_eq_true, if_false, resumeStopped, State.onCtl, State.enter, v, Option.isSome_none, Bool.and_false]

-- ## The shadow bank (R192, R242)

/-- Exchanging the banks changes x21 to x28 and the other bank alone. -/
theorem swapBank_only (s : State) : s.swapBank = { s with ct := { s.ct with
    x := s.swapBank.ct.x, uli := { s.ct.uli with kother := s.swapBank.ct.uli.kother } } } := rfl

-- ## Cores and dies

theorem core_onCore (s : State) (n k : Nat) (f : Core → Core) (h : n < 128) : (s.onCore n f).core k = if k = n then f (s.core n) else s.core k := by
  unfold State.core State.onCore
  rw [dif_pos h]
  by_cases e : k = n
  · subst e; simp [h]
  · by_cases c : k < 128
    · simp [c, e, Vector.getElem_set_ne, Ne.symm e]
    · simp [c, e]

theorem onCore_only (s : State) (n : Nat) (f : Core → Core) : s.onCore n f = { s with cores := (s.onCore n f).cores } := by
  unfold State.onCore; split <;> rfl

theorem die_onDie (s : State) (d k : Nat) (f : Die → Die) (h : d < 4) : (s.onDie d f).die k = if k = d then f (s.die d) else s.die k := by
  unfold State.die State.onDie
  rw [dif_pos h]
  by_cases e : k = d
  · subst e; simp [h]
  · by_cases c : k < 4
    · simp [c, e, Vector.getElem_set_ne, Ne.symm e]
    · simp [c, e]

theorem onDie_only (s : State) (d : Nat) (f : Die → Die) : s.onDie d f = { s with dies := (s.onDie d f).dies } := by
  unfold State.onDie; split <;> rfl

/-- A packet between dies changes causal counters alone (R280). -/
theorem packet_only (s : State) (a b : Nat) : packet s a b = { s with dies := (packet s a b).dies } := by
  unfold packet; split
  · rfl
  · exact onDie_only _ _ _

theorem packet_dies (s : State) (a b : Nat) : SameDies s (packet s a b) := by
  intro d
  unfold packet
  split
  · rfl
  · unfold receivePacket
    by_cases h : b < 4
    · rw [die_onDie _ _ _ _ h]
      split
      · subst d; rfl
      · rfl
    · unfold State.onDie; rw [dif_neg h]

theorem sameDies_trans {s t u : State} (h : SameDies s t) (k : SameDies t u) : SameDies s u := fun d => by rw [k d, h d]

theorem reached_refl (s : State) : Reached s s := ⟨rfl, fun _ => rfl⟩

theorem reached_trans {s t u : State} (h : Reached s t) (k : Reached t u) : Reached s u :=
  ⟨k.1.trans (by rw [h.1]; rfl), sameDies_trans h.2 k.2⟩

theorem reached_packet (s : State) (a b : Nat) : Reached s (packet s a b) := by
  refine ⟨?_, packet_dies s a b⟩
  unfold State.accessed
  rw [packet_only]

/-- Lines change hands. -/
theorem reached_mem (s : State) (own cop : List (Nat × Nat)) (cxl : List Nat) :
    Reached s { s with m := { s.m with owners := own, copies := cop, cxlHeld := cxl } } := ⟨rfl, fun _ => rfl⟩

theorem reached_askDie (s : State) (a b : Nat) : Reached s (askDie s a b) := reached_trans (reached_packet s a b) (reached_packet _ b a)

theorem reached_foldl {β : Type} {f : State → β → State} (h : ∀ s b, Reached s (f s b)) : ∀ (l : List β) (s : State), Reached s (l.foldl f s)
  | [], s => reached_refl s
  | b :: r, s => reached_trans (h s b) (reached_foldl h r (f s b))

theorem reached_askFrom (s : State) (h : Nat) (ds : List Nat) : Reached s (askFrom s h ds) := reached_foldl (fun s d => reached_askDie s h d) ds s

/-- A write of a line changes who holds it, and nothing else but causal counters (R182, R280). -/
theorem reached_l1Write (s : State) (h : Hold) (line : Nat) : Reached s (l1Write s h line) := by
  refine reached_trans (reached_askFrom s (homeDie line) ((h.others s line).map (· / 8))) ?_
  cases h <;> exact reached_mem _ _ _ _

/-- A read of a line changes who holds it, and nothing else but causal counters (R181, R280). -/
theorem reached_l1Read (s : State) (fill : Bool) (lcore pa : Nat) : Reached s (l1Read s fill lcore pa) := by
  unfold l1Read
  dsimp only
  split
  · exact reached_refl s
  · have h := reached_trans (reached_packet s (dieOf lcore) (homeDie (lineOf pa))) (reached_trans (reached_askFrom _ (homeDie (lineOf pa))
      (((s.m.owners.filter fun o => o.1 == lineOf pa).map (·.2)).map (· / 8))) (reached_packet _ (homeDie (lineOf pa)) (dieOf lcore)))
    split
    · exact reached_trans h (reached_mem _ _ _ _)
    · exact h

-- ## Control threads

/-- The acting control thread is the one that its own number names. -/
theorem thread_self (s : State) : s.thread s.ct.lcore s.ct.ctno = s.ct := by simp [State.thread, State.threads, Thread.is]

theorem switchTo_self (s : State) : s.switchTo s.ct.lcore s.ct.ctno = s := by simp [State.switchTo, Thread.is]

theorem asThread_self (s : State) (f : State → State) (h : (f s).ct.lcore = s.ct.lcore) (k : (f s).ct.ctno = s.ct.ctno) :
    s.asThread s.ct.lcore s.ct.ctno f = f s := by
  simp [State.asThread, State.switchTo, Thread.is, h, k]

/-- A change of the acting control thread moves control threads alone. -/
theorem switchTo_only (s : State) (c n : Nat) : s.switchTo c n = { s with ct := (s.switchTo c n).ct, others := (s.switchTo c n).others } := by
  unfold State.switchTo; split <;> rfl

end Sys2Proof.Laws
end

