-- ==== Sys2Proof/Laws/Calm.lean ====
section
/-!
SUPPORT. Memory with nothing in flight: an access touches its own bytes alone. And a state in which every aligned address of device memory is ready.
-/

namespace Sys2Proof.Laws

open Sys2Proof.Machine

theorem settle_calm {s : State} (h : Calm s) (pa n : Nat) : settle s pa n = s := by simp [settle, h.chains]

/-- Nothing is outstanding. -/
theorem drainFor_calm {s : State} (h : Calm s) (k : Need) : drainFor k s = s := by simp [drainFor, h.sbuf, h.wcb, h.late]

/-- Every byte has one name, and is where it was. -/
theorem lastName_calm {s : State} (h : Calm s) (pa : Nat) : lastName s pa = pa := by simp [lastName, h.slines]

theorem placeNow_calm {s : State} (h : Calm s) (pa : Nat) : placeNow s pa = pa := by simp [placeNow, h.slines]

theorem reopen_calm {s : State} (h : Calm s) (by_ : By) (pa : Nat) : reopen s by_ pa = s := by simp [reopen, h.slines]

theorem openRead_calm {s : State} (h : Calm s) (pa n : Nat) : openRead s pa n = s := by simp [openRead, settle_calm h, h.slines]

theorem readyAt_calm {s : State} (h : Calm s) (by_ : By) (pa n : Nat) : readyAt s by_ pa n = (pa, s) := by
  simp only [readyAt, drainFor_calm h, placeNow_calm h, openRead_calm h]

theorem readyRead_calm {s : State} (h : Calm s) (by_ : By) (pa n : Nat) : readyRead s by_ pa n = s := by simp only [readyRead, readyAt_calm h]

theorem markSource_calm {s : State} (h : Calm s) (line : Nat) : markSource s line = s := by
  have h1 : (s.threads ++ s.pkg.saved).filter (fun t => t.mx.fills.any fun r => r.lines.contains line && !r.written) = [] := by
    rw [List.filter_eq_nil_iff]; intro t hm
    rcases List.mem_append.mp hm with m | m
    · simp [h.fills t m]
    · simp [h.savedFills t m]
  have h2 : s.pkg.parked.filter (fun p => p.fills.any fun r => r.lines.contains line && !r.written) = [] := by
    rw [List.filter_eq_nil_iff]; intro t hm; simp [h.parkedFills t hm]
  simp only [markSource, h1, h2, List.map_nil, List.append_nil, List.isEmpty_nil, Bool.not_true, Bool.false_eq_true, if_false]

/-- Memory stays calm while lines change hands. -/
theorem calm_reached {s t : State} (h : Calm s) (k : Reached s t) : Calm t := by
  rw [k.1]; exact ⟨h.1, h.2, h.3, h.4, h.5, h.6, h.7, h.8, h.9, h.10, h.11, h.12, h.13⟩

/-- A write of bytes leaves memory calm. -/
theorem calm_setBytes {s : State} (h : Calm s) (pa : Nat) (bs : List Byte) : Calm (s.setBytes pa bs) :=
  ⟨h.1, h.2, h.3, h.4, h.5, h.6, h.7, h.8, h.9, h.10, h.11, h.12, h.13⟩

theorem readyLine_calm {s : State} (h : Calm s) (by_ : By) (k : Hold) (line : Nat) : readyLine s by_ k line = l1Write s k line := by
  have hq := (calm_reached h (reached_l1Write s k line)).hostShared
  simp [readyLine, h.slines, h.tlb, h.early, markSource_calm h, endHostCopy, hq]

theorem reached_readyLine {s : State} (h : Calm s) (by_ : By) (k : Hold) (line : Nat) : Reached s (readyLine s by_ k line) :=
  readyLine_calm h by_ k line ▸ reached_l1Write s k line

theorem reached_readyLines {s : State} (h : Calm s) (by_ : By) (k : Hold) :
    ∀ ls : List Nat, Reached s (ls.foldl (fun s l => readyLine s by_ k l) s)
  | [] => reached_refl s
  | l :: r => by
    have h1 := reached_readyLine h by_ k l
    rw [List.foldl_cons]
    exact reached_trans h1 (reached_readyLines (calm_reached h h1) by_ k r)

theorem markEarly_calm {s : State} (h : Calm s) (by_ : By) (pa n : Nat) : markEarly s by_ pa n = s := by simp [markEarly, h.early]

theorem clearPoison_calm {s : State} (h : Calm s) (pa n : Nat) : clearPoison s pa n = s := by simp [clearPoison, h.poison]

/-- A write of every bit is a write of the bytes. -/
theorem performBits_full (s : State) (by_ : By) (k : Hold) (pa : Nat) (bs : List Byte) : performBits s by_ k pa 0xFF bs = performHome s by_ k pa bs := rfl

/-- A write at its home writes its bytes, lines change hands, and nothing else happens. -/
theorem performHome_calm {s : State} (h : Calm s) (by_ : By) (k : Hold) (pa : Nat) (bs : List Byte) :
    ∃ u, Reached s u ∧ performHome s by_ k pa bs = u.setBytes pa bs := by
  have hr := reached_readyLines h by_ k (linesOf pa bs.length)
  refine ⟨_, hr, ?_⟩
  have hc := calm_reached h hr
  simp only [performHome, readyWrite, settle_calm h, markEarly_calm hc, clearPoison_calm hc]

/-- Nothing performs late. -/
theorem performFirst_calm {s : State} (h : Calm s) (scalar writes : Bool) (pa n : Nat) : performFirst s scalar writes pa n = s := by
  simp [performFirst, performWhere, h.late]

theorem drainTranslated_calm {s : State} (h : Calm s) (by_ : By) (pa n : Nat) : drainTranslated s by_ pa n = s := drainFor_calm h _

theorem drainWhere_calm {s : State} (h : Calm s) (f : BufStore → Bool) : drainWhere f s = s := by simp [drainWhere, h.sbuf]

theorem drainLines_calm {s : State} (h : Calm s) (f : WcLine → Bool) : drainLines f s = s := by simp [drainLines, h.wcb]

theorem drainStores_calm {s : State} (h : Calm s) : drainStores s = s := by
  simp [drainStores, drainSbuf, drainWcb, drainWhere_calm h, drainLines_calm h, performWhere, h.late]

theorem drainAt_calm {s : State} (h : Calm s) (pa n : Nat) : drainAt s pa n = s := by simp [drainAt, h.sbuf, h.wcb]

theorem forgetEarly_calm {s : State} (h : Calm s) (f : Early → Bool) : forgetEarly s f = s := by simp [forgetEarly, h.early]

theorem dropOwn_calm {s : State} (h : Calm s) (scalar : Bool) (pa n : Nat) : dropOwn s scalar pa n = s := by simp [dropOwn, h.early]

theorem acquire_calm {s : State} (h : Calm s) (sc : Nat) (own : Bool) (ps : List Port) : acquire s sc own ps = s := forgetEarly_calm h _

theorem dropAhead_calm {s : State} (h : Calm s) : dropAhead s = s := forgetEarly_calm h _

theorem writeHome_calm {s : State} (h : Calm s) (by_ : By) (pa : Nat) (bs : List Byte) :
    ∃ u, Reached s u ∧ writeHome s by_ pa bs = u.setBytes pa bs := by
  simp only [writeHome, drainTranslated_calm h, placeNow_calm h, reopen_calm h]; exact performHome_calm h by_ _ pa bs

/-- What a load returns: the bytes at the home; lines change hands. -/
theorem loadBytes_calm {s : State} (h : Calm s) (scalar : Bool) (p : Place) (n : Nat) :
    loadBytes s scalar p n = (s.bytesAt p.pa n, l1Read s (scalar && p.cached) s.ct.lcore p.pa) := by
  have hr := reached_l1Read s (scalar && p.cached) s.ct.lcore p.pa
  have hc := calm_reached h hr
  have hm : (l1Read s (scalar && p.cached) s.ct.lcore p.pa).m.mem = s.m.mem := by rw [hr.1]; rfl
  have e : (if scalar = true then s else drainWhere (fun e => s.mine e && e.vec && (nameLines s p.pa n).contains (nameLine s e.pa)) s) = s := by
    split
    · rfl
    · exact drainWhere_calm h _
  simp only [loadBytes, performFirst_calm h, takeEarly, h.early, List.isEmpty_nil, if_true, readNow, e, drainFor_calm h, placeNow_calm h, openRead_calm hc,
    overlayOwn, hc.wcb, hc.sbuf, Bool.not_true, Bool.and_false, Bool.false_eq_true, if_false, State.bytesAt, hm]

theorem storeHome_calm {s : State} (h : Calm s) (lcore ctno : Nat) (own : Bool) (pa : Nat) (bs : List Byte) :
    ∃ u, Reached s u ∧ storeHome s lcore ctno own pa 0xFF bs = u.setBytes pa bs := by
  simp only [storeHome, performBits_full]
  split
  · exact performHome_calm h _ _ pa bs
  · have h1 := reached_askDie s (dieOf lcore) (homeDie pa)
    obtain ⟨u, hu, e⟩ := performHome_calm (calm_reached h h1) (.thread lcore ctno) (if own = true then Hold.take (clusterOf lcore) else .merge (some (clusterOf lcore))) pa bs
    exact ⟨u, reached_trans h1 hu, e⟩

/-- What a plain store that is not held does: its bytes are written, and lines change hands. -/
theorem plainStore_calm {s : State} (h : Calm s) (hd : s.ct.ord.detctl = false) (hs : s.sched.deferStores = false) (scalar : Bool) (p : Place) (va : Word)
    (bs : List Byte) : ∃ u, Reached s u ∧ plainStore s scalar p va bs = u.setBytes p.pa bs := by
  have e : plainStore s scalar p va bs = storeNow s scalar p 0xFF bs := by
    simp [plainStore, plainBits, dropOwn_calm h, performFirst_calm h, hd, buffers, hs, h.poison]
  rw [e]
  simp only [storeNow, drainAt_calm h, drainTranslated_calm h, placeNow_calm h, reopen_calm h]
  exact storeHome_calm h _ _ _ _ _

/-- An access that is left to perform later joins the list, and nothing else happens. -/
theorem leaveLate_calm {s : State} (h : Calm s) (vec : Bool) (p : Place) (op : LateOp) (dest : LateDest) :
    leaveLate s vec p op dest = s.onMem fun m => { m with
      late := [{ lcore := s.ct.lcore, ctno := s.ct.ctno, task := s.ct.task.taskid, vec := vec, seq := s.ct.ord.opSeq, pa := p.pa, cached := p.cached,
                 deps := p.deps, op := op, dest := dest, beforeV := if vec then s.ct.ord.vvNow else [], scope := none, got := none }] } := by
  simp [leaveLate, performFirst_calm h, forgetEarly_calm h, State.onMem, h.late]

/-- What a write of a number at its home does to bytes. -/
theorem bytesSet_setBytes (s : State) (pa n v : Nat) (h : Memory.wf s.m.mem = true) : BytesSet s (s.setBytes pa (toBytes n v)) pa n v := by
  constructor
  · intro k hk
    rw [byteAt_setBytes s pa (pa + k) _ h, dif_pos ⟨by omega, by rw [length_toBytes]; omega⟩, getElem_toBytes]
    rw [show pa + k - pa = k by omega]
  · intro a ha
    rw [byteAt_setBytes s pa a _ h, dif_neg (by rw [length_toBytes]; omega)]

theorem homeOf_dram {pa : Nat} (h : pa < 2 ^ 38) : homeOf pa = .dram (pa / 2 ^ 36) := by unfold homeOf; rw [if_pos h]

/-- Device memory is at hand where every device is trained and nothing is fenced or contained. -/
theorem atHome_dram (s : State) (pa : Nat) (hv : pa < 2 ^ 38) (ht : s.pkg.ready.trained = BitVec.allOnes 32)
    (hf : ∀ d, (s.die d).fenced = false) (hc : s.pkg.containedPairs = []) : atHome pa s = .ok () s := by
  have hl : lostHome s pa = false := by
    unfold lostHome
    rw [homeOf_dram hv]
    simp only [hf, hc, List.isEmpty_nil, Bool.not_true, Bool.false_and, Bool.or_self]
  have hu : s.trainedAt pa = true := by
    unfold State.trainedAt
    have e : s.pkg.ready.trained ||| s.pkg.ready.failed = BitVec.allOnes 32 := by rw [ht]; exact BitVec.allOnes_or
    simp [e]
  unfold atHome
  rw [hl, homeOf_dram hv]
  simp [hu]

theorem checkPoison_none (s : State) (a : Acc) (va : Word) (p : Place) (hp : s.m.poison = []) : checkPoison a va p s = .ok p s := by
  unfold checkPoison
  rw [hp, if_neg]
  simp

/-- In M a populated address that is no device register is its own translation. -/
theorem translate_m (c : Ctx) (s : State) (a : Acc) (va : Word) (pa : Nat) (hl : c.level = .m) (hm : va.toNat % 2 ^ 52 = pa) (hp : populated pa = true)
    (hd : homeOf pa ≠ .device) : Machine.translate c a va s = .ok ⟨pa, cacheable pa, []⟩ s := by
  subst hm
  unfold Machine.translate
  rw [if_pos hl]
  simp only [hp, Bool.not_true, Bool.false_eq_true, if_false, hd, false_and]

/-- In M, an aligned address whose place is at hand and not poisoned is the one accessed. -/
theorem resolve_place (s : State) (a : Acc) (va : Word) (pa n d : Nat) (k : Bool) (hl : s.ct.level = .m) (hn : va.toNat % n = 0)
    (h1 : Machine.translate s.ctx a va s = .ok ⟨pa, k, []⟩ s) (h2 : atHome pa s = .ok () s) (h3 : ∀ p, checkPoison a va p s = .ok p s)
    (hh : homeOf pa = .dram d) : resolveAligned s.ctx a va n s = .ok ⟨pa, k, []⟩ s := by
  unfold resolveAligned resolve
  rw [if_neg (by omega), if_pos (show s.ctx.level = .m from hl), h1]
  simp only [Res.andThen, enterPlace, landAt, h2, h3]
  rw [hh]

theorem low_mod {n : Nat} (h : n < 2 ^ 38) : n % 2 ^ 52 = n := Nat.mod_eq_of_lt (by omega)

theorem populated_dram {pa : Nat} (h : pa < 2 ^ 38) : populated pa = true := by
  have hh := homeOf_dram h
  unfold populated; rw [hh]

theorem dram_ne_device {pa : Nat} (h : pa < 2 ^ 38) : homeOf pa ≠ .device := by
  have hh := homeOf_dram h
  rw [hh]; exact fun h => Home.noConfusion h

theorem translate_dram (s : State) (a : Acc) (va : Word) (hl : s.ct.level = .m) (hv : va.toNat < 2 ^ 38) :
    Machine.translate s.ctx a va s = .ok ⟨va.toNat, cacheable va.toNat, []⟩ s :=
  translate_m s.ctx s a va va.toNat hl (low_mod hv) (populated_dram hv) (dram_ne_device hv)

/-- In M, with every device trained and nothing fenced, contained or poisoned, an aligned address of device memory is the one accessed. -/
theorem resolve_m (s : State) (a : Acc) (va : Word) (n : Nat) (hl : s.ct.level = .m) (ht : s.pkg.ready.trained = BitVec.allOnes 32)
    (hf : ∀ d, (s.die d).fenced = false) (hc : s.pkg.containedPairs = []) (hp : s.m.poison = []) (hn : va.toNat % n = 0)
    (hv : va.toNat < 2 ^ 38) : resolveAligned s.ctx a va n s = .ok ⟨va.toNat, cacheable va.toNat, []⟩ s := by
  have h1 := translate_dram s a va hl hv
  have h2 := atHome_dram s va.toNat hv ht hf hc
  exact resolve_place s a va va.toNat n _ _ hl hn h1 h2 (fun p => checkPoison_none s a va p hp) (homeOf_dram hv)

/-- In such a state the address is ready, and stays so along the way of an instruction. -/
theorem ready_m (may : Nat → Prop) (s : State) (a : Acc) (va : Word) (n : Nat) (hl : s.ct.level = .m) (ht : s.pkg.ready.trained = BitVec.allOnes 32)
    (hf : ∀ d, (s.die d).fenced = false) (hc : s.pkg.containedPairs = []) (hp : s.m.poison = []) (hn : va.toNat % n = 0)
    (hv : va.toNat < 2 ^ 38) : Ready may s a va n va.toNat := by
  refine ⟨fun s' h => ?_, dram_ne_device hv⟩
  obtain ⟨⟨x, v, f, o, c, mem, own, cop, races, cxl, ds, k, rfl⟩, hd, -⟩ := h
  exact ⟨⟨va.toNat, cacheable va.toNat, []⟩, rfl, resolve_m _ a va n hl ht (fun d => (hd d).trans (hf d)) hc hp hn hv⟩

/-- Stash memory of a core in service is at hand. -/
theorem atHome_stash (s : State) (pa c o : Nat) (hf : ∀ d, (s.die d).fenced = false) (hc : s.pkg.fencedCores = []) (hh : homeOf pa = .stash c o) :
    atHome pa s = .ok () s := by
  have hl : lostHome s pa = false := by
    unfold lostHome
    rw [hh]
    simp only [hc, hf, List.contains_nil, Bool.or_self]
  unfold atHome
  rw [hl, hh]
  simp

theorem stashLine_none (c : Ctx) (s : State) (a : Acc) (pa : Nat) (hs : s.m.slines = []) : stashLine c a pa s = .ok { pa := pa } s := by
  have h : stashAt s pa = none := by unfold stashAt; rw [hs]; rfl
  have h2 : ownFirst s pa = s := by unfold ownFirst; rw [h]
  unfold stashLine
  rw [h2, h]

/-- An access to a stash byte whose line no mapping covers is to that byte. -/
theorem enterPlace_stash (cx : Ctx) (s : State) (a : Acc) (va : Word) (pa c o : Nat) (hs : s.m.slines = []) (hp : s.m.poison = [])
    (h : atHome pa s = .ok () s) (hh : homeOf pa = .stash c o) : enterPlace cx a va { pa := pa } s = .ok { pa := pa } s := by
  unfold enterPlace landAt
  simp only [h, Res.andThen, checkPoison_none s a va _ hp]
  rw [hh]
  exact stashLine_none cx s a pa hs

/-- In U or S, an address whose bytes lie in the task's own stash grant is the stash byte it names, where no line of the stash is mapped. -/
theorem resolve_stash (cx : Ctx) (s : State) (a : Acc) (va : Word) (n off last pa c o : Nat) (hl : cx.level ≠ .m) (h1 : windowOf va = .local_ off)
    (h2 : windowOf (va + BitVec.ofNat 64 (n - 1)) = .local_ last) (h3 : last < cx.stashLen) (hs : s.m.slines = [])
    (hf : ∀ d, (s.die d).fenced = false) (hc : s.pkg.fencedCores = []) (hp : s.m.poison = [])
    (hpa : stashPa cx.lcore (cx.stashBase + off) = pa) (hh : homeOf pa = .stash c o) : resolve cx a va n s = .ok { pa := pa } s := by
  unfold resolve
  have h := enterPlace_stash cx s a va pa c o hs hp (atHome_stash s pa c o hf hc hh) hh
  rw [if_neg hl]
  simp only [h1, h2]
  rw [if_pos h3, hpa]
  exact h

/-- In such a state the address is ready, and stays so along the way of an instruction. -/
theorem ready_stash (may : Nat → Prop) (s : State) (a : Acc) (va : Word) (n off last pa c o : Nat) (hl : s.ct.level ≠ .m)
    (h1 : windowOf va = .local_ off) (h2 : windowOf (va + BitVec.ofNat 64 (n - 1)) = .local_ last) (h3 : last < s.ct.task.stashLen)
    (hs : s.m.slines = []) (hf : ∀ d, (s.die d).fenced = false) (hc : s.pkg.fencedCores = []) (hp : s.m.poison = []) (hn : va.toNat % n = 0)
    (hpa : stashPa s.ctx.lcore (s.ctx.stashBase + off) = pa) (hh : homeOf pa = .stash c o) : Ready may s a va n pa := by
  refine ⟨fun s' h => ?_, by rw [hh]; exact fun h => Home.noConfusion h⟩
  obtain ⟨⟨x, v, f, o', k, mem, own, cop, races, cxl, ds, m, rfl⟩, hd, -⟩ := h
  refine ⟨{ pa := pa }, rfl, ?_⟩
  unfold resolveAligned
  rw [if_neg (by omega)]
  exact resolve_stash _ _ a va n off last pa c o hl h1 h2 h3 hs (fun d => (hd d).trans (hf d)) hc hp hpa hh

end Sys2Proof.Laws
end

