-- ==== Sys2Proof/Laws/Fields.lean ====
section
/-!
SUPPORT. The fields of a word that a layout of Table 2.1 lays out: one lemma per layout and field.
-/

namespace Sys2Proof.Laws

theorem append_toNat {m n : Nat} (x : BitVec m) (y : BitVec n) : (x ++ y).toNat = x.toNat * 2 ^ n + y.toNat := by
  rw [BitVec.toNat_append, ← Nat.shiftLeft_add_eq_or_of_lt y.isLt, Nat.shiftLeft_eq]

-- ## Parts of a function field that is written in two parts

@[simp] theorem part_rnd (r : BitVec 3) (k : BitVec 2) : BitVec.extractLsb' 2 3 (r ++ k : BitVec 5) = r := by revert r k; decide
@[simp] theorem part_low2 (r : BitVec 3) (k : BitVec 2) : BitVec.extractLsb' 0 2 (r ++ k : BitVec 5) = k := by revert r k; decide
@[simp] theorem part_tb (g : BitVec 2) (k : BitVec 3) : BitVec.extractLsb' 3 2 (g ++ k : BitVec 5) = g := by revert g k; decide
@[simp] theorem part_low3 (g : BitVec 2) (k : BitVec 3) : BitVec.extractLsb' 0 3 (g ++ k : BitVec 5) = k := by revert g k; decide
@[simp] theorem part_op3 (p w : BitVec 3) : BitVec.extractLsb' 3 3 (p ++ w : BitVec 6) = p := by revert p w; decide
@[simp] theorem part_fx (p w : BitVec 3) : BitVec.extractLsb' 0 3 (p ++ w : BitVec 6) = w := by revert p w; decide
@[simp] theorem part_cmp (k : BitVec 1) (c : BitVec 4) : BitVec.extractLsb' 4 1 (k ++ c : BitVec 5) = k := by revert k c; decide
@[simp] theorem part_cond (k : BitVec 1) (c : BitVec 4) : BitVec.extractLsb' 0 4 (k ++ c : BitVec 5) = c := by revert k c; decide
@[simp] theorem part_fcmp (k : BitVec 2) (c : BitVec 4) : BitVec.extractLsb' 4 2 (k ++ c : BitVec 6) = k := by revert k c; decide
@[simp] theorem part_fcond (k : BitVec 2) (c : BitVec 4) : BitVec.extractLsb' 0 4 (k ++ c : BitVec 6) = c := by revert k c; decide
@[simp] theorem part_fcvt (k : BitVec 2) (r : BitVec 3) (z : BitVec 1) : BitVec.extractLsb' 4 2 (k ++ r ++ z : BitVec 6) = k := by revert k r z; decide
@[simp] theorem part_fcvt_rnd (k : BitVec 2) (r : BitVec 3) (z : BitVec 1) : BitVec.extractLsb' 1 3 (k ++ r ++ z : BitVec 6) = r := by
  revert k r z; decide
@[simp] theorem part_fcvt_low (k : BitVec 2) (r : BitVec 3) (z : BitVec 1) : BitVec.extractLsb' 0 1 (k ++ r ++ z : BitVec 6) = z := by
  revert k r z; decide
@[simp] theorem part_ofs (o : BitVec 12) : (BitVec.extractLsb' 7 5 o ++ BitVec.extractLsb' 0 7 o : BitVec 12) = o := by
  apply BitVec.eq_of_toNat_eq
  have h := o.isLt
  have e : BitVec.toNat (BitVec.extractLsb' 7 5 o ++ BitVec.extractLsb' 0 7 o) = _ := append_toNat _ _
  simp only [BitVec.extractLsb'_toNat, Nat.shiftRight_eq_div_pow] at e
  exact e.trans (by omega)

theorem layRR_toNat (maj d a b c f) : (layRR maj d a b c f).toNat = maj.toNat * 67108864 + d.toNat * 2097152 + a.toNat * 65536 + b.toNat * 2048 + c.toNat * 64 + f.toNat := by
  show BitVec.toNat (maj ++ d ++ a ++ b ++ c ++ f) = _
  simp only [append_toNat]
  omega

@[simp] theorem layRR_fMaj (maj d a b c f) : fMaj (layRR maj d a b c f) = maj := by
  apply BitVec.eq_of_toNat_eq
  simp only [fMaj, BitVec.extractLsb'_toNat, layRR_toNat, Nat.shiftRight_eq_div_pow]
  have hmaj := maj.isLt
  have hd := d.isLt
  have ha := a.isLt
  have hb := b.isLt
  have hc := c.isLt
  have hf := f.isLt
  omega

@[simp] theorem layRR_fD (maj d a b c f) : fD (layRR maj d a b c f) = d := by
  apply BitVec.eq_of_toNat_eq
  simp only [fD, BitVec.extractLsb'_toNat, layRR_toNat, Nat.shiftRight_eq_div_pow]
  have hmaj := maj.isLt
  have hd := d.isLt
  have ha := a.isLt
  have hb := b.isLt
  have hc := c.isLt
  have hf := f.isLt
  omega

@[simp] theorem layRR_fA (maj d a b c f) : fA (layRR maj d a b c f) = a := by
  apply BitVec.eq_of_toNat_eq
  simp only [fA, BitVec.extractLsb'_toNat, layRR_toNat, Nat.shiftRight_eq_div_pow]
  have hmaj := maj.isLt
  have hd := d.isLt
  have ha := a.isLt
  have hb := b.isLt
  have hc := c.isLt
  have hf := f.isLt
  omega

@[simp] theorem layRR_fB (maj d a b c f) : fB (layRR maj d a b c f) = b := by
  apply BitVec.eq_of_toNat_eq
  simp only [fB, BitVec.extractLsb'_toNat, layRR_toNat, Nat.shiftRight_eq_div_pow]
  have hmaj := maj.isLt
  have hd := d.isLt
  have ha := a.isLt
  have hb := b.isLt
  have hc := c.isLt
  have hf := f.isLt
  omega

@[simp] theorem layRR_fC (maj d a b c f) : fC (layRR maj d a b c f) = c := by
  apply BitVec.eq_of_toNat_eq
  simp only [fC, BitVec.extractLsb'_toNat, layRR_toNat, Nat.shiftRight_eq_div_pow]
  have hmaj := maj.isLt
  have hd := d.isLt
  have ha := a.isLt
  have hb := b.isLt
  have hc := c.isLt
  have hf := f.isLt
  omega

@[simp] theorem layRR_fF6 (maj d a b c f) : fF6 (layRR maj d a b c f) = f := by
  apply BitVec.eq_of_toNat_eq
  simp only [fF6, BitVec.extractLsb'_toNat, layRR_toNat, Nat.shiftRight_eq_div_pow]
  have hmaj := maj.isLt
  have hd := d.isLt
  have ha := a.isLt
  have hb := b.isLt
  have hc := c.isLt
  have hf := f.isLt
  omega

@[simp] theorem layRR_fCnd (maj d a b c f) : fCnd (layRR maj d a b c f) = f.extractLsb' 0 4 := by
  apply BitVec.eq_of_toNat_eq
  simp only [fCnd, BitVec.extractLsb'_toNat, layRR_toNat, Nat.shiftRight_eq_div_pow]
  have hmaj := maj.isLt
  have hd := d.isLt
  have ha := a.isLt
  have hb := b.isLt
  have hc := c.isLt
  have hf := f.isLt
  omega

@[simp] theorem layRR_fP (maj d a b c f) : fP (layRR maj d a b c f) = c.extractLsb' 2 3 := by
  apply BitVec.eq_of_toNat_eq
  simp only [fP, BitVec.extractLsb'_toNat, layRR_toNat, Nat.shiftRight_eq_div_pow]
  have hmaj := maj.isLt
  have hd := d.isLt
  have ha := a.isLt
  have hb := b.isLt
  have hc := c.isLt
  have hf := f.isLt
  omega

@[simp] theorem layRR_fT (maj d a b c f) : fT (layRR maj d a b c f) = c.extractLsb' 1 1 := by
  apply BitVec.eq_of_toNat_eq
  simp only [fT, BitVec.extractLsb'_toNat, layRR_toNat, Nat.shiftRight_eq_div_pow]
  have hmaj := maj.isLt
  have hd := d.isLt
  have ha := a.isLt
  have hb := b.isLt
  have hc := c.isLt
  have hf := f.isLt
  omega

@[simp] theorem layRR_fF5 (maj d a b c f) : fF5 (layRR maj d a b c f) = f.extractLsb' 0 5 := by
  apply BitVec.eq_of_toNat_eq
  simp only [fF5, BitVec.extractLsb'_toNat, layRR_toNat, Nat.shiftRight_eq_div_pow]
  have hmaj := maj.isLt
  have hd := d.isLt
  have ha := a.isLt
  have hb := b.isLt
  have hc := c.isLt
  have hf := f.isLt
  omega

@[simp] theorem layRR_fPX (maj d a b c f) : fPX (layRR maj d a b c f) = f.extractLsb' 3 3 := by
  apply BitVec.eq_of_toNat_eq
  simp only [fPX, BitVec.extractLsb'_toNat, layRR_toNat, Nat.shiftRight_eq_div_pow]
  have hmaj := maj.isLt
  have hd := d.isLt
  have ha := a.isLt
  have hb := b.isLt
  have hc := c.isLt
  have hf := f.isLt
  omega

@[simp] theorem layRR_fFX (maj d a b c f) : fFX (layRR maj d a b c f) = f.extractLsb' 0 3 := by
  apply BitVec.eq_of_toNat_eq
  simp only [fFX, BitVec.extractLsb'_toNat, layRR_toNat, Nat.shiftRight_eq_div_pow]
  have hmaj := maj.isLt
  have hd := d.isLt
  have ha := a.isLt
  have hb := b.isLt
  have hc := c.isLt
  have hf := f.isLt
  omega

@[simp] theorem layRR_fE (maj d a b c f) : fE (layRR maj d a b c f) = b.extractLsb' 1 4 := by
  apply BitVec.eq_of_toNat_eq
  simp only [fE, BitVec.extractLsb'_toNat, layRR_toNat, Nat.shiftRight_eq_div_pow]
  have hmaj := maj.isLt
  have hd := d.isLt
  have ha := a.isLt
  have hb := b.isLt
  have hc := c.isLt
  have hf := f.isLt
  omega

@[simp] theorem layRR_fTP (maj d a b c f) : fTP (layRR maj d a b c f) = c.extractLsb' 2 2 := by
  apply BitVec.eq_of_toNat_eq
  simp only [fTP, BitVec.extractLsb'_toNat, layRR_toNat, Nat.shiftRight_eq_div_pow]
  have hmaj := maj.isLt
  have hd := d.isLt
  have ha := a.isLt
  have hb := b.isLt
  have hc := c.isLt
  have hf := f.isLt
  omega

@[simp] theorem layRR_fMP (maj d a b c f) : fMP (layRR maj d a b c f) = c.extractLsb' 1 1 := by
  apply BitVec.eq_of_toNat_eq
  simp only [fMP, BitVec.extractLsb'_toNat, layRR_toNat, Nat.shiftRight_eq_div_pow]
  have hmaj := maj.isLt
  have hd := d.isLt
  have ha := a.isLt
  have hb := b.isLt
  have hc := c.isLt
  have hf := f.isLt
  omega

@[simp] theorem layRR_fAE (maj d a b c f) : fAE (layRR maj d a b c f) = f.extractLsb' 5 1 := by
  apply BitVec.eq_of_toNat_eq
  simp only [fAE, BitVec.extractLsb'_toNat, layRR_toNat, Nat.shiftRight_eq_div_pow]
  have hmaj := maj.isLt
  have hd := d.isLt
  have ha := a.isLt
  have hb := b.isLt
  have hc := c.isLt
  have hf := f.isLt
  omega

@[simp] theorem layRR_fTB (maj d a b c f) : fTB (layRR maj d a b c f) = f.extractLsb' 3 2 := by
  apply BitVec.eq_of_toNat_eq
  simp only [fTB, BitVec.extractLsb'_toNat, layRR_toNat, Nat.shiftRight_eq_div_pow]
  have hmaj := maj.isLt
  have hd := d.isLt
  have ha := a.isLt
  have hb := b.isLt
  have hc := c.isLt
  have hf := f.isLt
  omega

@[simp] theorem layRR_fSD (maj d a b c f) : fSD (layRR maj d a b c f) = f.extractLsb' 2 1 := by
  apply BitVec.eq_of_toNat_eq
  simp only [fSD, BitVec.extractLsb'_toNat, layRR_toNat, Nat.shiftRight_eq_div_pow]
  have hmaj := maj.isLt
  have hd := d.isLt
  have ha := a.isLt
  have hb := b.isLt
  have hc := c.isLt
  have hf := f.isLt
  omega

@[simp] theorem layRR_fFM2 (maj d a b c f) : fFM2 (layRR maj d a b c f) = f.extractLsb' 0 2 := by
  apply BitVec.eq_of_toNat_eq
  simp only [fFM2, BitVec.extractLsb'_toNat, layRR_toNat, Nat.shiftRight_eq_div_pow]
  have hmaj := maj.isLt
  have hd := d.isLt
  have ha := a.isLt
  have hb := b.isLt
  have hc := c.isLt
  have hf := f.isLt
  omega

@[simp] theorem layRR_fSC (maj d a b c f) : fSC (layRR maj d a b c f) = c.extractLsb' 2 3 := by
  apply BitVec.eq_of_toNat_eq
  simp only [fSC, BitVec.extractLsb'_toNat, layRR_toNat, Nat.shiftRight_eq_div_pow]
  have hmaj := maj.isLt
  have hd := d.isLt
  have ha := a.isLt
  have hb := b.isLt
  have hc := c.isLt
  have hf := f.isLt
  omega

@[simp] theorem layRR_fOR (maj d a b c f) : fOR (layRR maj d a b c f) = c.extractLsb' 0 2 := by
  apply BitVec.eq_of_toNat_eq
  simp only [fOR, BitVec.extractLsb'_toNat, layRR_toNat, Nat.shiftRight_eq_div_pow]
  have hmaj := maj.isLt
  have hd := d.isLt
  have ha := a.isLt
  have hb := b.isLt
  have hc := c.isLt
  have hf := f.isLt
  omega

@[simp] theorem layRR_fOp3 (maj d a b c f) : fOp3 (layRR maj d a b c f) = f.extractLsb' 3 3 := by
  apply BitVec.eq_of_toNat_eq
  simp only [fOp3, BitVec.extractLsb'_toNat, layRR_toNat, Nat.shiftRight_eq_div_pow]
  have hmaj := maj.isLt
  have hd := d.isLt
  have ha := a.isLt
  have hb := b.isLt
  have hc := c.isLt
  have hf := f.isLt
  omega

@[simp] theorem layRR_fRnd (maj d a b c f) : fRnd (layRR maj d a b c f) = f.extractLsb' 2 3 := by
  apply BitVec.eq_of_toNat_eq
  simp only [fRnd, BitVec.extractLsb'_toNat, layRR_toNat, Nat.shiftRight_eq_div_pow]
  have hmaj := maj.isLt
  have hd := d.isLt
  have ha := a.isLt
  have hb := b.isLt
  have hc := c.isLt
  have hf := f.isLt
  omega

@[simp] theorem layRR_bits_4_2 (maj d a b c f) : (layRR maj d a b c f).extractLsb' 4 2 = f.extractLsb' 4 2 := by
  apply BitVec.eq_of_toNat_eq
  simp only [BitVec.extractLsb'_toNat, layRR_toNat, Nat.shiftRight_eq_div_pow]
  have hmaj := maj.isLt
  have hd := d.isLt
  have ha := a.isLt
  have hb := b.isLt
  have hc := c.isLt
  have hf := f.isLt
  omega

@[simp] theorem layRR_bits_0_1 (maj d a b c f) : (layRR maj d a b c f).extractLsb' 0 1 = f.extractLsb' 0 1 := by
  apply BitVec.eq_of_toNat_eq
  simp only [BitVec.extractLsb'_toNat, layRR_toNat, Nat.shiftRight_eq_div_pow]
  have hmaj := maj.isLt
  have hd := d.isLt
  have ha := a.isLt
  have hb := b.isLt
  have hc := c.isLt
  have hf := f.isLt
  omega

@[simp] theorem layRR_bits_1_3 (maj d a b c f) : (layRR maj d a b c f).extractLsb' 1 3 = f.extractLsb' 1 3 := by
  apply BitVec.eq_of_toNat_eq
  simp only [BitVec.extractLsb'_toNat, layRR_toNat, Nat.shiftRight_eq_div_pow]
  have hmaj := maj.isLt
  have hd := d.isLt
  have ha := a.isLt
  have hb := b.isLt
  have hc := c.isLt
  have hf := f.isLt
  omega

theorem layRI_toNat (maj d a i) : (layRI maj d a i).toNat = maj.toNat * 67108864 + d.toNat * 2097152 + a.toNat * 65536 + i.toNat := by
  show BitVec.toNat (maj ++ d ++ a ++ i) = _
  simp only [append_toNat]
  omega

@[simp] theorem layRI_fMaj (maj d a i) : fMaj (layRI maj d a i) = maj := by
  apply BitVec.eq_of_toNat_eq
  simp only [fMaj, BitVec.extractLsb'_toNat, layRI_toNat, Nat.shiftRight_eq_div_pow]
  have hmaj := maj.isLt
  have hd := d.isLt
  have ha := a.isLt
  have hi := i.isLt
  omega

@[simp] theorem layRI_fD (maj d a i) : fD (layRI maj d a i) = d := by
  apply BitVec.eq_of_toNat_eq
  simp only [fD, BitVec.extractLsb'_toNat, layRI_toNat, Nat.shiftRight_eq_div_pow]
  have hmaj := maj.isLt
  have hd := d.isLt
  have ha := a.isLt
  have hi := i.isLt
  omega

@[simp] theorem layRI_fA (maj d a i) : fA (layRI maj d a i) = a := by
  apply BitVec.eq_of_toNat_eq
  simp only [fA, BitVec.extractLsb'_toNat, layRI_toNat, Nat.shiftRight_eq_div_pow]
  have hmaj := maj.isLt
  have hd := d.isLt
  have ha := a.isLt
  have hi := i.isLt
  omega

@[simp] theorem layRI_fB (maj d a i) : fB (layRI maj d a i) = i.extractLsb' 11 5 := by
  apply BitVec.eq_of_toNat_eq
  simp only [fB, BitVec.extractLsb'_toNat, layRI_toNat, Nat.shiftRight_eq_div_pow]
  have hmaj := maj.isLt
  have hd := d.isLt
  have ha := a.isLt
  have hi := i.isLt
  omega

@[simp] theorem layRI_fC (maj d a i) : fC (layRI maj d a i) = i.extractLsb' 6 5 := by
  apply BitVec.eq_of_toNat_eq
  simp only [fC, BitVec.extractLsb'_toNat, layRI_toNat, Nat.shiftRight_eq_div_pow]
  have hmaj := maj.isLt
  have hd := d.isLt
  have ha := a.isLt
  have hi := i.isLt
  omega

@[simp] theorem layRI_fF6 (maj d a i) : fF6 (layRI maj d a i) = i.extractLsb' 0 6 := by
  apply BitVec.eq_of_toNat_eq
  simp only [fF6, BitVec.extractLsb'_toNat, layRI_toNat, Nat.shiftRight_eq_div_pow]
  have hmaj := maj.isLt
  have hd := d.isLt
  have ha := a.isLt
  have hi := i.isLt
  omega

@[simp] theorem layRI_fI16 (maj d a i) : fI16 (layRI maj d a i) = i := by
  apply BitVec.eq_of_toNat_eq
  simp only [fI16, BitVec.extractLsb'_toNat, layRI_toNat, Nat.shiftRight_eq_div_pow]
  have hmaj := maj.isLt
  have hd := d.isLt
  have ha := a.isLt
  have hi := i.isLt
  omega

@[simp] theorem layRI_fI11 (maj d a i) : fI11 (layRI maj d a i) = i.extractLsb' 0 11 := by
  apply BitVec.eq_of_toNat_eq
  simp only [fI11, BitVec.extractLsb'_toNat, layRI_toNat, Nat.shiftRight_eq_div_pow]
  have hmaj := maj.isLt
  have hd := d.isLt
  have ha := a.isLt
  have hi := i.isLt
  omega

@[simp] theorem layRI_fOL (maj d a i) : fOL (layRI maj d a i) = i.extractLsb' 4 7 := by
  apply BitVec.eq_of_toNat_eq
  simp only [fOL, BitVec.extractLsb'_toNat, layRI_toNat, Nat.shiftRight_eq_div_pow]
  have hmaj := maj.isLt
  have hd := d.isLt
  have ha := a.isLt
  have hi := i.isLt
  omega

@[simp] theorem layRI_fCnd (maj d a i) : fCnd (layRI maj d a i) = i.extractLsb' 0 4 := by
  apply BitVec.eq_of_toNat_eq
  simp only [fCnd, BitVec.extractLsb'_toNat, layRI_toNat, Nat.shiftRight_eq_div_pow]
  have hmaj := maj.isLt
  have hd := d.isLt
  have ha := a.isLt
  have hi := i.isLt
  omega

@[simp] theorem layRI_fP (maj d a i) : fP (layRI maj d a i) = i.extractLsb' 8 3 := by
  apply BitVec.eq_of_toNat_eq
  simp only [fP, BitVec.extractLsb'_toNat, layRI_toNat, Nat.shiftRight_eq_div_pow]
  have hmaj := maj.isLt
  have hd := d.isLt
  have ha := a.isLt
  have hi := i.isLt
  omega

@[simp] theorem layRI_fT (maj d a i) : fT (layRI maj d a i) = i.extractLsb' 7 1 := by
  apply BitVec.eq_of_toNat_eq
  simp only [fT, BitVec.extractLsb'_toNat, layRI_toNat, Nat.shiftRight_eq_div_pow]
  have hmaj := maj.isLt
  have hd := d.isLt
  have ha := a.isLt
  have hi := i.isLt
  omega

@[simp] theorem layRI_fFM (maj d a i) : fFM (layRI maj d a i) = i.extractLsb' 5 2 := by
  apply BitVec.eq_of_toNat_eq
  simp only [fFM, BitVec.extractLsb'_toNat, layRI_toNat, Nat.shiftRight_eq_div_pow]
  have hmaj := maj.isLt
  have hd := d.isLt
  have ha := a.isLt
  have hi := i.isLt
  omega

@[simp] theorem layRI_fF5 (maj d a i) : fF5 (layRI maj d a i) = i.extractLsb' 0 5 := by
  apply BitVec.eq_of_toNat_eq
  simp only [fF5, BitVec.extractLsb'_toNat, layRI_toNat, Nat.shiftRight_eq_div_pow]
  have hmaj := maj.isLt
  have hd := d.isLt
  have ha := a.isLt
  have hi := i.isLt
  omega

@[simp] theorem layRI_fPX (maj d a i) : fPX (layRI maj d a i) = i.extractLsb' 3 3 := by
  apply BitVec.eq_of_toNat_eq
  simp only [fPX, BitVec.extractLsb'_toNat, layRI_toNat, Nat.shiftRight_eq_div_pow]
  have hmaj := maj.isLt
  have hd := d.isLt
  have ha := a.isLt
  have hi := i.isLt
  omega

@[simp] theorem layRI_fFX (maj d a i) : fFX (layRI maj d a i) = i.extractLsb' 0 3 := by
  apply BitVec.eq_of_toNat_eq
  simp only [fFX, BitVec.extractLsb'_toNat, layRI_toNat, Nat.shiftRight_eq_div_pow]
  have hmaj := maj.isLt
  have hd := d.isLt
  have ha := a.isLt
  have hi := i.isLt
  omega

@[simp] theorem layRI_fE (maj d a i) : fE (layRI maj d a i) = i.extractLsb' 12 4 := by
  apply BitVec.eq_of_toNat_eq
  simp only [fE, BitVec.extractLsb'_toNat, layRI_toNat, Nat.shiftRight_eq_div_pow]
  have hmaj := maj.isLt
  have hd := d.isLt
  have ha := a.isLt
  have hi := i.isLt
  omega

@[simp] theorem layRI_fG (maj d a i) : fG (layRI maj d a i) = i.extractLsb' 10 2 := by
  apply BitVec.eq_of_toNat_eq
  simp only [fG, BitVec.extractLsb'_toNat, layRI_toNat, Nat.shiftRight_eq_div_pow]
  have hmaj := maj.isLt
  have hd := d.isLt
  have ha := a.isLt
  have hi := i.isLt
  omega

@[simp] theorem layRI_fTP (maj d a i) : fTP (layRI maj d a i) = i.extractLsb' 8 2 := by
  apply BitVec.eq_of_toNat_eq
  simp only [fTP, BitVec.extractLsb'_toNat, layRI_toNat, Nat.shiftRight_eq_div_pow]
  have hmaj := maj.isLt
  have hd := d.isLt
  have ha := a.isLt
  have hi := i.isLt
  omega

@[simp] theorem layRI_fMP (maj d a i) : fMP (layRI maj d a i) = i.extractLsb' 7 1 := by
  apply BitVec.eq_of_toNat_eq
  simp only [fMP, BitVec.extractLsb'_toNat, layRI_toNat, Nat.shiftRight_eq_div_pow]
  have hmaj := maj.isLt
  have hd := d.isLt
  have ha := a.isLt
  have hi := i.isLt
  omega

@[simp] theorem layRI_fScope (maj d a i) : fScope (layRI maj d a i) = i.extractLsb' 4 3 := by
  apply BitVec.eq_of_toNat_eq
  simp only [fScope, BitVec.extractLsb'_toNat, layRI_toNat, Nat.shiftRight_eq_div_pow]
  have hmaj := maj.isLt
  have hd := d.isLt
  have ha := a.isLt
  have hi := i.isLt
  omega

@[simp] theorem layRI_fAE (maj d a i) : fAE (layRI maj d a i) = i.extractLsb' 5 1 := by
  apply BitVec.eq_of_toNat_eq
  simp only [fAE, BitVec.extractLsb'_toNat, layRI_toNat, Nat.shiftRight_eq_div_pow]
  have hmaj := maj.isLt
  have hd := d.isLt
  have ha := a.isLt
  have hi := i.isLt
  omega

@[simp] theorem layRI_fTB (maj d a i) : fTB (layRI maj d a i) = i.extractLsb' 3 2 := by
  apply BitVec.eq_of_toNat_eq
  simp only [fTB, BitVec.extractLsb'_toNat, layRI_toNat, Nat.shiftRight_eq_div_pow]
  have hmaj := maj.isLt
  have hd := d.isLt
  have ha := a.isLt
  have hi := i.isLt
  omega

@[simp] theorem layRI_fSD (maj d a i) : fSD (layRI maj d a i) = i.extractLsb' 2 1 := by
  apply BitVec.eq_of_toNat_eq
  simp only [fSD, BitVec.extractLsb'_toNat, layRI_toNat, Nat.shiftRight_eq_div_pow]
  have hmaj := maj.isLt
  have hd := d.isLt
  have ha := a.isLt
  have hi := i.isLt
  omega

@[simp] theorem layRI_fFM2 (maj d a i) : fFM2 (layRI maj d a i) = i.extractLsb' 0 2 := by
  apply BitVec.eq_of_toNat_eq
  simp only [fFM2, BitVec.extractLsb'_toNat, layRI_toNat, Nat.shiftRight_eq_div_pow]
  have hmaj := maj.isLt
  have hd := d.isLt
  have ha := a.isLt
  have hi := i.isLt
  omega

@[simp] theorem layRI_fSC (maj d a i) : fSC (layRI maj d a i) = i.extractLsb' 8 3 := by
  apply BitVec.eq_of_toNat_eq
  simp only [fSC, BitVec.extractLsb'_toNat, layRI_toNat, Nat.shiftRight_eq_div_pow]
  have hmaj := maj.isLt
  have hd := d.isLt
  have ha := a.isLt
  have hi := i.isLt
  omega

@[simp] theorem layRI_fOR (maj d a i) : fOR (layRI maj d a i) = i.extractLsb' 6 2 := by
  apply BitVec.eq_of_toNat_eq
  simp only [fOR, BitVec.extractLsb'_toNat, layRI_toNat, Nat.shiftRight_eq_div_pow]
  have hmaj := maj.isLt
  have hd := d.isLt
  have ha := a.isLt
  have hi := i.isLt
  omega

@[simp] theorem layRI_fOp3 (maj d a i) : fOp3 (layRI maj d a i) = i.extractLsb' 3 3 := by
  apply BitVec.eq_of_toNat_eq
  simp only [fOp3, BitVec.extractLsb'_toNat, layRI_toNat, Nat.shiftRight_eq_div_pow]
  have hmaj := maj.isLt
  have hd := d.isLt
  have ha := a.isLt
  have hi := i.isLt
  omega

@[simp] theorem layRI_fRnd (maj d a i) : fRnd (layRI maj d a i) = i.extractLsb' 2 3 := by
  apply BitVec.eq_of_toNat_eq
  simp only [fRnd, BitVec.extractLsb'_toNat, layRI_toNat, Nat.shiftRight_eq_div_pow]
  have hmaj := maj.isLt
  have hd := d.isLt
  have ha := a.isLt
  have hi := i.isLt
  omega

theorem layMF_toNat (maj d a m i) : (layMF maj d a m i).toNat = maj.toNat * 67108864 + d.toNat * 2097152 + a.toNat * 65536 + m.toNat * 2048 + i.toNat := by
  show BitVec.toNat (maj ++ d ++ a ++ m ++ i) = _
  simp only [append_toNat]
  omega

@[simp] theorem layMF_fMaj (maj d a m i) : fMaj (layMF maj d a m i) = maj := by
  apply BitVec.eq_of_toNat_eq
  simp only [fMaj, BitVec.extractLsb'_toNat, layMF_toNat, Nat.shiftRight_eq_div_pow]
  have hmaj := maj.isLt
  have hd := d.isLt
  have ha := a.isLt
  have hm := m.isLt
  have hi := i.isLt
  omega

@[simp] theorem layMF_fD (maj d a m i) : fD (layMF maj d a m i) = d := by
  apply BitVec.eq_of_toNat_eq
  simp only [fD, BitVec.extractLsb'_toNat, layMF_toNat, Nat.shiftRight_eq_div_pow]
  have hmaj := maj.isLt
  have hd := d.isLt
  have ha := a.isLt
  have hm := m.isLt
  have hi := i.isLt
  omega

@[simp] theorem layMF_fA (maj d a m i) : fA (layMF maj d a m i) = a := by
  apply BitVec.eq_of_toNat_eq
  simp only [fA, BitVec.extractLsb'_toNat, layMF_toNat, Nat.shiftRight_eq_div_pow]
  have hmaj := maj.isLt
  have hd := d.isLt
  have ha := a.isLt
  have hm := m.isLt
  have hi := i.isLt
  omega

@[simp] theorem layMF_fB (maj d a m i) : fB (layMF maj d a m i) = m := by
  apply BitVec.eq_of_toNat_eq
  simp only [fB, BitVec.extractLsb'_toNat, layMF_toNat, Nat.shiftRight_eq_div_pow]
  have hmaj := maj.isLt
  have hd := d.isLt
  have ha := a.isLt
  have hm := m.isLt
  have hi := i.isLt
  omega

@[simp] theorem layMF_fC (maj d a m i) : fC (layMF maj d a m i) = i.extractLsb' 6 5 := by
  apply BitVec.eq_of_toNat_eq
  simp only [fC, BitVec.extractLsb'_toNat, layMF_toNat, Nat.shiftRight_eq_div_pow]
  have hmaj := maj.isLt
  have hd := d.isLt
  have ha := a.isLt
  have hm := m.isLt
  have hi := i.isLt
  omega

@[simp] theorem layMF_fF6 (maj d a m i) : fF6 (layMF maj d a m i) = i.extractLsb' 0 6 := by
  apply BitVec.eq_of_toNat_eq
  simp only [fF6, BitVec.extractLsb'_toNat, layMF_toNat, Nat.shiftRight_eq_div_pow]
  have hmaj := maj.isLt
  have hd := d.isLt
  have ha := a.isLt
  have hm := m.isLt
  have hi := i.isLt
  omega

@[simp] theorem layMF_fI11 (maj d a m i) : fI11 (layMF maj d a m i) = i := by
  apply BitVec.eq_of_toNat_eq
  simp only [fI11, BitVec.extractLsb'_toNat, layMF_toNat, Nat.shiftRight_eq_div_pow]
  have hmaj := maj.isLt
  have hd := d.isLt
  have ha := a.isLt
  have hm := m.isLt
  have hi := i.isLt
  omega

@[simp] theorem layMF_fOL (maj d a m i) : fOL (layMF maj d a m i) = i.extractLsb' 4 7 := by
  apply BitVec.eq_of_toNat_eq
  simp only [fOL, BitVec.extractLsb'_toNat, layMF_toNat, Nat.shiftRight_eq_div_pow]
  have hmaj := maj.isLt
  have hd := d.isLt
  have ha := a.isLt
  have hm := m.isLt
  have hi := i.isLt
  omega

@[simp] theorem layMF_fCnd (maj d a m i) : fCnd (layMF maj d a m i) = i.extractLsb' 0 4 := by
  apply BitVec.eq_of_toNat_eq
  simp only [fCnd, BitVec.extractLsb'_toNat, layMF_toNat, Nat.shiftRight_eq_div_pow]
  have hmaj := maj.isLt
  have hd := d.isLt
  have ha := a.isLt
  have hm := m.isLt
  have hi := i.isLt
  omega

@[simp] theorem layMF_fP (maj d a m i) : fP (layMF maj d a m i) = i.extractLsb' 8 3 := by
  apply BitVec.eq_of_toNat_eq
  simp only [fP, BitVec.extractLsb'_toNat, layMF_toNat, Nat.shiftRight_eq_div_pow]
  have hmaj := maj.isLt
  have hd := d.isLt
  have ha := a.isLt
  have hm := m.isLt
  have hi := i.isLt
  omega

@[simp] theorem layMF_fT (maj d a m i) : fT (layMF maj d a m i) = i.extractLsb' 7 1 := by
  apply BitVec.eq_of_toNat_eq
  simp only [fT, BitVec.extractLsb'_toNat, layMF_toNat, Nat.shiftRight_eq_div_pow]
  have hmaj := maj.isLt
  have hd := d.isLt
  have ha := a.isLt
  have hm := m.isLt
  have hi := i.isLt
  omega

@[simp] theorem layMF_fFM (maj d a m i) : fFM (layMF maj d a m i) = i.extractLsb' 5 2 := by
  apply BitVec.eq_of_toNat_eq
  simp only [fFM, BitVec.extractLsb'_toNat, layMF_toNat, Nat.shiftRight_eq_div_pow]
  have hmaj := maj.isLt
  have hd := d.isLt
  have ha := a.isLt
  have hm := m.isLt
  have hi := i.isLt
  omega

@[simp] theorem layMF_fF5 (maj d a m i) : fF5 (layMF maj d a m i) = i.extractLsb' 0 5 := by
  apply BitVec.eq_of_toNat_eq
  simp only [fF5, BitVec.extractLsb'_toNat, layMF_toNat, Nat.shiftRight_eq_div_pow]
  have hmaj := maj.isLt
  have hd := d.isLt
  have ha := a.isLt
  have hm := m.isLt
  have hi := i.isLt
  omega

@[simp] theorem layMF_fPX (maj d a m i) : fPX (layMF maj d a m i) = i.extractLsb' 3 3 := by
  apply BitVec.eq_of_toNat_eq
  simp only [fPX, BitVec.extractLsb'_toNat, layMF_toNat, Nat.shiftRight_eq_div_pow]
  have hmaj := maj.isLt
  have hd := d.isLt
  have ha := a.isLt
  have hm := m.isLt
  have hi := i.isLt
  omega

@[simp] theorem layMF_fFX (maj d a m i) : fFX (layMF maj d a m i) = i.extractLsb' 0 3 := by
  apply BitVec.eq_of_toNat_eq
  simp only [fFX, BitVec.extractLsb'_toNat, layMF_toNat, Nat.shiftRight_eq_div_pow]
  have hmaj := maj.isLt
  have hd := d.isLt
  have ha := a.isLt
  have hm := m.isLt
  have hi := i.isLt
  omega

@[simp] theorem layMF_fE (maj d a m i) : fE (layMF maj d a m i) = m.extractLsb' 1 4 := by
  apply BitVec.eq_of_toNat_eq
  simp only [fE, BitVec.extractLsb'_toNat, layMF_toNat, Nat.shiftRight_eq_div_pow]
  have hmaj := maj.isLt
  have hd := d.isLt
  have ha := a.isLt
  have hm := m.isLt
  have hi := i.isLt
  omega

@[simp] theorem layMF_fTP (maj d a m i) : fTP (layMF maj d a m i) = i.extractLsb' 8 2 := by
  apply BitVec.eq_of_toNat_eq
  simp only [fTP, BitVec.extractLsb'_toNat, layMF_toNat, Nat.shiftRight_eq_div_pow]
  have hmaj := maj.isLt
  have hd := d.isLt
  have ha := a.isLt
  have hm := m.isLt
  have hi := i.isLt
  omega

@[simp] theorem layMF_fMP (maj d a m i) : fMP (layMF maj d a m i) = i.extractLsb' 7 1 := by
  apply BitVec.eq_of_toNat_eq
  simp only [fMP, BitVec.extractLsb'_toNat, layMF_toNat, Nat.shiftRight_eq_div_pow]
  have hmaj := maj.isLt
  have hd := d.isLt
  have ha := a.isLt
  have hm := m.isLt
  have hi := i.isLt
  omega

@[simp] theorem layMF_fScope (maj d a m i) : fScope (layMF maj d a m i) = i.extractLsb' 4 3 := by
  apply BitVec.eq_of_toNat_eq
  simp only [fScope, BitVec.extractLsb'_toNat, layMF_toNat, Nat.shiftRight_eq_div_pow]
  have hmaj := maj.isLt
  have hd := d.isLt
  have ha := a.isLt
  have hm := m.isLt
  have hi := i.isLt
  omega

@[simp] theorem layMF_fAE (maj d a m i) : fAE (layMF maj d a m i) = i.extractLsb' 5 1 := by
  apply BitVec.eq_of_toNat_eq
  simp only [fAE, BitVec.extractLsb'_toNat, layMF_toNat, Nat.shiftRight_eq_div_pow]
  have hmaj := maj.isLt
  have hd := d.isLt
  have ha := a.isLt
  have hm := m.isLt
  have hi := i.isLt
  omega

@[simp] theorem layMF_fTB (maj d a m i) : fTB (layMF maj d a m i) = i.extractLsb' 3 2 := by
  apply BitVec.eq_of_toNat_eq
  simp only [fTB, BitVec.extractLsb'_toNat, layMF_toNat, Nat.shiftRight_eq_div_pow]
  have hmaj := maj.isLt
  have hd := d.isLt
  have ha := a.isLt
  have hm := m.isLt
  have hi := i.isLt
  omega

@[simp] theorem layMF_fSD (maj d a m i) : fSD (layMF maj d a m i) = i.extractLsb' 2 1 := by
  apply BitVec.eq_of_toNat_eq
  simp only [fSD, BitVec.extractLsb'_toNat, layMF_toNat, Nat.shiftRight_eq_div_pow]
  have hmaj := maj.isLt
  have hd := d.isLt
  have ha := a.isLt
  have hm := m.isLt
  have hi := i.isLt
  omega

@[simp] theorem layMF_fFM2 (maj d a m i) : fFM2 (layMF maj d a m i) = i.extractLsb' 0 2 := by
  apply BitVec.eq_of_toNat_eq
  simp only [fFM2, BitVec.extractLsb'_toNat, layMF_toNat, Nat.shiftRight_eq_div_pow]
  have hmaj := maj.isLt
  have hd := d.isLt
  have ha := a.isLt
  have hm := m.isLt
  have hi := i.isLt
  omega

@[simp] theorem layMF_fSC (maj d a m i) : fSC (layMF maj d a m i) = i.extractLsb' 8 3 := by
  apply BitVec.eq_of_toNat_eq
  simp only [fSC, BitVec.extractLsb'_toNat, layMF_toNat, Nat.shiftRight_eq_div_pow]
  have hmaj := maj.isLt
  have hd := d.isLt
  have ha := a.isLt
  have hm := m.isLt
  have hi := i.isLt
  omega

@[simp] theorem layMF_fOR (maj d a m i) : fOR (layMF maj d a m i) = i.extractLsb' 6 2 := by
  apply BitVec.eq_of_toNat_eq
  simp only [fOR, BitVec.extractLsb'_toNat, layMF_toNat, Nat.shiftRight_eq_div_pow]
  have hmaj := maj.isLt
  have hd := d.isLt
  have ha := a.isLt
  have hm := m.isLt
  have hi := i.isLt
  omega

@[simp] theorem layMF_fOp3 (maj d a m i) : fOp3 (layMF maj d a m i) = i.extractLsb' 3 3 := by
  apply BitVec.eq_of_toNat_eq
  simp only [fOp3, BitVec.extractLsb'_toNat, layMF_toNat, Nat.shiftRight_eq_div_pow]
  have hmaj := maj.isLt
  have hd := d.isLt
  have ha := a.isLt
  have hm := m.isLt
  have hi := i.isLt
  omega

@[simp] theorem layMF_fRnd (maj d a m i) : fRnd (layMF maj d a m i) = i.extractLsb' 2 3 := by
  apply BitVec.eq_of_toNat_eq
  simp only [fRnd, BitVec.extractLsb'_toNat, layMF_toNat, Nat.shiftRight_eq_div_pow]
  have hmaj := maj.isLt
  have hd := d.isLt
  have ha := a.isLt
  have hm := m.isLt
  have hi := i.isLt
  omega

theorem layBR_toNat (maj oh a b ol c) : (layBR maj oh a b ol c).toNat = maj.toNat * 67108864 + oh.toNat * 2097152 + a.toNat * 65536 + b.toNat * 2048 + ol.toNat * 16 + c.toNat := by
  show BitVec.toNat (maj ++ oh ++ a ++ b ++ ol ++ c) = _
  simp only [append_toNat]
  omega

@[simp] theorem layBR_fMaj (maj oh a b ol c) : fMaj (layBR maj oh a b ol c) = maj := by
  apply BitVec.eq_of_toNat_eq
  simp only [fMaj, BitVec.extractLsb'_toNat, layBR_toNat, Nat.shiftRight_eq_div_pow]
  have hmaj := maj.isLt
  have hoh := oh.isLt
  have ha := a.isLt
  have hb := b.isLt
  have hol := ol.isLt
  have hc := c.isLt
  omega

@[simp] theorem layBR_fD (maj oh a b ol c) : fD (layBR maj oh a b ol c) = oh := by
  apply BitVec.eq_of_toNat_eq
  simp only [fD, BitVec.extractLsb'_toNat, layBR_toNat, Nat.shiftRight_eq_div_pow]
  have hmaj := maj.isLt
  have hoh := oh.isLt
  have ha := a.isLt
  have hb := b.isLt
  have hol := ol.isLt
  have hc := c.isLt
  omega

@[simp] theorem layBR_fA (maj oh a b ol c) : fA (layBR maj oh a b ol c) = a := by
  apply BitVec.eq_of_toNat_eq
  simp only [fA, BitVec.extractLsb'_toNat, layBR_toNat, Nat.shiftRight_eq_div_pow]
  have hmaj := maj.isLt
  have hoh := oh.isLt
  have ha := a.isLt
  have hb := b.isLt
  have hol := ol.isLt
  have hc := c.isLt
  omega

@[simp] theorem layBR_fB (maj oh a b ol c) : fB (layBR maj oh a b ol c) = b := by
  apply BitVec.eq_of_toNat_eq
  simp only [fB, BitVec.extractLsb'_toNat, layBR_toNat, Nat.shiftRight_eq_div_pow]
  have hmaj := maj.isLt
  have hoh := oh.isLt
  have ha := a.isLt
  have hb := b.isLt
  have hol := ol.isLt
  have hc := c.isLt
  omega

@[simp] theorem layBR_fC (maj oh a b ol c) : fC (layBR maj oh a b ol c) = ol.extractLsb' 2 5 := by
  apply BitVec.eq_of_toNat_eq
  simp only [fC, BitVec.extractLsb'_toNat, layBR_toNat, Nat.shiftRight_eq_div_pow]
  have hmaj := maj.isLt
  have hoh := oh.isLt
  have ha := a.isLt
  have hb := b.isLt
  have hol := ol.isLt
  have hc := c.isLt
  omega

@[simp] theorem layBR_fOL (maj oh a b ol c) : fOL (layBR maj oh a b ol c) = ol := by
  apply BitVec.eq_of_toNat_eq
  simp only [fOL, BitVec.extractLsb'_toNat, layBR_toNat, Nat.shiftRight_eq_div_pow]
  have hmaj := maj.isLt
  have hoh := oh.isLt
  have ha := a.isLt
  have hb := b.isLt
  have hol := ol.isLt
  have hc := c.isLt
  omega

@[simp] theorem layBR_fCnd (maj oh a b ol c) : fCnd (layBR maj oh a b ol c) = c := by
  apply BitVec.eq_of_toNat_eq
  simp only [fCnd, BitVec.extractLsb'_toNat, layBR_toNat, Nat.shiftRight_eq_div_pow]
  have hmaj := maj.isLt
  have hoh := oh.isLt
  have ha := a.isLt
  have hb := b.isLt
  have hol := ol.isLt
  have hc := c.isLt
  omega

@[simp] theorem layBR_fP (maj oh a b ol c) : fP (layBR maj oh a b ol c) = ol.extractLsb' 4 3 := by
  apply BitVec.eq_of_toNat_eq
  simp only [fP, BitVec.extractLsb'_toNat, layBR_toNat, Nat.shiftRight_eq_div_pow]
  have hmaj := maj.isLt
  have hoh := oh.isLt
  have ha := a.isLt
  have hb := b.isLt
  have hol := ol.isLt
  have hc := c.isLt
  omega

@[simp] theorem layBR_fT (maj oh a b ol c) : fT (layBR maj oh a b ol c) = ol.extractLsb' 3 1 := by
  apply BitVec.eq_of_toNat_eq
  simp only [fT, BitVec.extractLsb'_toNat, layBR_toNat, Nat.shiftRight_eq_div_pow]
  have hmaj := maj.isLt
  have hoh := oh.isLt
  have ha := a.isLt
  have hb := b.isLt
  have hol := ol.isLt
  have hc := c.isLt
  omega

@[simp] theorem layBR_fFM (maj oh a b ol c) : fFM (layBR maj oh a b ol c) = ol.extractLsb' 1 2 := by
  apply BitVec.eq_of_toNat_eq
  simp only [fFM, BitVec.extractLsb'_toNat, layBR_toNat, Nat.shiftRight_eq_div_pow]
  have hmaj := maj.isLt
  have hoh := oh.isLt
  have ha := a.isLt
  have hb := b.isLt
  have hol := ol.isLt
  have hc := c.isLt
  omega

@[simp] theorem layBR_fFX (maj oh a b ol c) : fFX (layBR maj oh a b ol c) = c.extractLsb' 0 3 := by
  apply BitVec.eq_of_toNat_eq
  simp only [fFX, BitVec.extractLsb'_toNat, layBR_toNat, Nat.shiftRight_eq_div_pow]
  have hmaj := maj.isLt
  have hoh := oh.isLt
  have ha := a.isLt
  have hb := b.isLt
  have hol := ol.isLt
  have hc := c.isLt
  omega

@[simp] theorem layBR_fE (maj oh a b ol c) : fE (layBR maj oh a b ol c) = b.extractLsb' 1 4 := by
  apply BitVec.eq_of_toNat_eq
  simp only [fE, BitVec.extractLsb'_toNat, layBR_toNat, Nat.shiftRight_eq_div_pow]
  have hmaj := maj.isLt
  have hoh := oh.isLt
  have ha := a.isLt
  have hb := b.isLt
  have hol := ol.isLt
  have hc := c.isLt
  omega

@[simp] theorem layBR_fTP (maj oh a b ol c) : fTP (layBR maj oh a b ol c) = ol.extractLsb' 4 2 := by
  apply BitVec.eq_of_toNat_eq
  simp only [fTP, BitVec.extractLsb'_toNat, layBR_toNat, Nat.shiftRight_eq_div_pow]
  have hmaj := maj.isLt
  have hoh := oh.isLt
  have ha := a.isLt
  have hb := b.isLt
  have hol := ol.isLt
  have hc := c.isLt
  omega

@[simp] theorem layBR_fMP (maj oh a b ol c) : fMP (layBR maj oh a b ol c) = ol.extractLsb' 3 1 := by
  apply BitVec.eq_of_toNat_eq
  simp only [fMP, BitVec.extractLsb'_toNat, layBR_toNat, Nat.shiftRight_eq_div_pow]
  have hmaj := maj.isLt
  have hoh := oh.isLt
  have ha := a.isLt
  have hb := b.isLt
  have hol := ol.isLt
  have hc := c.isLt
  omega

@[simp] theorem layBR_fScope (maj oh a b ol c) : fScope (layBR maj oh a b ol c) = ol.extractLsb' 0 3 := by
  apply BitVec.eq_of_toNat_eq
  simp only [fScope, BitVec.extractLsb'_toNat, layBR_toNat, Nat.shiftRight_eq_div_pow]
  have hmaj := maj.isLt
  have hoh := oh.isLt
  have ha := a.isLt
  have hb := b.isLt
  have hol := ol.isLt
  have hc := c.isLt
  omega

@[simp] theorem layBR_fAE (maj oh a b ol c) : fAE (layBR maj oh a b ol c) = ol.extractLsb' 1 1 := by
  apply BitVec.eq_of_toNat_eq
  simp only [fAE, BitVec.extractLsb'_toNat, layBR_toNat, Nat.shiftRight_eq_div_pow]
  have hmaj := maj.isLt
  have hoh := oh.isLt
  have ha := a.isLt
  have hb := b.isLt
  have hol := ol.isLt
  have hc := c.isLt
  omega

@[simp] theorem layBR_fSD (maj oh a b ol c) : fSD (layBR maj oh a b ol c) = c.extractLsb' 2 1 := by
  apply BitVec.eq_of_toNat_eq
  simp only [fSD, BitVec.extractLsb'_toNat, layBR_toNat, Nat.shiftRight_eq_div_pow]
  have hmaj := maj.isLt
  have hoh := oh.isLt
  have ha := a.isLt
  have hb := b.isLt
  have hol := ol.isLt
  have hc := c.isLt
  omega

@[simp] theorem layBR_fFM2 (maj oh a b ol c) : fFM2 (layBR maj oh a b ol c) = c.extractLsb' 0 2 := by
  apply BitVec.eq_of_toNat_eq
  simp only [fFM2, BitVec.extractLsb'_toNat, layBR_toNat, Nat.shiftRight_eq_div_pow]
  have hmaj := maj.isLt
  have hoh := oh.isLt
  have ha := a.isLt
  have hb := b.isLt
  have hol := ol.isLt
  have hc := c.isLt
  omega

@[simp] theorem layBR_fSC (maj oh a b ol c) : fSC (layBR maj oh a b ol c) = ol.extractLsb' 4 3 := by
  apply BitVec.eq_of_toNat_eq
  simp only [fSC, BitVec.extractLsb'_toNat, layBR_toNat, Nat.shiftRight_eq_div_pow]
  have hmaj := maj.isLt
  have hoh := oh.isLt
  have ha := a.isLt
  have hb := b.isLt
  have hol := ol.isLt
  have hc := c.isLt
  omega

@[simp] theorem layBR_fOR (maj oh a b ol c) : fOR (layBR maj oh a b ol c) = ol.extractLsb' 2 2 := by
  apply BitVec.eq_of_toNat_eq
  simp only [fOR, BitVec.extractLsb'_toNat, layBR_toNat, Nat.shiftRight_eq_div_pow]
  have hmaj := maj.isLt
  have hoh := oh.isLt
  have ha := a.isLt
  have hb := b.isLt
  have hol := ol.isLt
  have hc := c.isLt
  omega

theorem layJ_toNat (maj d o) : (layJ maj d o).toNat = maj.toNat * 67108864 + d.toNat * 2097152 + o.toNat := by
  show BitVec.toNat (maj ++ d ++ o) = _
  simp only [append_toNat]
  omega

@[simp] theorem layJ_fMaj (maj d o) : fMaj (layJ maj d o) = maj := by
  apply BitVec.eq_of_toNat_eq
  simp only [fMaj, BitVec.extractLsb'_toNat, layJ_toNat, Nat.shiftRight_eq_div_pow]
  have hmaj := maj.isLt
  have hd := d.isLt
  have ho := o.isLt
  omega

@[simp] theorem layJ_fD (maj d o) : fD (layJ maj d o) = d := by
  apply BitVec.eq_of_toNat_eq
  simp only [fD, BitVec.extractLsb'_toNat, layJ_toNat, Nat.shiftRight_eq_div_pow]
  have hmaj := maj.isLt
  have hd := d.isLt
  have ho := o.isLt
  omega

@[simp] theorem layJ_fA (maj d o) : fA (layJ maj d o) = o.extractLsb' 16 5 := by
  apply BitVec.eq_of_toNat_eq
  simp only [fA, BitVec.extractLsb'_toNat, layJ_toNat, Nat.shiftRight_eq_div_pow]
  have hmaj := maj.isLt
  have hd := d.isLt
  have ho := o.isLt
  omega

@[simp] theorem layJ_fB (maj d o) : fB (layJ maj d o) = o.extractLsb' 11 5 := by
  apply BitVec.eq_of_toNat_eq
  simp only [fB, BitVec.extractLsb'_toNat, layJ_toNat, Nat.shiftRight_eq_div_pow]
  have hmaj := maj.isLt
  have hd := d.isLt
  have ho := o.isLt
  omega

@[simp] theorem layJ_fC (maj d o) : fC (layJ maj d o) = o.extractLsb' 6 5 := by
  apply BitVec.eq_of_toNat_eq
  simp only [fC, BitVec.extractLsb'_toNat, layJ_toNat, Nat.shiftRight_eq_div_pow]
  have hmaj := maj.isLt
  have hd := d.isLt
  have ho := o.isLt
  omega

@[simp] theorem layJ_fF6 (maj d o) : fF6 (layJ maj d o) = o.extractLsb' 0 6 := by
  apply BitVec.eq_of_toNat_eq
  simp only [fF6, BitVec.extractLsb'_toNat, layJ_toNat, Nat.shiftRight_eq_div_pow]
  have hmaj := maj.isLt
  have hd := d.isLt
  have ho := o.isLt
  omega

@[simp] theorem layJ_fI16 (maj d o) : fI16 (layJ maj d o) = o.extractLsb' 0 16 := by
  apply BitVec.eq_of_toNat_eq
  simp only [fI16, BitVec.extractLsb'_toNat, layJ_toNat, Nat.shiftRight_eq_div_pow]
  have hmaj := maj.isLt
  have hd := d.isLt
  have ho := o.isLt
  omega

@[simp] theorem layJ_fI11 (maj d o) : fI11 (layJ maj d o) = o.extractLsb' 0 11 := by
  apply BitVec.eq_of_toNat_eq
  simp only [fI11, BitVec.extractLsb'_toNat, layJ_toNat, Nat.shiftRight_eq_div_pow]
  have hmaj := maj.isLt
  have hd := d.isLt
  have ho := o.isLt
  omega

@[simp] theorem layJ_fO21 (maj d o) : fO21 (layJ maj d o) = o := by
  apply BitVec.eq_of_toNat_eq
  simp only [fO21, BitVec.extractLsb'_toNat, layJ_toNat, Nat.shiftRight_eq_div_pow]
  have hmaj := maj.isLt
  have hd := d.isLt
  have ho := o.isLt
  omega

@[simp] theorem layJ_fOL (maj d o) : fOL (layJ maj d o) = o.extractLsb' 4 7 := by
  apply BitVec.eq_of_toNat_eq
  simp only [fOL, BitVec.extractLsb'_toNat, layJ_toNat, Nat.shiftRight_eq_div_pow]
  have hmaj := maj.isLt
  have hd := d.isLt
  have ho := o.isLt
  omega

@[simp] theorem layJ_fCnd (maj d o) : fCnd (layJ maj d o) = o.extractLsb' 0 4 := by
  apply BitVec.eq_of_toNat_eq
  simp only [fCnd, BitVec.extractLsb'_toNat, layJ_toNat, Nat.shiftRight_eq_div_pow]
  have hmaj := maj.isLt
  have hd := d.isLt
  have ho := o.isLt
  omega

@[simp] theorem layJ_fP (maj d o) : fP (layJ maj d o) = o.extractLsb' 8 3 := by
  apply BitVec.eq_of_toNat_eq
  simp only [fP, BitVec.extractLsb'_toNat, layJ_toNat, Nat.shiftRight_eq_div_pow]
  have hmaj := maj.isLt
  have hd := d.isLt
  have ho := o.isLt
  omega

@[simp] theorem layJ_fT (maj d o) : fT (layJ maj d o) = o.extractLsb' 7 1 := by
  apply BitVec.eq_of_toNat_eq
  simp only [fT, BitVec.extractLsb'_toNat, layJ_toNat, Nat.shiftRight_eq_div_pow]
  have hmaj := maj.isLt
  have hd := d.isLt
  have ho := o.isLt
  omega

@[simp] theorem layJ_fFM (maj d o) : fFM (layJ maj d o) = o.extractLsb' 5 2 := by
  apply BitVec.eq_of_toNat_eq
  simp only [fFM, BitVec.extractLsb'_toNat, layJ_toNat, Nat.shiftRight_eq_div_pow]
  have hmaj := maj.isLt
  have hd := d.isLt
  have ho := o.isLt
  omega

@[simp] theorem layJ_fF5 (maj d o) : fF5 (layJ maj d o) = o.extractLsb' 0 5 := by
  apply BitVec.eq_of_toNat_eq
  simp only [fF5, BitVec.extractLsb'_toNat, layJ_toNat, Nat.shiftRight_eq_div_pow]
  have hmaj := maj.isLt
  have hd := d.isLt
  have ho := o.isLt
  omega

@[simp] theorem layJ_fPX (maj d o) : fPX (layJ maj d o) = o.extractLsb' 3 3 := by
  apply BitVec.eq_of_toNat_eq
  simp only [fPX, BitVec.extractLsb'_toNat, layJ_toNat, Nat.shiftRight_eq_div_pow]
  have hmaj := maj.isLt
  have hd := d.isLt
  have ho := o.isLt
  omega

@[simp] theorem layJ_fFX (maj d o) : fFX (layJ maj d o) = o.extractLsb' 0 3 := by
  apply BitVec.eq_of_toNat_eq
  simp only [fFX, BitVec.extractLsb'_toNat, layJ_toNat, Nat.shiftRight_eq_div_pow]
  have hmaj := maj.isLt
  have hd := d.isLt
  have ho := o.isLt
  omega

@[simp] theorem layJ_fE (maj d o) : fE (layJ maj d o) = o.extractLsb' 12 4 := by
  apply BitVec.eq_of_toNat_eq
  simp only [fE, BitVec.extractLsb'_toNat, layJ_toNat, Nat.shiftRight_eq_div_pow]
  have hmaj := maj.isLt
  have hd := d.isLt
  have ho := o.isLt
  omega

@[simp] theorem layJ_fG (maj d o) : fG (layJ maj d o) = o.extractLsb' 10 2 := by
  apply BitVec.eq_of_toNat_eq
  simp only [fG, BitVec.extractLsb'_toNat, layJ_toNat, Nat.shiftRight_eq_div_pow]
  have hmaj := maj.isLt
  have hd := d.isLt
  have ho := o.isLt
  omega

@[simp] theorem layJ_fTP (maj d o) : fTP (layJ maj d o) = o.extractLsb' 8 2 := by
  apply BitVec.eq_of_toNat_eq
  simp only [fTP, BitVec.extractLsb'_toNat, layJ_toNat, Nat.shiftRight_eq_div_pow]
  have hmaj := maj.isLt
  have hd := d.isLt
  have ho := o.isLt
  omega

@[simp] theorem layJ_fMP (maj d o) : fMP (layJ maj d o) = o.extractLsb' 7 1 := by
  apply BitVec.eq_of_toNat_eq
  simp only [fMP, BitVec.extractLsb'_toNat, layJ_toNat, Nat.shiftRight_eq_div_pow]
  have hmaj := maj.isLt
  have hd := d.isLt
  have ho := o.isLt
  omega

@[simp] theorem layJ_fScope (maj d o) : fScope (layJ maj d o) = o.extractLsb' 4 3 := by
  apply BitVec.eq_of_toNat_eq
  simp only [fScope, BitVec.extractLsb'_toNat, layJ_toNat, Nat.shiftRight_eq_div_pow]
  have hmaj := maj.isLt
  have hd := d.isLt
  have ho := o.isLt
  omega

@[simp] theorem layJ_fAE (maj d o) : fAE (layJ maj d o) = o.extractLsb' 5 1 := by
  apply BitVec.eq_of_toNat_eq
  simp only [fAE, BitVec.extractLsb'_toNat, layJ_toNat, Nat.shiftRight_eq_div_pow]
  have hmaj := maj.isLt
  have hd := d.isLt
  have ho := o.isLt
  omega

@[simp] theorem layJ_fTB (maj d o) : fTB (layJ maj d o) = o.extractLsb' 3 2 := by
  apply BitVec.eq_of_toNat_eq
  simp only [fTB, BitVec.extractLsb'_toNat, layJ_toNat, Nat.shiftRight_eq_div_pow]
  have hmaj := maj.isLt
  have hd := d.isLt
  have ho := o.isLt
  omega

@[simp] theorem layJ_fSD (maj d o) : fSD (layJ maj d o) = o.extractLsb' 2 1 := by
  apply BitVec.eq_of_toNat_eq
  simp only [fSD, BitVec.extractLsb'_toNat, layJ_toNat, Nat.shiftRight_eq_div_pow]
  have hmaj := maj.isLt
  have hd := d.isLt
  have ho := o.isLt
  omega

@[simp] theorem layJ_fFM2 (maj d o) : fFM2 (layJ maj d o) = o.extractLsb' 0 2 := by
  apply BitVec.eq_of_toNat_eq
  simp only [fFM2, BitVec.extractLsb'_toNat, layJ_toNat, Nat.shiftRight_eq_div_pow]
  have hmaj := maj.isLt
  have hd := d.isLt
  have ho := o.isLt
  omega

@[simp] theorem layJ_fSC (maj d o) : fSC (layJ maj d o) = o.extractLsb' 8 3 := by
  apply BitVec.eq_of_toNat_eq
  simp only [fSC, BitVec.extractLsb'_toNat, layJ_toNat, Nat.shiftRight_eq_div_pow]
  have hmaj := maj.isLt
  have hd := d.isLt
  have ho := o.isLt
  omega

@[simp] theorem layJ_fOR (maj d o) : fOR (layJ maj d o) = o.extractLsb' 6 2 := by
  apply BitVec.eq_of_toNat_eq
  simp only [fOR, BitVec.extractLsb'_toNat, layJ_toNat, Nat.shiftRight_eq_div_pow]
  have hmaj := maj.isLt
  have hd := d.isLt
  have ho := o.isLt
  omega

@[simp] theorem layJ_fCsr (maj d o) : fCsr (layJ maj d o) = o.extractLsb' 11 10 := by
  apply BitVec.eq_of_toNat_eq
  simp only [fCsr, BitVec.extractLsb'_toNat, layJ_toNat, Nat.shiftRight_eq_div_pow]
  have hmaj := maj.isLt
  have hd := d.isLt
  have ho := o.isLt
  omega

@[simp] theorem layJ_fOp3 (maj d o) : fOp3 (layJ maj d o) = o.extractLsb' 3 3 := by
  apply BitVec.eq_of_toNat_eq
  simp only [fOp3, BitVec.extractLsb'_toNat, layJ_toNat, Nat.shiftRight_eq_div_pow]
  have hmaj := maj.isLt
  have hd := d.isLt
  have ho := o.isLt
  omega

@[simp] theorem layJ_fRnd (maj d o) : fRnd (layJ maj d o) = o.extractLsb' 2 3 := by
  apply BitVec.eq_of_toNat_eq
  simp only [fRnd, BitVec.extractLsb'_toNat, layJ_toNat, Nat.shiftRight_eq_div_pow]
  have hmaj := maj.isLt
  have hd := d.isLt
  have ho := o.isLt
  omega

theorem layV_toNat (maj d a b p t fm f) : (layV maj d a b p t fm f).toNat = maj.toNat * 67108864 + d.toNat * 2097152 + a.toNat * 65536 + b.toNat * 2048 + p.toNat * 256 + t.toNat * 128 + fm.toNat * 32 + f.toNat := by
  show BitVec.toNat (maj ++ d ++ a ++ b ++ p ++ t ++ fm ++ f) = _
  simp only [append_toNat]
  omega

@[simp] theorem layV_fMaj (maj d a b p t fm f) : fMaj (layV maj d a b p t fm f) = maj := by
  apply BitVec.eq_of_toNat_eq
  simp only [fMaj, BitVec.extractLsb'_toNat, layV_toNat, Nat.shiftRight_eq_div_pow]
  have hmaj := maj.isLt
  have hd := d.isLt
  have ha := a.isLt
  have hb := b.isLt
  have hp := p.isLt
  have ht := t.isLt
  have hfm := fm.isLt
  have hf := f.isLt
  omega

@[simp] theorem layV_fD (maj d a b p t fm f) : fD (layV maj d a b p t fm f) = d := by
  apply BitVec.eq_of_toNat_eq
  simp only [fD, BitVec.extractLsb'_toNat, layV_toNat, Nat.shiftRight_eq_div_pow]
  have hmaj := maj.isLt
  have hd := d.isLt
  have ha := a.isLt
  have hb := b.isLt
  have hp := p.isLt
  have ht := t.isLt
  have hfm := fm.isLt
  have hf := f.isLt
  omega

@[simp] theorem layV_fA (maj d a b p t fm f) : fA (layV maj d a b p t fm f) = a := by
  apply BitVec.eq_of_toNat_eq
  simp only [fA, BitVec.extractLsb'_toNat, layV_toNat, Nat.shiftRight_eq_div_pow]
  have hmaj := maj.isLt
  have hd := d.isLt
  have ha := a.isLt
  have hb := b.isLt
  have hp := p.isLt
  have ht := t.isLt
  have hfm := fm.isLt
  have hf := f.isLt
  omega

@[simp] theorem layV_fB (maj d a b p t fm f) : fB (layV maj d a b p t fm f) = b := by
  apply BitVec.eq_of_toNat_eq
  simp only [fB, BitVec.extractLsb'_toNat, layV_toNat, Nat.shiftRight_eq_div_pow]
  have hmaj := maj.isLt
  have hd := d.isLt
  have ha := a.isLt
  have hb := b.isLt
  have hp := p.isLt
  have ht := t.isLt
  have hfm := fm.isLt
  have hf := f.isLt
  omega

@[simp] theorem layV_fCnd (maj d a b p t fm f) : fCnd (layV maj d a b p t fm f) = f.extractLsb' 0 4 := by
  apply BitVec.eq_of_toNat_eq
  simp only [fCnd, BitVec.extractLsb'_toNat, layV_toNat, Nat.shiftRight_eq_div_pow]
  have hmaj := maj.isLt
  have hd := d.isLt
  have ha := a.isLt
  have hb := b.isLt
  have hp := p.isLt
  have ht := t.isLt
  have hfm := fm.isLt
  have hf := f.isLt
  omega

@[simp] theorem layV_fP (maj d a b p t fm f) : fP (layV maj d a b p t fm f) = p := by
  apply BitVec.eq_of_toNat_eq
  simp only [fP, BitVec.extractLsb'_toNat, layV_toNat, Nat.shiftRight_eq_div_pow]
  have hmaj := maj.isLt
  have hd := d.isLt
  have ha := a.isLt
  have hb := b.isLt
  have hp := p.isLt
  have ht := t.isLt
  have hfm := fm.isLt
  have hf := f.isLt
  omega

@[simp] theorem layV_fT (maj d a b p t fm f) : fT (layV maj d a b p t fm f) = t := by
  apply BitVec.eq_of_toNat_eq
  simp only [fT, BitVec.extractLsb'_toNat, layV_toNat, Nat.shiftRight_eq_div_pow]
  have hmaj := maj.isLt
  have hd := d.isLt
  have ha := a.isLt
  have hb := b.isLt
  have hp := p.isLt
  have ht := t.isLt
  have hfm := fm.isLt
  have hf := f.isLt
  omega

@[simp] theorem layV_fFM (maj d a b p t fm f) : fFM (layV maj d a b p t fm f) = fm := by
  apply BitVec.eq_of_toNat_eq
  simp only [fFM, BitVec.extractLsb'_toNat, layV_toNat, Nat.shiftRight_eq_div_pow]
  have hmaj := maj.isLt
  have hd := d.isLt
  have ha := a.isLt
  have hb := b.isLt
  have hp := p.isLt
  have ht := t.isLt
  have hfm := fm.isLt
  have hf := f.isLt
  omega

@[simp] theorem layV_fF5 (maj d a b p t fm f) : fF5 (layV maj d a b p t fm f) = f := by
  apply BitVec.eq_of_toNat_eq
  simp only [fF5, BitVec.extractLsb'_toNat, layV_toNat, Nat.shiftRight_eq_div_pow]
  have hmaj := maj.isLt
  have hd := d.isLt
  have ha := a.isLt
  have hb := b.isLt
  have hp := p.isLt
  have ht := t.isLt
  have hfm := fm.isLt
  have hf := f.isLt
  omega

@[simp] theorem layV_fFX (maj d a b p t fm f) : fFX (layV maj d a b p t fm f) = f.extractLsb' 0 3 := by
  apply BitVec.eq_of_toNat_eq
  simp only [fFX, BitVec.extractLsb'_toNat, layV_toNat, Nat.shiftRight_eq_div_pow]
  have hmaj := maj.isLt
  have hd := d.isLt
  have ha := a.isLt
  have hb := b.isLt
  have hp := p.isLt
  have ht := t.isLt
  have hfm := fm.isLt
  have hf := f.isLt
  omega

@[simp] theorem layV_fE (maj d a b p t fm f) : fE (layV maj d a b p t fm f) = b.extractLsb' 1 4 := by
  apply BitVec.eq_of_toNat_eq
  simp only [fE, BitVec.extractLsb'_toNat, layV_toNat, Nat.shiftRight_eq_div_pow]
  have hmaj := maj.isLt
  have hd := d.isLt
  have ha := a.isLt
  have hb := b.isLt
  have hp := p.isLt
  have ht := t.isLt
  have hfm := fm.isLt
  have hf := f.isLt
  omega

@[simp] theorem layV_fTP (maj d a b p t fm f) : fTP (layV maj d a b p t fm f) = p.extractLsb' 0 2 := by
  apply BitVec.eq_of_toNat_eq
  simp only [fTP, BitVec.extractLsb'_toNat, layV_toNat, Nat.shiftRight_eq_div_pow]
  have hmaj := maj.isLt
  have hd := d.isLt
  have ha := a.isLt
  have hb := b.isLt
  have hp := p.isLt
  have ht := t.isLt
  have hfm := fm.isLt
  have hf := f.isLt
  omega

@[simp] theorem layV_fMP (maj d a b p t fm f) : fMP (layV maj d a b p t fm f) = t := by
  apply BitVec.eq_of_toNat_eq
  simp only [fMP, BitVec.extractLsb'_toNat, layV_toNat, Nat.shiftRight_eq_div_pow]
  have hmaj := maj.isLt
  have hd := d.isLt
  have ha := a.isLt
  have hb := b.isLt
  have hp := p.isLt
  have ht := t.isLt
  have hfm := fm.isLt
  have hf := f.isLt
  omega

@[simp] theorem layV_fAE (maj d a b p t fm f) : fAE (layV maj d a b p t fm f) = fm.extractLsb' 0 1 := by
  apply BitVec.eq_of_toNat_eq
  simp only [fAE, BitVec.extractLsb'_toNat, layV_toNat, Nat.shiftRight_eq_div_pow]
  have hmaj := maj.isLt
  have hd := d.isLt
  have ha := a.isLt
  have hb := b.isLt
  have hp := p.isLt
  have ht := t.isLt
  have hfm := fm.isLt
  have hf := f.isLt
  omega

@[simp] theorem layV_fTB (maj d a b p t fm f) : fTB (layV maj d a b p t fm f) = f.extractLsb' 3 2 := by
  apply BitVec.eq_of_toNat_eq
  simp only [fTB, BitVec.extractLsb'_toNat, layV_toNat, Nat.shiftRight_eq_div_pow]
  have hmaj := maj.isLt
  have hd := d.isLt
  have ha := a.isLt
  have hb := b.isLt
  have hp := p.isLt
  have ht := t.isLt
  have hfm := fm.isLt
  have hf := f.isLt
  omega

@[simp] theorem layV_fSD (maj d a b p t fm f) : fSD (layV maj d a b p t fm f) = f.extractLsb' 2 1 := by
  apply BitVec.eq_of_toNat_eq
  simp only [fSD, BitVec.extractLsb'_toNat, layV_toNat, Nat.shiftRight_eq_div_pow]
  have hmaj := maj.isLt
  have hd := d.isLt
  have ha := a.isLt
  have hb := b.isLt
  have hp := p.isLt
  have ht := t.isLt
  have hfm := fm.isLt
  have hf := f.isLt
  omega

@[simp] theorem layV_fFM2 (maj d a b p t fm f) : fFM2 (layV maj d a b p t fm f) = f.extractLsb' 0 2 := by
  apply BitVec.eq_of_toNat_eq
  simp only [fFM2, BitVec.extractLsb'_toNat, layV_toNat, Nat.shiftRight_eq_div_pow]
  have hmaj := maj.isLt
  have hd := d.isLt
  have ha := a.isLt
  have hb := b.isLt
  have hp := p.isLt
  have ht := t.isLt
  have hfm := fm.isLt
  have hf := f.isLt
  omega

@[simp] theorem layV_fSC (maj d a b p t fm f) : fSC (layV maj d a b p t fm f) = p := by
  apply BitVec.eq_of_toNat_eq
  simp only [fSC, BitVec.extractLsb'_toNat, layV_toNat, Nat.shiftRight_eq_div_pow]
  have hmaj := maj.isLt
  have hd := d.isLt
  have ha := a.isLt
  have hb := b.isLt
  have hp := p.isLt
  have ht := t.isLt
  have hfm := fm.isLt
  have hf := f.isLt
  omega

@[simp] theorem layV_fRnd (maj d a b p t fm f) : fRnd (layV maj d a b p t fm f) = f.extractLsb' 2 3 := by
  apply BitVec.eq_of_toNat_eq
  simp only [fRnd, BitVec.extractLsb'_toNat, layV_toNat, Nat.shiftRight_eq_div_pow]
  have hmaj := maj.isLt
  have hd := d.isLt
  have ha := a.isLt
  have hb := b.isLt
  have hp := p.isLt
  have ht := t.isLt
  have hfm := fm.isLt
  have hf := f.isLt
  omega

@[simp] theorem layV_bits_4_1 (maj d a b p t fm f) : (layV maj d a b p t fm f).extractLsb' 4 1 = f.extractLsb' 4 1 := by
  apply BitVec.eq_of_toNat_eq
  simp only [BitVec.extractLsb'_toNat, layV_toNat, Nat.shiftRight_eq_div_pow]
  have hmaj := maj.isLt
  have hd := d.isLt
  have ha := a.isLt
  have hb := b.isLt
  have hp := p.isLt
  have ht := t.isLt
  have hfm := fm.isLt
  have hf := f.isLt
  omega

theorem layCfg_toNat (maj d a e g t m sc z) : (layCfg maj d a e g t m sc z).toNat = maj.toNat * 67108864 + d.toNat * 2097152 + a.toNat * 65536 + e.toNat * 4096 + g.toNat * 1024 + t.toNat * 256 + m.toNat * 128 + sc.toNat * 16 + z.toNat := by
  show BitVec.toNat (maj ++ d ++ a ++ e ++ g ++ t ++ m ++ sc ++ z) = _
  simp only [append_toNat]
  omega

@[simp] theorem layCfg_fMaj (maj d a e g t m sc z) : fMaj (layCfg maj d a e g t m sc z) = maj := by
  apply BitVec.eq_of_toNat_eq
  simp only [fMaj, BitVec.extractLsb'_toNat, layCfg_toNat, Nat.shiftRight_eq_div_pow]
  have hmaj := maj.isLt
  have hd := d.isLt
  have ha := a.isLt
  have he := e.isLt
  have hg := g.isLt
  have ht := t.isLt
  have hm := m.isLt
  have hsc := sc.isLt
  have hz := z.isLt
  omega

@[simp] theorem layCfg_fD (maj d a e g t m sc z) : fD (layCfg maj d a e g t m sc z) = d := by
  apply BitVec.eq_of_toNat_eq
  simp only [fD, BitVec.extractLsb'_toNat, layCfg_toNat, Nat.shiftRight_eq_div_pow]
  have hmaj := maj.isLt
  have hd := d.isLt
  have ha := a.isLt
  have he := e.isLt
  have hg := g.isLt
  have ht := t.isLt
  have hm := m.isLt
  have hsc := sc.isLt
  have hz := z.isLt
  omega

@[simp] theorem layCfg_fA (maj d a e g t m sc z) : fA (layCfg maj d a e g t m sc z) = a := by
  apply BitVec.eq_of_toNat_eq
  simp only [fA, BitVec.extractLsb'_toNat, layCfg_toNat, Nat.shiftRight_eq_div_pow]
  have hmaj := maj.isLt
  have hd := d.isLt
  have ha := a.isLt
  have he := e.isLt
  have hg := g.isLt
  have ht := t.isLt
  have hm := m.isLt
  have hsc := sc.isLt
  have hz := z.isLt
  omega

@[simp] theorem layCfg_fCnd (maj d a e g t m sc z) : fCnd (layCfg maj d a e g t m sc z) = z := by
  apply BitVec.eq_of_toNat_eq
  simp only [fCnd, BitVec.extractLsb'_toNat, layCfg_toNat, Nat.shiftRight_eq_div_pow]
  have hmaj := maj.isLt
  have hd := d.isLt
  have ha := a.isLt
  have he := e.isLt
  have hg := g.isLt
  have ht := t.isLt
  have hm := m.isLt
  have hsc := sc.isLt
  have hz := z.isLt
  omega

@[simp] theorem layCfg_fT (maj d a e g t m sc z) : fT (layCfg maj d a e g t m sc z) = m := by
  apply BitVec.eq_of_toNat_eq
  simp only [fT, BitVec.extractLsb'_toNat, layCfg_toNat, Nat.shiftRight_eq_div_pow]
  have hmaj := maj.isLt
  have hd := d.isLt
  have ha := a.isLt
  have he := e.isLt
  have hg := g.isLt
  have ht := t.isLt
  have hm := m.isLt
  have hsc := sc.isLt
  have hz := z.isLt
  omega

@[simp] theorem layCfg_fFM (maj d a e g t m sc z) : fFM (layCfg maj d a e g t m sc z) = sc.extractLsb' 1 2 := by
  apply BitVec.eq_of_toNat_eq
  simp only [fFM, BitVec.extractLsb'_toNat, layCfg_toNat, Nat.shiftRight_eq_div_pow]
  have hmaj := maj.isLt
  have hd := d.isLt
  have ha := a.isLt
  have he := e.isLt
  have hg := g.isLt
  have ht := t.isLt
  have hm := m.isLt
  have hsc := sc.isLt
  have hz := z.isLt
  omega

@[simp] theorem layCfg_fFX (maj d a e g t m sc z) : fFX (layCfg maj d a e g t m sc z) = z.extractLsb' 0 3 := by
  apply BitVec.eq_of_toNat_eq
  simp only [fFX, BitVec.extractLsb'_toNat, layCfg_toNat, Nat.shiftRight_eq_div_pow]
  have hmaj := maj.isLt
  have hd := d.isLt
  have ha := a.isLt
  have he := e.isLt
  have hg := g.isLt
  have ht := t.isLt
  have hm := m.isLt
  have hsc := sc.isLt
  have hz := z.isLt
  omega

@[simp] theorem layCfg_fE (maj d a e g t m sc z) : fE (layCfg maj d a e g t m sc z) = e := by
  apply BitVec.eq_of_toNat_eq
  simp only [fE, BitVec.extractLsb'_toNat, layCfg_toNat, Nat.shiftRight_eq_div_pow]
  have hmaj := maj.isLt
  have hd := d.isLt
  have ha := a.isLt
  have he := e.isLt
  have hg := g.isLt
  have ht := t.isLt
  have hm := m.isLt
  have hsc := sc.isLt
  have hz := z.isLt
  omega

@[simp] theorem layCfg_fG (maj d a e g t m sc z) : fG (layCfg maj d a e g t m sc z) = g := by
  apply BitVec.eq_of_toNat_eq
  simp only [fG, BitVec.extractLsb'_toNat, layCfg_toNat, Nat.shiftRight_eq_div_pow]
  have hmaj := maj.isLt
  have hd := d.isLt
  have ha := a.isLt
  have he := e.isLt
  have hg := g.isLt
  have ht := t.isLt
  have hm := m.isLt
  have hsc := sc.isLt
  have hz := z.isLt
  omega

@[simp] theorem layCfg_fTP (maj d a e g t m sc z) : fTP (layCfg maj d a e g t m sc z) = t := by
  apply BitVec.eq_of_toNat_eq
  simp only [fTP, BitVec.extractLsb'_toNat, layCfg_toNat, Nat.shiftRight_eq_div_pow]
  have hmaj := maj.isLt
  have hd := d.isLt
  have ha := a.isLt
  have he := e.isLt
  have hg := g.isLt
  have ht := t.isLt
  have hm := m.isLt
  have hsc := sc.isLt
  have hz := z.isLt
  omega

@[simp] theorem layCfg_fMP (maj d a e g t m sc z) : fMP (layCfg maj d a e g t m sc z) = m := by
  apply BitVec.eq_of_toNat_eq
  simp only [fMP, BitVec.extractLsb'_toNat, layCfg_toNat, Nat.shiftRight_eq_div_pow]
  have hmaj := maj.isLt
  have hd := d.isLt
  have ha := a.isLt
  have he := e.isLt
  have hg := g.isLt
  have ht := t.isLt
  have hm := m.isLt
  have hsc := sc.isLt
  have hz := z.isLt
  omega

@[simp] theorem layCfg_fScope (maj d a e g t m sc z) : fScope (layCfg maj d a e g t m sc z) = sc := by
  apply BitVec.eq_of_toNat_eq
  simp only [fScope, BitVec.extractLsb'_toNat, layCfg_toNat, Nat.shiftRight_eq_div_pow]
  have hmaj := maj.isLt
  have hd := d.isLt
  have ha := a.isLt
  have he := e.isLt
  have hg := g.isLt
  have ht := t.isLt
  have hm := m.isLt
  have hsc := sc.isLt
  have hz := z.isLt
  omega

@[simp] theorem layCfg_fAE (maj d a e g t m sc z) : fAE (layCfg maj d a e g t m sc z) = sc.extractLsb' 1 1 := by
  apply BitVec.eq_of_toNat_eq
  simp only [fAE, BitVec.extractLsb'_toNat, layCfg_toNat, Nat.shiftRight_eq_div_pow]
  have hmaj := maj.isLt
  have hd := d.isLt
  have ha := a.isLt
  have he := e.isLt
  have hg := g.isLt
  have ht := t.isLt
  have hm := m.isLt
  have hsc := sc.isLt
  have hz := z.isLt
  omega

@[simp] theorem layCfg_fSD (maj d a e g t m sc z) : fSD (layCfg maj d a e g t m sc z) = z.extractLsb' 2 1 := by
  apply BitVec.eq_of_toNat_eq
  simp only [fSD, BitVec.extractLsb'_toNat, layCfg_toNat, Nat.shiftRight_eq_div_pow]
  have hmaj := maj.isLt
  have hd := d.isLt
  have ha := a.isLt
  have he := e.isLt
  have hg := g.isLt
  have ht := t.isLt
  have hm := m.isLt
  have hsc := sc.isLt
  have hz := z.isLt
  omega

@[simp] theorem layCfg_fFM2 (maj d a e g t m sc z) : fFM2 (layCfg maj d a e g t m sc z) = z.extractLsb' 0 2 := by
  apply BitVec.eq_of_toNat_eq
  simp only [fFM2, BitVec.extractLsb'_toNat, layCfg_toNat, Nat.shiftRight_eq_div_pow]
  have hmaj := maj.isLt
  have hd := d.isLt
  have ha := a.isLt
  have he := e.isLt
  have hg := g.isLt
  have ht := t.isLt
  have hm := m.isLt
  have hsc := sc.isLt
  have hz := z.isLt
  omega

theorem layVX_toNat (maj d a b c p f) : (layVX maj d a b c p f).toNat = maj.toNat * 67108864 + d.toNat * 2097152 + a.toNat * 65536 + b.toNat * 2048 + c.toNat * 64 + p.toNat * 8 + f.toNat := by
  show BitVec.toNat (maj ++ d ++ a ++ b ++ c ++ p ++ f) = _
  simp only [append_toNat]
  omega

@[simp] theorem layVX_fMaj (maj d a b c p f) : fMaj (layVX maj d a b c p f) = maj := by
  apply BitVec.eq_of_toNat_eq
  simp only [fMaj, BitVec.extractLsb'_toNat, layVX_toNat, Nat.shiftRight_eq_div_pow]
  have hmaj := maj.isLt
  have hd := d.isLt
  have ha := a.isLt
  have hb := b.isLt
  have hc := c.isLt
  have hp := p.isLt
  have hf := f.isLt
  omega

@[simp] theorem layVX_fD (maj d a b c p f) : fD (layVX maj d a b c p f) = d := by
  apply BitVec.eq_of_toNat_eq
  simp only [fD, BitVec.extractLsb'_toNat, layVX_toNat, Nat.shiftRight_eq_div_pow]
  have hmaj := maj.isLt
  have hd := d.isLt
  have ha := a.isLt
  have hb := b.isLt
  have hc := c.isLt
  have hp := p.isLt
  have hf := f.isLt
  omega

@[simp] theorem layVX_fA (maj d a b c p f) : fA (layVX maj d a b c p f) = a := by
  apply BitVec.eq_of_toNat_eq
  simp only [fA, BitVec.extractLsb'_toNat, layVX_toNat, Nat.shiftRight_eq_div_pow]
  have hmaj := maj.isLt
  have hd := d.isLt
  have ha := a.isLt
  have hb := b.isLt
  have hc := c.isLt
  have hp := p.isLt
  have hf := f.isLt
  omega

@[simp] theorem layVX_fB (maj d a b c p f) : fB (layVX maj d a b c p f) = b := by
  apply BitVec.eq_of_toNat_eq
  simp only [fB, BitVec.extractLsb'_toNat, layVX_toNat, Nat.shiftRight_eq_div_pow]
  have hmaj := maj.isLt
  have hd := d.isLt
  have ha := a.isLt
  have hb := b.isLt
  have hc := c.isLt
  have hp := p.isLt
  have hf := f.isLt
  omega

@[simp] theorem layVX_fC (maj d a b c p f) : fC (layVX maj d a b c p f) = c := by
  apply BitVec.eq_of_toNat_eq
  simp only [fC, BitVec.extractLsb'_toNat, layVX_toNat, Nat.shiftRight_eq_div_pow]
  have hmaj := maj.isLt
  have hd := d.isLt
  have ha := a.isLt
  have hb := b.isLt
  have hc := c.isLt
  have hp := p.isLt
  have hf := f.isLt
  omega

@[simp] theorem layVX_fP (maj d a b c p f) : fP (layVX maj d a b c p f) = c.extractLsb' 2 3 := by
  apply BitVec.eq_of_toNat_eq
  simp only [fP, BitVec.extractLsb'_toNat, layVX_toNat, Nat.shiftRight_eq_div_pow]
  have hmaj := maj.isLt
  have hd := d.isLt
  have ha := a.isLt
  have hb := b.isLt
  have hc := c.isLt
  have hp := p.isLt
  have hf := f.isLt
  omega

@[simp] theorem layVX_fT (maj d a b c p f) : fT (layVX maj d a b c p f) = c.extractLsb' 1 1 := by
  apply BitVec.eq_of_toNat_eq
  simp only [fT, BitVec.extractLsb'_toNat, layVX_toNat, Nat.shiftRight_eq_div_pow]
  have hmaj := maj.isLt
  have hd := d.isLt
  have ha := a.isLt
  have hb := b.isLt
  have hc := c.isLt
  have hp := p.isLt
  have hf := f.isLt
  omega

@[simp] theorem layVX_fPX (maj d a b c p f) : fPX (layVX maj d a b c p f) = p := by
  apply BitVec.eq_of_toNat_eq
  simp only [fPX, BitVec.extractLsb'_toNat, layVX_toNat, Nat.shiftRight_eq_div_pow]
  have hmaj := maj.isLt
  have hd := d.isLt
  have ha := a.isLt
  have hb := b.isLt
  have hc := c.isLt
  have hp := p.isLt
  have hf := f.isLt
  omega

@[simp] theorem layVX_fFX (maj d a b c p f) : fFX (layVX maj d a b c p f) = f := by
  apply BitVec.eq_of_toNat_eq
  simp only [fFX, BitVec.extractLsb'_toNat, layVX_toNat, Nat.shiftRight_eq_div_pow]
  have hmaj := maj.isLt
  have hd := d.isLt
  have ha := a.isLt
  have hb := b.isLt
  have hc := c.isLt
  have hp := p.isLt
  have hf := f.isLt
  omega

@[simp] theorem layVX_fE (maj d a b c p f) : fE (layVX maj d a b c p f) = b.extractLsb' 1 4 := by
  apply BitVec.eq_of_toNat_eq
  simp only [fE, BitVec.extractLsb'_toNat, layVX_toNat, Nat.shiftRight_eq_div_pow]
  have hmaj := maj.isLt
  have hd := d.isLt
  have ha := a.isLt
  have hb := b.isLt
  have hc := c.isLt
  have hp := p.isLt
  have hf := f.isLt
  omega

@[simp] theorem layVX_fTP (maj d a b c p f) : fTP (layVX maj d a b c p f) = c.extractLsb' 2 2 := by
  apply BitVec.eq_of_toNat_eq
  simp only [fTP, BitVec.extractLsb'_toNat, layVX_toNat, Nat.shiftRight_eq_div_pow]
  have hmaj := maj.isLt
  have hd := d.isLt
  have ha := a.isLt
  have hb := b.isLt
  have hc := c.isLt
  have hp := p.isLt
  have hf := f.isLt
  omega

@[simp] theorem layVX_fMP (maj d a b c p f) : fMP (layVX maj d a b c p f) = c.extractLsb' 1 1 := by
  apply BitVec.eq_of_toNat_eq
  simp only [fMP, BitVec.extractLsb'_toNat, layVX_toNat, Nat.shiftRight_eq_div_pow]
  have hmaj := maj.isLt
  have hd := d.isLt
  have ha := a.isLt
  have hb := b.isLt
  have hc := c.isLt
  have hp := p.isLt
  have hf := f.isLt
  omega

@[simp] theorem layVX_fAE (maj d a b c p f) : fAE (layVX maj d a b c p f) = p.extractLsb' 2 1 := by
  apply BitVec.eq_of_toNat_eq
  simp only [fAE, BitVec.extractLsb'_toNat, layVX_toNat, Nat.shiftRight_eq_div_pow]
  have hmaj := maj.isLt
  have hd := d.isLt
  have ha := a.isLt
  have hb := b.isLt
  have hc := c.isLt
  have hp := p.isLt
  have hf := f.isLt
  omega

@[simp] theorem layVX_fTB (maj d a b c p f) : fTB (layVX maj d a b c p f) = p.extractLsb' 0 2 := by
  apply BitVec.eq_of_toNat_eq
  simp only [fTB, BitVec.extractLsb'_toNat, layVX_toNat, Nat.shiftRight_eq_div_pow]
  have hmaj := maj.isLt
  have hd := d.isLt
  have ha := a.isLt
  have hb := b.isLt
  have hc := c.isLt
  have hp := p.isLt
  have hf := f.isLt
  omega

@[simp] theorem layVX_fSD (maj d a b c p f) : fSD (layVX maj d a b c p f) = f.extractLsb' 2 1 := by
  apply BitVec.eq_of_toNat_eq
  simp only [fSD, BitVec.extractLsb'_toNat, layVX_toNat, Nat.shiftRight_eq_div_pow]
  have hmaj := maj.isLt
  have hd := d.isLt
  have ha := a.isLt
  have hb := b.isLt
  have hc := c.isLt
  have hp := p.isLt
  have hf := f.isLt
  omega

@[simp] theorem layVX_fFM2 (maj d a b c p f) : fFM2 (layVX maj d a b c p f) = f.extractLsb' 0 2 := by
  apply BitVec.eq_of_toNat_eq
  simp only [fFM2, BitVec.extractLsb'_toNat, layVX_toNat, Nat.shiftRight_eq_div_pow]
  have hmaj := maj.isLt
  have hd := d.isLt
  have ha := a.isLt
  have hb := b.isLt
  have hc := c.isLt
  have hp := p.isLt
  have hf := f.isLt
  omega

@[simp] theorem layVX_fSC (maj d a b c p f) : fSC (layVX maj d a b c p f) = c.extractLsb' 2 3 := by
  apply BitVec.eq_of_toNat_eq
  simp only [fSC, BitVec.extractLsb'_toNat, layVX_toNat, Nat.shiftRight_eq_div_pow]
  have hmaj := maj.isLt
  have hd := d.isLt
  have ha := a.isLt
  have hb := b.isLt
  have hc := c.isLt
  have hp := p.isLt
  have hf := f.isLt
  omega

@[simp] theorem layVX_fOR (maj d a b c p f) : fOR (layVX maj d a b c p f) = c.extractLsb' 0 2 := by
  apply BitVec.eq_of_toNat_eq
  simp only [fOR, BitVec.extractLsb'_toNat, layVX_toNat, Nat.shiftRight_eq_div_pow]
  have hmaj := maj.isLt
  have hd := d.isLt
  have ha := a.isLt
  have hb := b.isLt
  have hc := c.isLt
  have hp := p.isLt
  have hf := f.isLt
  omega

@[simp] theorem layVX_fOp3 (maj d a b c p f) : fOp3 (layVX maj d a b c p f) = p := by
  apply BitVec.eq_of_toNat_eq
  simp only [fOp3, BitVec.extractLsb'_toNat, layVX_toNat, Nat.shiftRight_eq_div_pow]
  have hmaj := maj.isLt
  have hd := d.isLt
  have ha := a.isLt
  have hb := b.isLt
  have hc := c.isLt
  have hp := p.isLt
  have hf := f.isLt
  omega

theorem layMX_toNat (maj d a b mf ae tb sd f) : (layMX maj d a b mf ae tb sd f).toNat = maj.toNat * 67108864 + d.toNat * 2097152 + a.toNat * 65536 + b.toNat * 2048 + mf.toNat * 64 + ae.toNat * 32 + tb.toNat * 8 + sd.toNat * 4 + f.toNat := by
  show BitVec.toNat (maj ++ d ++ a ++ b ++ mf ++ ae ++ tb ++ sd ++ f) = _
  simp only [append_toNat]
  omega

@[simp] theorem layMX_fMaj (maj d a b mf ae tb sd f) : fMaj (layMX maj d a b mf ae tb sd f) = maj := by
  apply BitVec.eq_of_toNat_eq
  simp only [fMaj, BitVec.extractLsb'_toNat, layMX_toNat, Nat.shiftRight_eq_div_pow]
  have hmaj := maj.isLt
  have hd := d.isLt
  have ha := a.isLt
  have hb := b.isLt
  have hmf := mf.isLt
  have hae := ae.isLt
  have htb := tb.isLt
  have hsd := sd.isLt
  have hf := f.isLt
  omega

@[simp] theorem layMX_fD (maj d a b mf ae tb sd f) : fD (layMX maj d a b mf ae tb sd f) = d := by
  apply BitVec.eq_of_toNat_eq
  simp only [fD, BitVec.extractLsb'_toNat, layMX_toNat, Nat.shiftRight_eq_div_pow]
  have hmaj := maj.isLt
  have hd := d.isLt
  have ha := a.isLt
  have hb := b.isLt
  have hmf := mf.isLt
  have hae := ae.isLt
  have htb := tb.isLt
  have hsd := sd.isLt
  have hf := f.isLt
  omega

@[simp] theorem layMX_fA (maj d a b mf ae tb sd f) : fA (layMX maj d a b mf ae tb sd f) = a := by
  apply BitVec.eq_of_toNat_eq
  simp only [fA, BitVec.extractLsb'_toNat, layMX_toNat, Nat.shiftRight_eq_div_pow]
  have hmaj := maj.isLt
  have hd := d.isLt
  have ha := a.isLt
  have hb := b.isLt
  have hmf := mf.isLt
  have hae := ae.isLt
  have htb := tb.isLt
  have hsd := sd.isLt
  have hf := f.isLt
  omega

@[simp] theorem layMX_fB (maj d a b mf ae tb sd f) : fB (layMX maj d a b mf ae tb sd f) = b := by
  apply BitVec.eq_of_toNat_eq
  simp only [fB, BitVec.extractLsb'_toNat, layMX_toNat, Nat.shiftRight_eq_div_pow]
  have hmaj := maj.isLt
  have hd := d.isLt
  have ha := a.isLt
  have hb := b.isLt
  have hmf := mf.isLt
  have hae := ae.isLt
  have htb := tb.isLt
  have hsd := sd.isLt
  have hf := f.isLt
  omega

@[simp] theorem layMX_fC (maj d a b mf ae tb sd f) : fC (layMX maj d a b mf ae tb sd f) = mf := by
  apply BitVec.eq_of_toNat_eq
  simp only [fC, BitVec.extractLsb'_toNat, layMX_toNat, Nat.shiftRight_eq_div_pow]
  have hmaj := maj.isLt
  have hd := d.isLt
  have ha := a.isLt
  have hb := b.isLt
  have hmf := mf.isLt
  have hae := ae.isLt
  have htb := tb.isLt
  have hsd := sd.isLt
  have hf := f.isLt
  omega

@[simp] theorem layMX_fP (maj d a b mf ae tb sd f) : fP (layMX maj d a b mf ae tb sd f) = mf.extractLsb' 2 3 := by
  apply BitVec.eq_of_toNat_eq
  simp only [fP, BitVec.extractLsb'_toNat, layMX_toNat, Nat.shiftRight_eq_div_pow]
  have hmaj := maj.isLt
  have hd := d.isLt
  have ha := a.isLt
  have hb := b.isLt
  have hmf := mf.isLt
  have hae := ae.isLt
  have htb := tb.isLt
  have hsd := sd.isLt
  have hf := f.isLt
  omega

@[simp] theorem layMX_fT (maj d a b mf ae tb sd f) : fT (layMX maj d a b mf ae tb sd f) = mf.extractLsb' 1 1 := by
  apply BitVec.eq_of_toNat_eq
  simp only [fT, BitVec.extractLsb'_toNat, layMX_toNat, Nat.shiftRight_eq_div_pow]
  have hmaj := maj.isLt
  have hd := d.isLt
  have ha := a.isLt
  have hb := b.isLt
  have hmf := mf.isLt
  have hae := ae.isLt
  have htb := tb.isLt
  have hsd := sd.isLt
  have hf := f.isLt
  omega

@[simp] theorem layMX_fE (maj d a b mf ae tb sd f) : fE (layMX maj d a b mf ae tb sd f) = b.extractLsb' 1 4 := by
  apply BitVec.eq_of_toNat_eq
  simp only [fE, BitVec.extractLsb'_toNat, layMX_toNat, Nat.shiftRight_eq_div_pow]
  have hmaj := maj.isLt
  have hd := d.isLt
  have ha := a.isLt
  have hb := b.isLt
  have hmf := mf.isLt
  have hae := ae.isLt
  have htb := tb.isLt
  have hsd := sd.isLt
  have hf := f.isLt
  omega

@[simp] theorem layMX_fTP (maj d a b mf ae tb sd f) : fTP (layMX maj d a b mf ae tb sd f) = mf.extractLsb' 2 2 := by
  apply BitVec.eq_of_toNat_eq
  simp only [fTP, BitVec.extractLsb'_toNat, layMX_toNat, Nat.shiftRight_eq_div_pow]
  have hmaj := maj.isLt
  have hd := d.isLt
  have ha := a.isLt
  have hb := b.isLt
  have hmf := mf.isLt
  have hae := ae.isLt
  have htb := tb.isLt
  have hsd := sd.isLt
  have hf := f.isLt
  omega

@[simp] theorem layMX_fMP (maj d a b mf ae tb sd f) : fMP (layMX maj d a b mf ae tb sd f) = mf.extractLsb' 1 1 := by
  apply BitVec.eq_of_toNat_eq
  simp only [fMP, BitVec.extractLsb'_toNat, layMX_toNat, Nat.shiftRight_eq_div_pow]
  have hmaj := maj.isLt
  have hd := d.isLt
  have ha := a.isLt
  have hb := b.isLt
  have hmf := mf.isLt
  have hae := ae.isLt
  have htb := tb.isLt
  have hsd := sd.isLt
  have hf := f.isLt
  omega

@[simp] theorem layMX_fAE (maj d a b mf ae tb sd f) : fAE (layMX maj d a b mf ae tb sd f) = ae := by
  apply BitVec.eq_of_toNat_eq
  simp only [fAE, BitVec.extractLsb'_toNat, layMX_toNat, Nat.shiftRight_eq_div_pow]
  have hmaj := maj.isLt
  have hd := d.isLt
  have ha := a.isLt
  have hb := b.isLt
  have hmf := mf.isLt
  have hae := ae.isLt
  have htb := tb.isLt
  have hsd := sd.isLt
  have hf := f.isLt
  omega

@[simp] theorem layMX_fTB (maj d a b mf ae tb sd f) : fTB (layMX maj d a b mf ae tb sd f) = tb := by
  apply BitVec.eq_of_toNat_eq
  simp only [fTB, BitVec.extractLsb'_toNat, layMX_toNat, Nat.shiftRight_eq_div_pow]
  have hmaj := maj.isLt
  have hd := d.isLt
  have ha := a.isLt
  have hb := b.isLt
  have hmf := mf.isLt
  have hae := ae.isLt
  have htb := tb.isLt
  have hsd := sd.isLt
  have hf := f.isLt
  omega

@[simp] theorem layMX_fSD (maj d a b mf ae tb sd f) : fSD (layMX maj d a b mf ae tb sd f) = sd := by
  apply BitVec.eq_of_toNat_eq
  simp only [fSD, BitVec.extractLsb'_toNat, layMX_toNat, Nat.shiftRight_eq_div_pow]
  have hmaj := maj.isLt
  have hd := d.isLt
  have ha := a.isLt
  have hb := b.isLt
  have hmf := mf.isLt
  have hae := ae.isLt
  have htb := tb.isLt
  have hsd := sd.isLt
  have hf := f.isLt
  omega

@[simp] theorem layMX_fFM2 (maj d a b mf ae tb sd f) : fFM2 (layMX maj d a b mf ae tb sd f) = f := by
  apply BitVec.eq_of_toNat_eq
  simp only [fFM2, BitVec.extractLsb'_toNat, layMX_toNat, Nat.shiftRight_eq_div_pow]
  have hmaj := maj.isLt
  have hd := d.isLt
  have ha := a.isLt
  have hb := b.isLt
  have hmf := mf.isLt
  have hae := ae.isLt
  have htb := tb.isLt
  have hsd := sd.isLt
  have hf := f.isLt
  omega

@[simp] theorem layMX_fSC (maj d a b mf ae tb sd f) : fSC (layMX maj d a b mf ae tb sd f) = mf.extractLsb' 2 3 := by
  apply BitVec.eq_of_toNat_eq
  simp only [fSC, BitVec.extractLsb'_toNat, layMX_toNat, Nat.shiftRight_eq_div_pow]
  have hmaj := maj.isLt
  have hd := d.isLt
  have ha := a.isLt
  have hb := b.isLt
  have hmf := mf.isLt
  have hae := ae.isLt
  have htb := tb.isLt
  have hsd := sd.isLt
  have hf := f.isLt
  omega

@[simp] theorem layMX_fOR (maj d a b mf ae tb sd f) : fOR (layMX maj d a b mf ae tb sd f) = mf.extractLsb' 0 2 := by
  apply BitVec.eq_of_toNat_eq
  simp only [fOR, BitVec.extractLsb'_toNat, layMX_toNat, Nat.shiftRight_eq_div_pow]
  have hmaj := maj.isLt
  have hd := d.isLt
  have ha := a.isLt
  have hb := b.isLt
  have hmf := mf.isLt
  have hae := ae.isLt
  have htb := tb.isLt
  have hsd := sd.isLt
  have hf := f.isLt
  omega

theorem laySY_toNat (maj d a b sc o f) : (laySY maj d a b sc o f).toNat = maj.toNat * 67108864 + d.toNat * 2097152 + a.toNat * 65536 + b.toNat * 2048 + sc.toNat * 256 + o.toNat * 64 + f.toNat := by
  show BitVec.toNat (maj ++ d ++ a ++ b ++ sc ++ o ++ f) = _
  simp only [append_toNat]
  omega

@[simp] theorem laySY_fMaj (maj d a b sc o f) : fMaj (laySY maj d a b sc o f) = maj := by
  apply BitVec.eq_of_toNat_eq
  simp only [fMaj, BitVec.extractLsb'_toNat, laySY_toNat, Nat.shiftRight_eq_div_pow]
  have hmaj := maj.isLt
  have hd := d.isLt
  have ha := a.isLt
  have hb := b.isLt
  have hsc := sc.isLt
  have ho := o.isLt
  have hf := f.isLt
  omega

@[simp] theorem laySY_fD (maj d a b sc o f) : fD (laySY maj d a b sc o f) = d := by
  apply BitVec.eq_of_toNat_eq
  simp only [fD, BitVec.extractLsb'_toNat, laySY_toNat, Nat.shiftRight_eq_div_pow]
  have hmaj := maj.isLt
  have hd := d.isLt
  have ha := a.isLt
  have hb := b.isLt
  have hsc := sc.isLt
  have ho := o.isLt
  have hf := f.isLt
  omega

@[simp] theorem laySY_fA (maj d a b sc o f) : fA (laySY maj d a b sc o f) = a := by
  apply BitVec.eq_of_toNat_eq
  simp only [fA, BitVec.extractLsb'_toNat, laySY_toNat, Nat.shiftRight_eq_div_pow]
  have hmaj := maj.isLt
  have hd := d.isLt
  have ha := a.isLt
  have hb := b.isLt
  have hsc := sc.isLt
  have ho := o.isLt
  have hf := f.isLt
  omega

@[simp] theorem laySY_fB (maj d a b sc o f) : fB (laySY maj d a b sc o f) = b := by
  apply BitVec.eq_of_toNat_eq
  simp only [fB, BitVec.extractLsb'_toNat, laySY_toNat, Nat.shiftRight_eq_div_pow]
  have hmaj := maj.isLt
  have hd := d.isLt
  have ha := a.isLt
  have hb := b.isLt
  have hsc := sc.isLt
  have ho := o.isLt
  have hf := f.isLt
  omega

@[simp] theorem laySY_fF6 (maj d a b sc o f) : fF6 (laySY maj d a b sc o f) = f := by
  apply BitVec.eq_of_toNat_eq
  simp only [fF6, BitVec.extractLsb'_toNat, laySY_toNat, Nat.shiftRight_eq_div_pow]
  have hmaj := maj.isLt
  have hd := d.isLt
  have ha := a.isLt
  have hb := b.isLt
  have hsc := sc.isLt
  have ho := o.isLt
  have hf := f.isLt
  omega

@[simp] theorem laySY_fCnd (maj d a b sc o f) : fCnd (laySY maj d a b sc o f) = f.extractLsb' 0 4 := by
  apply BitVec.eq_of_toNat_eq
  simp only [fCnd, BitVec.extractLsb'_toNat, laySY_toNat, Nat.shiftRight_eq_div_pow]
  have hmaj := maj.isLt
  have hd := d.isLt
  have ha := a.isLt
  have hb := b.isLt
  have hsc := sc.isLt
  have ho := o.isLt
  have hf := f.isLt
  omega

@[simp] theorem laySY_fP (maj d a b sc o f) : fP (laySY maj d a b sc o f) = sc := by
  apply BitVec.eq_of_toNat_eq
  simp only [fP, BitVec.extractLsb'_toNat, laySY_toNat, Nat.shiftRight_eq_div_pow]
  have hmaj := maj.isLt
  have hd := d.isLt
  have ha := a.isLt
  have hb := b.isLt
  have hsc := sc.isLt
  have ho := o.isLt
  have hf := f.isLt
  omega

@[simp] theorem laySY_fT (maj d a b sc o f) : fT (laySY maj d a b sc o f) = o.extractLsb' 1 1 := by
  apply BitVec.eq_of_toNat_eq
  simp only [fT, BitVec.extractLsb'_toNat, laySY_toNat, Nat.shiftRight_eq_div_pow]
  have hmaj := maj.isLt
  have hd := d.isLt
  have ha := a.isLt
  have hb := b.isLt
  have hsc := sc.isLt
  have ho := o.isLt
  have hf := f.isLt
  omega

@[simp] theorem laySY_fF5 (maj d a b sc o f) : fF5 (laySY maj d a b sc o f) = f.extractLsb' 0 5 := by
  apply BitVec.eq_of_toNat_eq
  simp only [fF5, BitVec.extractLsb'_toNat, laySY_toNat, Nat.shiftRight_eq_div_pow]
  have hmaj := maj.isLt
  have hd := d.isLt
  have ha := a.isLt
  have hb := b.isLt
  have hsc := sc.isLt
  have ho := o.isLt
  have hf := f.isLt
  omega

@[simp] theorem laySY_fPX (maj d a b sc o f) : fPX (laySY maj d a b sc o f) = f.extractLsb' 3 3 := by
  apply BitVec.eq_of_toNat_eq
  simp only [fPX, BitVec.extractLsb'_toNat, laySY_toNat, Nat.shiftRight_eq_div_pow]
  have hmaj := maj.isLt
  have hd := d.isLt
  have ha := a.isLt
  have hb := b.isLt
  have hsc := sc.isLt
  have ho := o.isLt
  have hf := f.isLt
  omega

@[simp] theorem laySY_fFX (maj d a b sc o f) : fFX (laySY maj d a b sc o f) = f.extractLsb' 0 3 := by
  apply BitVec.eq_of_toNat_eq
  simp only [fFX, BitVec.extractLsb'_toNat, laySY_toNat, Nat.shiftRight_eq_div_pow]
  have hmaj := maj.isLt
  have hd := d.isLt
  have ha := a.isLt
  have hb := b.isLt
  have hsc := sc.isLt
  have ho := o.isLt
  have hf := f.isLt
  omega

@[simp] theorem laySY_fE (maj d a b sc o f) : fE (laySY maj d a b sc o f) = b.extractLsb' 1 4 := by
  apply BitVec.eq_of_toNat_eq
  simp only [fE, BitVec.extractLsb'_toNat, laySY_toNat, Nat.shiftRight_eq_div_pow]
  have hmaj := maj.isLt
  have hd := d.isLt
  have ha := a.isLt
  have hb := b.isLt
  have hsc := sc.isLt
  have ho := o.isLt
  have hf := f.isLt
  omega

@[simp] theorem laySY_fTP (maj d a b sc o f) : fTP (laySY maj d a b sc o f) = sc.extractLsb' 0 2 := by
  apply BitVec.eq_of_toNat_eq
  simp only [fTP, BitVec.extractLsb'_toNat, laySY_toNat, Nat.shiftRight_eq_div_pow]
  have hmaj := maj.isLt
  have hd := d.isLt
  have ha := a.isLt
  have hb := b.isLt
  have hsc := sc.isLt
  have ho := o.isLt
  have hf := f.isLt
  omega

@[simp] theorem laySY_fMP (maj d a b sc o f) : fMP (laySY maj d a b sc o f) = o.extractLsb' 1 1 := by
  apply BitVec.eq_of_toNat_eq
  simp only [fMP, BitVec.extractLsb'_toNat, laySY_toNat, Nat.shiftRight_eq_div_pow]
  have hmaj := maj.isLt
  have hd := d.isLt
  have ha := a.isLt
  have hb := b.isLt
  have hsc := sc.isLt
  have ho := o.isLt
  have hf := f.isLt
  omega

@[simp] theorem laySY_fAE (maj d a b sc o f) : fAE (laySY maj d a b sc o f) = f.extractLsb' 5 1 := by
  apply BitVec.eq_of_toNat_eq
  simp only [fAE, BitVec.extractLsb'_toNat, laySY_toNat, Nat.shiftRight_eq_div_pow]
  have hmaj := maj.isLt
  have hd := d.isLt
  have ha := a.isLt
  have hb := b.isLt
  have hsc := sc.isLt
  have ho := o.isLt
  have hf := f.isLt
  omega

@[simp] theorem laySY_fTB (maj d a b sc o f) : fTB (laySY maj d a b sc o f) = f.extractLsb' 3 2 := by
  apply BitVec.eq_of_toNat_eq
  simp only [fTB, BitVec.extractLsb'_toNat, laySY_toNat, Nat.shiftRight_eq_div_pow]
  have hmaj := maj.isLt
  have hd := d.isLt
  have ha := a.isLt
  have hb := b.isLt
  have hsc := sc.isLt
  have ho := o.isLt
  have hf := f.isLt
  omega

@[simp] theorem laySY_fSD (maj d a b sc o f) : fSD (laySY maj d a b sc o f) = f.extractLsb' 2 1 := by
  apply BitVec.eq_of_toNat_eq
  simp only [fSD, BitVec.extractLsb'_toNat, laySY_toNat, Nat.shiftRight_eq_div_pow]
  have hmaj := maj.isLt
  have hd := d.isLt
  have ha := a.isLt
  have hb := b.isLt
  have hsc := sc.isLt
  have ho := o.isLt
  have hf := f.isLt
  omega

@[simp] theorem laySY_fFM2 (maj d a b sc o f) : fFM2 (laySY maj d a b sc o f) = f.extractLsb' 0 2 := by
  apply BitVec.eq_of_toNat_eq
  simp only [fFM2, BitVec.extractLsb'_toNat, laySY_toNat, Nat.shiftRight_eq_div_pow]
  have hmaj := maj.isLt
  have hd := d.isLt
  have ha := a.isLt
  have hb := b.isLt
  have hsc := sc.isLt
  have ho := o.isLt
  have hf := f.isLt
  omega

@[simp] theorem laySY_fSC (maj d a b sc o f) : fSC (laySY maj d a b sc o f) = sc := by
  apply BitVec.eq_of_toNat_eq
  simp only [fSC, BitVec.extractLsb'_toNat, laySY_toNat, Nat.shiftRight_eq_div_pow]
  have hmaj := maj.isLt
  have hd := d.isLt
  have ha := a.isLt
  have hb := b.isLt
  have hsc := sc.isLt
  have ho := o.isLt
  have hf := f.isLt
  omega

@[simp] theorem laySY_fOR (maj d a b sc o f) : fOR (laySY maj d a b sc o f) = o := by
  apply BitVec.eq_of_toNat_eq
  simp only [fOR, BitVec.extractLsb'_toNat, laySY_toNat, Nat.shiftRight_eq_div_pow]
  have hmaj := maj.isLt
  have hd := d.isLt
  have ha := a.isLt
  have hb := b.isLt
  have hsc := sc.isLt
  have ho := o.isLt
  have hf := f.isLt
  omega

@[simp] theorem laySY_fOp3 (maj d a b sc o f) : fOp3 (laySY maj d a b sc o f) = f.extractLsb' 3 3 := by
  apply BitVec.eq_of_toNat_eq
  simp only [fOp3, BitVec.extractLsb'_toNat, laySY_toNat, Nat.shiftRight_eq_div_pow]
  have hmaj := maj.isLt
  have hd := d.isLt
  have ha := a.isLt
  have hb := b.isLt
  have hsc := sc.isLt
  have ho := o.isLt
  have hf := f.isLt
  omega

@[simp] theorem laySY_fRnd (maj d a b sc o f) : fRnd (laySY maj d a b sc o f) = f.extractLsb' 2 3 := by
  apply BitVec.eq_of_toNat_eq
  simp only [fRnd, BitVec.extractLsb'_toNat, laySY_toNat, Nat.shiftRight_eq_div_pow]
  have hmaj := maj.isLt
  have hd := d.isLt
  have ha := a.isLt
  have hb := b.isLt
  have hsc := sc.isLt
  have ho := o.isLt
  have hf := f.isLt
  omega

theorem layCsr_toNat (maj d c z f) : (layCsr maj d c z f).toNat = maj.toNat * 67108864 + d.toNat * 2097152 + c.toNat * 2048 + z.toNat * 64 + f.toNat := by
  show BitVec.toNat (maj ++ d ++ c ++ z ++ f) = _
  simp only [append_toNat]
  omega

@[simp] theorem layCsr_fMaj (maj d c z f) : fMaj (layCsr maj d c z f) = maj := by
  apply BitVec.eq_of_toNat_eq
  simp only [fMaj, BitVec.extractLsb'_toNat, layCsr_toNat, Nat.shiftRight_eq_div_pow]
  have hmaj := maj.isLt
  have hd := d.isLt
  have hc := c.isLt
  have hz := z.isLt
  have hf := f.isLt
  omega

@[simp] theorem layCsr_fD (maj d c z f) : fD (layCsr maj d c z f) = d := by
  apply BitVec.eq_of_toNat_eq
  simp only [fD, BitVec.extractLsb'_toNat, layCsr_toNat, Nat.shiftRight_eq_div_pow]
  have hmaj := maj.isLt
  have hd := d.isLt
  have hc := c.isLt
  have hz := z.isLt
  have hf := f.isLt
  omega

@[simp] theorem layCsr_fA (maj d c z f) : fA (layCsr maj d c z f) = c.extractLsb' 5 5 := by
  apply BitVec.eq_of_toNat_eq
  simp only [fA, BitVec.extractLsb'_toNat, layCsr_toNat, Nat.shiftRight_eq_div_pow]
  have hmaj := maj.isLt
  have hd := d.isLt
  have hc := c.isLt
  have hz := z.isLt
  have hf := f.isLt
  omega

@[simp] theorem layCsr_fB (maj d c z f) : fB (layCsr maj d c z f) = c.extractLsb' 0 5 := by
  apply BitVec.eq_of_toNat_eq
  simp only [fB, BitVec.extractLsb'_toNat, layCsr_toNat, Nat.shiftRight_eq_div_pow]
  have hmaj := maj.isLt
  have hd := d.isLt
  have hc := c.isLt
  have hz := z.isLt
  have hf := f.isLt
  omega

@[simp] theorem layCsr_fC (maj d c z f) : fC (layCsr maj d c z f) = z := by
  apply BitVec.eq_of_toNat_eq
  simp only [fC, BitVec.extractLsb'_toNat, layCsr_toNat, Nat.shiftRight_eq_div_pow]
  have hmaj := maj.isLt
  have hd := d.isLt
  have hc := c.isLt
  have hz := z.isLt
  have hf := f.isLt
  omega

@[simp] theorem layCsr_fF6 (maj d c z f) : fF6 (layCsr maj d c z f) = f := by
  apply BitVec.eq_of_toNat_eq
  simp only [fF6, BitVec.extractLsb'_toNat, layCsr_toNat, Nat.shiftRight_eq_div_pow]
  have hmaj := maj.isLt
  have hd := d.isLt
  have hc := c.isLt
  have hz := z.isLt
  have hf := f.isLt
  omega

@[simp] theorem layCsr_fCnd (maj d c z f) : fCnd (layCsr maj d c z f) = f.extractLsb' 0 4 := by
  apply BitVec.eq_of_toNat_eq
  simp only [fCnd, BitVec.extractLsb'_toNat, layCsr_toNat, Nat.shiftRight_eq_div_pow]
  have hmaj := maj.isLt
  have hd := d.isLt
  have hc := c.isLt
  have hz := z.isLt
  have hf := f.isLt
  omega

@[simp] theorem layCsr_fP (maj d c z f) : fP (layCsr maj d c z f) = z.extractLsb' 2 3 := by
  apply BitVec.eq_of_toNat_eq
  simp only [fP, BitVec.extractLsb'_toNat, layCsr_toNat, Nat.shiftRight_eq_div_pow]
  have hmaj := maj.isLt
  have hd := d.isLt
  have hc := c.isLt
  have hz := z.isLt
  have hf := f.isLt
  omega

@[simp] theorem layCsr_fT (maj d c z f) : fT (layCsr maj d c z f) = z.extractLsb' 1 1 := by
  apply BitVec.eq_of_toNat_eq
  simp only [fT, BitVec.extractLsb'_toNat, layCsr_toNat, Nat.shiftRight_eq_div_pow]
  have hmaj := maj.isLt
  have hd := d.isLt
  have hc := c.isLt
  have hz := z.isLt
  have hf := f.isLt
  omega

@[simp] theorem layCsr_fF5 (maj d c z f) : fF5 (layCsr maj d c z f) = f.extractLsb' 0 5 := by
  apply BitVec.eq_of_toNat_eq
  simp only [fF5, BitVec.extractLsb'_toNat, layCsr_toNat, Nat.shiftRight_eq_div_pow]
  have hmaj := maj.isLt
  have hd := d.isLt
  have hc := c.isLt
  have hz := z.isLt
  have hf := f.isLt
  omega

@[simp] theorem layCsr_fPX (maj d c z f) : fPX (layCsr maj d c z f) = f.extractLsb' 3 3 := by
  apply BitVec.eq_of_toNat_eq
  simp only [fPX, BitVec.extractLsb'_toNat, layCsr_toNat, Nat.shiftRight_eq_div_pow]
  have hmaj := maj.isLt
  have hd := d.isLt
  have hc := c.isLt
  have hz := z.isLt
  have hf := f.isLt
  omega

@[simp] theorem layCsr_fFX (maj d c z f) : fFX (layCsr maj d c z f) = f.extractLsb' 0 3 := by
  apply BitVec.eq_of_toNat_eq
  simp only [fFX, BitVec.extractLsb'_toNat, layCsr_toNat, Nat.shiftRight_eq_div_pow]
  have hmaj := maj.isLt
  have hd := d.isLt
  have hc := c.isLt
  have hz := z.isLt
  have hf := f.isLt
  omega

@[simp] theorem layCsr_fE (maj d c z f) : fE (layCsr maj d c z f) = c.extractLsb' 1 4 := by
  apply BitVec.eq_of_toNat_eq
  simp only [fE, BitVec.extractLsb'_toNat, layCsr_toNat, Nat.shiftRight_eq_div_pow]
  have hmaj := maj.isLt
  have hd := d.isLt
  have hc := c.isLt
  have hz := z.isLt
  have hf := f.isLt
  omega

@[simp] theorem layCsr_fTP (maj d c z f) : fTP (layCsr maj d c z f) = z.extractLsb' 2 2 := by
  apply BitVec.eq_of_toNat_eq
  simp only [fTP, BitVec.extractLsb'_toNat, layCsr_toNat, Nat.shiftRight_eq_div_pow]
  have hmaj := maj.isLt
  have hd := d.isLt
  have hc := c.isLt
  have hz := z.isLt
  have hf := f.isLt
  omega

@[simp] theorem layCsr_fMP (maj d c z f) : fMP (layCsr maj d c z f) = z.extractLsb' 1 1 := by
  apply BitVec.eq_of_toNat_eq
  simp only [fMP, BitVec.extractLsb'_toNat, layCsr_toNat, Nat.shiftRight_eq_div_pow]
  have hmaj := maj.isLt
  have hd := d.isLt
  have hc := c.isLt
  have hz := z.isLt
  have hf := f.isLt
  omega

@[simp] theorem layCsr_fAE (maj d c z f) : fAE (layCsr maj d c z f) = f.extractLsb' 5 1 := by
  apply BitVec.eq_of_toNat_eq
  simp only [fAE, BitVec.extractLsb'_toNat, layCsr_toNat, Nat.shiftRight_eq_div_pow]
  have hmaj := maj.isLt
  have hd := d.isLt
  have hc := c.isLt
  have hz := z.isLt
  have hf := f.isLt
  omega

@[simp] theorem layCsr_fTB (maj d c z f) : fTB (layCsr maj d c z f) = f.extractLsb' 3 2 := by
  apply BitVec.eq_of_toNat_eq
  simp only [fTB, BitVec.extractLsb'_toNat, layCsr_toNat, Nat.shiftRight_eq_div_pow]
  have hmaj := maj.isLt
  have hd := d.isLt
  have hc := c.isLt
  have hz := z.isLt
  have hf := f.isLt
  omega

@[simp] theorem layCsr_fSD (maj d c z f) : fSD (layCsr maj d c z f) = f.extractLsb' 2 1 := by
  apply BitVec.eq_of_toNat_eq
  simp only [fSD, BitVec.extractLsb'_toNat, layCsr_toNat, Nat.shiftRight_eq_div_pow]
  have hmaj := maj.isLt
  have hd := d.isLt
  have hc := c.isLt
  have hz := z.isLt
  have hf := f.isLt
  omega

@[simp] theorem layCsr_fFM2 (maj d c z f) : fFM2 (layCsr maj d c z f) = f.extractLsb' 0 2 := by
  apply BitVec.eq_of_toNat_eq
  simp only [fFM2, BitVec.extractLsb'_toNat, layCsr_toNat, Nat.shiftRight_eq_div_pow]
  have hmaj := maj.isLt
  have hd := d.isLt
  have hc := c.isLt
  have hz := z.isLt
  have hf := f.isLt
  omega

@[simp] theorem layCsr_fSC (maj d c z f) : fSC (layCsr maj d c z f) = z.extractLsb' 2 3 := by
  apply BitVec.eq_of_toNat_eq
  simp only [fSC, BitVec.extractLsb'_toNat, layCsr_toNat, Nat.shiftRight_eq_div_pow]
  have hmaj := maj.isLt
  have hd := d.isLt
  have hc := c.isLt
  have hz := z.isLt
  have hf := f.isLt
  omega

@[simp] theorem layCsr_fOR (maj d c z f) : fOR (layCsr maj d c z f) = z.extractLsb' 0 2 := by
  apply BitVec.eq_of_toNat_eq
  simp only [fOR, BitVec.extractLsb'_toNat, layCsr_toNat, Nat.shiftRight_eq_div_pow]
  have hmaj := maj.isLt
  have hd := d.isLt
  have hc := c.isLt
  have hz := z.isLt
  have hf := f.isLt
  omega

@[simp] theorem layCsr_fCsr (maj d c z f) : fCsr (layCsr maj d c z f) = c := by
  apply BitVec.eq_of_toNat_eq
  simp only [fCsr, BitVec.extractLsb'_toNat, layCsr_toNat, Nat.shiftRight_eq_div_pow]
  have hmaj := maj.isLt
  have hd := d.isLt
  have hc := c.isLt
  have hz := z.isLt
  have hf := f.isLt
  omega

@[simp] theorem layCsr_fOp3 (maj d c z f) : fOp3 (layCsr maj d c z f) = f.extractLsb' 3 3 := by
  apply BitVec.eq_of_toNat_eq
  simp only [fOp3, BitVec.extractLsb'_toNat, layCsr_toNat, Nat.shiftRight_eq_div_pow]
  have hmaj := maj.isLt
  have hd := d.isLt
  have hc := c.isLt
  have hz := z.isLt
  have hf := f.isLt
  omega

@[simp] theorem layCsr_fRnd (maj d c z f) : fRnd (layCsr maj d c z f) = f.extractLsb' 2 3 := by
  apply BitVec.eq_of_toNat_eq
  simp only [fRnd, BitVec.extractLsb'_toNat, layCsr_toNat, Nat.shiftRight_eq_div_pow]
  have hmaj := maj.isLt
  have hd := d.isLt
  have hc := c.isLt
  have hz := z.isLt
  have hf := f.isLt
  omega

end Sys2Proof.Laws
end

