-- ==== Sys2Proof/Laws/MemoryForm.lean ====
section
/-!
SUPPORT. Every operation over memory keeps the canonical form of memory.
-/

namespace Sys2Proof.Laws

open Sys2Proof.Machine

/-- Memory of a state is in its canonical form. -/
abbrev Wf (s : State) : Prop := Memory.wf s.m.mem = true

/-- Every state that a result carries is one of P. -/
def ResAll {α : Type} (P : State → Prop) : Res α → Prop
  | .ok _ s => P s
  | .trap _ s => P s
  | .wait _ s => P s
  | .gone s => P s

theorem resAll_ok {α : Type} {P : State → Prop} {a : α} {s : State} (h : P s) : ResAll P (.ok a s) := h
theorem resAll_trap {α : Type} {P : State → Prop} {t : Trap} {s : State} (h : P s) : ResAll P (.trap t s : Res α) := h
theorem resAll_wait {α : Type} {P : State → Prop} {w : Wait} {s : State} (h : P s) : ResAll P (.wait w s : Res α) := h

theorem resAll_andThen {α β : Type} {P : State → Prop} {r : Res α} {f : α → State → Res β} (h : ResAll P r) (k : ∀ a s, P s → ResAll P (f a s)) :
    ResAll P (r.andThen f) := by
  cases r <;> simp_all [Res.andThen, ResAll]

theorem resAll_mapTrap {α : Type} {P : State → Prop} {r : Res α} {f : Trap → Trap} (h : ResAll P r) : ResAll P (r.mapTrap f) := by
  cases r <;> simp_all [Res.mapTrap, ResAll]

theorem resAll_ite {α : Type} {P : State → Prop} {c : Prop} [Decidable c] {x y : Res α} (hx : ResAll P x) (hy : ResAll P y) :
    ResAll P (if c then x else y) := by split <;> assumption

theorem foldl_keep {α β : Type} {P : α → Prop} {f : α → β → α} (h : ∀ a b, P a → P (f a b)) : ∀ (l : List β) (a : α), P a → P (l.foldl f a)
  | [], _, p => p
  | b :: r, a, p => foldl_keep h r (f a b) (h a b p)

theorem resAll_foldRes {α β : Type} {P : State → Prop} {f : β → α → State → Res β} (h : ∀ b a s, P s → ResAll P (f b a s)) :
    ∀ (l : List α) (b : β) (s : State), P s → ResAll P (foldRes f l b s)
  | [], _, _, p => p
  | a :: r, b, s, p => resAll_andThen (h b a s p) fun b s p => resAll_foldRes h r b s p

/-- Lines that change hands leave the bytes. -/
theorem wf_reached {s t : State} (k : Reached s t) (h : Wf s) : Wf t := by unfold Wf; rw [k.1]; exact h

theorem wf_askDie (s : State) (a b : Nat) (h : Wf s) : Wf (askDie s a b) := wf_reached (reached_askDie s a b) h

theorem wf_askFrom (s : State) (a : Nat) (ds : List Nat) (h : Wf s) : Wf (askFrom s a ds) := wf_reached (reached_askFrom s a ds) h

theorem wf_l1Write (s : State) (k : Hold) (line : Nat) (h : Wf s) : Wf (l1Write s k line) := wf_reached (reached_l1Write s k line) h

theorem wf_l1Read (s : State) (fill : Bool) (c pa : Nat) (h : Wf s) : Wf (l1Read s fill c pa) := wf_reached (reached_l1Read s fill c pa) h

theorem wf_onMem {s : State} {f : MemSt → MemSt} (hf : ∀ m, (f m).mem = m.mem) (h : Wf s) : Wf (s.onMem f) := by
  unfold Wf State.onMem; rw [hf]; exact h

-- ## Coherence

theorem wf_markEarly (s : State) (b : By) (pa n : Nat) (h : Wf s) : Wf (markEarly s b pa n) := by unfold markEarly; split <;> exact h

theorem wf_clearPoison (s : State) (pa len : Nat) (h : Wf s) : Wf (clearPoison s pa len) := by unfold clearPoison; split <;> exact h

theorem wf_applyUpdate (s : State) (u : Update) (h : Wf s) : Wf (applyUpdate s u) := wf_setBytes _ _ _ (wf_markEarly s _ _ _ h)

theorem wf_applyChain (s : State) (dw : Nat) (h : Wf s) : Wf (applyChain s dw) := by
  unfold applyChain; split
  · exact h
  · exact foldl_keep (P := Wf) wf_applyUpdate _ _ h

theorem wf_applyLine (s : State) (line : Nat) (h : Wf s) : Wf (applyLine s line) := by
  unfold applyLine; split
  · exact h
  · exact foldl_keep (P := Wf) (fun s i h => wf_applyChain s _ h) _ s h

theorem wf_writeBackLine (s : State) (l : SLine) (h : Wf s) : Wf (s.writeBackLine l) := by
  have h1 := wf_reached (reached_packet (applyLine s l.at_) (homeDie l.at_) (homeDie l.pa)) (wf_applyLine s l.at_ h)
  unfold State.writeBackLine; split
  · dsimp only; split
    · exact h1
    · exact wf_setBytes _ _ _ (wf_clearPoison _ _ _ h1)
  · exact h

theorem wf_syncStash (s : State) (line : Nat) (w : Bool) (h : Wf s) : Wf (syncStash s line w) :=
  foldl_keep (P := Wf) (fun s l h => by
    have h1 := wf_askDie _ (homeDie line) (homeDie l.at_) (wf_writeBackLine s l h)
    split
    · exact wf_onMem (fun _ => rfl) h1
    · exact h) _ s h

theorem wf_dropTranslations (s : State) (d : Nat) (a : List Nat → Bool) (b : TlbEntry → Bool) (h : Wf s) : Wf (dropTranslations s d a b) := by
  have h1 := wf_askFrom s d ((s.m.tlb.filter b).map fun e => dieOf e.lcore) h
  unfold dropTranslations
  refine foldl_keep (P := Wf) (fun s l h => ?_) _ _ (wf_onMem (fun _ => rfl) h1)
  split
  · exact wf_onMem (fun _ => rfl) (wf_askDie _ d (homeDie l.at_) (wf_writeBackLine s l h))
  · exact h

theorem wf_packets (d : Nat) (cs : List Nat) (s : State) (h : Wf s) : Wf (cs.foldl (fun s c => packet s d (dieOf c)) s) :=
  wf_reached (reached_foldl (fun s c => reached_packet s d (dieOf c)) cs s) h

theorem wf_markSource (s : State) (line : Nat) (h : Wf s) : Wf (markSource s line) := by
  unfold markSource
  dsimp only
  split <;> [exact wf_packets _ _ s h; exact h]

theorem wf_endHostCopy (s : State) (b : By) (line : Nat) (h : Wf s) : Wf (endHostCopy s b line) := by unfold endHostCopy; split <;> exact h

theorem wf_readyLine (s : State) (b : By) (k : Hold) (line : Nat) (h : Wf s) : Wf (readyLine s b k line) := by
  unfold readyLine
  dsimp only
  refine wf_endHostCopy _ _ _ (wf_l1Write _ _ _ (wf_markSource _ _ ?_))
  have h1 : Wf (if s.m.slines.isEmpty then s else syncStash s line true) := by split <;> [exact h; exact wf_syncStash s line true h]
  generalize (if s.m.slines.isEmpty then s else syncStash s line true) = s1 at h1 ⊢
  split
  · exact h1
  · exact wf_dropTranslations s1 _ _ _ h1

theorem wf_readyLines (b : By) (k : Hold) (ls : List Nat) (s : State) (h : Wf s) : Wf (ls.foldl (fun s l => readyLine s b k l) s) :=
  foldl_keep (P := Wf) (fun s l h => wf_readyLine s b k l h) ls s h

theorem wf_settleDword (s : State) (dw : Nat) (h : Wf s) : Wf (settleDword s dw) := by
  unfold settleDword; split
  · exact wf_applyChain _ _ (wf_readyLine s _ _ _ h)
  · exact h

theorem wf_settle (s : State) (pa len : Nat) (h : Wf s) : Wf (settle s pa len) := by
  unfold settle; split
  · exact h
  · exact foldl_keep (P := Wf) (fun s i h => wf_settleDword s _ h) _ s h

theorem wf_readyWrite (s : State) (b : By) (k : Hold) (pa len : Nat) (h : Wf s) : Wf (readyWrite s b k pa len) :=
  wf_readyLines b k _ _ (wf_settle s pa len h)

theorem wf_performHome (s : State) (b : By) (k : Hold) (pa : Nat) (bs : List Byte) (h : Wf s) : Wf (performHome s b k pa bs) :=
  wf_setBytes _ _ _ (wf_clearPoison _ _ _ (wf_markEarly _ _ _ _ (wf_readyWrite s b k pa _ h)))

theorem wf_performBits (s : State) (b : By) (k : Hold) (pa : Nat) (mask : Byte) (bs : List Byte) (h : Wf s) : Wf (performBits s b k pa mask bs) := by
  unfold performBits
  split
  · exact wf_performHome s b k pa bs h
  · exact wf_setBytes _ _ _ (wf_markEarly _ _ _ _ (wf_readyWrite s b k pa _ h))

theorem wf_performMasked (s : State) (b : By) (k : Hold) (line : Nat) (bs : List HeldByte) (h : Wf s) : Wf (performMasked s b k line bs) := by
  have h1 := wf_readyWrite s b k line 64 h
  unfold performMasked
  refine foldl_keep (P := Wf) (fun s x h => wf_setBytes _ _ _ (wf_markEarly s _ _ _ h)) _ _ ?_
  split <;> [exact wf_clearPoison _ _ _ h1; exact h1]

-- ## Stores of a control thread

theorem wf_storeHome (s : State) (c n : Nat) (own : Bool) (pa : Nat) (mask : Byte) (bs : List Byte) (h : Wf s) : Wf (storeHome s c n own pa mask bs) := by
  unfold storeHome
  dsimp only
  refine wf_performBits _ _ _ _ _ _ ?_
  split <;> [exact h; exact wf_askDie s _ _ h]

theorem wf_takeLine (s : State) (b : By) (l : SLine) (h : Wf s) : Wf (takeLine s b l) := wf_onMem (fun _ => rfl) (wf_readyLine s b _ _ h)

theorem wf_reopen (s : State) (b : By) (pa : Nat) (h : Wf s) : Wf (reopen s b pa) := by
  unfold reopen; split
  · split <;> [exact wf_takeLine s b _ h; exact h]
  · exact h

theorem wf_landStore (s : State) (e : BufStore) (h : Wf s) : Wf (landStore s e) := by
  unfold landStore; split <;> [exact h; exact wf_storeHome _ _ _ _ _ _ _ (wf_reopen s _ _ h)]

theorem wf_raceCheck (s : State) (c : Nat) (task : Word) (line : Nat) (va : Word) (h : Wf s) : Wf (raceCheck s c task line va) := by
  unfold raceCheck; dsimp only; split <;> exact h

theorem wf_landLine (s : State) (l : WcLine) (h : Wf s) : Wf (landLine s l) := by
  unfold landLine
  split
  · exact h
  · dsimp only
    refine wf_raceCheck _ _ _ _ _ ?_
    have h1 := wf_askDie s (dieOf l.lcore) (homeDie l.line) h
    split
    · exact wf_onMem (fun _ => rfl) (wf_performMasked _ _ _ _ _ (wf_setBytes _ _ _ (wf_readyLine _ _ _ _ h1)))
    · exact wf_performMasked _ _ _ _ _ h1

-- ## Accesses that perform late

theorem wf_askBy (s : State) (b : By) (pa : Nat) (h : Wf s) : Wf (askBy s b pa) := by unfold askBy; split <;> [exact wf_askDie s _ _ h; exact h]

theorem wf_takeHostLine (s : State) (pa : Nat) (h : Wf s) : Wf (takeHostLine s pa) := by unfold takeHostLine; split <;> exact h

theorem wf_openRead (s : State) (pa len : Nat) (h : Wf s) : Wf (openRead s pa len) := by
  unfold openRead
  dsimp only
  split
  · exact wf_settle s pa len h
  · exact foldl_keep (P := Wf) (fun s l h => wf_syncStash s l false h) _ _ (wf_settle s pa len h)

/-- A write of an atomic at its home. -/
theorem wf_atomic (s : State) (b : By) (k : Hold) (line pa n : Nat) (bs : List Byte) (h : Wf s) :
    Wf ((markEarly (takeHostLine (readyLine s b k line) pa) b pa n).setBytes pa bs) :=
  wf_setBytes _ _ _ (wf_markEarly _ _ _ _ (wf_takeHostLine _ _ (wf_readyLine _ _ _ _ h)))

theorem wf_landLate (s : State) (l : Late) (h : Wf s) : Wf (landLate s l) := by
  unfold landLate
  dsimp only
  split
  · exact h
  · split
    · exact wf_onMem (fun _ => rfl) (wf_openRead _ _ _ (wf_l1Read _ _ _ _ h))
    · exact wf_onMem (fun _ => rfl) (wf_atomic _ _ _ _ _ _ _ (wf_settle _ _ _ (wf_askBy _ _ _ (wf_reopen _ _ _ h))))
    · rename_i n want new _
      refine wf_onMem (fun _ => rfl) ?_
      have h1 := wf_openRead _ (placeNow s l.pa) n (wf_askBy s l.by_ (placeNow s l.pa) h)
      split
      · exact wf_atomic _ _ _ _ _ _ _ (wf_reopen _ _ _ h1)
      · exact wf_takeHostLine _ _ (wf_l1Write _ _ _ h1)

theorem wf_drainNeed : ∀ (n : Nat) (k : Need) (s : State), Wf s → Wf (drainNeed n k s)
  | 0, _, _, h => h
  | n + 1, k, s, h => by
    unfold drainNeed
    split
    · exact wf_drainNeed n k _ (wf_landStore _ _ (wf_drainNeed n _ _ h))
    · split
      · exact wf_drainNeed n k _ (wf_landLine _ _ (wf_drainNeed n _ _ h))
      · split
        · rename_i l _
          refine wf_drainNeed n k _ (wf_landLate _ _ ?_)
          split
          · exact wf_drainNeed n _ _ (wf_drainNeed n _ _ h)
          · exact wf_drainNeed n _ _ h
        · exact h

theorem wf_drainFor (k : Need) (s : State) (h : Wf s) : Wf (drainFor k s) := by
  unfold drainFor; split <;> [exact h; exact wf_drainNeed _ k s h]

theorem wf_drainTranslated (s : State) (b : By) (pa len : Nat) (h : Wf s) : Wf (drainTranslated s b pa len) := wf_drainFor _ s h

theorem wf_writeHome (s : State) (b : By) (pa : Nat) (bs : List Byte) (h : Wf s) : Wf (writeHome s b pa bs) :=
  wf_performHome _ b _ _ bs (wf_reopen _ _ _ (wf_drainTranslated s b pa _ h))

theorem wf_drainWhere (f : BufStore → Bool) (s : State) (h : Wf s) : Wf (drainWhere f s) := by
  unfold drainWhere; split <;> [exact h; exact wf_drainFor _ s h]

theorem wf_readyAt (s : State) (b : By) (pa len : Nat) (h : Wf s) : Wf (readyAt s b pa len).2 := wf_openRead _ _ _ (wf_drainFor _ s h)

theorem wf_readyRead (s : State) (b : By) (pa len : Nat) (h : Wf s) : Wf (readyRead s b pa len) := wf_readyAt s b pa len h

theorem wf_readBytes (s : State) (b : By) (pa n : Nat) (h : Wf s) : Wf (readBytes s b pa n).2 := wf_readyAt s b pa n h

theorem wf_readHome (s : State) (b : By) (pa n : Nat) (h : Wf s) : Wf (readHome s b pa n).2 := wf_readyAt s b pa n h

theorem wf_performWhere (f : Late → Bool) (s : State) (h : Wf s) : Wf (performWhere f s) := by
  unfold performWhere; split <;> [exact h; exact wf_drainFor _ s h]

theorem wf_performFirst (s : State) (sc w : Bool) (pa n : Nat) (h : Wf s) : Wf (performFirst s sc w pa n) := wf_performWhere _ s h

theorem wf_drainLines (f : WcLine → Bool) (s : State) (h : Wf s) : Wf (drainLines f s) := by
  unfold drainLines; split <;> [exact h; exact wf_drainFor _ s h]

theorem wf_drainStores (s : State) (h : Wf s) : Wf (drainStores s) := wf_performWhere _ _ (wf_drainLines _ _ (wf_drainWhere _ s h))

theorem wf_drainAt (s : State) (pa len : Nat) (h : Wf s) : Wf (drainAt s pa len) := by
  unfold drainAt; split <;> [exact h; exact wf_drainLines _ _ (wf_drainWhere _ s h)]

theorem wf_drainOne (s : State) (k : Nat) (h : Wf s) : Wf (drainOne s k) := by
  unfold drainOne; dsimp only; split
  · split <;> [exact h; exact wf_drainWhere _ s h]
  · exact h

theorem wf_forgetEarly (s : State) (f : Early → Bool) (h : Wf s) : Wf (forgetEarly s f) := by unfold forgetEarly; split <;> exact h

theorem wf_dropOwn (s : State) (sc : Bool) (pa n : Nat) (h : Wf s) : Wf (dropOwn s sc pa n) := by
  unfold dropOwn; split <;> [exact h; exact wf_forgetEarly s _ h]

theorem wf_takeEarly (s : State) (p : Port) (pa n : Nat) (h : Wf s) : Wf (takeEarly s p pa n).2 := by unfold takeEarly; split <;> exact h

theorem wf_readNow (s : State) (sc : Bool) (p : Place) (n : Nat) (h : Wf s) : Wf (readNow s sc p n).2 := by
  unfold readNow
  dsimp only
  refine wf_openRead _ _ _ (wf_l1Read _ _ _ _ (wf_drainFor _ _ ?_))
  split <;> [exact h; exact wf_drainWhere _ s h]

theorem wf_loadBytes (s : State) (sc : Bool) (p : Place) (n : Nat) (h : Wf s) : Wf (loadBytes s sc p n).2 := by
  have h1 := wf_takeEarly _ (if sc then .scalar else .vector) p.pa n (wf_performFirst s sc false p.pa n h)
  unfold loadBytes
  dsimp only
  split <;> [exact h1; exact wf_readNow _ sc p n h1]

theorem wf_holdStore (s : State) (own : Bool) (p : Place) (va : Word) (mask : Byte) (bs : List Byte) (h : Wf s) :
    Wf (holdStore s own p va mask bs) := by
  unfold holdStore
  dsimp only
  have h1 := wf_drainWhere (fun e => s.mine e && nameLine s e.pa == nameLine s p.pa) s h
  split
  · exact wf_onMem (fun _ => rfl) h1
  · refine wf_onMem (fun _ => rfl) ?_
    split <;> [exact wf_drainLines _ _ h1; exact h1]

theorem wf_storeNow (s : State) (sc : Bool) (p : Place) (mask : Byte) (bs : List Byte) (h : Wf s) : Wf (storeNow s sc p mask bs) :=
  wf_storeHome _ _ _ _ _ _ _ (wf_reopen _ _ _ (wf_drainTranslated _ _ _ _ (wf_drainAt s _ _ h)))

theorem wf_plainBits (s : State) (sc : Bool) (p : Place) (va : Word) (mask : Byte) (bs : List Byte) (h : Wf s) : Wf (plainBits s sc p va mask bs) := by
  have h1 := wf_performFirst _ sc true p.pa bs.length (wf_dropOwn s sc p.pa bs.length h)
  unfold plainBits
  dsimp only
  split
  · exact wf_holdStore _ _ _ _ _ _ h1
  · split
    · exact wf_onMem (fun _ => rfl) (wf_drainLines _ _ h1)
    · exact wf_storeNow _ _ _ _ _ h1

theorem wf_plainStore (s : State) (sc : Bool) (p : Place) (va : Word) (bs : List Byte) (h : Wf s) : Wf (plainStore s sc p va bs) :=
  wf_plainBits s sc p va 0xFF bs h

theorem wf_performAt (sc : Nat) (f : BufStore → Bool) (s : State) (h : Wf s) : Wf (performAt sc f s) := by
  unfold performAt
  split
  · exact wf_drainWhere f s h
  · split
    · exact h
    · exact wf_onMem (fun _ => rfl) (foldl_keep (P := Wf) (fun s e h => wf_markEarly s _ _ _ h) _ _ (wf_performWhere _ s h))

theorem wf_performLateAt (sc : Nat) (f : Late → Bool) (s : State) (h : Wf s) : Wf (performLateAt sc f s) := by
  unfold performLateAt
  split
  · exact wf_performWhere f s h
  · split
    · exact h
    · exact wf_onMem (fun _ => rfl) (foldl_keep (P := Wf) (fun s e h => wf_markEarly s _ _ _ h) _ _ (wf_performWhere _ s h))

theorem wf_performHeld (ivl : Nat) (s : State) (h : Wf s) : Wf (performHeld ivl s) := by
  unfold performHeld
  split
  · exact h
  · exact foldl_keep (P := Wf) (fun s n h => wf_performLateAt n _ _ (wf_performAt n _ s h)) _ _ (wf_performLateAt 4 _ _ (wf_performAt 4 _ s h))

theorem wf_releaseAll (s : State) (h : Wf s) : Wf (releaseAll s) := wf_drainStores s h

-- ## Translation

theorem wf_atHome (pa : Nat) (s : State) (h : Wf s) : ResAll Wf (atHome pa s) := by
  unfold atHome
  split
  · exact h
  · split
    · split <;> exact h
    · exact h

theorem wf_readPte (s : State) (b : By) (a : Nat) (h : Wf s) : ResAll Wf (readPte s b a) :=
  resAll_andThen (wf_atHome a s h) fun _ s h => wf_readHome _ b a 8 (wf_askBy s b a h)

theorem wf_groupEntry (s : State) (b : By) (t i : Nat) (e : Word) (h : Wf s) : Wf (groupEntry s b t i e).2.2 := by
  have h1 := wf_readyRead s b (t + 128 * (i / 16)) 128 h
  unfold groupEntry
  dsimp only
  split <;> exact h1

theorem wf_entryAt (b : By) (va : Word) (n t : Nat) (s : State) (h : Wf s) : ResAll Wf (entryAt b va n t s) := by
  refine resAll_andThen (wf_readPte _ _ _ h) fun e s h => ?_
  split <;> [exact wf_groupEntry _ _ _ _ _ h; exact h]

theorem wf_walkFrom (b : By) (va : Word) : ∀ (n t : Nat) (ds : List Nat) (s : State), Wf s → ResAll Wf (walkFrom b va n t ds s)
  | 0, t, _, s, h => resAll_andThen (wf_entryAt b va 0 t s h) fun _ _ h => h
  | m + 1, t, ds, s, h => resAll_andThen (wf_entryAt b va (m + 1) t s h) fun _ _ h => by
      split <;> [exact h; exact wf_walkFrom b va m _ _ _ h]

theorem wf_walk (c : Ctx) (va : Word) (s : State) (h : Wf s) : ResAll Wf (walk c va s) := wf_walkFrom c.by_ va 3 _ _ s h

theorem wf_lookup (c : Ctx) (va : Word) (s : State) (h : Wf s) : ResAll Wf (lookup c va s) := by
  unfold lookup
  split
  · exact h
  · split
    · exact wf_walk c va s h
    · dsimp only; split
      · exact h
      · exact wf_walk c va _ h

theorem wf_updateAD (s t : State) (b : By) (a : Acc) (e : Word) (at_ : Nat) (h : Wf s) (k : updateAD s b a e at_ = some t) : Wf t := by
  have h1 := wf_markEarly _ b at_ 8 (wf_endHostCopy _ b (lineOf at_) (wf_l1Write _ .recall (lineOf at_) (wf_markSource _ (lineOf at_)
    (wf_dropTranslations _ (homeDie at_) (fun ds => ds.contains at_) (fun t => t.leafAt == at_)
      (wf_syncStash _ (lineOf at_) true (wf_readyRead _ b at_ 8 (wf_askBy s b at_ h)))))))
  unfold updateAD at k
  dsimp only at k
  generalize (e ||| _) = e1 at k
  split at k
  · rw [← Option.some.inj k]; exact h
  · split at k
    · exact absurd k (by simp)
    · rw [← Option.some.inj k]; exact wf_setBytes _ _ _ h1

theorem wf_useWalk (c : Ctx) (a : Acc) (va : Word) (w : Walk) (retry : State → Res Place) (hr : ∀ s, Wf s → ResAll Wf (retry s)) (s : State)
    (h : Wf s) : ResAll Wf (useWalk c a va w retry s) := by
  cases w with
  | leaf e at_ n ds =>
    refine resAll_ite (resAll_trap h) (resAll_ite (resAll_trap h) (resAll_ite (resAll_ok h) ?_))
    cases he : updateAD s c.by_ a e at_ with
    | none => exact hr _ h
    | some s1 => exact resAll_ok (wf_updateAD s s1 c.by_ a e at_ h he)
  | _ => exact resAll_trap h

theorem wf_translate (c : Ctx) (a : Acc) (va : Word) (s : State) (h : Wf s) : ResAll Wf (Machine.translate c a va s) := by
  unfold Machine.translate
  refine resAll_ite (resAll_ite (resAll_trap h) (resAll_ite (resAll_trap h) (resAll_ok h))) ?_
  refine resAll_andThen (wf_lookup c va s h) fun w s h => ?_
  refine wf_useWalk c a va w _ (fun s h => ?_) s h
  exact resAll_andThen (wf_walk c va s h) fun w s h => wf_useWalk c a va w _ (fun s h => resAll_wait h) s h

theorem wf_checkPoison (a : Acc) (va : Word) (p : Place) (s : State) (h : Wf s) : ResAll Wf (checkPoison a va p s) := by
  unfold checkPoison; split <;> exact h

theorem wf_landAt (a : Acc) (va : Word) (p : Place) (s : State) (h : Wf s) : ResAll Wf (landAt a va p s) :=
  resAll_andThen (wf_atHome _ s h) fun _ s h => wf_checkPoison a va p s h

theorem wf_copyLine (s : State) (b : By) (l : SLine) (p : Place) (h : Wf s) : Wf (copyLine s b l p).2 :=
  wf_onMem (fun _ => rfl) <| wf_setBytes _ _ _ (wf_readyRead _ _ _ _ (wf_l1Read _ _ _ _ (wf_drainWhere _ s h)))

theorem wf_fillLine (cx : Ctx) (a : Acc) (gva : Word) (l : SLine) (s : State) (h : Wf s) : ResAll Wf (fillLine cx a gva l s) := by
  unfold fillLine
  refine resAll_andThen (wf_translate _ _ _ _ h) fun p s h => resAll_ite ?_ ?_
  · exact resAll_andThen (wf_translate _ _ _ _ h) fun p s h => resAll_andThen (wf_landAt _ _ _ _ h) fun p s h => resAll_ok h
  · exact resAll_andThen (wf_landAt _ _ _ _ h) fun p s h => resAll_ok (wf_copyLine s cx.by_ l p h)

theorem wf_ownFirst (s : State) (pa : Nat) (h : Wf s) : Wf (ownFirst s pa) := by
  unfold ownFirst; split
  · split <;> [exact h; exact wf_drainWhere _ s h]
  · exact h

theorem wf_openLine (cx : Ctx) (a : Acc) (gva : Word) (l : SLine) (s : State) (h : Wf s) : ResAll Wf (openLine cx a gva l s) :=
  resAll_ite (resAll_trap h) (resAll_ite (resAll_ite (resAll_wait h) (wf_fillLine _ _ _ _ _ h)) (resAll_ok h))

theorem wf_dirtyLine (s : State) (b : By) (l : SLine) (h : Wf s) : Wf (dirtyLine s b l) :=
  wf_takeLine _ _ _ (wf_drainTranslated s b _ _ h)

theorem wf_useLine (cx : Ctx) (a : Acc) (gva : Word) (pa : Nat) (f : SLine ⊕ Place) (s : State) (h : Wf s) : ResAll Wf (useLine cx a gva pa f s) := by
  cases f with
  | inr p => exact resAll_ok h
  | inl l => exact resAll_ite (resAll_andThen (wf_translate _ _ _ _ h) fun _ s h => resAll_ok (wf_dirtyLine s cx.by_ l h)) (resAll_ok h)

theorem wf_stashLine (c : Ctx) (a : Acc) (pa : Nat) (s : State) (h : Wf s) : ResAll Wf (stashLine c a pa s) := by
  have h0 := wf_ownFirst s pa h
  unfold stashLine
  split
  · exact resAll_ok h0
  · exact resAll_mapTrap (resAll_andThen (wf_openLine _ _ _ _ _ h0) fun f s h => wf_useLine _ _ _ _ f s h)

theorem wf_enterPlace (c : Ctx) (a : Acc) (va : Word) (p : Place) (s : State) (h : Wf s) : ResAll Wf (enterPlace c a va p s) := by
  refine resAll_andThen (wf_landAt a va p s h) fun p s h => ?_
  cases homeOf p.pa <;> first | exact h | exact wf_stashLine c a p.pa s h

theorem wf_resolve (c : Ctx) (a : Acc) (va : Word) (len : Nat) (s : State) (h : Wf s) : ResAll Wf (resolve c a va len s) := by
  have tr : ResAll Wf ((Machine.translate c a va s).andThen fun pa s => enterPlace c a va pa s) :=
    resAll_andThen (wf_translate _ _ _ _ h) fun p s h => wf_enterPlace c a va p s h
  refine resAll_ite tr ?_
  generalize windowOf va = v
  generalize windowOf (va + BitVec.ofNat 64 (len - 1)) = w
  cases v <;> cases w <;> first
    | exact tr
    | exact h
    | exact resAll_ite (wf_enterPlace _ _ _ _ _ h) h
    | exact resAll_ite h (resAll_ite h (wf_enterPlace _ _ _ _ _ h))

theorem wf_resolveAligned (c : Ctx) (a : Acc) (va : Word) (len : Nat) (s : State) (h : Wf s) : ResAll Wf (resolveAligned c a va len s) :=
  resAll_ite h (wf_resolve c a va len s h)

-- ## Reading ahead

theorem wf_vecReady (s t : State) (ivl : Nat) (h : Wf s) (k : vecReady s ivl = some t) : Wf t := by
  have h1 := wf_performHeld ivl s h
  unfold vecReady at k
  dsimp only at k
  split at k
  · exact absurd k (by simp)
  · rw [← Option.some.inj k]; exact h1

theorem wf_peekAt (s : State) (p : Port) (va : Word) (n : Nat) (h : Wf s) : Wf (peekAt s p va n) := by
  have go : ∀ o : Option State, (∀ t, o = some t → Wf t) → Wf (match o with
      | none => s
      | some s0 =>
        match resolveAligned s0.ctx { kind := if p = .fetch then 0 else 1, spec := true } va n s0 with
        | .ok q s1 =>
          let r :=
            if p = .fetch then readBytes (roundTrip s1 q.pa) s1.me q.pa n
            else readNow (performFirst s1 (p == .scalar) false q.pa n) (p == .scalar) q n
          r.2.onMem fun m => { m with early := m.early ++ [⟨s.ct.lcore, s.ct.ctno, p, q.pa, r.1, q.deps, none, false⟩] }
        | _ => s) := by
    intro o ho
    split
    · exact h
    · have h0 := wf_resolveAligned ‹State›.ctx { kind := if p = .fetch then 0 else 1, spec := true } va n _ (ho _ rfl)
      split
      · rename_i he
        rw [he] at h0
        show Wf (Prod.snd (if p = .fetch then _ else _))
        split <;> [exact wf_readBytes _ _ _ _ (wf_askDie _ _ _ h0); exact wf_readNow _ _ _ _ (wf_performFirst _ _ _ _ _ h0)]
      · exact h
  refine go _ fun t ht => ?_
  split at ht
  · split at ht
    · cases ht
    · exact wf_vecReady s t _ h ht
  · cases ht; exact h

-- ## Atomics and the stash

theorem wf_recallLine (s : State) (b : By) (k : Hold) (pa : Nat) (h : Wf s) : Wf (recallLine s b k pa) :=
  wf_takeHostLine _ _ (wf_readyLine _ _ _ _ (wf_reopen s b pa h))

theorem wf_claimBytes (s : State) (b : By) (k : Hold) (pa n : Nat) (h : Wf s) : Wf (claimBytes s b k pa n).2 :=
  wf_recallLine _ _ _ _ (wf_settle _ _ _ (wf_drainTranslated _ _ _ _ (wf_drainFor _ s h)))

theorem wf_recallUnwritten (s : State) (k : Hold) (pa : Nat) (h : Wf s) : Wf (recallUnwritten s k pa) := wf_takeHostLine _ _ (wf_l1Write s k _ h)

theorem wf_performUpdate (s : State) (b : By) (k : Hold) (u : Update) (h : Wf s) : Wf (performUpdate s b k u).2 :=
  wf_setBytes _ _ _ (wf_markEarly _ _ _ _ (wf_claimBytes s _ _ _ _ h))

theorem m_onDie (s : State) (d : Nat) (f : Die → Die) : (s.onDie d f).m = s.m := by unfold State.onDie; split <;> rfl

theorem m_onCore (s : State) (n : Nat) (f : Core → Core) : (s.onCore n f).m = s.m := by unfold State.onCore; split <;> rfl

theorem wf_noteHeld (s : State) (dw : Nat) (u : Update) (h : Wf s) : Wf (noteHeld s dw u) := by unfold noteHeld; split <;> exact h

theorem wf_joinChain (s : State) (b : By) (k : Hold) (u : Update) (h : Wf s) : Wf (joinChain s b k u) := by
  have h0 := wf_drainTranslated s b u.addr 8 h
  have h1 : ∀ (pa n dw : Nat) (v : Update), Wf (noteHeld (markEarly (recallLine (drainTranslated s b u.addr 8) b k pa) b pa n) dw v) := fun pa n dw v =>
    wf_noteHeld _ dw v (wf_markEarly _ b pa n (wf_recallLine _ b k pa h0))
  unfold joinChain
  dsimp only
  split
  · unfold countEvent State.onEl Wf
    rw [m_onDie]
    refine wf_settleDword _ _ (wf_onMem (fun m => ?_) (h1 _ _ _ _))
    split <;> rfl
  · refine wf_onMem (fun m => ?_) (h1 _ _ _ _)
    split <;> rfl

theorem wf_leaveLate (s : State) (v : Bool) (p : Place) (o : LateOp) (d : LateDest) (h : Wf s) : Wf (leaveLate s v p o d) := by
  unfold leaveLate
  exact wf_onMem (fun _ => rfl) (wf_forgetEarly _ _ (wf_performFirst _ _ _ _ _ h))

theorem wf_sendUpdate (s : State) (z sc late : Bool) (p : Place) (w o : BitVec 3) (v : Word) (h : Wf s) : Wf (sendUpdate s z sc late p w o v) := by
  have h0 := wf_performFirst _ sc true p.pa (amoBytes w) (wf_dropOwn _ sc p.pa 8 (wf_drainAt s p.pa 8 h))
  unfold sendUpdate
  dsimp only
  split
  · exact wf_joinChain _ _ _ _ (wf_askDie _ _ _ h0)
  · split
    · exact wf_leaveLate _ _ _ _ _ h0
    · exact wf_performUpdate _ _ _ _ (wf_askDie _ _ _ h0)

theorem wf_performNth (s : State) (k : Nat) (h : Wf s) : Wf (performNth s k) := by
  unfold performNth
  split
  · split <;> [exact wf_performWhere _ s h; exact h]
  · exact h

-- ## Landing

theorem m_switchTo (s : State) (c n : Nat) : (s.switchTo c n).m = s.m := by unfold State.switchTo; split <;> rfl

theorem wf_landValue (l : Late) (got : List Byte × FFlags) (s : State) (h : Wf s) : Wf (landValue l got s) := by
  unfold landValue Wf
  split
  · split <;> exact h
  · rw [setX_m]; exact h
  · rw [setX_m]; exact h
  · exact h
  · exact h

theorem wf_asThread (s : State) (c n : Nat) (f : State → State) (hf : ∀ s, Wf s → Wf (f s)) (h : Wf s) : Wf (s.asThread c n f) := by
  unfold State.asThread Wf
  rw [m_switchTo]
  exact hf _ (by unfold Wf; rw [m_switchTo]; exact h)

/-- Late accesses land in registers: memory keeps its form. -/
theorem wf_landWhere (f : Late → Bool) (s : State) (h : Wf s) : Wf (landWhere f s) := by
  unfold landWhere
  split
  · exact h
  · exact foldl_keep (P := Wf) (fun s l h => wf_asThread s _ _ _ (wf_landValue l _) h) _ _ (wf_performWhere f s h)

theorem wf_landFor (i : Instr) (s : State) (h : Wf s) : Wf (landFor i s) := by unfold landFor; split <;> [exact h; exact wf_landWhere _ s h]

/-- With nothing left to perform late, nothing lands. -/
theorem landFor_none {s : State} (i : Instr) (h : s.m.late = []) : landFor i s = s := by simp [landFor, h]
theorem landAll_none {s : State} (h : s.m.late = []) : landAll s = s := by simp [landAll, landWhere, h]
theorem landHead_none {s : State} (h : s.m.late = []) : landHead s = s := by simp [landHead, h]

theorem wf_zeroRange (s : State) (pa len : Nat) (h : Wf s) : Wf (zeroRange s pa len) := by
  unfold zeroRange; split
  · exact h
  · exact mem_wf_filter _ (wf_clearPoison _ _ _ (wf_markEarly _ _ _ _ (wf_readyWrite s _ _ _ _ h)))

theorem wf_sunmapRange (s : State) (c off len : Nat) (h : Wf s) : Wf (sunmapRange s c off len) := by
  unfold sunmapRange; split
  · exact h
  · exact wf_zeroRange _ _ _ (wf_onMem (fun _ => rfl) (foldl_keep (P := Wf) wf_writeBackLine _ _ (wf_drainFor _ s h)))

theorem wf_releaseGrant (s : State) (c b l : Nat) (t : Word) (h : Wf s) : Wf (releaseGrant s c b l t) := by
  unfold releaseGrant Wf
  rw [m_onCore]
  exact wf_sunmapRange s c b l h

theorem wf_grantStash (s : State) (c b l : Nat) (t : Word) (h : Wf s) : Wf (grantStash s c b l t) := by
  unfold grantStash; split
  · exact h
  · dsimp only
    unfold Wf
    rw [m_onCore]
    exact wf_setBytes _ _ _ (wf_zeroRange s _ _ h)

theorem wf_cleanRange (off len : Nat) (s : State) (h : Wf s) : ResAll Wf (cleanRange off len s) := by
  unfold cleanRange
  refine resAll_foldRes (fun _ l s h => resAll_andThen (wf_atHome l.pa s h) fun _ s h => ?_) _ _ _ (wf_drainFor _ s h)
  exact wf_onMem (fun _ => rfl) (wf_writeBackLine s l h)

/-- Memory is in its canonical form at reset. -/
theorem reset_wf : Wf State.reset := rfl

end Sys2Proof.Laws
end

