-- ==== Sys2Proof/Laws/PerInstr.lean ====
section
/-!
SUPPORT. Statements made per instruction. Encoding: the word that the encoder gives a well-formed instruction decodes to it.
-/

namespace Sys2Proof.Laws

-- one proof at a time: the proofs share the equations of decode and Instr.wf
set_option Elab.async false
set_option linter.unusedSimpArgs false

def Encoding.Statement (i : Instr) : Prop := i.wf = true → ∀ w, encode i = some w → decode w = some i

theorem ffmt_cases {f : BitVec 4} : ffmtOk f = true → f = 6 ∨ f = 7 ∨ f = 8 ∨ f = 9 := by revert f; decide
theorem ne_zero_of_one_le {h : BitVec 5} : 1#5 ≤ h → ¬ h = 0#5 := by revert h; decide
theorem not_lt_of_four_le {q : BitVec 5} : 4#5 ≤ q → ¬ q < 4#5 := by revert q; decide
theorem bv1_cases (k : BitVec 1) : k = 0 ∨ k = 1 := by revert k; decide
theorem bv2_cases (k : BitVec 2) : k = 0 ∨ k = 1 ∨ k = 2 ∨ k = 3 := by revert k; decide

theorem Encoding.add (d : Reg) (a : Reg) (b : Reg) : Encoding.Statement (.add d a b) := by
  intro h w hw
  cases hw
  simp_all [decode, ok, okIf, Instr.wf, decAlu]
theorem Encoding.sub (d : Reg) (a : Reg) (b : Reg) : Encoding.Statement (.sub d a b) := by
  intro h w hw
  cases hw
  simp_all [decode, ok, okIf, Instr.wf, decAlu]
theorem Encoding.and (d : Reg) (a : Reg) (b : Reg) : Encoding.Statement (.and d a b) := by
  intro h w hw
  cases hw
  simp_all [decode, ok, okIf, Instr.wf, decAlu]
theorem Encoding.or (d : Reg) (a : Reg) (b : Reg) : Encoding.Statement (.or d a b) := by
  intro h w hw
  cases hw
  simp_all [decode, ok, okIf, Instr.wf, decAlu]
theorem Encoding.xor (d : Reg) (a : Reg) (b : Reg) : Encoding.Statement (.xor d a b) := by
  intro h w hw
  cases hw
  simp_all [decode, ok, okIf, Instr.wf, decAlu]
theorem Encoding.shl (d : Reg) (a : Reg) (b : Reg) : Encoding.Statement (.shl d a b) := by
  intro h w hw
  cases hw
  simp_all [decode, ok, okIf, Instr.wf, decAlu]
theorem Encoding.shr (d : Reg) (a : Reg) (b : Reg) : Encoding.Statement (.shr d a b) := by
  intro h w hw
  cases hw
  simp_all [decode, ok, okIf, Instr.wf, decAlu]
theorem Encoding.sar (d : Reg) (a : Reg) (b : Reg) : Encoding.Statement (.sar d a b) := by
  intro h w hw
  cases hw
  simp_all [decode, ok, okIf, Instr.wf, decAlu]
theorem Encoding.slt (d : Reg) (a : Reg) (b : Reg) : Encoding.Statement (.slt d a b) := by
  intro h w hw
  cases hw
  simp_all [decode, ok, okIf, Instr.wf, decAlu]
theorem Encoding.sltu (d : Reg) (a : Reg) (b : Reg) : Encoding.Statement (.sltu d a b) := by
  intro h w hw
  cases hw
  simp_all [decode, ok, okIf, Instr.wf, decAlu]
theorem Encoding.mul (d : Reg) (a : Reg) (b : Reg) : Encoding.Statement (.mul d a b) := by
  intro h w hw
  cases hw
  simp_all [decode, ok, okIf, Instr.wf, decAlu]
theorem Encoding.mulh (d : Reg) (a : Reg) (b : Reg) : Encoding.Statement (.mulh d a b) := by
  intro h w hw
  cases hw
  simp_all [decode, ok, okIf, Instr.wf, decAlu]
theorem Encoding.mulhu (d : Reg) (a : Reg) (b : Reg) : Encoding.Statement (.mulhu d a b) := by
  intro h w hw
  cases hw
  simp_all [decode, ok, okIf, Instr.wf, decAlu]
theorem Encoding.div (d : Reg) (a : Reg) (b : Reg) : Encoding.Statement (.div d a b) := by
  intro h w hw
  cases hw
  simp_all [decode, ok, okIf, Instr.wf, decAlu]
theorem Encoding.divu (d : Reg) (a : Reg) (b : Reg) : Encoding.Statement (.divu d a b) := by
  intro h w hw
  cases hw
  simp_all [decode, ok, okIf, Instr.wf, decAlu]
theorem Encoding.rem (d : Reg) (a : Reg) (b : Reg) : Encoding.Statement (.rem d a b) := by
  intro h w hw
  cases hw
  simp_all [decode, ok, okIf, Instr.wf, decAlu]
theorem Encoding.remu (d : Reg) (a : Reg) (b : Reg) : Encoding.Statement (.remu d a b) := by
  intro h w hw
  cases hw
  simp_all [decode, ok, okIf, Instr.wf, decAlu]
theorem Encoding.min (d : Reg) (a : Reg) (b : Reg) : Encoding.Statement (.min d a b) := by
  intro h w hw
  cases hw
  simp_all [decode, ok, okIf, Instr.wf, decAlu]
theorem Encoding.max (d : Reg) (a : Reg) (b : Reg) : Encoding.Statement (.max d a b) := by
  intro h w hw
  cases hw
  simp_all [decode, ok, okIf, Instr.wf, decAlu]
theorem Encoding.popc (d : Reg) (a : Reg) : Encoding.Statement (.popc d a) := by
  intro h w hw
  cases hw
  simp_all [decode, ok, okIf, Instr.wf, decAlu]
theorem Encoding.addImm (d : Reg) (a : Reg) (i : BitVec 16) : Encoding.Statement (.addImm d a i) := by
  intro h w hw
  cases hw
  simp_all [decode, ok, okIf, Instr.wf]
theorem Encoding.subImm (d : Reg) (a : Reg) (i : BitVec 16) : Encoding.Statement (.subImm d a i) := by
  intro h w hw
  cases hw
  simp_all [decode, ok, okIf, Instr.wf]
theorem Encoding.andImm (d : Reg) (a : Reg) (i : BitVec 16) : Encoding.Statement (.andImm d a i) := by
  intro h w hw
  cases hw
  simp_all [decode, ok, okIf, Instr.wf]
theorem Encoding.orImm (d : Reg) (a : Reg) (i : BitVec 16) : Encoding.Statement (.orImm d a i) := by
  intro h w hw
  cases hw
  simp_all [decode, ok, okIf, Instr.wf]
theorem Encoding.xorImm (d : Reg) (a : Reg) (i : BitVec 16) : Encoding.Statement (.xorImm d a i) := by
  intro h w hw
  cases hw
  simp_all [decode, ok, okIf, Instr.wf]
theorem Encoding.shlImm (d : Reg) (a : Reg) (n : BitVec 6) : Encoding.Statement (.shlImm d a n) := by
  intro h w hw
  cases hw
  simp_all [decode, ok, okIf, Instr.wf, decShift]
theorem Encoding.shrImm (d : Reg) (a : Reg) (n : BitVec 6) : Encoding.Statement (.shrImm d a n) := by
  intro h w hw
  cases hw
  simp_all [decode, ok, okIf, Instr.wf, decShift]
theorem Encoding.sarImm (d : Reg) (a : Reg) (n : BitVec 6) : Encoding.Statement (.sarImm d a n) := by
  intro h w hw
  cases hw
  simp_all [decode, ok, okIf, Instr.wf, decShift]
theorem Encoding.sltImm (d : Reg) (a : Reg) (i : BitVec 16) : Encoding.Statement (.sltImm d a i) := by
  intro h w hw
  cases hw
  simp_all [decode, ok, okIf, Instr.wf]
theorem Encoding.sltuImm (d : Reg) (a : Reg) (i : BitVec 16) : Encoding.Statement (.sltuImm d a i) := by
  intro h w hw
  cases hw
  simp_all [decode, ok, okIf, Instr.wf]
theorem Encoding.mulImm (d : Reg) (a : Reg) (i : BitVec 16) : Encoding.Statement (.mulImm d a i) := by
  intro h w hw
  cases hw
  simp_all [decode, ok, okIf, Instr.wf]
theorem Encoding.minImm (d : Reg) (a : Reg) (i : BitVec 16) : Encoding.Statement (.minImm d a i) := by
  intro h w hw
  cases hw
  simp_all [decode, ok, okIf, Instr.wf]
theorem Encoding.maxImm (d : Reg) (a : Reg) (i : BitVec 16) : Encoding.Statement (.maxImm d a i) := by
  intro h w hw
  cases hw
  simp_all [decode, ok, okIf, Instr.wf]
theorem Encoding.lim (d : Reg) (i : BitVec 16) : Encoding.Statement (.lim d i) := by
  intro h w hw
  cases hw
  simp_all [decode, ok, okIf, Instr.wf]
theorem Encoding.limInsert (d : Reg) (h : BitVec 5) (i : BitVec 16) : Encoding.Statement (.limInsert d h i) := by
  intro wf w hw
  cases hw
  have wf' : 1#5 ≤ h ∧ h ≤ 3#5 := by simpa [Instr.wf] using wf
  simp [decode, ok, Instr.wf, ne_zero_of_one_le wf'.1, wf']
theorem Encoding.addpc (d : Reg) (o : BitVec 21) : Encoding.Statement (.addpc d o) := by
  intro h w hw
  cases hw
  simp_all [decode, ok, okIf, Instr.wf]
theorem Encoding.nop  : Encoding.Statement (.nop) := by
  intro h w hw
  cases hw
  simp_all [decode, ok, okIf, Instr.wf, decHint]
theorem Encoding.hint (h : BitVec 21) : Encoding.Statement (.hint h) := by
  intro h w hw
  cases hw
  simp_all [decode, ok, okIf, Instr.wf, decHint]
theorem Encoding.land  : Encoding.Statement (.land) := by
  intro h w hw
  cases hw
  simp_all [decode, ok, okIf, Instr.wf, decHint]
theorem Encoding.landTask  : Encoding.Statement (.landTask) := by
  intro h w hw
  cases hw
  simp_all [decode, ok, okIf, Instr.wf, decHint]
theorem Encoding.ld (d : Reg) (a : Reg) (m : BitVec 5) (i : BitVec 11) : Encoding.Statement (.ld d a m i) := by
  intro h w hw
  cases hw
  simp_all [decode, ok, okIf, Instr.wf]
theorem Encoding.st (v : Reg) (a : Reg) (m : BitVec 5) (i : BitVec 11) : Encoding.Statement (.st v a m i) := by
  intro h w hw
  cases hw
  simp_all [decode, ok, okIf, Instr.wf]
theorem Encoding.br (c : BitVec 4) (a : Reg) (b : Reg) (o : BitVec 12) : Encoding.Statement (.br c a b o) := by
  intro h w hw
  cases hw
  simp_all [decode, ok, okIf, Instr.wf]
theorem Encoding.jmp (o : BitVec 21) : Encoding.Statement (.jmp o) := by
  intro h w hw
  cases hw
  simp_all [decode, ok, okIf, Instr.wf]
theorem Encoding.jal (o : BitVec 21) : Encoding.Statement (.jal o) := by
  intro h w hw
  cases hw
  simp_all [decode, ok, okIf, Instr.wf]
theorem Encoding.jalr (d : Reg) (a : Reg) (i : BitVec 16) : Encoding.Statement (.jalr d a i) := by
  intro h w hw
  cases hw
  simp_all [decode, ok, okIf, Instr.wf]
theorem Encoding.fadd (f : BitVec 4) (d : Reg) (a : Reg) (b : Reg) (r : BitVec 3) : Encoding.Statement (.fadd f d a b r) := by
  intro h w hw
  cases hw
  rcases ffmt_cases (by simp_all [Instr.wf] : ffmtOk f = true) with rfl | rfl | rfl | rfl <;> simp_all [decode, ok, okIf, Instr.wf, decFp, fmaj]
theorem Encoding.fsub (f : BitVec 4) (d : Reg) (a : Reg) (b : Reg) (r : BitVec 3) : Encoding.Statement (.fsub f d a b r) := by
  intro h w hw
  cases hw
  rcases ffmt_cases (by simp_all [Instr.wf] : ffmtOk f = true) with rfl | rfl | rfl | rfl <;> simp_all [decode, ok, okIf, Instr.wf, decFp, fmaj]
theorem Encoding.fmul (f : BitVec 4) (d : Reg) (a : Reg) (b : Reg) (r : BitVec 3) : Encoding.Statement (.fmul f d a b r) := by
  intro h w hw
  cases hw
  rcases ffmt_cases (by simp_all [Instr.wf] : ffmtOk f = true) with rfl | rfl | rfl | rfl <;> simp_all [decode, ok, okIf, Instr.wf, decFp, fmaj]
theorem Encoding.fdiv (f : BitVec 4) (d : Reg) (a : Reg) (b : Reg) (r : BitVec 3) : Encoding.Statement (.fdiv f d a b r) := by
  intro h w hw
  cases hw
  rcases ffmt_cases (by simp_all [Instr.wf] : ffmtOk f = true) with rfl | rfl | rfl | rfl <;> simp_all [decode, ok, okIf, Instr.wf, decFp, fmaj]
theorem Encoding.fsqrt (f : BitVec 4) (d : Reg) (a : Reg) (r : BitVec 3) : Encoding.Statement (.fsqrt f d a r) := by
  intro h w hw
  cases hw
  rcases ffmt_cases (by simp_all [Instr.wf] : ffmtOk f = true) with rfl | rfl | rfl | rfl <;> simp_all [decode, ok, okIf, Instr.wf, decFp, fmaj]
theorem Encoding.fma (f : BitVec 4) (d : Reg) (a : Reg) (b : Reg) (c : Reg) (r : BitVec 3) : Encoding.Statement (.fma f d a b c r) := by
  intro h w hw
  cases hw
  rcases ffmt_cases (by simp_all [Instr.wf] : ffmtOk f = true) with rfl | rfl | rfl | rfl <;> simp_all [decode, ok, okIf, Instr.wf, decFp, fmaj]
theorem Encoding.fmin (f : BitVec 4) (d : Reg) (a : Reg) (b : Reg) : Encoding.Statement (.fmin f d a b) := by
  intro h w hw
  cases hw
  rcases ffmt_cases (by simp_all [Instr.wf] : ffmtOk f = true) with rfl | rfl | rfl | rfl <;> simp_all [decode, ok, okIf, Instr.wf, decFp, fmaj]
theorem Encoding.fmax (f : BitVec 4) (d : Reg) (a : Reg) (b : Reg) : Encoding.Statement (.fmax f d a b) := by
  intro h w hw
  cases hw
  rcases ffmt_cases (by simp_all [Instr.wf] : ffmtOk f = true) with rfl | rfl | rfl | rfl <;> simp_all [decode, ok, okIf, Instr.wf, decFp, fmaj]
theorem Encoding.fcmp (d : Reg) (a : Reg) (b : Reg) (t : BitVec 5) (c : BitVec 4) : Encoding.Statement (.fcmp d a b t c) := by
  intro h w hw
  cases hw
  simp_all [decode, ok, okIf, Instr.wf, decFcmp]
theorem Encoding.fcvt (d : Reg) (a : Reg) (t : BitVec 5) (u : BitVec 5) (r : BitVec 3) : Encoding.Statement (.fcvt d a t u r) := by
  intro h w hw
  cases hw
  simp_all [decode, ok, okIf, Instr.wf, decFcmp]
theorem Encoding.fclass (d : Reg) (a : Reg) (t : BitVec 5) : Encoding.Statement (.fclass d a t) := by
  intro h w hw
  cases hw
  simp_all [decode, ok, okIf, Instr.wf, decFcmp]
theorem Encoding.sysc (n : BitVec 10) : Encoding.Statement (.sysc n) := by
  intro h w hw
  cases hw
  simp_all [decode, ok, okIf, Instr.wf, decSys]
theorem Encoding.brk (n : BitVec 10) : Encoding.Statement (.brk n) := by
  intro h w hw
  cases hw
  simp_all [decode, ok, okIf, Instr.wf, decSys]
theorem Encoding.sret  : Encoding.Statement (.sret) := by
  intro h w hw
  cases hw
  simp_all [decode, ok, okIf, Instr.wf, decSys]
theorem Encoding.csrr (d : Reg) (c : BitVec 10) : Encoding.Statement (.csrr d c) := by
  intro h w hw
  cases hw
  simp_all [decode, ok, okIf, Instr.wf, decSys]
theorem Encoding.csrw (v : Reg) (c : BitVec 10) : Encoding.Statement (.csrw v c) := by
  intro h w hw
  cases hw
  simp_all [decode, ok, okIf, Instr.wf, decSys]
theorem Encoding.waite  : Encoding.Statement (.waite) := by
  intro h w hw
  cases hw
  simp_all [decode, ok, okIf, Instr.wf, decSys]
theorem Encoding.amo (d : Reg) (a : Reg) (b : Reg) (sc : BitVec 3) (o : BitVec 2) (p : BitVec 3) (w : BitVec 3) : Encoding.Statement (.amo d a b sc o p w) := by
  intro h w hw
  cases hw
  simp_all [decode, ok, okIf, Instr.wf]
theorem Encoding.fence (sc : BitVec 3) (k : BitVec 2) : Encoding.Statement (.fence sc k) := by
  intro h w hw
  cases hw
  rcases bv2_cases k with rfl | rfl | rfl | rfl <;> simp_all [decode, ok, okIf, Instr.wf, decSync]
theorem Encoding.gjoin (a : Reg) : Encoding.Statement (.gjoin a) := by
  intro h w hw
  cases hw
  simp_all [decode, ok, okIf, Instr.wf, decSync]
theorem Encoding.gleave (a : Reg) : Encoding.Statement (.gleave a) := by
  intro h w hw
  cases hw
  simp_all [decode, ok, okIf, Instr.wf, decSync]
theorem Encoding.gsync (a : Reg) : Encoding.Statement (.gsync a) := by
  intro h w hw
  cases hw
  simp_all [decode, ok, okIf, Instr.wf, decSync]
theorem Encoding.ipost (c : Reg) (a : Reg) : Encoding.Statement (.ipost c a) := by
  intro h w hw
  cases hw
  simp_all [decode, ok, okIf, Instr.wf, decSync]
theorem Encoding.iwait (c : Reg) (a : Reg) : Encoding.Statement (.iwait c a) := by
  intro h w hw
  cases hw
  simp_all [decode, ok, okIf, Instr.wf, decSync]
theorem Encoding.cas (d : Reg) (a : Reg) (b : Reg) (sc : BitVec 3) (o : BitVec 2) (w : BitVec 1) : Encoding.Statement (.cas d a b sc o w) := by
  intro h w hw
  cases hw
  rcases bv1_cases w with rfl | rfl <;> simp_all [decode, ok, okIf, Instr.wf, decSync]
theorem Encoding.qpush (q : Reg) (a : Reg) : Encoding.Statement (.qpush q a) := by
  intro h w hw
  cases hw
  simp_all [decode, ok, okIf, Instr.wf, decCtl]
theorem Encoding.qpop (d : Reg) (q : Reg) : Encoding.Statement (.qpop d q) := by
  intro h w hw
  cases hw
  have h' : 4#5 ≤ q ∧ q < 8#5 := by simpa [Instr.wf] using h
  simp [decode, okIf, Instr.wf, decCtl, not_lt_of_four_le h'.1, h']
theorem Encoding.qpopVector (d : Reg) (q : Reg) : Encoding.Statement (.qpopVector d q) := by
  intro h w hw
  cases hw
  simp_all [decode, ok, okIf, Instr.wf, decCtl]
theorem Encoding.qcnt (d : Reg) (q : Reg) : Encoding.Statement (.qcnt d q) := by
  intro h w hw
  cases hw
  simp_all [decode, ok, okIf, Instr.wf, decCtl]
theorem Encoding.talloc (d : Reg) : Encoding.Statement (.talloc d) := by
  intro h w hw
  cases hw
  simp_all [decode, ok, okIf, Instr.wf, decCtl]
theorem Encoding.tfree (a : Reg) : Encoding.Statement (.tfree a) := by
  intro h w hw
  cases hw
  simp_all [decode, ok, okIf, Instr.wf, decCtl]
theorem Encoding.tspawn (a : Reg) (b : Reg) : Encoding.Statement (.tspawn a b) := by
  intro h w hw
  cases hw
  simp_all [decode, ok, okIf, Instr.wf, decCtl]
theorem Encoding.tend (a : Reg) : Encoding.Statement (.tend a) := by
  intro h w hw
  cases hw
  simp_all [decode, ok, okIf, Instr.wf, decCtl]
theorem Encoding.tparkGroup (a : Reg) : Encoding.Statement (.tparkGroup a) := by
  intro h w hw
  cases hw
  simp_all [decode, ok, okIf, Instr.wf, decCtl]
theorem Encoding.tparkRing (c : Reg) (a : Reg) : Encoding.Statement (.tparkRing c a) := by
  intro h w hw
  cases hw
  simp_all [decode, ok, okIf, Instr.wf, decCtl]
theorem Encoding.tparkTag (a : Reg) : Encoding.Statement (.tparkTag a) := by
  intro h w hw
  cases hw
  simp_all [decode, ok, okIf, Instr.wf, decCtl]
theorem Encoding.smap (a : Reg) (b : Reg) (c : Reg) : Encoding.Statement (.smap a b c) := by
  intro h w hw
  cases hw
  simp_all [decode, ok, okIf, Instr.wf, decCtl]
theorem Encoding.sunmap (a : Reg) (b : Reg) : Encoding.Statement (.sunmap a b) := by
  intro h w hw
  cases hw
  simp_all [decode, ok, okIf, Instr.wf, decCtl]
theorem Encoding.sflush (a : Reg) (b : Reg) : Encoding.Statement (.sflush a b) := by
  intro h w hw
  cases hw
  simp_all [decode, ok, okIf, Instr.wf, decCtl]
theorem Encoding.uret  : Encoding.Statement (.uret) := by
  intro h w hw
  cases hw
  simp_all [decode, ok, okIf, Instr.wf, decCtl]
theorem Encoding.tmark (a : Reg) : Encoding.Statement (.tmark a) := by
  intro h w hw
  cases hw
  simp_all [decode, ok, okIf, Instr.wf, decCtl]
theorem Encoding.algld (t : Reg) (a : Reg) : Encoding.Statement (.algld t a) := by
  intro h w hw
  cases hw
  simp_all [decode, ok, okIf, Instr.wf, decCtl]
theorem Encoding.nset (d : Reg) (a : Reg) (b : Reg) : Encoding.Statement (.nset d a b) := by
  intro h w hw
  cases hw
  simp_all [decode, ok, okIf, Instr.wf, decCtl]
theorem Encoding.nloop (k : BitVec 5) : Encoding.Statement (.nloop k) := by
  intro h w hw
  cases hw
  simp_all [decode, ok, okIf, Instr.wf, decCtl]
theorem Encoding.xcopy (t : Reg) (a : Reg) : Encoding.Statement (.xcopy t a) := by
  intro h w hw
  cases hw
  simp_all [decode, ok, okIf, Instr.wf, decEng]
theorem Encoding.xgath (t : Reg) (a : Reg) : Encoding.Statement (.xgath t a) := by
  intro h w hw
  cases hw
  simp_all [decode, ok, okIf, Instr.wf, decEng]
theorem Encoding.xcoll (t : Reg) (a : Reg) : Encoding.Statement (.xcoll t a) := by
  intro h w hw
  cases hw
  simp_all [decode, ok, okIf, Instr.wf, decEng]
theorem Encoding.xwait (t : Reg) : Encoding.Statement (.xwait t) := by
  intro h w hw
  cases hw
  simp_all [decode, ok, okIf, Instr.wf, decEng]
theorem Encoding.vcfg (d : Reg) (a : Reg) (e : BitVec 4) (g : BitVec 2) (t : BitVec 2) (m : BitVec 1) (sc : BitVec 3) : Encoding.Statement (.vcfg d a e g t m sc) := by
  intro h w hw
  cases hw
  simp_all [decode, ok, okIf, Instr.wf, decVcfg]
theorem Encoding.vid (d : Reg) (p : BitVec 3) (z : BitVec 1) : Encoding.Statement (.vid d p z) := by
  intro h w hw
  cases hw
  simp_all [decode, ok, okIf, Instr.wf, decMove]
theorem Encoding.vsplat (d : Reg) (b : Reg) (p : BitVec 3) (z : BitVec 1) (f : BitVec 2) : Encoding.Statement (.vsplat d b p z f) := by
  intro h w hw
  cases hw
  simp_all [decode, ok, okIf, Instr.wf, decMove]
theorem Encoding.vmv (d : Reg) (a : Reg) (p : BitVec 3) (z : BitVec 1) : Encoding.Statement (.vmv d a p z) := by
  intro h w hw
  cases hw
  simp_all [decode, ok, okIf, Instr.wf, decMove]
theorem Encoding.vext (d : Reg) (a : Reg) (b : Reg) (z : BitVec 1) (f : BitVec 2) : Encoding.Statement (.vext d a b z f) := by
  intro h w hw
  cases hw
  simp_all [decode, ok, okIf, Instr.wf, decMove]
theorem Encoding.vlast (d : Reg) (a : Reg) (p : BitVec 3) (z : BitVec 1) : Encoding.Statement (.vlast d a p z) := by
  intro h w hw
  cases hw
  simp_all [decode, ok, okIf, Instr.wf, decMove]
theorem Encoding.vextQ (q : Reg) (a : Reg) (b : Reg) (z : BitVec 1) (f : BitVec 2) : Encoding.Statement (.vextQ q a b z f) := by
  intro h w hw
  cases hw
  simp_all [decode, ok, okIf, Instr.wf, decMove]
theorem Encoding.vlastQ (q : Reg) (a : Reg) (p : BitVec 3) (z : BitVec 1) : Encoding.Statement (.vlastQ q a p z) := by
  intro h w hw
  cases hw
  simp_all [decode, ok, okIf, Instr.wf, decMove]
theorem Encoding.vadd (d : Reg) (a : Reg) (b : Reg) (p : BitVec 3) (z : BitVec 1) (f : BitVec 2) : Encoding.Statement (.vadd d a b p z f) := by
  intro h w hw
  cases hw
  simp_all [decode, ok, okIf, Instr.wf, decVint]
theorem Encoding.vsub (d : Reg) (a : Reg) (b : Reg) (p : BitVec 3) (z : BitVec 1) (f : BitVec 2) : Encoding.Statement (.vsub d a b p z f) := by
  intro h w hw
  cases hw
  simp_all [decode, ok, okIf, Instr.wf, decVint]
theorem Encoding.vmul (d : Reg) (a : Reg) (b : Reg) (p : BitVec 3) (z : BitVec 1) (f : BitVec 2) : Encoding.Statement (.vmul d a b p z f) := by
  intro h w hw
  cases hw
  simp_all [decode, ok, okIf, Instr.wf, decVint]
theorem Encoding.vmulh (d : Reg) (a : Reg) (b : Reg) (p : BitVec 3) (z : BitVec 1) (f : BitVec 2) : Encoding.Statement (.vmulh d a b p z f) := by
  intro h w hw
  cases hw
  simp_all [decode, ok, okIf, Instr.wf, decVint]
theorem Encoding.vmac (d : Reg) (a : Reg) (b : Reg) (p : BitVec 3) (z : BitVec 1) (f : BitVec 2) : Encoding.Statement (.vmac d a b p z f) := by
  intro h w hw
  cases hw
  simp_all [decode, ok, okIf, Instr.wf, decVint]
theorem Encoding.vdiv (d : Reg) (a : Reg) (b : Reg) (p : BitVec 3) (z : BitVec 1) (f : BitVec 2) : Encoding.Statement (.vdiv d a b p z f) := by
  intro h w hw
  cases hw
  simp_all [decode, ok, okIf, Instr.wf, decVint]
theorem Encoding.vmin (d : Reg) (a : Reg) (b : Reg) (p : BitVec 3) (z : BitVec 1) (f : BitVec 2) : Encoding.Statement (.vmin d a b p z f) := by
  intro h w hw
  cases hw
  simp_all [decode, ok, okIf, Instr.wf, decVint]
theorem Encoding.vmax (d : Reg) (a : Reg) (b : Reg) (p : BitVec 3) (z : BitVec 1) (f : BitVec 2) : Encoding.Statement (.vmax d a b p z f) := by
  intro h w hw
  cases hw
  simp_all [decode, ok, okIf, Instr.wf, decVint]
theorem Encoding.vand (d : Reg) (a : Reg) (b : Reg) (p : BitVec 3) (z : BitVec 1) (f : BitVec 2) : Encoding.Statement (.vand d a b p z f) := by
  intro h w hw
  cases hw
  simp_all [decode, ok, okIf, Instr.wf, decVint]
theorem Encoding.vor (d : Reg) (a : Reg) (b : Reg) (p : BitVec 3) (z : BitVec 1) (f : BitVec 2) : Encoding.Statement (.vor d a b p z f) := by
  intro h w hw
  cases hw
  simp_all [decode, ok, okIf, Instr.wf, decVint]
theorem Encoding.vxor (d : Reg) (a : Reg) (b : Reg) (p : BitVec 3) (z : BitVec 1) (f : BitVec 2) : Encoding.Statement (.vxor d a b p z f) := by
  intro h w hw
  cases hw
  simp_all [decode, ok, okIf, Instr.wf, decVint]
theorem Encoding.vshl (d : Reg) (a : Reg) (b : Reg) (p : BitVec 3) (z : BitVec 1) (f : BitVec 2) : Encoding.Statement (.vshl d a b p z f) := by
  intro h w hw
  cases hw
  simp_all [decode, ok, okIf, Instr.wf, decVint]
theorem Encoding.vshr (d : Reg) (a : Reg) (b : Reg) (p : BitVec 3) (z : BitVec 1) (f : BitVec 2) : Encoding.Statement (.vshr d a b p z f) := by
  intro h w hw
  cases hw
  simp_all [decode, ok, okIf, Instr.wf, decVint]
theorem Encoding.vsar (d : Reg) (a : Reg) (b : Reg) (p : BitVec 3) (z : BitVec 1) (f : BitVec 2) : Encoding.Statement (.vsar d a b p z f) := by
  intro h w hw
  cases hw
  simp_all [decode, ok, okIf, Instr.wf, decVint]
theorem Encoding.vsadd (d : Reg) (a : Reg) (b : Reg) (p : BitVec 3) (z : BitVec 1) (f : BitVec 2) : Encoding.Statement (.vsadd d a b p z f) := by
  intro h w hw
  cases hw
  simp_all [decode, ok, okIf, Instr.wf, decVint]
theorem Encoding.vfadd (d : Reg) (a : Reg) (b : Reg) (p : BitVec 3) (z : BitVec 1) (f : BitVec 2) (r : BitVec 3) : Encoding.Statement (.vfadd d a b p z f r) := by
  intro h w hw
  cases hw
  simp_all [decode, ok, okIf, Instr.wf, decVfa]
theorem Encoding.vfsub (d : Reg) (a : Reg) (b : Reg) (p : BitVec 3) (z : BitVec 1) (f : BitVec 2) (r : BitVec 3) : Encoding.Statement (.vfsub d a b p z f r) := by
  intro h w hw
  cases hw
  simp_all [decode, ok, okIf, Instr.wf, decVfa]
theorem Encoding.vfmul (d : Reg) (a : Reg) (b : Reg) (p : BitVec 3) (z : BitVec 1) (f : BitVec 2) (r : BitVec 3) : Encoding.Statement (.vfmul d a b p z f r) := by
  intro h w hw
  cases hw
  simp_all [decode, ok, okIf, Instr.wf, decVfa]
theorem Encoding.vfdiv (d : Reg) (a : Reg) (b : Reg) (p : BitVec 3) (z : BitVec 1) (f : BitVec 2) (r : BitVec 3) : Encoding.Statement (.vfdiv d a b p z f r) := by
  intro h w hw
  cases hw
  simp_all [decode, ok, okIf, Instr.wf, decVfa]
theorem Encoding.vfmin (d : Reg) (a : Reg) (b : Reg) (p : BitVec 3) (z : BitVec 1) (f : BitVec 2) : Encoding.Statement (.vfmin d a b p z f) := by
  intro h w hw
  cases hw
  simp_all [decode, ok, okIf, Instr.wf, decVfm]
theorem Encoding.vfmax (d : Reg) (a : Reg) (b : Reg) (p : BitVec 3) (z : BitVec 1) (f : BitVec 2) : Encoding.Statement (.vfmax d a b p z f) := by
  intro h w hw
  cases hw
  simp_all [decode, ok, okIf, Instr.wf, decVfm]
theorem Encoding.vfscale (d : Reg) (a : Reg) (b : Reg) (p : BitVec 3) (z : BitVec 1) (f : BitVec 2) (r : BitVec 3) : Encoding.Statement (.vfscale d a b p z f r) := by
  intro h w hw
  cases hw
  simp_all [decode, ok, okIf, Instr.wf, decVfm]
theorem Encoding.vfsplit (d : Reg) (a : Reg) (p : BitVec 3) (z : BitVec 1) : Encoding.Statement (.vfsplit d a p z) := by
  intro h w hw
  cases hw
  simp_all [decode, ok, okIf, Instr.wf, decVfm]
theorem Encoding.vfsqrt (d : Reg) (a : Reg) (p : BitVec 3) (z : BitVec 1) (r : BitVec 3) : Encoding.Statement (.vfsqrt d a p z r) := by
  intro h w hw
  cases hw
  simp_all [decode, ok, okIf, Instr.wf, decVfu]
theorem Encoding.vfrsqe (d : Reg) (a : Reg) (p : BitVec 3) (z : BitVec 1) : Encoding.Statement (.vfrsqe d a p z) := by
  intro h w hw
  cases hw
  simp_all [decode, ok, okIf, Instr.wf, decVfu]
theorem Encoding.vfcvt (d : Reg) (a : Reg) (t : BitVec 5) (p : BitVec 3) (z : BitVec 1) (r : BitVec 3) : Encoding.Statement (.vfcvt d a t p z r) := by
  intro h w hw
  cases hw
  simp_all [decode, ok, okIf, Instr.wf, decVfu]
theorem Encoding.vfclass (d : Reg) (a : Reg) (p : BitVec 3) (z : BitVec 1) : Encoding.Statement (.vfclass d a p z) := by
  intro h w hw
  cases hw
  simp_all [decode, ok, okIf, Instr.wf, decVfu]
theorem Encoding.vfma (d : Reg) (a : Reg) (b : Reg) (c : Reg) (p : BitVec 3) (r : BitVec 3) : Encoding.Statement (.vfma d a b c p r) := by
  intro h w hw
  cases hw
  simp_all [decode, ok, okIf, Instr.wf]
theorem Encoding.vcmp (d : Reg) (a : Reg) (b : Reg) (p : BitVec 3) (z : BitVec 1) (f : BitVec 2) (c : BitVec 4) : Encoding.Statement (.vcmp d a b p z f c) := by
  intro h w hw
  cases hw
  simp_all [decode, ok, okIf, Instr.wf, decVcmp]
theorem Encoding.vfcmp (d : Reg) (a : Reg) (b : Reg) (p : BitVec 3) (z : BitVec 1) (f : BitVec 2) (c : BitVec 4) : Encoding.Statement (.vfcmp d a b p z f c) := by
  intro h w hw
  cases hw
  simp_all [decode, ok, okIf, Instr.wf, decVcmp]
theorem Encoding.vrsum (d : Reg) (a : Reg) (b : Reg) (p : BitVec 3) (z : BitVec 1) : Encoding.Statement (.vrsum d a b p z) := by
  intro h w hw
  cases hw
  simp_all [decode, ok, okIf, Instr.wf, decRed]
theorem Encoding.vrosum (d : Reg) (a : Reg) (b : Reg) (p : BitVec 3) (z : BitVec 1) : Encoding.Statement (.vrosum d a b p z) := by
  intro h w hw
  cases hw
  simp_all [decode, ok, okIf, Instr.wf, decRed]
theorem Encoding.vrmax (d : Reg) (a : Reg) (b : Reg) (p : BitVec 3) (z : BitVec 1) : Encoding.Statement (.vrmax d a b p z) := by
  intro h w hw
  cases hw
  simp_all [decode, ok, okIf, Instr.wf, decRed]
theorem Encoding.vrmin (d : Reg) (a : Reg) (b : Reg) (p : BitVec 3) (z : BitVec 1) : Encoding.Statement (.vrmin d a b p z) := by
  intro h w hw
  cases hw
  simp_all [decode, ok, okIf, Instr.wf, decRed]
theorem Encoding.vrlog (d : Reg) (a : Reg) (b : Reg) (p : BitVec 3) (z : BitVec 1) (k : BitVec 2) : Encoding.Statement (.vrlog d a b p z k) := by
  intro h w hw
  cases hw
  rcases bv2_cases k with rfl | rfl | rfl | rfl <;> simp_all [decode, ok, okIf, Instr.wf, decRed]
theorem Encoding.vrsumQ (q : Reg) (a : Reg) (b : Reg) (p : BitVec 3) (z : BitVec 1) : Encoding.Statement (.vrsumQ q a b p z) := by
  intro h w hw
  cases hw
  simp_all [decode, ok, okIf, Instr.wf, decRed]
theorem Encoding.vrosumQ (q : Reg) (a : Reg) (b : Reg) (p : BitVec 3) (z : BitVec 1) : Encoding.Statement (.vrosumQ q a b p z) := by
  intro h w hw
  cases hw
  simp_all [decode, ok, okIf, Instr.wf, decRed]
theorem Encoding.vrmaxQ (q : Reg) (a : Reg) (b : Reg) (p : BitVec 3) (z : BitVec 1) : Encoding.Statement (.vrmaxQ q a b p z) := by
  intro h w hw
  cases hw
  simp_all [decode, ok, okIf, Instr.wf, decRed]
theorem Encoding.vrminQ (q : Reg) (a : Reg) (b : Reg) (p : BitVec 3) (z : BitVec 1) : Encoding.Statement (.vrminQ q a b p z) := by
  intro h w hw
  cases hw
  simp_all [decode, ok, okIf, Instr.wf, decRed]
theorem Encoding.vrlogQ (q : Reg) (a : Reg) (b : Reg) (p : BitVec 3) (z : BitVec 1) (k : BitVec 2) : Encoding.Statement (.vrlogQ q a b p z k) := by
  intro h w hw
  cases hw
  rcases bv2_cases k with rfl | rfl | rfl | rfl <;> simp_all [decode, ok, okIf, Instr.wf, decRed]
theorem Encoding.vslup (d : Reg) (a : Reg) (b : Reg) (p : BitVec 3) (z : BitVec 1) (f : BitVec 2) : Encoding.Statement (.vslup d a b p z f) := by
  intro h w hw
  cases hw
  simp_all [decode, ok, okIf, Instr.wf, decPerm]
theorem Encoding.vsldn (d : Reg) (a : Reg) (b : Reg) (p : BitVec 3) (z : BitVec 1) (f : BitVec 2) : Encoding.Statement (.vsldn d a b p z f) := by
  intro h w hw
  cases hw
  simp_all [decode, ok, okIf, Instr.wf, decPerm]
theorem Encoding.vperm (d : Reg) (a : Reg) (b : Reg) (p : BitVec 3) (z : BitVec 1) : Encoding.Statement (.vperm d a b p z) := by
  intro h w hw
  cases hw
  simp_all [decode, ok, okIf, Instr.wf, decPerm]
theorem Encoding.vcompr (d : Reg) (a : Reg) (p : BitVec 3) (z : BitVec 1) : Encoding.Statement (.vcompr d a p z) := by
  intro h w hw
  cases hw
  simp_all [decode, ok, okIf, Instr.wf, decPerm]
theorem Encoding.vmerge (d : Reg) (a : Reg) (b : Reg) (p : BitVec 3) (z : BitVec 1) (f : BitVec 2) : Encoding.Statement (.vmerge d a b p z f) := by
  intro h w hw
  cases hw
  simp_all [decode, ok, okIf, Instr.wf, decPerm]
theorem Encoding.pand (d : Reg) (a : Reg) (b : Reg) (p : BitVec 3) (z : BitVec 1) : Encoding.Statement (.pand d a b p z) := by
  intro h w hw
  cases hw
  simp_all [decode, ok, okIf, Instr.wf, decPred]
theorem Encoding.por (d : Reg) (a : Reg) (b : Reg) (p : BitVec 3) (z : BitVec 1) : Encoding.Statement (.por d a b p z) := by
  intro h w hw
  cases hw
  simp_all [decode, ok, okIf, Instr.wf, decPred]
theorem Encoding.pxor (d : Reg) (a : Reg) (b : Reg) (p : BitVec 3) (z : BitVec 1) : Encoding.Statement (.pxor d a b p z) := by
  intro h w hw
  cases hw
  simp_all [decode, ok, okIf, Instr.wf, decPred]
theorem Encoding.pnot (d : Reg) (a : Reg) (p : BitVec 3) (z : BitVec 1) : Encoding.Statement (.pnot d a p z) := by
  intro h w hw
  cases hw
  simp_all [decode, ok, okIf, Instr.wf, decPred]
theorem Encoding.pset (d : Reg) (b : Reg) (p : BitVec 3) (z : BitVec 1) : Encoding.Statement (.pset d b p z) := by
  intro h w hw
  cases hw
  simp_all [decode, ok, okIf, Instr.wf, decPred]
theorem Encoding.pfirst (d : Reg) (a : Reg) (p : BitVec 3) (z : BitVec 1) : Encoding.Statement (.pfirst d a p z) := by
  intro h w hw
  cases hw
  simp_all [decode, ok, okIf, Instr.wf, decPred]
theorem Encoding.pbrkBefore (d : Reg) (a : Reg) (p : BitVec 3) (z : BitVec 1) : Encoding.Statement (.pbrkBefore d a p z) := by
  intro h w hw
  cases hw
  simp_all [decode, ok, okIf, Instr.wf, decPred]
theorem Encoding.pbrkThru (d : Reg) (a : Reg) (p : BitVec 3) (z : BitVec 1) : Encoding.Statement (.pbrkThru d a p z) := by
  intro h w hw
  cases hw
  simp_all [decode, ok, okIf, Instr.wf, decPred]
theorem Encoding.pcnt (d : Reg) (a : Reg) (p : BitVec 3) (z : BitVec 1) : Encoding.Statement (.pcnt d a p z) := by
  intro h w hw
  cases hw
  simp_all [decode, ok, okIf, Instr.wf, decPred]
theorem Encoding.pcntQ (q : Reg) (a : Reg) (p : BitVec 3) (z : BitVec 1) : Encoding.Statement (.pcntQ q a p z) := by
  intro h w hw
  cases hw
  simp_all [decode, ok, okIf, Instr.wf, decPred]
theorem Encoding.vdep (d : Reg) (a : Reg) (p : BitVec 3) (z : BitVec 1) : Encoding.Statement (.vdep d a p z) := by
  intro h w hw
  cases hw
  simp_all [decode, ok, okIf, Instr.wf, decDep]
theorem Encoding.vdepx (d : Reg) (a : Reg) (b : Reg) (p : BitVec 3) (z : BitVec 1) : Encoding.Statement (.vdepx d a b p z) := by
  intro h w hw
  cases hw
  simp_all [decode, ok, okIf, Instr.wf, decDep]
theorem Encoding.vpart (d : Reg) (a : Reg) (b : Reg) (z : BitVec 1) : Encoding.Statement (.vpart d a b z) := by
  intro h w hw
  cases hw
  simp_all [decode, ok, okIf, Instr.wf, decDep]
theorem Encoding.vamul (d : Reg) (a : Reg) (b : Reg) (p : BitVec 3) (z : BitVec 1) (g : BitVec 2) : Encoding.Statement (.vamul d a b p z g) := by
  intro h w hw
  cases hw
  simp_all [decode, ok, okIf, Instr.wf, decAlg]
theorem Encoding.vaconj (d : Reg) (a : Reg) (p : BitVec 3) (z : BitVec 1) (g : BitVec 2) : Encoding.Statement (.vaconj d a p z g) := by
  intro h w hw
  cases hw
  simp_all [decode, ok, okIf, Instr.wf, decAlg]
theorem Encoding.vaconjRev (d : Reg) (a : Reg) (p : BitVec 3) (z : BitVec 1) (g : BitVec 2) : Encoding.Statement (.vaconjRev d a p z g) := by
  intro h w hw
  cases hw
  simp_all [decode, ok, okIf, Instr.wf, decAlg]
theorem Encoding.vanorm (d : Reg) (a : Reg) (p : BitVec 3) (z : BitVec 1) (g : BitVec 2) : Encoding.Statement (.vanorm d a p z g) := by
  intro h w hw
  cases hw
  simp_all [decode, ok, okIf, Instr.wf, decAlg]
theorem Encoding.vasand (d : Reg) (a : Reg) (b : Reg) (p : BitVec 3) (z : BitVec 1) (g : BitVec 2) : Encoding.Statement (.vasand d a b p z g) := by
  intro h w hw
  cases hw
  simp_all [decode, ok, okIf, Instr.wf, decAlg]
theorem Encoding.vld (d : Reg) (a : Reg) (p : BitVec 3) (z : BitVec 1) (m : BitVec 5) : Encoding.Statement (.vld d a p z m) := by
  intro h w hw
  cases hw
  simp_all [decode, ok, okIf, Instr.wf, decVld]
theorem Encoding.vlds (d : Reg) (a : Reg) (b : Reg) (p : BitVec 3) (z : BitVec 1) (m : BitVec 5) : Encoding.Statement (.vlds d a b p z m) := by
  intro h w hw
  cases hw
  simp_all [decode, ok, okIf, Instr.wf, decVld]
theorem Encoding.vldx (d : Reg) (a : Reg) (b : Reg) (p : BitVec 3) (z : BitVec 1) (m : BitVec 5) : Encoding.Statement (.vldx d a b p z m) := by
  intro h w hw
  cases hw
  simp_all [decode, ok, okIf, Instr.wf, decVld]
theorem Encoding.vldff (d : Reg) (a : Reg) (b : Reg) (p : BitVec 3) (z : BitVec 1) (m : BitVec 5) : Encoding.Statement (.vldff d a b p z m) := by
  intro h w hw
  cases hw
  simp_all [decode, ok, okIf, Instr.wf, decVld]
theorem Encoding.vst (v : Reg) (a : Reg) (p : BitVec 3) (z : BitVec 1) (m : BitVec 5) : Encoding.Statement (.vst v a p z m) := by
  intro h w hw
  cases hw
  simp_all [decode, ok, okIf, Instr.wf, decVst]
theorem Encoding.vsts (v : Reg) (a : Reg) (b : Reg) (p : BitVec 3) (z : BitVec 1) (m : BitVec 5) : Encoding.Statement (.vsts v a b p z m) := by
  intro h w hw
  cases hw
  simp_all [decode, ok, okIf, Instr.wf, decVst]
theorem Encoding.vstx (v : Reg) (a : Reg) (b : Reg) (p : BitVec 3) (z : BitVec 1) (m : BitVec 5) : Encoding.Statement (.vstx v a b p z m) := by
  intro h w hw
  cases hw
  simp_all [decode, ok, okIf, Instr.wf, decVst]
theorem Encoding.vpref (a : Reg) (p : BitVec 3) (z : BitVec 1) (m : BitVec 5) : Encoding.Statement (.vpref a p z m) := by
  intro h w hw
  cases hw
  simp_all [decode, ok, okIf, Instr.wf, decVst]
theorem Encoding.vldseg (d : Reg) (a : Reg) (n : Reg) (p : BitVec 3) (z : BitVec 1) (m : BitVec 5) : Encoding.Statement (.vldseg d a n p z m) := by
  intro h w hw
  cases hw
  simp_all [decode, ok, okIf, Instr.wf, decSeg]
theorem Encoding.vstseg (v : Reg) (a : Reg) (n : Reg) (p : BitVec 3) (z : BitVec 1) (m : BitVec 5) : Encoding.Statement (.vstseg v a n p z m) := by
  intro h w hw
  cases hw
  simp_all [decode, ok, okIf, Instr.wf, decSeg]
theorem Encoding.vamo (v : Reg) (a : Reg) (b : Reg) (c : Reg) (p : BitVec 3) (o : BitVec 3) : Encoding.Statement (.vamo v a b c p o) := by
  intro h w hw
  cases hw
  simp_all [decode, ok, okIf, Instr.wf]
theorem Encoding.mmac (t : Reg) (a : Reg) (b : Reg) : Encoding.Statement (.mmac t a b) := by
  intro h w hw
  cases hw
  simp_all [decode, ok, okIf, Instr.wf, decTile]
theorem Encoding.mzero (t : Reg) : Encoding.Statement (.mzero t) := by
  intro h w hw
  cases hw
  simp_all [decode, ok, okIf, Instr.wf, decTile]
theorem Encoding.mldacc (t : Reg) (a : Reg) : Encoding.Statement (.mldacc t a) := by
  intro h w hw
  cases hw
  simp_all [decode, ok, okIf, Instr.wf, decTile]
theorem Encoding.mcb (c : Reg) (a : Reg) : Encoding.Statement (.mcb c a) := by
  intro h w hw
  cases hw
  simp_all [decode, ok, okIf, Instr.wf, decTile]
theorem Encoding.mfill (d : Reg) (a : Reg) (m : BitVec 5) (e : BitVec 1) (g : BitVec 2) (sd : BitVec 1) : Encoding.Statement (.mfill d a m e g sd) := by
  intro h w hw
  cases hw
  simp_all [decode, ok, okIf, Instr.wf, decFill]
theorem Encoding.mdrainMemory (t : Reg) (a : Reg) (b : Reg) (m : BitVec 5) : Encoding.Statement (.mdrainMemory t a b m) := by
  intro h w hw
  cases hw
  simp_all [decode, ok, okIf, Instr.wf, decFill]
theorem Encoding.mdrainRegister (t : Reg) (v : Reg) (m : BitVec 5) : Encoding.Statement (.mdrainRegister t v m) := by
  intro h w hw
  cases hw
  simp_all [decode, ok, okIf, Instr.wf, decFill]
theorem Encoding.laneIssue (core : Nat) : Encoding.Statement (.laneIssue core) := fun _ _ hw => nomatch hw
theorem Encoding.arrayIssue (core : Nat) : Encoding.Statement (.arrayIssue core) := fun _ _ hw => nomatch hw
theorem Encoding.vectorComplete (core : Nat) (ctno : Nat) : Encoding.Statement (.vectorComplete core ctno) := fun _ _ hw => nomatch hw
theorem Encoding.translationInvalidate (line : Nat) : Encoding.Statement (.translationInvalidate line) := fun _ _ hw => nomatch hw
theorem Encoding.writebackForward (line : Nat) : Encoding.Statement (.writebackForward line) := fun _ _ hw => nomatch hw
theorem Encoding.stashRemoteRead (line : Nat) : Encoding.Statement (.stashRemoteRead line) := fun _ _ hw => nomatch hw
theorem Encoding.stashRemoteWrite (line : Nat) : Encoding.Statement (.stashRemoteWrite line) := fun _ _ hw => nomatch hw
theorem Encoding.updateArrival (u : Update) : Encoding.Statement (.updateArrival u) := fun _ _ hw => nomatch hw
theorem Encoding.chainApply (dword : Nat) : Encoding.Statement (.chainApply dword) := fun _ _ hw => nomatch hw
theorem Encoding.taskStart (core : Nat) (ctno : Nat) : Encoding.Statement (.taskStart core ctno) := fun _ _ hw => nomatch hw
theorem Encoding.groupOpApply (g : Nat) (op : GroupOp) (m : Member) : Encoding.Statement (.groupOpApply g op m) := fun _ _ hw => nomatch hw
theorem Encoding.orderPointApply (chan : Nat) (v : Word) : Encoding.Statement (.orderPointApply chan v) := fun _ _ hw => nomatch hw
theorem Encoding.ringHop (chan : Nat) (die : Nat) : Encoding.Statement (.ringHop chan die) := fun _ _ hw => nomatch hw
theorem Encoding.jobStart (core : Nat) : Encoding.Statement (.jobStart core) := fun _ _ hw => nomatch hw
theorem Encoding.jobComplete (core : Nat) : Encoding.Statement (.jobComplete core) := fun _ _ hw => nomatch hw
theorem Encoding.jobPageFault (core : Nat) : Encoding.Statement (.jobPageFault core) := fun _ _ hw => nomatch hw
theorem Encoding.fillRowWrite (core : Nat) : Encoding.Statement (.fillRowWrite core) := fun _ _ hw => nomatch hw
theorem Encoding.ulDelivery  : Encoding.Statement (.ulDelivery) := fun _ _ hw => nomatch hw
theorem Encoding.preempt  : Encoding.Statement (.preempt) := fun _ _ hw => nomatch hw
theorem Encoding.contain  : Encoding.Statement (.contain) := fun _ _ hw => nomatch hw
theorem Encoding.pageAbsentService  : Encoding.Statement (.pageAbsentService) := fun _ _ hw => nomatch hw
theorem Encoding.panelRefill  : Encoding.Statement (.panelRefill) := fun _ _ hw => nomatch hw
theorem Encoding.trapReflect  : Encoding.Statement (.trapReflect) := fun _ _ hw => nomatch hw
theorem Encoding.taskTrapEnd  : Encoding.Statement (.taskTrapEnd) := fun _ _ hw => nomatch hw
theorem Encoding.tailSnoop (q : Nat) : Encoding.Statement (.tailSnoop q) := fun _ _ hw => nomatch hw
theorem Encoding.registerQueue (q : Nat) (qrec : List Byte) : Encoding.Statement (.registerQueue q qrec) := fun _ _ hw => nomatch hw
theorem Encoding.unregisterQueue (q : Nat) : Encoding.Statement (.unregisterQueue q) := fun _ _ hw => nomatch hw
theorem Encoding.setPowerCap (watts : Nat) : Encoding.Statement (.setPowerCap watts) := fun _ _ hw => nomatch hw
theorem Encoding.getFwInfo  : Encoding.Statement (.getFwInfo) := fun _ _ hw => nomatch hw
theorem Encoding.transferFw (image : List Byte) : Encoding.Statement (.transferFw image) := fun _ _ hw => nomatch hw
theorem Encoding.activateFw  : Encoding.Statement (.activateFw) := fun _ _ hw => nomatch hw
theorem Encoding.getMeasurements  : Encoding.Statement (.getMeasurements) := fun _ _ hw => nomatch hw
theorem Encoding.hostMemRead (addr : Nat) (len : Nat) : Encoding.Statement (.hostMemRead addr len) := fun _ _ hw => nomatch hw
theorem Encoding.hostMemWrite (addr : Nat) (bytes : List Byte) : Encoding.Statement (.hostMemWrite addr bytes) := fun _ _ hw => nomatch hw
theorem Encoding.backInvalidateResponse (line : Nat) : Encoding.Statement (.backInvalidateResponse line) := fun _ _ hw => nomatch hw
theorem Encoding.peerAccess (port : Nat) (off : Nat) (bytes : List Byte) : Encoding.Statement (.peerAccess port off bytes) := fun _ _ hw => nomatch hw
theorem Encoding.linkReplay (port : Nat) : Encoding.Statement (.linkReplay port) := fun _ _ hw => nomatch hw
theorem Encoding.deviceReset  : Encoding.Statement (.deviceReset) := fun _ _ hw => nomatch hw
theorem Encoding.readyReport (f : ReadyFn) : Encoding.Statement (.readyReport f) := fun _ _ hw => nomatch hw
theorem Encoding.memTrained (dev : Nat) : Encoding.Statement (.memTrained dev) := fun _ _ hw => nomatch hw
theorem Encoding.agentTimeout (a : Agent) : Encoding.Statement (.agentTimeout a) := fun _ _ hw => nomatch hw
theorem Encoding.internalError (a : Agent) : Encoding.Statement (.internalError a) := fun _ _ hw => nomatch hw
theorem Encoding.spareService (cluster : Nat) : Encoding.Statement (.spareService cluster) := fun _ _ hw => nomatch hw
theorem Encoding.columnFail (core : Nat) : Encoding.Statement (.columnFail core) := fun _ _ hw => nomatch hw
theorem Encoding.bstoreParityError (core : Nat) (row : Nat) : Encoding.Statement (.bstoreParityError core row) := fun _ _ hw => nomatch hw
theorem Encoding.clockChange (die : Nat) (code : BitVec 8) (cause : BitVec 8) : Encoding.Statement (.clockChange die code cause) := fun _ _ hw => nomatch hw
theorem Encoding.ectlClr (die : Nat) : Encoding.Statement (.ectlClr die) := fun _ _ hw => nomatch hw
theorem Encoding.ectlUnfreeze (die : Nat) : Encoding.Statement (.ectlUnfreeze die) := fun _ _ hw => nomatch hw
theorem Encoding.elostClear (die : Nat) : Encoding.Statement (.elostClear die) := fun _ _ hw => nomatch hw
theorem Encoding.counterClear (die : Nat) (k : Nat) : Encoding.Statement (.counterClear die k) := fun _ _ hw => nomatch hw
theorem Encoding.histClear (die : Nat) (core : Nat) (engine : Nat) : Encoding.Statement (.histClear die core engine) := fun _ _ hw => nomatch hw
theorem Encoding.trigFiredClear (die : Nat) (n : Nat) : Encoding.Statement (.trigFiredClear die n) := fun _ _ hw => nomatch hw
theorem Encoding.electrumRegisterWrite (die : Nat) (off : Nat) (v : Word) : Encoding.Statement (.electrumRegisterWrite die off v) := fun _ _ hw => nomatch hw
theorem Encoding.engineRequestDone (core : Nat) (engine : Nat) (latency : Nat) : Encoding.Statement (.engineRequestDone core engine latency) := fun _ _ hw => nomatch hw
theorem Encoding.triggerGlobalArrival (die : Nat) (acts : TrigActs) (carried : Nat) : Encoding.Statement (.triggerGlobalArrival die acts carried) := fun _ _ hw => nomatch hw
theorem Encoding.illegalInstruction (w : IWord) : Encoding.Statement (.illegalInstruction w) := fun _ _ hw => nomatch hw
theorem Encoding.storeBufferDrain  : Encoding.Statement (.storeBufferDrain) := fun _ _ hw => nomatch hw
theorem Encoding.dirtyWriteback (line : Nat) : Encoding.Statement (.dirtyWriteback line) := fun _ _ hw => nomatch hw
theorem Encoding.hardwarePrefetch (va : Word) : Encoding.Statement (.hardwarePrefetch va) := fun _ _ hw => nomatch hw
theorem Encoding.cxlCacheSnoop (line : Nat) : Encoding.Statement (.cxlCacheSnoop line) := fun _ _ hw => nomatch hw
theorem Encoding.memDeviceFailure (dev : Nat) : Encoding.Statement (.memDeviceFailure dev) := fun _ _ hw => nomatch hw
theorem Encoding.spillAreaExtension (core : Nat) (more : Nat) : Encoding.Statement (.spillAreaExtension core more) := fun _ _ hw => nomatch hw
theorem Encoding.codeObjectLoad (image : List Byte) (pa : Nat) (va : Word) (profset : BitVec 4) : Encoding.Statement (.codeObjectLoad image pa va profset) := fun _ _ hw => nomatch hw
theorem Encoding.spdmRequest (req : List Byte) : Encoding.Statement (.spdmRequest req) := fun _ _ hw => nomatch hw

end Sys2Proof.Laws
end

