-- ==== Sys2Proof/Tests/Slice0.lean ====
section
/-!
SUPPORT. The model's own tests: ill-formed instructions refused, words written out from the encoding tables, one-step tests, and for each statement of
the certificate a state and operands that meet its hypotheses.
-/

namespace Sys2Proof.Tests

set_option Elab.async false

open Sys2Proof Sys2Proof.Machine Sys2Proof.Laws

-- ## Ill-formed instructions: one for each check

theorem test_illFormed_scalar : ∀ i ∈ ([
    .limInsert 1 0 0, .limInsert 1 4 0, .hint 0, .ld 1 2 0 0, .st 1 2 0x0E 0, .br 10 1 2 0, .fadd 5 1 2 3 0, .fadd 6 1 2 3 6, .fsub 10 1 2 3 0, 
    .fsub 6 1 2 3 6, .fmul 5 1 2 3 0, .fmul 6 1 2 3 6, .fdiv 10 1 2 3 0, .fdiv 6 1 2 3 6, .fsqrt 5 1 2 0, .fsqrt 6 1 2 6, .fma 10 1 2 3 4 0, 
    .fma 6 1 2 3 4 6, .fmin 5 1 2 3, .fmax 10 1 2 3, .fcmp 1 2 3 9 0, .fcmp 1 2 3 12 6, .fcvt 1 2 14 12 0, .fcvt 1 2 12 14 0, .fcvt 1 2 7 0 0, 
    .fcvt 1 2 12 0 6, .fclass 1 2 14, .csrr 1 0x00E, .csrw 1 0x108] : List Instr), i.wf = false := by
  decide +kernel

theorem test_illFormed_sync : ∀ i ∈ ([
    .amo 1 2 3 6 0 0 0, .amo 1 2 3 0 0 7 0, .amo 1 2 3 0 0 0 5, .amo 1 2 3 0 0 3 3, .fence 6 0, .ipost 16 1, .iwait 16 1, .cas 1 2 3 7 0 0, 
    .qpush 8 1, .qpop 1 3, .qpop 1 8, .qpopVector 1 4, .qcnt 1 8, .tparkRing 16 1, .algld 4 1, .nset 6 1 2] : List Instr), i.wf = false := by
  decide +kernel

theorem test_illFormed_vector : ∀ i ∈ ([
    .vcfg 1 2 14 0 0 0 0, .vcfg 1 2 0 0 3 0 0, .vcfg 1 2 0 0 0 0 6, .vsplat 1 2 0 0 0, .vext 1 2 3 0 3, .vextQ 8 2 3 0 1, .vextQ 4 2 3 0 0, 
    .vlastQ 8 1 0 0, .vadd 1 2 3 0 0 3, .vsub 1 2 3 0 0 3, .vmul 1 2 3 0 0 3, .vmulh 1 2 3 0 0 3, .vmac 1 2 3 0 0 3, .vdiv 1 2 3 0 0 3, 
    .vmin 1 2 3 0 0 3, .vmax 1 2 3 0 0 3, .vand 1 2 3 0 0 3, .vor 1 2 3 0 0 3, .vxor 1 2 3 0 0 3, .vshl 1 2 3 0 0 3, .vshr 1 2 3 0 0 3, 
    .vsar 1 2 3 0 0 3, .vsadd 1 2 3 0 0 3, .vmerge 1 2 3 0 0 3, .vfadd 1 2 3 0 0 2 0, .vfsub 1 2 3 0 0 2 0, .vfmul 1 2 3 0 0 2 0, 
    .vfdiv 1 2 3 0 0 2 0, .vfscale 1 2 3 0 0 2 0, .vfadd 1 2 3 0 0 0 6, .vfsub 1 2 3 0 0 0 6, .vfmul 1 2 3 0 0 0 6, .vfdiv 1 2 3 0 0 0 6, 
    .vfscale 1 2 3 0 0 0 6, .vfmin 1 2 3 0 0 2, .vfmax 1 2 3 0 0 2, .vfsqrt 1 2 0 0 6, .vfcvt 1 2 14 0 0 0, .vfcvt 1 2 0 0 0 6, 
    .vfma 1 2 3 4 0 6, .vcmp 8 1 2 0 0 0 0, .vcmp 1 2 3 0 0 3 0, .vcmp 1 2 3 0 0 0 10, .vfcmp 8 1 2 0 0 0 0, .vfcmp 1 2 3 0 0 2 0, 
    .vfcmp 1 2 3 0 0 0 6, .vrlog 1 2 3 0 0 3, .vrsumQ 8 1 2 0 0, .vrosumQ 8 1 2 0 0, .vrmaxQ 8 1 2 0 0, .vrminQ 8 1 2 0 0, .vrlogQ 8 1 2 0 0 0, 
    .vrlogQ 4 1 2 0 0 3, .vslup 1 2 3 0 0 0, .vsldn 1 2 3 0 0 3] : List Instr), i.wf = false := by
  decide +kernel

theorem test_illFormed_memory : ∀ i ∈ ([
    .pand 8 1 2 0 0, .pand 1 8 2 0 0, .pand 1 2 8 0 0, .por 8 1 2 0 0, .por 1 8 2 0 0, .por 1 2 8 0 0, .pxor 8 1 2 0 0, .pxor 1 8 2 0 0, 
    .pxor 1 2 8 0 0, .pnot 8 1 0 0, .pnot 1 8 0 0, .pset 8 1 0 0, .pfirst 8 1 0 0, .pfirst 1 8 0 0, .pbrkBefore 8 1 0 0, .pbrkBefore 1 8 0 0, 
    .pbrkThru 8 1 0 0, .pbrkThru 1 8 0 0, .pcnt 1 8 0 0, .pcntQ 8 1 0 0, .pcntQ 4 8 0 0, .vpart 8 1 2 0, .vpart 1 2 8 0, .vld 1 2 0 0 0x10, 
    .vlds 1 2 3 0 0 0x11, .vldx 1 2 3 0 0 0x14, .vldff 1 2 8 0 0 0, .vldff 1 2 3 0 0 0x12, .vst 1 2 0 0 0x10, .vsts 1 2 3 0 0 0x12, 
    .vstx 1 2 3 0 0 0x13, .vpref 1 0 0 0x10, .vldseg 1 2 1 0 0 0, .vldseg 1 2 9 0 0 0, .vldseg 1 2 2 0 0 0x10, .vstseg 1 2 1 0 0 0, 
    .vstseg 1 2 9 0 0 0, .vstseg 1 2 2 0 0 0x10, .vamo 1 2 3 4 0 7, .mmac 8 1 2, .mzero 8, .mldacc 8 1, .mcb 8 1, .mfill 1 2 0 0 0 0, 
    .mfill 1 2 8 0 1 0, .mfill 1 2 8 0 0 1, .mdrainMemory 8 1 2 1, .mdrainMemory 0 1 2 0, .mdrainRegister 8 1 1, .mdrainRegister 0 1 0x0D] : List Instr), i.wf = false := by
  decide +kernel

theorem test_illFormed_part : ∀ i ∈ ([
    .laneIssue 128, .arrayIssue 128, .vectorComplete 128 0, .vectorComplete 0 4, .updateArrival ⟨0x10000, 6, 0, 0, none, 0, 0⟩, 
    .updateArrival ⟨0x10000, 1, 7, 0, none, 0, 0⟩, .updateArrival ⟨0x10002, 0, 0, 0, none, 0, 0⟩, .updateArrival ⟨0x10004, 1, 0, 0, none, 0, 0⟩, .taskStart 128 0, 
    .taskStart 0 4, .groupOpApply 4096 .join ⟨0, 0, 0, false⟩, .orderPointApply 16 0, .ringHop 16 0, .ringHop 0 4, .jobStart 128, 
    .jobComplete 128, .jobPageFault 128, .fillRowWrite 128, .peerAccess 16 0 [], .linkReplay 16, .readyReport (.core 128), .readyReport (.die 4), 
    .readyReport (.link 16), .memTrained 32, .agentTimeout (.core 128), .internalError (.die 4), .spareService 32, .columnFail 128, 
    .bstoreParityError 128 0, .bstoreParityError 0 384, .clockChange 4 0 0, .clockChange 0 4 0, .ectlClr 4, .ectlUnfreeze 4, .elostClear 4, 
    .counterClear 4 0, .counterClear 0 4, .histClear 4 0 0, .histClear 0 32 0, .histClear 0 0 4, .trigFiredClear 4 0, .trigFiredClear 0 4, 
    .electrumRegisterWrite 4 0 0, .engineRequestDone 128 0 0, .engineRequestDone 0 4 0, .triggerGlobalArrival 4 ⟨false, false, false, false⟩ 0, 
    .memDeviceFailure 32, .spillAreaExtension 128 0] : List Instr), i.wf = false := by
  decide +kernel

-- ## Words written out from the encoding tables, one for every instruction

theorem test_decode_alu :
    decode 0b000010_10011_01010_11100_00000000000 = some (.add 19 10 28) ∧
    decode 0b000010_10011_01010_11100_00000000001 = some (.sub 19 10 28) ∧
    decode 0b000010_10011_01010_11100_00000000010 = some (.and 19 10 28) ∧
    decode 0b000010_10011_01010_11100_00000000011 = some (.or 19 10 28) ∧
    decode 0b000010_10011_01010_11100_00000000100 = some (.xor 19 10 28) ∧
    decode 0b000010_10011_01010_11100_00000000101 = some (.shl 19 10 28) ∧
    decode 0b000010_10011_01010_11100_00000000110 = some (.shr 19 10 28) ∧
    decode 0b000010_10011_01010_11100_00000000111 = some (.sar 19 10 28) ∧
    decode 0b000010_10011_01010_11100_00000001000 = some (.slt 19 10 28) ∧
    decode 0b000010_10011_01010_11100_00000001001 = some (.sltu 19 10 28) ∧
    decode 0b000010_10011_01010_11100_00000001010 = some (.mul 19 10 28) ∧
    decode 0b000010_10011_01010_11100_00000001011 = some (.mulh 19 10 28) ∧
    decode 0b000010_10011_01010_11100_00000001100 = some (.mulhu 19 10 28) ∧
    decode 0b000010_10011_01010_11100_00000001101 = some (.div 19 10 28) ∧
    decode 0b000010_10011_01010_11100_00000001110 = some (.divu 19 10 28) ∧
    decode 0b000010_10011_01010_11100_00000001111 = some (.rem 19 10 28) ∧
    decode 0b000010_10011_01010_11100_00000010000 = some (.remu 19 10 28) ∧
    decode 0b000010_10011_01010_11100_00000010001 = some (.min 19 10 28) ∧
    decode 0b000010_10011_01010_11100_00000010010 = some (.max 19 10 28) ∧
    decode 0b000010_10011_01010_0000000000010011 = some (.popc 19 10) := by
  decide

theorem test_decode_immediates :
    decode 0b000011_10011_01010_1000101001011100 = some (.addImm 19 10 0x8a5c) ∧
    decode 0b000100_10011_01010_1000101001011100 = some (.subImm 19 10 0x8a5c) ∧
    decode 0b000101_10011_01010_1000101001011100 = some (.andImm 19 10 0x8a5c) ∧
    decode 0b000110_10011_01010_1000101001011100 = some (.orImm 19 10 0x8a5c) ∧
    decode 0b000111_10011_01010_1000101001011100 = some (.xorImm 19 10 0x8a5c) ∧
    decode 0b001000_10011_01010_0000000000_101011 = some (.shlImm 19 10 43) ∧
    decode 0b001000_10011_01010_0000000001_101011 = some (.shrImm 19 10 43) ∧
    decode 0b001000_10011_01010_0000000010_101011 = some (.sarImm 19 10 43) ∧
    decode 0b001001_10011_01010_1000101001011100 = some (.sltImm 19 10 0x8a5c) ∧
    decode 0b001010_10011_01010_1000101001011100 = some (.sltuImm 19 10 0x8a5c) ∧
    decode 0b001011_10011_01010_1000101001011100 = some (.mulImm 19 10 0x8a5c) ∧
    decode 0b001100_10011_01010_1000101001011100 = some (.minImm 19 10 0x8a5c) ∧
    decode 0b001101_10011_01010_1000101001011100 = some (.maxImm 19 10 0x8a5c) ∧
    decode 0b001110_10011_00000_1000101001011100 = some (.lim 19 0x8a5c) ∧
    decode 0b001110_10011_00010_1000101001011100 = some (.limInsert 19 2 0x8a5c) ∧
    decode 0b001111_10011_100100011010001011010 = some (.addpc 19 0x12345a) := by
  decide

theorem test_decode_hints :
    decode 0b000001_00000000000000000000000000 = some .nop ∧
    decode 0b000001_00000_000000001001000110100 = some (.hint 0x1234) ∧
    decode 0b000001_00001000000000000000000000 = some .land ∧
    decode 0b000001_00001000000000000000000001 = some .landTask := by
  decide

theorem test_decode_memoryAndBranches :
    decode 0b010000_10011_01010_00011_10011010011 = some (.ld 19 10 3 0x4d3) ∧
    decode 0b010001_10011_01010_01100_10011010011 = some (.st 19 10 12 0x4d3) ∧
    decode 0b010010_10110_01010_11100_0101101_1001 = some (.br 9 10 28 0xb2d) ∧
    decode 0b010011_00000_100100011010001011010 = some (.jmp 0x12345a) ∧
    decode 0b010100_00001_100100011010001011010 = some (.jal 0x12345a) ∧
    decode 0b010101_10011_01010_1000101001011100 = some (.jalr 19 10 0x8a5c) := by
  decide

theorem test_decode_scalarFloat :
    decode 0b01_0110_10011_01010_11100_00000_011_000 = some (.fadd 6 19 10 28 3) ∧
    decode 0b01_0111_10011_01010_11100_00000_011_001 = some (.fsub 7 19 10 28 3) ∧
    decode 0b01_1000_10011_01010_11100_00000_011_010 = some (.fmul 8 19 10 28 3) ∧
    decode 0b01_1001_10011_01010_11100_00000_011_011 = some (.fdiv 9 19 10 28 3) ∧
    decode 0b01_1000_10011_01010_0000000000_011_100 = some (.fsqrt 8 19 10 3) ∧
    decode 0b01_1001_10011_01010_11100_10111_011_101 = some (.fma 9 19 10 28 23 3) ∧
    decode 0b01_0110_10011_01010_11100_00000111110 = some (.fmin 6 19 10 28) ∧
    decode 0b01_0111_10011_01010_11100_00000111111 = some (.fmax 7 19 10 28) ∧
    decode 0b011010_10011_01010_11100_01100_00_0101 = some (.fcmp 19 10 28 12 5) ∧
    decode 0b011010_10011_01010_00010_01101_01_101_0 = some (.fcvt 19 10 2 13 5) ∧
    decode 0b011010_10011_01010_00000_01011_100000 = some (.fclass 19 10 11) := by
  decide

theorem test_decode_system :
    decode 0b011011_00000_1010100101_00000000000 = some (.sysc 0x2a5) ∧
    decode 0b011011_00000_0100110011_00000000001 = some (.brk 0x133) ∧
    decode 0b011011_00000000000000000000000010 = some .sret ∧
    decode 0b011011_10011_0100000111_00000000011 = some (.csrr 19 0x107) ∧
    decode 0b011011_10011_0000001011_00000000100 = some (.csrw 19 11) ∧
    decode 0b011011_00000000000000000000000101 = some .waite := by
  decide

theorem test_decode_syncAndAtomics :
    decode 0b011100_10011_01010_11100_101_11_110_100 = some (.amo 19 10 28 5 3 6 4) ∧
    decode 0b011101_000000000000000_100_000000_11 = some (.fence 4 3) ∧
    decode 0b011101_00000_01010_0000000000000100 = some (.gjoin 10) ∧
    decode 0b011101_00000_01010_0000000000000101 = some (.gleave 10) ∧
    decode 0b011101_00000_01010_0000000000000110 = some (.gsync 10) ∧
    decode 0b011101_01101_01010_0000000000000111 = some (.ipost 13 10) ∧
    decode 0b011101_01110_01010_0000000000001000 = some (.iwait 14 10) ∧
    decode 0b011101_10011_01010_11100_101_10_01000_1 = some (.cas 19 10 28 5 2 1) := by
  decide

theorem test_decode_control :
    decode 0b011110_00010_01010_0000000000000000 = some (.qpush 2 10) ∧
    decode 0b011110_10011_00110_0000000000000001 = some (.qpop 19 6) ∧
    decode 0b011110_10011_00011_0000000000000001 = some (.qpopVector 19 3) ∧
    decode 0b011110_10011_00111_0000000000000010 = some (.qcnt 19 7) ∧
    decode 0b011110_10011_000000000000000001000 = some (.talloc 19) ∧
    decode 0b011110_00000_01010_0000000000001001 = some (.tfree 10) ∧
    decode 0b011110_00000_01010_11100_00000001010 = some (.tspawn 10 28) ∧
    decode 0b011110_00000_01010_0000000000001011 = some (.tend 10) ∧
    decode 0b011110_00000_01010_0000000000001100 = some (.tparkGroup 10) ∧
    decode 0b011110_01111_01010_0000000000001101 = some (.tparkRing 15 10) ∧
    decode 0b011110_00000_01010_0000000000001110 = some (.tparkTag 10) ∧
    decode 0b011110_00000_01010_11100_10111_010000 = some (.smap 10 28 23) ∧
    decode 0b011110_00000_01010_11100_00000010001 = some (.sunmap 10 28) ∧
    decode 0b011110_00000_01010_11100_00000010010 = some (.sflush 10 28) ∧
    decode 0b011110_00000000000000000000010011 = some .uret ∧
    decode 0b011110_00000_01010_0000000000010100 = some (.tmark 10) ∧
    decode 0b011110_00011_01010_0000000000011000 = some (.algld 3 10) ∧
    decode 0b011110_00101_01010_11100_00000011010 = some (.nset 5 10 28) ∧
    decode 0b011110_11011_000000000000000011011 = some (.nloop 27) ∧
    decode 0b011111_10110_01010_0000000000000000 = some (.xcopy 22 10) ∧
    decode 0b011111_10110_01010_0000000000000001 = some (.xgath 22 10) ∧
    decode 0b011111_10110_01010_0000000000000010 = some (.xcoll 22 10) ∧
    decode 0b011111_10110_000000000000000000011 = some (.xwait 22) := by
  decide

theorem test_decode_vectorMoves :
    decode 0b100000_10011_01010_1101_10_01_1_101_0000 = some (.vcfg 19 10 13 2 1 1 5) ∧
    decode 0b100001_10011_0000000000_101_1_0000000 = some (.vid 19 5 1) ∧
    decode 0b100001_10011_00000_11100_101_1_10_00001 = some (.vsplat 19 28 5 1 2) ∧
    decode 0b100001_10011_01010_00000_101_1_0000010 = some (.vmv 19 10 5 1) ∧
    decode 0b100001_10011_01010_11100_000_1_10_00011 = some (.vext 19 10 28 1 2) ∧
    decode 0b100001_10011_01010_00000_101_1_0000100 = some (.vlast 19 10 5 1) ∧
    decode 0b100001_00110_01010_11100_000_1_10_10011 = some (.vextQ 6 10 28 1 2) ∧
    decode 0b100001_00110_01010_00000_101_1_0010100 = some (.vlastQ 6 10 5 1) := by
  decide

theorem test_decode_vectorInteger :
    decode 0b100010_10011_01010_11100_101_1_01_00000 = some (.vadd 19 10 28 5 1 1) ∧
    decode 0b100010_10011_01010_11100_101_1_01_00001 = some (.vsub 19 10 28 5 1 1) ∧
    decode 0b100010_10011_01010_11100_101_1_01_00010 = some (.vmul 19 10 28 5 1 1) ∧
    decode 0b100010_10011_01010_11100_101_1_01_00011 = some (.vmulh 19 10 28 5 1 1) ∧
    decode 0b100010_10011_01010_11100_101_1_01_00100 = some (.vmac 19 10 28 5 1 1) ∧
    decode 0b100010_10011_01010_11100_101_1_01_00101 = some (.vdiv 19 10 28 5 1 1) ∧
    decode 0b100010_10011_01010_11100_101_1_01_00110 = some (.vmin 19 10 28 5 1 1) ∧
    decode 0b100010_10011_01010_11100_101_1_01_00111 = some (.vmax 19 10 28 5 1 1) ∧
    decode 0b100010_10011_01010_11100_101_1_01_01000 = some (.vand 19 10 28 5 1 1) ∧
    decode 0b100010_10011_01010_11100_101_1_01_01001 = some (.vor 19 10 28 5 1 1) ∧
    decode 0b100010_10011_01010_11100_101_1_01_01010 = some (.vxor 19 10 28 5 1 1) ∧
    decode 0b100010_10011_01010_11100_101_1_01_01011 = some (.vshl 19 10 28 5 1 1) ∧
    decode 0b100010_10011_01010_11100_101_1_01_01100 = some (.vshr 19 10 28 5 1 1) ∧
    decode 0b100010_10011_01010_11100_101_1_01_01101 = some (.vsar 19 10 28 5 1 1) ∧
    decode 0b100010_10011_01010_11100_101_1_01_01110 = some (.vsadd 19 10 28 5 1 1) := by
  decide

theorem test_decode_vectorFloat :
    decode 0b100011_10011_01010_11100_101_1_01_011_00 = some (.vfadd 19 10 28 5 1 1 3) ∧
    decode 0b100011_10011_01010_11100_101_1_01_011_01 = some (.vfsub 19 10 28 5 1 1 3) ∧
    decode 0b100011_10011_01010_11100_101_1_01_011_10 = some (.vfmul 19 10 28 5 1 1 3) ∧
    decode 0b100011_10011_01010_11100_101_1_01_011_11 = some (.vfdiv 19 10 28 5 1 1 3) ∧
    decode 0b100100_10011_01010_11100_101_1_01_11100 = some (.vfmin 19 10 28 5 1 1) ∧
    decode 0b100100_10011_01010_11100_101_1_01_11101 = some (.vfmax 19 10 28 5 1 1) ∧
    decode 0b100100_10011_01010_11100_101_1_01_011_10 = some (.vfscale 19 10 28 5 1 1 3) ∧
    decode 0b100100_10011_01010_00000_101_1_0011111 = some (.vfsplit 19 10 5 1) ∧
    decode 0b100101_10011_01010_00000_101_1_00_011_00 = some (.vfsqrt 19 10 5 1 3) ∧
    decode 0b100101_10011_01010_00000_101_1_0011101 = some (.vfrsqe 19 10 5 1) ∧
    decode 0b100101_10011_01010_00010_101_1_00_011_10 = some (.vfcvt 19 10 2 5 1 3) ∧
    decode 0b100101_10011_01010_00000_101_1_0011111 = some (.vfclass 19 10 5 1) ∧
    decode 0b100110_10011_01010_11100_10111_101_011 = some (.vfma 19 10 28 23 5 3) := by
  decide

theorem test_decode_comparesAndReductions :
    decode 0b100111_00110_01010_11100_101_1_01_0_0100 = some (.vcmp 6 10 28 5 1 1 4) ∧
    decode 0b100111_00110_01010_11100_101_1_01_1_0100 = some (.vfcmp 6 10 28 5 1 1 4) ∧
    decode 0b101000_10011_01010_11100_101_1_0100000 = some (.vrsum 19 10 28 5 1) ∧
    decode 0b101000_10011_01010_11100_101_1_0100001 = some (.vrosum 19 10 28 5 1) ∧
    decode 0b101000_10011_01010_11100_101_1_0100010 = some (.vrmax 19 10 28 5 1) ∧
    decode 0b101000_10011_01010_11100_101_1_0100011 = some (.vrmin 19 10 28 5 1) ∧
    decode 0b101000_10011_01010_11100_101_1_01001_10 = some (.vrlog 19 10 28 5 1 2) ∧
    decode 0b101000_00110_01010_11100_101_1_0110000 = some (.vrsumQ 6 10 28 5 1) ∧
    decode 0b101000_00110_01010_11100_101_1_0110001 = some (.vrosumQ 6 10 28 5 1) ∧
    decode 0b101000_00110_01010_11100_101_1_0110010 = some (.vrmaxQ 6 10 28 5 1) ∧
    decode 0b101000_00110_01010_11100_101_1_0110011 = some (.vrminQ 6 10 28 5 1) ∧
    decode 0b101000_00110_01010_11100_101_1_01101_10 = some (.vrlogQ 6 10 28 5 1 2) := by
  decide

theorem test_decode_permutes :
    decode 0b101001_10011_01010_11100_101_1_10_00000 = some (.vslup 19 10 28 5 1 2) ∧
    decode 0b101001_10011_01010_11100_101_1_10_00001 = some (.vsldn 19 10 28 5 1 2) ∧
    decode 0b101001_10011_01010_11100_101_1_0000010 = some (.vperm 19 10 28 5 1) ∧
    decode 0b101001_10011_01010_00000_101_1_0000011 = some (.vcompr 19 10 5 1) ∧
    decode 0b101001_10011_01010_11100_101_1_10_00100 = some (.vmerge 19 10 28 5 1 2) := by
  decide

theorem test_decode_predicates :
    decode 0b101010_00110_00101_00011_101_1_0000000 = some (.pand 6 5 3 5 1) ∧
    decode 0b101010_00110_00101_00011_101_1_0000001 = some (.por 6 5 3 5 1) ∧
    decode 0b101010_00110_00101_00011_101_1_0000010 = some (.pxor 6 5 3 5 1) ∧
    decode 0b101010_00110_00101_00000_101_1_0000011 = some (.pnot 6 5 5 1) ∧
    decode 0b101010_00110_00000_11100_101_1_0100100 = some (.pset 6 28 5 1) ∧
    decode 0b101010_00110_00101_00000_101_1_0000101 = some (.pfirst 6 5 5 1) ∧
    decode 0b101010_00110_00101_00000_101_1_0000110 = some (.pbrkBefore 6 5 5 1) ∧
    decode 0b101010_00110_00101_00000_101_1_0000111 = some (.pbrkThru 6 5 5 1) ∧
    decode 0b101010_10011_00101_00000_101_1_0001000 = some (.pcnt 19 5 5 1) ∧
    decode 0b101010_00110_00101_00000_101_1_0011000 = some (.pcntQ 6 5 5 1) ∧
    decode 0b101011_10011_01010_00000_101_1_0000000 = some (.vdep 19 10 5 1) ∧
    decode 0b101011_10011_01010_11100_101_1_0000001 = some (.vdepx 19 10 28 5 1) ∧
    decode 0b101011_00110_01010_00011_000_1_0000010 = some (.vpart 6 10 3 1) := by
  decide

theorem test_decode_algebra :
    decode 0b101100_10011_01010_11100_101_1_00_10_000 = some (.vamul 19 10 28 5 1 2) ∧
    decode 0b101100_10011_01010_00000_101_1_00_10_001 = some (.vaconj 19 10 5 1 2) ∧
    decode 0b101100_10011_01010_00000_101_1_00_10_010 = some (.vaconjRev 19 10 5 1 2) ∧
    decode 0b101100_10011_01010_00000_101_1_00_10_011 = some (.vanorm 19 10 5 1 2) ∧
    decode 0b101100_10011_01010_11100_101_1_00_10_100 = some (.vasand 19 10 28 5 1 2) := by
  decide

theorem test_decode_vectorMemory :
    decode 0b101101_10011_01010_00000_101_1_00_10010 = some (.vld 19 10 5 1 18) ∧
    decode 0b101101_10011_01010_11100_101_1_01_10011 = some (.vlds 19 10 28 5 1 19) ∧
    decode 0b101101_10011_01010_11100_101_1_10_01110 = some (.vldx 19 10 28 5 1 14) ∧
    decode 0b101101_10011_01010_00011_101_1_11_01011 = some (.vldff 19 10 3 5 1 11) ∧
    decode 0b101110_10011_01010_00000_101_1_00_01011 = some (.vst 19 10 5 1 11) ∧
    decode 0b101110_10011_01010_11100_101_1_01_01011 = some (.vsts 19 10 28 5 1 11) ∧
    decode 0b101110_10011_01010_11100_101_1_10_01011 = some (.vstx 19 10 28 5 1 11) ∧
    decode 0b101110_00000_01010_00000_101_1_11_01011 = some (.vpref 10 5 1 11) ∧
    decode 0b101111_10011_01010_00111_101_1_00_01011 = some (.vldseg 19 10 7 5 1 11) ∧
    decode 0b101111_10011_01010_00111_101_1_01_01011 = some (.vstseg 19 10 7 5 1 11) ∧
    decode 0b110000_10011_01010_11100_10111_101_110 = some (.vamo 19 10 28 23 5 6) := by
  decide

theorem test_decode_matrix :
    decode 0b110001_00101_01010_11100_00000000000 = some (.mmac 5 10 28) ∧
    decode 0b110001_00101_000000000000000000001 = some (.mzero 5) ∧
    decode 0b110001_00101_01010_0000000000000010 = some (.mldacc 5 10) ∧
    decode 0b110001_00110_01010_0000000000000011 = some (.mcb 6 10) ∧
    decode 0b110010_10011_01010_00000_10001_1_10_1_00 = some (.mfill 19 10 17 1 2 1) ∧
    decode 0b110010_00101_01010_11100_01100_000001 = some (.mdrainMemory 5 10 28 12) ∧
    decode 0b110010_00101_10011_00000_01010_000010 = some (.mdrainRegister 5 19 10) := by
  decide

-- ## States to start from

/-- A task in M on core 0 that declares every profile, with 256-byte registers and four i32 elements; every memory device is trained. -/
def base : State :=
  let r := State.reset
  { r with
    ct := { r.ct with
      status := .running, level := .m, pc := 0x4000
      task := { r.ct.task with taskid := 7, profs := BitVec.allOnes 7, regLen := 256, tiles := 8 }
      vec := { r.ct.vec with vcfg := ⟨2, 0, 0, 0, 0⟩, vl := 4 } }
    pkg := { r.pkg with ready := { r.pkg.ready with trained := BitVec.allOnes 32 } } }

/-- The same task in U, with 64 KiB of stash. -/
def user : State := { base with ct := { base.ct with level := .u, task := { base.ct.task with stashLen := 0x10000 } } }

/-- The same in S. -/
def sup : State := { base with ct := { base.ct with level := .s } }

/-- A task in U at the word given, which is fetched through a page table; nothing else is different from reset but what that takes. -/
def at_ (w : IWord) : State := State.reset.withFetchWord 32 w.toNat

/-- x registers set. -/
def xs (s : State) (l : List (Reg × Word)) : State := l.foldl (fun s p => s.setX p.1 p.2) s

/-- A number of n bytes at a physical address. -/
def put (s : State) (pa n v : Nat) : State := s.setBytes pa (toBytes n v)

/-- The low 128 bits of a vector register. -/
def vreg (s : State) (r : Nat) (e : BitVec 128) : State :=
  { s with ct := { s.ct with vec := { s.ct.vec with vfile := s.ct.vec.vfile.setIfInBounds r (e.setWidth 16384) } } }

/-- The vector configuration and VL. -/
def cfg (s : State) (e : BitVec 4) (vl : Nat) : State := { s with ct := { s.ct with vec := { s.ct.vec with vcfg := ⟨e, 0, 0, 0, 0⟩, vl := vl } } }

/-- What holds after an instruction; the default where it gives no next state. -/
def after {α : Type} (i : Instr) (s : State) (d : α) (f : State → α) : α :=
  match exec i s with
  | .next t => f t
  | _ => d

/-- A result that is a value and a state of which a test holds. -/
theorem exists_ok {α : Type} {r : Res α} (p : α → State → Bool)
    (h : (match r with
      | .ok a t => p a t
      | _ => false) = true) : ∃ a t, r = .ok a t ∧ p a t = true := by
  cases r <;> simp_all

/-- A result that is a trap in a state of which a test holds. -/
theorem exists_trap {α : Type} {r : Res α} (p : Trap → State → Bool)
    (h : (match r with
      | .trap f t => p f t
      | _ => false) = true) : ∃ f t, r = .trap f t ∧ p f t = true := by
  cases r <;> simp_all

/-- No die of a state is fenced where the four are not. -/
theorem not_fenced {s : State} (h : ∀ d, d < 4 → (s.die d).fenced = false) (d : Nat) : (s.die d).fenced = false := by
  by_cases hd : d < 4
  · exact h d hd
  · unfold State.die
    rw [dif_neg hd]
    rfl

/-- A state in M in which every aligned address of device memory is ready. -/
def mready (s : State) : Bool :=
  s.ct.level == .m && s.pkg.ready.trained == BitVec.allOnes 32 && s.pkg.containedPairs.isEmpty && s.m.poison.isEmpty &&
    (List.range 4).all fun d => !(s.die d).fenced

theorem ready_at (may : Nat → Prop) (s : State) (a : Acc) (va : Word) (n pa : Nat) (h : mready s = true) (hp : va.toNat = pa) (hn : pa % n = 0)
    (hv : pa < 2 ^ 38) : Ready may s a va n pa := by
  subst hp
  simp only [mready, Bool.and_eq_true, beq_iff_eq, List.isEmpty_iff, List.all_eq_true, List.mem_range, Bool.not_eq_true'] at h
  exact ready_m may s a va n h.1.1.1.1 h.1.1.1.2 (not_fenced h.2) h.1.1.2 h.1.2 hn hv

/-- A state in U in which the bytes of the task's stash are ready. -/
def sready (s : State) : Bool :=
  s.ct.level == .u && s.pkg.fencedCores.isEmpty && s.m.slines.isEmpty && s.m.poison.isEmpty && s.ct.lcore == 0 && s.ct.task.stashBase == 0 &&
    s.ct.task.stashLen == 0x10000 && (List.range 4).all fun d => !(s.die d).fenced

/-- The local window's pointer to an offset. -/
def loc (off : Nat) : Word := 0xFE00000000000000 + BitVec.ofNat 64 off

theorem ready_loc (may : Nat → Prop) (s : State) (a : Acc) (va : Word) (n off last : Nat) (h : sready s = true) (h1 : windowOf va = .local_ off)
    (h2 : windowOf (va + BitVec.ofNat 64 (n - 1)) = .local_ last) (h3 : last < 0x10000) (hn : va.toNat % n = 0)
    (hh : homeOf (stashPa 0 (0 + off)) = .stash 0 (0 + off)) : Ready may s a va n (stashPa 0 (0 + off)) := by
  simp only [sready, Bool.and_eq_true, beq_iff_eq, List.isEmpty_iff, List.all_eq_true, List.mem_range, Bool.not_eq_true'] at h
  obtain ⟨⟨⟨⟨⟨⟨⟨hl, hc⟩, hs⟩, hp⟩, hk⟩, hb⟩, hg⟩, hd⟩ := h
  exact ready_stash may s a va n off last _ _ _ (by rw [hl]; exact fun h => Level.noConfusion h) h1 h2 (by rw [hg]; exact h3) hs (not_fenced hd) hc hp hn
    (by rw [show s.ctx.lcore = s.ct.lcore from rfl, show s.ctx.stashBase = s.ct.task.stashBase from rfl, hk, hb]) hh

/-- Words of the stash that are ready one after another. -/
theorem ready_loc_words (may : Nat → Prop) (s : State) (a : Acc) (va : Word) (w n pa : Nat) (h : sready s = true)
    (hp : ∀ k, k < n → windowOf (va + BitVec.ofNat 64 (w * k)) = .local_ (w * k) ∧
      windowOf (va + BitVec.ofNat 64 (w * k) + BitVec.ofNat 64 (w - 1)) = .local_ (w * k + (w - 1)) ∧ w * k + (w - 1) < 0x10000 ∧
      (va + BitVec.ofNat 64 (w * k)).toNat % w = 0 ∧ homeOf (stashPa 0 (0 + w * k)) = .stash 0 (0 + w * k) ∧ stashPa 0 (0 + w * k) = pa + w * k)
    (k : Nat) (hk : k < n) : Ready may s a (va + BitVec.ofNat 64 (w * k)) w (pa + w * k) := by
  obtain ⟨h1, h2, h3, h4, h5, h6⟩ := hp k hk
  rw [← h6]
  exact ready_loc may s a _ w _ _ h h1 h2 h3 h4 h5

/-- Calm as a test. -/
def calmB (s : State) : Bool :=
  let m := s.m
  (m.slines.isEmpty && m.poison.isEmpty && m.hostShared.isEmpty && m.biWait.isEmpty && m.chains.isEmpty && m.tlb.isEmpty && m.sbuf.isEmpty &&
    m.wcb.isEmpty && m.early.isEmpty && m.late.isEmpty) &&
    ((s.threads.all fun t => t.mx.fills.isEmpty) && (s.pkg.saved.all fun t => t.mx.fills.isEmpty) && s.pkg.parked.all fun p => p.fills.isEmpty)

theorem calm_of {s : State} (h : calmB s = true) : Calm s := by
  simp only [calmB, Bool.and_eq_true, List.isEmpty_iff, List.all_eq_true] at h
  have k := h.1
  exact ⟨k.1.1.1.1.1.1.1.1.1, k.1.1.1.1.1.1.1.1.2, k.1.1.1.1.1.1.1.2, k.1.1.1.1.1.1.2, k.1.1.1.1.1.2, k.1.1.1.1.2, k.1.1.1.2, k.1.1.2, k.1.2, k.2, h.2.1.1, h.2.1.2, h.2.2⟩

theorem calm_base : Calm base := calm_of (by decide +kernel)
theorem calm_user : Calm user := calm_of (by decide +kernel)

theorem along_refl (may : Nat → Prop) (s : State) : Along may s s :=
  ⟨⟨_, _, _, _, _, _, _, _, _, _, _, _, rfl⟩, fun _ => rfl, fun _ _ => rfl⟩

/-- A ready access is made at its place. -/
theorem ready_place {may : Nat → Prop} {s : State} {a : Acc} {va : Word} {n pa : Nat} (h : Ready may s a va n pa) :
    ∃ p, resolveAligned s.ctx a va n s = .ok p s ∧ homeOf p.pa ≠ .device ∧ p.pa = pa := by
  obtain ⟨p, e, k⟩ := h.1 s (along_refl may s)
  exact ⟨p, k, e ▸ h.2, e⟩

-- ## States that meet the hypotheses of the statements

theorem witness_Encoding : (Instr.add 1 2 3).wf = true ∧ encode (.add 1 2 3) = some 0x08221800 ∧ decode 0x08221800 = some (.add 1 2 3) ∧
    (0x03FFFFFF : IWord).toNat / 2 ^ 26 = 0 ∧ 0x33 ≤ (0xCC000000 : IWord).toNat / 2 ^ 26 := by decide

/-- addi x3, x4, 5; a word that no instruction has; LAND.task. -/
def wAdd : IWord := 0x0C640005
def wNone : IWord := 0x00000000
def wLandTask : IWord := 0x04200001

/-- The hypotheses that the clauses of the step's statements share. -/
def StepReady (s : State) : Prop :=
  s.sched.slots = [] ∧ s.pending = [] ∧ s.ct.status = .running ∧ boundary s = none ∧ s.ct.vec.viq = [] ∧ s.ct.vec.owing = [] ∧ s.ct.vec.hold = false ∧
    s.ct.pc.toNat % 4 = 0

theorem witness_StepRuns_word : StepReady (at_ wAdd) ∧ ∃ w s1, nextWord (at_ wAdd) = .ok w s1 ∧
    (!s1.ct.ctl.lpend && !atStart s1 && decode w == some (.addImm 3 4 5) && s1.ct.ctl.wait == .none && !anyBreak s1) = true :=
  ⟨by unfold StepReady; decide +kernel, exists_ok _ (by decide +kernel)⟩

theorem witness_StepRuns_waiting :
    let s : State := { at_ wAdd with ct := { (at_ wAdd).ct with ctl := { (at_ wAdd).ct.ctl with wait := .queue } } }
    StepReady s ∧ ∃ w s1, nextWord s = .ok w s1 ∧ (!s1.ct.ctl.lpend && !atStart s1 && decode w == some (.addImm 3 4 5) && s1.ct.ctl.wait != .none) = true :=
  ⟨by unfold StepReady; decide +kernel, exists_ok _ (by decide +kernel)⟩

theorem witness_StepRuns_illegal : StepReady (at_ wNone) ∧ ∃ w s1, nextWord (at_ wNone) = .ok w s1 ∧
    (!s1.ct.ctl.lpend && !atStart s1 && decode w == none && !anyBreak s1) = true :=
  ⟨by unfold StepReady; decide +kernel, exists_ok _ (by decide +kernel)⟩

theorem witness_StepRuns_first :
    let s : State := { at_ wLandTask with ct := { (at_ wLandTask).ct with ctl := { (at_ wLandTask).ct.ctl with ltask := some 0x1000, lpend := true } } }
    StepReady s ∧ ∃ w s1, nextWord s = .ok w s1 ∧ (s1.ct.ctl.lpend && isLand w && atStart s1 && isLandTask w) = true :=
  ⟨by unfold StepReady; decide +kernel, exists_ok _ (by decide +kernel)⟩

theorem witness_WordTraps_landing : ∀ q ∈ [(some 0x1000, false), (none, true)],
    let s : State := { at_ wAdd with ct := { (at_ wAdd).ct with ctl := { (at_ wAdd).ct.ctl with ltask := q.1, lpend := q.2 } } }
    StepReady s ∧ ∃ w s1, nextWord s = .ok w s1 ∧
      (s1.ct.level == .u && ((s1.ct.ctl.ltask == some s1.ct.pc && !isLandTask w) || (s1.ct.ctl.lpend && !isLand w))) = true := by
  intro q hq
  simp only [List.mem_cons, List.not_mem_nil, or_false] at hq
  obtain rfl | rfl := hq <;> exact ⟨by unfold StepReady; decide +kernel, exists_ok _ (by decide +kernel)⟩

/-- The task in U declares no profile but LB, and FRM is 6. -/
def bare : State := { user with ct := { user.ct with task := { user.ct.task with profs := 1 }, fp := { user.ct.fp with frm := 6 } } }

theorem witness_WordTraps : user.ct.level = .u ∧ sup.ct.level = .s ∧ bare.ct.level = .u ∧
    bare.ct.task.profs.getLsbD Profile.lv.bit = false ∧ profileOf (.vadd 1 2 3 0 0 0) = some .lv ∧
    bare.ct.task.profs.getLsbD Profile.la.bit = false ∧ bare.has .lb = true ∧ 6 ≤ bare.ct.fp.frm.toNat ∧ user.has .lb = true ∧
    0x100 ≤ (0x100 : BitVec 10).toNat := by decide +kernel

theorem witness_MemoryFormKept : Memory.wf (at_ wAdd).m.mem = true ∧ (match step (at_ wAdd) with
    | .next _ => true
    | _ => false) = true := by decide +kernel

theorem witness_Scalar : base.has .lb = true ∧ user.has .lb = true ∧ 1 ≤ (1 : BitVec 5).toNat ∧ (3 : BitVec 5).toNat ≤ 3 ∧ (9 : BitVec 4).toNat ≤ 9 := by
  decide +kernel

/-- A task in U whose x5 is the address of its own word, and which is fetched at it. -/
def jump (w : IWord) (v : Word) : State := xs (at_ w) [(5, v)]

theorem witness_JumpRegister_return : (jump wAdd 0x2001).has .lb = true ∧
    (let raw := (jump wAdd 0x2001).getX 5 + (0 : BitVec 16).signExtend 64
     (raw &&& ~~~ 1).getLsbD 1 = false ∧ raw.getLsbD 0 = true) := by decide +kernel

theorem witness_JumpRegister_target : ∀ q ∈ [(wLandTask, true), (wAdd, false)], let s := jump q.1 0x1000
    (let raw := s.getX 5 + (0 : BitVec 16).signExtend 64
     (raw &&& ~~~ 1).getLsbD 1 = false ∧ raw.getLsbD 0 = false) ∧ s.ct.level = .u ∧
    ∃ w s1, fetchWord s ((s.getX 5 + (0 : BitVec 16).signExtend 64) &&& ~~~ 1) = .ok w s1 ∧
      (s1.ct.pc == s.ct.pc && s1.ct.level == s.ct.level && isLand w == q.2) = true := by
  intro q hq
  simp only [List.mem_cons, List.not_mem_nil, or_false] at hq
  obtain rfl | rfl := hq <;> exact ⟨by decide +kernel, by decide +kernel, exists_ok _ (by decide +kernel)⟩

theorem witness_JumpRegister_traps : (let raw := (jump wAdd 0x2002).getX 5 + (0 : BitVec 16).signExtend 64
     (raw &&& ~~~ 1).getLsbD 1 = true) ∧
    (let s := jump wAdd 0x7000000000000000
     let raw := s.getX 5 + (0 : BitVec 16).signExtend 64
     (raw &&& ~~~ 1).getLsbD 1 = false ∧ raw.getLsbD 0 = false ∧ ∃ f s1, fetchWord s (raw &&& ~~~ 1) = .trap f s1 ∧ (s1.ct.pc == s.ct.pc && s1.ct.level == .u) = true) :=
  ⟨by decide +kernel, by decide +kernel, by decide +kernel, exists_trap _ (by decide +kernel)⟩

/-- x2 points at 0x10000. -/
def ptr : State := xs base [(2, 0x10000)]

theorem witness_ScalarLoad : Calm ptr ∧
    (∃ p, resolveAligned ptr.ctx { kind := 1, plain := true } (ptr.getX 2 + (0 : BitVec 11).signExtend 64) 8 ptr = .ok p ptr ∧ homeOf p.pa ≠ .device ∧
      p.pa = 0x10000) ∧ ptr.has .lb = true ∧ scalarMfOk 1 = true ∧ scalarMfOk 0x0D = true :=
  ⟨calm_of (by decide +kernel), ready_place (ready_at (fun _ => False) ptr _ _ 8 0x10000 (by decide +kernel) (by decide +kernel) (by decide) (by decide)),
    by decide +kernel⟩

theorem witness_ScalarStore : Calm ptr ∧
    (∃ p, resolveAligned ptr.ctx { kind := 2, plain := true } (ptr.getX 2 + (0 : BitVec 11).signExtend 64) (scalarBytes 1) ptr = .ok p ptr ∧
      homeOf p.pa ≠ .device ∧ p.pa = 0x10000) ∧
    ptr.has .lb = true ∧ scalarMfOk 1 = true ∧ ptr.ct.ord.detctl = false ∧ ptr.sched.deferStores = false ∧ Memory.wf ptr.m.mem = true :=
  ⟨calm_of (by decide +kernel),
    ready_place (ready_at (fun _ => False) ptr _ _ (scalarBytes 1) 0x10000 (by decide +kernel) (by decide +kernel) (by decide) (by decide)), by decide +kernel⟩

theorem witness_ScalarStore_buffered : let s : State := { ptr with sched := { ptr.sched with deferStores := true } }
    Calm s ∧ (∃ p, resolveAligned s.ctx { kind := 2, plain := true } (s.getX 2 + (0 : BitVec 11).signExtend 64) (scalarBytes 1) s = .ok p s ∧
      homeOf p.pa ≠ .device ∧ p.pa = 0x10000) ∧ s.has .lb = true ∧ s.ct.ord.detctl = false ∧ s.sched.deferStores = true ∧ Memory.wf s.m.mem = true :=
  ⟨calm_of (by decide +kernel),
    ready_place (ready_at (fun _ => False) _ _ _ (scalarBytes 1) 0x10000 (by decide +kernel) (by decide +kernel) (by decide) (by decide)), by decide +kernel⟩

/-- x2 points at the stash of a task in U whose loads the schedule lets perform later, and the load of 8 bytes there that has executed. -/
def lazy : State := let s := xs user [(2, loc 0), (3, 16)]
  { s with sched := { s.sched with deferLoads := true } }
def lateLd (g : Option (List Byte × FFlags)) : Late := ⟨0, 0, 7, false, 0, stashPa 0 (0 + 0), false, [], .load 8, .ld 3 4, [], none, g⟩
def withLate (l : Late) : State := { lazy with m := { lazy.m with late := [l] }, sched := { lazy.sched with slots := [.perform 0] } }

theorem lazy_place (may : Nat → Prop) (a : Acc) (n last : Nat) (h : windowOf (loc 0 + BitVec.ofNat 64 (n - 1)) = .local_ last) (hl : last < 0x10000)
    (hn : (loc 0).toNat % n = 0) : Ready may lazy a (loc 0) n (stashPa 0 (0 + 0)) :=
  ready_loc may lazy a _ n 0 last (by decide +kernel) (by decide +kernel) h hl hn (by decide +kernel)

theorem witness_ScalarLoad_late : Calm lazy ∧
    (∃ p, resolveAligned lazy.ctx { kind := 1, plain := true } (lazy.getX 2 + (0 : BitVec 11).signExtend 64) 8 lazy = .ok p lazy ∧ homeOf p.pa ≠ .device ∧
      p.pa = stashPa 0 (0 + 0)) ∧ lazy.has .lb = true ∧ lazy.defers = true ∧ lazy.ct.level = .u ∧
    Calm { withLate (lateLd none) with m := { (withLate (lateLd none)).m with late := [] } } ∧ (withLate (lateLd none)).m.late = [lateLd none] ∧
    (withLate (lateLd none)).sched.slots = [.perform 0] ∧ lostHome (withLate (lateLd none)) (stashPa 0 (0 + 0)) = false ∧
    passRegs .sret = none ∧ passRegs (.mul 1 2 3) = some [1, 2, 3] := by
  have e : lazy.getX 2 + (0 : BitVec 11).signExtend 64 = loc 0 := by decide +kernel
  refine ⟨calm_of (by decide +kernel), ?_, by decide +kernel, by decide +kernel, by decide +kernel, calm_of (by decide +kernel), by decide +kernel⟩
  rw [e]
  exact ready_place (lazy_place (fun _ => False) { kind := 1, plain := true } 8 7 (by decide +kernel) (by decide) (by decide +kernel))

/-- Where loads may perform later, x3 is as before when LD has executed; a step of the schedule performs the load, and it lands before an instruction that reads
x3 (R200). -/
theorem test_ld_later : after (.ld 3 2 4 0) lazy false (fun t => t.getX 3 == lazy.getX 3 && t.m.late == [lateLd none] && t.ct.pc == 0x4004) = true ∧
    (match step (put (withLate (lateLd none)) (stashPa 0 (0 + 0)) 8 77) with
     | .next t => t.m.late == [lateLd (some (toBytes 8 77, 0))] && (landFor (.add 4 3 3) t).getX 3 == 77 && (landFor (.add 4 5 5) t).m.late != []
     | _ => false) = true := by decide +kernel

/-- The places of a cached line of device memory, and of the task's stash, which no L1 holds. -/
theorem witness_ScalarPlaces :
    resolveAligned ptr.ctx { kind := 1, plain := true } 0x10000 8 ptr = .ok ⟨0x10000, true, []⟩ ptr ∧
    resolve user.ctx { kind := 1, plain := true } (loc 0) 8 user = .ok { pa := stashPa 0 (0 + 0) } user ∧ ({ pa := stashPa 0 0 } : Place).cached = false :=
  ⟨resolve_m ptr _ 0x10000 8 (by decide +kernel) (by decide +kernel) (not_fenced (by decide +kernel)) (by decide +kernel) (by decide +kernel) (by decide)
      (by decide),
    resolve_stash _ _ _ _ 8 0 7 _ 0 0 (by decide +kernel) (by decide +kernel) (by decide +kernel) (by decide +kernel) (by decide +kernel)
      (not_fenced (by decide +kernel)) (by decide +kernel) (by decide +kernel) (by decide +kernel) (by decide +kernel), rfl⟩

theorem witness_AccessTraps_align : let s := xs user [(2, 0x10001)]
    Calm s ∧ s.has .lb = true ∧ s.ct.level = .u ∧ scalarMfOk 0x0D = true ∧ (0x10001 : Word) = s.getX 2 + (0 : BitVec 11).signExtend 64 ∧
    (0x10001 : Word).toNat % scalarBytes 0x0D ≠ 0 ∧ orRel 0 = false ∧ (0x10001 : Word) = s.getX 2 ∧ (0x10001 : Word).toNat % amoBytes 4 ≠ 0 :=
  ⟨calm_of (by decide +kernel), by decide +kernel⟩

theorem witness_AccessTraps_stash :
    (let s := xs user [(2, loc 1), (3, 64)]
     s.has .lt = true ∧ s.viqEmpty = true ∧ s.ct.level = .u ∧ (s.getX 2).toNat % 64 ≠ 0) ∧
    (let s := xs user [(2, loc 0xFFC0), (3, 128)]
     s.has .lt = true ∧ s.viqEmpty = true ∧ (s.getX 2).toNat % 64 = 0 ∧ (s.getX 3).toNat % 64 = 0 ∧ stashRange s (s.getX 2) (s.getX 3) = none) ∧
    (let s := xs user [(2, loc 0xFFC0), (3, 64), (4, 128), (5, 4)]
     s.has .lt = true ∧ s.viqEmpty = true ∧ s.ct.level = .u ∧ (s.getX 2).toNat % 64 = 0 ∧ (s.getX 3).toNat % 64 = 0 ∧
      stashRange s (s.getX 2) (s.getX 4) = none ∧ (s.getX 5).toNat % 64 ≠ 0) := by
  decide +kernel

/-- A group with the members given, in a state where the task is 7. -/
def grp (s : State) (g : Nat) (l : List (Word × Bool)) : State :=
  { s with pkg := { s.pkg with groups := [⟨g, l.map fun p => ⟨⟨p.1, 0, 0, false⟩, p.2⟩, 0, 0⟩] } }

/-- 512 members of a group, the task not among them. -/
def full : State := grp (xs user [(2, 5)]) 5 ((List.range 512).map fun k => (BitVec.ofNat 64 (k + 100), false))

/-- The task in four groups, not in group 5. -/
def four : State :=
  let s := xs user [(2, 5)]
  { s with pkg := { s.pkg with groups := (List.range 4).map fun g => ⟨g, [⟨⟨7, 0, 0, false⟩, false⟩], 0, 0⟩ } }

theorem witness_AccessTraps_group :
    (let s := xs user [(2, 4096)]
     s.has .lt = true ∧ s.ct.level = .u ∧ arrivalAt s = none ∧ 4096 ≤ (s.getX 2).toNat) ∧
    (let s := xs user [(2, 4095)]
     s.has .lt = true ∧ arrivalAt s = none ∧ (s.getX 2).toNat < 4096 ∧ groupLost s (s.getX 2).toNat = false ∧
      (s.group (s.getX 2).toNat).has s.ct.task.taskid = false) ∧
    (groupLost full 5 = false ∧ (full.group 5).has full.ct.task.taskid = false ∧ 512 ≤ (full.group 5).members.length) ∧
    groupLost four 5 = false ∧ (four.group 5).has four.ct.task.taskid = false ∧ 4 ≤ (groupsOf four four.ct.task.taskid).length := by
  decide +kernel

theorem witness_FloatingPoint : base.has .lb = true ∧ roundingOf 7 base.ct.fp.frm = some 0 ∧ roundingOf 5 base.ct.fp.frm = some 5 ∧ ftypeOk 13 = true ∧
    (13 : BitVec 5).toNat ≤ 13 ∧ (0 : BitVec 5).toNat ≤ 13 := by decide +kernel

theorem witness_CanonicalNan : (FFmt.f32, 0x7FC00000) ∈
    [(FFmt.e4m3, 0x7F), (.e5m2, 0x7E), (.bf16, 0x7FC0), (.f16, 0x7E00), (.f32, 0x7FC00000), (.f64, 0x7FF8000000000000)] ∧ Rc.rne.rm.toNat ≤ 5 ∧
    (FFmt.f32.read (FFmt.f32.binop 0 Rc.rne 0x7F800000 0xFF800000).1).isNan = true ∧ (FFmt.f32.read (FFmt.f32.sqrt Rc.rne 0xBF800000).1).isNan = true ∧
    (FFmt.f32.read (FFmt.f32.fma Rc.rne 0 0x7F800000 0).1).isNan = true ∧ tyFmt 12 = some FFmt.f32 ∧
    (FFmt.f32.read (convert Rc.rne 13 12 0x7FF0000000000001).1).isNan = true := by decide +kernel

/-- An entry in the vector stream. -/
def busy (s : State) : State := { s with ct := { s.ct with vec := { s.ct.vec with viq := [entry0 s (.vld 1 2 0 0 0)] } } }

theorem witness_RequestedTraps : user.has .lb = true ∧ user.viqEmpty = true ∧ user.ct.level = .u ∧ (busy user).has .lb = true ∧
    (busy user).viqEmpty = false := by decide +kernel

/-- S after a trap whose SCAUSE has the bits given. -/
def caused (c : Word) : State := { sup with ct := { sup.ct with sup := { sup.ct.sup with scause := c } } }

theorem witness_SupervisorReturn : (caused 0x100).ct.level ≠ .u ∧ (caused 0x100).ct.sup.scause.getLsbD 15 = false ∧ (caused 0x100).ct.vec.stopped = none ∧
    (∀ n ∈ [false, true], let s := caused 0x80000
     let st : Stopped := ⟨{ entry0 s (.vid 1 0 0) with nested := n }, [], 0x4000, false, []⟩
     let u : State := { s with ct := { s.ct with vec := { s.ct.vec with stopped := some st } } }
     u.ct.level ≠ .u ∧ u.ct.sup.scause.getLsbD 15 = false ∧ u.ct.vec.stopped = some st ∧ st.entry.nested = n) ∧
    (caused 0x8000).ct.level ≠ .u ∧ (caused 0x8000).ct.sup.scause.getLsbD 15 = true := by decide +kernel

/-- S after a trap with LPEND in SCAUSE that stopped a vector instruction, SEPC at the word given. -/
def resuming (w : IWord) : State :=
  let s := at_ w
  { s with ct := { s.ct with
      level := .s
      sup := { s.ct.sup with scause := 0x100, sepc := 0x1000 }
      vec := { s.ct.vec with stopped := some ⟨entry0 s (.vid 1 0 0), [], 0x4000, false, []⟩ } } }

theorem witness_SupervisorReturn_landing : ∀ q ∈ [(wLandTask, true), (wAdd, false)], let s := resuming q.1
    let back : State := { s with ct := { s.ct with
      level := .u, pc := s.ct.sup.sepc &&& ~~~ 3, ctl := { s.ct.ctl with wait := .none, lpend := false, target := none } } }
    s.ct.level ≠ .u ∧ s.ct.sup.scause.getLsbD 15 = false ∧ s.ct.sup.scause.getLsbD 8 = true ∧ s.ct.sup.scause.toNat / 2 ^ 19 % 4 = 0 ∧
    (∃ st, s.ct.vec.stopped = some st) ∧ ∃ w u, fetchWord back back.ct.pc = .ok w u ∧ (u.ct == back.ct && isLand w == q.2) = true := by
  intro q hq
  simp only [List.mem_cons, List.not_mem_nil, or_false] at hq
  obtain rfl | rfl := hq <;>
    exact ⟨by decide +kernel, by decide +kernel, by decide +kernel, by decide +kernel, ⟨_, rfl⟩, exists_ok _ (by decide +kernel)⟩

theorem witness_ControlRegisters :
    (∀ q ∈ [(0x000, user), (0x00D, user), (0x107, sup)], q.2.has .lb = true ∧ q.2.has (csrProfile q.1) = true ∧ (q.2.ct.level = .u → q.1 < 0x100) ∧
      (q.2.el (dieOf q.2.ct.lcore)).recording = false ∧ (q.2.el (dieOf q.2.ct.lcore)).replaying = false ∧
      (csrReadWaits q.1 = true → q.2.viqEmpty = true)) ∧
    (∀ q ∈ [(0x002, user), (0x007, user), (0x107, sup)], q.2.has .lb = true ∧ q.2.has (csrProfile q.1) = true ∧ (q.2.ct.level = .u → q.1 < 0x100) ∧
      (csrWriteWaits q.1 = true → q.2.viqEmpty = true) ∧ (q.1 = 0x007 ∨ q.1 = 0x107 → q.2.m.sbuf = [] ∧ q.2.m.wcb = [] ∧ q.2.m.early = [] ∧ q.2.m.late = [])) ∧
    user.ct.level = .u ∧ sup.ct.level ≠ .u ∧ sup.viqEmpty = true ∧ base.has .lb = true ∧ base.ct.level = .m := by decide +kernel

theorem witness_WaitForEvent : user.has .lb = true ∧
    ¬ (user.ct.uli.pend ≠ 0 ∨ user.ct.ctl.contain = true ∨ preemptPending user = true ∨
      (user.ct.level ≠ .u ∧ ∃ f ∈ user.pkg.jobFaults, f.core = user.ct.lcore)) ∧
    (let s : State := { user with ct := { user.ct with uli := { user.ct.uli with pend := 0x80000000 } } }
     s.has .lb = true ∧ s.ct.uli.pend ≠ 0) ∧
    (let s : State := { user with ct := { user.ct with ctl := { user.ct.ctl with contain := true } } }
     s.ct.ctl.contain = true) ∧
    (let s : State := { sup with pkg := { sup.pkg with jobFaults := [⟨0, 31, 0x1000, 6⟩] } }
     s.has .lb = true ∧ s.ct.level ≠ .u ∧ ∃ f ∈ s.pkg.jobFaults, f.core = s.ct.lcore) ∧
    (∀ k, k < 4 → (user.core user.ct.lcore).deques.toList.getD k [] = []) ∧ ∃ n, n < 4 ∧ (user.thread user.ct.lcore n).status = .free := by decide +kernel

theorem noReplay_base : NoReplay base := by unfold NoReplay; decide +kernel

theorem witness_Atomics : Calm ptr ∧ NoReplay ptr ∧ Ready (fun _ => False) ptr { kind := 3 } (ptr.getX 2) (amoBytes 4) 0x10000 ∧
    Ready (fun _ => False) ptr { kind := 3 } (ptr.getX 2) (if (1 : BitVec 1) = 0 then 4 else 8) 0x10000 ∧
    resolveAligned ptr.ctx { kind := 3 } (ptr.getX 2) (amoBytes 4) ptr = .ok ⟨0x10000, true, []⟩ ptr ∧
    ptr.has .lb = true ∧ Memory.wf ptr.m.mem = true ∧ (4 : BitVec 3).toNat ≤ 4 ∧ ¬ ((0 : Reg) = 0 ∧ heldNow ptr.ct.ord.detctl 6 4 = true) ∧
    ptr.numAt 0x10000 8 = (ptr.getX 1).toNat % 2 ^ (8 * 8) ∧ (xs ptr [(1, 1)]).numAt 0x10000 8 ≠ ((xs ptr [(1, 1)]).getX 1).toNat % 2 ^ (8 * 8) :=
  ⟨calm_of (by decide +kernel), by unfold NoReplay; decide +kernel,
    ready_at _ _ _ _ _ _ (by decide +kernel) (by decide +kernel) (by decide) (by decide),
    ready_at _ _ _ _ _ _ (by decide +kernel) (by decide +kernel) (by decide) (by decide),
    resolve_m ptr _ 0x10000 8 (by decide +kernel) (by decide +kernel) (not_fenced (by decide +kernel)) (by decide +kernel) (by decide +kernel) (by decide)
      (by decide), by decide +kernel⟩

theorem along_races (may : Nat → Prop) (s : State) (r : List (Nat × Nat)) : Along may s { s with m := { s.m with races := r } } :=
  ⟨⟨_, _, _, _, _, _, _, _, _, _, _, _, rfl⟩, fun _ => rfl, fun _ _ => rfl⟩

theorem witness_Atomics_late : Calm lazy ∧ NoReplay lazy ∧ lazy.defers = true ∧ orAcq 1 = true ∧ orAcq 2 = false ∧ orRel 2 = true ∧
    Ready (fun _ => False) lazy { kind := 3 } (lazy.getX 2) 8 (stashPa 0 (0 + 0)) ∧
    ∃ q, resolveAligned lazy.ctx { kind := 3 } (lazy.getX 2) 8 { lazy with m := { lazy.m with races := [] } } =
      .ok q { lazy with m := { lazy.m with races := [] } } := by
  have h := lazy_place (fun _ => False) { kind := 3 } 8 7 (by decide +kernel) (by decide) (by decide +kernel)
  have e : lazy.getX 2 = loc 0 := by decide +kernel
  rw [e]
  obtain ⟨p, -, hp⟩ := h.1 _ (along_races _ lazy [])
  exact ⟨calm_of (by decide +kernel), by unfold NoReplay; decide +kernel, by decide +kernel, by decide, by decide, by decide, h, p, hp⟩

theorem witness_Fences : Calm base ∧ base.has .lo = true ∧ fenceWaits 3 base = false ∧ base.ct.ord.detctl = false ∧ (4 : BitVec 3).toNat ≤ 4 ∧
    (busy base).has .lo = true ∧ fenceWaits 3 (busy base) = true ∧
    (let s : State := { base with
       ct := { base.ct with ord := { base.ct.ord with detctl := true } }
       m := { base.m with wcb := [⟨0, 0, 7, 0x10000, 0x10000, [⟨0, 1, 0xFF⟩], [], none, false⟩] } }
     fenceWaits 1 s = false ∧ s.ct.ord.detctl = true) ∧
    (let s : State := { base with m := { base.m with biWait := [0x10000] } }
     fenceWaits 3 s = false ∧ s.m.sbuf = [] ∧ s.m.wcb = [] ∧ s.m.late = [] ∧ hostQuiet s = false) := ⟨calm_base, by decide +kernel⟩

/-- The task and another in group 4095, neither arrived. -/
def pair : State := grp (xs base [(2, 4095)]) 4095 [(7, false), (8, false)]

theorem witness_GroupMembership : Calm pair ∧
    (let s := xs base [(2, 4095)]
     s.has .lt = true ∧ 4095 = (s.getX 2).toNat ∧ groupLost s 4095 = false ∧ groupRefuses s 4095 .join s.ct.task.taskid = false) ∧
    pair.has .lt = true ∧ 4095 = (pair.getX 2).toNat ∧ groupLost pair 4095 = false ∧ groupRefuses pair 4095 .leave pair.ct.task.taskid = false ∧
    groupRefuses pair 4095 .arrive pair.ct.task.taskid = false ∧ vecQuiet pair = true ∧ arrivalAt pair = none ∧
    (∃ m ∈ (pair.group 4095).members, m.who.task ≠ pair.ct.task.taskid ∧ m.arrived = false) ∧
    (let s : State := { pair with
        ct := { pair.ct with ctl := { pair.ct.ctl with gwait := [(4095, 0, 0x4000)] } }
        pkg := { pair.pkg with groups := [⟨4095, [], 1, 0⟩] } }
     arrivalAt s = some (4095, 0) ∧ 0 < (s.group 4095).phase ∧ s.m.early = []) := ⟨calm_of (by decide +kernel), by decide +kernel⟩

theorem witness_IterationRing : Calm (xs base [(2, 9)]) ∧
    (let s := xs base [(2, 9)]
     s.has .lt = true ∧ (15 : Reg).toNat < 16 ∧ vecQuiet s = true ∧ s.pkg.parked = [] ∧ s.ct.ctl.post = none ∧ s.sched.deferStores = false ∧
       (ringCopy s (dieOf s.ct.lcore) 15).1 < s.getX 2) ∧
    (let s : State := { base with ct := { base.ct with ctl := { base.ct.ctl with post := some (15, 9) } } }
     s.ct.ctl.post = some (15, 9) ∧ s.pkg.parked = []) ∧
    ({ base with sched := { base.sched with deferStores := true } } : State).sched.deferStores = true ∧
    base.getX 2 ≤ (ringCopy base (dieOf base.ct.lcore) 15).1 ∧ base.m.early = [] := ⟨calm_of (by decide +kernel), by decide +kernel⟩

/-- A queue with n values. -/
def queued (s : State) (q n : Nat) : State :=
  { s with ct := { s.ct with vec := { s.ct.vec with queues := s.ct.vec.queues.setIfInBounds q (List.replicate n 5) } } }

theorem witness_Queues : NoReplay user ∧ (queued user 3 7).has .lv = true ∧ (3 : Reg).toNat < 4 ∧ ((queued user 3 7).queue 3).length < 8 ∧
    8 ≤ ((queued user 3 8).queue 3).length ∧ 4 ≤ (4 : Reg).toNat ∧ (7 : Reg).toNat < 8 ∧ user.ct.level = .u ∧
    (queued user 7 2).queue 7 = 5 :: [5] ∧ (queued user 7 2).queue 6 = [] ∧ ((queued user 3 8).queue 3).length ≤ 8 :=
  ⟨by unfold NoReplay; decide +kernel, by decide +kernel⟩

/-- Words that are ready one after another. -/
theorem ready_words (may : Nat → Prop) (s : State) (a : Acc) (va : Word) (w n pa : Nat) (h : mready s = true)
    (hp : ∀ k, k < n → (va + BitVec.ofNat 64 (w * k)).toNat = pa + w * k ∧ (pa + w * k) % w = 0 ∧ pa + w * k < 2 ^ 38) (k : Nat) (hk : k < n) :
    Ready may s a (va + BitVec.ofNat 64 (w * k)) w (pa + w * k) :=
  ready_at may s a _ w _ h (hp k hk).1 (hp k hk).2.1 (hp k hk).2.2

/-- tr at 0x20000, the record region at 0x100000, and core 0's lowest free record number 255. -/
def rec_ (s : State) (pool : BitVec 256) : State :=
  { xs s [(2, 0x20000)] with
    cores := s.cores.set 0 { s.cores[0] with pool := pool }
    pkg := { s.pkg with recRegion := 0x100000 } }

theorem witness_TaskRecords_talloc : let s := rec_ base (1#256 <<< 255)
    Calm s ∧
    (∀ i, i < 8 → Ready (fun a => 0x103FC0 ≤ a ∧ a < 0x103FC0 + 64) s { kind := 1, plain := true } (s.getX 2 + BitVec.ofNat 64 (8 * i)) 8 (0x20000 + 8 * i)) ∧
    (∀ i, i < 8 → Ready (fun a => 0x103FC0 ≤ a ∧ a < 0x103FC0 + 64) s { kind := 2, plain := true }
      (s.pkg.recRegion + BitVec.ofNat 64 (16384 * s.ct.lcore + 64 * 255) + BitVec.ofNat 64 (8 * i)) 8 (0x103FC0 + 8 * i)) ∧
    s.has .lt = true ∧ Memory.wf s.m.mem = true ∧ s.ct.ord.detctl = false ∧ s.sched.deferStores = false ∧ s.ct.lcore < 128 ∧
    freeRecord (s.core s.ct.lcore) = some 255 :=
  ⟨calm_of (by decide +kernel), ready_words _ _ _ _ 8 8 _ (by decide +kernel) (by decide +kernel),
    ready_words _ _ _ _ 8 8 _ (by decide +kernel) (by decide +kernel), by decide +kernel⟩

/-- tr in the stash, and no record free. -/
def noRec : State := { xs user [(2, loc 0)] with cores := user.cores.set 0 { user.cores[0] with pool := 0 } }

theorem witness_TaskRecords_none : Calm noRec ∧
    (∀ i, i < 8 → Ready (fun _ => False) noRec { kind := 1, plain := true } (noRec.getX 2 + BitVec.ofNat 64 (8 * i)) 8 (stashPa 0 0 + 8 * i)) ∧
    noRec.has .lt = true ∧ noRec.ct.level = .u ∧ freeRecord (noRec.core noRec.ct.lcore) = none :=
  ⟨calm_of (by decide +kernel), ready_loc_words _ _ _ _ 8 8 _ (by decide +kernel) (by decide +kernel), by decide +kernel⟩

theorem witness_TaskRecords_tfree : let s := rec_ user 0
    s.has .lt = true ∧ s.ct.level = .u ∧
    (let u := xs s [(3, 0x2FFFC0)]
     (u.getX 3).toNat % 64 = 0 ∧ (u.getX 3 - u.pkg.recRegion).toNat < 2 ^ 21) ∧
    (let u := xs s [(3, 0x100001)]
     (u.getX 3).toNat % 64 ≠ 0) ∧
    (let u := xs s [(3, 0x300000)]
     (u.getX 3).toNat % 64 = 0 ∧ 2 ^ 21 ≤ (u.getX 3 - u.pkg.recRegion).toNat) := by decide +kernel

/-- x2 a record at 0x20000, x3 a continuation, and the task's own continuation. -/
def spawner (c : Word) (own : Option Word) (ctl : Nat) : State :=
  let s := put (xs base [(2, 0x20000), (3, c)]) 0x20038 8 ctl
  { s with ct := { s.ct with task := { s.ct.task with cont := own } } }

theorem witness_TaskSpawn : ∀ s ∈ [spawner 0 none 0, spawner 0x20040 none 0, spawner 0x20040 (some 0x20080) (8 * 2 ^ 42 + 5 * 2 ^ 55)],
    Calm s ∧
    (let may := fun x => (0x20038 ≤ x ∧ x < 0x20038 + 8) ∨ (0x20078 ≤ x ∧ x < 0x20078 + 8)
     Ready may s { kind := 1, plain := true } (s.getX 2 + 0x38) 8 0x20038 ∧ Ready may s { kind := 2, plain := true } (s.getX 2 + 0x38) 8 0x20038 ∧
     (s.getX 3 ≠ 0 → Ready may s { kind := 1, plain := true } (s.getX 3 + 0x38) 8 0x20078 ∧
       Ready may s { kind := 2, plain := true } (s.getX 3 + 0x38) 8 0x20078)) ∧
    (s.getX 3 ≠ 0 → contReachable s (s.getX 2) (s.getX 3) = true) ∧
    s.has .lt = true ∧ vecQuiet s = true ∧ Memory.wf s.m.mem = true ∧ s.ct.ord.detctl = false ∧ s.sched.deferStores = false ∧
    s.ct.lcore < 128 ∧ (s.getX 2).toNat % 64 = 0 ∧ (s.getX 3).toNat % 64 = 0 ∧ hwCount (s.core s.ct.lcore) < 64 ∧
    (Ctl.parse (s.numAt 0x20038 8)).accmin ≤ 8 ∧ (Ctl.parse (s.numAt 0x20038 8)).slot ≤ 5 := by
  intro s hs
  have hm : mready s = true ∧ calmB s = true ∧ (s.getX 2 + 0x38).toNat = 0x20038 ∧ (s.getX 3 ≠ 0 → (s.getX 3 + 0x38).toNat = 0x20078) := by
    simp only [List.mem_cons, List.not_mem_nil, or_false] at hs
    obtain rfl | rfl | rfl := hs <;> decide +kernel
  have hr : (s.getX 3 ≠ 0 → contReachable s (s.getX 2) (s.getX 3) = true) ∧
      s.has .lt = true ∧ vecQuiet s = true ∧ Memory.wf s.m.mem = true ∧ s.ct.ord.detctl = false ∧ s.sched.deferStores = false ∧
      s.ct.lcore < 128 ∧ (s.getX 2).toNat % 64 = 0 ∧ (s.getX 3).toNat % 64 = 0 ∧ hwCount (s.core s.ct.lcore) < 64 ∧
      (Ctl.parse (s.numAt 0x20038 8)).accmin ≤ 8 ∧ (Ctl.parse (s.numAt 0x20038 8)).slot ≤ 5 := by
    simp only [List.mem_cons, List.not_mem_nil, or_false] at hs
    obtain rfl | rfl | rfl := hs <;> decide +kernel
  have at_ (may : Nat → Prop) (k : Nat) := ready_at may s { kind := k, plain := true } _ 8 0x20038 hm.1 hm.2.2.1 (by decide) (by decide)
  have to_ (may : Nat → Prop) (k : Nat) (h : s.getX 3 ≠ 0) :=
    ready_at may s { kind := k, plain := true } _ 8 0x20078 hm.1 (hm.2.2.2 h) (by decide) (by decide)
  exact ⟨calm_of hm.2.1, ⟨at_ _ 1, at_ _ 2, fun h => ⟨to_ _ 1 h, to_ _ 2 h⟩⟩, hr⟩

/-- A record in the stash that R101 refuses. -/
def badSpawn : State := put (xs user [(2, loc 0)]) (stashPa 0 0x38) 8 (9 * 2 ^ 42)

theorem witness_TaskSpawn_refused : Calm badSpawn ∧
    (let may := fun x => (stashPa 0 (0 + 0x38) ≤ x ∧ x < stashPa 0 (0 + 0x38) + 8) ∨ (0 ≤ x ∧ x < 0 + 8)
     Ready may badSpawn { kind := 1, plain := true } (badSpawn.getX 2 + 0x38) 8 (stashPa 0 (0 + 0x38)) ∧
     Ready may badSpawn { kind := 2, plain := true } (badSpawn.getX 2 + 0x38) 8 (stashPa 0 (0 + 0x38))) ∧
    badSpawn.has .lt = true ∧ vecQuiet badSpawn = true ∧ (badSpawn.getX 2).toNat % 64 = 0 ∧ badSpawn.ct.level = .u ∧
    8 < (Ctl.parse (badSpawn.numAt (stashPa 0 (0 + 0x38)) 8)).accmin := by
  have hs : sready badSpawn = true := by decide +kernel
  have at_ (may : Nat → Prop) (k : Nat) : Ready may badSpawn { kind := k, plain := true } (badSpawn.getX 2 + 0x38) 8 (stashPa 0 (0 + 0x38)) :=
    ready_loc _ _ _ _ 8 _ 0x3F hs (by decide +kernel) (by decide +kernel) (by decide) (by decide +kernel) (by decide +kernel)
  exact ⟨calm_of (by decide +kernel), ⟨at_ _ 1, at_ _ 2⟩, by decide +kernel⟩

/-- A job of the task under a tag on core 0: a copy of 8 bytes within its stash. -/
def job (t : Nat) (st : JobState) : Job where
  id := 1
  engine := .copy
  tag := t
  task := 7
  ctno := 0
  card := { parseCard (toBytes 64 (2 ^ 144 * 8 + 2 ^ 480 * (5 + 5 * 2 ^ 5 + 2 ^ 10))) with src := loc 0x100, dst := loc 0x200 }
  troot := 0
  stashBase := 0
  stashLen := 0x10000
  launch := none
  reads := []
  writes := []
  state := st
  err := none

/-- Jobs on core 0. -/
def jobs (s : State) (l : List Job) : State := { s with cores := s.cores.set 0 { s.cores[0] with jobs := l } }

/-- Errors kept with the task's tags. -/
def errs (s : State) (l : List KeptError) : State := { s with ct := { s.ct with uli := { s.ct.uli with errs := l } } }

theorem witness_TaskEnd_waits : base.has .lt = true ∧ base.ct.status = .running ∧ base.ct.lcore < 128 ∧ (busy base).viqEmpty = false ∧
    (let s := jobs base [job 31 (.ready 0)]
     s.viqEmpty = true ∧ jobsOf s s.ct.lcore s.ct.task.taskid ≠ []) ∧
    (let s := errs user [⟨3, 31, 6, 0x1000⟩]
     s.viqEmpty = true ∧ jobsOf s s.ct.lcore s.ct.task.taskid = [] ∧ s.ct.uli.errs = ⟨3, 31, 6, 0x1000⟩ :: [] ∧ s.ct.level = .u) := by decide +kernel

theorem witness_TaskEnd_last : Calm base ∧ base.viqEmpty = true ∧ jobsOf base base.ct.lcore base.ct.task.taskid = [] ∧ base.ct.uli.errs = [] ∧
    groupsOf base base.ct.task.taskid = [] ∧ base.ct.task.stashLen = 0 ∧ base.ct.task.chunk = none ∧ base.ct.task.cont = none :=
  ⟨calm_base, by decide +kernel⟩

/-- A task with a continuation at 0x20000 whose JOIN is given, delivering into slot 5. -/
def joiner (j : Nat) : State :=
  let s := put base 0x20038 8 (j * 2 ^ 16)
  { s with ct := { s.ct with task := { s.ct.task with cont := some 0x20000, slot := 5 } } }

theorem witness_TaskEnd_delivers : ∀ j ∈ [1, 2],
    Calm (joiner j) ∧
    Ready (fun x => (0x20038 ≤ x ∧ x < 0x20038 + 8) ∨ (0x20030 ≤ x ∧ x < 0x20030 + 8)) (joiner j) { kind := 3 }
      (0x20000 + BitVec.ofNat 64 (8 + 8 * (joiner j).ct.task.slot)) 8 0x20030 ∧
    Ready (fun x => (0x20038 ≤ x ∧ x < 0x20038 + 8) ∨ (0x20030 ≤ x ∧ x < 0x20030 + 8)) (joiner j) { kind := 3 } (0x20000 + 0x38) 8 0x20038 ∧
    (joiner j).ct.task.cont = some 0x20000 ∧ Memory.wf (joiner j).m.mem = true ∧ ((0x20030 : Nat) + 8 ≤ 0x20038 ∨ (0x20038 : Nat) + 8 ≤ 0x20030) ∧
    hwCount ((joiner j).core (joiner j).ct.lcore) < 64 ∧ (Ctl.parse ((joiner j).numAt 0x20038 8)).join = j := by
  intro j hj
  simp only [List.mem_cons, List.not_mem_nil, or_false] at hj
  obtain rfl | rfl := hj <;>
    exact ⟨calm_of (by decide +kernel), ready_at _ _ _ _ _ _ (by decide +kernel) (by decide +kernel) (by decide) (by decide),
      ready_at _ _ _ _ _ _ (by decide +kernel) (by decide) (by decide) (by decide), by decide +kernel⟩

theorem witness_TaskPark_refused :
    (let s : State := { user with ct := { user.ct with task := { user.ct.task with isInst := true } } }
     s.has .lt = true ∧ s.viqEmpty = true ∧ s.ct.task.isInst = true ∧ s.ct.level = .u) ∧
    (let s := xs user [(2, 32)]
     s.ct.task.isInst = false ∧ s.ct.level = .u ∧ 32 ≤ (s.getX 2).toNat) := by decide +kernel

theorem witness_TaskPark : Calm pair ∧ pair.has .lt = true ∧ pair.viqEmpty = true ∧ pair.ct.task.isInst = false ∧ vecQuiet pair = true ∧
    pair.pkg.parked = [] ∧ jobsOf pair pair.ct.lcore pair.ct.task.taskid = [] ∧ pair.ct.task.stashLen = 0 ∧ 4095 = (pair.getX 2).toNat ∧
    groupLost pair 4095 = false ∧ groupRefuses pair 4095 .park pair.ct.task.taskid = false ∧
    (∃ m ∈ (pair.group 4095).members, m.who.task ≠ pair.ct.task.taskid ∧ m.arrived = false) ∧
    (ringCopy pair (dieOf pair.ct.lcore) 15).1 < pair.getX 2 ∧
    (let s := xs base [(2, base.pkg.recRegion), (3, 31)]
     (s.getX 3).toNat < 32 ∧ s.ct.lcore < 128 ∧ hwCount (s.core s.ct.lcore) < 64 ∧ (s.getX 2 + 0x38 - s.pkg.recRegion).toNat < 2 ^ 21) :=
  ⟨calm_of (by decide +kernel), by decide +kernel⟩

/-- The task's stash range at 0xFFC0, 64 bytes, and the global line 0x10000. -/
def mapper : State := xs user [(2, loc 0xFFC0), (3, 0x10000), (4, 64)]

theorem witness_StashMapping_smap : Calm mapper ∧ mapper.has .lt = true ∧ mapper.viqEmpty = true ∧ (mapper.getX 2).toNat % 64 = 0 ∧
    (mapper.getX 4).toNat % 64 = 0 ∧ mapper.getX 4 ≠ 0 ∧ (mapper.getX 3).toNat % 64 = 0 ∧ windowOf (mapper.getX 3) = .global ∧
    stashRange mapper (mapper.getX 2) (mapper.getX 4) = some 0xFFC0 ∧ jobOverlaps mapper 0xFFC0 64 = false ∧ mapper.ct.task.maps.length < 16 ∧
    (∀ m ∈ mapper.ct.task.maps, m.off + m.len ≤ 0xFFC0 ∨ 0xFFC0 + 64 ≤ m.off) ∧ (∀ m ∈ mapper.ct.task.maps, m.meets 0xFFC0 64 = true → m.inside 0xFFC0 64 = true) ∧
    Memory.wf mapper.m.mem = true := ⟨calm_of (by decide +kernel), by decide +kernel⟩

/-- A DIRTY line of that range. -/
def dirtyLine : SLine := ⟨stashPa 0 0xFFC0, .dirty, 0x10000, 0x10000, 0, []⟩
def dirty : State := { mapper with m := { mapper.m with slines := [dirtyLine] } }

theorem witness_StashMapping_sflush : Calm { dirty with m := { dirty.m with slines := [] } } ∧ atHome dirtyLine.pa dirty = .ok () dirty ∧
    Memory.wf dirty.m.mem = true ∧ dirty.m.slines = [dirtyLine] ∧ dirtyLine.state = .dirty ∧
    stashPa dirty.ct.lcore (dirty.ct.task.stashBase + 0xFFC0) ≤ dirtyLine.at_ ∧
    dirtyLine.at_ < stashPa dirty.ct.lcore (dirty.ct.task.stashBase + 0xFFC0) + 64 ∧ (dirtyLine.at_ + 64 ≤ dirtyLine.pa ∨ dirtyLine.pa + 64 ≤ dirtyLine.at_) :=
  ⟨calm_of (by decide +kernel), atHome_dram _ _ (by decide) (by decide +kernel) (not_fenced (by decide +kernel)) (by decide +kernel), by decide +kernel⟩

/-- A range of three lines of which one is MAPPED, one CLEAN and one DIRTY. -/
def lined : State :=
  let s := xs user [(2, loc 0xFF40), (3, 192), (4, 64), (5, loc 0)]
  { s with m := { s.m with slines := [{ dirtyLine with at_ := stashPa 0 0xFF40, state := .mapped, pa := stashPa 0 0xFF40 },
      { dirtyLine with at_ := stashPa 0 0xFF80, state := .clean, va := 0x10040, pa := 0x10040 }, dirtyLine] } }

theorem witness_StashMapping_lines : Calm { lined with m := { lined.m with slines := [] } } ∧
    (∀ l ∈ lined.m.slines, l.state = .dirty → atHome l.pa lined = .ok () lined) ∧
    lined.has .lt = true ∧ lined.viqEmpty = true ∧ (lined.getX 2).toNat % 64 = 0 ∧ (lined.getX 3).toNat % 64 = 0 ∧ lined.getX 3 ≠ 0 ∧
    stashRange lined (lined.getX 2) (lined.getX 3) = some 0xFF40 ∧ jobOverlaps lined 0xFF40 192 = false ∧ lined.ct.task.maps = [] ∧
    Memory.wf lined.m.mem = true ∧ (lined.m.slines.map (·.at_)).Nodup ∧
    (∀ l ∈ lined.m.slines, stashPa lined.ct.lcore (lined.ct.task.stashBase + 0xFF40) ≤ l.at_ ∧
      l.at_ + 64 ≤ stashPa lined.ct.lcore (lined.ct.task.stashBase + 0xFF40) + 192) ∧
    (∀ l ∈ lined.m.slines, l.state = .dirty → l.pa + 64 ≤ stashPa lined.ct.lcore (lined.ct.task.stashBase + 0xFF40)) ∧
    (∀ l ∈ lined.m.slines, ∀ o ∈ lined.m.slines, l.state = .dirty → o.state = .dirty → l.at_ ≠ o.at_ → l.pa + 64 ≤ o.pa) ∧
    stashRange lined (lined.getX 5) (lined.getX 4) = some 0 ∧ jobOverlaps lined 0 64 = false ∧ (lined.getX 5).toNat % 64 = 0 := by
  refine ⟨calm_of (by decide +kernel), fun l hl hd => ?_, by decide +kernel⟩
  have h : ∀ l ∈ lined.m.slines, l.state = .dirty → l.pa = 0x10000 := by decide +kernel
  rw [h l hl hd]
  exact atHome_dram _ _ (by decide) (by decide +kernel) (not_fenced (by decide +kernel)) (by decide +kernel)

/-- SUNMAP of that range writes the DIRTY line alone back, and zeroes the range. -/
theorem test_sunmap_lines : after (.sunmap 2 3) (put lined (stashPa 0 0xFF80) 128 (5 + 2 ^ 512 * 7)) (1, 1, 1, 1)
    (fun t => (t.numAt 0x10000 8, t.numAt 0x10040 8, t.numAt (stashPa 0 0xFF40) 192, t.m.slines.length)) = (7, 0, 0, 0) := by decide +kernel

theorem witness_UserHandlerReturn :
    (let s : State := { user with ct := { user.ct with uli := { user.ct.uli with act := true } } }
     s.has .lx = true ∧ s.ct.uli.act = true ∧ s.ct.task.reflected = false) ∧ user.has .lx = true ∧ user.ct.uli.act = false ∧ user.ct.level = .u ∧
    (let s : State := { user with ct := { user.ct with uli := { user.ct.uli with act := true }, task := { user.ct.task with reflected := true } } }
     s.has .lx = true ∧ s.ct.uli.act = true ∧ s.ct.task.reflected = true ∧ s.ct.level = .u) := by
  decide +kernel

/-- Electrum on in die 0, its buffer of 4 GiB at 0x40000000, wrapping. -/
def live : State :=
  let d := base.dies[0]
  { xs base [(2, 5)] with dies := base.dies.set 0 { d with el := { d.el with on := true, wrap := true, ebase := 0x40000000, esize := 12, efilt := 0x0F } } }

theorem witness_Mark : Calm live ∧ (base.el (dieOf base.ct.lcore)).etval ≠ (xs base [(2, 5)]).getX 2 ∧ (base.el (dieOf base.ct.lcore)).live = false ∧
    live.has .lb = true ∧ (live.el (dieOf live.ct.lcore)).etval ≠ live.getX 2 ∧ (live.el (dieOf live.ct.lcore)).live = true ∧ live.ct.lcore < 128 ∧
    live.dieFenced (dieOf live.ct.lcore) = false ∧ (live.el (dieOf live.ct.lcore)).frozen = false ∧ (live.el (dieOf live.ct.lcore)).wrap = true ∧
    (live.el (dieOf live.ct.lcore)).lossPend = 0 ∧ passes live live.ct live.ct.pc = true ∧ Memory.wf live.m.mem = true ∧
    (∀ l ∈ linesOf 0x40000000 128, live.answers l = true ∧ live.inUse l = true) ∧
    (let s : State := { live with dies := live.dies.set 1 { live.dies[1] with fenced := true } }
     (∀ l ∈ linesOf (2 ^ 36) 128, s.answers l = false) ∧ s.dieFenced (dieOf s.ct.lcore) = false) :=
  ⟨calm_of (by decide +kernel), by decide +kernel⟩

/-- A nest of one word after the instruction. -/
def nest (w : Nat) : State := { put user 0x4004 4 w with ct := { user.ct with pc := 0x4000, level := .m } }

theorem witness_Nests : (∃ ws s1, fetchBody ((0 : BitVec 5).toNat + 1) ((nest 0x84200000).ct.pc + 4) [] (nest 0x84200000) = .ok ws s1 ∧
      (s1 == nest 0x84200000 && ws.all fun w => (decode w).isSome && inNest w && (wordProfiles w).all fun p => s1.has p) = true) ∧
    (∃ ws s1, fetchBody ((0 : BitVec 5).toNat + 1) ((at_ 0x7800001B).ct.pc + 4) [] (at_ 0x7800001B) = .ok ws s1 ∧
      (s1 == at_ 0x7800001B && s1.ct.level == .u && ws.any fun w => decode w == none) = true) ∧
    user.has .lx = true ∧ ((xs user [(2, 65535)]).getX 2).toNat ≤ 65535 ∧ 65535 < ((xs user [(2, 65536)]).getX 2).toNat ∧ user.ct.level = .u ∧
    (nest 0x84200000).has .lx = true :=
  ⟨exists_ok _ (by decide +kernel), exists_ok _ (by decide +kernel), by decide +kernel⟩

/-- A nest whose body word, at the task's second word, is the one given. -/
def body (w : Nat) (p : BitVec 7) : State :=
  let s := at_ 0x7800001B
  { put s 0x1004 4 w with ct := { s.ct with task := { s.ct.task with profs := p } } }

/-- ADD may not stand in a nest, and VID needs LV. -/
theorem witness_Nests_refused : ∀ q ∈ [(0x08221800, BitVec.allOnes 7, true), (0x84200000, 0x40, false)],
    ∃ ws s1, fetchBody ((0 : BitVec 5).toNat + 1) ((body q.1 q.2.1).ct.pc + 4) [] (body q.1 q.2.1) = .ok ws s1 ∧
      (s1 == body q.1 q.2.1 && s1.has .lx && s1.ct.level == .u && ws.all (fun w => (decode w).isSome) &&
        (if q.2.2 then ws.any (fun w => !inNest w) else ws.any fun w => (wordProfiles w).any fun p => !s1.has p)) = true := by
  intro q hq
  simp only [List.mem_cons, List.not_mem_nil, or_false] at hq
  obtain rfl | rfl := hq <;> exact exists_ok _ (by decide +kernel)

/-- A nest of two dimensions at a position of its two words, both in the VIQ. -/
def looping (c : Nat) (pos : List Nat) (next : Nat) : State :=
  let e : VEntry := { entry0 base (.vid 1 0 0) with nested := true }
  { base with ct := { base.ct with
      vec := { base.ct.vec with viq := [e, e] }
      nest := { base.ct.nest with runs := [⟨[⟨2, 8⟩, ⟨c, 64⟩], 2, pos, next⟩] } } }

theorem witness_Nests_runs : ∀ q ∈ [(0, [0, 0], 0), (3, [0, 0], 0), (3, [1, 1], 1), (3, [1, 2], 1)], let s := looping q.1 q.2.1 q.2.2
    ∃ r e es, s.ct.nest.runs = r :: [] ∧ s.ct.vec.viq = e :: es ∧ e.nested = true ∧ r.body ≤ (e :: es).length ∧ r.next < r.body ∧
      r.dims.length = r.pos.length ∧ ((∃ d ∈ r.dims, d.count = 0) ↔ q.1 = 0) ∧ (e :: es)[r.next]? = some e ∧ e.resumed = false ∧
      (∀ x ∈ (e :: es).take r.body, x.sampled = false) ∧
      (nextPos r.dims r.pos = if q.2.1 = [1, 2] then none else some (if q.2.1 = [1, 1] then [0, 2] else [1, 0])) := by
  intro q hq
  simp only [List.mem_cons, List.not_mem_nil, or_false] at hq
  obtain rfl | rfl | rfl | rfl := hq <;> exact ⟨_, _, _, rfl, rfl, by decide +kernel⟩

/-- x2 at 0x10000, and there the image of the reals (Table 8.3). -/
def table : State := put ptr 0x10000 80 realImage.toNat

theorem witness_AlgebraTableLoad : Calm table ∧
    (∀ k, k < 5 → Ready (fun _ => False) table { kind := 1 } (table.getX 2 + BitVec.ofNat 64 (16 * k)) 16 (0x10000 + 16 * k)) ∧
    table.has .la = true ∧ (3 : Reg).toNat < 4 ∧ (busy base).viqEmpty = false ∧ table.viqEmpty = true ∧
    ((xs user [(2, 8)]).getX 2).toNat % 16 ≠ 0 ∧ user.ct.level = .u ∧ (table.getX 2).toNat % 16 = 0 ∧
    Alg.ok (BitVec.ofNat 640 (table.numAt 0x10000 80)) = true :=
  ⟨calm_of (by decide +kernel), ready_words _ _ _ _ 16 5 _ (by decide +kernel) (by decide +kernel), by decide +kernel⟩

/-- A table address in the stash of a task in U, whose bytes are zero. -/
def zeroTable : State := xs user [(2, loc 0)]

theorem witness_AlgebraTableLoad_refused : Calm zeroTable ∧
    (∀ k, k < 5 → Ready (fun _ => False) zeroTable { kind := 1 } (zeroTable.getX 2 + BitVec.ofNat 64 (16 * k)) 16 (stashPa 0 0 + 16 * k)) ∧
    zeroTable.has .la = true ∧ zeroTable.viqEmpty = true ∧ (zeroTable.getX 2).toNat % 16 = 0 ∧ zeroTable.ct.level = .u ∧
    Alg.ok (BitVec.ofNat 640 (zeroTable.numAt (stashPa 0 0) 80)) = false :=
  ⟨calm_of (by decide +kernel), ready_loc_words _ _ _ _ 16 5 _ (by decide +kernel) (by decide +kernel), by decide +kernel⟩

/-- A card for a copy of 8 bytes from 0x30000 to 0x40000 at 0x10000. -/
def carded : State := put ptr 0x10000 64 (2 ^ 144 * 8 + 2 ^ 480 * (5 + 5 * 2 ^ 5 + 2 ^ 10) + 0x30000 + 2 ^ 48 * 0x40000)

theorem witness_EngineJobs_issue : Calm carded ∧
    (∀ k, k < 16 → Ready (fun _ => False) carded { kind := 1 } (carded.getX 2 + BitVec.ofNat 64 (8 * k)) 8 (0x10000 + 8 * k)) ∧
    carded.has .lx = true ∧ carded.ct.lcore < 128 ∧ (carded.getX 2).toNat % 64 = 0 ∧
    (let bs := carded.bytesAt 0x10000 (if natBits (cardCtl (carded.bytesAt 0x10000 64)) 13 3 = 0 then 64 else 128)
     cardOk .copy carded.ctx bs = true) ∧
    (carded.core carded.ct.lcore).jobs.length < 32 ∧
    (let s := jobs carded (List.replicate 32 (job 3 (.ready 0)))
     32 ≤ (s.core s.ct.lcore).jobs.length) ∧
    ((xs user [(2, 0x10020)]).getX 2).toNat % 64 ≠ 0 ∧ user.ct.level = .u :=
  ⟨calm_of (by decide +kernel), ready_words _ _ _ _ 8 16 _ (by decide +kernel) (by decide +kernel), by decide +kernel⟩

theorem witness_EngineJobs_refused : Calm zeroTable ∧
    (∀ k, k < 16 → Ready (fun _ => False) zeroTable { kind := 1 } (zeroTable.getX 2 + BitVec.ofNat 64 (8 * k)) 8 (stashPa 0 0 + 8 * k)) ∧
    zeroTable.has .lx = true ∧ zeroTable.ct.lcore < 128 ∧ (zeroTable.getX 2).toNat % 64 = 0 ∧ zeroTable.ct.level = .u ∧
    (let bs := zeroTable.bytesAt (stashPa 0 0) (if natBits (cardCtl (zeroTable.bytesAt (stashPa 0 0) 64)) 13 3 = 0 then 64 else 128)
     ∀ k ∈ [JobKind.copy, .gather, .coll], cardOk k zeroTable.ctx bs = false) :=
  ⟨calm_of (by decide +kernel), ready_loc_words _ _ _ _ 8 16 _ (by decide +kernel) (by decide +kernel), by decide +kernel⟩

theorem witness_EngineJobs_wait : (∃ j ∈ ((jobs user [job 31 (.ready 0)]).core user.ct.lcore).jobs, j.task = user.ct.task.taskid ∧ j.ofTag (31 : Reg).toNat = true) ∧
    (∀ j ∈ (user.core user.ct.lcore).jobs, j.task = user.ct.task.taskid → j.ofTag (31 : Reg).toNat = false) ∧ user.m.early = [] ∧
    (∀ e ∈ user.ct.uli.errs, e.tag ≠ (31 : Reg).toNat) ∧
    (let l : List KeptError := [⟨1, 30, 6, 0x1000⟩]
     let r : List KeptError := [⟨9, 31, 4, 0x3000⟩]
     let s := errs user (l ++ ⟨4, 31, 6, 0x2000⟩ :: r)
     s.ct.uli.errs = l ++ ⟨4, 31, 6, 0x2000⟩ :: r ∧ (31 : Nat) = (31 : Reg).toNat ∧ (∀ x ∈ l, x.tag ≠ (31 : Reg).toNat) ∧ s.ct.level = .u ∧
      (s.ct.uli.errs.map (·.job)).Pairwise (· ≤ ·)) := by decide +kernel

theorem witness_LargestLength : 2048 ∈ [256, 512, 1024, 2048] ∧ 256 ∈ [256, 512, 1024, 2048] ∧ (⟨13, 3, 0, 0, 0⟩ : Vcfg).etype.toNat ≤ 13 := by decide

theorem vecReady_base : VecReady base := by unfold VecReady; decide +kernel

theorem witness_VectorConfigure : VecReady base ∧ base.has .lv = true := ⟨vecReady_base, by decide +kernel⟩

theorem vecStart_of {s : State} {p : Profile}
    (h : (s.immediate && !observed s && [256, 512, 1024, 2048].contains s.L && decide (s.ct.vec.vcfg.ty ≤ 13) && decide (s.ct.vec.vl ≤ vlmax s.L s.ct.vec.vcfg) &&
      s.has p) = true) : VecStart s p := by
  simp only [Bool.and_eq_true, Bool.not_eq_true', decide_eq_true_eq] at h
  obtain ⟨⟨⟨⟨⟨h1, h2⟩, h3⟩, h4⟩, h5⟩, h6⟩ := h
  exact ⟨⟨h1, h2⟩, ⟨by simpa using h3, h4, h5⟩, h6⟩

/-- VecOpen as a test. -/
theorem vecOpen_of {s : State} (h : (s.ct.ord.vvJobs.all (fun j => !decide (j.2 < s.ct.ord.fenceIvl) || !(readingFills s).contains j.1) && (!s.ct.ord.detctl || (readingFills s).isEmpty)) = true) :
    VecOpen s := by
  simp only [Bool.and_eq_true, List.all_eq_true, Bool.not_eq_true', Bool.or_eq_true, List.isEmpty_iff, List.contains_eq_mem, decide_eq_false_iff_not] at h
  exact ⟨fun j hj hi => (h.1 j hj).resolve_left (fun x => x hi), fun hd => h.2.resolve_left (by simp [hd])⟩

theorem groupOk_of {s : State} {r : Reg} (h : r.toNat % s.ct.vec.vcfg.g = 0) : GroupOk s r := h

/-- Four elements of i32, of binary32, and as many of i32 as a register holds, from VSTART = 63. -/
def ints : State := cfg base 2 4
def flts : State := cfg base 12 4
def most : State := { cfg base 2 64 with ct := { (cfg base 2 64).ct with vec := { (cfg base 2 64).ct.vec with vstart := 63 } } }

theorem witness_VectorInteger : ∀ s ∈ [ints, most], VecStart s .lv ∧ GroupOk s 31 ∧ GroupOk s 0 ∧ s.ct.vec.vcfg.ty < 8 := by
  intro s hs
  simp only [List.mem_cons, List.not_mem_nil, or_false] at hs
  obtain rfl | rfl := hs <;> exact ⟨vecStart_of (by decide +kernel), groupOk_of (by decide +kernel), groupOk_of (by decide +kernel), by decide +kernel⟩

theorem witness_VectorMoves : VecStart (queued ints 3 1) .lv ∧ GroupOk (queued ints 3 1) 31 ∧ (queued ints 3 1).ct.vec.vcfg.ty < 8 ∧
    (queued ints 3 1).ct.vec.vstart = 0 ∧ (queued ints 3 1).ct.vec.vl < 2 ^ (8 * (queued ints 3 1).ew) ∧ (3 : Reg).toNat < 4 ∧
    (queued ints 3 1).queue (3 : Reg).toNat = 5 :: [] :=
  ⟨vecStart_of (by decide +kernel), groupOk_of (by decide +kernel), by decide +kernel⟩

theorem witness_VectorToScalar : VecStart ints .lv ∧ GroupOk ints 31 ∧ (∀ j, 3 < j → j < ints.ct.vec.vl → ints.pbit 0 j = false) ∧
    ints.ct.vec.vstart = 0 ∧ 4 ≤ (7 : Reg).toNat ∧ (7 : Reg).toNat < 8 ∧ ints.roomIn 7 = true ∧
    ints.ct.ctl.wait ≠ .ending ∧ 3 < ints.ct.vec.vl ∧ ints.pbit 0 3 = true ∧ (∀ j, j < ints.ct.vec.vl → ints.pbit 1 j = false) ∧ ints.ct.vec.vcfg.ty < 8 :=
  ⟨vecStart_of (by decide +kernel), groupOk_of (by decide +kernel),
    fun j h1 h2 => absurd h2 (by rw [show ints.ct.vec.vl = 4 by decide +kernel]; omega), by decide +kernel⟩

theorem witness_Reductions : ∀ s ∈ [ints, flts], VecStart s .lv ∧ GroupOk s 31 ∧ s.ct.vec.vstart = 0 ∧ 4 ≤ (4 : Reg).toNat ∧ (4 : Reg).toNat < 8 ∧
    s.roomIn (4 : Reg).toNat = true ∧ s.ct.ctl.wait ≠ .ending ∧ (2 : BitVec 2) ≠ 3 ∧ roundingOf 7 s.ct.fp.frm = some 0 ∧
    (s.ct.vec.vcfg.ty < 8 ∨ 10 ≤ s.ct.vec.vcfg.ty) := by
  intro s hs
  simp only [List.mem_cons, List.not_mem_nil, or_false] at hs
  obtain rfl | rfl := hs <;> exact ⟨vecStart_of (by decide +kernel), groupOk_of (by decide +kernel), by decide +kernel⟩

theorem witness_Predicates : ∀ s ∈ [ints, flts], VecStart s .lv ∧ GroupOk s 31 ∧ (7 : Reg).toNat < 8 ∧ ¬ (31 : Reg).toNat < 8 ∧ s.ct.vec.vstart = 0 ∧ (9 : BitVec 4).toNat ≤ 9 ∧
    (5 : BitVec 4).toNat ≤ 5 ∧ (2 : BitVec 2) ≠ 3 ∧ (1 : BitVec 2).toNat ≤ 1 ∧ (s.ct.vec.vcfg.ty < 8 ∨ 10 ≤ s.ct.vec.vcfg.ty) := by
  intro s hs
  simp only [List.mem_cons, List.not_mem_nil, or_false] at hs
  obtain rfl | rfl := hs <;> exact ⟨vecStart_of (by decide +kernel), groupOk_of (by decide +kernel), by decide +kernel⟩

theorem witness_VectorFloat : VecStart flts .lv ∧ GroupOk flts 30 ∧ GroupOk flts 31 ∧ 10 ≤ flts.ct.vec.vcfg.ty ∧ (1 : BitVec 2).toNat ≤ 1 ∧
    roundingOf 4 flts.ct.fp.frm = some 4 ∧ (30 : Reg).toNat + 2 * flts.ct.vec.vcfg.g ≤ 32 ∧ (13 : BitVec 5).toNat ≤ 13 ∧ (8 ≤ (13 : BitVec 5).toNat ∨ 8 ≤ flts.ct.vec.vcfg.ty) ∧
    (31 : Reg).toNat + (flts.ct.vec.vl * tyBytes (13 : BitVec 5).toNat + flts.L - 1) / flts.L ≤ 32 ∧ (30 : Reg).toNat + flts.ct.vec.vcfg.g ≤ (31 : Reg).toNat :=
  ⟨vecStart_of (by decide +kernel), groupOk_of (by decide +kernel), groupOk_of (by decide +kernel), by decide +kernel⟩

theorem witness_VectorAlgebra : ∀ s ∈ [ints, flts], VecStart s .la ∧ GroupOk s 31 ∧ Alg.ok (s.alg 3) = true ∧ s.ct.vec.vstart % Alg.n (s.alg 3) = 0 ∧
    s.ct.vec.vl % Alg.n (s.alg 3) = 0 ∧ (s.ct.vec.vcfg.ty < 8 ∨ 10 ≤ s.ct.vec.vcfg.ty) ∧ roundingOf 7 s.ct.fp.frm = some 0 := by
  intro s hs
  simp only [List.mem_cons, List.not_mem_nil, or_false] at hs
  obtain rfl | rfl := hs <;> exact ⟨vecStart_of (by decide +kernel), groupOk_of (by decide +kernel), by decide +kernel⟩

/-- One entry in the vector stream of the task. -/
def entered (i : Instr) (f : VEntry → VEntry) : State := { base with ct := { base.ct with vec := { base.ct.vec with viq := [f (entry0 base i)] } } }

/-- x2 at 0x10000, x3 a stride of 16, and indices 12, 8, 4, 0 in v20. -/
def vmem : State := vreg (xs ints [(2, 0x10000), (3, 16)]) 20 0x00000000_00000004_00000008_0000000C

theorem todo_lt {s : State} {p : BitVec 3} {i : Nat} (h : s.todo p i = true) : i < s.ct.vec.vl := by
  unfold State.todo at h
  simp only [Bool.and_eq_true, decide_eq_true_eq] at h
  exact h.1.2

/-- Every element's address is ready where each below VL is aligned device memory. -/
theorem ready_elems (may : Nat → Prop) (s : State) (a : Acc) (n m : Nat) (va : Nat → Nat → Word) (h : mready s = true)
    (hv : ((List.range s.ct.vec.vl).all fun i => (List.range m).all fun f => (va i f).toNat % n == 0 && decide ((va i f).toNat < 2 ^ 38)) = true)
    (i f : Nat) (hi : i < s.ct.vec.vl) (hf : f < m) : Ready may s a (va i f) n (va i f).toNat := by
  simp only [List.all_eq_true, List.mem_range, Bool.and_eq_true, beq_iff_eq, decide_eq_true_eq] at hv
  exact ready_at may s a _ n _ h rfl (hv i hi f hf).1 (hv i hi f hf).2

/-- The addresses of the five load forms of vmem: fields, and the address and bit of an element of .i32. -/
def loadForms : List (Instr × Nat × (Nat → Nat → Word × Nat)) :=
  let base := vmem.getX 2
  let at_ (k : Nat) : Word × Nat := (base + BitVec.ofNat 64 (k * 32 / 8), k * 32 % 8)
  [(.vld 8 2 0 0 0x0C, 1, fun i _ => at_ i), (.vldff 8 2 7 0 0 0x0C, 1, fun i _ => at_ i),
    (.vlds 8 2 3 0 0 0x0C, 1, fun i _ => (base + BitVec.ofNat 64 i * vmem.getX 3, 0)),
    (.vldx 8 2 20 0 0 0x0C, 1, fun i _ => (base + BitVec.ofNat 64 (vmem.elem 20 vmem.ew i), 0)),
    (.vldseg 8 2 8 0 0 0x0C, 8, fun i f => at_ (i * 8 + f))]

theorem witness_VectorLoads : VecStart vmem .lv ∧ Calm vmem ∧ VecOpen vmem ∧ GroupOk vmem 8 ∧ GroupOk vmem 20 ∧
    (∀ q ∈ loadForms, ∀ i f, vmem.todo 0 i = true → f < q.2.1 → Ready (fun _ => False) vmem { kind := 1 } (q.2.2 i f).1 4 (q.2.2 i f).1.toNat) ∧
    loadMfOk 0x0C = true ∧ vecMfOk 0x0C = true ∧
    2 ≤ (8 : Reg).toNat ∧ (8 : Reg).toNat ≤ 8 ∧ (7 : Reg).toNat < 8 ∧ memBits 0x0C vmem.ct.vec.vcfg.ty = 32 ∧ (8 : Reg).toNat + 8 * vmem.ct.vec.vcfg.g ≤ 32 ∧
    (let s := xs flts [(2, 0x10000)]
     loadMfOk 0x13 = true ∧ 10 ≤ s.ct.vec.vcfg.ty) := by
  refine ⟨vecStart_of (by decide +kernel), calm_of (by decide +kernel), vecOpen_of (by decide +kernel), groupOk_of (by decide +kernel),
    groupOk_of (by decide +kernel), fun q hq i f hi hf => ?_, by decide +kernel⟩
  have hv : ∀ q ∈ loadForms, ((List.range vmem.ct.vec.vl).all fun i => (List.range q.2.1).all fun f =>
      (q.2.2 i f).1.toNat % 4 == 0 && decide ((q.2.2 i f).1.toNat < 2 ^ 38)) = true := by decide +kernel
  exact ready_elems _ vmem _ 4 q.2.1 (fun i f => (q.2.2 i f).1) (by decide +kernel) (hv q hq) i f (todo_lt hi) hf

/-- What an access of the stash rests on. -/
theorem place_same {s s' : State} (h : sready s = true) (e : s'.ct.level = s.ct.level ∧ s'.ct.task = s.ct.task ∧ s'.ct.lcore = s.ct.lcore ∧ s'.pkg = s.pkg ∧
      s'.m.slines = s.m.slines ∧ s'.m.poison = s.m.poison ∧ ∀ d, (s'.die d).fenced = (s.die d).fenced) (a : Acc) (va : Word) (n off last : Nat)
    (h1 : windowOf va = .local_ off) (h2 : windowOf (va + BitVec.ofNat 64 (n - 1)) = .local_ last) (h3 : last < 0x10000)
    (hn : va.toNat % n = 0) (hh : homeOf (stashPa 0 (0 + off)) = .stash 0 (0 + off)) :
    ∃ p : Place, p.pa = stashPa 0 (0 + off) ∧ homeOf p.pa ≠ .device ∧ resolveAligned s'.ctx a va n s' = .ok p s' := by
  have h' : sready s' = true := by
    simp only [sready, Bool.and_eq_true, beq_iff_eq, List.isEmpty_iff, List.all_eq_true, List.mem_range, Bool.not_eq_true'] at h ⊢
    rw [e.1, e.2.1, e.2.2.1, e.2.2.2.1, e.2.2.2.2.1, e.2.2.2.2.2.1]
    exact ⟨h.1, fun d hd => (e.2.2.2.2.2.2 d).trans (h.2 d hd)⟩
  obtain ⟨p, e, hd, k⟩ := ready_place (ready_loc (fun _ => False) s' a va n off last h' h1 h2 h3 hn hh)
  exact ⟨p, k, hd, e⟩

/-- The same in a state on the way of an instruction whose accesses are left to perform late, and of one whose stores are buffered. -/
theorem place_along (may : Nat → Prop) {s s' : State} (h : sready s = true) (ha : Along may s { s' with m := { s'.m with late := [] } }) (a : Acc) (va : Word)
    (n off last : Nat) (h1 : windowOf va = .local_ off) (h2 : windowOf (va + BitVec.ofNat 64 (n - 1)) = .local_ last) (h3 : last < 0x10000)
    (hn : va.toNat % n = 0) (hh : homeOf (stashPa 0 (0 + off)) = .stash 0 (0 + off)) :
    ∃ p : Place, p.pa = stashPa 0 (0 + off) ∧ homeOf p.pa ≠ .device ∧ resolveAligned s'.ctx a va n s' = .ok p s' := by
  obtain ⟨⟨x, v, f, o, c, mem, own, cop, races, cxl, ds, m, e⟩, hf, -⟩ := ha
  have e1 := congrArg State.ct e
  have e2 := congrArg State.pkg e
  have e4 := congrArg MemSt.slines (congrArg State.m e)
  have e5 := congrArg MemSt.poison (congrArg State.m e)
  simp only at e1 e2 e4 e5
  exact place_same h ⟨by rw [e1], by rw [e1], by rw [e1], e2, e4, e5, hf⟩ a va n off last h1 h2 h3 hn hh

theorem place_buffered {s s' : State} (h : sready s = true) (ha : Along (fun _ => False) s { s' with m := { s'.m with sbuf := [] } }) (a : Acc) (va : Word)
    (n off last : Nat) (h1 : windowOf va = .local_ off) (h2 : windowOf (va + BitVec.ofNat 64 (n - 1)) = .local_ last) (h3 : last < 0x10000)
    (hn : va.toNat % n = 0) (hh : homeOf (stashPa 0 (0 + off)) = .stash 0 (0 + off)) :
    ∃ p : Place, p.pa = stashPa 0 (0 + off) ∧ homeOf p.pa ≠ .device ∧ resolveAligned s'.ctx a va n s' = .ok p s' := by
  obtain ⟨⟨x, v, f, o, c, mem, own, cop, races, cxl, ds, m, e⟩, hf, -⟩ := ha
  have e1 := congrArg State.ct e
  have e2 := congrArg State.pkg e
  have e4 := congrArg MemSt.slines (congrArg State.m e)
  have e5 := congrArg MemSt.poison (congrArg State.m e)
  simp only at e1 e2 e4 e5
  exact place_same h ⟨by rw [e1], by rw [e1], by rw [e1], e2, e4, e5, hf⟩ a va n off last h1 h2 h3 hn hh

/-- A task in U whose loads may perform later: four elements of .i32 in its stash from x2 on, x3 a stride of 16, and indices 12, 8, 4, 0 in v20. -/
def vlazy : State := vreg (cfg lazy 2 4) 20 0x00000000_00000004_00000008_0000000C

/-- The offsets of the elements of the five load forms of vlazy. -/
def lateForms : List (Instr × Nat × (Nat → Nat → Word) × (Nat → Nat → Nat)) :=
  let base := vlazy.getX 2
  [(.vld 8 2 0 0 0x0C, 1, fun i _ => base + BitVec.ofNat 64 (i * 32 / 8), fun i _ => 4 * i),
    (.vldff 8 2 7 0 0 0x0C, 1, fun i _ => base + BitVec.ofNat 64 (i * 32 / 8), fun i _ => 4 * i),
    (.vlds 8 2 3 0 0 0x0C, 1, fun i _ => base + BitVec.ofNat 64 i * vlazy.getX 3, fun i _ => 16 * i),
    (.vldx 8 2 20 0 0 0x0C, 1, fun i _ => base + BitVec.ofNat 64 (vlazy.elem 20 vlazy.ew i), fun i _ => 12 - 4 * i),
    (.vldseg 8 2 8 0 0 0x0C, 8, fun i f => base + BitVec.ofNat 64 ((i * 8 + f) * 32 / 8), fun i f => 4 * (i * 8 + f))]

theorem late_forms : ∀ q ∈ lateForms, ∀ i, i < 4 → ∀ f, f < q.2.1 → windowOf (q.2.2.1 i f) = .local_ (q.2.2.2 i f) ∧
    windowOf (q.2.2.1 i f + BitVec.ofNat 64 (4 - 1)) = .local_ (q.2.2.2 i f + 3) ∧ q.2.2.2 i f + 3 < 0x10000 ∧ (q.2.2.1 i f).toNat % 4 = 0 ∧
    homeOf (stashPa 0 (0 + q.2.2.2 i f)) = .stash 0 (0 + q.2.2.2 i f) := by decide +kernel

theorem lost_none : ∀ off : Nat, homeOf (stashPa 0 off) = .stash 0 off → lostHome vlazy (stashPa 0 off) = false := by
  intro off h
  unfold lostHome
  rw [h]
  show (vlazy.pkg.fencedCores.contains 0 || (vlazy.die (dieOf 0)).fenced) = false
  decide +kernel

theorem witness_VectorLoads_late : VecStart vlazy .lv ∧ Calm vlazy ∧ VecOpen vlazy ∧ GroupOk vlazy 8 ∧ GroupOk vlazy 20 ∧ vlazy.defers = true ∧
    vlazy.ct.ord.detctl = false ∧ vlazy.ct.vec.vl = 4 ∧
    ∀ q ∈ lateForms, ∀ (i f : Nat) (s' : State), vlazy.todo 0 i = true → f < q.2.1 → Along (fun _ => False) vlazy { s' with m := { s'.m with late := [] } } →
      lostHome vlazy (stashPa 0 (0 + q.2.2.2 i f)) = false ∧
      ∃ k : Place, k.pa = stashPa 0 (0 + q.2.2.2 i f) ∧ homeOf k.pa ≠ .device ∧ resolveAligned s'.ctx { kind := 1 } (q.2.2.1 i f) 4 s' = .ok k s' := by
  refine ⟨vecStart_of (by decide +kernel), calm_of (by decide +kernel), vecOpen_of (by decide +kernel), groupOk_of (by decide +kernel),
    groupOk_of (by decide +kernel), by decide +kernel, by decide +kernel, by decide +kernel, fun q hq i f s' hi hf ha => ?_⟩
  obtain ⟨h1, h2, h3, h4, h5⟩ := late_forms q hq i (todo_lt hi) f hf
  exact ⟨lost_none _ h5, place_along _ (by decide +kernel) ha _ _ 4 _ _ h1 h2 h3 h4 h5⟩

/-- An element of v8 that has been got, and an instruction at the head of the VIQ that reads v8. -/
theorem witness_VectorLoads_landing :
    let l : Late := ⟨0, 0, 7, true, 1, stashPa 0 0, false, [], .load 4, .elem 8 4 3 0x0C 2 0 32, [], none, some (toBytes 4 5, 0)⟩
    let s := entered (.vadd 1 8 2 0 0 0) id
    let u : State := { s with m := { s.m with late := [l] } }
    (u.L = 256 ∨ u.L = 512 ∨ u.L = 1024 ∨ u.L = 2048) ∧ u.ct.vec.vcfg.ty ≤ 13 ∧ u.ct.vec.vl ≤ vlmax u.L u.ct.vec.vcfg ∧ u.myLate l = true ∧
    (∃ e k, headOf u = .entry e k ∧ l.clashes e.instr e.g u.L = true) ∧ 8 * u.L + (3 + 1) * 4 ≤ 32 * u.L :=
  ⟨by decide +kernel, by decide +kernel, by decide +kernel, by decide +kernel, ⟨_, _, rfl, by decide +kernel⟩, by decide +kernel⟩

/-- A task of which the schedule leaves stores in flight: the places of its stores are those of its loads. -/
def vbuf : State := { vlazy with sched := { vlazy.sched with deferLoads := false, deferStores := true } }

theorem witness_VectorStores_buffered : VecStart vbuf .lv ∧ Calm vbuf ∧ VecOpen vbuf ∧ GroupOk vbuf 8 ∧ GroupOk vbuf 20 ∧ vbuf.sched.deferStores = true ∧
    vbuf.ct.ord.detctl = false ∧ (vbuf.core vbuf.ct.lcore).jobs = [] ∧ Memory.wf vbuf.m.mem = true ∧
    ∀ q ∈ lateForms, ∀ (i f : Nat) (s' : State), vbuf.todo 0 i = true → f < q.2.1 → Along (fun _ => False) vbuf { s' with m := { s'.m with sbuf := [] } } →
      ∃ k : Place, k.pa = stashPa 0 (0 + q.2.2.2 i f) ∧ homeOf k.pa ≠ .device ∧ resolveAligned s'.ctx { kind := 2 } (q.2.2.1 i f) 4 s' = .ok k s' := by
  refine ⟨vecStart_of (by decide +kernel), calm_of (by decide +kernel), vecOpen_of (by decide +kernel), groupOk_of (by decide +kernel),
    groupOk_of (by decide +kernel), by decide +kernel, by decide +kernel, by decide +kernel, by decide +kernel, fun q hq i f s' hi hf ha => ?_⟩
  obtain ⟨h1, h2, h3, h4, h5⟩ := late_forms q hq i (todo_lt hi) f hf
  exact place_buffered (by decide +kernel) ha _ _ 4 _ _ h1 h2 h3 h4 h5

/-- The store forms of vmem. -/
def storeForms : List (Instr × Nat × (Nat → Nat → Word × Nat)) :=
  let base := vmem.getX 2
  let at_ (k : Nat) : Word × Nat := (base + BitVec.ofNat 64 (k * 32 / 8), k * 32 % 8)
  [(.vst 8 2 0 0 0x0C, 1, fun i _ => at_ i), (.vsts 8 2 3 0 0 0x0C, 1, fun i _ => (base + BitVec.ofNat 64 i * vmem.getX 3, 0)),
    (.vstx 8 2 20 0 0 0x0C, 1, fun i _ => (base + BitVec.ofNat 64 (vmem.elem 20 vmem.ew i), 0)),
    (.vstseg 8 2 8 0 0 0x0C, 8, fun i f => at_ (i * 8 + f))]

theorem witness_VectorStores : VecStart vmem .lv ∧ Calm vmem ∧ VecOpen vmem ∧ GroupOk vmem 8 ∧ GroupOk vmem 20 ∧
    (∀ q ∈ storeForms, ∀ (may : Nat → Prop) (i f : Nat), vmem.todo 0 i = true → f < q.2.1 →
      Ready may vmem { kind := 2 } (q.2.2 i f).1 4 (q.2.2 i f).1.toNat) ∧
    vecMfOk 0x0C = true ∧ vmem.ct.ord.detctl = false ∧ vmem.sched.deferStores = false ∧ Memory.wf vmem.m.mem = true ∧
    (8 : Reg).toNat + 8 * vmem.ct.vec.vcfg.g ≤ 32 := by
  refine ⟨vecStart_of (by decide +kernel), calm_of (by decide +kernel), vecOpen_of (by decide +kernel), groupOk_of (by decide +kernel),
    groupOk_of (by decide +kernel), fun q hq may i f hi hf => ?_, by decide +kernel⟩
  have hv : ∀ q ∈ storeForms, ((List.range vmem.ct.vec.vl).all fun i => (List.range q.2.1).all fun f =>
      (q.2.2 i f).1.toNat % 4 == 0 && decide ((q.2.2 i f).1.toNat < 2 ^ 38)) = true := by decide +kernel
  exact ready_elems _ vmem _ 4 q.2.1 (fun i f => (q.2.2 i f).1) (by decide +kernel) (hv q hq) i f (todo_lt hi) hf

/-- No fill has a line left to read, whatever the line; and a fill that has read elsewhere stops no store. -/
theorem witness_VectorStores_fills : (vmem.core vmem.ct.lcore).jobs = [] ∧
    (let s := jobs vmem [{ job 31 (.ready 0) with engine := .fill 1, src := [0x40000] }]
     fillFirst s 0x10000 4 = false ∧ readingFills s ≠ [] ∧ fillFirst s 0x4003C 4 = true) := by decide +kernel

theorem fillFirst_none {s : State} (h : (s.core s.ct.lcore).jobs = []) (pa n : Nat) : fillFirst s pa n = false := by simp [fillFirst, h]

/-- Elements that are stored with a stride of 16 share no bytes, and with a stride of 0 they share all of them. -/
theorem witness_VectorStores_shared : ∀ st ∈ [(0 : Nat), 16], ∀ i j : Fin 4, let bit (k : Nat) := 8 * (0x10000 + k * st)
    bit j = bit i ∨ bit j + 32 ≤ bit i ∨ bit i + 32 ≤ bit j := by decide

/-- Indices 3, 0, 3, 1 in v20. -/
def vidx : State := vreg (xs ints [(2, 0x10000), (3, 4)]) 20 0x00000001_00000003_00000000_00000003

theorem witness_VectorAtomics : VecStart vidx .lv ∧ Calm vidx ∧ VecOpen vidx ∧ GroupOk vidx 8 ∧ GroupOk vidx 20 ∧
    (∀ (may : Nat → Prop) (i : Nat), vidx.todo 0 i = true → ((3 : Reg) = 0 ∨ vidx.elem 20 vidx.ew i < (vidx.getX 3).toNat) ∧
      Ready may vidx { kind := 3, quiet := true } (vidx.getX 2 + BitVec.ofNat 64 (vidx.ew * vidx.elem 20 vidx.ew i)) vidx.ew (0x10000 + 4 * vidx.elem 20 vidx.ew i)) ∧
    (∀ i j, vidx.todo 0 i = true → vidx.todo 0 j = true → vidx.elem 20 vidx.ew i ≠ vidx.elem 20 vidx.ew j →
      0x10000 + 4 * vidx.elem 20 vidx.ew i + vidx.ew ≤ 0x10000 + 4 * vidx.elem 20 vidx.ew j ∨
      0x10000 + 4 * vidx.elem 20 vidx.ew j + vidx.ew ≤ 0x10000 + 4 * vidx.elem 20 vidx.ew i) ∧
    vidx.ct.ord.detctl = false ∧ Memory.wf vidx.m.mem = true ∧ vamoWidth vidx.ct.vec.vcfg.ty = some 0 ∧ (6 : BitVec 3) ≠ 7 ∧
    vamoWidth flts.ct.vec.vcfg.ty = some 3 ∧ (10 ≤ flts.ct.vec.vcfg.ty → (2 : BitVec 3).toNat < 3 ∨ (2 : BitVec 3).toNat = 6) := by
  have hm : mready vidx = true := by decide +kernel
  have hx : ∀ i, i < vidx.ct.vec.vl → vidx.elem 20 vidx.ew i < (vidx.getX 3).toNat ∧
      (vidx.getX 2 + BitVec.ofNat 64 (vidx.ew * vidx.elem 20 vidx.ew i)).toNat = 0x10000 + 4 * vidx.elem 20 vidx.ew i ∧
      (0x10000 + 4 * vidx.elem 20 vidx.ew i) % vidx.ew = 0 ∧ 0x10000 + 4 * vidx.elem 20 vidx.ew i < 2 ^ 38 := by decide +kernel
  have hw : vidx.ew = 4 := by decide +kernel
  refine ⟨vecStart_of (by decide +kernel), calm_of (by decide +kernel), vecOpen_of (by decide +kernel), groupOk_of (by decide +kernel),
    groupOk_of (by decide +kernel), fun may i hi => ?_, fun i j _ _ hn => ?_, by decide +kernel⟩
  · obtain ⟨h1, h2, h3, h4⟩ := hx i (todo_lt hi)
    exact ⟨.inr h1, ready_at may vidx _ _ _ _ hm h2 h3 h4⟩
  · omega

/-- The indices 12, 8, 4, 0 of v20 as those of a VAMO that is left to perform late. -/
theorem witness_VectorAtomics_late : VecStart vlazy .lv ∧ Calm vlazy ∧ VecOpen vlazy ∧ GroupOk vlazy 8 ∧ GroupOk vlazy 20 ∧ vlazy.defers = true ∧
    vlazy.ct.ord.detctl = false ∧ (vlazy.core vlazy.ct.lcore).jobs = [] ∧ vamoWidth vlazy.ct.vec.vcfg.ty = some 0 ∧ Memory.wf vlazy.m.mem = true ∧
    (∀ i, i < 4 → ∀ j, j < 4 → vlazy.elem 20 4 i ≠ vlazy.elem 20 4 j → stashPa 0 (0 + 4 * vlazy.elem 20 4 i) + 4 ≤ stashPa 0 (0 + 4 * vlazy.elem 20 4 j) ∨
      stashPa 0 (0 + 4 * vlazy.elem 20 4 j) + 4 ≤ stashPa 0 (0 + 4 * vlazy.elem 20 4 i)) ∧
    ∀ (may : Nat → Prop) (i : Nat) (s' : State), vlazy.todo 0 i = true → Along may vlazy { s' with m := { s'.m with late := [] } } →
      lostHome vlazy (stashPa 0 (0 + 4 * vlazy.elem 20 4 i)) = false ∧
      ∃ k : Place, k.pa = stashPa 0 (0 + 4 * vlazy.elem 20 4 i) ∧ homeOf k.pa ≠ .device ∧
        resolveAligned s'.ctx { kind := 3, quiet := true } (vlazy.getX 2 + BitVec.ofNat 64 (4 * vlazy.elem 20 4 i)) 4 s' = .ok k s' := by
  have hv : ∀ i, i < 4 → let off := 4 * vlazy.elem 20 4 i
      let va := vlazy.getX 2 + BitVec.ofNat 64 off
      windowOf va = .local_ off ∧ windowOf (va + BitVec.ofNat 64 (4 - 1)) = .local_ (off + 3) ∧ off + 3 < 0x10000 ∧ va.toNat % 4 = 0 ∧
      homeOf (stashPa 0 (0 + off)) = .stash 0 (0 + off) := by decide +kernel
  refine ⟨vecStart_of (by decide +kernel), calm_of (by decide +kernel), vecOpen_of (by decide +kernel), groupOk_of (by decide +kernel),
    groupOk_of (by decide +kernel), by decide +kernel, by decide +kernel, by decide +kernel, by decide +kernel, by decide +kernel, by decide +kernel,
    fun may i s' hi ha => ?_⟩
  obtain ⟨h1, h2, h3, h4, h5⟩ := hv i (todo_lt hi)
  exact ⟨lost_none _ h5, place_along may (by decide +kernel) ha _ _ 4 _ _ h1 h2 h3 h4 h5⟩

/-- x2 at 0x10000 and a panel of one row, 383, of the task, named by x3; VCFG.ETYPE e4m3. -/
def panel : State :=
  let s := xs (cfg base 8 4) [(2, 0x10000), (3, 383 + 0x10000)]
  let f : FillRec := ⟨.mfill 3 2 8 0 0 0, 383 + 0x10000, 0x10000, [], 0, 0, true, [], 1, false, false⟩
  { s with cores := s.cores.set 0 { s.cores[0] with panels := [⟨1, 7, 383, 1, 8, 128, 1, false, [], [], [], 1, f⟩] } }

theorem witness_MatrixArray_mmac : VecStart panel .lm ∧ GroupOk panel 31 ∧ panel.ct.vec.vstart = 0 ∧ (7 : Reg).toNat < min 8 panel.ct.task.tiles ∧
    handleOk (panel.getX 3) = true ∧ 0 < panel.ct.vec.vl ∧ panel.ct.vec.vl ≤ panel.L / panel.ew ∧
    ((panelOf panel (panel.getX 3)).map fun pn => (pairing panel.ct.vec.vcfg.ty pn.mf, decide (panel.ct.vec.vl ≤ pn.dataRows * pn.kRow), decide (pn.len ≤ pn.ready))) =
      some (some 128, true, true) ∧
    mmacType panel.ct.vec.vcfg.ty = true ∧ panel.tileKind (7 : Reg).toNat = .empty :=
  ⟨vecStart_of (by decide +kernel), groupOk_of (by decide +kernel), by decide +kernel⟩

/-- Tile 7 holds floating cells, and VL is 64 of binary32. -/
def tiled : State :=
  let s := cfg ptr 12 64
  { s with ct := { s.ct with mx := { s.ct.mx with kinds := s.ct.mx.kinds.setIfInBounds 7 .fp } } }

theorem witness_MatrixArray_rows : VecStart tiled .lm ∧ GroupOk tiled 31 ∧ Calm tiled ∧ VecOpen tiled ∧
    (∀ (may : Nat → Prop) (r c : Nat), r < tiled.ct.vec.vcfg.g → c < tiled.ct.vec.vl → Ready may tiled { kind := 2 }
      (tiled.getX 2 + BitVec.ofNat 64 r * BitVec.ofNat 64 (tiled.ct.vec.vl * 4) + BitVec.ofNat 64 (c * 4)) 4 (0x10000 + 256 * r + 4 * c)) ∧
    Ready (fun _ => False) tiled { kind := 1 } (tiled.getX 2) 32 0x10000 ∧
    tiled.ct.vec.vstart = 0 ∧ (7 : Reg).toNat < min 8 tiled.ct.task.tiles ∧
    0 < tiled.ct.vec.vl ∧ tiled.ct.vec.vl ≤ 192 ∧ tiled.ct.vec.vl ≤ tiled.L / 4 ∧ tiled.ct.vec.vcfg.ty = 12 ∧ drainMfOk 0x0C = true ∧
    mfType 0x0C 0 = tiled.ct.vec.vcfg.ty ∧ tiled.ct.vec.vl ≤ tiled.L / tiled.ew ∧ tiled.tileKind (7 : Reg).toNat = .fp ∧ 8 ≤ mfType 0x0C 0 ∧
    tiled.ct.ord.detctl = false ∧ tiled.sched.deferStores = false ∧ Memory.wf tiled.m.mem = true ∧ (tiled.getX 2).toNat % tyBytes (mfType 0x0C 0) = 0 := by
  have hm : mready tiled = true := by decide +kernel
  have hx : ∀ r, r < tiled.ct.vec.vcfg.g → ∀ c, c < tiled.ct.vec.vl →
      (tiled.getX 2 + BitVec.ofNat 64 r * BitVec.ofNat 64 (tiled.ct.vec.vl * 4) + BitVec.ofNat 64 (c * 4)).toNat = 0x10000 + 256 * r + 4 * c ∧
      (0x10000 + 256 * r + 4 * c) % 4 = 0 ∧ 0x10000 + 256 * r + 4 * c < 2 ^ 38 := by decide +kernel
  exact ⟨vecStart_of (by decide +kernel), groupOk_of (by decide +kernel), calm_of (by decide +kernel), vecOpen_of (by decide +kernel),
    fun may r c hr hc => ready_at may tiled _ _ _ _ hm (hx r hr c hc).1 (hx r hr c hc).2.1 (hx r hr c hc).2.2,
    ready_at _ _ _ _ _ _ hm (by decide +kernel) (by decide) (by decide), by decide +kernel⟩

/-- Tile 7 of a task whose cells the schedule leaves in flight, and a codebook that is loaded late. -/
def tbuf : State :=
  let s := cfg lazy 12 4
  { s with
    ct := { s.ct with mx := { s.ct.mx with kinds := s.ct.mx.kinds.setIfInBounds 7 .fp } }
    sched := { s.sched with deferLoads := false, deferStores := true } }

theorem witness_MatrixArray_buffered : VecStart tbuf .lm ∧ Calm tbuf ∧ VecOpen tbuf ∧ tbuf.ct.ord.detctl = false ∧ tbuf.sched.deferStores = true ∧
    tbuf.ct.vec.vstart = 0 ∧ (7 : Reg).toNat < min 8 tbuf.ct.task.tiles ∧ tbuf.ct.vec.vl ≤ 192 ∧ tbuf.tileKind (7 : Reg).toNat = .fp ∧
    Memory.wf tbuf.m.mem = true ∧ (tbuf.core tbuf.ct.lcore).jobs = [] ∧ (tbuf.getX 2).toNat % 4 = 0 ∧
    (∀ (r c : Nat) (s' : State), r < tbuf.ct.vec.vcfg.g → c < tbuf.ct.vec.vl → Along (fun _ => False) tbuf { s' with m := { s'.m with sbuf := [] } } →
      ∃ k : Place, k.pa = stashPa 0 (0 + (16 * r + 4 * c)) ∧ homeOf k.pa ≠ .device ∧ resolveAligned s'.ctx { kind := 2 }
        (tbuf.getX 2 + BitVec.ofNat 64 r * BitVec.ofNat 64 (tbuf.ct.vec.vl * 4) + BitVec.ofNat 64 (c * 4)) 4 s' = .ok k s') ∧
    (let s := cfg lazy 12 4
     VecStart s .lm ∧ Calm s ∧ VecOpen s ∧ s.defers = true ∧ s.ct.ord.detctl = false ∧ Ready (fun _ => False) s { kind := 1 } (s.getX 2) 32 (stashPa 0 (0 + 0))) := by
  have hx : ∀ r, r < tbuf.ct.vec.vcfg.g → ∀ c, c < tbuf.ct.vec.vl →
      let va := tbuf.getX 2 + BitVec.ofNat 64 r * BitVec.ofNat 64 (tbuf.ct.vec.vl * 4) + BitVec.ofNat 64 (c * 4)
      windowOf va = .local_ (16 * r + 4 * c) ∧ windowOf (va + BitVec.ofNat 64 (4 - 1)) = .local_ (16 * r + 4 * c + 3) ∧ 16 * r + 4 * c + 3 < 0x10000 ∧
      va.toNat % 4 = 0 ∧ homeOf (stashPa 0 (0 + (16 * r + 4 * c))) = .stash 0 (0 + (16 * r + 4 * c)) := by decide +kernel
  refine ⟨vecStart_of (by decide +kernel), calm_of (by decide +kernel), vecOpen_of (by decide +kernel), by decide +kernel, by decide +kernel, by decide +kernel,
    by decide +kernel, by decide +kernel, by decide +kernel, by decide +kernel, by decide +kernel, by decide +kernel, fun r c s' hr hc ha => ?_,
    vecStart_of (by decide +kernel), calm_of (by decide +kernel), vecOpen_of (by decide +kernel), by decide +kernel, by decide +kernel,
    ready_loc _ _ _ _ 32 0 31 (by decide +kernel) (by decide +kernel) (by decide +kernel) (by decide) (by decide +kernel) (by decide +kernel)⟩
  obtain ⟨h1, h2, h3, h4, h5⟩ := hx r hr c hc
  exact place_buffered (by decide +kernel) ha _ _ 4 _ _ h1 h2 h3 h4 h5

/-- No fill has a line of theirs left to read. -/
theorem witness_fills : (vidx.core vidx.ct.lcore).jobs = [] ∧ (tiled.core tiled.ct.lcore).jobs = [] := by decide +kernel

/-- x3 names row 383; the card at x2 fills two values of one column from 0x30000. -/
def filler : State := put (xs (cfg base 8 4) [(2, 0x10000), (3, 383 + 0x10000)]) 0x10000 64 (0x30000 + 2 ^ 128 * 2 + 2 ^ 160)

theorem witness_MatrixFill : ∀ e ∈ [(0 : BitVec 1), 1],
    let o : FillOp := ⟨8, if e = 1 then some (filler.alg 3) else none, false⟩
    let c := FillCard.parse (filler.bytesAt 0x10000 64)
    VecStart filler .lm ∧ Calm filler ∧ VecOpen filler ∧
    (∀ k, k < 8 → Ready (fun _ => False) filler { kind := 1 } (filler.getX 2 + BitVec.ofNat 64 (8 * k)) 8 (0x10000 + 8 * k)) ∧
    (∀ x ∈ fillSources o c, ∀ s', Along (fun _ => False) filler s' →
      ∃ p, resolveAligned s'.ctx { kind := 1, quiet := true } x.1 x.2.1 s' = .ok p s') ∧
    (filler.has .la = true ∧ filler.ct.vec.vstart = 0 ∧ filler.ct.lcore < 128 ∧ handleOk (filler.getX 3) = true ∧ (filler.getX 2).toNat % 64 = 0) ∧
    o.fmtOk = true ∧ o.cardOk c = true ∧ o.dataRows c + FillOp.scaleRows c ≤ handleLen (filler.getX 3) ∧
    (filler.core filler.ct.lcore).jobs.length < 32 := by
  intro e he o c
  have hm : mready filler = true := by decide +kernel
  have hx : ∀ e ∈ [(0 : BitVec 1), 1], ((fillSources ⟨8, if e = 1 then some (filler.alg 3) else none, false⟩ (FillCard.parse (filler.bytesAt 0x10000 64))).all
      fun x => x.1.toNat % x.2.1 == 0 && decide (x.1.toNat < 2 ^ 38)) = true := by decide +kernel
  have hc : ∀ e ∈ [(0 : BitVec 1), 1],
      (let o : FillOp := ⟨8, if e = 1 then some (filler.alg 3) else none, false⟩
       let c := FillCard.parse (filler.bytesAt 0x10000 64)
       o.fmtOk = true ∧ o.cardOk c = true ∧ o.dataRows c + FillOp.scaleRows c ≤ handleLen (filler.getX 3) ∧
         (filler.core filler.ct.lcore).jobs.length < 32) := by decide +kernel
  refine ⟨vecStart_of (by decide +kernel), calm_of (by decide +kernel), vecOpen_of (by decide +kernel),
    ready_words _ _ _ _ 8 8 _ hm (by decide +kernel), fun x hm' s' hs => ?_, by decide +kernel, hc e he⟩
  have h := hx e he
  rw [List.all_eq_true] at h
  have := h x hm'
  simp only [Bool.and_eq_true, beq_iff_eq, decide_eq_true_eq] at this
  obtain ⟨p, -, hp⟩ := (ready_at (fun _ => False) filler { kind := 1, quiet := true } x.1 x.2.1 _ hm rfl this.1 this.2).1 s' hs
  exact ⟨p, hp⟩

/-- A handle that is refused, an algebra format that is, and a scheduler that is full. -/
theorem witness_MatrixFill_refused : handleOk ((xs user [(3, 384)]).getX 3) = false ∧ user.ct.level = .u ∧ user.immediate = true ∧
    (⟨3, some (user.alg 3), false⟩ : FillOp).fmtOk = false ∧
    (let s := jobs filler (List.replicate 32 (job 3 (.ready 0)))
     32 ≤ (s.core s.ct.lcore).jobs.length ∧ handleOk (s.getX 3) = true) := by decide +kernel

def upd (a : Nat) (h : Option HeldTag) : Update := ⟨a, 1, 0, 5, h, 0, 0⟩
def held (i : Nat) : Option HeldTag := some ⟨i, 0, 0, 0, 7⟩
/-- The chain of the doubleword 0x10000. -/
def chained (l : List Update) : State := { base with m := { base.m with chains := [(0x10000, l)] } }
/-- The line 0x10000 owned by cluster 3, or in its write-back. -/
def owned (w : Bool) : State := { base with m := { base.m with owners := if w then [] else [(0x10000, 3)], wbuf := if w then [(0x10000, 3)] else [] } }
/-- A store of 8 bytes not performed, translated through the line 0x30000, and a home that is lost. -/
def store8 : BufStore := ⟨0, 0, 7, 0x10000, 0x10000, toBytes 8 5, false, 0, true, [0x30008], [], none, 0xFF⟩
def buffered : State := { base with m := { base.m with sbuf := [store8] } }
def lostDie0 (s : State) : State := { s with dies := s.dies.set 0 { s.dies[0] with fenced := true } }

theorem witness_MemorySystemSteps_translations : Calm { buffered with m := { buffered.m with sbuf := [] } } ∧
    base.m.sbuf = [] ∧ base.m.wcb = [] ∧ base.m.early = [] ∧ base.m.late = [] ∧ base.m.slines = [] ∧ buffered.m.sbuf = [store8] ∧ store8.mask = 0xFF ∧ Memory.wf buffered.m.mem = true ∧
    lostHome buffered store8.pa = false ∧ buffered.mine store8 = true ∧ (∃ d ∈ store8.deps, d - d % 64 = (0x3003F : Nat) - 0x3003F % 64) ∧
    lostHome (lostDie0 buffered) store8.pa = true ∧ (lostDie0 buffered).mine store8 = true ∧ (lostDie0 buffered).ct.task.taskid = store8.task ∧
    (∀ e ∈ base.m.sbuf, base.mine e = false) := ⟨calm_of (by decide +kernel), by decide +kernel⟩

theorem witness_MemorySystemSteps_lines : base.m.chains = [] ∧ (∃ o ∈ (owned true).m.wbuf, o.1 = (0x1003F : Nat) - 0x1003F % 64) ∧
    (∀ o ∈ (owned false).m.wbuf, o.1 ≠ (0x1003F : Nat) - 0x1003F % 64) ∧ (∃ o ∈ (owned false).m.owners, o.1 = (0x1003F : Nat) - 0x1003F % 64) ∧
    (∀ o ∈ base.m.wbuf, o.1 ≠ (0x1003F : Nat) - 0x1003F % 64) ∧ (∀ o ∈ base.m.owners, o.1 ≠ (0x1003F : Nat) - 0x1003F % 64) ∧
    dirty.m.slines = [dirtyLine] ∧ dirtyLine.pa = (0x1003F : Nat) - 0x1003F % 64 ∧ dirtyLine.state = .dirty ∧ Memory.wf dirty.m.mem = true ∧
    dirty.m.chains = [] ∧ dirty.m.poison = [] ∧ dirty.m.early = [] ∧ lostHome dirty dirtyLine.pa = false := by decide +kernel

theorem witness_MemorySystemSteps_chains : Calm base ∧ Calm { chained [upd 0x10000 none] with m := { (chained [upd 0x10000 none]).m with chains := [] } } ∧
    (upd 0x10000 none).held = none ∧ lostHome base (upd 0x10000 none).addr = false ∧ lostHome (lostDie0 base) (upd 0x10000 none).addr = true ∧
    (chained [upd 0x10000 none]).m.chains = [((0x10007 : Nat) - 0x10007 % 8, [upd 0x10000 none])] ∧ Memory.wf (chained []).m.mem = true ∧
    (chained [upd 0x10000 (held 2), upd 0x10000 (held 1)]).m.chains = [((0x10007 : Nat) - 0x10007 % 8, [upd 0x10000 (held 2), upd 0x10000 (held 1)])] ∧
    (upd 0x10000 (held 1)).held = some ⟨1, 0, 0, 0, 7⟩ ∧ (upd 0x10000 (held 2)).held = some ⟨2, 0, 0, 0, 7⟩ ∧ (1 : Nat) < 2 ∧
    base.ct.lcore < 128 ∧ windowOf (loc 0) ≠ .global := ⟨calm_base, calm_of (by decide +kernel), by decide +kernel⟩

theorem witness_VectorStreamSteps_idle : ∀ n, n < 4 → (State.reset.thread 127 n).status ≠ .running := by decide +kernel

theorem witness_VectorStreamSteps_issue : ∀ i ∈ ([.vadd 1 2 3 0 0 0, .mzero 7] : List Instr), let s := entered i id
    (∀ d : Int, canIssue { s with ct := { s.ct with ctl := { s.ct.ctl with deficit := d } } } (entry0 base i) = true) ∧
    s.ct.lcore < 128 ∧ s.ct.ctno < 4 ∧ s.ct.status = .running ∧ s.ct.vec.stopped = none ∧
    (∀ n, n < 4 → n ≠ s.ct.ctno → (s.thread s.ct.lcore n).status ≠ .running) ∧ s.ct.vec.viq = entry0 base i :: [] ∧ (entry0 base i).nested = false ∧
    (entry0 base i).issue = none ∧ (entry0 base i).done = none ∧ isVcfg (entry0 base i).instr = false ∧ 1 ≤ s.ct.task.share ∧
    (isArray (entry0 base i).instr = false → s.ct.task.minlg ≤ (s.core s.ct.lcore).freeLanes ∧ 0 < (s.core s.ct.lcore).freeLanes) ∧
    (isArray (entry0 base i).instr = true → (s.core s.ct.lcore).arrayBusy = false) := by
  intro i hi
  simp only [List.mem_cons, List.not_mem_nil, or_false] at hi
  obtain rfl | rfl := hi <;> exact ⟨fun d => rfl, by decide +kernel⟩

theorem witness_VectorStreamSteps_complete :
    let e : VEntry := { entry0 base (.vrsumQ 7 1 2 0 0) with done := some ⟨1, 0, some (7, 9), false, [], none⟩, issue := some ⟨8, false, 4⟩ }
    let s := entered (.vrsumQ 7 1 2 0 0) fun e => { e with done := some ⟨1, 0, some (7, 9), false, [], none⟩, issue := some ⟨8, false, 4⟩ }
    s.ct.lcore < 128 ∧ s.ct.status = .running ∧ s.ct.vec.stopped = none ∧ s.ct.vec.viq = e :: [] ∧ e.nested = false ∧
    e.done = some ⟨1, 0, some (7, 9), false, [], none⟩ ∧ e.issue = some ⟨8, false, 4⟩ ∧ s.m.sbuf = [] ∧ s.m.late = [] ∧ (⟨1, 0, some (7, 9), false, [], none⟩ : Effects).sample = [] ∧
    s.ct.ctl.wait ≠ .ending ∧ (7 : Nat) < 8 ∧ s.roomIn 7 = true := by decide +kernel

/-- A load that owes its completion and has nothing open any more, and one of which an element has been got and has not landed. -/
def owed : Effects := { fflags := 1, mflags := 2, deliver := none, host := false, mem := some (3, 0) }
def owing (l : List Late) : State := { ints with
  ct := { ints.ct with vec := { ints.ct.vec with owing := [owed] } }
  m := { ints.m with late := l } }

theorem witness_VectorStreamSteps_owing :
    let l : Late := ⟨0, 0, 7, true, 3, stashPa 0 0, false, [], .load 4, .elem 8 4 3 0x0C 2 0 32, [], none, some (toBytes 4 5, 0)⟩
    (∀ s ∈ [owing [], owing [l]], (s.L = 256 ∨ s.L = 512 ∨ s.L = 1024 ∨ s.L = 2048) ∧ s.ct.vec.vcfg.ty ≤ 13 ∧ s.ct.vec.vl ≤ vlmax s.L s.ct.vec.vcfg ∧
      s.ct.status = .running ∧ s.ct.vec.viq = [] ∧ s.ct.vec.owing = [owed] ∧ owed.sample = [] ∧ owed.deliver = none ∧ s.m.sbuf = []) ∧
    staysOpen (owing []) owed = false ∧ owed.mem = some (3, 0) ∧ owed.host = false ∧ (owing [l]).myLate l = true ∧ l.seq = 3 ∧
    8 * (owing [l]).L + (3 + 1) * 4 ≤ 32 * (owing [l]).L := by decide +kernel

/-- The load completes with its flags once the element has landed. -/
theorem test_owing_pays : let l : Late := ⟨0, 0, 7, true, 3, stashPa 0 0, false, [], .load 4, .elem 8 4 3 3 2 0 32, [], none, some (toBytes 4 5, 0)⟩
    after (.vectorComplete 0 0) (owing [l]) (0, 0, 0, 1) (fun t => (t.elem 8 4 3, t.ct.fp.fstat, t.ct.mx.mxflag, t.ct.vec.owing.length)) = (5, 1, 2, 0) := by
  decide +kernel

/-- A launch dealt to core 0 as one chunk of instances, and thread 0 free. -/
def dealt (n : Nat) : State :=
  let k := base.cores[0]
  let d := base.dies[0]
  { base with
    ct := Thread.idle 0 0
    cores := base.cores.set 0 { k with deques := k.deques.setIfInBounds 3 [⟨.range 4 6 n, false, false, 0⟩] }
    dies := base.dies.set 0 { d with ready := true }
    pkg := { base.pkg with
      launches := [⟨2, 0, 0x10000, 0x10000, 9, 100, 0, false, 0, 0, 0, 0, 0, 0, 9, 0, 0, false, false⟩]
      chunks := [⟨4, 2, 6, n, 0, n, 0, false⟩]
      ready := { base.pkg.ready with cores := BitVec.allOnes 128 } } }

theorem witness_TaskStart : (State.reset.thread 0 3).status ≠ .free ∨ State.reset.coreReady 0 = false := by decide +kernel

theorem witness_TaskStart_range : ∀ n ∈ [1, 3], let s := dealt n
    s.ct.lcore < 128 ∧ s.ct.ctno < 4 ∧ s.ct.status = .free ∧ s.coreReady s.ct.lcore = true ∧
    (∀ i, i < 4 → (s.thread s.ct.lcore i).ctl.wait ≠ .grant) ∧ Calm s ∧ (∀ d, (s.el d).recording = false ∧ (s.el d).replaying = false) ∧
    (∀ i, i < 3 → (s.core s.ct.lcore).deques.toList.getD i [] = []) ∧ (s.core s.ct.lcore).deques.toList.getD 3 [] = [] ++ [⟨.range 4 6 n, false, false, 0⟩] ∧
    s.chunk 4 = some ⟨4, 2, 6, n, 0, n, 0, false⟩ ∧ (s.launch 2).map (·.id) = some 2 ∧ (s.launch 2).map (·.slotPa) = some 0x10000 ∧
    atHome 0x10000 s = .ok () s ∧
    (let ctl := Ctl.parse (BitVec.ofNat 64 (s.numAt (0x10000 + 8 * 7) 8)).toNat
     ctl.stash = 0 ∧ ctl.group = 0) ∧
    (BitVec.ofNat 64 (s.numAt 0x10000 8)).toNat % 4 = 0 ∧ (BitVec.ofNat 64 ((put s 0x10000 8 2).numAt 0x10000 8)).toNat % 4 ≠ 0 := by
  intro n hn s
  have hc : ∀ n ∈ [1, 3], calmB (dealt n) = true ∧ (∀ d, d < 4 → ((dealt n).el d).recording = false ∧ ((dealt n).el d).replaying = false) ∧
      ((dealt n).ct.lcore < 128 ∧ (dealt n).ct.ctno < 4 ∧ (dealt n).ct.status = .free ∧ (dealt n).coreReady (dealt n).ct.lcore = true ∧
      (∀ i, i < 4 → ((dealt n).thread (dealt n).ct.lcore i).ctl.wait ≠ .grant)) ∧
      ((∀ i, i < 3 → ((dealt n).core (dealt n).ct.lcore).deques.toList.getD i [] = []) ∧
      ((dealt n).core (dealt n).ct.lcore).deques.toList.getD 3 [] = [] ++ [⟨.range 4 6 n, false, false, 0⟩] ∧
      (dealt n).chunk 4 = some ⟨4, 2, 6, n, 0, n, 0, false⟩ ∧ ((dealt n).launch 2).map (·.id) = some 2 ∧ ((dealt n).launch 2).map (·.slotPa) = some 0x10000) ∧
      ((Ctl.parse (BitVec.ofNat 64 ((dealt n).numAt (0x10000 + 8 * 7) 8)).toNat).stash = 0 ∧
      (Ctl.parse (BitVec.ofNat 64 ((dealt n).numAt (0x10000 + 8 * 7) 8)).toNat).group = 0) ∧
      (BitVec.ofNat 64 ((dealt n).numAt 0x10000 8)).toNat % 4 = 0 ∧ (BitVec.ofNat 64 ((put (dealt n) 0x10000 8 2).numAt 0x10000 8)).toNat % 4 ≠ 0 := by
    decide +kernel
  obtain ⟨h1, h2, h3, h4, h5⟩ := hc n hn
  refine ⟨h3.1, h3.2.1, h3.2.2.1, h3.2.2.2.1, h3.2.2.2.2, calm_of h1, fun d => ?_, h4.1, h4.2.1, h4.2.2.1, h4.2.2.2.1, h4.2.2.2.2, ?_, h5⟩
  · by_cases hd : d < 4
    · exact h2 d hd
    · unfold State.el State.die
      rw [dif_neg hd]
      exact ⟨rfl, rfl⟩
  · have h6 : ∀ n ∈ [1, 3], (dealt n).pkg.ready.trained = BitVec.allOnes 32 ∧ (∀ d, d < 4 → ((dealt n).die d).fenced = false) ∧
        (dealt n).pkg.containedPairs = [] := by decide +kernel
    exact atHome_dram _ _ (by decide) (h6 n hn).1 (not_fenced (h6 n hn).2.1) (h6 n hn).2.2

theorem witness_GroupAndRingSteps : groupRefuses base 4095 .arrive 8 = true ∧ groupLost base 4095 = false ∧ groupRefuses base 4095 .join 8 = false ∧
    (base.group 4095).has 8 = false ∧ groupLost pair 4095 = false ∧ (pair.group 4095).has 8 = true ∧
    (∃ x ∈ (pair.group 4095).members, x.who.task ≠ 8 ∧ x.arrived = false) ∧ base.m.wcb = [] ∧ pair.m.wcb = [] ∧ base.pkg.parked = [] ∧ (∀ k, k < 4 → base.dieFenced k = false) := by
  decide +kernel

/-- The task in U of class 3, three others of class 0 on its core, and a record of class 2 that waits. -/
def crowd : State :=
  let k := base.cores[0]
  let t (n : Nat) : Thread := { Thread.idle 0 n with status := .running, task := { TaskSt.start with prio := 0, taskid := BitVec.ofNat 64 (n + 100) } }
  { base with
    ct := { base.ct with level := .u }
    others := [t 1, t 2, t 3]
    cores := base.cores.set 0 { k with deques := k.deques.setIfInBounds 2 [⟨.record 0x10000 none 0 0 none, false, false, 0⟩] } }

theorem witness_BoundaryEvents_preempt : Calm crowd ∧ preemptVictim base base.ct.lcore = none ∧ preemptVictim crowd crowd.ct.lcore = some crowd.ct ∧
    crowd.ct.lcore < 128 ∧ crowd.ct.ctl.gwait = [] ∧ crowd.ct.vec.viq = [] ∧ crowd.ct.vec.owing = [] ∧ crowd.ct.vec.stopped = none ∧
    jobsOf crowd crowd.ct.lcore crowd.ct.task.taskid = [] ∧ hwCount (crowd.core crowd.ct.lcore) < 64 ∧ crowd.ct.task.prio < 4 :=
  ⟨calm_of (by decide +kernel), by decide +kernel⟩

/-- The clause of WAITE on a pre-emption: a record of class 2 waits, no thread is free, and the task of class 3 is the only one so high. -/
theorem witness_WaitForEvent_preempt : crowd.has .lb = true ∧ 2 < crowd.ct.task.prio ∧ (crowd.core crowd.ct.lcore).deques.toList.getD 2 [] ≠ [] ∧
    crowd.ct.ctno < 4 ∧ crowd.ct.status = .running ∧ (∀ n, n < 4 → (crowd.thread crowd.ct.lcore n).status ≠ .free) ∧
    crowd.ct.ctl.spend = none ∧ ∀ n, n < 4 → n ≠ crowd.ct.ctno → (crowd.thread crowd.ct.lcore n).task.prio < crowd.ct.task.prio := by decide +kernel

/-- Completions of tags 30 and 31 pending, and a handler. -/
def pended : State := { user with ct := { user.ct with uli := { user.ct.uli with pend := 0xC0000000, ulivec := 0x5000 } } }

theorem witness_BoundaryEvents_deliver : deliverable user = false ∧ deliverable pended = true ∧ NoReplay pended ∧ pended.ct.uli.pend.getLsbD 30 = true ∧
    (∀ j, j < 30 → pended.ct.uli.pend.getLsbD j = false) ∧ pended.m.early = [] :=
  ⟨by decide +kernel, by decide +kernel, by unfold NoReplay; decide +kernel, by decide +kernel, by decide +kernel, by decide +kernel⟩

/-- CONTAIN pending at a thread with the status given. -/
def lost (st : Status) : State :=
  { user with ct := { user.ct with status := st, task := { user.ct.task with stashLen := 0 }, ctl := { user.ct.ctl with contain := true } } }

theorem witness_BoundaryEvents_contain : Calm (lost .running) ∧ user.ct.ctl.contain = false ∧ (lost .free).ct.ctl.contain = true ∧
    (lost .free).ct.status = .free ∧ (lost .running).ct.ctl.contain = true ∧ (lost .running).ct.status = .running ∧ (lost .running).ct.level = .u ∧
    jobsOf (lost .running) (lost .running).ct.lcore (lost .running).ct.task.taskid = [] ∧ (lost .running).ct.vec.viq = [] ∧
    groupsOf (lost .running) (lost .running).ct.task.taskid = [] ∧ (lost .running).ct.task.stashLen = 0 ∧ (lost .running).ct.task.chunk = none ∧
    (lost .running).ct.task.launch = none := ⟨calm_of (by decide +kernel), by decide +kernel⟩

/-- Core 0 with one job. -/
def copying (st : JobState) : State := jobs base [job 31 st]

theorem witness_JobSteps_copy :
    Calm (copying (.ready 0)) ∧
    (∀ (may : Nat → Prop) (i : Nat) (s' : State), i < 8 → Along may (copying (.ready 0)) s' →
      (∃ p : Place, p.pa = stashPa 0 (0 + 0x100) + i ∧
        resolve ((job 31 (.ready 0)).ctx 0) { kind := 1 } ((job 31 (.ready 0)).card.src + BitVec.ofNat 64 i) 1 s' = .ok p s') ∧
      ∃ p : Place, p.pa = stashPa 0 (0 + 0x200) + i ∧
        resolve ((job 31 (.ready 0)).ctx 0) { kind := 2 } ((job 31 (.ready 0)).card.dst + BitVec.ofNat 64 i) 1 s' = .ok p s') ∧
    (base.core 127).jobs = [] ∧ ((copying (.ready 0)).core 0).jobs = [job 31 (.ready 0)] ∧ (job 31 (.ready 0)).engine = .copy ∧
    Memory.wf (copying (.ready 0)).m.mem = true ∧ (job 31 (.ready 0)).card.ndim = 1 ∧
    (job 31 (.ready 0)).card.cnt = [8, 0, 0, 0, 0, 0] ∧ (job 31 (.ready 0)).card.op = 0 ∧ (job 31 (.ready 0)).card.idxf = 0 ∧
    (job 31 (.ready 0)).card.regions = [] ∧ (job 31 (.ready 0)).card.sfmt = 5 ∧ (job 31 (.ready 0)).card.dfmt = 5 ∧
    stashPa 0 (0 + 0x100) + 8 ≤ stashPa 0 (0 + 0x200) ∧ ((copying (.ready 0)).el (dieOf 0)).hist = false := by
  refine ⟨calm_of (by decide +kernel), fun may i s' hi ha => ?_, by decide +kernel⟩
  obtain ⟨⟨x, v, f, o', c, mem, own, cop, races, cxl, ds, n, rfl⟩, hd, -⟩ := ha
  have hx : ∀ i, i < 8 → ∀ q ∈ [(loc 0x100, 0x100), (loc 0x200, 0x200)], windowOf (q.1 + BitVec.ofNat 64 i) = .local_ (q.2 + i) ∧
      windowOf (q.1 + BitVec.ofNat 64 i + BitVec.ofNat 64 (1 - 1)) = .local_ (q.2 + i) ∧ q.2 + i < 0x10000 ∧
      stashPa 0 (0 + (q.2 + i)) = stashPa 0 (0 + q.2) + i ∧ homeOf (stashPa 0 (0 + q.2) + i) = .stash 0 (q.2 + i) := by decide +kernel
  have hf : ∀ d, ((copying (.ready 0)).die d).fenced = false := not_fenced (by decide +kernel)
  have h : (copying (.ready 0)).m.slines = [] ∧ (copying (.ready 0)).pkg.fencedCores = [] ∧ (copying (.ready 0)).m.poison = [] := by decide +kernel
  have e : (job 31 (.ready 0)).card.src = loc 0x100 ∧ (job 31 (.ready 0)).card.dst = loc 0x200 ∧
      (job 31 (.ready 0)).ctx 0 = ⟨.u, 0, 0, 0, 0, 0, 0x10000, none⟩ := by decide +kernel
  rw [e.1, e.2.1, e.2.2]
  obtain ⟨a1, a2, a3, a4, a5⟩ := hx i hi (loc 0x100, 0x100) (by simp)
  obtain ⟨b1, b2, b3, b4, b5⟩ := hx i hi (loc 0x200, 0x200) (by simp)
  exact ⟨⟨_, rfl, resolve_stash _ _ _ _ 1 _ _ _ _ _ (fun h => Level.noConfusion h) a1 a2 a3 h.1 (fun d => (hd d).trans (hf d)) h.2.1 h.2.2 a4 a5⟩,
    _, rfl, resolve_stash _ _ _ _ 1 _ _ _ _ _ (fun h => Level.noConfusion h) b1 b2 b3 h.1 (fun d => (hd d).trans (hf d)) h.2.1 h.2.2 b4 b5⟩

/-- A gather of three bytes, at indices 2, 0 and 1, that become .i32, and a reduction of three .i32. -/
def gather : Job :=
  { job 31 (.ready 0) with
    engine := .gather, card := { (job 31 (.ready 0)).card with cnt := [3, 0, 0, 0, 0, 0], idxf := 2, idx := loc 0x300, sfmt := 1, dfmt := 3 } }
def reduction : Job :=
  { job 31 (.ready 0) with engine := .coll, card := { (job 31 (.ready 0)).card with cnt := [3, 0, 0, 0, 0, 0], op := 2, sfmt := 3, dfmt := 3 } }
def engaged (j : Job) : State := put (jobs base [j]) (stashPa 0 0x300) 12 (2 + 2 ^ 64)

def fromVa (j : Job) (w i : Nat) : Word :=
  j.card.src + BitVec.ofInt 64 ((if j.card.idxf = 0 then ((i : Nat) : Int) else ((engaged j).numAt (stashPa 0 (0 + (0x300 + 4 * i))) 4 : Nat)) * ((w : Nat) : Int))

theorem job_place (j : Job) (hj : j = gather ∨ j = reduction) (may : Nat → Prop) (s' : State) (ha : Along may (engaged j) s') (a : Acc) (va : Word)
    (n off last : Nat) (h1 : windowOf va = .local_ off) (h2 : windowOf (va + BitVec.ofNat 64 (n - 1)) = .local_ last) (h3 : last < 0x10000)
    (hh : homeOf (stashPa 0 (0 + off)) = .stash 0 (0 + off)) : ∃ p : Place, p.pa = stashPa 0 (0 + off) ∧ resolve (j.ctx 0) a va n s' = .ok p s' := by
  obtain ⟨⟨x, v, f, o', c, mem, own, cop, races, cxl, ds, m, rfl⟩, hd, -⟩ := ha
  have h : (engaged j).m.slines = [] ∧ (engaged j).pkg.fencedCores = [] ∧ (engaged j).m.poison = [] ∧ j.ctx 0 = ⟨.u, 0, 0, 0, 0, 0, 0x10000, none⟩ ∧
      ∀ d, d < 4 → ((engaged j).die d).fenced = false := by obtain rfl | rfl := hj <;> decide +kernel
  rw [h.2.2.2.1]
  exact ⟨_, rfl, resolve_stash _ _ _ _ n _ _ _ _ _ (fun h => Level.noConfusion h) h1 h2 h3 h.1 (fun d => (hd d).trans (not_fenced h.2.2.2.2 d)) h.2.1
    h.2.2.1 rfl hh⟩

theorem witness_JobSteps_elements : ∀ q ∈ [(gather, [2, 0, 1], 1), (reduction, [0, 4, 8], 4)], let j := q.1
    let s := engaged j
    let off (i : Nat) : Nat := q.2.1.getD i 0
    let from_ := fromVa j q.2.2
    let to_ (i : Nat) := j.card.dst + BitVec.ofNat 64 (i * 4)
    let at_ (i : Nat) := j.card.idx + BitVec.ofNat 64 (4 * i)
    Calm s ∧ (∀ (may : Nat → Prop) (i : Nat) (s' : State), i < 3 → Along may s s' →
      (∃ p : Place, p.pa = stashPa 0 (0 + (0x100 + off i)) ∧ resolve (j.ctx 0) { kind := 1 } (from_ i) q.2.2 s' = .ok p s') ∧
      (∃ p : Place, p.pa = stashPa 0 (0 + (0x200 + 4 * i)) ∧ resolve (j.ctx 0) { kind := if j.card.op ≤ 1 then 2 else 3 } (to_ i) 4 s' = .ok p s') ∧
      (j.card.idxf ≠ 0 → ∃ p : Place, p.pa = stashPa 0 (0 + (0x300 + 4 * i)) ∧ resolve (j.ctx 0) { kind := 1 } (at_ i) 4 s' = .ok p s')) ∧
    (∀ i, i < 3 → (from_ i).toNat % q.2.2 = 0 ∧ (to_ i).toNat % 4 = 0 ∧ (at_ i).toNat % 4 = 0 ∧ inRegions (j.ctx 0) j.card false (from_ i) q.2.2 = true ∧
      inRegions (j.ctx 0) j.card true (to_ i) 4 = true ∧ stashPa 0 (0 + (0x100 + off i)) + q.2.2 ≤ stashPa 0 0x200 ∧
      stashPa 0 0x200 + 3 * 4 ≤ stashPa 0 (0 + (0x300 + 4 * i)) ∧ stashPa 0 (0 + (0x200 + 4 * i)) = stashPa 0 0x200 + i * 4) ∧
    (s.core 0).jobs = [] ++ j :: [] ∧ j.engine ∈ ([.copy, .gather, .coll] : List Engine) ∧ j.state = .ready 0 ∧ s.sched.jobLines = 0 ∧
    Memory.wf s.m.mem = true ∧ (s.el (dieOf 0)).hist = false ∧ j.card.ndim = 1 ∧ j.card.cnt = [3, 0, 0, 0, 0, 0] ∧ j.card.op ≤ 4 ∧
    jobFmtOk j.card.sfmt = true ∧ jobFmtOk j.card.dfmt = true ∧ fmtBits j.card.sfmt = 8 * q.2.2 ∧ fmtBits j.card.dfmt = 8 * 4 ∧
    (2 ≤ j.card.op → collFmt j.card.dfmt = some 0) := by
  intro q hq j s off from_ to_ at_
  have hj : ∀ q ∈ [(gather, [2, 0, 1], 1), (reduction, [0, 4, 8], 4)], q.1 = gather ∨ q.1 = reduction := by decide +kernel
  have hw : ∀ q ∈ [(gather, [2, 0, 1], 1), (reduction, [0, 4, 8], 4)], calmB (engaged q.1) = true ∧ ∀ i : Nat, i < 3 →
      (let a := fromVa q.1 q.2.2 i
      windowOf a = .local_ (0x100 + q.2.1.getD i 0) ∧ windowOf (a + BitVec.ofNat 64 (q.2.2 - 1)) = .local_ (0x100 + q.2.1.getD i 0 + (q.2.2 - 1)) ∧
      0x100 + q.2.1.getD i 0 + (q.2.2 - 1) < 0x10000 ∧ homeOf (stashPa 0 (0 + (0x100 + q.2.1.getD i 0))) = .stash 0 (0 + (0x100 + q.2.1.getD i 0))) ∧
      (let a := q.1.card.dst + BitVec.ofNat 64 (i * 4)
      windowOf a = .local_ (0x200 + 4 * i) ∧ windowOf (a + BitVec.ofNat 64 (4 - 1)) = .local_ (0x200 + 4 * i + 3) ∧
      homeOf (stashPa 0 (0 + (0x200 + 4 * i))) = .stash 0 (0 + (0x200 + 4 * i))) ∧
      (q.1.card.idxf ≠ 0 → let a := q.1.card.idx + BitVec.ofNat 64 (4 * i)
      windowOf a = .local_ (0x300 + 4 * i) ∧ windowOf (a + BitVec.ofNat 64 (4 - 1)) = .local_ (0x300 + 4 * i + 3) ∧
      homeOf (stashPa 0 (0 + (0x300 + 4 * i))) = .stash 0 (0 + (0x300 + 4 * i))) := by decide +kernel
  refine ⟨calm_of (hw q hq).1, fun may i s' hi ha => ?_, ?_⟩
  · obtain ⟨⟨a1, a2, a3, a4⟩, ⟨b1, b2, b3⟩, c⟩ := (hw q hq).2 i hi
    refine ⟨job_place _ (hj q hq) may s' ha _ _ _ _ _ a1 a2 a3 a4, job_place _ (hj q hq) may s' ha _ _ _ _ _ b1 b2 (by omega) b3, fun h => ?_⟩
    obtain ⟨c1, c2, c3⟩ := c h
    exact job_place _ (hj q hq) may s' ha _ _ _ _ _ c1 c2 (by omega) c3
  · simp only [List.mem_cons, List.not_mem_nil, or_false] at hq
    obtain rfl | rfl := hq <;> decide +kernel

/-- The gathered bytes, sign-extended, and the sums. -/
theorem test_gather_and_reduction : (match exec (.jobStart 0) (put (engaged gather) (stashPa 0 0x100) 4 0x0081FF03) with
    | .next t => (List.range 3).map fun i => t.numAt (stashPa 0 (0x200 + 4 * i)) 4
    | _ => []) = [0xFFFFFF81, 3, 0xFFFFFFFF] ∧
    (match exec (.jobStart 0) (put (put (engaged reduction) (stashPa 0 0x100) 12 0x00000007_00000081_0000FF03) (stashPa 0 0x200) 12 0x00000001_00000001_FFFFFFFF) with
    | .next t => (List.range 3).map fun i => t.numAt (stashPa 0 (0x200 + 4 * i)) 4
    | _ => []) = [0xFF02, 0x82, 8] := by decide +kernel

/-- Bytes of the local window that a job reads or writes. -/
def foot (lo : Nat) : Foot := ⟨1, lo, lo + 8⟩

/-- A job waits while an earlier one with an edge to it has not completed; behind an earlier job without an edge to it that has moved its bytes, or a paused
one, it starts. -/
theorem witness_JobSteps_order :
    (let s := jobs base [{ job 3 .moved with writes := [foot 0] }, { job 4 (.ready 0) with id := 2, reads := [foot 4] }]
     ∃ b ∈ (s.core 0).jobs.take 1, edge b { job 4 (.ready 0) with id := 2, reads := [foot 4] } = true) ∧
    (let l := [{ job 3 .moved with id := 5, writes := [foot 0x300] }, { job 3 (.paused 0 6 0 true) with id := 6, writes := [foot 0x308] }]
     let j := { job 31 (.ready 0) with reads := [foot 0x100], writes := [foot 0x200] }
     (∀ o ∈ l, o.id ≠ j.id) ∧ (∀ b ∈ l, edge b j = false) ∧ ∀ b ∈ l, b.state ≠ .ready 0) := by decide +kernel

/-- The schedule lets the job move four lines in a step. -/
theorem witness_JobSteps_part : ({ (copying (.ready 0)) with sched := { (copying (.ready 0)).sched with jobLines := 4 } } : State).sched.jobLines ≠ 0 := by
  decide +kernel

/-- Core 0 with one panel of two rows, one of them ready, and the job that fills it. -/
def filling : State :=
  let j : Job := { job 31 .moved with engine := .fill 1 }
  let f : FillRec := ⟨.mfill 3 2 8 0 0 0, 383 + 0x10000, 0x10000, [], 0, 0, true, [], 1, false, false⟩
  { base with cores := base.cores.set 0 { base.cores[0] with jobs := [j], panels := [⟨1, 7, 382, 2, 8, 128, 1, false, [], [], [], 1, f⟩] } }

theorem witness_JobSteps_rest :
    (let s := copying .moved
     (s.core 0).jobs = job 31 .moved :: [] ∧ (job 31 .moved).state = .moved ∧ (job 31 .moved).engine = .copy ∧ s.pkg.parked = [] ∧ s.pkg.saved = [] ∧
      s.ct.task.taskid = (job 31 .moved).task ∧ (∀ o ∈ s.others, o.task.taskid ≠ (job 31 .moved).task) ∧ (job 31 .moved).err = none ∧ (job 31 .moved).tag < 32) ∧
    ((copying (.paused 0 5 0x1000 false)).core 0).jobs = [job 31 (.paused 0 5 0x1000 false)] ∧
    (filling.core 0).jobs = [{ job 31 .moved with engine := .fill 1 }] ∧ ((filling.core 0).panels.map fun p => (p.id, p.len, p.ready)) = [(1, 2, 1)] := by
  decide +kernel

/-- A task of S's at which a trap of U with the SCAUSE and SFVA given has arrived. -/
def trapped (c va : Word) : State :=
  let s := at_ 0x6C000800
  { s with ct := { s.ct with level := .s, sup := { s.ct.sup with scause := c, sfva := va, sepc := 0x1000 } } }

/-- The same task with a handler whose frame is in its stash. -/
def handled (c : Word) : State :=
  let s := trapped c 0
  { s with ct := { s.ct with task := { s.ct.task with handler := 0x1000, frame := loc 0, stashLen := 0x10000 } } }

/-- A region registered at 1 GiB, whose page is absent. -/
def paging : State := { trapped 0x206 0x40000000 with pkg := { (trapped 0x206 0).pkg with regions := [⟨0x2000, 0x40000000, 0x1000⟩] } }

/-- A fill record of a panel that the MMAC at the head of the stopped stream needs. -/
def record_ : FillRec := ⟨.mfill 3 2 8 0 0 0, 383 + 0x10000, 0x10000, [], 0, 0, false, [], 1, false, false⟩
def stoppedMmac : Stopped := ⟨{ entry0 base (.mmac 7 1 3) with xb := 383 + 0x10000 }, [], 0x1000, false, []⟩
def refilling : State :=
  let s := trapped 0x0C 0
  { s with ct := { s.ct with vec := { s.ct.vec with stopped := some stoppedMmac }, mx := { s.ct.mx with fills := [record_] } } }

/-- A store to a page of a region that is mapped without W. -/
def unwritable : State :=
  let s := put (trapped 0x406 0x1000) 0x3000 8 0xFB
  { s with pkg := { s.pkg with regions := [⟨0x2000, 0x1000, 0x1000⟩] } }

theorem witness_KorierServices : user.ct.level = .u ∧ user.pkg.jobFaults = [] ∧
    disposition (trapped 0x206 0x3000) = .back ∧ (trapped 0x206 0x3000).ct.vec.stopped = none ∧ (trapped 0x206 0x3000).ct.sup.scause.getLsbD 15 = false ∧
    disposition paging = .page ∧ paging.ct.vec.stopped = none ∧ paging.ct.sup.scause.getLsbD 15 = false ∧
    disposition refilling = .refill record_ ∧ refilling.ct.vec.stopped = some stoppedMmac ∧ refilling.ct.lcore < 128 ∧
    (refilling.core refilling.ct.lcore).jobs.length < 32 ∧ refilling.ct.sup.scause.getLsbD 15 = false ∧
    refilling.ct.sup.scause.getLsbD 8 = false ∧ fillSources (fillOpOf record_.instr record_.alg) (FillCard.parse record_.card) = [] ∧
    (let s := jobs refilling (List.replicate 32 (job 3 (.ready 0)))
     disposition s = .refill record_ ∧ 32 ≤ (s.core s.ct.lcore).jobs.length) ∧
    disposition (trapped 0x11 0) = .call 1 ∧ base.ct.lcore ≠ 127 ∧ (127 : Nat) < 128 := by decide +kernel

/-- A PANEL_ABSENT while a handler runs, and a fault on a page being migrated, whose mark is then clear. -/
theorem witness_KorierServices_held :
    (let s : State := { refilling with ct := { refilling.ct with uli := { refilling.ct.uli with act := true } } }
     forTask s = true ∧ s.ct.ctl.wait ≠ .ending ∧ trapCode s = Code.panelAbsent ∧ s.ct.uli.act = true) ∧
    (let s := put (trapped 0x406 0x1000) 0x2000 8 0
     let u : State := { s with ct := { s.ct with ctl := { s.ct.ctl with held := true } } }
     forTask u = true ∧ u.ct.ctl.wait ≠ .ending ∧ trapCode u = Code.pageAbsent ∧ u.ct.ctl.report = false ∧ windowOf u.ct.sup.sfva = .global ∧
     migrating u u.ct.sup.troot u.ct.sup.sfva = some false ∧ u.ct.ctl.held = true) ∧
    (let s := put (trapped 0x206 0x1000) 0x2000 8 0x200
     disposition s = .hold ∧ s.pkg.jobFaults = []) := by decide +kernel

theorem witness_KorierServices_page : let s := unwritable
    let u := s.ct.sup
    ∃ a s1, serviceRecord s.ct.lcore u.troot u.sfva u.sfstride u.sfrem u.sfwidth s = .ok a s1 ∧ (disposition s == .page && s.ct.vec.stopped.isNone) = true :=
  exists_ok _ (by decide +kernel)

theorem witness_KorierServices_reflect : Calm (handled 0x01) ∧
    resolve (userCtx (handled 0x01)) { kind := 2 } (handled 0x01).ct.task.frame 64 (setCode 1 (handled 0x01)) =
      .ok { pa := stashPa 0 (0 + 0) } (setCode 1 (handled 0x01)) ∧
    disposition (handled 0x01) = .reflect 1 ∧ Memory.wf (handled 0x01).m.mem = true ∧ homeOf (stashPa 0 (0 + 0)) ≠ .device :=
  ⟨calm_of (by decide +kernel),
    resolve_stash _ _ _ _ 64 0 63 _ 0 0 (fun h => Level.noConfusion h) (by decide +kernel) (by decide +kernel) (by decide +kernel) (by decide +kernel)
      (not_fenced (by decide +kernel)) (by decide +kernel) (by decide +kernel) (by decide +kernel) (by decide +kernel), by decide +kernel⟩

theorem witness_KorierServices_call :
    (let s := xs (trapped 0x11 0) [(3, 0x1000), (4, 0x5000)]
     disposition s = .call 1 ∧ s.getX 3 ≠ 0 ∧ (landsAt s (s.getX 3) && frameOk (s.getX 4)) = false) ∧
    (let s := xs { at_ 0x04200000 with ct := { (trapped 0x11 0).ct with sup := { (trapped 0x11 0).ct.sup with sepc := 0x1004 } } } [(3, 0x1000), (4, loc 0xFFC0)]
     let u := put s 0x1004 4 0x6C000800
     disposition u = .call 1 ∧ u.getX 3 ≠ 0 ∧ landsAt u (u.getX 3) = true ∧ frameOk (u.getX 4) = true) := by decide +kernel

theorem witness_KorierServices_finish : let s := trapped 0x01 0
    Calm s ∧ disposition s = .finish 1 ∧ s.viqEmpty = true ∧ jobsOf s s.ct.lcore s.ct.task.taskid = [] ∧ s.ct.uli.errs = [] ∧
    groupsOf s s.ct.task.taskid = [] ∧ s.ct.task.stashLen = 0 ∧ s.ct.task.chunk = none ∧ s.ct.task.launch = none ∧ s.ct.task.cont = none :=
  ⟨calm_of (by decide +kernel), by decide +kernel⟩

/-- A task that a trap ends, with a continuation in the stash of another task of its launch, into whose slot 5 it delivers; JOIN is given. -/
def ending (j : Nat) : State :=
  let s := put (trapped 0x01 0) (stashPa 1 0x38) 8 (j * 2 ^ 16)
  let k : Thread := Thread.idle 1 0
  { s with
    ct := { s.ct with task := { s.ct.task with cont := some 0xFD00000000100000, slot := 5, launch := some 9 } }
    others := [{ k with status := .running, task := { k.task with stashLen := 0x10000, launch := some 9 } }] }

theorem ending_place (j : Nat) (hj : j = 1 ∨ j = 2) (may : Nat → Prop) (s' : State) (ha : Along may (setCode 1 (ending j)) s') (va : Word) (off : Nat)
    (h1 : windowOf va = .cluster 1 off) (h2 : windowOf (va + BitVec.ofNat 64 (8 - 1)) = .cluster 1 (off + 7)) (h3 : off + 7 < 0x10000)
    (hh : homeOf (stashPa 1 off) = .stash 1 off) : ∃ p : Place, p.pa = stashPa 1 off ∧ resolve (userCtx s') { kind := 3 } va 8 s' = .ok p s' := by
  obtain ⟨⟨x, v, f, o', c, mem, own, cop, races, cxl, ds, n, rfl⟩, hd, -⟩ := ha
  have hf : ∀ d, ((setCode 1 (ending j)).die d).fenced = false := not_fenced (by obtain rfl | rfl := hj <;> decide +kernel)
  have h : (setCode 1 (ending j)).m.slines = [] ∧ (setCode 1 (ending j)).pkg.fencedCores = [] ∧ (setCode 1 (ending j)).m.poison = [] ∧
      (setCode 1 (ending j)).ct.lcore = 0 ∧ (setCode 1 (ending j)).ct.task.launch = some 9 ∧
      ∃ t ∈ (setCode 1 (ending j)).others, t.lcore = 1 ∧ t.status = .running ∧ t.task.stashBase = 0 ∧ t.task.stashLen = 0x10000 ∧
        t.task.launch = some 9 := by obtain rfl | rfl := hj <;> decide +kernel
  obtain ⟨e1, e2, e3, e4, e5, t, ht, t1, t2, t3, t4, t5⟩ := h
  refine ⟨{ pa := stashPa 1 off }, rfl, ?_⟩
  unfold resolve
  rw [if_neg (by exact fun h => Level.noConfusion h)]
  simp only [h1, h2]
  have hc : 4 * clusterOf (setCode 1 (ending j)).ct.lcore + 1 = 1 := by rw [e4]; decide
  have hg : ∀ (s : State) (c : Ctx), c.launch = some 9 → s.others = (setCode 1 (ending j)).others → grantedTo s c 1 off = true := by
    intro s c h8 h9
    unfold grantedTo
    rw [Bool.or_eq_true]
    refine Or.inl (List.any_eq_true.mpr ⟨t, by rw [State.threads, h9]; exact List.mem_cons_of_mem _ ht, ?_⟩)
    simp [t1, t2, t3, t4, t5, h8]
    omega
  simp only [ne_eq, not_true_eq_false, if_false]
  rw [if_neg]
  · show enterPlace _ _ _ { pa := stashPa (4 * clusterOf (setCode 1 (ending j)).ct.lcore + 1) off } _ = _
    rw [hc]
    exact enterPlace_stash _ _ _ _ _ 1 off e1 e3 (atHome_stash _ _ 1 off (fun d => (hd d).trans (hf d)) e2 hh) hh
  · rintro ⟨-, h | h⟩
    · omega
    · apply h
      show grantedTo _ _ (4 * clusterOf (setCode 1 (ending j)).ct.lcore + 1) off = true
      rw [hc]
      exact hg _ _ e5 rfl

theorem witness_KorierServices_delivers : ∀ j ∈ [1, 2], let s := ending j
    let k : Word := 0xFD00000000100000
    Calm s ∧ disposition s = .finish 1 ∧ s.viqEmpty = true ∧ jobsOf s s.ct.lcore s.ct.task.taskid = [] ∧ s.ct.uli.errs = [] ∧
    groupsOf s s.ct.task.taskid = [] ∧ s.ct.task.stashLen = 0 ∧ s.ct.task.chunk = none ∧ (elogOf s s.ct.task.launch).1 = 0 ∧
    s.ct.sup.scause.getLsbD 15 = false ∧ s.ct.task.cont = some k ∧ s.ct.lcore < 128 ∧ Memory.wf s.m.mem = true ∧
    (∀ (may : Nat → Prop) (s' : State), Along may (setCode 1 s) s' →
      (∃ p : Place, p.pa = stashPa 1 0x30 ∧ resolve (userCtx s') { kind := 3 } (k + BitVec.ofNat 64 (8 + 8 * s.ct.task.slot)) 8 s' = .ok p s') ∧
      ∃ p : Place, p.pa = stashPa 1 0x38 ∧ resolve (userCtx s') { kind := 3 } (k + 0x38) 8 s' = .ok p s') ∧
    (stashPa 1 0x30 + 8 ≤ stashPa 1 0x38 ∧ homeOf (stashPa 1 0x30) ≠ .device ∧ homeOf (stashPa 1 0x38) ≠ .device) ∧
    (Ctl.parse (s.numAt (stashPa 1 0x38) 8)).join = j ∧ hwCount (s.core s.ct.lcore) < 64 := by
  have h : ∀ j ∈ [1, 2], calmB (ending j) = true ∧ disposition (ending j) = .finish 1 ∧ (ending j).viqEmpty = true ∧
      jobsOf (ending j) (ending j).ct.lcore (ending j).ct.task.taskid = [] ∧ (ending j).ct.uli.errs = [] ∧
      groupsOf (ending j) (ending j).ct.task.taskid = [] ∧ (ending j).ct.task.stashLen = 0 ∧ (ending j).ct.task.chunk = none ∧
      (elogOf (ending j) (ending j).ct.task.launch).1 = 0 ∧ (ending j).ct.sup.scause.getLsbD 15 = false ∧
      (ending j).ct.task.cont = some 0xFD00000000100000 ∧ (ending j).ct.lcore < 128 ∧ Memory.wf (ending j).m.mem = true ∧ (ending j).ct.task.slot = 5 ∧
      (Ctl.parse ((ending j).numAt (stashPa 1 0x38) 8)).join = j ∧ hwCount ((ending j).core (ending j).ct.lcore) < 64 := by decide +kernel
  intro j hj s k
  obtain ⟨h1, h2, h3, h4, h5, h6, h7, h8, h9, h10, h11, h12, h13, h14, h15, h16⟩ := h j hj
  have hj' : j = 1 ∨ j = 2 := by simpa using hj
  refine ⟨calm_of h1, h2, h3, h4, h5, h6, h7, h8, h9, h10, h11, h12, h13, fun may s' ha => ⟨?_, ?_⟩, by decide +kernel, h15, h16⟩
  · show ∃ p : Place, p.pa = stashPa 1 0x30 ∧ resolve (userCtx s') { kind := 3 } (k + BitVec.ofNat 64 (8 + 8 * (ending j).ct.task.slot)) 8 s' = .ok p s'
    rw [h14]
    exact ending_place j hj' may s' ha _ 0x30 (by decide +kernel) (by decide +kernel) (by decide) (by decide +kernel)
  · exact ending_place j hj' may s' ha _ 0x38 (by decide +kernel) (by decide +kernel) (by decide) (by decide +kernel)

/-- A record for the registration of queue 63. -/
def queueRecord : List Byte := toBytes 64 (0x20000 + 2 ^ 64 * 2 + 2 ^ 128 * 0x21000 + 2 ^ 192 * 0x21040 + 2 ^ 448 * 0x20000)
def queue63 : SubQueue := parseQueue 63 queueRecord base
/-- The host's memory and a master, and the queue registered. -/
def hosted (q : List SubQueue) : State :=
  let d := base.dies[0]
  { base with
    dies := base.dies.set 0 { d with ready := true }
    pkg := { base.pkg with queues := q, ready := { base.pkg.ready with hostUp := true, linkUp := 0x8000 } } }

/-- TAIL announces the number of start records given. -/
def announced (n : Nat) : State := put (hosted [queue63]) queue63.tail 8 n

theorem witness_HostSteps_queues : Calm (hosted [queue63]) ∧ Calm (announced 1) ∧
    queueOk queueRecord queue63 = true ∧ queueOk queueRecord (parseQueue 64 queueRecord base) = false ∧
    (∀ o ∈ base.pkg.queues, o.num ≠ 63) ∧ (∃ o ∈ (hosted [queue63]).pkg.queues, o.num = 63) ∧ canStart (hosted [queue63]) 63 = false ∧ masterDie base = none ∧
    masterDie (hosted [queue63]) ≠ none ∧ queue63.stopped = false ∧ queue63.leaving = false ∧
    (∀ n ∈ [0, 1, 2, 3], let s := announced n
     s.answers queue63.tail = true ∧ s.inUse queue63.tail = true ∧ s.numAt queue63.tail 8 = (BitVec.ofNat 64 n : Word).toNat ∧
       (n ≤ 2 ↔ ((BitVec.ofNat 64 n : Word) - queue63.headVal).toNat ≤ queue63.size) ∧ ringInUse s queue63 (BitVec.ofNat 64 n) = true ∧
       s.answers queue63.head = true ∧ Memory.wf s.m.mem = true) ∧ queue63.head % 64 = 0 ∧ queue63.tail % 64 = 0 ∧ queue63.headVal = 0 ∧
    (∀ d, d < 4 → ((announced 1).el d).live = false) ∧ queue63.unread = false ∧
    (let s := { announced 0 with pkg := { (announced 0).pkg with queues := [{ queue63 with unread := true }] } }
     s.inUse queue63.head = true ∧ s.answers queue63.head = true ∧ s.numAt queue63.head 8 = (0 : Word).toNat ∧
       s.numAt queue63.tail 8 = (0 : Word).toNat) :=
  ⟨calm_of (by decide +kernel), calm_of (by decide +kernel), by decide +kernel⟩

/-- HEAD in memory of die 0, whose devices are not trained, and TAIL in that of die 1, whose are. -/
theorem witness_HostSteps_untrained : let s : State := { base with pkg := { base.pkg with ready := { base.pkg.ready with trained := 0xFFFFFF00 } } }
    s.inUse 0x21040 = false ∧ s.inUse (2 ^ 36) = true ∧ s.answers 0x21040 = true := by
  intro s
  have h0 : ∀ v : Fin 8, (0xFFFFFF00#32).getLsbD (8 * (0x21040 / 2 ^ 36 % 4) + v.val) = false := by decide
  have h1 : ∀ v : Fin 8, (0xFFFFFF00#32).getLsbD (8 * (2 ^ 36 / 2 ^ 36 % 4) + v.val) = true := by decide
  have hr : s.pkg.ready.trained ||| s.pkg.ready.failed = 0xFFFFFF00#32 := by decide +kernel
  refine ⟨?_, ?_, by decide +kernel⟩
  · unfold State.inUse State.trainedAt deviceOf
    rw [homeOf_dram (by decide), hr]
    simp only [h0]
    decide
  · unfold State.inUse State.trainedAt deviceOf
    rw [homeOf_dram (by decide), hr]
    simp only [h1]
    decide

theorem witness_HostSteps_memory : Calm (hosted []) ∧ (∀ a ∈ [2 ^ 38 - 1, 2 ^ 51], hostRange a [(5 : Byte)].length = true ∧
      hostReady (hosted []) a [(5 : Byte)].length = true ∧ (∀ l ∈ linesOf a [(5 : Byte)].length, lostHome (hosted []) l = false)) ∧
    (hosted []).pkg.ready.hostUp = true ∧ Memory.wf (hosted []).m.mem = true ∧ (hosted []).pkg.queues = [] ∧
    (∃ l ∈ linesOf 0x10000 [(5 : Byte)].length, lostHome (lostDie0 (hosted [])) l = true) ∧ hostReady (lostDie0 (hosted [])) 0x10000 1 = true ∧
    (lostDie0 (hosted [])).dieFenced 0 = true ∧ (hosted []).dieFenced 3 = false ∧ Calm (lostDie0 (hosted [])) ∧
    hostRange (2 ^ 36 - 1) [(5 : Byte), 6].length = true ∧ hostReady (lostDie0 (hosted [])) (2 ^ 36 - 1) 2 = true ∧
    (∃ l ∈ linesOf (2 ^ 36 - 1) 2, lostHome (lostDie0 (hosted [])) l = true) ∧
    (0xFFF8 : Nat) < 2 ^ 16 ∧ (0xFFF8 : Nat) % 8 = 0 ∧ (hosted []).pkg.ready.linkUp.getLsbD 14 = false ∧
    (hosted []).pkg.ready.linkUp.getLsbD 15 = true ∧ 2 ^ 38 - 1 + [(5 : Byte)].length ≤ 2 ^ 38 := by
  refine ⟨calm_of (by decide +kernel), by decide +kernel, by decide +kernel, by decide +kernel, by decide +kernel, by decide +kernel, by decide +kernel,
    by decide +kernel, by decide +kernel, calm_of (by decide +kernel), by decide +kernel⟩

/-- Of a write across the end of a fenced die's memory the other die's byte is written. -/
theorem test_host_write_partly_lost : after (.hostMemWrite (2 ^ 36 - 1) [5, 6]) (lostDie0 (hosted [])) (9, 9, [])
    (fun t => (t.byteAt (2 ^ 36 - 1), t.byteAt (2 ^ 36), t.pkg.answers)) = (0, 6, [.error]) := by decide +kernel

/-- The module in recovery; a core fenced, and its cluster without a spare used; a code object that the loader accepts. -/
def recovering : State := { base with pkg := { base.pkg with fw := { base.pkg.fw with recovery := true } } }
def fenced5 : State := { base with pkg := { base.pkg with fencedCores := [5] } }
def object : List Byte := toBytes 64 (0x4F435A4C + 2 ^ 32 + 2 ^ 64)

theorem witness_DeviceSteps_reports : recovering.pkg.fw.recovery = true ∧ base.pkg.fw.recovery = false ∧ base.pkg.chunks = [] ∧ base.pkg.launches = [] ∧
    base.pkg.queues = [] ∧ (∀ k, k < 128 → (base.core k).jobs = []) ∧ base.pkg.owed = [] ∧ base.m.sbuf = [] ∧ base.m.wcb = [] ∧ base.m.late = [] ∧ base.pkg.parked = [] ∧
    base.pkg.fencedCores.contains 127 = false ∧ base.dieFenced (dieOf 127) = false ∧
    base.dieFenced 3 = false ∧ base.pkg.ready.linkFailed.getLsbD 15 = false ∧ base.m.slines = [] ∧ base.pkg.groups = [] ∧
    base.pkg.saved = [] ∧ base.others = [] ∧ base.ct.ctl.post = none ∧ dieOf base.ct.lcore ≠ 3 := by decide +kernel

theorem witness_DeviceSteps_repairs : Calm base ∧ (base.core 127).spareCols < 4 ∧ (∀ k ∈ fenced5.pkg.fencedCores, k / 4 ≠ 31) ∧
    fenced5.pkg.fencedCores = [5] ∧ 5 / 4 = 1 ∧ (fenced5.pkg.ready.spare.toList.getD 1 0) &&& 0xC0 = 0 ∧ fenced5.dieFenced (dieOf 5) = false ∧
    (base.el 3).live = false ∧ objectOk [] = false ∧ objectOk object = true := ⟨calm_base, by decide +kernel⟩

/-- Die 3 fenced; Electrum of die 3 with histograms on. -/
def gone3 : State := { base with dies := base.dies.set 3 { base.dies[3] with fenced := true } }
def hist3 : State := { base with dies := base.dies.set 3 { base.dies[3] with el := { base.dies[3].el with hist := true } } }

theorem witness_ElectrumSteps : gone3.dieFenced 3 = true ∧ base.dieFenced 3 = false ∧ (base.el (dieOf 127)).hist = false ∧ (hist3.el (dieOf 127)).hist = true ∧
    (hist3.el (dieOf 127)).frozen = false ∧ hist3.dieFenced (dieOf 127) = false ∧ ((hist3.el (dieOf 127)).histOf (127 % 32) 3).ctl.toNat % 256 = 0 ∧
    ∀ b, b < 32 → ((hist3.el (dieOf 127)).histOf (127 % 32) 3).buckets.toList.getD b 0 ≠ BitVec.allOnes 32 := by decide +kernel

/-- The contexts of R243's two examples, as far as the sizes read them. -/
def imaged (l tiles entries fills : Nat) : Thread :=
  let c := base.ct
  { c with
    task := { c.task with regLen := l, tiles := tiles }
    vec := { c.vec with viq := List.replicate entries (entry0 base (.vid 1 0 0)) }
    mx := { c.mx with fills := List.replicate fills record_ } }

theorem witness_ContextImage : ∀ q ∈ [(512, 2, 3, 2), (2048, 8, 64, 16)], let c := imaged q.1 q.2.1 q.2.2.1 q.2.2.2
    c.vec.released = [] ∧ c.task.regLen ∈ [256, 512, 1024, 2048] ∧ c.task.regLen = q.1 ∧ c.task.tiles = q.2.1 ∧ (savedEntries c).length = q.2.2.1 ∧
      c.mx.fills.length = q.2.2.2 := by decide +kernel

-- ## Words that the chapters write out

theorem test_words_control : decode 0x74070006 = some (.gsync 7) ∧ decode 0x744A0007 = some (.ipost 2 10) ∧ decode 0x74460008 = some (.iwait 2 6) ∧
    decode 0x7825_0018 = some (.algld 1 5) ∧ decode 0x780D_701A = some (.nset 0 13 14) ∧ decode 0x7840_001B = some (.nloop 2) ∧
    decode 0x7C63_0002 = some (.xcoll 3 3) ∧ decode 0x780C_0014 = some (.tmark 12) ∧ decode 0x6C00_0800 = some (.sysc 1) ∧
    decode 0x6C00_2801 = some (.brk 5) ∧ decode 0x6E20_0803 = some (.csrr 17 1) ∧ decode 0x6D20_5004 = some (.csrw 9 0x00A) := by decide

theorem test_words_scalarFloat : decode 0x616C_6838 = some (.fadd 8 11 12 13 7) ∧ decode 0x652A_5B05 = some (.fma 9 9 10 11 12 0) ∧
    decode 0x5D2A_000C = some (.fsqrt 7 9 10 1) ∧ decode 0x592A_583E = some (.fmin 6 9 10 11) ∧ decode 0x692A_5B02 = some (.fcmp 9 10 11 12 2) ∧
    decode 0x692A_1352 = some (.fcvt 9 10 2 13 1) ∧ decode 0x692A_0360 = some (.fclass 9 10 13) := by decide

theorem test_words_vector : decode 0xA883_0106 = some (.pbrkBefore 4 3 1 0) ∧ decode 0xA883_0107 = some (.pbrkThru 4 3 1 0) ∧
    decode 0x8521_0404 = some (.vlast 9 1 4 0) ∧ decode 0x84A1_0414 = some (.vlastQ 5 1 4 0) ∧ decode 0xC9A8_0200 = some (.mfill 13 8 8 0 0 0) ∧
    decode 0xC9A8_03C0 = some (.mfill 13 8 0x0F 0 0 0) ∧ decode 0xC408_6800 = some (.mmac 0 8 13) ∧ decode 0xC085_1AC0 = some (.vamo 4 5 3 11 0 0) ∧
    decode 0xC0C3_100A = some (.vamo 6 3 2 0 1 2) ∧ decode 0xA4A6_0103 = some (.vcompr 5 6 1 0) ∧ decode 0xAC45_0802 = some (.vpart 2 5 1 0) := by decide

-- ## Words that no instruction has

theorem test_refused_words : ([0x0822184B, 0x08000014, 0x08010813, 0x203000C0, 0x20300140, 0x04400000, 0x04200002, 0x4C200000, 0x50000000, 0x58000046,
    0x68000030, 0x6C000006, 0x6C200002, 0x70000005, 0x74000009, 0x78000003, 0x7C000004, 0x80000001, 0x8400000F, 0x98000006, 0xC8000003, 0xCC000000,
    0xFFFFFFFF] : List IWord).map decode = List.replicate 23 none := by decide +kernel

-- ## One step of each family; the expected values are the spec's examples or hand calculation

theorem test_add_wraps : after (.add 3 1 2) (xs base [(1, 0xFFFFFFFFFFFFFFFF), (2, 5)]) (0, 0) (fun t => (t.getX 3, t.ct.pc)) = (4, 0x4004) := by
  decide +kernel

theorem test_x0_discards : after (.add 0 1 1) (xs base [(1, 5)]) (1, 0) (fun t => (t.getX 0, t.ct.pc)) = (0, 0x4004) := by decide +kernel

theorem test_div_corners : after (.div 3 1 2) (xs base [(1, 0x8000000000000000), (2, 0xFFFFFFFFFFFFFFFF)]) 0 (·.getX 3) = 0x8000000000000000 ∧
    after (.rem 3 1 0) (xs base [(1, 7)]) 0 (·.getX 3) = 7 := by decide +kernel

theorem test_mulh : after (.mulh 3 1 2) (xs base [(1, 0xFFFFFFFFFFFFFFFF), (2, 3)]) 0 (·.getX 3) = 0xFFFFFFFFFFFFFFFF ∧
    after (.mulhu 3 1 2) (xs base [(1, 0xFFFFFFFFFFFFFFFF), (2, 3)]) 0 (·.getX 3) = 2 := by decide +kernel

theorem test_immediates : after (.addImm 3 1 0xFFFF) (xs base [(1, 5)]) 0 (·.getX 3) = 4 ∧
    after (.orImm 3 1 0xFFFF) base 0 (·.getX 3) = 0xFFFF ∧ after (.limInsert 3 3 0x1234) (xs base [(3, 1)]) 0 (·.getX 3) = 0x1234000000000001 := by
  decide +kernel

theorem test_branch_back : after (.br 2 1 2 0xFFF) (xs base [(1, 0xFFFFFFFFFFFFFFFF)]) 0 (·.ct.pc) = 0x3FFC ∧
    after (.br 6 1 2 0xFFF) (xs base [(1, 0xFFFFFFFFFFFFFFFF)]) 0 (·.ct.pc) = 0x4004 := by decide +kernel

theorem test_jal_link : after (.jal 3) base (0, 0) (fun t => (t.getX 1, t.ct.pc)) = (0x4005, 0x400C) := by decide +kernel

theorem test_jalr_reads_first : after (.jalr 5 5 0) (xs base [(5, 0x5001)]) (0, 0) (fun t => (t.getX 5, t.ct.pc)) = (0x4005, 0x5000) := by decide +kernel

theorem test_load_signs : after (.ld 3 2 2 0x7FE) (put (xs base [(2, 0x10002)]) 0x10000 2 0x80FF) 0 (·.getX 3) = 0xFFFFFFFFFFFF80FF ∧
    after (.ld 3 2 6 0x7FE) (put (xs base [(2, 0x10002)]) 0x10000 2 0x80FF) 0 (·.getX 3) = 0x80FF := by decide +kernel

theorem test_store_bytes : after (.st 1 2 3 4) (xs base [(1, 0x11223344AABBCCDD), (2, 0x10000)]) [] (·.m.mem) =
    [(0x10004, 0xDD), (0x10005, 0xCC), (0x10006, 0xBB), (0x10007, 0xAA)] := by decide +kernel

theorem test_store_through_page_table : (match step ({ at_ 0x44221800 with ct := { (xs (at_ 0) [(1, 0x5A), (2, 0x10000)]).ct with pc := 0x1000 } }) with
    | .next t => t.byteAt 0x10000
    | _ => 0) = 0x5A := by decide +kernel

theorem test_misaligned_traps : after (.ld 3 2 3 0) (xs user [(2, 0x10002)]) (.u, 0, 0, 0)
    (fun t => (t.ct.level, t.ct.sup.scause, t.ct.sup.sepc, t.ct.sup.sfva)) = (.s, 0x204, 0x4000, 0x10002) := by decide +kernel

/-- R132, R123: 1 + 2^−24 is a tie; ∞ − ∞ is the canonical NaN with NV. -/
theorem test_fadd : after (.fadd 8 3 1 2 0) (xs base [(1, 0x3F800000), (2, 0x33800000)]) (0, 0) (fun t => (t.getX 3, t.ct.fp.fstat)) = (0x3F800000, 1) ∧
    after (.fsub 8 3 1 1 0) (xs base [(1, 0x7F800000)]) (0, 0) (fun t => (t.getX 3, t.ct.fp.fstat)) = (0x7FC00000, 16) := by decide +kernel

/-- R315: −2.5 to i32 under .rtz writes −2 and sets NX. -/
theorem test_fcvt : after (.fcvt 9 10 2 13 1) (xs base [(10, 0xC004000000000000)]) (0, 0) (fun t => (t.getX 9, t.ct.fp.fstat)) = (0xFFFFFFFFFFFFFFFE, 1) := by
  decide +kernel

/-- Table 6.8, rows by source, destination and mode. -/
theorem test_conversions : ∀ q ∈ ([(12, 8, 0, 0x43960000, 0x79, 1), (12, 8, 0, 0x43E60000, 0x7E, 1), (12, 8, 1, 0x43EB0000, 0x7E, 5), (12, 8, 0, 0x3A800000, 0, 3),
    (12, 8, 0, 0xFF800000, 0x7F, 16), (12, 10, 0, 0x3F808000, 0x3F80, 1), (12, 0, 0, 0x40200000, 2, 1), (12, 0, 3, 0x40200000, 3, 1), (12, 0, 4, 0x40200000, 3, 1),
    (12, 0, 2, 0xC0200000, 0xFD, 1), (12, 0, 4, 0xC0200000, 0xFD, 1), (12, 0, 0, 0x43960000, 127, 16), (12, 6, 0, 0x7FC00000, 0, 16),
    (3, 12, 0, 16777217, 0x4B800000, 1)] : List (Nat × Nat × Nat × Nat × Nat × Nat)),
    convert ⟨BitVec.ofNat 3 q.2.2.1, 0, 0, 0⟩ q.1 q.2.1 q.2.2.2.1 = (q.2.2.2.2.1, BitVec.ofNat 5 q.2.2.2.2.2) := by decide +kernel

theorem test_illegal_traps : after (.illegalInstruction 0) user (.u, 0, 0) (fun t => (t.ct.level, t.ct.sup.scause, t.ct.pc)) = (.s, 1, user.pkg.sEntry) ∧
    after (.illegalInstruction 0) sup (.u, .free, 0) (fun t => (t.ct.level, t.ct.status, t.ct.sup.scause)) = (.m, .fenced, 0x80001) := by decide +kernel

theorem test_system_call_and_return : after (.sysc 1) user (.u, 0, 1) (fun t => (t.ct.level, t.ct.sup.scause, t.ct.sup.sfva)) = (.s, 0x11, 0) ∧
    after .sret (caused 0x100) (.s, true) (fun t => (t.ct.level, t.ct.ctl.lpend)) = (.u, true) := by decide +kernel

theorem test_privilege : after .sret user 0 (·.ct.sup.scause) = 3 ∧ after (.csrr 1 0x100) user 0 (·.ct.sup.scause) = 3 ∧ after (.csrw 1 0x001) user 0 (·.ct.sup.scause) = 1 := by
  decide +kernel

theorem test_profile : after (.vadd 1 2 3 0 0 0) bare 0 (·.ct.sup.scause) = 2 := by decide +kernel

theorem test_amo_and_cas : after (.amo 3 2 1 0 0 1 0) (put (xs base [(1, 5), (2, 0x10000)]) 0x10000 4 0xFFFFFFFE) (0, 0) (fun t => (t.getX 3, t.numAt 0x10000 4)) =
      (0xFFFFFFFFFFFFFFFE, 0xFFFFFFFE) ∧
    after (.cas 3 2 1 0 0 1) (put (xs base [(1, 5), (2, 0x10000), (3, 9)]) 0x10000 8 9) (0, 0) (fun t => (t.getX 3, t.numAt 0x10000 8)) = (9, 5) := by decide +kernel

theorem test_queue_blocks : after (.qpush 3 1) (queued user 3 8) .none (·.ct.ctl.wait) = .queue ∧ after (.qpop 3 7) (queued user 7 1) 0 (·.getX 3) = 5 := by
  decide +kernel

theorem test_group_phase : after (.gsync 2) (grp (xs base [(2, 7)]) 7 [(7, false), (8, true)]) (0, 0) (fun t => ((t.group 7).phase, t.ct.pc)) = (1, 0x4004) := by
  decide +kernel

theorem test_vadd : after (.vadd 3 1 2 0 0 0) (vreg (vreg ints 1 0x00000004_00000003_00000002_FFFFFFFF) 2 0x0000000A_00000014_00000007_00000002) []
    (fun t => (List.range 4).map (t.elem 3 4)) = [1, 9, 23, 14] := by decide +kernel

theorem test_vmulh_unsigned : after (.vmulh 3 1 2 0 0 0) (vreg (vreg (cfg base 6 2) 1 0x00000002_FFFFFFFF) 2 0x00000001_FFFFFFFF) []
    (fun t => (List.range 2).map (t.elem 3 4)) = [0xFFFFFFFE, 0] := by decide +kernel

/-- R378: 12.0 splits into 1.5 and 3. -/
theorem test_vfsplit : after (.vfsplit 3 1 0 0) (vreg flts 1 0xBEC00000_41400000) [] (fun t => [t.elem 3 4 0, t.elem 4 4 0, t.elem 3 4 1, t.elem 4 4 1]) =
    [0x3FC00000, 3, 0xBFC00000, 0xFFFFFFFE] := by decide +kernel

/-- R379: 1/√2 to 8 bits. -/
theorem test_vfrsqe : after (.vfrsqe 3 1 0 0) (vreg flts 1 0x40000000_40800000) [] (fun t => [t.elem 3 4 0, t.elem 3 4 1]) = [0x3F000000, 0x3F350000] := by
  decide +kernel

theorem test_vrsum_to_queue : after (.vrsumQ 4 1 2 0 0) (xs (vreg ints 1 0x00000004_00000003_00000002_FFFFFFFF) [(2, 10)]) [] (fun t => t.queue 4) = [18] := by
  decide +kernel

/-- R116: with p1 active everywhere but element 4 and p3 = (3, 6), .before gives 0 to 2 and .thru 0 to 3. -/
def breaks : State :=
  let s := cfg base 2 8
  { s with ct := { s.ct with vec := { s.ct.vec with preds := (s.ct.vec.preds.setIfInBounds 1 0xEF).setIfInBounds 3 0x48 } } }

theorem test_pbrk : after (.pbrkBefore 4 3 1 0) breaks [] (fun t => (List.range 8).filter (t.pbit 4)) = [0, 1, 2] ∧
    after (.pbrkThru 4 3 1 0) breaks [] (fun t => (List.range 8).filter (t.pbit 4)) = [0, 1, 2, 3] := by decide +kernel

theorem test_vperm_beyond : after (.vperm 3 1 2 0 0) (vreg (vreg ints 1 0x00000004_00000003_00000002_00000001) 2 0x00000000_00000004_00000001_00000003) []
    (fun t => (List.range 4).map (t.elem 3 4)) = [4, 2, 0, 1] := by decide +kernel

theorem test_vdep : after (.vdep 3 1 0 0) (vreg ints 1 0x00000007_00000005_00000007_00000007) [] (fun t => (List.range 4).map (t.elem 3 4)) =
    [0xFFFFFFFF, 0, 0xFFFFFFFF, 1] := by decide +kernel

theorem test_vld_and_vst : after (.vld 3 2 0 0 1) (put vmem 0x10000 4 0x7F80FF01) [] (fun t => (List.range 4).map (t.elem 3 4)) = [1, 0xFFFFFFFF, 0xFFFFFF80, 0x7F] ∧
    after (.vst 1 2 0 0 5) (vreg vmem 1 0x00000100_FFFFFFFD_00000002_00000001) [] (·.m.mem) = [(0x10000, 1), (0x10001, 2), (0x10003, 0xFF)] := by decide +kernel

theorem test_vamo_collides : after (.vamo 1 2 20 0 0 0) (vreg vidx 1 0x00000008_00000004_00000002_00000001) [] (fun t => (List.range 4).map fun i => t.numAt (0x10000 + 4 * i) 4) =
    [2, 8, 0, 5] := by decide +kernel

theorem test_mzero_and_mldacc : after (.mldacc 7 1) (vreg flts 1 0x40000000_3F800000) (.empty, 0, 0) (fun t => (t.tileKind 7, t.cell 7 0 0, t.cell 7 0 1)) =
    (.fp, 0x3F800000, 0x40000000) ∧ after (.mzero 7) tiled .fp (fun t => t.tileKind 7) = .empty := by decide +kernel

theorem test_copy_job : (match exec (.jobStart 0) (put (copying (.ready 0)) (stashPa 0 0x100) 8 0x1122334455667788) with
    | .next t => t.numAt (stashPa 0 0x200) 8
    | _ => 0) = 0x1122334455667788 := by decide +kernel

theorem test_uret_word : (match step (at_ 0x78000013) with
    | .next t => t.ct.sup.scause
    | _ => 0) = 1 := by decide +kernel

theorem test_probe_runs : (match step (State.reset.withFetchWord 32 0x0C640005) with
    | .next t => (t.getX 3, t.ct.pc)
    | _ => (0, 0)) = (5, 0x1004) ∧ decodeTableWord 32 0x0C640005 = some (.addImm 3 4 5) := by decide +kernel

end Sys2Proof.Tests
end

/-!
SUPPORT. The decoder and the encoder (R28, R46): what each layout reads back as, and that every word of which the decoder makes an instruction is that
instruction's own word.
-/

namespace Sys2Proof.Laws

/-- A field that reaches over two neighbouring fields is the two of them in a row. -/
theorem extractLsb'_eq_append_iff {k m n : Nat} (s : Nat) (x : BitVec k) (a : BitVec m) (b : BitVec n) :
    x.extractLsb' s (m + n) = a ++ b ↔ x.extractLsb' (s + n) m = a ∧ x.extractLsb' s n = b := by
  rw [← BitVec.extractLsb'_append_extractLsb'_eq_extractLsb' (by rfl)]
  constructor
  · intro h
    have hi := congrArg (BitVec.extractLsb' n m) h
    have lo := congrArg (BitVec.extractLsb' 0 n) h
    simp only [BitVec.extractLsb'_append_eq_left, BitVec.extractLsb'_append_eq_right] at hi lo
    exact ⟨hi, lo⟩
  · rintro ⟨rfl, rfl⟩
    rfl

/-- A word is a layout where the layout's fields are the word's. -/
theorem append_eq_iff {m n : Nat} {w : BitVec (m + n)} {a : BitVec m} {b : BitVec n} :
    a ++ b = w ↔ w.extractLsb' n m = a ∧ w.extractLsb' 0 n = b := by
  rw [eq_comm]
  conv_lhs => lhs; rw [← BitVec.extractLsb'_eq_self (x := w)]
  rw [extractLsb'_eq_append_iff, Nat.zero_add]

/-! The layouts of Table 2.1, read back field by field. -/

theorem layRR_eq_iff {w : IWord} {maj : BitVec 6} {d a b c : Reg} {f : BitVec 6} :
    layRR maj d a b c f = w ↔ fMaj w = maj ∧ fD w = d ∧ fA w = a ∧ fB w = b ∧ fC w = c ∧ fF6 w = f :=
  append_eq_iff.trans (by simp only [extractLsb'_eq_append_iff, and_assoc]; rfl)

theorem layRI_eq_iff {w : IWord} {maj : BitVec 6} {d a : Reg} {i : BitVec 16} :
    layRI maj d a i = w ↔ fMaj w = maj ∧ fD w = d ∧ fA w = a ∧ fI16 w = i :=
  append_eq_iff.trans (by simp only [extractLsb'_eq_append_iff, and_assoc]; rfl)

theorem layMF_eq_iff {w : IWord} {maj : BitVec 6} {d a : Reg} {m : BitVec 5} {i : BitVec 11} :
    layMF maj d a m i = w ↔ fMaj w = maj ∧ fD w = d ∧ fA w = a ∧ fB w = m ∧ fI11 w = i :=
  append_eq_iff.trans (by simp only [extractLsb'_eq_append_iff, and_assoc]; rfl)

theorem layBR_eq_iff {w : IWord} {maj : BitVec 6} {oh a b : BitVec 5} {ol : BitVec 7} {c : BitVec 4} :
    layBR maj oh a b ol c = w ↔ fMaj w = maj ∧ fD w = oh ∧ fA w = a ∧ fB w = b ∧ fOL w = ol ∧ fCnd w = c :=
  append_eq_iff.trans (by simp only [extractLsb'_eq_append_iff, and_assoc]; rfl)

theorem layJ_eq_iff {w : IWord} {maj : BitVec 6} {d : Reg} {o : BitVec 21} :
    layJ maj d o = w ↔ fMaj w = maj ∧ fD w = d ∧ fO21 w = o :=
  append_eq_iff.trans (by simp only [extractLsb'_eq_append_iff, and_assoc]; rfl)

theorem layV_eq_iff {w : IWord} {maj : BitVec 6} {d a b : Reg} {p : BitVec 3} {t : BitVec 1} {fm : BitVec 2} {f : BitVec 5} :
    layV maj d a b p t fm f = w ↔ fMaj w = maj ∧ fD w = d ∧ fA w = a ∧ fB w = b ∧ fP w = p ∧ fT w = t ∧ fFM w = fm ∧ fF5 w = f :=
  append_eq_iff.trans (by simp only [extractLsb'_eq_append_iff, and_assoc]; rfl)

theorem layCfg_eq_iff {w : IWord} {maj : BitVec 6} {d a : Reg} {e : BitVec 4} {g t : BitVec 2} {m : BitVec 1} {sc : BitVec 3} {z : BitVec 4} :
    layCfg maj d a e g t m sc z = w ↔ fMaj w = maj ∧ fD w = d ∧ fA w = a ∧ fE w = e ∧ fG w = g ∧ fTP w = t ∧ fMP w = m ∧ fScope w = sc ∧ fCnd w = z :=
  append_eq_iff.trans (by simp only [extractLsb'_eq_append_iff, and_assoc]; rfl)

theorem layVX_eq_iff {w : IWord} {maj : BitVec 6} {d a b c : Reg} {p f : BitVec 3} :
    layVX maj d a b c p f = w ↔ fMaj w = maj ∧ fD w = d ∧ fA w = a ∧ fB w = b ∧ fC w = c ∧ fPX w = p ∧ fFX w = f :=
  append_eq_iff.trans (by simp only [extractLsb'_eq_append_iff, and_assoc]; rfl)

theorem layMX_eq_iff {w : IWord} {maj : BitVec 6} {d a b mf : BitVec 5} {ae : BitVec 1} {tb : BitVec 2} {sd : BitVec 1} {f : BitVec 2} :
    layMX maj d a b mf ae tb sd f = w ↔ fMaj w = maj ∧ fD w = d ∧ fA w = a ∧ fB w = b ∧ fC w = mf ∧ fAE w = ae ∧ fTB w = tb ∧ fSD w = sd ∧ fFM2 w = f :=
  append_eq_iff.trans (by simp only [extractLsb'_eq_append_iff, and_assoc]; rfl)

theorem laySY_eq_iff {w : IWord} {maj : BitVec 6} {d a b : Reg} {sc : BitVec 3} {o : BitVec 2} {f : BitVec 6} :
    laySY maj d a b sc o f = w ↔ fMaj w = maj ∧ fD w = d ∧ fA w = a ∧ fB w = b ∧ fSC w = sc ∧ fOR w = o ∧ fF6 w = f :=
  append_eq_iff.trans (by simp only [extractLsb'_eq_append_iff, and_assoc]; rfl)

theorem layCsr_eq_iff {w : IWord} {maj : BitVec 6} {d : Reg} {c : BitVec 10} {z : BitVec 5} {f : BitVec 6} :
    layCsr maj d c z f = w ↔ fMaj w = maj ∧ fD w = d ∧ fCsr w = c ∧ fC w = z ∧ fF6 w = f :=
  append_eq_iff.trans (by simp only [extractLsb'_eq_append_iff, and_assoc]; rfl)

/-! The parts of a function field. -/

theorem fF6_eq_cond_iff {w : IWord} {k : BitVec 2} {c : BitVec 4} : fF6 w = k ++ c ↔ w.extractLsb' 4 2 = k ∧ fCnd w = c :=
  extractLsb'_eq_append_iff 0 w k c
theorem fF6_eq_op_iff {w : IWord} {p f : BitVec 3} : fF6 w = p ++ f ↔ fOp3 w = p ∧ fFX w = f :=
  extractLsb'_eq_append_iff 0 w p f
theorem fF5_eq_rnd_iff {w : IWord} {r : BitVec 3} {f : BitVec 2} : fF5 w = r ++ f ↔ fRnd w = r ∧ fFM2 w = f :=
  extractLsb'_eq_append_iff 0 w r f
theorem fF5_eq_cond_iff {w : IWord} {k : BitVec 1} {c : BitVec 4} : fF5 w = k ++ c ↔ w.extractLsb' 4 1 = k ∧ fCnd w = c :=
  extractLsb'_eq_append_iff 0 w k c
theorem fF5_eq_table_iff {w : IWord} {g : BitVec 2} {f : BitVec 3} : fF5 w = g ++ f ↔ fTB w = g ∧ fFX w = f :=
  extractLsb'_eq_append_iff 0 w g f
theorem fF6_eq_cvt_iff {w : IWord} {k : BitVec 2} {r : BitVec 3} {z : BitVec 1} :
    fF6 w = k ++ r ++ z ↔ w.extractLsb' 4 2 = k ∧ w.extractLsb' 1 3 = r ∧ w.extractLsb' 0 1 = z :=
  (extractLsb'_eq_append_iff 0 w (k ++ r) z).trans ((and_congr_left' (extractLsb'_eq_append_iff 1 w k r)).trans and_assoc)

theorem eq_ofNat {n k : Nat} {x : BitVec n} (h : x.toNat = k) : x = BitVec.ofNat n k := by
  rw [← h, BitVec.ofNat_toNat, BitVec.setWidth_eq]

/-- What a decoder may answer for a word: none, or a well-formed instruction whose word it is (R46). -/
def DecodeSound (w : IWord) (o : Option Instr) : Prop := ∀ i, o = some i → i.wf = true ∧ encode i = some w

theorem decodeSound_none {w : IWord} : DecodeSound w none := nofun

theorem decodeSound_some {w v : IWord} {i : Instr} (hi : i.wf = true) (he : encode i = some v) (hv : v = w) : DecodeSound w (some i) :=
  fun _ e => Option.some.inj e ▸ ⟨hi, hv ▸ he⟩

theorem decodeSound_ok {w v : IWord} {i : Instr} (he : encode i = some v) (hv : v = w) : DecodeSound w (ok i) := by
  unfold ok
  split
  · exact decodeSound_some ‹_› he hv
  · exact decodeSound_none

theorem decodeSound_okIf {w v : IWord} {i : Instr} {c : Bool} (he : encode i = some v) (hv : c = true → v = w) : DecodeSound w (okIf c i) := by
  cases c
  · exact decodeSound_none
  · exact decodeSound_ok he (hv rfl)

/-! One decoder after another: each answers only with instructions whose word it was given. -/

theorem decHint_sound {w : IWord} (hm : fMaj w = 0x01) : DecodeSound w (decHint w) := by
  unfold decHint
  split
  next hd =>
    split
    next ho => exact decodeSound_some rfl rfl (layJ_eq_iff.2 ⟨hm, hd, ho⟩)
    next ho => exact decodeSound_some (by simpa [Instr.wf] using ho) rfl (layJ_eq_iff.2 ⟨hm, hd, rfl⟩)
  split
  next hd =>
    split
    next ho => exact decodeSound_some rfl rfl (layJ_eq_iff.2 ⟨hm, hd, ho⟩)
    split
    next ho => exact decodeSound_some rfl rfl (layJ_eq_iff.2 ⟨hm, hd, ho⟩)
    exact decodeSound_none
  exact decodeSound_none

theorem decAlu_sound {w : IWord} (hm : fMaj w = 0x02) : DecodeSound w (decAlu w) := by
  unfold decAlu
  dsimp only
  split
  · exact decodeSound_none
  next hc =>
    have fits {k : Nat} (hf : (fF6 w).toNat = k) : layRR 0x02 (fD w) (fA w) (fB w) 0 (BitVec.ofNat 6 k) = w :=
      layRR_eq_iff.2 ⟨hm, rfl, rfl, rfl, not_not.1 hc, eq_ofNat hf⟩
    split
    case h_20 hf => exact decodeSound_okIf rfl fun hb => eq_of_beq hb ▸ fits hf
    case h_21 => exact decodeSound_none
    all_goals exact decodeSound_some rfl rfl (fits ‹_›)

theorem decShift_sound {w : IWord} (hm : fMaj w = 0x08) : DecodeSound w (decShift w) := by
  unfold decShift
  split
  · exact decodeSound_none
  next h =>
    have fits {k : Nat} (hf : (fOR w).toNat = k) : laySY 0x08 (fD w) (fA w) 0 0 (BitVec.ofNat 2 k) (fF6 w) = w :=
      laySY_eq_iff.2 ⟨hm, rfl, rfl, by tauto, by tauto, eq_ofNat hf, rfl⟩
    split
    case h_4 => exact decodeSound_none
    all_goals exact decodeSound_some rfl rfl (fits ‹_›)

theorem decFp_sound {w : IWord} {f : BitVec 4} (hm : fMaj w = fmaj f) : DecodeSound w (decFp f w) := by
  have fits {b c : Reg} {r : BitVec 3} {k : Nat} (hf : (fFX w).toNat = k) (h : fB w = b ∧ fC w = c ∧ fOp3 w = r) :
      layVX (fmaj f) (fD w) (fA w) b c r (BitVec.ofNat 3 k) = w := layVX_eq_iff.2 ⟨hm, rfl, rfl, h.1, h.2.1, h.2.2, eq_ofNat hf⟩
  unfold decFp
  dsimp only
  split
  case h_6 hf => exact decodeSound_ok rfl (fits hf ⟨rfl, rfl, rfl⟩)
  case h_8 => exact decodeSound_okIf rfl fun hz => fits (k := 7) (by have := (fFX w).isLt; grind) (by simpa using hz)
  all_goals exact decodeSound_okIf rfl fun hz => fits ‹_› (by simpa using hz)

theorem decFcmp_sound {w : IWord} (hm : fMaj w = 0x1A) : DecodeSound w (decFcmp w) := by
  unfold decFcmp
  dsimp only
  split
  next hk => exact decodeSound_ok rfl (layRR_eq_iff.2 ⟨hm, rfl, rfl, rfl, rfl, fF6_eq_cond_iff.2 ⟨eq_ofNat hk, rfl⟩⟩)
  next hk => exact decodeSound_okIf rfl fun hz =>
      layRR_eq_iff.2 ⟨hm, rfl, rfl, rfl, rfl, fF6_eq_cvt_iff.2 ⟨eq_ofNat hk, rfl, eq_of_beq hz⟩⟩
  next hk =>
    exact decodeSound_okIf rfl fun hz =>
      have ⟨hb, hc⟩ : fB w = 0 ∧ fCnd w = 0 := by simpa using hz
      layRR_eq_iff.2 ⟨hm, rfl, rfl, hb, rfl, fF6_eq_cond_iff.2 ⟨eq_ofNat hk, hc⟩⟩
  exact decodeSound_none

theorem decSys_sound {w : IWord} (hm : fMaj w = 0x1B) : DecodeSound w (decSys w) := by
  unfold decSys
  dsimp only
  split
  · exact decodeSound_none
  next hc =>
    have fits {d : Reg} {n : BitVec 10} {k : Nat} (hf : (fF6 w).toNat = k) (h : fD w = d ∧ fCsr w = n) :
        layCsr 0x1B d n 0 (BitVec.ofNat 6 k) = w := layCsr_eq_iff.2 ⟨hm, h.1, h.2, not_not.1 hc, eq_ofNat hf⟩
    split
    case h_4 hf | h_5 hf => exact decodeSound_ok rfl (fits hf ⟨rfl, rfl⟩)
    case h_7 => exact decodeSound_none
    all_goals exact decodeSound_okIf rfl fun hz => fits ‹_› (by simpa using hz)

theorem decSync_sound {w : IWord} (hm : fMaj w = 0x1D) : DecodeSound w (decSync w) := by
  unfold decSync
  dsimp only
  split
  case h_10 hf | h_11 hf => exact decodeSound_ok rfl (laySY_eq_iff.2 ⟨hm, rfl, rfl, rfl, rfl, rfl, eq_ofNat hf⟩)
  case h_12 => exact decodeSound_none
  all_goals exact decodeSound_okIf rfl fun hz => laySY_eq_iff.2 (by simpa [hm, eq_ofNat ‹_›, and_assoc] using hz)

theorem decCtl_sound {w : IWord} (hm : fMaj w = 0x1E) : DecodeSound w (decCtl w) := by
  unfold decCtl
  dsimp only
  split
  case h_2 hf =>
    split
    all_goals exact decodeSound_okIf rfl fun hz => layRR_eq_iff.2 (by simpa [hm, eq_ofNat hf, and_assoc] using hz)
  case h_19 => exact decodeSound_none
  all_goals exact decodeSound_okIf rfl fun hz => layRR_eq_iff.2 (by simpa [hm, eq_ofNat ‹_›, and_assoc] using hz)

theorem decEng_sound {w : IWord} (hm : fMaj w = 0x1F) : DecodeSound w (decEng w) := by
  unfold decEng
  dsimp only
  split
  · exact decodeSound_none
  next h =>
    have fits {a : Reg} {k : Nat} (hf : (fF6 w).toNat = k) (ha : fA w = a) : layRR 0x1F (fD w) a 0 0 (BitVec.ofNat 6 k) = w :=
      layRR_eq_iff.2 ⟨hm, rfl, ha, by tauto, by tauto, eq_ofNat hf⟩
    split
    case h_4 hf => exact decodeSound_okIf rfl fun hz => fits hf (eq_of_beq hz)
    case h_5 => exact decodeSound_none
    all_goals exact decodeSound_some rfl rfl (fits ‹_› rfl)

theorem decVcfg_sound {w : IWord} (hm : fMaj w = 0x20) : DecodeSound w (decVcfg w) :=
  decodeSound_okIf rfl fun hz => layCfg_eq_iff.2 ⟨hm, rfl, rfl, rfl, rfl, rfl, rfl, rfl, eq_of_beq hz⟩

theorem decMove_sound {w : IWord} (hm : fMaj w = 0x21) : DecodeSound w (decMove w) := by
  unfold decMove
  dsimp only
  split
  case h_8 => exact decodeSound_none
  all_goals exact decodeSound_okIf rfl fun hz => layV_eq_iff.2 (by simpa [hm, eq_ofNat ‹_›, and_assoc] using hz)

theorem decVint_sound {w : IWord} (hm : fMaj w = 0x22) : DecodeSound w (decVint w) := by
  unfold decVint
  dsimp only
  split
  case h_16 => exact decodeSound_none
  all_goals exact decodeSound_ok rfl (layV_eq_iff.2 ⟨hm, rfl, rfl, rfl, rfl, rfl, rfl, eq_ofNat ‹_›⟩)

/-- The last function code of a two-bit field, where it is none of the others. -/
theorem eq_three {x : BitVec 2} (h0 : x.toNat = 0 → False) (h1 : x.toNat = 1 → False) (h2 : x.toNat = 2 → False) : x = 3 := by
  revert x
  decide

/-- A word of the layout of majors 0x23 to 0x25, whose function field holds a rounding code. -/
theorem layV_rnd_eq {w : IWord} {maj : BitVec 6} {b : Reg} {fm k : BitVec 2} {r : BitVec 3} (hm : fMaj w = maj) (hf : fFM2 w = k)
    (h : fRnd w = r ∧ fB w = b ∧ fFM w = fm) : layV maj (fD w) (fA w) b (fP w) (fT w) fm (r ++ k) = w :=
  layV_eq_iff.2 ⟨hm, rfl, rfl, h.2.1, rfl, rfl, h.2.2, fF5_eq_rnd_iff.2 ⟨h.1, hf⟩⟩

theorem decVfa_sound {w : IWord} (hm : fMaj w = 0x23) : DecodeSound w (decVfa w) := by
  unfold decVfa
  dsimp only
  split
  case h_4 h0 h1 h2 => exact decodeSound_ok rfl (layV_rnd_eq hm (eq_three h0 h1 h2) ⟨rfl, rfl, rfl⟩)
  all_goals exact decodeSound_ok rfl (layV_rnd_eq hm (eq_ofNat ‹_›) ⟨rfl, rfl, rfl⟩)

theorem decVfm_sound {w : IWord} (hm : fMaj w = 0x24) : DecodeSound w (decVfm w) := by
  unfold decVfm
  dsimp only
  split
  case h_3 hf => exact decodeSound_ok rfl (layV_rnd_eq hm (eq_ofNat hf) ⟨rfl, rfl, rfl⟩)
  case h_4 h0 h1 h2 => exact decodeSound_okIf rfl fun hz => layV_rnd_eq (r := 7) hm (eq_three h0 h1 h2) (by simpa [and_assoc] using hz)
  case h_1 hf | h_2 hf => exact decodeSound_okIf rfl fun hz => layV_rnd_eq (r := 7) hm (eq_ofNat hf) ⟨eq_of_beq hz, rfl, rfl⟩

theorem decVfu_sound {w : IWord} (hm : fMaj w = 0x25) : DecodeSound w (decVfu w) := by
  unfold decVfu
  dsimp only
  split
  case h_2 hf => exact decodeSound_okIf rfl fun hz => layV_rnd_eq (r := 7) hm (eq_ofNat hf) (by simpa [and_assoc] using hz)
  case h_4 h0 h1 h2 => exact decodeSound_okIf rfl fun hz => layV_rnd_eq (r := 7) hm (eq_three h0 h1 h2) (by simpa [and_assoc] using hz)
  all_goals exact decodeSound_okIf rfl fun hz => layV_rnd_eq hm (eq_ofNat ‹_›) (by simpa using hz)

theorem decVcmp_sound {w : IWord} (hm : fMaj w = 0x27) : DecodeSound w (decVcmp w) := by
  have fits {k : BitVec 1} (hk : w.extractLsb' 4 1 = k) :
      layV 0x27 (fD w) (fA w) (fB w) (fP w) (fT w) (fFM w) (k ++ fCnd w) = w :=
    layV_eq_iff.2 ⟨hm, rfl, rfl, rfl, rfl, rfl, rfl, fF5_eq_cond_iff.2 ⟨hk, rfl⟩⟩
  unfold decVcmp
  dsimp only
  split
  next hk => exact decodeSound_ok rfl (fits hk)
  next hk => exact decodeSound_ok rfl (fits ((bv1_cases _).resolve_left hk))

theorem decRed_sound {w : IWord} (hm : fMaj w = 0x28) : DecodeSound w (decRed w) := by
  unfold decRed
  dsimp only
  split
  · exact decodeSound_none
  next hfm =>
    have fits {k : Nat} (hf : (fF5 w).toNat = k) : layV 0x28 (fD w) (fA w) (fB w) (fP w) (fT w) 1 (BitVec.ofNat 5 k) = w :=
      layV_eq_iff.2 ⟨hm, rfl, rfl, rfl, rfl, rfl, not_not.1 hfm, eq_ofNat hf⟩
    split
    case h_15 => exact decodeSound_none
    case h_1 hf | h_2 hf | h_3 hf | h_4 hf | h_5 hf | h_6 hf | h_7 hf => exact decodeSound_some rfl rfl (fits hf)
    case h_8 hf | h_9 hf | h_10 hf | h_11 hf | h_12 hf | h_13 hf | h_14 hf => exact decodeSound_ok rfl (fits hf)

theorem decPerm_sound {w : IWord} (hm : fMaj w = 0x29) : DecodeSound w (decPerm w) := by
  have fits {b : Reg} {fm : BitVec 2} {k : Nat} (hf : (fF5 w).toNat = k) (h : fB w = b ∧ fFM w = fm) :
      layV 0x29 (fD w) (fA w) b (fP w) (fT w) fm (BitVec.ofNat 5 k) = w :=
    layV_eq_iff.2 ⟨hm, rfl, rfl, h.1, rfl, rfl, h.2, eq_ofNat hf⟩
  unfold decPerm
  dsimp only
  split
  case h_3 hf | h_4 hf => exact decodeSound_okIf rfl fun hz => fits hf (by simpa using hz)
  case h_6 => exact decodeSound_none
  all_goals exact decodeSound_ok rfl (fits ‹_› ⟨rfl, rfl⟩)

theorem decPred_sound {w : IWord} (hm : fMaj w = 0x2A) : DecodeSound w (decPred w) := by
  unfold decPred
  dsimp only
  split
  case h_11 => exact decodeSound_none
  all_goals exact decodeSound_okIf rfl fun hz => layV_eq_iff.2 (by simpa [hm, eq_ofNat ‹_›, and_comm] using hz)

theorem decDep_sound {w : IWord} (hm : fMaj w = 0x2B) : DecodeSound w (decDep w) := by
  unfold decDep
  dsimp only
  split
  · exact decodeSound_none
  next hfm =>
    have fits {b : Reg} {p : BitVec 3} {k : Nat} (hf : (fF5 w).toNat = k) (h : fB w = b ∧ fP w = p) :
        layV 0x2B (fD w) (fA w) b p (fT w) 0 (BitVec.ofNat 5 k) = w :=
      layV_eq_iff.2 ⟨hm, rfl, rfl, h.1, h.2, rfl, not_not.1 hfm, eq_ofNat hf⟩
    split
    next hf => exact decodeSound_okIf rfl fun hz => fits hf ⟨eq_of_beq hz, rfl⟩
    next hf => exact decodeSound_ok rfl (fits hf ⟨rfl, rfl⟩)
    next hf => exact decodeSound_okIf rfl fun hz => fits hf ⟨rfl, eq_of_beq hz⟩
    exact decodeSound_none

theorem decAlg_sound {w : IWord} (hm : fMaj w = 0x2C) : DecodeSound w (decAlg w) := by
  unfold decAlg
  dsimp only
  split
  · exact decodeSound_none
  next hfm =>
    have fits {b : Reg} {k : Nat} (hf : (fFX w).toNat = k) (hb : fB w = b) :
        layV 0x2C (fD w) (fA w) b (fP w) (fT w) 0 (fTB w ++ BitVec.ofNat 3 k) = w :=
      layV_eq_iff.2 ⟨hm, rfl, rfl, hb, rfl, rfl, not_not.1 hfm, fF5_eq_table_iff.2 ⟨rfl, eq_ofNat hf⟩⟩
    split
    case h_1 hf | h_5 hf => exact decodeSound_ok rfl (fits hf rfl)
    case h_6 => exact decodeSound_none
    all_goals exact decodeSound_okIf rfl fun hz => fits ‹_› (eq_of_beq hz)

theorem decVld_sound {w : IWord} (hm : fMaj w = 0x2D) : DecodeSound w (decVld w) := by
  have fits {b : Reg} {fm : BitVec 2} (hf : fFM w = fm) (hb : fB w = b) : layV 0x2D (fD w) (fA w) b (fP w) (fT w) fm (fF5 w) = w :=
    layV_eq_iff.2 ⟨hm, rfl, rfl, hb, rfl, rfl, hf, rfl⟩
  unfold decVld
  dsimp only
  split
  next hf => exact decodeSound_okIf rfl fun hz => fits (eq_ofNat hf) (eq_of_beq hz)
  next hf => exact decodeSound_ok rfl (fits (eq_ofNat hf) rfl)
  next hf => exact decodeSound_ok rfl (fits (eq_ofNat hf) rfl)
  next h0 h1 h2 => exact decodeSound_ok rfl (fits (eq_three h0 h1 h2) rfl)

theorem decVst_sound {w : IWord} (hm : fMaj w = 0x2E) : DecodeSound w (decVst w) := by
  have fits {d b : Reg} {fm : BitVec 2} (hf : fFM w = fm) (h : fD w = d ∧ fB w = b) :
      layV 0x2E d (fA w) b (fP w) (fT w) fm (fF5 w) = w := layV_eq_iff.2 ⟨hm, h.1, rfl, h.2, rfl, rfl, hf, rfl⟩
  unfold decVst
  dsimp only
  split
  next hf => exact decodeSound_okIf rfl fun hz => fits (eq_ofNat hf) ⟨rfl, eq_of_beq hz⟩
  next hf => exact decodeSound_ok rfl (fits (eq_ofNat hf) ⟨rfl, rfl⟩)
  next hf => exact decodeSound_ok rfl (fits (eq_ofNat hf) ⟨rfl, rfl⟩)
  next h0 h1 h2 => exact decodeSound_okIf rfl fun hz => fits (eq_three h0 h1 h2) (by simpa using hz)

theorem decSeg_sound {w : IWord} (hm : fMaj w = 0x2F) : DecodeSound w (decSeg w) := by
  unfold decSeg
  dsimp only
  split
  next hf => exact decodeSound_ok rfl (layV_eq_iff.2 ⟨hm, rfl, rfl, rfl, rfl, rfl, eq_ofNat hf, rfl⟩)
  next hf => exact decodeSound_ok rfl (layV_eq_iff.2 ⟨hm, rfl, rfl, rfl, rfl, rfl, eq_ofNat hf, rfl⟩)
  exact decodeSound_none

theorem decTile_sound {w : IWord} (hm : fMaj w = 0x31) : DecodeSound w (decTile w) := by
  unfold decTile
  dsimp only
  split
  · exact decodeSound_none
  next h =>
    have fits {a b : Reg} {k : BitVec 2} (hf : fFM2 w = k) (hz : fA w = a ∧ fB w = b) : layMX 0x31 (fD w) a b 0 0 0 0 k = w :=
      layMX_eq_iff.2 ⟨hm, rfl, hz.1, hz.2, by tauto, by tauto, by tauto, by tauto, hf⟩
    split
    next hf => exact decodeSound_ok rfl (fits (eq_ofNat hf) ⟨rfl, rfl⟩)
    next hf => exact decodeSound_okIf rfl fun hz => fits (eq_ofNat hf) (by simpa using hz)
    next hf => exact decodeSound_okIf rfl fun hz => fits (eq_ofNat hf) ⟨rfl, eq_of_beq hz⟩
    next h0 h1 h2 => exact decodeSound_okIf rfl fun hz => fits (eq_three h0 h1 h2) ⟨rfl, eq_of_beq hz⟩

theorem decFill_sound {w : IWord} (hm : fMaj w = 0x32) : DecodeSound w (decFill w) := by
  unfold decFill
  dsimp only
  split
  case h_4 => exact decodeSound_none
  all_goals exact decodeSound_okIf rfl fun hz => layMX_eq_iff.2 (by simpa [hm, eq_ofNat ‹_›, and_assoc] using hz)

theorem layRI_eq {w : IWord} {maj : BitVec 6} (hm : fMaj w = maj) : layRI maj (fD w) (fA w) (fI16 w) = w := layRI_eq_iff.2 ⟨hm, rfl, rfl, rfl⟩

/-- A word decodes only to a well-formed instruction, and to one whose word it is (R46). -/
theorem decode_sound (w : IWord) : DecodeSound w (decode w) := by
  unfold decode
  split
  case h_1 hm => exact decHint_sound (eq_ofNat hm)
  case h_2 hm => exact decAlu_sound (eq_ofNat hm)
  case h_8 hm => exact decShift_sound (eq_ofNat hm)
  case h_14 hm =>
    split
    next ha => exact decodeSound_some rfl rfl (layRI_eq_iff.2 ⟨eq_ofNat hm, rfl, ha, rfl⟩)
    exact decodeSound_ok rfl (layRI_eq (eq_ofNat hm))
  case h_15 hm => exact decodeSound_some rfl rfl (layJ_eq_iff.2 ⟨eq_ofNat hm, rfl, rfl⟩)
  case h_16 hm | h_17 hm => exact decodeSound_ok rfl (layMF_eq_iff.2 ⟨eq_ofNat hm, rfl, rfl, rfl, rfl⟩)
  case h_18 hm =>
    exact decodeSound_ok rfl (layBR_eq_iff.2
      ⟨eq_ofNat hm, BitVec.extractLsb'_append_eq_left.symm, rfl, rfl, BitVec.extractLsb'_append_eq_right.symm, rfl⟩)
  case h_19 hm | h_20 hm => exact decodeSound_okIf rfl fun hd => layJ_eq_iff.2 ⟨eq_ofNat hm, eq_of_beq hd, rfl⟩
  case h_22 hm | h_23 hm | h_24 hm | h_25 hm => exact decFp_sound (eq_ofNat hm)
  case h_26 hm => exact decFcmp_sound (eq_ofNat hm)
  case h_27 hm => exact decSys_sound (eq_ofNat hm)
  case h_28 hm => exact decodeSound_ok rfl (laySY_eq_iff.2 ⟨eq_ofNat hm, rfl, rfl, rfl, rfl, rfl, fF6_eq_op_iff.2 ⟨rfl, rfl⟩⟩)
  case h_29 hm => exact decSync_sound (eq_ofNat hm)
  case h_30 hm => exact decCtl_sound (eq_ofNat hm)
  case h_31 hm => exact decEng_sound (eq_ofNat hm)
  case h_32 hm => exact decVcfg_sound (eq_ofNat hm)
  case h_33 hm => exact decMove_sound (eq_ofNat hm)
  case h_34 hm => exact decVint_sound (eq_ofNat hm)
  case h_35 hm => exact decVfa_sound (eq_ofNat hm)
  case h_36 hm => exact decVfm_sound (eq_ofNat hm)
  case h_37 hm => exact decVfu_sound (eq_ofNat hm)
  case h_38 hm | h_48 hm => exact decodeSound_ok rfl (layVX_eq_iff.2 ⟨eq_ofNat hm, rfl, rfl, rfl, rfl, rfl, rfl⟩)
  case h_39 hm => exact decVcmp_sound (eq_ofNat hm)
  case h_40 hm => exact decRed_sound (eq_ofNat hm)
  case h_41 hm => exact decPerm_sound (eq_ofNat hm)
  case h_42 hm => exact decPred_sound (eq_ofNat hm)
  case h_43 hm => exact decDep_sound (eq_ofNat hm)
  case h_44 hm => exact decAlg_sound (eq_ofNat hm)
  case h_45 hm => exact decVld_sound (eq_ofNat hm)
  case h_46 hm => exact decVst_sound (eq_ofNat hm)
  case h_47 hm => exact decSeg_sound (eq_ofNat hm)
  case h_49 hm => exact decTile_sound (eq_ofNat hm)
  case h_50 hm => exact decFill_sound (eq_ofNat hm)
  case h_51 => exact decodeSound_none
  all_goals exact decodeSound_some rfl rfl (layRI_eq (eq_ofNat ‹_›))

theorem fMaj_toNat (w : IWord) : (fMaj w).toNat = w.toNat / 2 ^ 26 := by
  simp only [fMaj, BitVec.extractLsb'_toNat, Nat.shiftRight_eq_div_pow]
  have := w.isLt
  omega

/-- The majors that hold no instruction (R46). -/
theorem decode_unassigned {w : IWord} (h : (fMaj w).toNat = 0 ∨ 0x33 ≤ (fMaj w).toNat) : decode w = none := by
  unfold decode
  split
  case h_51 => rfl
  all_goals omega

/-- The word of a well-formed instruction decodes to it (R28). -/
theorem decode_encode (i : Instr) : Encoding.Statement i :=
  Instr.casesOn (motive := Encoding.Statement) i
    Encoding.add Encoding.sub Encoding.and Encoding.or Encoding.xor Encoding.shl Encoding.shr Encoding.sar Encoding.slt Encoding.sltu
    Encoding.mul Encoding.mulh Encoding.mulhu Encoding.div Encoding.divu Encoding.rem Encoding.remu Encoding.min Encoding.max Encoding.popc
    Encoding.addImm Encoding.subImm Encoding.andImm Encoding.orImm Encoding.xorImm Encoding.shlImm Encoding.shrImm Encoding.sarImm
    Encoding.sltImm Encoding.sltuImm Encoding.mulImm Encoding.minImm Encoding.maxImm Encoding.lim Encoding.limInsert Encoding.addpc
    Encoding.nop Encoding.hint Encoding.land Encoding.landTask Encoding.ld Encoding.st Encoding.br Encoding.jmp Encoding.jal Encoding.jalr
    Encoding.fadd Encoding.fsub Encoding.fmul Encoding.fdiv Encoding.fsqrt Encoding.fma Encoding.fmin Encoding.fmax Encoding.fcmp
    Encoding.fcvt Encoding.fclass Encoding.sysc Encoding.brk Encoding.sret Encoding.csrr Encoding.csrw Encoding.waite Encoding.amo
    Encoding.fence Encoding.gjoin Encoding.gleave Encoding.gsync Encoding.ipost Encoding.iwait Encoding.cas Encoding.qpush Encoding.qpop
    Encoding.qpopVector Encoding.qcnt Encoding.talloc Encoding.tfree Encoding.tspawn Encoding.tend Encoding.tparkGroup Encoding.tparkRing
    Encoding.tparkTag Encoding.smap Encoding.sunmap Encoding.sflush Encoding.uret Encoding.tmark Encoding.algld Encoding.nset Encoding.nloop
    Encoding.xcopy Encoding.xgath Encoding.xcoll Encoding.xwait Encoding.vcfg Encoding.vid Encoding.vsplat Encoding.vmv Encoding.vext
    Encoding.vlast Encoding.vextQ Encoding.vlastQ Encoding.vadd Encoding.vsub Encoding.vmul Encoding.vmulh Encoding.vmac Encoding.vdiv
    Encoding.vmin Encoding.vmax Encoding.vand Encoding.vor Encoding.vxor Encoding.vshl Encoding.vshr Encoding.vsar Encoding.vsadd
    Encoding.vfadd Encoding.vfsub Encoding.vfmul Encoding.vfdiv Encoding.vfmin Encoding.vfmax Encoding.vfscale Encoding.vfsplit
    Encoding.vfsqrt Encoding.vfrsqe Encoding.vfcvt Encoding.vfclass Encoding.vfma Encoding.vcmp Encoding.vfcmp Encoding.vrsum
    Encoding.vrosum Encoding.vrmax Encoding.vrmin Encoding.vrlog Encoding.vrsumQ Encoding.vrosumQ Encoding.vrmaxQ Encoding.vrminQ
    Encoding.vrlogQ Encoding.vslup Encoding.vsldn Encoding.vperm Encoding.vcompr Encoding.vmerge Encoding.pand Encoding.por Encoding.pxor
    Encoding.pnot Encoding.pset Encoding.pfirst Encoding.pbrkBefore Encoding.pbrkThru Encoding.pcnt Encoding.pcntQ Encoding.vdep
    Encoding.vdepx Encoding.vpart Encoding.vamul Encoding.vaconj Encoding.vaconjRev Encoding.vanorm Encoding.vasand Encoding.vld
    Encoding.vlds Encoding.vldx Encoding.vldff Encoding.vst Encoding.vsts Encoding.vstx Encoding.vpref Encoding.vldseg Encoding.vstseg
    Encoding.vamo Encoding.mmac Encoding.mzero Encoding.mldacc Encoding.mcb Encoding.mfill Encoding.mdrainMemory Encoding.mdrainRegister
    Encoding.laneIssue Encoding.arrayIssue Encoding.vectorComplete Encoding.translationInvalidate Encoding.writebackForward
    Encoding.stashRemoteRead Encoding.stashRemoteWrite Encoding.updateArrival Encoding.chainApply Encoding.taskStart Encoding.groupOpApply
    Encoding.orderPointApply Encoding.ringHop Encoding.jobStart Encoding.jobComplete Encoding.jobPageFault Encoding.fillRowWrite
    Encoding.ulDelivery Encoding.preempt Encoding.contain Encoding.pageAbsentService Encoding.panelRefill Encoding.trapReflect
    Encoding.taskTrapEnd Encoding.tailSnoop Encoding.registerQueue Encoding.unregisterQueue Encoding.setPowerCap Encoding.getFwInfo
    Encoding.transferFw Encoding.activateFw Encoding.getMeasurements Encoding.hostMemRead Encoding.hostMemWrite
    Encoding.backInvalidateResponse Encoding.peerAccess Encoding.linkReplay Encoding.deviceReset Encoding.readyReport Encoding.memTrained
    Encoding.agentTimeout Encoding.internalError Encoding.spareService Encoding.columnFail Encoding.bstoreParityError Encoding.clockChange
    Encoding.ectlClr Encoding.ectlUnfreeze Encoding.elostClear Encoding.counterClear Encoding.histClear Encoding.trigFiredClear
    Encoding.electrumRegisterWrite Encoding.engineRequestDone Encoding.triggerGlobalArrival Encoding.illegalInstruction
    Encoding.storeBufferDrain Encoding.dirtyWriteback Encoding.hardwarePrefetch Encoding.cxlCacheSnoop Encoding.memDeviceFailure
    Encoding.spillAreaExtension Encoding.codeObjectLoad Encoding.spdmRequest

/-- Settles O1: the encoder's words decode back constructor by constructor, and each major's decoder answers only with instructions whose word it was given. -/
theorem encoding : Obligations.Encoding :=
  ⟨fun i w hi hw => decode_encode i hi w hw, fun w => decode_sound w, fun w h => decode_unassigned (by rwa [fMaj_toNat])⟩

/-- Settles O2, by evaluating the decoder on each word. -/
theorem wordsOfTheTables : Obligations.WordsOfTheTables := ⟨rfl, rfl, rfl, rfl, rfl, rfl, rfl, rfl, rfl, rfl⟩

end Sys2Proof.Laws

/-!
SUPPORT. One step of the scalar stream with nothing before it (R27, R46, R55, R56, R290), and the traps that a word takes before it does anything else (R39, R46,
R52, R56, R130).
-/

namespace Sys2Proof.Laws

open Sys2Proof.Machine

/-- An empty VIQ has no head. -/
theorem headOf_empty {s : State} (h : s.ct.vec.viq = []) : headOf s = .idle := by simp only [headOf, h]

theorem owingStep_empty {s : State} (h : s.ct.vec.owing = []) : owingStep s = none := by simp only [owingStep, h, List.find?_nil]

/-- A vector stream with nothing in the VIQ and nothing owed has no step. -/
theorem vectorTurn_empty {s : State} (hv : s.ct.vec.viq = []) (ho : s.ct.vec.owing = []) : vectorTurn s = none := by
  have hl : landHead s = s := by simp only [landHead, headOf_empty hv, ite_self]
  unfold vectorTurn
  split
  · rw [owingStep_empty ho]; rfl
  · simp only [hl, vectorStep, headStep, headOf_empty hv, owingStep_empty ho]
    rfl

theorem held_of_not_hold {s : State} (h : s.ct.vec.hold = false) : held s = false := by simp [held, h]

/-- With an empty vector stream a turn of the streams is a step of the scalar one. -/
theorem runStreams_scalar {s : State} (hv : s.ct.vec.viq = []) (ho : s.ct.vec.owing = [] ∨ s.ct.ctl.wait = .none)
    (hh : s.ct.vec.hold = false) : runStreams s = scalarStep s := by
  unfold runStreams
  split
  · rfl
  next h =>
    have hw : s.ct.ctl.wait ≠ .none := fun hw => h (by simp [viqIdle, headOf_empty hv, hw, held_of_not_hold hh])
    simp [vectorTurn_empty hv (ho.resolve_right hw), held_of_not_hold hh]

/-- A running thread before whose next word nothing comes: no slot, no earlier step, nothing at the boundary, and an empty vector stream. -/
structure ScalarTurn (s : State) : Prop where
  slots : s.sched.slots = []
  pending : s.pending = []
  running : s.ct.status = .running
  boundary : boundary s = none
  viq : s.ct.vec.viq = []
  owing : s.ct.vec.owing = [] ∨ s.ct.ctl.wait = .none
  hold : s.ct.vec.hold = false

/-- A step that nothing comes before runs the next word. -/
theorem step_runWord {s s1 : State} {w : IWord} (h : ScalarTurn s) (hw : nextWord s = .ok w s1) : step s = runWord w s1 := by
  simp only [step, runStep, h.slots, h.pending, runThread, h.running, h.boundary, Option.getD_none]
  rw [runStreams_scalar h.viq h.owing h.hold, scalarStep, hw]

/-- A word whose landing checks hold runs, after its breakpoint where it begins. -/
theorem runWord_checked {s : State} {w : IWord} {i : Instr} (hi : (decode w).getD (.illegalInstruction w) = i) (hl : s.ct.ctl.lpend = true → isLand w = true)
    (ht : atStart s = true → isLandTask w = true) :
    runWord w s = exec i (landFor i (if begins (landed s) then scalarBreaks (landed s) s.ct.pc w else landed s)) := by
  subst hi
  have h1 : (s.ct.ctl.lpend && !isLand w) = false := by simpa using hl
  have h2 : (atStart s && !isLandTask w) = false := by simpa using ht
  simp only [runWord, h1, h2, Bool.false_eq_true, if_false]
  rfl

/-- A word that a landing check refuses traps LANDING at itself. -/
theorem runWord_landing {s : State} {w : IWord} (h : (s.ct.ctl.lpend && !isLand w) = true ∨ (atStart s && !isLandTask w) = true) :
    runWord w s = landingTrap (landed s) := by
  unfold runWord
  split
  · rfl
  next h1 => exact if_pos (h.resolve_left h1)

theorem begins_iff (s : State) : begins s = true ↔ s.ct.ctl.wait = .none ∨ s.ct.ctl.wait = .fetch := by simp [begins]

/-- No breakpoint fires where none is enabled. -/
theorem scalarBreaks_none {s : State} (pc : Word) (w : IWord) (h : anyBreak s = false) : scalarBreaks s pc w = s := by
  have e : ((s.el (dieOf s.ct.lcore)).bps.toList.zipIdx.filter fun b => b.1.en && !b.1.een && b.1.pc == pc) = [] := by
    simp only [anyBreak, List.any_eq_false] at h
    refine List.filter_eq_nil_iff.2 fun b hb => ?_
    simp [h _ (List.fst_mem_of_mem_zipIdx hb)]
  rw [scalarBreaks, e]
  rfl

/-- Settles O3: the turn goes to the scalar stream, whose word passes the landing checks. -/
theorem stepRunsTheDecodedInstruction : Obligations.StepRunsTheDecodedInstruction := by
  intro s s1 w hs hp hr hb hv ho hh _ hw hl ht i hi
  have hi : (decode w).getD (.illegalInstruction w) = i := by
    rcases hi with hi | ⟨hi, rfl⟩ <;> rw [hi] <;> rfl
  have hu : (if begins (landed s1) then scalarBreaks (landed s1) s1.ct.pc w else landed s1) =
      if s1.ct.ctl.wait = .none ∨ s1.ct.ctl.wait = .fetch then scalarBreaks (landed s1) s1.ct.pc w else landed s1 :=
    if_congr (begins_iff (landed s1)) rfl rfl
  have hstep := (step_runWord ⟨hs, hp, hr, hb, hv, ho, hh⟩ hw).trans (runWord_checked hi hl ht)
  rw [hu] at hstep
  refine ⟨hstep, fun hn => ?_, fun hlate => ?_⟩
  · rw [scalarBreaks_none _ _ (s := landed s1) hn, ite_self]
  · exact hstep.trans (congrArg (exec i) (landFor_none i hlate))

/-! Traps of a word (R39, R46, R52, R56, R130). -/

/-- The first check of an instruction that Tables 2.4 to 2.6 give a profile is of that profile (R52). An MFILL with an epilogue needs two. -/
theorem exec_eq_withProfile {i : Instr} {p : Profile} (s : State) (h : profileOf i = some p) (hm : ∀ d a m g sd, i ≠ .mfill d a m 1 g sd) :
    ∃ f, exec i s = withProfile p s f := by
  cases i with
  | csrw v c =>
    change (if csrReadOnly c.toNat then none else some Profile.lb) = some p at h
    split at h <;> cases h
    next hc => exact ⟨_, if_neg hc⟩
  | mfill d a m e g sd =>
    cases h
    have he : ¬ (e == 1) = true := fun he => hm d a m g sd (eq_of_beq he ▸ rfl)
    exact ⟨_, if_neg he⟩
  | _ => cases h <;> exact ⟨_, rfl⟩

theorem withProfile_trap {s : State} {p : Profile} (h : s.has p = false) (f : Host.Outcome State Fault Refusal) :
    withProfile p s f = takeTrap { code := Code.profile } s := by
  simp [withProfile, h]

/-- An instruction of a profile that the task does not declare traps PROFILE (R52). -/
theorem exec_undeclared {i : Instr} {s : State} {p : Profile} (h : s.has p = false)
    (hp : profileOf i = some p ∨ (p = .la ∧ ∃ d a m g sd, i = .mfill d a m 1 g sd)) : exec i s = takeTrap { code := Code.profile } s := by
  by_cases hm : ∃ d a m g sd, i = .mfill d a m 1 g sd
  · obtain ⟨d, a, m, g, sd, rfl⟩ := hm
    change withProfile .la s (withProfile .lm s _) = _
    rcases hp with hp | ⟨rfl, -⟩
    · cases hp
      rw [withProfile_trap h]
      unfold withProfile
      exact ite_self _
    · exact withProfile_trap h _
  · obtain ⟨f, hf⟩ := exec_eq_withProfile s (hp.resolve_right fun hp => hm hp.2) fun d a m g sd hi => hm ⟨d, a, m, g, sd, hi⟩
    rw [hf, withProfile_trap h]

theorem not_has_of_u {s : State} {p : Profile} (hu : s.ct.level = .u) (h : s.ct.task.profs.getLsbD p.bit = false) : s.has p = false := by
  simp [State.has, hu, h]

/-- A rounding instruction in dynamic rounding traps ILLEGAL where FRM holds 6 or 7 (R130). -/
theorem rounded_illegal {s : State} (lb : s.has .lb = true) (h : 6 ≤ s.ct.fp.frm.toNat) (d : Reg) (f : Rc → Nat × FFlags) :
    rounded s d 7 f = takeTrap { code := Code.illegal } s := by
  have hr : roundingOf 7 s.ct.fp.frm = none := by rw [roundingOf, if_pos rfl, if_pos (by omega)]
  rw [rounded, hr]
  exact withProfile_has lb _

/-- The level of the acting control thread may not access the CSR (R39). -/
def csrRefused (s : State) (n : Nat) : Bool := csrSuper n && s.ct.level == .u || csrFirmware n && s.ct.level != .m

theorem csrAccess_eq {s : State} {n : Nat} (h : s.has (csrProfile n) = true) (waits : Bool) (f : Host.Outcome State Fault Refusal) :
    csrAccess n waits s f =
      if csrRefused s n then takeTrap { code := Code.priv } s else if waits then whenDrained s f else f := withProfile_has h _

/-- A CSR that the level may not access traps PRIV (R39). -/
theorem csrAccess_priv {s : State} {n : Nat} (h : s.has (csrProfile n) = true)
    (hn : csrRefused s n = true) (waits : Bool) (f : Host.Outcome State Fault Refusal) :
    csrAccess n waits s f = takeTrap { code := Code.priv } s := by
  rw [csrAccess_eq h, if_pos hn]

/-- The CSRs of the supervisor and of firmware need no profile but LB, and CSRW may write each. -/
theorem csr_upper {n : Nat} (h : 0x100 ≤ n) : csrProfile n = .lb ∧ csrReadOnly n = false := by
  constructor
  · rw [csrProfile, if_neg (by omega), if_neg (by omega), if_neg (by omega), if_neg (by omega), if_neg (by omega)]
  · simp only [csrReadOnly, Bool.or_eq_false_iff, beq_eq_false_iff_ne]
    omega

/-- U may access no CSR of the supervisor or of firmware. -/
theorem csrRefused_upper {s : State} {n : Nat} (hu : s.ct.level = .u) (h : 0x100 ≤ n) : csrRefused s n = true := by
  rcases Nat.lt_or_ge n 0x200 with hn | hn
  · simp [csrRefused, csrSuper, h, hn, hu]
  · simp [csrRefused, csrFirmware, hn, hu]

theorem exec_csrr_upper_priv {s : State} (lb : s.has .lb = true) {c : BitVec 10} (h : 0x100 ≤ c.toNat) (d : Reg)
    (hn : csrRefused s c.toNat = true) :
    exec (.csrr d c) s = takeTrap { code := Code.priv } s :=
  (withProfile_has lb _).trans (csrAccess_priv ((csr_upper h).1 ▸ lb) hn ..)

theorem exec_csrw_upper_priv {s : State} (lb : s.has .lb = true) {c : BitVec 10} (h : 0x100 ≤ c.toNat) (r : Reg)
    (hn : csrRefused s c.toNat = true) :
    exec (.csrw r c) s = takeTrap { code := Code.priv } s :=
  (if_neg (by simp [(csr_upper h).2])).trans ((withProfile_has lb _).trans (csrAccess_priv ((csr_upper h).1 ▸ lb) hn ..))

/-- A trap of S enters M, and the control thread is fenced (R240). -/
theorem takeTrap_s {s : State} (t : Trap) (h : s.ct.level = .s) :
    takeTrap t s =
      let u := (s.record t Level.s.prv).enter .m s.pkg.mEntry
      .next { u with ct := { u.ct with status := .fenced, ctl := { u.ct.ctl with contain := true } } } := by
  simp only [takeTrap, h]

/-- Settles O4: each trap is the one operation takeTrap at the word, taken before the instruction has any effect. -/
theorem wordTraps : Obligations.WordTraps := by
  refine ⟨fun s s1 w hs hp hr hb hv ho hh _ hw hu hl => ?landing, fun s w => ⟨fun hu => plainTrap_u s _ hu, fun hl => ?illegalInS⟩,
    fun i s p hu hp hi => ?profile, fun s f d a b c t u lb hu h i hi => ?rounding, fun s hu lb => ⟨?sret, fun r c hc => ?csr⟩⟩
  case landing =>
    have hc : (s1.ct.ctl.lpend && !isLand w) = true ∨ (atStart s1 && !isLandTask w) = true := by
      rcases hl with ⟨ht, hland⟩ | ⟨hp, hland⟩
      · exact .inr (by simp [atStart, ht, hu, hland])
      · exact .inl (by simp [hp, hland])
    rw [step_runWord ⟨hs, hp, hr, hb, hv, ho, hh⟩ hw, runWord_landing hc]
    obtain ⟨t, he, ht⟩ := plainTrap_u (landed s1) Code.landing hu
    refine ⟨t, he, ht, ?_⟩
    rw [PlainTrap, TrapTaken] at ht
    rw [ht]
    exact if_pos hu
  case illegalInS => exact ⟨_, takeTrap_s _ hl, rfl, rfl, rfl, rfl, rfl, rfl, rfl, rfl, rfl⟩
  case profile =>
    rw [exec_undeclared (not_has_of_u hu hp) hi]
    exact plainTrap_u s _ hu
  case rounding =>
    obtain ⟨z, hz, hplain⟩ := plainTrap_u s Code.illegal hu
    refine ⟨z, ?_, hplain⟩
    rw [← hz]
    simp only [List.mem_cons, List.not_mem_nil, or_false] at hi
    rcases hi with rfl | rfl | rfl | rfl | rfl | rfl | rfl
    · exact (rounded_illegal lb h d _ : execFadd f d a b 7 s = _)
    · exact (rounded_illegal lb h d _ : execFsub f d a b 7 s = _)
    · exact (rounded_illegal lb h d _ : execFmul f d a b 7 s = _)
    · exact (rounded_illegal lb h d _ : execFdiv f d a b 7 s = _)
    · exact (rounded_illegal lb h d _ : execFsqrt f d a 7 s = _)
    · exact (rounded_illegal lb h d _ : execFma f d a b c 7 s = _)
    · exact (rounded_illegal lb h d _ : execFcvt d a t u 7 s = _)
  case sret =>
    rw [show exec .sret s = takeTrap _ s from (withProfile_has lb _).trans (if_pos hu)]
    exact plainTrap_u s _ hu
  case csr =>
    have hn := csrRefused_upper hu hc
    rw [exec_csrr_upper_priv lb hc r hn, exec_csrw_upper_priv lb hc r hn]
    exact ⟨plainTrap_u s _ hu, plainTrap_u s _ hu⟩

end Sys2Proof.Laws

/-!
SUPPORT. Jumps (R53, R54, R55, R304, R329, R330).
-/

namespace Sys2Proof.Laws

open Sys2Proof.Machine

/-- A word offset, as the statements write it. -/
theorem sext_shl_two {n : Nat} (o : BitVec n) : sext o <<< 2 = 4 * o.signExtend 64 := by
  rw [BitVec.shiftLeft_eq_mul_twoPow, BitVec.mul_comm]
  rfl

theorem wordTarget_eq (pc : Word) (o : BitVec 21) : wordTarget pc o = pc + 4 * o.signExtend 64 := by rw [wordTarget, sext_shl_two]

theorem brTarget_eq (pc : Word) (o : BitVec 12) : brTarget pc o = pc + 4 * o.signExtend 64 := by rw [brTarget, sext_shl_two]

/-- A jump that writes a link register changes that register and the pc. -/
theorem setX_jump (s : State) (d : Reg) (v a : Word) :
    XResult s ((s.setX d v).jump a) d v ∧ ((s.setX d v).jump a).ct.pc = a ∧ OnlyX s ((s.setX d v).jump a) := by
  refine ⟨fun r => getX_setX s d r v, rfl, ?_⟩
  rw [setX_only]
  rfl

/-- Settles O10: each jump is one move of the pc, and JAL's link one register write. -/
theorem jumpAndLink : Obligations.JumpAndLink := by
  intro s o lb
  refine ⟨⟨_, withProfile_has lb _, ?_⟩, ⟨_, withProfile_has lb _, ?_, rfl⟩, fun c a b p => ⟨_, withProfile_has lb _, rfl, ?_⟩⟩
  · obtain ⟨hx, hpc, honly⟩ := setX_jump s 1 (linkOf s.ct.pc) (wordTarget s.ct.pc o)
    exact ⟨hx, hpc.trans (wordTarget_eq _ _), honly, fun a => by rw [setX_only]; rfl, by simp⟩
  · rw [wordTarget_eq]
    rfl
  · split
    · exact .inl (by rw [brTarget_eq]; rfl)
    · exact .inr rfl

/-! JALR (R54, R55, R329, R330). -/

/-- A fault of a fetch is recorded at the address fetched. -/
theorem fetchWord_trap_sepc {s s1 : State} {va : Word} {f : Trap} (h : fetchWord s va = .trap f s1) : f.sepc = some va := by
  unfold fetchWord at h
  dsimp only at h
  split at h
  · cases h; rfl
  split at h <;> try (cases h; rfl)
  cases hr : resolve s.ctx { kind := 0 } va 4 s <;> rw [hr] at h <;> cases h
  rfl

/-- JALR to a target that has to be checked, with the word fetched there: it lands, or traps LANDING. -/
theorem exec_jalr_fetched {s s1 : State} {d a : Reg} {i : BitVec 16} {w : IWord} {tgt : Word} (lb : s.has .lb = true)
    (ht : tgt = (s.getX a + i.signExtend 64) &&& ~~~ 1) (h1 : tgt.getLsbD 1 = false) (h0 : (s.getX a + i.signExtend 64).getLsbD 0 = false)
    (hf : fetchWord s tgt = .ok w s1) :
    exec (.jalr d a i) s =
      if isLand w then .next (jalrLanded d tgt w s1) else takeTrap { code := Code.landing, sepc := some tgt, sfva := s1.ct.pc } s1 := by
  subst ht
  refine (withProfile_has lb _).trans ?_
  simp only [sext, h1, h0, Bool.false_eq_true, if_false, hf]

/-- JALR to a target whose fetch faults has written xd and jumped, and traps there with LPEND set (R55). -/
theorem exec_jalr_faulted {s s1 : State} {d a : Reg} {i : BitVec 16} {f : Trap} {tgt : Word} (lb : s.has .lb = true)
    (ht : tgt = (s.getX a + i.signExtend 64) &&& ~~~ 1) (h1 : tgt.getLsbD 1 = false) (h0 : (s.getX a + i.signExtend 64).getLsbD 0 = false)
    (hf : fetchWord s tgt = .trap f s1) :
    exec (.jalr d a i) s = takeTrap { f with lpend := true } ((s1.setX d (linkOf s1.ct.pc)).jump tgt) := by
  subst ht
  refine (withProfile_has lb _).trans ?_
  simp only [sext, h1, h0, Bool.false_eq_true, if_false, hf]

theorem heldWord_jalrLanded (d : Reg) (tgt : Word) (w : IWord) (s : State) :
    heldWord (jalrLanded d tgt w s) = .ok w ((jalrLanded d tgt w s).onCtl fun c => { c with target := none }) := by
  have h : (jalrLanded d tgt w s).ct.ctl.target.filter (fun t => t.1 == (jalrLanded d tgt w s).ct.pc) = some (tgt, w) := by
    simp [jalrLanded, State.jump]
  rw [heldWord, h]

/-- A trap of U that names an address, as the statements say it. -/
theorem trapTaken_u {s : State} (code : BitVec 8) (sepc : Option Word) (sfva : Word) (h : s.ct.level = .u) :
    ∃ t, takeTrap { code := code, sepc := sepc, sfva := sfva } s = .next t ∧ TrapTaken s t (code.setWidth 64) (sepc.getD s.ct.pc) sfva 0 := by
  refine ⟨_, takeTrap_u _ h, ?_⟩
  have e : scauseOf { code := code, sepc := sepc, sfva := sfva } false Level.u.prv = code.setWidth 64 := scauseOf_plain code
  unfold TrapTaken
  rw [← e]
  rfl

theorem scauseOf_lpend (t : Trap) (eng : Bool) (prv : BitVec 2) : (scauseOf t eng prv).getLsbD 8 = t.lpend := by
  refine (BitVec.getLsbD_append (y := t.code) (i := 8)).trans ((BitVec.getLsbD_append (y := bit t.lpend) (i := 0)).trans ?_)
  simp [bit]

theorem scauseOf_code (t : Trap) (eng : Bool) (prv : BitVec 2) : (scauseOf t eng prv).setWidth 8 = t.code := BitVec.setWidth_append_eq_right

/-- Settles O11, by the cases of the target: returned to, checked and fetched, misaligned, or faulting. -/
theorem jumpRegister : Obligations.JumpRegister := by
  intro s d a i lb
  dsimp only
  refine ⟨fun h1 h0 => ?returns, fun h1 h0 w s1 hf hpc hl => ⟨fun hw => ?lands, fun hw hu => ?noLand⟩, fun h1 hu => ?misaligned,
    fun h1 h0 f s1 hf hpc hu => ?faults⟩
  case returns =>
    refine ⟨_, (withProfile_has lb _).trans ?_, setX_jump s d (linkOf s.ct.pc) _⟩
    simp only [sext, h1, h0, Bool.false_eq_true, if_false, if_true]
  case lands =>
    obtain ⟨hx, -⟩ := setX_jump s1 d (linkOf s1.ct.pc) ((s.getX a + i.signExtend 64) &&& ~~~ 1)
    refine ⟨jalrLanded d _ w s1, ?_, hpc ▸ hx, rfl, ?_, _, heldWord_jalrLanded ..⟩
    · rw [exec_jalr_fetched lb rfl h1 h0 hf, if_pos hw]
    · unfold OnlyX jalrLanded
      rw [setX_only]
      rfl
  case noLand =>
    rw [exec_jalr_fetched lb rfl h1 h0 hf, hw, if_neg Bool.false_ne_true, ← hpc]
    exact trapTaken_u Code.landing (some _) _ (hl.trans hu)
  case misaligned =>
    rw [show exec (.jalr d a i) s = takeTrap _ s from (withProfile_has lb _).trans (if_pos h1)]
    exact trapTaken_u Code.align none _ hu
  case faults =>
    obtain ⟨hx, -⟩ := setX_jump s1 d (linkOf s1.ct.pc) ((s.getX a + i.signExtend 64) &&& ~~~ 1)
    rw [exec_jalr_faulted lb rfl h1 h0 hf]
    have hl : ((s1.setX d (linkOf s1.ct.pc)).jump ((s.getX a + i.signExtend 64) &&& ~~~ 1)).ct.level = .u := (setX_ct_level ..).trans hu
    refine ⟨_, takeTrap_u _ hl, hpc ▸ hx, rfl, ?_, ?_, scauseOf_lpend .., scauseOf_code .., rfl⟩
    · simp [State.enter, State.record, State.jump]
    · simp [State.enter, State.record, fetchWord_trap_sepc hf]

end Sys2Proof.Laws

/-!
SUPPORT. Control registers (R39, R235, R241, R309 to R311, Tables 2.7 and 16.5).
-/

namespace Sys2Proof.Laws

open Sys2Proof.Machine

/-- The find of a list into which an entry is inserted that the test refuses. -/
theorem find?_insertBy_of_not {α : Type} (le : α → α → Bool) {p : α → Bool} {a : α} (h : p a = false) (l : List α) :
    (insertBy le a l).find? p = l.find? p := by
  induction l with
  | nil => simp [insertBy, h]
  | cons b r ih =>
    unfold insertBy
    split
    · rw [List.find?_cons, List.find?_cons, ih]
    · rw [List.find?_cons, h]

/-- The find of a list that holds nothing the test accepts but the entry inserted. -/
theorem find?_insertBy_of_none {α : Type} (le : α → α → Bool) {p : α → Bool} {a : α} (h : p a = true) {l : List α} (hl : l.find? p = none) :
    (insertBy le a l).find? p = some a := by
  induction l with
  | nil => simp [insertBy, h]
  | cons b r ih =>
    rw [List.find?_cons] at hl
    split at hl
    · cases hl
    next hb =>
      unfold insertBy
      split
      · rw [List.find?_cons, hb, ih hl]
      · rw [List.find?_cons, h]

/-- A firmware CSR reads back what was written last, and no other changes (log entry 10). -/
theorem fwRead_fwWrite (s : State) (n k : Nat) (v : Word) : (s.fwWrite n v).fwRead k = if k = n then v else s.fwRead k := by
  have hrest : ((s.ct.fwcsr.filter fun c => c.1 != n).find? fun c => c.1 == k) = if k = n then none else s.ct.fwcsr.find? fun c => c.1 == k := by
    rw [List.find?_filter]
    split
    next h => simp [h]
    next h =>
      congr 1
      funext c
      by_cases hc : c.1 = k <;> simp [hc, h]
  unfold State.fwRead
  dsimp only [State.fwWrite, State.onCt]
  by_cases hk : k = n
  · subst hk
    rw [if_pos rfl] at hrest ⊢
    split
    next hv => rw [hrest, hv]; rfl
    next hv => rw [find?_insertBy_of_none _ (by simp) hrest]; rfl
  · rw [if_neg hk] at hrest ⊢
    split
    · rw [hrest]
    · rw [find?_insertBy_of_not _ (by simpa using Ne.symm hk), hrest]

/-- Nothing is recorded or replayed on a die that does neither (R293, R294). -/
theorem logged_quiet {s : State} (hr : (s.el (dieOf s.ct.lcore)).recording = false) (hp : (s.el (dieOf s.ct.lcore)).replaying = false)
    (ty : Nat) (pc v : Word) : logged s ty pc v = (v, s) := by
  simp [logged, hr, hp]

theorem csrLogged_quiet {s : State} (hr : (s.el (dieOf s.ct.lcore)).recording = false) (hp : (s.el (dieOf s.ct.lcore)).replaying = false)
    (n : Nat) (v : Word) : csrLogged s n v = (v, s) := by
  simp only [csrLogged, taskLogged, logged_quiet hr hp, ite_self]

theorem csrAccess_pass {s : State} {n : Nat} {waits : Bool} {f : Host.Outcome State Fault Refusal} (h : s.has (csrProfile n) = true)
    (hn : csrRefused s n = false) (hw : waits = true → s.viqEmpty = true) :
    csrAccess n waits s f = f := by
  rw [csrAccess_eq h, hn]
  cases waits
  · rfl
  · simp [whenDrained, hw rfl]

theorem toNat_csr {n : Nat} (h : n < 0x400) : (BitVec.ofNat 10 n).toNat = n := by
  rw [BitVec.toNat_ofNat]
  omega

/-- CSRR answers the register's value where nothing refuses it, holds it back or logs it. -/
theorem exec_csrr {s : State} {n : Nat} (d : Reg) (h : n < 0x400) (lb : s.has .lb = true) (hp : s.has (csrProfile n) = true)
    (hn : csrRefused s n = false) (hw : csrReadWaits n = true → s.viqEmpty = true)
    (hl : csrLogged s n (csrValue s n) = (csrValue s n, s)) : exec (.csrr d (BitVec.ofNat 10 n)) s = writeBack s d (csrValue s n) := by
  refine (withProfile_has lb _).trans ?_
  rw [toNat_csr h, csrAccess_pass hp hn hw, hl]
  rfl

/-- CSRW stores where nothing refuses it or holds it back. -/
theorem exec_csrw {s : State} {n : Nat} (r : Reg) (h : n < 0x400) (hro : csrReadOnly n = false) (lb : s.has .lb = true)
    (hp : s.has (csrProfile n) = true) (hn : csrRefused s n = false)
    (hw : csrWriteWaits n = true → s.viqEmpty = true) :
    exec (.csrw r (BitVec.ofNat 10 n)) s = .next (csrStore s n (s.getX r)).advance := by
  change (if csrReadOnly (BitVec.ofNat 10 n).toNat then _ else _) = _
  rw [toNat_csr h, hro, if_neg Bool.false_ne_true, withProfile_has lb, csrAccess_pass hp hn hw]

/-- U reaches the CSRs below the supervisor's. -/
theorem csrRefused_lower {s : State} {n : Nat} (h : n < 0x200) (hu : s.ct.level = .u → n < 0x100) :
    csrRefused s n = false := by
  have hf : csrFirmware n = false := by simpa [csrFirmware] using h
  by_cases hl : s.ct.level = .u
  · have hs : csrSuper n = false := by simp [csrSuper, Nat.not_le.2 (hu hl)]
    simp [csrRefused, hs, hf]
  · simp [csrRefused, hf, hl]

theorem bit_setWidth (b : Bool) : (bit b).setWidth 64 = if b then 1 else 0 := by cases b <;> rfl

/-- ULISTAT's word by its fields (Table 9.10). -/
theorem uli_word_eq (u : UliSt) : u.word = u.pend.setWidth 64 <<< 32 ||| (if u.err then 0x2000 else 0) ||| u.tag.setWidth 64 <<< 8 |||
        (if u.act then 2 else 0) ||| (if u.mask then 1 else 0) := by
  have herr : BitVec.setWidth 64 (bit u.err) <<< 13 = (if u.err then 0x2000 else 0 : Nat) := by cases u.err <;> rfl
  have hact : BitVec.setWidth 64 (bit u.act) <<< 1 = if u.act then 2 else 0 := by cases u.act <;> rfl
  rw [← BitVec.setWidth_eq u.word, ← herr, ← hact, ← bit_setWidth u.mask, UliSt.word]
  simp only [BitVec.setWidth_append_eq_shiftLeft_setWidth_or, BitVec.shiftLeft_or_distrib]
  simp [← BitVec.shiftLeft_add]

theorem drainStores_empty {s : State} (h : s.m.sbuf = []) (hw : s.m.wcb = []) (hl : s.m.late = []) : drainStores s = s := by
  simp [drainStores, drainSbuf, drainWcb, drainWhere, drainLines, performWhere, h, hw, hl]

theorem dropAhead_empty {s : State} (h : s.m.early = []) : dropAhead s = s := by simp [dropAhead, forgetEarly, h]


/-- What is dropped of what was read ahead is all that changes. -/
theorem dropAhead_only (s : State) : dropAhead s = { s with m := { s.m with early := (dropAhead s).m.early } } := by
  unfold dropAhead forgetEarly
  split <;> rfl

theorem csrFirmware_of_le {n : Nat} (h : 0x200 ≤ n) : csrFirmware n = true := by simpa [csrFirmware] using h

theorem csrValue_firmware {s : State} {n : Nat} (h : 0x200 ≤ n) : csrValue s n = s.fwRead n := by
  unfold csrValue
  split
  case h_23 => exact if_pos (csrFirmware_of_le h)
  all_goals omega

theorem csrStore_firmware {s : State} {n : Nat} (h : 0x200 ≤ n) (v : Word) : csrStore s n v = s.fwWrite n v := by
  unfold csrStore
  split
  case h_18 => exact if_pos (csrFirmware_of_le h)
  all_goals omega

/-- The firmware CSRs wait for nothing, and their reads are not logged. -/
theorem csr_firmware_waits {n : Nat} (h : 0x200 ≤ n) : csrReadWaits n = false ∧ csrWriteWaits n = false := by
  constructor
  · simp only [csrReadWaits, Bool.or_eq_false_iff, beq_eq_false_iff_ne]
    omega
  · simp only [csrWriteWaits, Bool.or_eq_false_iff, beq_eq_false_iff_ne]
    omega

theorem csrLogged_firmware {s : State} {n : Nat} (h : 0x200 ≤ n) (v : Word) : csrLogged s n v = (v, s) := by
  rw [csrLogged, if_neg (by omega), if_neg (by omega)]

theorem csrRefused_firmware {s : State} {n : Nat} (h : 0x200 ≤ n) (hm : s.ct.level = .m) : csrRefused s n = false := by
  have hs : csrSuper n = false := by simp [csrSuper, Nat.not_lt.2 h]
  simp [csrRefused, hs, hm]

theorem has_csrProfile_upper {s : State} {n : Nat} (h : 0x100 ≤ n) (lb : s.has .lb = true) : s.has (csrProfile n) = true := (csr_upper h).1 ▸ lb

/-- M reads a firmware CSR. -/
theorem exec_csrr_firmware {s : State} {n : Nat} (r : Reg) (h2 : 0x200 ≤ n) (h4 : n < 0x400) (hm : s.ct.level = .m) (lb : s.has .lb = true) :
    ∃ t, exec (.csrr r (BitVec.ofNat 10 n)) s = .next t ∧ ScalarResult s t r (s.fwRead n) := by
  have hw : csrReadWaits n = true → s.viqEmpty = true := by simp [(csr_firmware_waits h2).1]
  rw [exec_csrr r h4 lb (has_csrProfile_upper (by omega) lb) (csrRefused_firmware h2 hm) hw (csrLogged_firmware h2 _), csrValue_firmware h2]
  exact writeBack_next s r _

/-- M writes a firmware CSR, which then reads back as written, and no other changes (log entry 10). -/
theorem exec_csrw_firmware {s : State} {n : Nat} (r : Reg) (h2 : 0x200 ≤ n) (h4 : n < 0x400) (hm : s.ct.level = .m) (lb : s.has .lb = true) :
    ∃ t, exec (.csrw r (BitVec.ofNat 10 n)) s = .next t ∧ t.fwRead n = s.getX r ∧ (∀ k, k ≠ n → t.fwRead k = s.fwRead k) ∧
      t = { s with ct := { s.ct with fwcsr := t.ct.fwcsr, pc := s.ct.pc + 4, ctl := { s.ct.ctl with wait := .none } } } := by
  have hw : csrWriteWaits n = true → s.viqEmpty = true := by simp [(csr_firmware_waits h2).2]
  refine ⟨_, exec_csrw r h4 (csr_upper (by omega)).2 lb (has_csrProfile_upper (by omega) lb) (csrRefused_firmware h2 hm) hw, ?_⟩
  rw [csrStore_firmware h2]
  have hread (k : Nat) : (s.fwWrite n (s.getX r)).advance.fwRead k = _ := fwRead_fwWrite s n k (s.getX r)
  exact ⟨(hread n).trans (if_pos rfl), fun k hk => (hread k).trans (if_neg hk), rfl⟩

/-- Settles O19: with nothing to refuse, hold back or log the access, CSRR and CSRW are one read and one store of the CSR. -/
theorem controlRegisters : Obligations.ControlRegisters := by
  refine ⟨fun s d n v hmem lb hp hu hrec hrep hw => ?reads, fun s r => ⟨fun n u hmem lb hp hu hw hempty => ?writes, fun n hmem hu => ?readOnly⟩,
    fun s r hu hq => ?troot, fun s r n h2 h4 lb => ⟨fun hm => ?firmware, fun hm => ?notFirmware⟩⟩
  case reads =>
    have hv : csrValue s n = v ∧ n < 0x200 := by
      rw [← bit_setWidth s.ct.ord.detctl, ← bit_setWidth s.ct.ord.race, ← uli_word_eq] at hmem
      simp only [List.mem_cons, Prod.mk.injEq, List.not_mem_nil, or_false] at hmem
      rcases hmem with ⟨rfl, rfl⟩ | ⟨rfl, rfl⟩ | ⟨rfl, rfl⟩ | ⟨rfl, rfl⟩ | ⟨rfl, rfl⟩ | ⟨rfl, rfl⟩ | ⟨rfl, rfl⟩ | ⟨rfl, rfl⟩ | ⟨rfl, rfl⟩ |
        ⟨rfl, rfl⟩ | ⟨rfl, rfl⟩ | ⟨rfl, rfl⟩ | ⟨rfl, rfl⟩ | ⟨rfl, rfl⟩ | ⟨rfl, rfl⟩ | ⟨rfl, rfl⟩ | ⟨rfl, rfl⟩ | ⟨rfl, rfl⟩ | ⟨rfl, rfl⟩ |
        ⟨rfl, rfl⟩ | ⟨rfl, rfl⟩ | ⟨rfl, rfl⟩
      all_goals exact ⟨rfl, by decide⟩
    obtain ⟨rfl, hn⟩ := hv
    rw [exec_csrr d (by omega) lb hp (csrRefused_lower hn hu) hw (csrLogged_quiet hrec hrep ..)]
    exact writeBack_next s d _
  case writes =>
    have hst : csrStore s n (s.getX r) = u ∧ n < 0x200 ∧ csrReadOnly n = false ∧ u.ct.pc = s.ct.pc := by
      simp only [List.mem_cons, Prod.mk.injEq, List.not_mem_nil, or_false] at hmem
      rcases hmem with ⟨rfl, rfl⟩ | ⟨rfl, rfl⟩ | ⟨rfl, rfl⟩ | ⟨rfl, rfl⟩ | ⟨rfl, rfl⟩ | ⟨rfl, rfl⟩ | ⟨rfl, rfl⟩ | ⟨rfl, rfl⟩ | ⟨rfl, rfl⟩ |
        ⟨rfl, rfl⟩ | ⟨rfl, rfl⟩ | ⟨rfl, rfl⟩ | ⟨rfl, rfl⟩ | ⟨rfl, rfl⟩ | ⟨rfl, rfl⟩ | ⟨rfl, rfl⟩ | ⟨rfl, rfl⟩
      iterate 5 exact ⟨rfl, by decide, rfl, rfl⟩
      · -- DETCTL drains nothing and drops nothing where nothing is in flight
        obtain ⟨hs, hwc, he, hl⟩ := hempty (.inl rfl)
        refine ⟨?_, by decide, rfl, rfl⟩
        simp only [csrStore, drainStores_empty hs hwc hl, dropAhead_empty he, ite_self]
        rfl
      iterate 10 exact ⟨rfl, by decide, rfl, rfl⟩
      · -- nor does TROOT
        obtain ⟨-, -, he, -⟩ := hempty (.inr rfl)
        refine ⟨?_, by decide, rfl, rfl⟩
        simp only [csrStore, dropAhead_empty he]
        rfl
    obtain ⟨rfl, hn, hro, hpc⟩ := hst
    refine ⟨_, exec_csrw r (by omega) hro lb hp (csrRefused_lower hn hu) hw, ?_⟩
    rw [Passed, ← hpc]
    rfl
  case readOnly =>
    have h : exec (.csrw r (BitVec.ofNat 10 n)) s = takeTrap { code := Code.illegal } s := by
      simp only [List.mem_cons, List.not_mem_nil, or_false] at hmem
      rcases hmem with rfl | rfl | rfl | rfl | rfl <;> rfl
    rw [h]
    exact plainTrap_u s _ hu
  case troot =>
    have has (p : Profile) : s.has p = true := by simp [State.has, hu]
    have hacc : csrRefused s 0x107 = false := csrRefused_lower (by decide) fun h => absurd h hu
    exact ⟨_, exec_csrw (n := 0x107) r (by decide) rfl (has _) (has _) hacc fun _ => hq, congrArg (·.m.tlb) (dropAhead_only s),
      congrArg (·.m.slines) (dropAhead_only s), rfl⟩
  case firmware => exact ⟨exec_csrr_firmware r h2 h4 hm lb, exec_csrw_firmware r h2 h4 hm lb⟩
  case notFirmware =>
    have hn : csrRefused s (BitVec.ofNat 10 n).toNat = true := by
      rw [toNat_csr h4]
      simp [csrRefused, csrFirmware, h2, hm]
    have h1 : 0x100 ≤ (BitVec.ofNat 10 n).toNat := by rw [toNat_csr h4]; omega
    exact ⟨exec_csrr_upper_priv lb h1 r hn, exec_csrw_upper_priv lb h1 r hn⟩

end Sys2Proof.Laws

/-!
SUPPORT. Vector state (R60, R61, R71, R76, R368): the quotient VLMAX, what a completion that owes nothing leaves, and VCFG.
-/

namespace Sys2Proof.Laws

open Sys2Proof.Machine

/-! The largest vector length (R60). -/

/-- The widths of Table 2.8 are 1, 2, 4 and 8. -/
theorem tyBytes_dvd_eight (t : Nat) : tyBytes t ∣ 8 := by unfold tyBytes; split <;> decide

theorem tyBytes_pos (t : Nat) : 0 < tyBytes t := Nat.pos_of_dvd_of_pos (tyBytes_dvd_eight t) (by decide)

theorem tyBytes_le_eight (t : Nat) : tyBytes t ≤ 8 := Nat.le_of_dvd (by decide) (tyBytes_dvd_eight t)

/-- A grouping factor is 1, 2, 4 or 8. -/
theorem grouping_le_eight (c : Vcfg) : c.g ≤ 8 := Nat.pow_le_pow_right (by decide) (Nat.le_of_lt_succ c.grp.isLt : c.grp.toNat ≤ 3)

theorem grouping_pos (c : Vcfg) : 0 < c.g := Nat.two_pow_pos _

/-- The elements of a group fill its registers exactly, where a register holds whole elements of every width. -/
theorem vlmax_mul_w {l : Nat} (c : Vcfg) (h : 8 ∣ l) : vlmax l c * c.w = l * c.g :=
  Nat.div_mul_cancel (((tyBytes_dvd_eight _).trans h).mul_right _)

/-- The narrowest group holds the fewest elements where they are widest. -/
theorem vlmax_ge {l : Nat} (c : Vcfg) (h : 8 ∣ l) : l / 8 ≤ vlmax l c := by
  refine Nat.div_le_of_le_mul ?_
  calc l ≤ l * c.g := Nat.le_mul_of_pos_right _ (grouping_pos c)
    _ = vlmax l c * c.w := (vlmax_mul_w c h).symm
    _ ≤ vlmax l c * 8 := Nat.mul_le_mul_left _ (tyBytes_le_eight _)
    _ = 8 * vlmax l c := Nat.mul_comm ..

/-- The widest group holds the most elements where they are bytes. -/
theorem vlmax_le (l : Nat) (c : Vcfg) : vlmax l c ≤ l * 8 :=
  (Nat.div_le_self _ _).trans (Nat.mul_le_mul_left _ (grouping_le_eight c))

/-- Settles O36: widths divide 8 and register lengths are multiples of it, so the quotient is exact. -/
theorem largestLength : Obligations.LargestLength := by
  refine ⟨fun l c hl _ => ?_, rfl, rfl⟩
  have hlen : 8 ∣ l ∧ 256 ≤ l ∧ l ≤ 2048 := by
    simp only [List.mem_cons, List.not_mem_nil, or_false] at hl
    omega
  obtain ⟨h8, hlo, hhi⟩ := hlen
  have hge := vlmax_ge c h8
  have hle := vlmax_le l c
  exact ⟨vlmax_mul_w c h8, by omega, by omega⟩

/-! VCFG (R61, R368). -/

/-- A vector instruction that owes nothing leaves VSTART and pdone zero and changes nothing else (R71, R76). -/
theorem applyEffects_none (s : State) : applyEffects s Effects.none = fromZero s := by
  simp [applyEffects, payEffects, Effects.none, writeSample, State.orFlags, State.onMx]

/-- Where nothing is in flight VCFG completes as it is dispatched. -/
theorem exec_vcfg_ready {s : State} (h : VecReady s) (lv : s.has .lv = true) (d a : Reg) (e : BitVec 4) (g t : BitVec 2) (m : BitVec 1)
    (sc : BitVec 3) : exec (.vcfg d a e g t m sc) s = .next (fromZero (setVcfg s d a ⟨e, g, t, m, sc⟩)).advance := by
  obtain ⟨hi, ho⟩ := h
  rw [← applyEffects_none]
  exact (withProfile_has lv _).trans (if_pos (by rw [hi, ho]; rfl))

/-- VCFG at dispatch writes x[D], VL and VCFG alone. -/
theorem setVcfg_only (s : State) (d a : Reg) (c : Vcfg) : setVcfg s d a c = { s with ct := { s.ct with
    x := (setVcfg s d a c).ct.x
    vec := { s.ct.vec with vcfg := c, vl := min (s.getX a).toNat (vlmax s.L c) } } } := by
  rw [setVcfg, setX_only]
  rfl

/-- Settles O37: VCFG completes at once, and is one write of x[D] and one of the vector state. -/
theorem vectorConfigure : Obligations.VectorConfigure := by
  intro s d a e g t m sc hr lv
  refine ⟨_, exec_vcfg_ready hr lv d a e g t m sc, fun r => getX_setX s d r _, fun b => ?bytes, ?frame⟩
  case bytes => exact congrArg (fun m => Memory.byte m.mem b) (setX_m s d _)
  case frame =>
    rw [setVcfg_only]
    rfl

end Sys2Proof.Laws

/-!
SUPPORT. The state that the steps of tasks share: calm memory, lines that have changed hands, cores and deques (R96).
-/

namespace Sys2Proof.Laws

open Sys2Proof.Machine

/-- Memory stays calm while bytes, line holders and race records change, and no context gains a fill. -/
theorem calm_of {s t : State} (h : Calm s)
    (hm : t.m = { s.m with mem := t.m.mem, owners := t.m.owners, copies := t.m.copies, cxlHeld := t.m.cxlHeld, races := t.m.races })
    (hc : t.ct.mx.fills = []) (ho : t.others = s.others) (hs : ∀ x ∈ t.pkg.saved, x.mx.fills = []) (hp : ∀ p ∈ t.pkg.parked, p.fills = []) :
    Calm t := by
  refine ⟨?_, ?_, ?_, ?_, ?_, ?_, ?_, ?_, ?_, ?_, fun x hx => ?_, hs, hp⟩
  case refine_11 =>
    rcases List.mem_cons.1 hx with rfl | hx
    · exact hc
    · exact h.fills x (List.mem_cons_of_mem _ (ho ▸ hx))
  all_goals rw [hm]
  exacts [h.slines, h.poison, h.hostShared, h.biWait, h.chains, h.tlb, h.sbuf, h.wcb, h.early, h.late]

/-- The fills of the acting control thread where memory is calm. -/
theorem fills_nil {s : State} (h : Calm s) : s.ct.mx.fills = [] := h.fills s.ct List.mem_cons_self

theorem reached_ct {s t : State} (h : Reached s t) : t.ct = s.ct := by rw [h.1]; rfl

theorem reached_others {s t : State} (h : Reached s t) : t.others = s.others := by rw [h.1]; rfl

theorem reached_cores {s t : State} (h : Reached s t) : t.cores = s.cores := by rw [h.1]; rfl

theorem reached_pkg {s t : State} (h : Reached s t) : t.pkg = s.pkg := by rw [h.1]; rfl

theorem reached_mem_eq {s t : State} (h : Reached s t) : t.m = (s.accessed t).m := congrArg State.m h.1

theorem core_congr {s t : State} (h : t.cores = s.cores) (n : Nat) : t.core n = s.core n := by rw [State.core, State.core, h]

/-- The cores after a change of one of them. -/
def changeCore (cs : Vector Core 128) (n : Nat) (f : Core → Core) : Vector Core 128 := if h : n < 128 then cs.set n (f cs[n]) else cs

theorem onCore_eq (s : State) (n : Nat) (f : Core → Core) : s.onCore n f = { s with cores := changeCore s.cores n f } := by
  unfold State.onCore changeCore
  split <;> rfl

/-- What the next state of a step shows; d where it has none. -/
def nextShows {α : Type} (d : α) (f : State → α) : Host.Outcome State Fault Refusal → α
  | .next t => f t
  | _ => d

/-! Deques (R96). -/

/-- t is s after a push of an entry at the bottom of a class of a core's deque: no other class, core or die has changed. -/
def Pushed (s t : State) (c cls : Nat) (e : DqEntry) : Prop :=
  (t.core c).deques.toList.getD cls [] = (s.core c).deques.toList.getD cls [] ++ [e] ∧
    (∀ k, k ≠ cls → (t.core c).deques.toList.getD k [] = (s.core c).deques.toList.getD k []) ∧
    ∀ k, k ≠ c → t.core k = s.core k

/-- A class of the deques after the entries of one class have been replaced. -/
theorem getD_setIfInBounds {α : Type} {n : Nat} (v : Vector α n) (i k : Nat) (x d : α) :
    (v.setIfInBounds i x).toList.getD k d = if k = i ∧ i < n then x else v.toList.getD k d := by
  rw [List.getD_eq_getElem?_getD, List.getD_eq_getElem?_getD, Vector.getElem?_toList, Vector.getElem?_toList,
    Vector.getElem?_setIfInBounds]
  by_cases h : i = k
  · subst h
    by_cases hn : i < n <;> simp [hn]
  · simp [h, Ne.symm h]

/-- A core with fewer than 64 entries in hardware takes a push without spilling. -/
theorem not_pushBlocked {s : State} {c : Nat} (h : hwCount (s.core c) < 64) : pushBlocked s c = false := by
  have hd : ¬ Config.dequeDepth ≤ hwCount (s.core c) := Nat.not_le.2 h
  simp [pushBlocked, hd]

theorem pushEntry_room {s : State} {c : Nat} (h : hwCount (s.core c) < 64) (cls : Nat) (w : Startable) (pin : Bool) :
    pushEntry s c cls w pin =
      (s.onCore c fun k => { k with deques := k.deques.setIfInBounds cls (k.deques.toList.getD cls [] ++ [⟨w, pin, false, s.pkg.idCtr⟩]) }).onPkg
        fun p => { p with idCtr := p.idCtr + 1 } := by
  have hd : ¬ Config.dequeDepth ≤ hwCount (s.core c) := Nat.not_le.2 h
  simp only [pushEntry, if_neg hd]

theorem pushEntry_pushed {s : State} {c cls : Nat} (hc : c < 128) (h : hwCount (s.core c) < 64) (hk : cls < 4) (w : Startable) (pin : Bool) :
    Pushed s (pushEntry s c cls w pin) c cls ⟨w, pin, false, s.pkg.idCtr⟩ := by
  rw [pushEntry_room h]
  have hcore (k : Nat) := core_onCore s c k
    (fun k => { k with deques := k.deques.setIfInBounds cls (k.deques.toList.getD cls [] ++ [⟨w, pin, false, s.pkg.idCtr⟩]) }) hc
  refine ⟨?_, fun k hne => ?_, fun k hne => (hcore k).trans (if_neg hne)⟩
  · refine (congrArg (fun x : Core => x.deques.toList.getD cls []) ((hcore c).trans (if_pos rfl))).trans ?_
    exact (getD_setIfInBounds ..).trans (if_pos ⟨rfl, hk⟩)
  · refine (congrArg (fun x : Core => x.deques.toList.getD k []) ((hcore c).trans (if_pos rfl))).trans ?_
    exact (getD_setIfInBounds ..).trans (if_neg fun h => hne h.1)

/-- A push changes the cores and the counter of ages alone. -/
theorem pushEntry_only (s : State) (c cls : Nat) (w : Startable) (pin : Bool) :
    pushEntry s c cls w pin =
      { s with cores := (pushEntry s c cls w pin).cores, pkg := { s.pkg with idCtr := s.pkg.idCtr + 1 } } := by
  simp only [pushEntry, onCore_eq]
  split <;> rfl

theorem pushAlone_only (s : State) (c cls : Nat) (w : Startable) (pin : Bool) :
    pushAlone s c cls w pin =
      { s with cores := (pushAlone s c cls w pin).cores, pkg := { s.pkg with idCtr := s.pkg.idCtr + 1 } } := by
  simp only [pushAlone, onCore_eq]
  rw [pushEntry_only]
  split <;> rfl

theorem pushAlone_room {s : State} {c : Nat} (h : hwCount (s.core c) < 64) (cls : Nat) (w : Startable) (pin : Bool) :
    pushAlone s c cls w pin = pushEntry s c cls w pin := by
  rw [pushAlone, not_pushBlocked h]
  rfl

end Sys2Proof.Laws

/-!
SUPPORT. Boundary events: pre-emption, deliveries and containment (R107, R192, R239, R243, R244, R271).
-/

namespace Sys2Proof.Laws

open Sys2Proof.Machine

/-! Pre-emption (R107). -/

theorem prio_le_of_worse {a b : Thread} (h : worse a b = true) : a.task.prio ≤ b.task.prio := by
  simp only [worse, Bool.or_eq_true, decide_eq_true_eq, Bool.and_eq_true, beq_iff_eq] at h
  omega

theorem prio_le_of_not_worse {a b : Thread} (h : ¬ worse a b = true) : b.task.prio ≤ a.task.prio := by
  simp only [worse, Bool.or_eq_true, decide_eq_true_eq, Bool.and_eq_true, beq_iff_eq] at h
  omega

theorem worst_eq_none {l : List Thread} (h : worst l = none) : l = [] := by
  cases l with
  | nil => rfl
  | cons a r =>
    rw [worst] at h
    cases hr : worst r <;> rw [hr] at h <;> cases h

/-- The task chosen is one of those to choose from, and has the highest class number of them. -/
theorem worst_some {l : List Thread} {t : Thread} (h : worst l = some t) : t ∈ l ∧ ∀ u ∈ l, u.task.prio ≤ t.task.prio := by
  induction l generalizing t with
  | nil => cases h
  | cons a r ih =>
    rw [worst] at h
    cases hr : worst r with
    | none =>
      rw [hr] at h
      cases h
      rw [worst_eq_none hr]
      simp
    | some v =>
      obtain ⟨hv, hmax⟩ := ih hr
      rw [hr] at h
      cases h
      split
      next hw => exact ⟨List.mem_cons_of_mem _ hv, List.forall_mem_cons.2 ⟨prio_le_of_worse hw, hmax⟩⟩
      next hw =>
        exact ⟨List.mem_cons_self, List.forall_mem_cons.2 ⟨Nat.le_refl _, fun u hu => (hmax u hu).trans (prio_le_of_not_worse hw)⟩⟩

/-- The task that a core is to pre-empt runs, in a class above one that waits, and none that runs there has a higher class number. -/
theorem preemptChoice_some {s : State} {c : Nat} {t : Thread} (h : preemptChoice s c = some t) :
    t.status = .running ∧ ∀ u ∈ coreThreads s c, u.status = .running → u.ctl.spend = none → u.task.prio ≤ t.task.prio := by
  unfold preemptChoice at h
  split at h
  next => cases h
  next k hk =>
    dsimp only at h
    split at h
    next => cases h
    next =>
      obtain ⟨ht, hmax⟩ := worst_some h
      simp only [List.mem_filter, Bool.and_eq_true, beq_iff_eq, decide_eq_true_eq] at ht
      obtain ⟨-, ⟨hrun, -⟩, hlt⟩ := ht
      refine ⟨hrun, fun u hu hr hs => ?_⟩
      by_cases hk : k < u.task.prio
      · exact hmax u (List.mem_filter.2 ⟨hu, by simp [hr, hs, hk]⟩)
      · omega

theorem preemptVictim_some {s : State} {c : Nat} {t : Thread} (h : preemptVictim s c = some t) :
    preemptChoice s c = some t ∧ t.level = .u ∧ t.ctl.lpend = false := by
  obtain ⟨hc, hb⟩ := Option.filter_eq_some_iff.1 h
  simp only [Thread.atBoundary, Bool.and_eq_true, beq_iff_eq, Bool.not_eq_true'] at hb
  obtain ⟨⟨⟨⟨⟨hl, -⟩, hp⟩, -⟩, -⟩, -⟩ := hb
  exact ⟨hc, hl, hp⟩

theorem leftEntries_nil {s : State} (h : s.ct.vec.viq = []) : leftEntries s = [] := by
  unfold leftEntries
  split
  · simp [h]
  · exact h

/-- With an empty VIQ there is nothing for a pre-emption to cut. -/
theorem cutVictim_idle {s : State} (hv : s.ct.vec.viq = []) (hs : s.ct.vec.stopped = none) : cutVictim s = s := by
  have hcut (k : Nat) : cutHead s k = s := by simp [cutHead, issueHead, headOf_empty hv]
  cases hc : s.sched.cut <;> simp [cutVictim, hc, hcut, hs, leftEntries_nil hv, discardRecords]

theorem landWhere_none {s : State} (h : s.m.late = []) (f : Late → Bool) : landWhere f s = s := by simp [landWhere, h]

theorem payAll_nil {s : State} (h : s.ct.vec.owing = []) : payAll s = s := by simp [payAll, h]

theorem resumeStopped_none {s : State} (h : s.ct.vec.stopped = none) : resumeStopped s = s := by rw [resumeStopped, h]

/-- The record of a trap leaves memory calm. -/
theorem calm_record {s : State} (h : Calm s) (t : Trap) (p : BitVec 2) : Calm (s.record t p) :=
  calm_of h rfl (fills_nil h :) rfl h.savedFills h.parkedFills

/-- The context that a pre-emption keeps, where no vector instruction is in flight. -/
def keptContext (t : Thread) : Thread := { t with ctl := { t.ctl with wait := .none }, vec := { t.vec with viq := [] }, fwcsr := [] }

theorem keptContext_vec {t : Thread} (h : t.vec.viq = []) : (keptContext t).vec = t.vec := by
  change { t.vec with viq := [] } = t.vec
  rw [← h]

/-- Saving a context with nothing in flight ends the race records of its core, frees the control thread and queues the record again. -/
theorem saveContext_calm {s : State} (h : Calm s) (hv : s.ct.vec.viq = []) (ho : s.ct.vec.owing = []) (hg : s.ct.ctl.gwait = []) :
    saveContext s = requeueSaved { endRaces s s.ct.lcore with
      ct := s.ct.freed
      pkg := { s.pkg with saved := s.pkg.saved ++ [keptContext s.ct] } } (keptContext s.ct) := by
  have hnil : (endRaces s s.ct.lcore).ct.vec.viq = [] := hv
  simp only [saveContext, payAll_nil ho, landWhere_none h.late, hg, List.isEmpty_nil, Bool.not_true, Bool.false_and, Bool.false_eq_true, if_false,
    drainStores_calm h, dropAhead_calm h, hnil, List.foldl_nil, List.map_nil]
  rfl

theorem switchTo_of {s : State} {c n : Nat} (hc : s.ct.lcore = c) (hn : s.ct.ctno = n) : s.switchTo c n = s := by
  subst hc hn
  exact switchTo_self s

/-- Where its jobs have completed and its core has room, the record of a saved task is queued again in its class, pinned by a stash grant. -/
theorem requeueSaved_room {s : State} {t : Thread} (hj : jobsOf s t.lcore t.task.taskid = []) (hr : hwCount (s.core t.lcore) < 64) :
    requeueSaved s t = pushEntry s t.lcore t.task.prio
      (.record t.task.record t.task.chunk t.sup.troot t.task.lkey (some t.task.taskid)) (t.task.stashLen != 0) := by
  rw [requeueSaved, hj, List.isEmpty_nil, if_pos rfl, pushAlone_room hr]

/-- The record of a pre-emption at the acting word. -/
def preemptTrap (s : State) : Trap := { code := Code.preempt, sepc := some s.ct.pc }

/-- The state that a pre-emption of the acting thread leaves before its record is queued again. -/
def preempted (s : State) : State :=
  let u := s.record (preemptTrap s) Level.u.prv
  { endRaces u s.ct.lcore with ct := u.ct.freed, pkg := { s.pkg with saved := s.pkg.saved ++ [keptContext u.ct] } }

/-- A pre-emption of the acting thread, with no vector instruction in flight. -/
theorem exec_preempt_self {s : State} (h : Calm s) (hp : preemptVictim s s.ct.lcore = some s.ct) (hv : s.ct.vec.viq = []) (ho : s.ct.vec.owing = [])
    (hg : s.ct.ctl.gwait = []) (hs : s.ct.vec.stopped = none) (hj : jobsOf s s.ct.lcore s.ct.task.taskid = [])
    (hr : hwCount (s.core s.ct.lcore) < 64) :
    exec .preempt s = .next (pushEntry (preempted s) s.ct.lcore s.ct.task.prio
      (.record s.ct.task.record s.ct.task.chunk s.ct.sup.troot s.ct.task.lkey (some s.ct.task.taskid)) (s.ct.task.stashLen != 0)) := by
  have hsave : saveContext (s.record (preemptTrap s) Level.u.prv) = requeueSaved (preempted s) (keptContext (s.record (preemptTrap s) Level.u.prv).ct) :=
    saveContext_calm (calm_record h _ _) hv ho hg
  change execPreempt s = _
  rw [execPreempt, hp]
  simp only [switchTo_self, cutVictim_idle hv hs, hs, Option.map_none, Option.getD_none]
  rw [resumeStopped_none (by exact hs), ← preemptTrap, hsave, requeueSaved_room (by exact hj) (by exact hr),
    switchTo_of (by rw [pushEntry_only]; rfl) (by rw [pushEntry_only]; rfl)]
  rfl

/-! Delivery of a completion (R192). -/

/-- An x register after the values of another bank have been put over registers 21 on. -/
theorem getElem_foldl_bank (k : Nat → Word) (x : Vector Word 32) (i : Nat) (hi : i < 32) :
    ∀ m, ((List.range m).foldl (fun (x : Vector Word 32) n => x.setIfInBounds (21 + n) (k n)) x)[i] =
      if 21 ≤ i ∧ i < 21 + m then k (i - 21) else x[i]
  | 0 => by simp
  | m + 1 => by
    rw [List.range_succ, List.foldl_append, List.foldl_cons, List.foldl_nil, Vector.getElem_setIfInBounds, getElem_foldl_bank k x i hi m]
    by_cases h : 21 + m = i
    · subst h
      simp
    · rw [if_neg h]
      exact if_congr (by omega) rfl rfl

theorem getX_congr {s t : State} (h : t.ct.x = s.ct.x) (r : Reg) : t.getX r = s.getX r := by simp only [State.getX, h]

theorem swapBank_x (s : State) : s.swapBank.ct.x =
    (List.range 8).foldl (fun (x : Vector Word 32) n => x.setIfInBounds (21 + n) ((s.ct.uli.kother[n]?).getD 0)) s.ct.x := rfl

/-- The banks are exchanged: k0 to k7 hold what the other bank held, and every other register reads as before (R192). -/
theorem getX_swapBank (s : State) (r : Reg) :
    s.swapBank.getX r = if 21 ≤ r.toNat ∧ r.toNat < 29 then (s.ct.uli.kother[r.toNat - 21]?).getD 0 else s.getX r := by
  by_cases h0 : r = 0
  · subst h0
    rfl
  · rw [State.getX, State.getX, if_neg h0, if_neg h0, getElem_congr_coll (swapBank_x s), getElem_foldl_bank _ _ _ r.isLt]

theorem toNat_bankReg (n : Fin 8) : (BitVec.ofNat 5 (21 + n.val)).toNat = 21 + n.val := by
  have hn := n.isLt
  rw [BitVec.toNat_ofNat]
  omega

/-- The other bank then holds what k0 to k7 held. -/
theorem kother_swapBank (s : State) (n : Fin 8) : s.swapBank.ct.uli.kother[n] = s.getX (BitVec.ofNat 5 (21 + n.val)) := by
  have ht := toNat_bankReg n
  have hne : BitVec.ofNat 5 (21 + n.val) ≠ 0 := fun h => by
    rw [h] at ht
    exact absurd ht (by simp; omega)
  rw [State.getX, if_neg hne]
  simp [State.swapBank, ht]

theorem forcedTag_quiet {s : State} (h : NoReplay s) : forcedTag s = (none, s) := by
  obtain ⟨-, hrep⟩ := h
  simp [forcedTag, hrep]

/-- Where no log is replayed the tag delivered is the lowest pending one. -/
theorem tagToDeliver_quiet {s : State} (h : NoReplay s) {k : Nat} (hk : k < 32) (hp : s.ct.uli.pend.getLsbD k = true)
    (hl : ∀ j, j < k → s.ct.uli.pend.getLsbD j = false) : tagToDeliver s = some k := by
  rw [tagToDeliver, forcedTag_quiet h]
  exact List.find?_range_eq_some.2 ⟨hp, List.mem_range.2 hk, fun j hj => by simp [hl j hj]⟩

theorem askLog_quiet {s : State} (h : NoReplay s) : askLog s = s := by rw [askLog, forcedTag_quiet h, ite_self]

/-- The interrupt state as the completion of a tag enters the handler, before the banks are exchanged. -/
def uliTaken (s : State) (k : Nat) : UliSt :=
  { s.ct.uli with pend := s.ct.uli.pend &&& ~~~ (1#32 <<< k), tag := BitVec.ofNat 5 k, err := s.ct.uli.errs.any fun e => e.tag == k, act := true }

theorem acquireJobs_none {s : State} (h : s.m.early = []) : acquireJobs s = s := by simp [acquireJobs, acquire, forgetEarly, h]

/-- The handler of a completion is entered with the banks exchanged and the interrupted address in k0. -/
def bankTaken (s : State) (k : Nat) : State := (s.onUli fun _ => uliTaken s k).swapBank.setX k0Reg s.ct.pc

/-- The state in which the handler of a completion begins. -/
def delivered (s : State) (k : Nat) : State :=
  ((bankTaken s k).jump ((bankTaken s k).ct.uli.ulivec &&& ~~~ 3)).onCtl fun c => { c with lpend := true }

theorem deliverTag_quiet {s : State} (h : NoReplay s) (he : s.m.early = []) (k : Nat) : deliverTag s k = delivered s k := by
  have ha : acquireJobs (bankTaken s k) = bankTaken s k := acquireJobs_none (by rw [bankTaken, setX_m]; exact he)
  have hd : deliverTag s k =
      ((acquireJobs (bankTaken s k)).jump ((bankTaken s k).ct.uli.ulivec &&& ~~~ 3)).onCtl fun c => { c with lpend := true } := by
    simp only [deliverTag, logged_quiet h.1 h.2]
    rfl
  rw [hd, ha]
  rfl

theorem exec_ulDelivery {s : State} (hd : deliverable s = true) (h : NoReplay s) {k : Nat} (hk : k < 32) (hp : s.ct.uli.pend.getLsbD k = true)
    (hl : ∀ j, j < k → s.ct.uli.pend.getLsbD j = false) (he : s.m.early = []) : exec .ulDelivery s = .next (delivered s k) := by
  change execUlDelivery s = _
  rw [execUlDelivery, if_pos hd, tagToDeliver_quiet h hk hp hl, askLog_quiet h, ← deliverTag_quiet h he]

/-- k0 holds the interrupted address, k1 to k7 what the other bank held, and every other register reads as before (R192). -/
theorem getX_delivered (s : State) (k : Nat) (r : Reg) :
    (delivered s k).getX r =
      if r = 21 then s.ct.pc else if 21 ≤ r.toNat ∧ r.toNat < 29 then (s.ct.uli.kother[r.toNat - 21]?).getD 0 else s.getX r := by
  have h : (delivered s k).ct.x = (bankTaken s k).ct.x := rfl
  rw [getX_congr h, bankTaken, getX_setX, getX_swapBank]
  by_cases h0 : r = 0
  · subst h0
    rfl
  · rw [if_neg h0]
    rfl

theorem bankTaken_only (s : State) (k : Nat) :
    bankTaken s k = { s with ct := { s.ct with x := (bankTaken s k).ct.x, uli := (bankTaken s k).ct.uli } } := by
  rw [bankTaken, setX_only, swapBank_only]
  rfl

theorem delivered_only (s : State) (k : Nat) : delivered s k = { s with ct := { s.ct with
    pc := (delivered s k).ct.pc, x := (delivered s k).ct.x, uli := (delivered s k).ct.uli, ctl := { s.ct.ctl with wait := .none, lpend := true } } } := by
  rw [delivered, bankTaken_only]
  rfl

/-! Containment (R271). -/

theorem leaveGroups_none {s : State} {m : Member} (h : groupsOf s m.task = []) : leaveGroups s m = s := by simp [leaveGroups, h]

/-- Without a stash grant a release only forgets what the core's stash holds for the task. -/
theorem releaseGrant_zero (s : State) (core base : Nat) (task : Word) :
    releaseGrant s core base 0 task = s.onCore core fun k => { k with stashUse := k.stashUse.filter fun u => u.2.2 != task } := rfl

/-- No error log is named where no launch is, and no error record is written. -/
theorem writeTaskError_noLaunch {t : Thread} (h : t.task.launch = none) (scause sepc sfva : Word) (code : Nat) (s : State) :
    writeTaskError t scause sepc sfva code s = s := by
  rw [writeTaskError, h]
  rfl

theorem writeKeptOf_noLaunch {t : Thread} (h : t.task.launch = none) (s : State) : writeKeptOf t s = s := by
  unfold writeKeptOf
  induction t.uli.errs generalizing s with
  | nil => rfl
  | cons e r ih => rw [List.foldl_cons, writeTaskError_noLaunch h, ih]

theorem releaseAll_calm {s : State} (h : Calm s) : releaseAll s = nextInterval (endRaces s s.ct.lcore) := by rw [releaseAll, drainStores_calm h]

/-- A control thread that has been freed holds zeros. -/
theorem getX_freed {s : State} {t : Thread} (h : s.ct = t.freed) (r : Reg) : s.getX r = 0 := by
  have hx : s.ct.x = Vector.replicate 32 0 := by rw [h]; rfl
  simp [State.getX, hx]

/-- A containment taken by a task of no launch with nothing in flight ends the race records of its core and frees the control thread. -/
def contained (s : State) : State :=
  let u := s.record { code := Code.contain, sepc := some s.ct.pc } 0
  let v := (endRaces u s.ct.lcore).onCore s.ct.lcore fun k => { k with stashUse := k.stashUse.filter fun x => x.2.2 != s.ct.task.taskid }
  { v with ct := u.ct.freed }

theorem exec_contain_running {s : State} (hc : s.ct.ctl.contain = true) (hr : s.ct.status = .running) (hu : s.ct.level = .u)
    (hj : jobsOf s s.ct.lcore s.ct.task.taskid = []) (h : Calm s) (hv : s.ct.vec.viq = []) (hg : groupsOf s s.ct.task.taskid = [])
    (hs : s.ct.task.stashLen = 0) (hk : s.ct.task.chunk = none) (hl : s.ct.task.launch = none) : exec .contain s = .next (contained s) := by
  change execContain s = _
  have hf : s.ct.status ≠ .free := by rw [hr]; exact nofun
  have hrec := calm_record h { code := Code.contain, sepc := some s.ct.pc } 0
  have hleft : leftEntries (s.record { code := Code.contain, sepc := some s.ct.pc } 0) = [] := leftEntries_nil hv
  simp only [execContain, hc, hf, hj, hu, if_true, hleft, hv, hk, hs, List.filter_nil, discardRecords, List.foldl_nil, releaseAll_calm hrec,
    writeKeptOf_noLaunch hl, writeTaskError_noLaunch hl, loseTask, loseChunkOf, releaseGrant_zero]
  rw [leaveGroups_none (by exact hg)]
  have hd : dropAhead (contained s) = contained s := dropAhead_empty (by rw [contained, onCore_eq]; exact h.early)
  refine congrArg Host.Outcome.next (Eq.trans ?_ hd)
  rw [contained, onCore_eq, onCore_eq (endRaces _ _)]
  rfl

/-- Settles O54: a boundary event is one update of the acting control thread, and no event where its condition does not hold. -/
theorem boundaryEvents : Obligations.BoundaryEvents := by
  refine ⟨fun s h => ?noVictim, fun s c t h => ?victim, fun s hp h hc hg hv ho hs hj hr hk => ?preempts, fun s h => ?notDeliverable,
    fun s k hd h hk hp hl he => ?delivers, fun s h => ?notContained, fun s hc hf => ?containedFree,
    fun s hc hr hu hj h hv hg hs hk hl => ⟨_, exec_contain_running hc hr hu hj h hv hg hs hk hl, ?contains⟩⟩
  case noVictim =>
    change execPreempt s = _
    rw [execPreempt, h]
  case victim =>
    obtain ⟨hc, hl, hp⟩ := preemptVictim_some h
    exact ⟨hl, hp, (preemptChoice_some hc).2⟩
  case preempts =>
    obtain ⟨hrun, -⟩ := preemptChoice_some (preemptVictim_some hp).1
    refine ⟨_, keptContext (s.record (preemptTrap s) Level.u.prv).ct, s.pkg.idCtr, exec_preempt_self h hp hv ho hg hs hj hr, ?_⟩
    obtain ⟨hpush, -⟩ := pushEntry_pushed (s := preempted s) hc hr hk
      (.record s.ct.task.record s.ct.task.chunk s.ct.sup.troot s.ct.task.lkey (some s.ct.task.taskid)) (s.ct.task.stashLen != 0)
    rw [pushEntry_only] at hpush ⊢
    have hfree : s.ct.freed.status = .free := by simp [Thread.freed, hrun]
    exact ⟨hfree, scauseOf_plain Code.preempt, rfl, rfl, rfl, rfl, keptContext_vec hv, rfl, rfl, rfl, rfl, rfl, hpush, rfl, rfl⟩
  case notDeliverable =>
    change execUlDelivery s = _
    rw [execUlDelivery, h]
    rfl
  case delivers =>
    refine ⟨_, exec_ulDelivery hd h hk hp hl he, rfl, rfl, rfl, rfl, rfl, rfl, ?_, fun n hn => ?_, fun n => ?_, fun r hr => ?_, delivered_only s k⟩
    · rw [getX_delivered]
      rfl
    · have hlt := n.isLt
      have ht := toNat_bankReg n
      have hne : BitVec.ofNat 5 (21 + n.val) ≠ 21 := fun h => by
        rw [h] at ht
        exact absurd ht (by simp; omega)
      rw [getX_delivered, if_neg hne, ht, if_pos (by omega), Nat.add_sub_cancel_left]
      simp
    · have h : (delivered s k).ct.uli = (s.onUli fun _ => uliTaken s k).swapBank.ct.uli := setX_ct_uli ..
      rw [h, kother_swapBank]
      rfl
    · rw [getX_delivered, if_neg (by rintro rfl; revert hr; decide), if_neg (by omega)]
  case notContained =>
    change execContain s = _
    rw [execContain, h]
    rfl
  case containedFree =>
    change execContain s = _
    rw [execContain, hc, if_neg (by decide), if_pos hf]
    rfl
  case contains =>
    have hfree : s.ct.freed.status = .free := by simp [Thread.freed, hr]
    rw [contained, onCore_eq]
    exact ⟨hfree, rfl, scauseOf_plain Code.contain, rfl, getX_freed rfl, fun _ => rfl, rfl, rfl⟩

end Sys2Proof.Laws

/-!
SUPPORT. The start of a task of a range (R87, R90, R96).
-/

namespace Sys2Proof.Laws

open Sys2Proof.Machine

/-! The bytes of a record. -/

theorem drop_bytes (m : List Host.Cell) : ∀ n pa k, (Memory.bytes m pa n).drop k = Memory.bytes m (pa + k) (n - k)
  | 0, _, k => by rw [Nat.zero_sub]; exact List.drop_nil
  | n + 1, pa, 0 => rfl
  | n + 1, pa, k + 1 => by
    rw [Memory.bytes, List.drop_succ_cons, drop_bytes m n, Nat.add_sub_add_right, Nat.add_assoc, Nat.add_comm 1 k]

theorem take_bytes (m : List Host.Cell) : ∀ n pa k, k ≤ n → (Memory.bytes m pa n).take k = Memory.bytes m pa k
  | _, _, 0, _ => rfl
  | n + 1, pa, k + 1, h => by rw [Memory.bytes, List.take_succ_cons, take_bytes m n _ k (Nat.le_of_succ_le_succ h)]; rfl

/-- A doubleword of a record's 64 bytes is what its eight bytes hold. -/
theorem recWord_bytesAt (s : State) (pa : Nat) {i : Nat} (h : i < 8) :
    recWord (s.bytesAt pa 64) (8 * i) = BitVec.ofNat 64 (s.numAt (pa + 8 * i) 8) := by
  rw [recWord, State.bytesAt, drop_bytes, take_bytes _ _ _ _ (by omega)]
  rfl

/-! Taking an entry (R96, R94). -/

/-- The owner takes the lowest number of the range at the bottom of the lowest class that has an entry; the rest of the range stays. -/
theorem popOwn_range {s : State} {core k ch lo n born : Nat} {pin spilled : Bool} {l : List DqEntry} (hk : k < 4)
    (hlow : ∀ i, i < k → (s.core core).deques.toList.getD i [] = [])
    (hd : (s.core core).deques.toList.getD k [] = l ++ [⟨.range ch lo n, pin, spilled, born⟩]) :
    popOwn s core = some ⟨.range ch lo 1,
      setDeque s core k (l ++ if n ≤ 1 then [] else [⟨.range ch (lo + 1) (n - 1), pin, spilled, born⟩])⟩ := by
  have hfind : (List.range 4).find? (fun c => !((s.core core).deques.toList.getD c []).isEmpty) = some k := by
    refine List.find?_range_eq_some.2 ⟨?_, List.mem_range.2 hk, fun j hj => ?_⟩
    · rw [hd]
      simp
    · rw [hlow j hj]
      rfl
  rw [popOwn, hfind, Option.bind_some, hd]
  simp only [List.getLast?_concat, List.dropLast_concat, Option.map_some]
  split <;> simp

theorem setDeque_eq (s : State) (core cls : Nat) (d : List DqEntry) :
    setDeque s core cls d = { s with cores := changeCore s.cores core fun k => { k with deques := k.deques.setIfInBounds cls d } } :=
  onCore_eq ..

/-- The entries of the other classes and cores stay. -/
theorem core_setDeque {s : State} {core cls : Nat} (hc : core < 128) (hk : cls < 4) (d : List DqEntry) :
    ((setDeque s core cls d).core core).deques.toList.getD cls [] = d ∧
      (∀ i, i ≠ cls → ((setDeque s core cls d).core core).deques.toList.getD i [] = (s.core core).deques.toList.getD i []) ∧
      ∀ i, i ≠ core → (setDeque s core cls d).core i = s.core i := by
  have hcore (i : Nat) := core_onCore s core i (fun k => { k with deques := k.deques.setIfInBounds cls d }) hc
  have hself := (hcore core).trans (if_pos rfl)
  refine ⟨?_, fun i hi => ?_, fun i hi => (hcore i).trans (if_neg hi)⟩
  · rw [setDeque, hself]
    exact (getD_setIfInBounds ..).trans (if_pos ⟨rfl, hk⟩)
  · rw [setDeque, hself]
    exact (getD_setIfInBounds ..).trans (if_neg fun h => hi h.1)

/-- No log names a start where no die replays one. -/
theorem forcedStart_quiet {s : State} (h : ∀ d, (s.el d).replaying = false) (w : Startable) : forcedStart s w = (none, s) := by
  simp [forcedStart, h]

theorem startPick_quiet {p : Pick} (h : ∀ d, (p.state.el d).replaying = false) (core ctno : Nat) :
    startPick core ctno p = some (startOn p.state core ctno p.what none) := by
  rw [startPick, forcedStart_quiet h]

/-! The start of a task of a range (R87, R90). -/

/-- A task of a range as its start begins. -/
def instanceTask (s : State) (ch lo : Nat) (la : Launch) : TaskSt :=
  { TaskSt.start with
    startNo := s.pkg.startCtr, taskid := BitVec.ofNat 64 s.pkg.taskCtr, record := la.tva, slotPa := some la.slotPa, chunk := some ch
    inst := la.base + BitVec.ofNat 64 lo, isInst := true, launch := some la.id, lkey := mix 0 (la.base + BitVec.ofNat 64 lo) }

/-- The acting control thread as it takes a task of a range, before the record is read. -/
def instanceThread (s : State) (ch lo : Nat) (la : Launch) : Thread :=
  { Thread.idle s.ct.lcore s.ct.ctno with
    status := .running, x := (Thread.idle s.ct.lcore s.ct.ctno).x.set 2 la.tva, task := instanceTask s ch lo la
    sup := { s.ct.sup with troot := la.troot }, fwcsr := s.ct.fwcsr
    ctl := { CtlSt.start with deficit := s.ct.ctl.deficit, sampleCnt := s.ct.ctl.sampleCnt, spend := some la.tva } }

/-- The state in which the record of a range is read: its chunk counts it, and the counters of tasks and starts have moved on. -/
def instanceBegun (s : State) (ch lo : Nat) (la : Launch) : State :=
  { s with
    ct := instanceThread s ch lo la
    pkg := { (s.onChunk ch fun c => { c with unstarted := c.unstarted - 1, live := c.live + 1 }).pkg with
      taskCtr := s.pkg.taskCtr + 1, startCtr := s.pkg.startCtr + 1 } }

theorem startOn_range {s : State} {ch lo : Nat} {c : Chunk} {la : Launch} (hc : s.chunk ch = some c) (hl : s.launch c.launch = some la)
    (he : s.m.early = []) (n : Nat) :
    startOn s s.ct.lcore s.ct.ctno (.range ch lo n) none = finishStart (instanceBegun s ch lo la) := by
  have hb : ((s.chunk ch).bind fun c => s.launch c.launch) = some la := by rw [hc]; exact hl
  have hd : dropAhead (instanceBegun s ch lo la) = instanceBegun s ch lo la := dropAhead_empty he
  have hs (f : Chunk → Chunk) : (freshTask (s.onChunk ch f)).2.switchTo s.ct.lcore s.ct.ctno = (freshTask (s.onChunk ch f)).2 :=
    switchTo_of rfl rfl
  simp only [startOn, hb, unforced, newThread, hs]
  exact congrArg finishStart hd

/-- A control thread after the acting one has changed. -/
theorem thread_changed {s t : State} (hc : t.ct.lcore = s.ct.lcore) (hn : t.ct.ctno = s.ct.ctno) (ho : t.others = s.others) (c n : Nat) :
    t.thread c n = if s.ct.is c n then t.ct else s.thread c n := by
  have his : t.ct.is c n = s.ct.is c n := by rw [Thread.is, hc, hn]; rfl
  simp only [State.thread, State.threads, List.find?_cons, his, ho]
  cases s.ct.is c n <;> rfl

/-- No start of a core waits for its grant where none did and the acting thread does not. -/
theorem laterStart_false {s t : State} (hc : t.ct.lcore = s.ct.lcore) (hn : t.ct.ctno = s.ct.ctno) (ho : t.others = s.others)
    (hw : t.ct.ctl.wait ≠ .grant) (hg : ∀ i, i < 4 → (s.thread s.ct.lcore i).ctl.wait ≠ .grant) : laterStart t = false := by
  simp only [laterStart, coreThreads, List.any_map, List.any_eq_false, List.mem_range]
  intro i hi
  have hne : (t.thread t.ct.lcore i).ctl.wait ≠ .grant := by
    rw [thread_changed hc hn ho, hc]
    split
    · exact hw
    · exact hg i hi
  simp [hne]

/-- A home answers alike in states whose dies and service map are the same. -/
theorem atHome_congr {s t : State} {pa : Nat} (hd : t.dies = s.dies) (hr : t.pkg.ready = s.pkg.ready) (hf : t.pkg.fencedCores = s.pkg.fencedCores)
    (hp : t.pkg.containedPairs = s.pkg.containedPairs) (h : atHome pa s = .ok () s) : atHome pa t = .ok () t := by
  have hdie (d : Nat) : t.die d = s.die d := by rw [State.die, State.die, hd]
  have hl : lostHome t pa = lostHome s pa := by simp only [lostHome, hdie, hr, hf, hp]
  have ht : t.trainedAt pa = s.trainedAt pa := by rw [State.trainedAt, State.trainedAt, hr]
  unfold atHome at h ⊢
  rw [hl, ht]
  revert h
  split
  · exact nofun
  · intro h
    split at h
    · split at h
      next hu => simp [*]
      next => cases h
    · simp [*]

/-- The record of a range is read through its ring, at its home (R90, R401). -/
theorem readRecord_instance {u : State} (h : Calm u) {pa : Nat} (hs : u.ct.task.slotPa = some pa) (ha : atHome pa u = .ok () u) :
    ∃ v, Reached u v ∧ readRecord u = .ok (u.bytesAt pa 64) v := by
  have hr := reached_l1Read u (cacheable pa) u.ct.lcore pa
  refine ⟨_, hr, ?_⟩
  have hb : (l1Read u (cacheable pa) u.ct.lcore pa).bytesAt pa 64 = u.bytesAt pa 64 := by rw [hr.1]; rfl
  simp only [readRecord, hs, landAt, ha, Res.andThen, checkPoison_none _ _ _ _ h.poison, readyRead_calm (calm_reached h hr), hb]

/-- No stash is always free, at the bottom. -/
theorem stashFit_zero (k : Core) : stashFit k 0 = some 0 := by
  have hall : (k.stashUse.all fun u => decide (u.1 + u.2.1 ≤ 0) || decide (0 + 0 ≤ u.1)) = true := by simp
  rw [stashFit, show (List.range (Config.stashGrantable / 65536)).map (· * 65536) = 0 :: ((List.range 14).map fun i => (i + 1) * 65536) by decide]
  rw [List.find?_cons_of_pos]
  rw [hall]
  rfl

/-- The control thread of a start without a stash grant, whose record has been read. -/
def grantedThread (t : Thread) (profs : BitVec 7) (bs : List Byte) : Thread :=
  let c := Ctl.parse (recWord bs 0x38).toNat
  let entry := recWord bs 0 &&& ~~~ 3
  { t with
    pc := entry
    x := startRegs bs t.task.record t.task.inst
    task := { t.task with
      cont := if t.task.isInst then none else c.contOf t.task.record, slot := c.slot, prio := c.prio, share := c.share, minlg := c.minlg
      profs := profs, regLen := min c.vceil 2048, tiles := min (max c.accmin c.accwant) 8, stashBase := 0, stashLen := 0 }
    ctl := { t.ctl with wait := .none, spend := none, ltask := some entry } }

/-- The state in which a start without a stash grant checks its entry. -/
def granted (s : State) (bs : List Byte) : State :=
  { s with ct := grantedThread s.ct (profilesOf s (Ctl.parse (recWord bs 0x38).toNat).profset s.ct.sup.troot (recWord bs 0 &&& ~~~ 3)) bs }

theorem grantStart_zero {bs : List Byte} (h : (Ctl.parse (recWord bs 0x38).toNat).stash = 0) (s : State) : grantStart s bs 0 = granted s bs := by
  simp only [grantStart, h]
  rfl

/-- A start that nothing holds back, whose record asks for no stash and no group, goes on to its entry. -/
theorem finishStart_plain {u v : State} {bs : List Byte} (hl : laterStart u = false) (hr : readRecord u = .ok bs v)
    (hs : (Ctl.parse (recWord bs 0x38).toNat).stash = 0) (hg : (Ctl.parse (recWord bs 0x38).toNat).group = 0)
    (hq : ∀ d, (v.el d).recording = false ∧ (v.el d).replaying = false) : finishStart u = checkEntry (recWord bs 0) (granted v bs) := by
  have hel (d : Nat) : (granted v bs).el d = v.el d := rfl
  have hlog (ty : Nat) (pc w : Word) : logged (granted v bs) ty pc w = (w, granted v bs) :=
    logged_quiet (by rw [hel]; exact (hq _).1) (by rw [hel]; exact (hq _).2) ..
  rw [finishStart, hl, if_neg Bool.false_ne_true, hr]
  simp only [hs, Nat.mul_zero, stashFit_zero, grantStart_zero hs, hlog, joinStart, hg, true_or, if_true]

theorem getElem_startRegs (bs : List Byte) (tr inst : Word) {i : Nat} (h : i < 32) : (startRegs bs tr inst)[i] =
    if i = 2 then tr else if 3 ≤ i ∧ i ≤ 8 then recWord bs (8 * (i - 2)) else if i = 9 then inst else 0 := Vector.getElem_ofFn h

theorem toNat_eq_iff (r : Reg) (n : Nat) (h : n < 32) : r.toNat = n ↔ r = BitVec.ofNat 5 n := by
  rw [BitVec.toNat_eq, BitVec.toNat_ofNat, Nat.mod_eq_of_lt h]

/-- The x registers of a start (R87). -/
theorem getX_startRegs {t : State} {bs : List Byte} {tr inst : Word} (h : t.ct.x = startRegs bs tr inst) (r : Reg) :
    t.getX r = if r = 2 then tr else if 3 ≤ r.toNat ∧ r.toNat ≤ 8 then recWord bs (8 * (r.toNat - 2)) else if r = 9 then inst else 0 := by
  by_cases h0 : r = 0
  · subst h0
    rfl
  · rw [State.getX, if_neg h0, getElem_congr_coll h, getElem_startRegs bs tr inst r.isLt]
    exact if_congr (toNat_eq_iff r 2 (by decide)) rfl (if_congr Iff.rfl rfl (if_congr (toNat_eq_iff r 9 (by decide)) rfl rfl))

/-- The outcome of a step that has left the acting control thread in its place. -/
theorem backTo_next {s : State} {c n : Nat} (hc : s.ct.lcore = c) (hn : s.ct.ctno = n) : backTo c n (.next s) = .next s := by
  rw [backTo, switchTo_of hc hn]

section

variable {s : State} {k ch lo n born : Nat} {pin spilled : Bool} {l : List DqEntry} {c : Chunk} {la : Launch}

/-- The state after a task has been taken from its range, whose rest is the list given. -/
def taken (s : State) (k ch lo : Nat) (la : Launch) (d : List DqEntry) : State := instanceBegun (setDeque s s.ct.lcore k d) ch lo la

theorem taken_only (s : State) (k ch lo : Nat) (la : Launch) (d : List DqEntry) :
    taken s k ch lo la d = { instanceBegun s ch lo la with cores := (setDeque s s.ct.lcore k d).cores } := by
  rw [taken, setDeque_eq]
  rfl

/-- A free control thread of a ready core starts the lowest number of the range at the bottom of the lowest class. -/
theorem exec_taskStart_range (hf : s.ct.status = .free) (hrdy : s.coreReady s.ct.lcore = true)
    (hw : ∀ i, i < 4 → (s.thread s.ct.lcore i).ctl.wait ≠ .grant) (h : Calm s) (hq : ∀ d, (s.el d).recording = false ∧ (s.el d).replaying = false)
    (hk : k < 4) (hlow : ∀ i, i < k → (s.core s.ct.lcore).deques.toList.getD i [] = [])
    (hd : (s.core s.ct.lcore).deques.toList.getD k [] = l ++ [⟨.range ch lo n, pin, spilled, born⟩]) (hc : s.chunk ch = some c)
    (hl : s.launch c.launch = some la) (ha : atHome la.slotPa s = .ok () s)
    (hs : (Ctl.parse (recWord (s.bytesAt la.slotPa 64) 0x38).toNat).stash = 0)
    (hg : (Ctl.parse (recWord (s.bytesAt la.slotPa 64) 0x38).toNat).group = 0) :
    ∃ v, Reached (taken s k ch lo la (l ++ if n ≤ 1 then [] else [⟨.range ch (lo + 1) (n - 1), pin, spilled, born⟩])) v ∧
      exec (.taskStart s.ct.lcore s.ct.ctno) s = backTo s.ct.lcore s.ct.ctno
        (checkEntry (recWord (s.bytesAt la.slotPa 64) 0) (granted v (s.bytesAt la.slotPa 64))) := by
  generalize hrest : (l ++ if n ≤ 1 then [] else [⟨.range ch (lo + 1) (n - 1), pin, spilled, born⟩] : List DqEntry) = d
  have hp := setDeque_eq s s.ct.lcore k d
  have hu := taken_only s k ch lo la d
  have hcalm : Calm (taken s k ch lo la d) := by
    rw [hu]
    exact calm_of h rfl rfl rfl h.savedFills h.parkedFills
  have hhome : atHome la.slotPa (taken s k ch lo la d) = .ok () (taken s k ch lo la d) := by
    rw [hu]
    exact atHome_congr (s := s) rfl rfl rfl rfl ha
  obtain ⟨v, hv, hread⟩ := readRecord_instance hcalm (pa := la.slotPa) (by rw [hu]; rfl) hhome
  have hbytes : (taken s k ch lo la d).bytesAt la.slotPa 64 = s.bytesAt la.slotPa 64 := by rw [hu]; rfl
  rw [hbytes] at hread
  refine ⟨v, hv, ?_⟩
  have hlater : laterStart (taken s k ch lo la d) = false := by
    rw [hu]
    exact laterStart_false (s := s) rfl rfl rfl nofun hw
  have hel (i : Nat) : ((setDeque s s.ct.lcore k d).el i).replaying = false := by
    rw [hp]
    exact (hq i).2
  have helv (i : Nat) : (v.el i).recording = false ∧ (v.el i).replaying = false := by
    have hdie : v.el i = s.el i := by
      rw [State.el, hv.2 i, hu]
      rfl
    rw [hdie]
    exact hq i
  have hgrant : grantWaits s s.ct.lcore = false := by
    simp only [grantWaits, coreThreads, List.any_map, List.any_eq_false, List.mem_range, Function.comp_apply, beq_iff_eq]
    exact hw
  have hstart : startOn (setDeque s s.ct.lcore k d) s.ct.lcore s.ct.ctno (.range ch lo 1) none = finishStart (taken s k ch lo la d) := by
    have h1 := startOn_range (s := setDeque s s.ct.lcore k d) (ch := ch) (c := c) (la := la) (lo := lo) (by rw [hp]; exact hc)
      (by rw [hp]; exact hl) (by rw [hp]; exact h.early) 1
    rw [taken, ← h1, hp]
  have hpick := popOwn_range hk hlow hd
  rw [hrest] at hpick
  change execTaskStart _ _ _ = _
  rw [execTaskStart, thread_self, hpick, if_neg (by simp [hf, hrdy, hgrant])]
  simp only [startPick_quiet (p := ⟨.range ch lo 1, setDeque s s.ct.lcore k d⟩) hel, Option.getD_some, hstart,
    finishStart_plain hlater hread hs hg helv]

end

/-- The state of a start whose record has been read: the control thread is the new task's, and what else has changed is the deque, the chunk and the
counters of the package, and what reading the record changes. -/
theorem granted_taken {s v : State} {k ch lo : Nat} {la : Launch} {d : List DqEntry} (hv : Reached (taken s k ch lo la d) v) (bs : List Byte) :
    (∃ profs, (granted v bs).ct = grantedThread (instanceThread s ch lo la) profs bs) ∧ (granted v bs).others = s.others ∧
      (granted v bs).cores = (setDeque s s.ct.lcore k d).cores ∧ (granted v bs).pkg = (instanceBegun s ch lo la).pkg ∧
      (granted v bs).m = (s.accessed (granted v bs)).m ∧ SameDies s (granted v bs) := by
  rw [taken_only] at hv
  refine ⟨⟨profilesOf v (Ctl.parse (recWord bs 0x38).toNat).profset v.ct.sup.troot (recWord bs 0 &&& ~~~ 3), ?_⟩,
    (reached_others hv :), (reached_cores hv :), (reached_pkg hv :), (reached_mem_eq hv :), hv.2⟩
  change grantedThread v.ct _ bs = _
  rw [reached_ct hv]
  rfl

/-- The two low bits of a multiple of 4 are clear. -/
theorem and_not_three {a : Word} (h : a.toNat % 4 = 0) : a &&& ~~~ 3 = a := by
  refine BitVec.eq_of_getLsbD_eq fun i hi => ?_
  have ha : a.toNat = 2 ^ 2 * (a.toNat / 4) := by omega
  rw [BitVec.getLsbD_and, BitVec.getLsbD_not]
  rcases Nat.lt_or_ge i 2 with h2 | h2
  · rw [BitVec.getLsbD, ha, Nat.testBit_two_pow_mul]
    simp [Nat.not_le.2 h2]
  · have h3 : (3 : Word).getLsbD i = false := by
      rw [BitVec.getLsbD]
      exact Nat.testBit_lt_two_pow (lt_of_lt_of_le (by decide) (Nat.pow_le_pow_right (by decide) h2))
    rw [h3]
    simp [hi]

/-- Settles O52: the start of a task of a range is one new control thread, of which the record read at its home gives the fields. -/
theorem taskStart : Obligations.TaskStart := by
  refine ⟨fun s c n h => ?notFree, fun s k ch lo n born pin spilled l c la hlc _ hf hrdy hw h hq hk hlow hd hc _ hl _ ha => ?starts⟩
  case notFree =>
    change execTaskStart c n s = _
    rw [execTaskStart, if_pos]
    rcases h with h | h
    · exact .inl h
    · exact .inr (.inl (by simp [h]))
  case starts =>
    dsimp only
    intro hs hg
    have hword {i : Nat} (hi : i < 8) := recWord_bytesAt s la.slotPa hi
    rw [← hword (i := 7) (by decide)] at hs hg ⊢
    rw [← hword (i := 0) (by decide)]
    obtain ⟨v, hv, hexec⟩ := exec_taskStart_range (n := n) hf hrdy hw h hq hk hlow hd hc hl ha hs hg
    obtain ⟨⟨profs, hct⟩, hothers, hcores, hpkg, hm, hdies⟩ := granted_taken hv (s.bytesAt la.slotPa 64)
    have hlcore : (granted v (s.bytesAt la.slotPa 64)).ct.lcore = s.ct.lcore := (congrArg Thread.lcore hct :)
    have hctno : (granted v (s.bytesAt la.slotPa 64)).ct.ctno = s.ct.ctno := (congrArg Thread.ctno hct :)
    have hx : (granted v (s.bytesAt la.slotPa 64)).ct.x = startRegs (s.bytesAt la.slotPa 64) la.tva (la.base + BitVec.ofNat 64 lo) :=
      (congrArg Thread.x hct :)
    obtain ⟨hclass, hclasses, hcore⟩ := core_setDeque (s := s) hlc hk (l ++ if n ≤ 1 then [] else [⟨.range ch (lo + 1) (n - 1), pin, spilled, born⟩])
    rw [hexec]
    refine ⟨fun hbad => ?misaligned, fun hok => ?aligned⟩
    case misaligned =>
      rw [checkEntry, if_neg hbad, takeTrap_u _ (by exact congrArg Thread.level hct),
        backTo_next (by exact hlcore) (by exact hctno)]
      exact ⟨_, rfl, rfl, (congrArg PkgSt.sEntry hpkg :), scauseOf_plain Code.landing, (congrArg Thread.pc hct :), rfl⟩
    case aligned =>
      rw [checkEntry, if_pos hok, backTo_next hlcore hctno]
      have hentry := and_not_three hok
      refine ⟨_, rfl, congrArg Thread.status hct, congrArg Thread.level hct,
        (congrArg Thread.pc hct).trans hentry, (congrArg (·.ctl.ltask) hct).trans (congrArg some hentry), fun r => ?_,
        congrArg Thread.vec hct, congrArg Thread.fp hct, congrArg Thread.mx hct, congrArg Thread.sup hct, congrArg (·.task.taskid) hct,
        congrArg PkgSt.taskCtr hpkg, congrArg (·.task.isInst) hct, congrArg (·.task.chunk) hct, congrArg (·.task.prio) hct,
        congrArg (·.task.regLen) hct, congrArg (·.task.tiles) hct, ?_, fun i hi => ?_, fun i hi => ?_, hm, hdies, hothers⟩
      · rw [getX_startRegs hx]
        split
        · rfl
        split
        · exact hword (by omega)
        · rfl
      · rw [core_congr hcores, hclass]
      · rw [core_congr hcores, hclasses i hi]
      · rw [core_congr hcores, hcore i hi]

end Sys2Proof.Laws

/-!
SUPPORT. TPARK (R103, R361): the class of a parked record, and what is kept until its event.
-/

namespace Sys2Proof.Laws

open Sys2Proof.Machine

/-! Reading the class of a parked record (R96, R100). -/

/-- Korier's mapping of the record region has A set. -/
theorem recordLeaf_accessed (q : Nat) : BitVec.ofNat 64 (q * 4096 + 0xF7 + 2 ^ 58) ||| 0x20 = BitVec.ofNat 64 (q * 4096 + 0xF7 + 2 ^ 58) := by
  have h5 : (BitVec.ofNat 64 (q * 4096 + 0xF7 + 2 ^ 58)).getLsbD 5 = true := by
    rw [BitVec.getLsbD_ofNat, Nat.testBit_eq_decide_div_mod_eq]
    simp
    omega
  refine BitVec.eq_of_getLsbD_eq fun i hi => ?_
  rw [BitVec.getLsbD_or]
  by_cases h : i = 5
  · rw [h, h5]
    rfl
  · have h0 : (0x20 : Word).getLsbD i = false := by
      rw [BitVec.getLsbD]
      exact Nat.testBit_two_pow_of_ne (n := 5) (Ne.symm h)
    rw [h0, Bool.or_false]

/-- A read of the record region is translated without a change of the state. -/
theorem translate_region_ok {s t : State} {c : Ctx} {va : Word} {p : Place} (hl : c.level = .u) (h : (va - s.pkg.recRegion).toNat < 2 ^ 21)
    (ht : Machine.translate c { kind := 1 } va s = .ok p t) : t = s := by
  unfold Machine.translate at ht
  rw [if_neg (by rw [hl]; exact nofun)] at ht
  simp only [lookup, recordLeaf, if_pos h, Res.andThen, useWalk] at ht
  split at ht
  · cases ht
  split at ht
  · cases ht
  have had (e : Word) (he : e ||| 0x20 = e) (at_ : Nat) : updateAD s c.by_ { kind := 1 } e at_ = some s := by
    rw [updateAD]
    exact if_pos he
  rw [had _ (recordLeaf_accessed _)] at ht
  cases ht
  rfl

theorem atHome_ok {s t : State} {pa : Nat} {u : Unit} (h : atHome pa s = .ok u t) : t = s := by
  unfold atHome at h
  split at h
  · cases h
  split at h
  · split at h <;> cases h
    rfl
  · cases h
    rfl

/-- An access enters a place without a change of the state where nothing is in flight. -/
theorem enterPlace_ok {s t : State} (hc : Calm s) {c : Ctx} {a : Acc} {va : Word} {p q : Place} (h : enterPlace c a va p s = .ok q t) : t = s := by
  unfold enterPlace landAt at h
  cases ha : atHome p.pa s with
  | ok u s1 =>
    obtain rfl := atHome_ok ha
    simp only [ha, Res.andThen, checkPoison_none _ _ _ _ hc.poison] at h
    split at h
    · rw [stashLine_none _ _ _ _ hc.slines] at h
      cases h
      rfl
    · cases h
      rfl
  | trap t s1 => rw [ha] at h; cases h
  | wait w s1 => rw [ha] at h; cases h
  | gone s1 => rw [ha] at h; cases h

/-- A read of the record region is made ready without a change of the state where nothing is in flight. -/
theorem resolve_region_ok {s t : State} (hc : Calm s) {c : Ctx} {va : Word} {p : Place} (hl : c.level = .u)
    (h : (va - s.pkg.recRegion).toNat < 2 ^ 21) {n : Nat} (hr : resolve c { kind := 1 } va n s = .ok p t) : t = s := by
  unfold resolve at hr
  rw [if_neg (by rw [hl]; exact nofun)] at hr
  split at hr
  · cases ht : Machine.translate c { kind := 1 } va s with
    | ok q s1 =>
      obtain rfl := translate_region_ok hl h ht
      rw [ht] at hr
      exact enterPlace_ok hc hr
    | trap t s1 => rw [ht] at hr; cases hr
    | wait w s1 => rw [ht] at hr; cases hr
    | gone s1 => rw [ht] at hr; cases hr
  · split at hr
    · exact enterPlace_ok hc hr
    · cases hr
  · dsimp only at hr
    split at hr
    · cases hr
    split at hr
    · cases hr
    · exact enterPlace_ok hc hr
  · cases hr

theorem readHome_calm {s : State} (h : Calm s) (by_ : By) (pa n : Nat) : readHome s by_ pa n = (s.numAt pa n, s) := by
  simp only [readHome, readBytes, readyAt_calm h]
  rfl

/-- The class of a parked record is read without a change of the state. -/
theorem parkedClass_calm {s : State} (h : Calm s) {p : Parked} (hp : (p.task.record + 0x38 - s.pkg.recRegion).toNat < 2 ^ 21) :
    (parkedClass s p).2 = s := by
  unfold parkedClass
  split
  next a s1 hr =>
    obtain rfl := resolve_region_ok h rfl hp hr
    rw [readHome_calm h]
  next => rfl

/-! Parking (R103). -/

/-- What TPARK keeps of the acting task. -/
def parkedAs (s : State) (ev : ParkEvent) : Parked :=
  ⟨ev, s.ct.lcore, { s.ct.task with record := s.getX trReg }, s.ct.sup.troot, s.ct.mx.fills, s.ct.uli.errs, false, false⟩

theorem parkNow_calm {s : State} (h : Calm s) (ev : ParkEvent) :
    parkNow ev s = { s with ct := s.ct.freed, pkg := { s.pkg with parked := s.pkg.parked ++ [parkedAs s ev] } } := dropAhead_empty h.early

/-- A parked record whose jobs have completed: its grant is gone. -/
def served (p : Parked) (occurred : Bool) : Parked :=
  { p with task := { p.task with stashBase := 0, stashLen := 0, maps := [] }, pushed := occurred }

/-- The state in which the one record parked, without a grant, has had its event looked for. -/
def parkServed (s : State) (p : Parked) : State :=
  { s with
    cores := changeCore s.cores p.core fun k => { k with stashUse := k.stashUse.filter fun u => u.2.2 != p.task.taskid }
    pkg := { s.pkg with parked := [served p (eventOccurred s p)] } }

theorem serveParked_single {s : State} {p : Parked} (hp : s.pkg.parked = [p]) (hpu : p.pushed = false) (hpc : p.contain = false)
    (hj : jobsOf s p.core p.task.taskid = []) (hl : p.task.stashLen = 0) :
    serveParked s = if eventOccurred s p then
        pushAlone (parkedClass (parkServed s p) (served p (eventOccurred s p))).2 p.core (parkedClass (parkServed s p) (served p (eventOccurred s p))).1
          (.record p.task.record p.task.chunk p.troot p.task.lkey (some p.task.taskid)) false
      else parkServed s p := by
  have hev : eventOccurred (releaseGrant s p.core p.task.stashBase 0 p.task.taskid) p = eventOccurred s p := by
    rw [releaseGrant_zero, onCore_eq]
    rfl
  have hst : (releaseGrant s p.core p.task.stashBase 0 p.task.taskid).onPkg (fun k => { k with parked := k.parked.map fun q =>
      if q.task.taskid = p.task.taskid then (served p (eventOccurred s p)) else q }) = parkServed s p := by
    rw [releaseGrant_zero, onCore_eq]
    simp only [State.onPkg, hp, List.map_cons, List.map_nil, if_true]
    rfl
  have hgo : (p.pushed || p.contain || !(jobsOf s p.core p.task.taskid).isEmpty) = false := by simp [hpu, hpc, hj]
  rw [serveParked, hp, List.foldl_cons, List.foldl_nil, hgo, if_neg Bool.false_ne_true, hl]
  dsimp only
  rw [hev, ← hst]
  rfl

/-- A release where nothing is in flight: the race records of the core end, and the fence interval is the next. -/
def released (s : State) : State := nextInterval (endRaces s s.ct.lcore)

theorem calm_released {s : State} (h : Calm s) : Calm (released s) := calm_of h rfl (fills_nil h :) rfl h.savedFills h.parkedFills

theorem release_calm {s : State} (h : Calm s) (hq : vecQuiet s = true) (keep : Bool) (f : State → Host.Outcome State Fault Refusal) :
    release keep s f = f (released s) := by
  have hb : drainSbuf s = s := drainWhere_calm h _
  rw [release, if_pos hq, releaseAll_calm h, hb, ite_self, released]

/-- A state in which TPARK has only its event to check: nothing is in flight, and the task is of no range, has no job and no grant. -/
structure CanPark (s : State) : Prop where
  profile : s.has .lt = true
  viq : s.viqEmpty = true
  plain : s.ct.task.isInst = false
  quiet : vecQuiet s = true
  calm : Calm s
  alone : s.pkg.parked = []
  jobs : jobsOf s s.ct.lcore s.ct.task.taskid = []
  grant : s.ct.task.stashLen = 0

/-- A TPARK that nothing refuses and whose release waits for nothing parks the task. -/
theorem park_next {s : State} (h : CanPark s)
    {check : (State → Host.Outcome State Fault Refusal) → Host.Outcome State Fault Refusal} (hc : ∀ k, check k = k s) {f : State → State}
    (hp : pushesAtOnce (released s) (f (released s)) = false) (keep : Bool) : park s keep check f = .next (f (released s)) := by
  rw [park, withProfile_has h.profile, h.viq, h.plain, hc, release_calm h.calm h.quiet]
  simp [hp]

/-- A task of a range may not park (R361). -/
theorem park_instance {s : State} (lt : s.has .lt = true) (hv : s.viqEmpty = true) (hi : s.ct.task.isInst = true) (keep : Bool)
    (check : (State → Host.Outcome State Fault Refusal) → Host.Outcome State Fault Refusal) (f : State → State) :
    park s keep check f = takeTrap { code := Code.resource } s := by
  rw [park, withProfile_has lt, hv, hi]
  rfl

/-- t is s after TPARK: the control thread is free, and the record p of its task is the one parked. -/
def Held (s t : State) (p : Parked) : Prop :=
  t.ct = s.ct.freed ∧ t.pkg.parked = [p] ∧ p.core = s.ct.lcore ∧ p.task.taskid = s.ct.task.taskid ∧ p.task.record = s.getX 2 ∧
    p.troot = s.ct.sup.troot ∧ p.errs = s.ct.uli.errs ∧ SameBytes s t ∧ SameDies s t ∧ t.others = s.others ∧ t.pkg.chunks = s.pkg.chunks

/-- The state of a park before its event is looked for. -/
def parkBegun (s : State) (ev : ParkEvent) : State :=
  { released s with ct := s.ct.freed, pkg := { s.pkg with parked := [parkedAs (released s) ev] } }

theorem parkNow_released {s : State} (h : Calm s) (hp : s.pkg.parked = []) (ev : ParkEvent) : parkNow ev (released s) = parkBegun s ev := by
  have hp1 : (released s).pkg.parked = [] := hp
  rw [parkNow_calm (calm_released h), hp1]
  rfl

theorem calm_parkBegun {s : State} (h : Calm s) (ev : ParkEvent) : Calm (parkBegun s ev) :=
  calm_of h rfl rfl rfl h.savedFills fun p hp => by
    rw [List.mem_singleton.1 hp]
    exact (fills_nil h :)

/-- u is the state of a park, before or after the group has counted the arrival. -/
def Parking (s u : State) (ev : ParkEvent) : Prop :=
  u.ct = s.ct.freed ∧ u.pkg.parked = [parkedAs (released s) ev] ∧ u.cores = s.cores ∧ u.m.mem = s.m.mem ∧ SameDies s u ∧ u.others = s.others ∧
    u.pkg.chunks = s.pkg.chunks

theorem parking_begun (s : State) (ev : ParkEvent) : Parking s (parkBegun s ev) ev := ⟨rfl, rfl, rfl, rfl, fun _ => rfl, rfl, rfl⟩

/-- What is held once the event has been looked for. -/
theorem held_parkServed {s u : State} {ev : ParkEvent} (h : Parking s u ev) :
    Held s (parkServed u (parkedAs (released s) ev)) (served (parkedAs (released s) ev) (eventOccurred u (parkedAs (released s) ev))) := by
  obtain ⟨hct, -, -, hmem, hdies, hothers, hchunks⟩ := h
  have hx : (released s).getX 2 = s.getX 2 := getX_congr rfl 2
  exact ⟨hct, rfl, rfl, rfl, hx, rfl, rfl, fun a => congrArg (Memory.byte · a) hmem, hdies, hothers, hchunks⟩

/-- A push by no instruction leaves what is held as it is. -/
theorem held_pushAlone {s u : State} {p : Parked} (h : Held s u p) (c cls : Nat) (w : Startable) (pin : Bool) : Held s (pushAlone u c cls w pin) p := by
  rw [pushAlone_only]
  exact h

/-- The event of a park that has not occurred is waited for. -/
theorem serveParked_parking {s u : State} {ev : ParkEvent} (h : Parking s u ev) (hj : jobsOf s s.ct.lcore s.ct.task.taskid = [])
    (hl : s.ct.task.stashLen = 0) : serveParked u =
      if eventOccurred u (parkedAs (released s) ev) then
        let p := served (parkedAs (released s) ev) (eventOccurred u (parkedAs (released s) ev))
        let r := parkedClass (parkServed u (parkedAs (released s) ev)) p
        pushAlone r.2 s.ct.lcore r.1 (.record (s.getX trReg) s.ct.task.chunk s.ct.sup.troot s.ct.task.lkey (some s.ct.task.taskid)) false
      else parkServed u (parkedAs (released s) ev) := by
  obtain ⟨-, hp, hcores, -⟩ := h
  have hju : jobsOf u s.ct.lcore s.ct.task.taskid = [] := by rw [← hj, jobsOf, jobsOf, core_congr hcores]
  exact serveParked_single hp rfl rfl hju hl

/-- A park whose event has not occurred. -/
theorem held_waits {s u : State} {ev : ParkEvent} (h : Parking s u ev) (hj : jobsOf s s.ct.lcore s.ct.task.taskid = [])
    (hl : s.ct.task.stashLen = 0) (he : eventOccurred u (parkedAs (released s) ev) = false) :
    ∃ p, Held s (serveParked u) p ∧ p.event = ev ∧ p.pushed = false ∧ (serveParked u).pkg.groups = u.pkg.groups := by
  refine ⟨served (parkedAs (released s) ev) (eventOccurred u (parkedAs (released s) ev)), ?_, rfl, he, ?_⟩
  all_goals rw [serveParked_parking h hj hl, if_neg (by rw [he]; exact Bool.false_ne_true)]
  · exact held_parkServed h
  · rfl

/-- A park whose event has occurred, on a core with room. -/
theorem held_pushed {s u : State} {ev : ParkEvent} (h : Parking s u ev) (hc : Calm u) (hj : jobsOf s s.ct.lcore s.ct.task.taskid = [])
    (hl : s.ct.task.stashLen = 0) (hrec : (s.getX 2 + 0x38 - s.pkg.recRegion).toNat < 2 ^ 21) (hreg : u.pkg.recRegion = s.pkg.recRegion)
    (he : eventOccurred u (parkedAs (released s) ev) = true) :
    ∃ p, Held s (serveParked u) p ∧ p.event = ev ∧ p.pushed = true := by
  have hh := held_parkServed h
  have hcalm : Calm (parkServed u (parkedAs (released s) ev)) :=
    calm_of hc rfl (fills_nil hc :) rfl hc.savedFills fun p hp => by
      obtain ⟨-, hparked, -⟩ := h
      rw [List.mem_singleton.1 hp]
      exact (hc.parkedFills (parkedAs (released s) ev) (by rw [hparked]; exact List.mem_singleton.2 rfl) :)
  have hcls := parkedClass_calm hcalm (p := served (parkedAs (released s) ev) (eventOccurred u (parkedAs (released s) ev))) (by
    obtain ⟨-, -, -, -, hrecord, -⟩ := hh
    rw [hrecord]
    exact hreg ▸ hrec)
  refine ⟨served (parkedAs (released s) ev) (eventOccurred u (parkedAs (released s) ev)), ?_, rfl, he⟩
  rw [serveParked_parking h hj hl, if_pos he]
  dsimp only
  rw [hcls]
  exact held_pushAlone hh ..

/-- Nothing is pushed at once where the event has not occurred. -/
theorem pushesAtOnce_waits {s t u : State} {p : Parked} (h : Held s t p) (hp : p.pushed = false) : pushesAtOnce u t = false := by
  obtain ⟨-, hparked, -⟩ := h
  simp [pushesAtOnce, hparked, hp]

/-! Groups (R104, R105). -/

theorem group_id (s : State) (g : Nat) : (s.group g).id = g := by
  unfold State.group
  cases h : s.pkg.groups.find? (·.id == g) with
  | none => rfl
  | some x =>
    have hx := List.find?_some h
    exact eq_of_beq hx

theorem group_putGroup (s : State) (x : Group) : (s.putGroup x).group x.id = x := by
  have h : (s.pkg.groups.filter fun o => o.id != x.id).find? (·.id == x.id) = none := by
    simp [List.find?_eq_none]
  simp [State.group, State.putGroup, State.onPkg, List.find?_append, h]

theorem group_congr {s t : State} (h : t.pkg.groups = s.pkg.groups) (g : Nat) : t.group g = s.group g := by rw [State.group, State.group, h]

/-- A group after the arrival of a member. -/
def arrived (x : Group) (m : Member) : Group :=
  { x with members := x.members.map fun k => if k.who.task = m.task then ⟨m, true⟩ else k }

/-- With no line held, nothing that has arrived is to be drained. -/
theorem releaseArrived_none {s : State} (h : s.m.wcb = []) (g : Nat) : releaseArrived s g = s := by
  have hf : ((s.group g).members.filter fun m => m.arrived && holdsLines s m.who.task) = [] := by
    simp [holdsLines, h]
  rw [releaseArrived, hf]
  exact ite_self _

/-- A phase does not complete while a member has not arrived. -/
theorem checkPhase_open {s : State} {g : Nat} (h : ∃ x ∈ (s.group g).members, x.arrived = false) : checkPhase s g = s := by
  have ha : (s.group g).members.all (·.arrived) = false := by
    obtain ⟨x, hx, hn⟩ := h
    exact List.all_eq_false.2 ⟨x, hx, by simp [hn]⟩
  rw [checkPhase]
  simp [ha]

/-- An arrival while another member has still to arrive is counted in its group, and no phase completes. -/
theorem applyGroup_park {s : State} {g : Nat} {m : Member} (h : s.m.wcb = [])
    (ho : ∃ x ∈ (s.group g).members, x.who.task ≠ m.task ∧ x.arrived = false) :
    applyGroup s g .park m = (packet s (dieOf m.lcore) (g % 4)).putGroup (arrived (s.group g) m) := by
  have hg : (packet s (dieOf m.lcore) (g % 4)).group g = s.group g := group_congr (by rw [packet_only]) g
  have hput : ((packet s (dieOf m.lcore) (g % 4)).putGroup (arrived (s.group g) m)).group g = arrived (s.group g) m := by
    have h1 := group_putGroup (packet s (dieOf m.lcore) (g % 4)) (arrived (s.group g) m)
    rwa [show (arrived (s.group g) m).id = g from group_id s g] at h1
  have hopen : ∃ x ∈ (((packet s (dieOf m.lcore) (g % 4)).putGroup (arrived (s.group g) m)).group g).members, x.arrived = false := by
    obtain ⟨x, hx, hne, hn⟩ := ho
    rw [hput]
    exact ⟨x, List.mem_map.2 ⟨x, hx, if_neg hne⟩, hn⟩
  have hw : ((packet s (dieOf m.lcore) (g % 4)).putGroup (arrived (s.group g) m)).m.wcb = [] := by
    rw [packet_only]
    exact h
  change checkPhase (releaseArrived ((packet s (dieOf m.lcore) (g % 4)).putGroup (arrived ((packet s (dieOf m.lcore) (g % 4)).group g) m)) g) g = _
  rw [hg, releaseArrived_none hw, checkPhase_open hopen]

/-- The arrival of a TPARK leaves a park under way. -/
theorem parking_arrived {s : State} {ev : ParkEvent} (a b : Nat) (x : Group) :
    Parking s ((packet (parkBegun s ev) a b).putGroup x) ev := by
  have hd := packet_dies (parkBegun s ev) a b
  rw [packet_only] at hd ⊢
  exact ⟨rfl, rfl, rfl, rfl, hd, rfl, rfl⟩

theorem withGroup_pass {s : State} {v : Word} {op : GroupOp} (hv : v.toNat < 4096) (hl : groupLost s v.toNat = false)
    (hr : groupRefuses s v.toNat op s.ct.task.taskid = false) (f : Nat → Host.Outcome State Fault Refusal) : withGroup v op s f = f v.toNat := by
  rw [withGroup, if_neg (Nat.not_le.2 hv), hl, hr]
  rfl

/-- The state of a TPARK at a group, once its release is done. -/
def groupParked (g : Nat) (s : State) : State := serveParked (applyGroup (parkNow (.group g (s.group g).phase) s) g .park s.member)

theorem exec_tparkGroup (a : Reg) (s : State) :
    exec (.tparkGroup a) s = park s (s.ct.ord.detctl && phaseBronze s (s.getX a).toNat) (fun k => withGroup (s.getX a) .park s fun _ => k s)
      (groupParked (s.getX a).toNat) := rfl

/-- TPARK at a group whose phase stays open (R103, R361). -/
theorem parkGroup_parks {s : State} {a : Reg} (h : CanPark s) (hlt : (s.getX a).toNat < 4096) (hlost : groupLost s (s.getX a).toNat = false)
    (href : groupRefuses s (s.getX a).toNat .park s.ct.task.taskid = false)
    (hopen : ∃ m ∈ (s.group (s.getX a).toNat).members, m.who.task ≠ s.ct.task.taskid ∧ m.arrived = false) :
    ∃ t p, exec (.tparkGroup a) s = .next t ∧ Held s t p ∧ p.event = .group (s.getX a).toNat (s.group (s.getX a).toNat).phase ∧
      p.pushed = false ∧ ∀ m ∈ (t.group (s.getX a).toNat).members, m.who.task = s.ct.task.taskid → m.arrived = true := by
  generalize hg : (s.getX a).toNat = g at *
  let ev : ParkEvent := .group g (s.group g).phase
  have happly : applyGroup (parkNow ev (released s)) g .park (released s).member =
      (packet (parkBegun s ev) (dieOf s.ct.lcore) (g % 4)).putGroup (arrived (s.group g) (released s).member) := by
    rw [parkNow_released h.calm h.alone]
    exact (applyGroup_park (s := parkBegun s ev) (g := g) (m := (released s).member) h.calm.wcb hopen :)
  have hpark : Parking s (applyGroup (parkNow ev (released s)) g .park (released s).member) ev := happly ▸ parking_arrived _ _ _
  have hgroup : (applyGroup (parkNow ev (released s)) g .park (released s).member).group g = arrived (s.group g) (released s).member := by
    have h1 := group_putGroup (packet (parkBegun s ev) (dieOf s.ct.lcore) (g % 4)) (arrived (s.group g) (released s).member)
    rw [show (arrived (s.group g) (released s).member).id = g from group_id s g] at h1
    rw [happly, h1]
  have hnot : eventOccurred (applyGroup (parkNow ev (released s)) g .park (released s).member) (parkedAs (released s) ev) = false := by
    have hphase := congrArg Group.phase hgroup
    exact decide_eq_false (fun hlt => absurd (hphase ▸ hlt) (Nat.lt_irrefl _))
  obtain ⟨p, hheld, hev, hpu, hgroups⟩ := held_waits hpark h.jobs h.grant hnot
  have hexec : exec (.tparkGroup a) s = .next (serveParked (applyGroup (parkNow ev (released s)) g .park (released s).member)) := by
    have hparked : groupParked g (released s) = serveParked (applyGroup (parkNow ev (released s)) g .park (released s).member) := by
      rw [groupParked, group_congr (s := s) (t := released s) rfl g]
    rw [exec_tparkGroup, hg, ← hparked]
    refine park_next h (fun k => ?_) (by rw [hparked]; exact pushesAtOnce_waits hheld hpu) _
    rw [withGroup_pass (op := .park) (hg ▸ hlt) (hg ▸ hlost) (hg ▸ href)]
  refine ⟨_, p, hexec, hheld, hev, hpu, fun m hm hwho => ?_⟩
  rw [group_congr hgroups, hgroup] at hm
  obtain ⟨k, -, rfl⟩ := List.mem_map.1 hm
  by_cases hk : k.who.task = (released s).member.task
  · rw [if_pos hk]
  · rw [if_neg hk] at hwho
    exact absurd hwho hk

/-- Settles O29: TPARK keeps the task as the one parked record, whose event is then looked for once. -/
theorem taskPark : Obligations.TaskPark := by
  intro s c a lt hv
  refine ⟨fun hi hu i hmem => ?isInstance, fun hi hu h32 => ?illegal, fun hi hq hcalm hp hj hl => ?parks⟩
  case isInstance =>
    have hpark : exec i s = takeTrap { code := Code.resource } s := by
      simp only [List.mem_cons, List.not_mem_nil, or_false] at hmem
      rcases hmem with rfl | rfl | rfl
      · rw [exec_tparkGroup]
        exact park_instance lt hv hi ..
      · change execTparkRing c a s = _
        exact park_instance lt hv hi ..
      · change execTparkTag a s = _
        exact park_instance lt hv hi ..
    rw [hpark]
    exact plainTrap_u s _ hu
  case illegal =>
    have he : exec (.tparkTag a) s = takeTrap { code := Code.illegal } s := by
      refine (withProfile_has lt _).trans ?_
      rw [hv, hi]
      exact if_pos h32
    rw [he]
    exact plainTrap_u s _ hu
  case parks =>
    have h : CanPark s := ⟨lt, hv, hi, hq, hcalm, hp, hj, hl⟩
    dsimp only
    refine ⟨fun g hg hlt hlost href hopen => ?group, fun hring => ?ring, fun hlt hlc hroom hrec => ?tag⟩
    case group =>
      subst hg
      exact parkGroup_parks h hlt hlost href hopen
    case ring =>
      have hpark := parking_begun s (.ring c.toNat (s.getX a))
      have hnot : eventOccurred (parkBegun s (.ring c.toNat (s.getX a))) (parkedAs (released s) (.ring c.toNat (s.getX a))) = false :=
        decide_eq_false (Nat.not_le.2 hring)
      obtain ⟨p, hheld, hev, hpu, -⟩ := held_waits hpark hj hl hnot
      rw [← parkNow_released hcalm hp] at hheld
      exact ⟨_, p, park_next h (fun _ => rfl) (pushesAtOnce_waits hheld hpu) false, hheld, hev, hpu⟩
    case tag =>
      have hpark := parking_begun s (.tag (s.getX a).toNat)
      obtain ⟨p, hheld, hev, hpu⟩ := held_pushed hpark (calm_parkBegun hcalm _) hj hl hrec rfl rfl
      rw [← parkNow_released hcalm hp] at hheld
      have hat : pushesAtOnce (released s) (serveParked (parkNow (.tag (s.getX a).toNat) (released s))) = false := by
        rw [pushesAtOnce, show pushBlocked (released s) (released s).ct.lcore = false from not_pushBlocked hroom]
        rfl
      exact ⟨_, p, park_next h (fun k => if_neg (Nat.not_le.2 hlt)) hat false, hheld, hev, hpu⟩

end Sys2Proof.Laws

/-!
SUPPORT. Making an access ready does not read the continuation of the acting task (R101, R226, R230).
-/

namespace Sys2Proof.Laws

open Sys2Proof.Machine

/-! What makes an access ready does not read the continuation of the acting task (R101). -/

/-- s with another continuation of the acting task. -/
def withCont (c : Option Word) (s : State) : State := s.onTask fun t => { t with cont := c }

/-- Where nothing is in flight, f comes to the same value whatever the continuation of the acting task is, and leaves nothing in flight. -/
def IgnoresCont {α : Type} (f : State → Res α) : Prop :=
  ∀ (c : Option Word) (s t : State) (x : α), Calm s → f s = .ok x t → f (withCont c s) = .ok x (withCont c t) ∧ Calm t

theorem IgnoresCont.andThen {α β : Type} {f : State → Res α} {g : α → State → Res β} (hf : IgnoresCont f) (hg : ∀ a, IgnoresCont (g a)) :
    IgnoresCont fun s => (f s).andThen g := by
  intro c s t x hc h
  dsimp only at h ⊢
  cases hs : f s with
  | ok a u =>
    obtain ⟨hv, hu⟩ := hf c s u a hc hs
    simp only [hs, Res.andThen] at h
    simpa only [hv, Res.andThen] using hg a c u t x hu h
  | trap r u => rw [hs] at h; cases h
  | wait w u => rw [hs] at h; cases h
  | gone u => rw [hs] at h; cases h

theorem ignoresCont_ok {α : Type} (x : α) : IgnoresCont fun s => .ok x s := by
  intro c s t y hc h
  cases h
  exact ⟨rfl, hc⟩

theorem ignoresCont_atHome (pa : Nat) : IgnoresCont (atHome pa) := by
  intro c s t u hc h
  obtain rfl := atHome_ok h
  refine ⟨?_, hc⟩
  unfold atHome at h ⊢
  rw [show lostHome (withCont c t) pa = lostHome t pa from rfl]
  split at h
  · cases h
  next hl =>
    rw [if_neg hl]
    split at h
    next d hd =>
      split at h
      next ht => exact if_pos ht
      next => cases h
    next => rfl

theorem packet_withCont (c : Option Word) (s : State) (a b : Nat) : packet (withCont c s) a b = withCont c (packet s a b) := by
  unfold packet receivePacket State.onDie
  split
  · rfl
  · split <;> rfl

theorem askDie_withCont (c : Option Word) (s : State) (a b : Nat) : askDie (withCont c s) a b = withCont c (askDie s a b) := by
  rw [askDie, askDie, packet_withCont, packet_withCont]

theorem askFrom_withCont (c : Option Word) (h : Nat) : ∀ (ds : List Nat) (s : State), askFrom (withCont c s) h ds = withCont c (askFrom s h ds)
  | [], _ => rfl
  | d :: ds, s => (congrArg (askFrom · h ds) (askDie_withCont c s h d)).trans (askFrom_withCont c h ds (askDie s h d))

theorem askBy_withCont (c : Option Word) (s : State) (b : By) (pa : Nat) : askBy (withCont c s) b pa = withCont c (askBy s b pa) := by
  unfold askBy
  split
  · exact askDie_withCont ..
  · rfl

theorem reached_askBy (s : State) (b : By) (pa : Nat) : Reached s (askBy s b pa) := by
  unfold askBy
  split
  · exact reached_askDie ..
  · exact reached_refl s

theorem calm_withCont {s : State} (h : Calm s) (c : Option Word) : Calm (withCont c s) :=
  calm_of h rfl (fills_nil h :) rfl h.savedFills h.parkedFills

theorem ignoresCont_readPte (b : By) (at_ : Nat) : IgnoresCont fun s => readPte s b at_ := by
  refine (ignoresCont_atHome at_).andThen fun u c s t x hc h => ?_
  have hr := calm_reached hc (reached_askBy s b at_)
  have hw := calm_withCont hr c
  simp only [readHome_calm hr, Res.ok.injEq] at h
  obtain ⟨rfl, rfl⟩ := h
  simp only [askBy_withCont, readHome_calm hw]
  exact ⟨rfl, hr⟩

theorem groupEntry_withCont {s : State} (h : Calm s) (c : Option Word) (b : By) (table idx : Nat) (e : Word) :
    groupEntry (withCont c s) b table idx e =
      ((groupEntry s b table idx e).1, (groupEntry s b table idx e).2.1, withCont c (groupEntry s b table idx e).2.2) := by
  unfold groupEntry
  simp only [readyRead_calm h, readyRead_calm (calm_withCont h c)]
  rw [show (withCont c s).numAt = s.numAt from rfl]
  split <;> rfl

theorem calm_groupEntry {s : State} (h : Calm s) (b : By) (table idx : Nat) (e : Word) : Calm (groupEntry s b table idx e).2.2 := by
  unfold groupEntry
  simp only [readyRead_calm h]
  split
  · exact h
  · exact calm_of h rfl (fills_nil h :) rfl h.savedFills h.parkedFills

theorem ignoresCont_entryAt (b : By) (va : Word) (n table : Nat) : IgnoresCont (entryAt b va n table) := by
  refine (ignoresCont_readPte b _).andThen fun e c s t x hc h => ?_
  split at h
  next hn =>
    cases h
    rw [if_pos hn]
    rw [groupEntry_withCont hc]
    exact ⟨rfl, calm_groupEntry hc ..⟩
  next hn =>
    rw [if_neg hn]
    cases h
    exact ⟨rfl, hc⟩

theorem ignoresCont_walkFrom (b : By) (va : Word) : ∀ (n table : Nat) (deps : List Nat), IgnoresCont (walkFrom b va n table deps)
  | 0, table, deps => (ignoresCont_entryAt b va 0 table).andThen fun p c s t x hc h => by
    cases h
    exact ⟨rfl, hc⟩
  | n + 1, table, deps => (ignoresCont_entryAt b va (n + 1) table).andThen fun p c s t x hc h => by
    rw [show endsWalk (withCont c s) (n + 1) deps p = endsWalk s (n + 1) deps p from rfl]
    split at h
    next w hw =>
      cases h
      exact ⟨rfl, hc⟩
    next hw => exact ignoresCont_walkFrom b va n _ _ c s t x hc h

theorem ignoresCont_lookup (cx : Ctx) (va : Word) : IgnoresCont (lookup cx va) := by
  intro c s t w hc h
  unfold lookup at h ⊢
  rw [show recordLeaf (withCont c s) va = recordLeaf s va from rfl]
  split at h
  next w' hw =>
    cases h
    exact ⟨rfl, hc⟩
  next hw =>
    rw [show (withCont c s).m.tlb = [] from hc.tlb]
    rw [hc.tlb] at h
    exact ignoresCont_walkFrom cx.by_ va 3 _ [] c s t w hc h

/-! The update of A and D (R231). -/

theorem syncStash_calm {s : State} (h : Calm s) (line : Nat) (w : Bool) : syncStash s line w = s := by simp [syncStash, h.slines]

theorem dropTranslations_calm {s : State} (h : Calm s) (d : Nat) (hit : List Nat → Bool) (hitTlb : TlbEntry → Bool) :
    dropTranslations s d hit hitTlb = s := by
  have hs : (s.onMem fun m => { m with tlb := [], early := [] }) = s := by
    rw [State.onMem, show { s.m with tlb := [], early := [] } = s.m by rw [← h.tlb, ← h.early]]
  simp only [dropTranslations, h.tlb, h.early, List.filter_nil, List.map_nil, askFrom, List.foldl_nil, State.onMem]
  change (s.onMem fun m => { m with tlb := [], early := [] }).m.slines.foldl _ (s.onMem fun m => { m with tlb := [], early := [] }) = s
  rw [hs, h.slines, List.foldl_nil]

theorem endHostCopy_calm {s : State} (h : Calm s) (b : By) (line : Nat) : endHostCopy s b line = s := by simp [endHostCopy, h.hostShared]

theorem l1Write_withCont (c : Option Word) (s : State) (k : Hold) (line : Nat) : l1Write (withCont c s) k line = withCont c (l1Write s k line) := by
  have ho : k.others (withCont c s) line = k.others s line := by cases k <;> rfl
  unfold l1Write
  rw [ho, askFrom_withCont]
  rfl

/-- The leaf with A set, and D for a store. -/
def markedLeaf (a : Acc) (e : Word) : Word := e ||| (if a.writes then 0x60 else 0x20)

theorem updateAD_calm {s : State} (h : Calm s) (b : By) (a : Acc) (e : Word) (at_ : Nat) :
    updateAD s b a e at_ =
      if markedLeaf a e = e then some s
      else if (askBy s b at_).numAt at_ 8 ≠ e.toNat then none
      else some ((l1Write (askBy s b at_) .recall (lineOf at_)).setBytes at_ (toBytes 8 (markedLeaf a e).toNat)) := by
  have hr := calm_reached h (reached_askBy s b at_)
  have hw := calm_reached hr (reached_l1Write (askBy s b at_) .recall (lineOf at_))
  simp only [updateAD, readyRead_calm hr, syncStash_calm hr, dropTranslations_calm hr, markSource_calm hr, endHostCopy_calm hw, markEarly_calm hw]
  rfl

theorem updateAD_withCont {s : State} (h : Calm s) (c : Option Word) (b : By) (a : Acc) (e : Word) (at_ : Nat) :
    updateAD (withCont c s) b a e at_ = (updateAD s b a e at_).map (withCont c) := by
  rw [updateAD_calm (calm_withCont h c), updateAD_calm h, askBy_withCont, l1Write_withCont,
    show (withCont c (askBy s b at_)).numAt at_ 8 = (askBy s b at_).numAt at_ 8 from rfl]
  split
  · rfl
  · split <;> rfl

theorem calm_updateAD {s t : State} (h : Calm s) {b : By} {a : Acc} {e : Word} {at_ : Nat} (hu : updateAD s b a e at_ = some t) : Calm t := by
  rw [updateAD_calm h] at hu
  split at hu
  · cases hu
    exact h
  · split at hu
    · cases hu
    · cases hu
      exact calm_setBytes (calm_reached (calm_reached h (reached_askBy ..)) (reached_l1Write ..)) _ _

/-! The access (R176, R226, R230). -/

theorem ignoresCont_useWalk (cx : Ctx) (a : Acc) (va : Word) (w : Walk) {retry : State → Res Place} (hr : IgnoresCont retry) :
    IgnoresCont (useWalk cx a va w retry) := by
  intro c s t p hc h
  unfold useWalk at h ⊢
  cases w with
  | absent n mv => cases h
  | bad n mv => cases h
  | poison n => cases h
  | leaf e at_ n ds =>
    dsimp only at h ⊢
    split at h
    · cases h
    next hp =>
      rw [if_neg hp]
      split at h
      · cases h
      next ha =>
        rw [if_neg ha]
        split at h
        next hspec =>
          cases h
          exact ⟨if_pos hspec, hc⟩
        next hspec =>
          rw [if_neg hspec, updateAD_withCont hc]
          split at h
          next u hu =>
            cases h
            rw [hu]
            exact ⟨rfl, calm_updateAD hc hu⟩
          next hu =>
            rw [hu]
            have htlb : (s.onMem fun m => { m with tlb := m.tlb.filter fun t => t.leafAt != at_ }) = s := by
              have hm : { s.m with tlb := [] } = s.m := by rw [← hc.tlb]
              simp only [State.onMem, hc.tlb, List.filter_nil]
              rw [hm]
            have hset := congrArg (withCont c) htlb
            rw [htlb] at h
            change retry (withCont c (s.onMem fun m => { m with tlb := m.tlb.filter fun t => t.leafAt != at_ })) = _ ∧ _
            rw [hset]
            exact hr c s t p hc h

theorem ignoresCont_translate (cx : Ctx) (a : Acc) (va : Word) : IgnoresCont (Machine.translate cx a va) := by
  have hwait : IgnoresCont fun s => (.wait .memory s : Res Place) := fun c s t p hc h => by cases h
  intro c s t p hc h
  unfold Machine.translate at h ⊢
  split at h
  next hl =>
    rw [if_pos hl]
    dsimp only at h ⊢
    split at h
    · cases h
    next hp =>
      rw [if_neg hp]
      split at h
      · cases h
      next hd =>
        rw [if_neg hd]
        cases h
        exact ⟨rfl, hc⟩
  next hl =>
    rw [if_neg hl]
    exact ((ignoresCont_lookup cx va).andThen fun w => ignoresCont_useWalk cx a va w
      ((ignoresCont_walkFrom cx.by_ va 3 _ []).andThen fun w => ignoresCont_useWalk cx a va w hwait)) c s t p hc h

theorem ignoresCont_enterPlace (cx : Ctx) (a : Acc) (va : Word) (p : Place) : IgnoresCont (enterPlace cx a va p) := by
  have hland : IgnoresCont (landAt a va p) := (ignoresCont_atHome p.pa).andThen fun _ c s t q hc h => by
    rw [checkPoison_none _ _ _ _ hc.poison] at h
    cases h
    exact ⟨checkPoison_none _ _ _ _ hc.poison, hc⟩
  refine hland.andThen fun q c s t r hc h => ?_
  split at h
  next n o hh =>
    rw [stashLine_none _ _ _ _ hc.slines] at h
    cases h
    exact ⟨stashLine_none _ _ _ _ hc.slines, hc⟩
  next hh =>
    cases h
    exact ⟨rfl, hc⟩

theorem ignoresCont_resolve (cx : Ctx) (a : Acc) (va : Word) (n : Nat) : IgnoresCont (resolve cx a va n) := by
  have hglobal := (ignoresCont_translate cx a va).andThen fun p => ignoresCont_enterPlace cx a va p
  intro c s t p hc h
  unfold resolve at h ⊢
  split at h
  next hl =>
    rw [if_pos hl]
    exact hglobal c s t p hc h
  next hl =>
    rw [if_neg hl]
    split at h
    next => exact hglobal c s t p hc h
    next off last h1 h2 =>
      split at h
      next hlt =>
        rw [if_pos hlt]
        exact ignoresCont_enterPlace _ _ _ _ c s t p hc h
      next => cases h
    next slot off slot2 last h1 h2 =>
      dsimp only at h ⊢
      split at h
      next => cases h
      next hs =>
        rw [if_neg hs, show grantedTo (withCont c s) cx = grantedTo s cx from rfl]
        split at h
        next => cases h
        next hg =>
          rw [if_neg hg]
          exact ignoresCont_enterPlace _ _ _ _ c s t p hc h
    next => cases h

theorem ignoresCont_resolveAligned (cx : Ctx) (a : Acc) (va : Word) (n : Nat) : IgnoresCont (resolveAligned cx a va n) := by
  intro c s t p hc h
  unfold resolveAligned at h ⊢
  split at h
  · cases h
  next ha =>
    rw [if_neg ha]
    exact ignoresCont_resolve cx a va n c s t p hc h

end Sys2Proof.Laws

/-!
SUPPORT. The word CTL, numbers in memory, and the states that loads and stores of a task step lead to (R100, R359).
-/

namespace Sys2Proof.Laws

open Sys2Proof.Machine

/-! Fields of the word CTL (R100). -/

theorem getLsbD_putBits {m : Nat} (v : BitVec m) (lo n x i : Nat) (hi : i < m) :
    (putBits v lo n x).getLsbD i = if lo ≤ i ∧ i < lo + n then x.testBit (i - lo) else v.getLsbD i := by
  have hmask : ((BitVec.ofNat m (2 ^ n - 1)) <<< lo).getLsbD i = decide (lo ≤ i ∧ i < lo + n) := by
    rw [BitVec.getLsbD_shiftLeft, BitVec.getLsbD_ofNat, Nat.testBit_two_pow_sub_one]
    by_cases h : i < lo
    · simp [h]
    · simp [hi, h, show i - lo < m by omega, show lo ≤ i by omega, show (i - lo < n ↔ i < lo + n) by omega]
  have hval : ((BitVec.ofNat m (x % 2 ^ n)) <<< lo).getLsbD i = (decide (lo ≤ i ∧ i < lo + n) && x.testBit (i - lo)) := by
    rw [BitVec.getLsbD_shiftLeft, BitVec.getLsbD_ofNat, Nat.testBit_mod_two_pow]
    by_cases h : i < lo
    · simp [h]
    · simp [hi, h, show i - lo < m by omega, show lo ≤ i by omega, show (i - lo < n ↔ i < lo + n) by omega]
  unfold putBits
  simp only [BitVec.getLsbD_or, BitVec.getLsbD_and, BitVec.getLsbD_not, hmask, hval, hi, decide_true, Bool.true_and]
  by_cases h : lo ≤ i ∧ i < lo + n
  · simp [h]
  · simp [h]

/-- The low bits of a word after they have been replaced. -/
theorem putBits_low (v : Word) (x : Nat) : (putBits v 0 16 x).toNat % 2 ^ 16 = x % 2 ^ 16 := by
  refine Nat.eq_of_testBit_eq fun i => ?_
  rw [Nat.testBit_mod_two_pow, Nat.testBit_mod_two_pow]
  by_cases h : i < 16
  · have hb := getLsbD_putBits v 0 16 x i (by omega)
    rw [if_pos ⟨Nat.zero_le i, by omega⟩] at hb
    exact congrArg (decide (i < 16) && ·) hb
  · simp [h]

/-- A field above bit 15 leaves the low bits as they are. -/
theorem putBits_high (v : Word) {lo : Nat} (n x : Nat) (hlo : 16 ≤ lo) : (putBits v lo n x).toNat % 2 ^ 16 = v.toNat % 2 ^ 16 := by
  refine Nat.eq_of_testBit_eq fun i => ?_
  rw [Nat.testBit_mod_two_pow, Nat.testBit_mod_two_pow]
  by_cases h : i < 16
  · have hb := getLsbD_putBits v lo n x i (by omega)
    rw [if_neg (by omega)] at hb
    exact congrArg (decide (i < 16) && ·) hb
  · simp [h]

/-- A field read back. -/
theorem natBits_putBits (v : Word) {lo n : Nat} (x : Nat) (h : lo + n ≤ 64) : natBits (putBits v lo n x).toNat lo n = x % 2 ^ n := by
  refine Nat.eq_of_testBit_eq fun i => ?_
  rw [natBits, Nat.testBit_mod_two_pow, Nat.testBit_mod_two_pow, Nat.testBit_shiftRight]
  by_cases hi : i < n
  · have hb := getLsbD_putBits v lo n x (lo + i) (by omega)
    rw [if_pos ⟨by omega, by omega⟩, Nat.add_sub_cancel_left] at hb
    exact congrArg (decide (i < n) && ·) hb
  · simp [hi]

theorem toSigned_mod (n v : Nat) : toSigned n (v % 2 ^ n) = toSigned n v := by simp only [toSigned, Nat.mod_mod]

/-- A distance within reach is read back from 16 bits. -/
theorem toSigned_wrapN {d : Int} (h : inReach d = true) : toSigned 16 (wrapN 16 d) = d := by
  simp only [inReach, Bool.and_eq_true, decide_eq_true_eq] at h
  obtain ⟨h1, h2⟩ := h
  simp only [toSigned, wrapN, show (2 : Nat) ^ 16 = 65536 from rfl, show (2 : Nat) ^ (16 - 1) = 32768 from rfl]
  split <;> omega

/-- CTL with its continuation at a distance within reach. -/
theorem parse_cont {v : Word} {d : Int} (h : inReach d = true) : (Ctl.parse (putBits v 0 16 (wrapN 16 d)).toNat).cont = d := by
  change toSigned 16 (putBits v 0 16 (wrapN 16 d)).toNat = d
  rw [← toSigned_mod, putBits_low, toSigned_mod, toSigned_wrapN h]

/-- CTL with its continuation at a distance within reach, and a slot. -/
theorem parse_cont_slot {v : Word} {d : Int} (h : inReach d = true) (k : Nat) :
    (Ctl.parse (putBits (putBits v 0 16 (wrapN 16 d)) 55 3 k).toNat).cont = d ∧
      (Ctl.parse (putBits (putBits v 0 16 (wrapN 16 d)) 55 3 k).toNat).slot = k % 8 := by
  constructor
  · change toSigned 16 (putBits (putBits v 0 16 (wrapN 16 d)) 55 3 k).toNat = d
    rw [← toSigned_mod, putBits_high _ _ _ (by decide), putBits_low, toSigned_mod, toSigned_wrapN h]
  · exact natBits_putBits _ _ (by decide)

/-! Numbers in memory. -/

theorem leNat_toBytes : ∀ n v : Nat, leNat (toBytes n v) = v % 256 ^ n
  | 0, v => by simp [toBytes, leNat, Nat.mod_one]
  | n + 1, v => by
    rw [toBytes, leNat, leNat_toBytes n, BitVec.toNat_ofNat, show 256 ^ (n + 1) = 256 * 256 ^ n from Nat.pow_succ', Nat.mod_mul]

theorem bytes_eq_toBytes (m : List Host.Cell) : ∀ (n pa v : Nat), (∀ k, k < n → Memory.byte m (pa + k) = BitVec.ofNat 8 (v / 256 ^ k)) →
    Memory.bytes m pa n = toBytes n v
  | 0, _, _, _ => rfl
  | n + 1, pa, v, h => by
    have h0 := h 0 (Nat.succ_pos n)
    rw [Nat.add_zero, Nat.pow_zero, Nat.div_one] at h0
    rw [Memory.bytes, toBytes, h0, bytes_eq_toBytes m n (pa + 1) (v / 256) fun k hk => ?_]
    rw [Nat.add_assoc, Nat.add_comm 1 k, h (k + 1) (by omega), Nat.pow_succ', Nat.div_div_eq_div_mul]

/-- The number that has been written. -/
theorem numAt_bytesSet {s t : State} {pa n v : Nat} (h : BytesSet s t pa n v) : t.numAt pa n = v % 256 ^ n := by
  rw [State.numAt, State.bytesAt, bytes_eq_toBytes _ _ _ _ h.1, leNat_toBytes]

theorem numAt_congr {s t : State} {pa n : Nat} (h : ∀ k, k < n → t.byteAt (pa + k) = s.byteAt (pa + k)) : t.numAt pa n = s.numAt pa n :=
  congrArg leNat (bytes_congr n _ _ pa h)

/-! Loads and stores of a spawn (R359). -/

theorem scalarLoad_place {s : State} (h : Calm s) {va : Word} {p : Place}
    (hr : resolveAligned s.ctx { kind := 1, plain := true } va 8 s = .ok p s) (hd : homeOf p.pa ≠ .device) :
    ∃ u, Reached s u ∧ scalarLoad s va 8 = .ok (s.numAt p.pa 8) u := by
  refine ⟨_, reached_l1Read s (true && p.cached) s.ct.lcore p.pa, ?_⟩
  rw [scalarLoad, hr]
  simp only [Res.mapTrap, Res.andThen]
  rw [loadNum, loadBytes_calm h]
  rfl

theorem scalarStore_place {s : State} (h : Calm s) (hdet : s.ct.ord.detctl = false) (hdef : s.sched.deferStores = false) {va : Word} {p : Place}
    (hr : resolveAligned s.ctx { kind := 2, plain := true } va 8 s = .ok p s) (hd : homeOf p.pa ≠ .device) (v : Nat) :
    ∃ u, Reached s u ∧ scalarStore s va 8 v = .ok () (u.setBytes p.pa (toBytes 8 v)) := by
  obtain ⟨u, hu, hs⟩ := plainStore_calm h hdet hdef true p va (toBytes 8 v)
  refine ⟨u, hu, ?_⟩
  rw [scalarStore, hr]
  simp only [Res.mapTrap, Res.andThen, hs]

/-- t is s after loads and stores: bytes, line holders, causal counters and the continuation of the acting task may have changed. -/
def Touched (s t : State) : Prop :=
  (∃ (c : Option Word) (mem : List Host.Cell) (own cop : List (Nat × Nat)) (cxl : List Nat) (ds : Vector Die 4),
    t = { withCont c s with m := { s.m with mem := mem, owners := own, copies := cop, cxlHeld := cxl }, dies := ds }) ∧ SameDies s t

theorem touched_reached {s t : State} (h : Reached s t) : Touched s t := ⟨⟨s.ct.task.cont, s.m.mem, _, _, _, _, h.1⟩, h.2⟩

theorem Touched.trans {s t u : State} (h : Touched s t) (k : Touched t u) : Touched s u := by
  obtain ⟨⟨c, mem, own, cop, cxl, ds, rfl⟩, hd⟩ := h
  obtain ⟨⟨c', mem', own', cop', cxl', ds', rfl⟩, kd⟩ := k
  exact ⟨⟨c', mem', own', cop', cxl', ds', rfl⟩, sameDies_trans hd kd⟩

theorem Touched.setBytes {s t : State} (h : Touched s t) (pa : Nat) (bs : List Byte) : Touched s (t.setBytes pa bs) := by
  obtain ⟨⟨c, mem, own, cop, cxl, ds, rfl⟩, hd⟩ := h
  exact ⟨⟨c, _, own, cop, cxl, ds, rfl⟩, hd⟩

theorem Touched.withCont {s t : State} (h : Touched s t) (c : Option Word) : Touched s (withCont c t) := by
  obtain ⟨⟨c', mem, own, cop, cxl, ds, rfl⟩, hd⟩ := h
  exact ⟨⟨c, mem, own, cop, cxl, ds, rfl⟩, hd⟩

theorem Touched.calm {s t : State} (h : Touched s t) (hc : Calm s) : Calm t := by
  obtain ⟨⟨c, mem, own, cop, cxl, ds, rfl⟩, -⟩ := h
  exact calm_of hc rfl (fills_nil hc :) rfl hc.savedFills hc.parkedFills

/-- What a ready access asks of the states in between. -/
theorem Touched.along {s t : State} (h : Touched s t) (hc : t.ct.task.cont = s.ct.task.cont) {may : Nat → Prop}
    (hb : ∀ a, ¬ may a → t.byteAt a = s.byteAt a) : Along may s t := by
  obtain ⟨⟨c, mem, own, cop, cxl, ds, rfl⟩, hd⟩ := h
  change c = s.ct.task.cont at hc
  subst hc
  exact ⟨⟨s.ct.x, s.ct.vec, s.ct.fp, s.ct.ord, s.ct.ctl, mem, own, cop, s.m.races, cxl, ds, s.fresh, rfl⟩, fun d => (congrArg Die.fenced (hd d) :), hb⟩

end Sys2Proof.Laws

/-!
SUPPORT. TSPAWN (R101, R359): its links, its push, and O27.
-/

namespace Sys2Proof.Laws

open Sys2Proof.Machine

/-- A state in which TSPAWN has only its record to check: nothing is in flight, stores perform at once, and the core's deque has room. -/
structure CanSpawn (s : State) (a b : Reg) : Prop where
  profile : s.has .lt = true
  quiet : vecQuiet s = true
  calm : Calm s
  wf : Memory.wf s.m.mem = true
  silver : s.ct.ord.detctl = false
  prompt : s.sched.deferStores = false
  core : s.ct.lcore < 128
  record : (s.getX a).toNat % 64 = 0
  cont : (s.getX b).toNat % 64 = 0
  room : hwCount (s.core s.ct.lcore) < 64

/-- A ready load after loads and stores. -/
theorem ready_load {may : Nat → Prop} {s t : State} {va : Word} {pa : Nat} (h : Calm s) (hr : Ready may s { kind := 1, plain := true } va 8 pa)
    (ht : Touched s t) (hcont : t.ct.task.cont = s.ct.task.cont) (hb : ∀ a, ¬ may a → t.byteAt a = s.byteAt a) :
    ∃ u, Reached t u ∧ scalarLoad t va 8 = .ok (t.numAt pa 8) u := by
  obtain ⟨p, rfl, hp⟩ := hr.1 t (ht.along hcont hb)
  exact scalarLoad_place (ht.calm h) hp hr.2

/-- A ready store after loads and stores, whatever the continuation has become. -/
theorem ready_store {may : Nat → Prop} {s t : State} {a b : Reg} {va : Word} {pa : Nat} (h : CanSpawn s a b)
    (hr : Ready may s { kind := 2, plain := true } va 8 pa)
    (ht : Touched s t) (hcont : t.ct.task.cont = s.ct.task.cont) (hb : ∀ a, ¬ may a → t.byteAt a = s.byteAt a)
    (hwf : Memory.wf t.m.mem = true) (c : Option Word) (v : Nat) :
    ∃ u, Touched s u ∧ u.ct.task = { t.ct.task with cont := c } ∧ BytesSet t u pa 8 v ∧ Memory.wf u.m.mem = true ∧
      scalarStore (withCont c t) va 8 v = .ok () u := by
  obtain ⟨p, rfl, hp⟩ := hr.1 t (ht.along hcont hb)
  have hc := ht.calm h.calm
  obtain ⟨hpc, -⟩ := ignoresCont_resolveAligned _ _ _ _ c t t p hc hp
  have htc := ht.withCont c
  have hd : (withCont c t).ct.ord.detctl = false ∧ (withCont c t).sched.deferStores = false := by
    obtain ⟨⟨c', mem, own, cop, cxl, ds, rfl⟩, -⟩ := ht
    exact ⟨h.silver, h.prompt⟩
  obtain ⟨u, hu, hs⟩ := scalarStore_place (calm_withCont hc c) hd.1 hd.2 hpc hr.2 v
  have hmem : u.m.mem = t.m.mem := by rw [hu.1]; rfl
  have hwfu : Memory.wf u.m.mem = true := hmem ▸ hwf
  refine ⟨_, (htc.trans (touched_reached hu)).setBytes _ _, ?_, ?_, wf_setBytes u _ _ hwfu, hs⟩
  · exact congrArg Thread.task (reached_ct hu)
  · obtain ⟨h1, h2⟩ := bytesSet_setBytes u p.pa 8 v hwfu
    exact ⟨h1, fun a ha => (h2 a ha).trans (congrArg (Memory.byte · a) hmem)⟩

/-! The push of a spawn (R101). -/

theorem nameCont_only (s : State) (cont key : Word) :
    nameCont s cont key = { s with pkg := { s.pkg with contKeys := (nameCont s cont key).pkg.contKeys } } := by
  unfold nameCont
  split <;> rfl

theorem chunkAdd_only (s : State) (c : Option Nat) : chunkAdd s c = { s with pkg := { s.pkg with chunks := (chunkAdd s c).pkg.chunks } } := by
  cases c <;> rfl

/-- The state of a spawn before its push: the continuation has its key, the chunk one record more, and the task one spawn more. -/
def spawnNamed (cont : Word) (s : State) : State :=
  (chunkAdd (nameCont s cont (mix s.ct.task.lkey (BitVec.ofNat 64 (2 * s.ct.task.spawns + 2)))) s.ct.task.chunk).onTask fun t =>
    { t with spawns := t.spawns + 1 }

theorem spawnNamed_only (cont : Word) (s : State) :
    spawnNamed cont s = { s.onTask fun t => { t with spawns := t.spawns + 1 } with
      pkg := { s.pkg with chunks := (spawnNamed cont s).pkg.chunks, contKeys := (spawnNamed cont s).pkg.contKeys } } := by
  unfold spawnNamed
  rw [chunkAdd_only, nameCont_only]
  rfl

/-- The key of a record that the task spawns. -/
def spawnKey (s : State) : Word := mix s.ct.task.lkey (BitVec.ofNat 64 (2 * s.ct.task.spawns + 1))

/-- What a spawn pushes. -/
def spawnedRecord (tr : Word) (s : State) : Startable := .record tr s.ct.task.chunk s.ct.sup.troot (spawnKey s) none

theorem spawnPush_eq (tr cont : Word) (prio : Nat) (s : State) :
    spawnPush tr cont prio s = pushEntry (spawnNamed cont s) s.ct.lcore prio (spawnedRecord tr s) false := by
  have hct : (spawnNamed cont s).ct = (s.onTask fun t => { t with spawns := t.spawns + 1 }).ct := by rw [spawnNamed_only]
  have h : spawnPush tr cont prio s = pushEntry (spawnNamed cont s) (spawnNamed cont s).ct.lcore prio
    (.record tr s.ct.task.chunk (spawnNamed cont s).ct.sup.troot (spawnKey s) none) false := rfl
  rw [h, hct]
  rfl

/-- t is s after TSPAWN has pushed a record in a class: the statement's frame. -/
def SpawnPushed (s : State) (tr : Word) (prio : Nat) (t : State) : Prop := ∃ key born,
  (t.core s.ct.lcore).deques.toList.getD prio [] =
    (s.core s.ct.lcore).deques.toList.getD prio [] ++ [⟨.record tr s.ct.task.chunk s.ct.sup.troot key none, false, false, born⟩] ∧
  (∀ k, k ≠ prio → (t.core s.ct.lcore).deques.toList.getD k [] = (s.core s.ct.lcore).deques.toList.getD k []) ∧
  (∀ k, k ≠ s.ct.lcore → t.core k = s.core k) ∧ SameDies s t ∧
  t = { s.accessed t with
    ct := { s.ct with
      pc := s.ct.pc + 4
      task := { s.ct.task with spawns := s.ct.task.spawns + 1, cont := t.ct.task.cont }
      ord := { s.ct.ord with fenceIvl := s.ct.ord.fenceIvl + 1 }
      ctl := { s.ct.ctl with wait := .none } }
    cores := t.cores
    m := { (s.accessed t).m with mem := t.m.mem, races := s.m.races.filter fun r => r.2 != s.ct.lcore }
    pkg := { s.pkg with chunks := t.pkg.chunks, contKeys := t.pkg.contKeys, idCtr := t.pkg.idCtr } }

/-- The push of a spawn after its loads and stores. -/
theorem spawnPush_pushed {s t : State} (ht : Touched s t) (hlc : s.ct.lcore < 128) (hroom : hwCount (s.core s.ct.lcore) < 64) (tr cont : Word)
    {prio : Nat} (hp : prio < 4) :
    ∃ w, (spawnPush tr cont prio (released t)).advance = w ∧ SpawnPushed s tr prio w ∧ w.m.mem = t.m.mem ∧ w.ct.task.cont = t.ct.task.cont := by
  obtain ⟨⟨c, mem, own, cop, cxl, ds, rfl⟩, hd⟩ := ht
  generalize htd : ({ withCont c s with m := { s.m with mem := mem, owners := own, copies := cop, cxlHeld := cxl }, dies := ds } : State) = t at hd ⊢
  have hcores : (spawnNamed cont (released t)).cores = s.cores := by rw [spawnNamed_only, ← htd]; rfl
  have hlt : (released t).ct.lcore = s.ct.lcore := by rw [← htd]; rfl
  have hwhat : spawnedRecord tr (released t) = spawnedRecord tr s := by rw [← htd]; rfl
  have hroom' : hwCount ((spawnNamed cont (released t)).core s.ct.lcore) < 64 := by rwa [core_congr hcores]
  have heq := congrArg State.advance (spawnPush_eq tr cont prio (released t))
  rw [hlt, hwhat] at heq
  obtain ⟨hpush, hothers, hrest⟩ := pushEntry_pushed hlc hroom' hp (spawnedRecord tr s) false
  rw [core_congr hcores] at hpush hothers
  refine ⟨_, heq, ⟨spawnKey s, (spawnNamed cont (released t)).pkg.idCtr, (hpush :), hothers,
    fun k hk => (hrest k hk).trans (core_congr hcores k), ?_, ?_⟩, ?_, ?_⟩
  · rw [pushEntry_only, spawnNamed_only]
    exact hd
  · rw [pushEntry_only, spawnNamed_only, ← htd]
    rfl
  · rw [pushEntry_only, spawnNamed_only]
    rfl
  · rw [pushEntry_only, spawnNamed_only]
    rfl

/-! TSPAWN (R359). -/

/-- What TSPAWN does once it has read CTL. -/
def spawnChecked (tr cont : Word) (v : Nat) (s : State) : Res Unit :=
  let c := Ctl.parse v
  if 8 < c.accmin ∨ 5 < c.slot ∨ (cont ≠ 0 ∧ !contReachable s tr cont) ∨ pushBlocked s s.ct.lcore then .trap { code := Code.resource } s
  else
    (if cont = 0 then .ok () s else linkRecords tr cont (BitVec.ofNat 64 v) s).andThen fun _ s =>
      .ok () ((spawnPush tr cont c.prio (releaseAll s)).advance)

theorem exec_tspawn {s u : State} {a b : Reg} {v : Nat} (h : CanSpawn s a b) (hl : scalarLoad s (s.getX a + 0x38) 8 = .ok v u) :
    exec (.tspawn a b) s = finish (spawnChecked (s.getX a) (s.getX b) v u) := by
  change execTspawn a b s = _
  have ha := h.record
  have hb := h.cont
  rw [execTspawn, withProfile_has h.profile, if_neg (by omega), h.quiet, hl]
  rfl

/-- A record that R101 refuses. -/
theorem spawnChecked_refused {tr cont : Word} {v : Nat} {s : State} (h : 8 < (Ctl.parse v).accmin ∨ 5 < (Ctl.parse v).slot) :
    spawnChecked tr cont v s = .trap { code := Code.resource } s := if_pos (h.elim .inl fun h => .inr (.inl h))

/-- A record that R101 accepts, on a core with room: its links are stored, and it is pushed. -/
theorem spawnChecked_accepted {tr cont : Word} {v : Nat} {s t : State} (ha : (Ctl.parse v).accmin ≤ 8) (hs : (Ctl.parse v).slot ≤ 5)
    (hr : cont ≠ 0 → contReachable s tr cont = true) (hroom : hwCount (s.core s.ct.lcore) < 64) (ht : Calm t)
    (hl : (if cont = 0 then .ok () s else linkRecords tr cont (BitVec.ofNat 64 v) s) = .ok () t) :
    spawnChecked tr cont v s = .ok () ((spawnPush tr cont (Ctl.parse v).prio (released t)).advance) := by
  have hno : ¬ (8 < (Ctl.parse v).accmin ∨ 5 < (Ctl.parse v).slot ∨ (cont ≠ 0 ∧ !contReachable s tr cont) ∨ pushBlocked s s.ct.lcore) := by
    rintro (h | h | ⟨h, hn⟩ | h)
    · omega
    · omega
    · simp [hr h] at hn
    · simp [not_pushBlocked hroom] at h
  rw [spawnChecked, if_neg hno, hl]
  change Res.ok () ((spawnPush tr cont (Ctl.parse v).prio (releaseAll t)).advance) = _
  rw [releaseAll_calm ht, released]

/-- The links of a record spawned by a task without a continuation. -/
theorem linkRecords_none {s : State} (h : s.ct.task.cont = none) (tr cont ctl : Word) :
    linkRecords tr cont ctl s = scalarStore s (tr + 0x38) 8 (putBits ctl 0 16 (wrapN 16 (recDistance cont tr))).toNat := by
  rw [linkRecords, h]
  rfl

/-- CTL of a continuation that takes over the task's own, with the slot that the task delivers to. -/
def takenOver (s : State) (cont cc : Word) (v : Nat) : Word := putBits (putBits (BitVec.ofNat 64 v) 0 16 (wrapN 16 (recDistance cc cont))) 55 3 s.ct.task.slot

/-- The links of a record spawned by a task with a continuation, which moves to the record named. -/
theorem linkRecords_some {s u w : State} {cc : Word} {tr cont ctl : Word} {v : Nat} (h : s.ct.task.cont = some cc)
    (hl : scalarLoad s (cont + 0x38) 8 = .ok v u) (hs : scalarStore u (cont + 0x38) 8 (takenOver u cont cc v).toNat = .ok () w) :
    linkRecords tr cont ctl s = scalarStore (withCont none w) (tr + 0x38) 8 (putBits ctl 0 16 (wrapN 16 (recDistance cont tr))).toNat := by
  rw [linkRecords, h]
  dsimp only
  rw [hl]
  change ((scalarStore u (cont + 0x38) 8 (takenOver u cont cc v).toNat).andThen _).andThen _ = _
  rw [hs]
  rfl

/-- The end of a spawn that stores its links. -/
theorem spawn_pushes {s u t : State} {a b : Reg} {v : Nat} (h : CanSpawn s a b) (hacc : (Ctl.parse v).accmin ≤ 8) (hslot : (Ctl.parse v).slot ≤ 5)
    (hr : s.getX b ≠ 0 → contReachable s (s.getX a) (s.getX b) = true) (hu : Reached s u)
    (hl : scalarLoad s (s.getX a + 0x38) 8 = .ok v u) (ht : Touched s t)
    (hlink : (if s.getX b = 0 then .ok () u else linkRecords (s.getX a) (s.getX b) (BitVec.ofNat 64 v) u) = .ok () t) :
    ∃ w, exec (.tspawn a b) s = .next w ∧ SpawnPushed s (s.getX a) (Ctl.parse v).prio w ∧ w.m.mem = t.m.mem ∧ w.ct.task.cont = t.ct.task.cont := by
  have hru : s.getX b ≠ 0 → contReachable u (s.getX a) (s.getX b) = true := by rw [contReachable, reached_ct hu]; exact hr
  have hroomu : hwCount (u.core u.ct.lcore) < 64 := by rw [reached_ct hu, core_congr (reached_cores hu)]; exact h.room
  obtain ⟨w, hw, hpushed, hmem, hcont⟩ := spawnPush_pushed ht h.core h.room (s.getX a) (s.getX b) (prio := (Ctl.parse v).prio)
    (Nat.mod_lt _ (by decide))
  refine ⟨w, ?_, hpushed, hmem, hcont⟩
  rw [exec_tspawn h hl, spawnChecked_accepted hacc hslot hru hroomu (ht.calm h.calm) hlink, hw]
  rfl

/-- Bytes apart from those stored. -/
theorem bytesSet_outside {s t : State} {pa n v : Nat} (h : BytesSet s t pa n v) {may : Nat → Prop} (hm : ∀ x, pa ≤ x ∧ x < pa + n → may x)
    (a : Nat) (ha : ¬ may a) : t.byteAt a = s.byteAt a :=
  h.2 a (by by_contra hn; exact ha (hm a (by omega)))

theorem reached_bytes {s u : State} (h : Reached s u) (a : Nat) : u.byteAt a = s.byteAt a := by rw [h.1]; rfl

theorem withCont_self {s : State} {c : Option Word} (h : s.ct.task.cont = c) : withCont c s = s := by
  subst h
  rfl

/-- Bytes set, seen from states with the same bytes. -/
theorem bytesSet_congr {s t s' t' : State} {pa n v : Nat} (h : BytesSet s t pa n v) (hs : ∀ a, s.byteAt a = s'.byteAt a)
    (ht : ∀ a, t'.byteAt a = t.byteAt a) : BytesSet s' t' pa n v :=
  ⟨fun k hk => (ht _).trans (h.1 k hk), fun a ha => (ht a).trans ((h.2 a ha).trans (hs a))⟩

/-- A word that has been stored. -/
theorem numAt_word {s t : State} {pa : Nat} {v : Word} (h : BytesSet s t pa 8 v.toNat) : t.numAt pa 8 = v.toNat :=
  (numAt_bytesSet h).trans (Nat.mod_eq_of_lt v.isLt)

/-- The distances that a continuation within reach keeps. -/
theorem contReachable_some {s : State} {tr cont cc : Word} (hc : s.ct.task.cont = some cc) (h : contReachable s tr cont = true) :
    inReach (recDistance cont tr) = true ∧ inReach (recDistance cc cont) = true := by
  rw [contReachable, hc] at h
  simp only [Bool.and_eq_true] at h
  obtain ⟨⟨-, h1⟩, h2⟩ := h
  exact ⟨h1, h2⟩

/-- A trap after accesses, as the statement says it. -/
theorem plainTrap_reached {s u t : State} {code : BitVec 8} (hu : Reached s u) (ht : PlainTrap u t code) :
    PlainTrap (s.accessed t) t code ∧ SameDies s t := by
  have hm : s.accessed t = u := by
    rw [show t = _ from ht]
    exact hu.1.symm
  refine ⟨by rw [hm]; exact ht, ?_⟩
  rw [show t = _ from ht]
  exact hu.2

/-- The two words CTL that the links of a spawn may change. -/
def linkBytes (pc pk x : Nat) : Prop := (pc ≤ x ∧ x < pc + 8) ∨ (pk ≤ x ∧ x < pk + 8)

/-- What the stores of a spawn leave where the task has a continuation, which moves to the record named. -/
theorem linkRecords_moves {s u : State} {a b : Reg} {tr cont cc : Word} {pc pk : Nat} (h : CanSpawn s a b) (hn : s.ct.task.cont = some cc)
    (hu : Reached s u) (hap : ∀ x, pk ≤ x ∧ x < pk + 8 → x < pc ∨ pc + 8 ≤ x)
    (hwr : Ready (linkBytes pc pk) s { kind := 2, plain := true } (tr + 0x38) 8 pc)
    (hrk : Ready (linkBytes pc pk) s { kind := 1, plain := true } (cont + 0x38) 8 pk)
    (hwk : Ready (linkBytes pc pk) s { kind := 2, plain := true } (cont + 0x38) 8 pk) (ctl : Word) :
    ∃ t, linkRecords tr cont ctl u = .ok () t ∧ Touched s t ∧ t.ct.task.cont = none ∧
      t.numAt pk 8 = (takenOver s cont cc (s.numAt pk 8)).toNat ∧
      t.numAt pc 8 = (putBits ctl 0 16 (wrapN 16 (recDistance cont tr))).toNat ∧ ∀ x, ¬ linkBytes pc pk x → t.byteAt x = s.byteAt x := by
  have htu := touched_reached hu
  have hcu : u.ct.task.cont = some cc := by rw [reached_ct hu, hn]
  obtain ⟨r, hr, hload⟩ := ready_load h.calm hrk htu (hcu.trans hn.symm) fun x _ => reached_bytes hu x
  have hsr := reached_trans hu hr
  have hcr : r.ct.task.cont = some cc := by rw [reached_ct hsr, hn]
  have hwfr : Memory.wf r.m.mem = true := by rw [hsr.1]; exact h.wf
  have hnum : u.numAt pk 8 = s.numAt pk 8 := numAt_congr fun k _ => reached_bytes hu _
  have hover : takenOver r cont cc (u.numAt pk 8) = takenOver s cont cc (s.numAt pk 8) := by
    rw [hnum, takenOver, takenOver, reached_ct hsr]
  obtain ⟨w, hw, htask, hset, hwfw, hstore⟩ := ready_store h hwk (touched_reached hsr) (hcr.trans hn.symm)
    (fun x _ => reached_bytes hsr x) hwfr (some cc) (takenOver r cont cc (u.numAt pk 8)).toNat
  rw [withCont_self hcr] at hstore
  have hcw : w.ct.task.cont = some cc := by rw [htask]
  have hsw (x : Nat) (hx : ¬ linkBytes pc pk x) : w.byteAt x = s.byteAt x :=
    (bytesSet_outside hset (fun _ => .inr) x hx).trans (reached_bytes hsr x)
  obtain ⟨t, ht, htask', hset', -, hstore'⟩ := ready_store h hwr hw (hcw.trans hn.symm) hsw hwfw none
    (putBits ctl 0 16 (wrapN 16 (recDistance cont tr))).toNat
  refine ⟨t, (linkRecords_some hcu hload hstore).trans hstore', ht, by rw [htask'], ?_, numAt_word hset',
    fun x hx => (bytesSet_outside hset' (fun _ => .inl) x hx).trans (hsw x hx)⟩
  rw [← hover, ← numAt_word hset]
  exact numAt_congr fun k hk => hset'.2 _ (hap _ (by omega))

/-- Settles O27: the loads and stores of a spawn are ready whatever the continuation has become, and its push is a push with room. -/
theorem taskSpawn : Obligations.TaskSpawn := by
  intro s a b pc lt hq hcalm hwf hdet hdef hlc ha hb hroom tr cont c pushed pk hpk may hrd hwr
  have h : CanSpawn s a b := ⟨lt, hq, hcalm, hwf, hdet, hdef, hlc, ha, hb, hroom⟩
  obtain ⟨u, hu, hl⟩ := ready_load hcalm hrd (touched_reached (reached_refl s)) rfl fun _ _ => rfl
  have htu := touched_reached hu
  have hcontu : u.ct.task.cont = s.ct.task.cont := by rw [reached_ct hu]
  have hwfu : Memory.wf u.m.mem = true := by rw [hu.1]; exact hwf
  refine ⟨fun hbad hu' => ?refused, fun hacc hslot h0 => ?alone, fun hacc hslot h0 hr hn => ?linked, fun cc hacc hslot h0 hr hn hrk hwk => ?moved⟩
  case refused =>
    have hlevel : u.ct.level = .u := by rw [reached_ct hu]; exact hu'
    obtain ⟨t, ht, htrap⟩ := plainTrap_u u Code.resource hlevel
    refine ⟨t, ?_, plainTrap_reached hu htrap⟩
    rw [exec_tspawn h hl, spawnChecked_refused hbad]
    exact ht
  case alone =>
    obtain ⟨w, hw, hp, hmem, hcont⟩ := spawn_pushes h hacc hslot (fun hne => absurd h0 hne) hu hl htu (if_pos h0)
    exact ⟨w, hw, hp, fun x => (congrArg (Memory.byte · x) hmem).trans (reached_bytes hu x), hcont.trans hcontu⟩
  case linked =>
    obtain ⟨t, ht, htask, hset, -, hs⟩ := ready_store h hwr htu hcontu (fun x _ => reached_bytes hu x) hwfu none
      (putBits (BitVec.ofNat 64 (s.numAt pc 8)) 0 16 (wrapN 16 (recDistance cont tr))).toNat
    rw [withCont_self (hcontu.trans hn)] at hs
    obtain ⟨w, hw, hp, hmem, hcont⟩ := spawn_pushes h hacc hslot (fun _ => hr) hu hl ht
      ((if_neg h0).trans ((linkRecords_none (hcontu.trans hn) ..).trans hs))
    exact ⟨w, hw, hp, by rw [hcont, htask], bytesSet_congr hset (reached_bytes hu) fun x => congrArg (Memory.byte · x) hmem⟩
  case moved =>
    obtain ⟨t, hlink, ht, hnone, hnk, hnc, hout⟩ := linkRecords_moves h hn hu (fun x hx => by have hx' := hpk x; omega) hwr hrk hwk
      (BitVec.ofNat 64 (s.numAt pc 8))
    obtain ⟨w, hw, hp, hmem, hcont⟩ := spawn_pushes h hacc hslot (fun _ => hr) hu hl ht ((if_neg h0).trans hlink)
    obtain ⟨hreach, hreach'⟩ := contReachable_some hn hr
    have hbytes (x : Nat) : w.byteAt x = t.byteAt x := congrArg (Memory.byte · x) hmem
    rw [← numAt_congr (t := w) fun k _ => hbytes _] at hnk hnc
    obtain ⟨hcc, hsl⟩ := parse_cont_slot (v := BitVec.ofNat 64 (s.numAt pk 8)) hreach' s.ct.task.slot
    refine ⟨w, hw, hp, hcont.trans hnone, ?_, ?_, ?_, fun x hx => (hbytes x).trans (hout x hx)⟩
    · rw [hnk]
      exact hcc
    · rw [hnk]
      exact hsl
    · rw [hnc]
      exact parse_cont hreach

end Sys2Proof.Laws

/-!
SUPPORT. A counterexample to O28: TEND into a slot outside the continuation's line (R102).
-/

namespace Sys2Proof.Laws

open Sys2Proof.Machine

/-! TEND into slot 7 of a continuation (R102). -/

/-- A task in M on core 0 with the continuation at 0 and SLOT 7; x1 is 1, and the JOIN of the continuation is 2. -/
def slotSeven : State :=
  let s := State.reset.setBytes 58 [2]
  { s with
    ct := { s.ct with
      status := .running
      level := .m
      x := s.ct.x.set 1 1
      task := { s.ct.task with cont := some 0, slot := 7 } }
    pkg := { s.pkg with ready := { s.pkg.ready with trained := BitVec.allOnes 32 } } }

theorem calm_slotSeven : Calm slotSeven :=
  ⟨rfl, rfl, rfl, rfl, rfl, rfl, rfl, rfl, rfl, rfl, by decide +kernel,
    fun _ h => absurd h List.not_mem_nil, fun _ h => absurd h List.not_mem_nil⟩

theorem fenced_slotSeven (d : Nat) : (slotSeven.die d).fenced = false := by
  unfold State.die
  split
  · exact congrArg Die.fenced (Vector.getElem_replicate ..)
  · rfl

/-- The doubleword that follows the continuation keeps its value: TEND writes within the continuation's line. -/
theorem tend_slotSeven : nextShows 1 (·.numAt 64 8) (exec (.tend 1) slotSeven) = 0 := by decide +kernel

/-- Refutes O28: a task with SLOT 7 delivers to the doubleword after its continuation, which lies in the next line; TEND claims the line of CTL
and writes the result at that line's first doubleword, so the slot keeps its value. -/
theorem not_taskEnd : ¬ Obligations.TaskEnd := by
  intro h
  obtain ⟨-, -, hend⟩ := h slotSeven 1 rfl rfl (by decide)
  obtain ⟨-, hdone⟩ := hend rfl rfl
  obtain ⟨-, hdeliver⟩ := hdone rfl calm_slotSeven rfl rfl rfl
  have hwf : Memory.wf slotSeven.m.mem = true := by decide +kernel
  have hroom : hwCount (slotSeven.core slotSeven.ct.lcore) < 64 := by decide +kernel
  have hjoin : 1 ≤ (Ctl.parse (slotSeven.numAt 56 8)).join := by decide +kernel
  obtain ⟨t, hexec, -, hslot, -⟩ := hdeliver 0 64 56 rfl hwf (by decide)
    (ready_m _ slotSeven _ 64 8 rfl rfl fenced_slotSeven rfl rfl rfl (by decide))
    (ready_m _ slotSeven _ 56 8 rfl rfl fenced_slotSeven rfl rfl rfl (by decide)) hroom hjoin
  have hkept := tend_slotSeven
  rw [hexec] at hkept
  have hx : (slotSeven.getX 1).toNat = 1 := by decide +kernel
  exact absurd (hx.symm.trans (hslot.symm.trans hkept)) (by decide)

end Sys2Proof.Laws

/-!
SUPPORT. A counterexample to O51: an element that lands late in a released slab (R67, R385).
-/

namespace Sys2Proof.Laws

open Sys2Proof.Machine

/-! An element that lands late in a released slab (R67, R385). -/

/-- A load of one byte whose element 0 of v0 has been got and has not landed. -/
def lateByte : Late :=
  { lcore := 0, ctno := 0, task := 0, vec := true, seq := 0, pa := 0, cached := true, deps := [], op := .load 1, dest := .elem 0 1 0 0 0 0 8, beforeV := [],
    scope := none, got := some ([0], 0) }

/-- The load's completion is owed. -/
def owedLoad : Effects := { fflags := 0, mflags := 0, deliver := none, host := false, mem := some (0, 0) }

/-- A running thread with the load's completion owed and the first slab of v0 released. -/
def lateReleased : State :=
  { State.reset with
    ct := { State.reset.ct with
      status := .running
      task := { State.reset.ct.task with regLen := 256 }
      vec := { State.reset.ct.vec with released := [0], owing := [owedLoad] } }
    m := { State.reset.m with late := [lateByte] } }

/-- The element that lands ends the release of its slab. -/
theorem complete_lateReleased : nextShows [0] (·.ct.vec.released) (exec (.vectorComplete 0 0) lateReleased) = [] := by decide +kernel

/-- Refutes O51: an element that lands late writes its register as setElem does, so the slab it lies in is no longer released (R67), while the
statement keeps the list of released slabs. -/
theorem not_vectorStreamSteps : ¬ Obligations.VectorStreamSteps := by
  intro h
  obtain ⟨-, -, howing, -⟩ := h
  obtain ⟨-, hlate⟩ := howing lateReleased owedLoad ⟨Or.inl rfl, by decide, by decide +kernel⟩ rfl rfl rfl rfl rfl
  obtain ⟨t, hexec, hpaid, -⟩ := hlate 0 0 0 1 0 0 8 0 lateByte 0 [0] rfl rfl rfl rfl rfl rfl rfl rfl rfl (by decide) (by decide)
  have hreleased : t.ct.vec.released = [0] := by
    rw [hpaid]
    rfl
  have hlanded := complete_lateReleased
  change nextShows [0] (·.ct.vec.released) (exec (.vectorComplete lateReleased.ct.lcore lateReleased.ct.ctno) lateReleased) = [] at hlanded
  rw [hexec] at hlanded
  exact absurd (hreleased.symm.trans hlanded) (by decide)

end Sys2Proof.Laws

/-!
SUPPORT. Which bits a format reads as a NaN, and that what an operation delivers as a NaN is the canonical one (R121, R123).
-/

namespace Sys2Proof.Laws

open Sys2Proof.Machine

/-! NaNs of a format (R121, R123). -/

/-- The exponent and the fraction are the quotient and the remainder of the magnitude. -/
theorem natBits_exponent (v e m : Nat) : natBits v m e = v % 2 ^ (e + m) / 2 ^ m := by
  rw [natBits, Nat.shiftRight_eq_div_pow, Nat.pow_add', Nat.mod_mul_right_div_self]

theorem natBits_fraction (v e m : Nat) : natBits v 0 m = v % 2 ^ (e + m) % 2 ^ m := by
  rw [Nat.mod_mod_of_dvd _ (Nat.pow_dvd_pow 2 (Nat.le_add_left m e))]
  rfl

theorem infBits_lt (f : FFmt) : f.infBits < 2 ^ (f.ebits + f.mbits) := by
  rw [FFmt.infBits, Nat.pow_add]
  exact Nat.mul_lt_mul_of_pos_right (Nat.sub_lt (Nat.two_pow_pos _) Nat.one_pos) (Nat.two_pow_pos _)

theorem maxBits_le_infBits {f : FFmt} (h : f.hasInf = true) : f.maxBits ≤ f.infBits := by
  rw [FFmt.maxBits, if_pos h]
  exact Nat.sub_le _ _

/-- In a format with infinities the NaNs are the magnitudes above infinity's. -/
theorem isNan_read_hasInf {f : FFmt} (h : f.hasInf = true) (v : Nat) :
    (f.read v).isNan = true ↔ f.infBits < v % 2 ^ (f.ebits + f.mbits) := by
  have hread : (f.read v).isNan = true ↔ natBits v f.mbits f.ebits = 2 ^ f.ebits - 1 ∧ natBits v 0 f.mbits ≠ 0 := by
    unfold FFmt.read
    rw [if_pos h]
    split
    next he => split <;> simp_all [FVal.isNan]
    next he => split <;> simp_all [FVal.isNan]
  have hmag : v % 2 ^ (f.ebits + f.mbits) < 2 ^ f.ebits * 2 ^ f.mbits := Nat.pow_add 2 .. ▸ Nat.mod_lt _ (Nat.two_pow_pos _)
  rw [hread, natBits_exponent, natBits_fraction v f.ebits, FFmt.infBits]
  generalize v % 2 ^ (f.ebits + f.mbits) = mag at hmag
  have hM : 0 < 2 ^ f.mbits := Nat.two_pow_pos _
  generalize 2 ^ f.mbits = M at hmag hM
  generalize 2 ^ f.ebits = E at hmag
  have hdiv : mag / M < E := Nat.div_lt_of_lt_mul (Nat.mul_comm E M ▸ hmag)
  have hsplit : M * (mag / M) + mag % M = mag := Nat.div_add_mod mag M
  constructor
  · rintro ⟨hq, hr⟩
    rw [hq, Nat.mul_comm] at hsplit
    omega
  · intro hlt
    have hq : mag / M = E - 1 := by
      have := (Nat.le_div_iff_mul_le hM).2 hlt.le
      omega
    rw [hq, Nat.mul_comm] at hsplit
    exact ⟨hq, by omega⟩

/-- In a format without infinities the largest magnitude is the one NaN. -/
theorem isNan_read_noInf {f : FFmt} (h : f.hasInf = false) (v : Nat) :
    (f.read v).isNan = true ↔ v % 2 ^ (f.ebits + f.mbits) = 2 ^ (f.ebits + f.mbits) - 1 := by
  have hread : (f.read v).isNan = true ↔ natBits v f.mbits f.ebits = 2 ^ f.ebits - 1 ∧ natBits v 0 f.mbits = 2 ^ f.mbits - 1 := by
    unfold FFmt.read
    rw [if_neg (by simp [h])]
    split
    next he => simp [he, FVal.isNan]
    next he => split <;> simpa [FVal.isNan] using he
  have hmag : v % 2 ^ (f.ebits + f.mbits) < 2 ^ (f.ebits + f.mbits) := Nat.mod_lt _ (Nat.two_pow_pos _)
  rw [hread, natBits_exponent, natBits_fraction v f.ebits]
  generalize v % 2 ^ (f.ebits + f.mbits) = mag at hmag
  rw [Nat.pow_add] at hmag ⊢
  have hM : 0 < 2 ^ f.mbits := Nat.two_pow_pos _
  have hE : 0 < 2 ^ f.ebits := Nat.two_pow_pos _
  generalize 2 ^ f.mbits = M at hmag hM
  generalize 2 ^ f.ebits = E at hmag hE
  have hdiv : mag / M < E := Nat.div_lt_of_lt_mul (Nat.mul_comm E M ▸ hmag)
  have hsplit : M * (mag / M) + mag % M = mag := Nat.div_add_mod mag M
  have htop : (E - 1) * M + M = E * M := by rw [← Nat.succ_mul, Nat.succ_eq_add_one, Nat.sub_add_cancel hE]
  constructor
  · rintro ⟨hq, hr⟩
    rw [hq, Nat.mul_comm] at hsplit
    omega
  · intro hmax
    have hq : mag / M = E - 1 := by
      have := (Nat.le_div_iff_mul_le hM).2 (show (E - 1) * M ≤ mag by omega)
      omega
    rw [hq, Nat.mul_comm] at hsplit
    exact ⟨hq, by omega⟩

/-- Whether bits are a NaN depends on the bits below the sign alone. -/
theorem isNan_read_congr (f : FFmt) {u v : Nat} (h : u % 2 ^ (f.ebits + f.mbits) = v % 2 ^ (f.ebits + f.mbits)) :
    (f.read u).isNan = (f.read v).isNan := by
  rw [Bool.eq_iff_iff]
  cases hi : f.hasInf
  · rw [isNan_read_noInf hi, isNan_read_noInf hi, h]
  · rw [isNan_read_hasInf hi, isNan_read_hasInf hi, h]

theorem isNan_read_width (f : FFmt) (v : Nat) : (f.read (v % 2 ^ f.width)).isNan = (f.read v).isNan :=
  isNan_read_congr f (Nat.mod_mod_of_dvd _ (Nat.pow_dvd_pow 2 (Nat.le_succ _)))

theorem isNan_read_signBit (f : FFmt) (neg : Bool) (b : Nat) : (f.read (f.signBit neg + b)).isNan = (f.read b).isNan := by
  refine isNan_read_congr f ?_
  cases neg
  · exact congrArg (· % _) (Nat.zero_add b)
  · exact Nat.add_mod_left _ b

/-- Zero, the finite magnitudes and infinity are no NaN. -/
theorem not_isNan_of_le {f : FFmt} (hf : 0 < f.ebits + f.mbits) {b : Nat} (hb : b ≤ f.maxBits ∨ f.hasInf = true ∧ b = f.infBits) :
    (f.read b).isNan = false := by
  rw [Bool.eq_false_iff, Ne]
  cases hi : f.hasInf
  · have hle : b ≤ f.maxBits := hb.resolve_right fun h => by simp [hi] at h
    have htwo : 2 ≤ 2 ^ (f.ebits + f.mbits) := Nat.pow_le_pow_right (n := 2) Nat.two_pos hf
    rw [FFmt.maxBits, if_neg (by simp [hi])] at hle
    rw [isNan_read_noInf hi, Nat.mod_eq_of_lt (by omega)]
    omega
  · have hle : b ≤ f.infBits := hb.elim (·.trans (maxBits_le_infBits hi)) (·.2.le)
    rw [isNan_read_hasInf hi, Nat.mod_eq_of_lt (hle.trans_lt (infBits_lt f))]
    omega

/-! What operations deliver (R122, R123). -/

/-- A rounded value is a sign over a finite magnitude or infinity (R122, Table 6.6). -/
theorem round_bits (f : FFmt) (r : Rc) (neg : Bool) (m : Nat) (e : Int) :
    ∃ b, (f.round r neg m e).1 = f.signBit neg + b ∧ (b ≤ f.maxBits ∨ f.hasInf = true ∧ b = f.infBits) := by
  unfold FFmt.round
  dsimp only
  split
  next hi =>
    split
    next =>
      cases overflowsToMax r.rm neg
      · exact ⟨_, rfl, .inr ⟨hi, rfl⟩⟩
      · exact ⟨_, rfl, .inl le_rfl⟩
    next hle => exact ⟨_, rfl, .inl (Nat.le_of_not_lt hle)⟩
  next =>
    split
    next => exact ⟨_, rfl, .inl le_rfl⟩
    next =>
      split
      next => exact ⟨_, rfl, .inl le_rfl⟩
      next hle => exact ⟨_, rfl, .inl (Nat.le_of_not_lt hle)⟩

/-- A delivered value is the canonical NaN, or a sign over a finite magnitude or infinity. -/
theorem deliver_bits (f : FFmt) (r : Rc) (v : FVal) : (f.deliver r v).1 = f.nanBits ∨
    ∃ neg b, (f.deliver r v).1 = f.signBit neg + b ∧ (b ≤ f.maxBits ∨ f.hasInf = true ∧ b = f.infBits) := by
  cases v with
  | nan nv => exact .inl rfl
  | inf neg =>
    simp only [FFmt.deliver]
    split
    next hi => exact .inr ⟨neg, _, rfl, .inr ⟨hi, rfl⟩⟩
    next => exact .inl rfl
  | fin neg m e =>
    simp only [FFmt.deliver]
    split
    next => exact .inr ⟨neg, 0, rfl, .inl (Nat.zero_le _)⟩
    next => exact .inr ⟨neg, round_bits f r neg m e⟩

/-- Rounding makes no NaN of a value that is none: the only NaN delivered is the canonical one. -/
theorem deliver_nan {f : FFmt} (hf : 0 < f.ebits + f.mbits) (r : Rc) (v : FVal) (h : (f.read (f.deliver r v).1).isNan = true) :
    (f.deliver r v).1 = f.nanBits := by
  obtain hnan | ⟨neg, b, hbits, hb⟩ := deliver_bits f r v
  · exact hnan
  · rw [hbits, isNan_read_signBit, not_isNan_of_le hf hb] at h
    exact absurd h Bool.false_ne_true

/-- Each binary operation delivers one exact value. -/
theorem binop_delivers (f : FFmt) (op : Nat) (r : Rc) (a b : Nat) : ∃ v, (f.binop op r a b).1 = (f.deliver r v).1 := by
  unfold FFmt.binop
  split <;> exact ⟨_, rfl⟩

/-- A conversion to a floating type delivers one exact value, or copies bits of its own type that are no NaN (R139). -/
theorem convert_nan {f : FFmt} (hf : 0 < f.ebits + f.mbits) (r : Rc) {src dst : Nat} (v : Nat) (hd : tyFmt dst = some f)
    (h : (f.read (convert r src dst v).1).isNan = true) : (convert r src dst v).1 = f.nanBits := by
  unfold convert at h ⊢
  rw [hd] at h ⊢
  cases hs : tyFmt src with
  | none => exact deliver_nan hf r _ (by simpa only [hs] using h)
  | some g =>
    simp only [hs] at h ⊢
    split at h
    next heq =>
      obtain rfl : f = g := Option.some.inj (by rw [← hd, ← heq, hs])
      rw [if_pos heq]
      split at h
      next => rfl
      next hv =>
        rw [isNan_read_width] at h
        cases hv' : f.read v with
        | nan nv => exact absurd hv' (hv nv)
        | inf | fin => rw [hv'] at h; exact absurd h Bool.false_ne_true
    next hne =>
      rw [if_neg hne]
      exact deliver_nan hf r _ h

/-- Settles O16: every operation delivers an exact value, and rounding makes no NaN of a value that is none. -/
theorem canonicalNan : Obligations.CanonicalNan := by
  intro g nan hg
  have hformat : 0 < g.ebits + g.mbits ∧ g.nanBits = nan := by
    simp only [List.mem_cons, List.not_mem_nil, or_false, Prod.mk.injEq] at hg
    obtain ⟨rfl, rfl⟩ | ⟨rfl, rfl⟩ | ⟨rfl, rfl⟩ | ⟨rfl, rfl⟩ | ⟨rfl, rfl⟩ | ⟨rfl, rfl⟩ := hg <;> decide
  obtain ⟨hpos, rfl⟩ := hformat
  refine ⟨fun op rc a b _ h => ?_, fun rc a _ => deliver_nan hpos rc _, fun rc a b c _ => deliver_nan hpos rc _,
    fun rc src dst v _ hd _ => convert_nan hpos rc v hd⟩
  obtain ⟨v, hv⟩ := binop_delivers g op rc a b
  rw [hv] at h ⊢
  exact deliver_nan hpos rc v h

end Sys2Proof.Laws

/-!
SUPPORT. Vector register groups (R64 to R67): an element read back after a write of its group's elements and of its tail.
-/

namespace Sys2Proof.Laws

open Sys2Proof.Machine

/-! Fields of a register. -/

theorem testBit_natBits (v lo n i : Nat) : (natBits v lo n).testBit i = (decide (i < n) && v.testBit (lo + i)) := by
  rw [natBits, Nat.testBit_mod_two_pow, Nat.testBit_shiftRight]

theorem natBits_lt (v lo n : Nat) : natBits v lo n < 2 ^ n := Nat.mod_lt _ (Nat.two_pow_pos n)

/-- A field that lies within the bits replaced. -/
theorem natBits_putBits_within {m : Nat} (v : BitVec m) {lo n lo' n' : Nat} (x : Nat) (hlo : lo ≤ lo') (hhi : lo' + n' ≤ lo + n)
    (hm : lo + n ≤ m) : natBits (putBits v lo n x).toNat lo' n' = natBits x (lo' - lo) n' := by
  refine Nat.eq_of_testBit_eq fun i => ?_
  rw [testBit_natBits, testBit_natBits]
  by_cases hi : i < n'
  · have hb := getLsbD_putBits v lo n x (lo' + i) (by omega)
    rw [if_pos ⟨by omega, by omega⟩, show lo' + i - lo = lo' - lo + i by omega] at hb
    exact congrArg (decide (i < n') && ·) hb
  · simp [hi]

/-- A field that lies beside the bits replaced. -/
theorem natBits_putBits_beside {m : Nat} (v : BitVec m) {lo n lo' n' : Nat} (x : Nat) (h : lo' + n' ≤ lo ∨ lo + n ≤ lo') (hm : lo' + n' ≤ m) :
    natBits (putBits v lo n x).toNat lo' n' = natBits v.toNat lo' n' := by
  refine Nat.eq_of_testBit_eq fun i => ?_
  rw [testBit_natBits, testBit_natBits]
  by_cases hi : i < n'
  · have hb := getLsbD_putBits v lo n x (lo' + i) (by omega)
    rw [if_neg (by omega)] at hb
    exact congrArg (decide (i < n') && ·) hb
  · simp [hi]

/-- A field of ones. -/
theorem natBits_ones {lo n k : Nat} (h : lo + n ≤ k) : natBits (2 ^ k - 1) lo n = 2 ^ n - 1 := by
  refine Nat.eq_of_testBit_eq fun i => ?_
  rw [testBit_natBits, Nat.testBit_two_pow_sub_one, Nat.testBit_two_pow_sub_one]
  by_cases hi : i < n
  · simp [hi, show lo + i < k by omega]
  · simp [hi]

theorem natBits_of_zero (lo n : Nat) : natBits 0 lo n = 0 := by simp [natBits]

/-! Registers and elements (R64). -/

/-- Vector register r, zero beyond the last. -/
def vreg (s : State) (r : Nat) : BitVec 16384 := s.ct.vec.vfile.toList.getD r 0

theorem elem_eq (s : State) (n w i : Nat) : s.elem n w i = natBits (vreg s (n + i * w / s.L)).toNat (8 * (i * w % s.L)) (8 * w) := rfl

theorem elem_lt (s : State) (n w i : Nat) : s.elem n w i < 2 ^ (8 * w) := natBits_lt ..

/-- Nothing changed but the vector registers listed and the list of released slabs. -/
def FileOnly (s t : State) (dest : Nat → Prop) : Prop :=
  t = { s with ct := { s.ct with vec := { s.ct.vec with vfile := t.ct.vec.vfile, released := t.ct.vec.released } } } ∧
    ∀ r, ¬ dest r → vreg t r = vreg s r

theorem FileOnly.refl (s : State) (dest : Nat → Prop) : FileOnly s s dest := ⟨rfl, fun _ _ => rfl⟩

theorem FileOnly.trans {s t u : State} {dest : Nat → Prop} (h : FileOnly s t dest) (k : FileOnly t u dest) : FileOnly s u dest :=
  ⟨k.1.trans (by rw [h.1]), fun r hr => (k.2 r hr).trans (h.2 r hr)⟩

theorem FileOnly.mono {s t : State} {dest dest' : Nat → Prop} (h : FileOnly s t dest) (hd : ∀ r, dest r → dest' r) : FileOnly s t dest' :=
  ⟨h.1, fun r hr => h.2 r fun hr' => hr (hd r hr')⟩

theorem FileOnly.L {s t : State} {dest : Nat → Prop} (h : FileOnly s t dest) : t.L = s.L := by rw [h.1]; rfl

/-- One write of the file at register k. -/
theorem fileOnly_set (s : State) (k : Nat) (v : BitVec 16384) (rel : List Nat) :
    FileOnly s (s.onVec fun x => { x with vfile := x.vfile.setIfInBounds k v, released := rel }) (· = k) :=
  ⟨rfl, fun r hr => (getD_setIfInBounds s.ct.vec.vfile k r v 0).trans (if_neg fun h => hr h.1)⟩

theorem vreg_set (s : State) {k : Nat} (hk : k < 32) (v : BitVec 16384) (rel : List Nat) :
    vreg (s.onVec fun x => { x with vfile := x.vfile.setIfInBounds k v, released := rel }) k = v :=
  (getD_setIfInBounds s.ct.vec.vfile k k v 0).trans (if_pos ⟨rfl, hk⟩)

/-! Where elements lie in a group (R59, R60, R64). -/

/-- The next multiple is a whole step away. -/
theorem add_le_of_dvd {a m n : Nat} (hn : a ∣ n) (hm : a ∣ m) (h : n < m) : n + a ≤ m := by
  have := Nat.le_of_dvd (Nat.sub_pos_of_lt h) (Nat.dvd_sub hm hn)
  omega

/-- A group of g registers of l bytes from register d on holds whole elements of w bytes, and slabs of 256 bytes hold whole elements. -/
structure GroupFits (l d w g : Nat) : Prop where
  pos : 0 < l
  slabs : 256 ∣ l
  bits : 8 * l ≤ 16384
  width : w ∣ 256
  regs : d + g ≤ 32

theorem groupFits_of {s : State} {d : Reg} (hf : VecForm s) (hd : GroupOk s d) : GroupFits s.L d.toNat s.ew s.ct.vec.vcfg.g := by
  obtain ⟨hl, -, -⟩ := hf
  have hlen : 0 < s.L ∧ 256 ∣ s.L ∧ 8 * s.L ≤ 16384 := by omega
  obtain ⟨hpos, hslabs, hbits⟩ := hlen
  refine ⟨hpos, hslabs, hbits, (tyBytes_dvd_eight _).trans (by decide), ?_⟩
  have hg : s.ct.vec.vcfg.g ∣ 32 := Nat.pow_dvd_pow 2 (show s.ct.vec.vcfg.grp.toNat ≤ 5 by omega)
  exact add_le_of_dvd (Nat.dvd_of_mod_eq_zero hd) hg d.isLt

namespace GroupFits

variable {l d w g : Nat} (h : GroupFits l d w g)
include h

theorem w_pos : 0 < w := Nat.pos_of_dvd_of_pos h.width (by decide)

theorem w_dvd : w ∣ l := h.width.trans h.slabs

/-- An element lies in one register. -/
theorem offset_add_le (i : Nat) : i * w % l + w ≤ l :=
  add_le_of_dvd ((Nat.dvd_mod_iff h.w_dvd).2 (Nat.dvd_mul_left w i)) h.w_dvd (Nat.mod_lt _ h.pos)

/-- An element below VLMAX lies in the group. -/
theorem reg_lt {j : Nat} (hj : j < l * g / w) : j * w / l < g := by
  refine Nat.div_lt_of_lt_mul ?_
  have hend := (Nat.le_div_iff_mul_le h.w_pos).1 hj
  have hw := h.w_pos
  rw [Nat.succ_mul] at hend
  omega

end GroupFits

/-- Two elements of one register do not overlap. -/
theorem offset_disjoint {l w i j : Nat} (hne : i ≠ j) (hr : i * w / l = j * w / l) :
    i * w % l + w ≤ j * w % l ∨ j * w % l + w ≤ i * w % l := by
  have hi := Nat.div_add_mod (i * w) l
  have hj := Nat.div_add_mod (j * w) l
  rw [hr] at hi
  obtain hlt | hlt := Nat.lt_or_gt_of_ne hne
  · have := Nat.mul_le_mul_right w (Nat.succ_le_of_lt hlt)
    rw [Nat.succ_mul] at this
    omega
  · have := Nat.mul_le_mul_right w (Nat.succ_le_of_lt hlt)
    rw [Nat.succ_mul] at this
    omega

/-! Writing elements. -/

/-- A write of element i writes its register alone. -/
theorem fileOnly_setElem (s : State) (n w i v : Nat) :
    FileOnly s (s.setElem n w i v) (· = n + i * w / s.L) := fileOnly_set s _ _ _

theorem vreg_setElem (s : State) {n w i : Nat} (v : Nat) (h : n + i * w / s.L < 32) : vreg (s.setElem n w i v) (n + i * w / s.L) =
    putBits (vreg s (n + i * w / s.L)) (8 * (i * w % s.L)) (8 * w) v := vreg_set s h _ _

/-- An element is read back, and every other element of the group keeps its bits. -/
theorem elem_setElem {s : State} {d w g : Nat} (h : GroupFits s.L d w g) {i j : Nat} (v : Nat) (hi : i * w / s.L < g) :
    (s.setElem d w i v).elem d w j = if j = i then v % 2 ^ (8 * w) else s.elem d w j := by
  have hreg : d + i * w / s.L < 32 := by have := h.regs; omega
  have hfile := fileOnly_setElem s d w i v
  have hbits := h.bits
  have hoff := h.offset_add_le i
  have hoff' := h.offset_add_le j
  rw [elem_eq, hfile.L, elem_eq]
  by_cases hr : i * w / s.L = j * w / s.L
  · rw [← hr, vreg_setElem s v hreg]
    split
    next hji =>
      rw [hji, natBits_putBits_within _ _ le_rfl le_rfl (by omega), Nat.sub_self]
      rfl
    next hji =>
      have := offset_disjoint (Ne.symm hji) hr
      exact natBits_putBits_beside _ _ (by omega) (by omega)
  · rw [hfile.2 _ (by omega), if_neg fun hji => hr (by rw [hji])]

/-- One step of an instruction over element i: active elements take the result, inactive ones are zero or keep their bits by MPOL (R65). -/
def stepElem (e : VEntry) (d w : Nat) (act : Nat → Bool) (f : Nat → Nat × FFlags) (s : State) (i : Nat) : State :=
  if act i then s.setElem d w i (f i).1 else if e.vcfg.mz then s.setElem d w i 0 else s

theorem writeActive_fst (s0 : State) {e : VEntry} (he : e.stop = none) (d w : Nat) (act : Nat → Bool) (f : Nat → Nat × FFlags) (s : State) :
    (writeActive s0 e d w act f s).1 = (stripFrom s0 e).foldl (stepElem e d w act f) s := by
  have hall : (stripFrom s0 e).filter (fun i => !e.stopped i) = stripFrom s0 e := by
    rw [List.filter_eq_self]
    intro i _
    simp only [VEntry.stopped, he, Bool.not_false]
  rw [writeActive, hall]
  refine (List.foldl_hom Prod.fst ?_).symm
  intro a i
  unfold stepElem
  split
  · rfl
  · split <;> rfl

/-- What element j holds after it was stepped through (R65). -/
def steppedElem (e : VEntry) (w : Nat) (act : Nat → Bool) (f : Nat → Nat × FFlags) (old j : Nat) : Nat :=
  if act j then (f j).1 % 2 ^ (8 * w) else if e.vcfg.mz then 0 else old

/-- A second step over an element changes nothing more. -/
theorem steppedElem_again (e : VEntry) (w : Nat) (act : Nat → Bool) (f : Nat → Nat × FFlags) (old j : Nat) :
    steppedElem e w act f (steppedElem e w act f old j) j = steppedElem e w act f old j := by
  unfold steppedElem
  split
  · rfl
  · split <;> rfl

theorem fileOnly_stepElem (s : State) (d : Nat) {w g : Nat} (e : VEntry) (act : Nat → Bool) (f : Nat → Nat × FFlags) {i : Nat}
    (hi : i * w / s.L < g) : FileOnly s (stepElem e d w act f s i) fun r => d ≤ r ∧ r < d + g := by
  have hset (v : Nat) : FileOnly s (s.setElem d w i v) fun r => d ≤ r ∧ r < d + g :=
    (fileOnly_setElem s d w i v).mono fun r (hr : r = d + i * w / s.L) => ⟨hr ▸ Nat.le_add_right _ _, hr ▸ Nat.add_lt_add_left hi d⟩
  unfold stepElem
  split
  · exact hset _
  · split
    · exact hset _
    · exact .refl _ _

theorem elem_stepElem {s : State} {d w g : Nat} (h : GroupFits s.L d w g) (e : VEntry) (act : Nat → Bool) (f : Nat → Nat × FFlags) {i : Nat}
    (hi : i * w / s.L < g) (j : Nat) :
    (stepElem e d w act f s i).elem d w j = if j = i then steppedElem e w act f (s.elem d w j) j else s.elem d w j := by
  unfold stepElem steppedElem
  split
  next ha =>
    rw [elem_setElem h _ hi]
    split
    next hji => rw [hji, if_pos ha]
    next => rfl
  next ha =>
    split
    next hm =>
      rw [elem_setElem h _ hi, Nat.zero_mod]
      split
      next hji => rw [hji, if_neg ha]
      next => rfl
    next hm =>
      split
      next hji => rw [hji, if_neg ha]
      next => rfl

/-- The elements stepped through, each once or more. -/
theorem strip_elems {d w g : Nat} (e : VEntry) (act : Nat → Bool) (f : Nat → Nat × FFlags) : ∀ (is : List Nat) {s : State},
    GroupFits s.L d w g → (∀ i ∈ is, i * w / s.L < g) →
    FileOnly s (is.foldl (stepElem e d w act f) s) (fun r => d ≤ r ∧ r < d + g) ∧
    ∀ j, (is.foldl (stepElem e d w act f) s).elem d w j = if j ∈ is then steppedElem e w act f (s.elem d w j) j else s.elem d w j
  | [], s, _, _ => ⟨.refl _ _, fun j => by simp⟩
  | i :: is, s, h, his => by
    have hi := his i List.mem_cons_self
    have hfile := fileOnly_stepElem s d e act f hi
    obtain ⟨hrest, helems⟩ := strip_elems e act f is (hfile.L ▸ h) (fun k hk => by rw [hfile.L]; exact his k (List.mem_cons_of_mem _ hk))
    refine ⟨hfile.trans hrest, fun j => ?_⟩
    rw [List.foldl_cons, helems, elem_stepElem h e act f hi]
    by_cases hji : j = i
    · subst hji
      simp only [List.mem_cons, true_or, if_true, steppedElem_again, ite_self]
    · simp only [List.mem_cons, hji, false_or, if_false]

/-! The tail of a group (R65, R67). -/

/-- A register of l bytes of which the bytes from t0 on are tail. -/
def tailRegister (l : Nat) (c : Vcfg) (t0 : Nat) (v : BitVec 16384) : BitVec 16384 :=
  if c.tpol = 0 ∨ l ≤ t0 then v
  else if c.tpol = 2 then putBits (fillTail l v t0) (2048 * ceilDiv t0 256) (8 * (l - 256 * ceilDiv t0 256)) 0
  else fillTail l v t0

theorem tailRegister_of_le {l t0 : Nat} (c : Vcfg) (v : BitVec 16384) (h : l ≤ t0) : tailRegister l c t0 v = v := if_pos (.inr h)

/-- The tail of a group with one more register. -/
theorem writeTail_succ (s : State) (c : Vcfg) (vl n w g : Nat) (hn : n + g < 32) :
    FileOnly (writeTail s c vl n w g) (writeTail s c vl n w (g + 1)) (· = n + g) ∧
    vreg (writeTail s c vl n w (g + 1)) (n + g) = tailRegister s.L c (vl * w - g * s.L) (vreg (writeTail s c vl n w g) (n + g)) := by
  unfold writeTail tailRegister
  split
  next hp => exact ⟨.refl _ _, (if_pos (.inl hp)).symm⟩
  next hp =>
    rw [List.range_succ, List.foldl_append]
    generalize (List.range g).foldl _ s = t
    simp only [List.foldl_cons, List.foldl_nil]
    by_cases hl : s.L ≤ vl * w - g * s.L
    · rw [if_pos hl, if_pos (.inr hl)]
      exact ⟨.refl _ _, rfl⟩
    · rw [if_neg hl, if_neg (not_or.2 ⟨hp, hl⟩)]
      refine ⟨fileOnly_set t _ _ _, (vreg_set t hn _ _).trans ?_⟩
      split <;> rfl

/-- The tail of a group writes the registers of the group alone. -/
theorem fileOnly_writeTail (s : State) (c : Vcfg) (vl n w : Nat) : ∀ {g : Nat}, n + g ≤ 32 →
    FileOnly s (writeTail s c vl n w g) fun r => n ≤ r ∧ r < n + g
  | 0, _ => by
    have h0 : writeTail s c vl n w 0 = s := by unfold writeTail; split <;> rfl
    rw [h0]
    exact .refl _ _
  | g + 1, hg => ((fileOnly_writeTail s c vl n w (by omega)).mono fun r hr => ⟨hr.1, by omega⟩).trans
    ((writeTail_succ s c vl n w g (by omega)).1.mono fun r (hr : r = n + g) => ⟨by omega, by omega⟩)

theorem vreg_writeTail (s : State) (c : Vcfg) (vl n w : Nat) {m : Nat} : ∀ {g : Nat}, n + g ≤ 32 → m < g →
    vreg (writeTail s c vl n w g) (n + m) = tailRegister s.L c (vl * w - m * s.L) (vreg s (n + m))
  | g + 1, hg, hm => by
    obtain ⟨hfile, hlast⟩ := writeTail_succ s c vl n w g (by omega)
    obtain hlt | rfl := Nat.lt_succ_iff_lt_or_eq.1 hm
    · rw [hfile.2 _ (by omega), vreg_writeTail s c vl n w (by omega) hlt]
    · rw [hlast, (fileOnly_writeTail s c vl n w (by omega)).2 _ (by omega)]

theorem le_ceilDiv_mul (t0 : Nat) : t0 ≤ 256 * ceilDiv t0 256 := by rw [ceilDiv]; omega

/-- Slab k lies wholly at or above t0 exactly where it is none of the slabs up to the one that holds t0's last byte. -/
theorem ceilDiv_le_iff (t0 k : Nat) : ceilDiv t0 256 ≤ k ↔ t0 ≤ k * 256 := by rw [ceilDiv]; omega

/-- The body of a register keeps its bits. -/
theorem natBits_tailRegister_body {l t0 off w : Nat} (c : Vcfg) (v : BitVec 16384) (hl : 8 * l ≤ 16384) (hoff : off + w ≤ l)
    (h : off + w ≤ t0) : natBits (tailRegister l c t0 v).toNat (8 * off) (8 * w) = natBits v.toNat (8 * off) (8 * w) := by
  have hfill : natBits (fillTail l v t0).toNat (8 * off) (8 * w) = natBits v.toNat (8 * off) (8 * w) :=
    natBits_putBits_beside _ _ (by omega) (by omega)
  unfold tailRegister
  split
  · rfl
  · split
    · have := le_ceilDiv_mul t0
      rw [natBits_putBits_beside _ _ (by omega) (by omega), hfill]
    · exact hfill

/-- A whole field of the tail is ones, or zero in a released slab, unless the tail is kept. -/
theorem natBits_tailRegister_tail {l t0 off w : Nat} (c : Vcfg) (v : BitVec 16384) (hl : 8 * l ≤ 16384) (hs : 256 ∣ l) (hw : w ∣ 256)
    (ho : w ∣ off) (hpos : 0 < w) (hoff : off + w ≤ l) (h : t0 ≤ off) (hp : c.tpol ≠ 0) : natBits (tailRegister l c t0 v).toNat (8 * off) (8 * w) =
      if c.tpol = 2 ∧ t0 ≤ off / 256 * 256 then 0 else 2 ^ (8 * w) - 1 := by
  have hfill : natBits (fillTail l v t0).toNat (8 * off) (8 * w) = 2 ^ (8 * w) - 1 := by
    rw [fillTail, natBits_putBits_within _ _ (by omega) (by omega) (by omega), natBits_ones (by omega)]
  have hslab : off % 256 + w ≤ 256 := add_le_of_dvd ((Nat.dvd_mod_iff hw).2 ho) hw (Nat.mod_lt _ (by decide))
  rw [tailRegister, if_neg (not_or.2 ⟨hp, by omega⟩)]
  split
  next htd =>
    by_cases hrel : t0 ≤ off / 256 * 256
    · have hle := (ceilDiv_le_iff t0 _).2 hrel
      rw [if_pos ⟨htd, hrel⟩, natBits_putBits_within _ _ (by omega) (by omega) (by omega), natBits_of_zero]
    · have hlt := mt (ceilDiv_le_iff t0 _).1 hrel
      rw [if_neg fun hr => hrel hr.2, natBits_putBits_beside _ _ (by omega) (by omega), hfill]
  next htd => rw [if_neg fun hr => htd hr.1, hfill]

/-! A group after its elements and its tail were written (R65 to R67). -/

/-- An element below VL is kept by the tail. -/
theorem elem_writeTail_body {s : State} {d w g : Nat} (h : GroupFits s.L d w g) (c : Vcfg) {vl j : Nat} (hg : j * w / s.L < g) (hj : j < vl) :
    (writeTail s c vl d w g).elem d w j = s.elem d w j := by
  have hpos := Nat.mul_le_mul_right w (Nat.succ_le_of_lt hj)
  have hsplit := Nat.div_add_mod (j * w) s.L
  rw [Nat.succ_mul] at hpos
  rw [Nat.mul_comm] at hsplit
  rw [elem_eq, (fileOnly_writeTail s c vl d w h.regs).L, vreg_writeTail s c vl d w h.regs hg, elem_eq]
  exact natBits_tailRegister_body c _ h.bits (h.offset_add_le j) (by omega)

/-- An element from VL on is as TPOL says. -/
theorem elem_writeTail_tail {s : State} {d w g : Nat} (h : GroupFits s.L d w g) (c : Vcfg) {vl j : Nat} (hg : j * w / s.L < g) (hj : vl ≤ j) :
    (writeTail s c vl d w g).elem d w j =
      if c.tpol = 0 then s.elem d w j else if c.tpol = 2 ∧ vl * w ≤ j * w / 256 * 256 then 0 else 2 ^ (8 * w) - 1 := by
  have hpos := Nat.mul_le_mul_right w hj
  have hsplit := Nat.div_add_mod (j * w) s.L
  rw [Nat.mul_comm] at hsplit
  rw [elem_eq, (fileOnly_writeTail s c vl d w h.regs).L, vreg_writeTail s c vl d w h.regs hg, elem_eq]
  by_cases hp : c.tpol = 0
  · rw [if_pos hp, tailRegister, if_pos (.inl hp)]
  · obtain ⟨q, hq⟩ := h.slabs
    have hslab : vl * w - j * w / s.L * s.L ≤ j * w % s.L / 256 * 256 ↔ vl * w ≤ j * w / 256 * 256 := by
      have hbase : j * w / s.L * s.L = 256 * (j * w / s.L * q) := by rw [hq, Nat.mul_left_comm]
      omega
    rw [if_neg hp, natBits_tailRegister_tail c _ h.bits h.slabs h.width ((Nat.dvd_mod_iff h.w_dvd).2 (Nat.dvd_mul_left w j)) h.w_pos
      (h.offset_add_le j) (by omega) hp]
    simp only [hslab]

end Sys2Proof.Laws

/-!
SUPPORT. A vector instruction that completes as it is dispatched (R71, R76, R79, R80, R99, log entry 4): the state that its operation sees, and what its
completion leaves.
-/

namespace Sys2Proof.Laws

open Sys2Proof.Machine

/-! Dispatch with nothing in flight. -/

/-- The state that a vector operation sees where nothing is in flight: s with the ISN taken and the issue charged (R99, R132). -/
def charged (s : State) (rsr : Bool) (deficit : Int) : State :=
  { s with ct := { s.ct with
    fp := { s.ct.fp with isn := if rsr then s.ct.fp.isn + 1 else s.ct.fp.isn }
    ctl := { s.ct.ctl with deficit := deficit } } }

/-- Whether a vector instruction takes an ISN: its rounding resolves to .rsr (R132). -/
def takesIsn (s : State) (i : Instr) : Bool :=
  match vecRound i s.ct.vec.vcfg.ty with
  | some r => (roundingOf r s.ct.fp.frm).getD 0 == 5
  | none => false

/-- The entry that a vector instruction is dispatched as. -/
def entryOf (s : State) (i : Instr) : VEntry := capture s i (vecRegs i).1 (vecRegs i).2.1 (vecRegs i).2.2.1 (vecRegs i).2.2.2

theorem issueAlone_lanes (s : State) {e : VEntry} (h : isVecMem e.instr = false) : issueAlone s e = chargeAlone s (occupancy s e 8) := by
  unfold issueAlone occupy
  rw [if_neg (by simp [h])]

/-- An issue to the lanes is a charge (R99), and changes nothing else. -/
theorem issueAlone_charged (s : State) {e : VEntry} (h : isVecMem e.instr = false) : ∃ D, issueAlone s e = charged s false D :=
  ⟨_, issueAlone_lanes s h⟩

theorem issueAlone_takeIsn (s : State) (rm : BitVec 3) {e : VEntry} (h : isVecMem e.instr = false) :
    ∃ D, issueAlone (takeIsn s rm) e = charged s (rm == 5) D := by
  rw [issueAlone_lanes _ h]
  generalize occupancy (takeIsn s rm) e 8 = n
  unfold takeIsn
  split
  next hrm =>
    rw [hrm]
    exact ⟨_, rfl⟩
  next hrm =>
    rw [beq_false_of_ne hrm]
    exact ⟨_, rfl⟩

theorem not_staysOpen (t : State) {ef : Effects} (h : ef.mem = none) : staysOpen t ef = false := by simp [staysOpen, h]

/-- An instruction that reaches no memory runs and completes at once. -/
theorem vector_completes {s : State} {pr : Profile} {i : Instr} (hv : VecReady s) (hp : s.has pr = true) (hm : isVecMem i = false) :
    ∃ D, ∀ ef t, vecOp i (charged s (takesIsn s i) D) (entryOf s i) = .ok ef t → ef.mem = none → mayComplete t ef = true →
      vector pr i s = .next (applyEffects t ef).advance := by
  obtain ⟨hi, ho⟩ := hv
  unfold takesIsn vector dispatch entryOf
  simp only [withProfile_has hp, hi, ho, Bool.not_false, Bool.and_self, if_true]
  cases vecRound i s.ct.vec.vcfg.ty with
  | none =>
    obtain ⟨D, hD⟩ := issueAlone_charged s (e := entryOf s i) hm
    refine ⟨D, fun ef t hop hmem hmay => ?_⟩
    unfold entryOf at hD
    simp only [hD, hop, not_staysOpen t hmem, hmay, if_true, Bool.false_eq_true, if_false]
  | some r =>
    obtain ⟨D, hD⟩ := issueAlone_takeIsn s ((roundingOf r s.ct.fp.frm).getD 0) (e := entryOf s i) hm
    refine ⟨D, fun ef t hop hmem hmay => ?_⟩
    unfold entryOf at hD
    simp only [hD, hop, not_staysOpen t hmem, hmay, if_true, Bool.false_eq_true, if_false]

/-! What a completion leaves (R71, R76, R131). -/

theorem applyEffects_flags (s : State) (fl : FFlags) : applyEffects s (Effects.flags fl) = (fromZero s).orFlags fl := by
  simp [applyEffects, payEffects, Effects.flags, Effects.none, writeSample, State.orFlags, State.onMx]

theorem applyEffects_queue (s : State) (q : Nat) (v : Word) (fl : FFlags) (h : s.ct.ctl.wait ≠ .ending) :
    applyEffects s (Effects.queue q v fl) = ((fromZero s).orFlags fl).pushQueue q v := by
  have hw : (fromZero s).ct.ctl.wait ≠ .ending := h
  simp [applyEffects, payEffects, Effects.queue, Effects.none, writeSample, State.orFlags, State.onMx, hw]

/-- Bytes are those of the memory alone. -/
theorem sameBytes_of_mem {s t : State} (h : t.m.mem = s.m.mem) : SameBytes s t := fun a => congrArg (Memory.byte · a) h

/-- A register unchanged, as an entry of the file. -/
theorem vfile_getElem? {s t : State} {r : Nat} (h : vreg t r = vreg s r) : t.ct.vec.vfile.toList[r]? = s.ct.vec.vfile.toList[r]? := by
  by_cases hr : r < 32
  · simpa [vreg, List.getD_eq_getElem?_getD, hr] using h
  · simp [hr]

/-- An instruction that writes one group and has flags leaves its result. -/
theorem vecFpResult_of {s t : State} {d : Reg} {act : Nat → Bool} {f : Nat → Nat × FFlags} {rsr : Bool} {D : Int} (fl : FFlags)
    (hfile : FileOnly (charged s rsr D) t (inGroup s d.toNat)) (hgroup : GroupAfter s t d.toNat act fun i => (f i).1) :
    VecFpResult s (applyEffects t (Effects.flags fl)).advance d act f fl rsr := by
  rw [applyEffects_flags]
  unfold State.advance State.orFlags fromZero State.onVec
  unfold charged at hfile
  obtain ⟨ht, hregs⟩ := hfile
  refine ⟨hgroup, ⟨?_, fun r _ hr => vfile_getElem? (hregs r hr), sameBytes_of_mem ?_⟩, ?_, ?_, ?_, ?_⟩
  all_goals rw [ht]

/-- An instruction that delivers to a queue and has flags leaves its delivery. -/
theorem delivers_of {s : State} {q : Reg} {rsr : Bool} {D : Int} (v : Word) (fl : FFlags) (hq : q.toNat < 8) (hw : s.ct.ctl.wait ≠ .ending) :
    Delivers s (applyEffects (charged s rsr D) (Effects.queue q.toNat v fl)).advance q v fl rsr := by
  rw [applyEffects_queue (charged s rsr D) _ _ _ hw]
  unfold State.advance State.pushQueue State.orFlags fromZero charged State.onVec
  refine ⟨?_, fun r hr => ?_, ⟨rfl, fun _ _ _ => rfl, sameBytes_of_mem rfl⟩, rfl, rfl, rfl⟩
  · exact (getD_setIfInBounds s.ct.vec.queues q.toNat q.toNat _ []).trans (if_pos ⟨rfl, hq⟩)
  · exact (getD_setIfInBounds s.ct.vec.queues q.toNat r _ []).trans (if_neg fun h => hr h.1)

/-! An instruction that steps through one group (R65, R66). -/

/-- Its elements and then its tail are written. -/
def stripWritten (u : State) (e : VEntry) (d : Nat) (act : Nat → Bool) (f : Nat → Nat × FFlags) : State :=
  writeTail (writeActive u e d e.w act f u).1 e.vcfg e.vl d e.w e.g

theorem mem_stripFrom {s : State} {e : VEntry} {i : Nat} : i ∈ stripFrom s e ↔ s.ct.vec.vstart ≤ i ∧ i < e.vl := by
  simp only [stripFrom, List.mem_map, List.mem_range]
  constructor
  · rintro ⟨k, hk, rfl⟩
    omega
  · rintro ⟨hlo, hhi⟩
    exact ⟨i - s.ct.vec.vstart, by omega, by omega⟩

/-- A tail element by TPOL. -/
theorem tailAfter_eq (s : State) (old j : Nat) : tailAfter s old j = if s.ct.vec.vcfg.tpol = 0 then old
    else if s.ct.vec.vcfg.tpol = 2 ∧ s.ct.vec.vl * s.ew ≤ j * s.ew / 256 * 256 then 0 else 2 ^ (8 * s.ew) - 1 := by
  have hcases : ∀ p : BitVec 2, p = 0 ∨ p = 2 ∨ p = 1 ∨ p = 3 := by decide
  unfold tailAfter
  obtain hp | hp | hp | hp := hcases s.ct.vec.vcfg.tpol <;> simp [hp]

/-- The entry is of the VCFG and VL that stand, and no pre-emption stops it. -/
structure Runs (s : State) (e : VEntry) : Prop where
  vcfg : e.vcfg = s.ct.vec.vcfg
  vl : e.vl = s.ct.vec.vl
  stop : e.stop = none

theorem stripWritten_group {s : State} {e : VEntry} {d : Reg} (hr : Runs s e) (hform : VecForm s) (hd : GroupOk s d) (rsr : Bool) (D : Int)
    (hlt : s.ct.vec.vstart < s.ct.vec.vl) (act : Nat → Bool) (f : Nat → Nat × FFlags) :
    FileOnly (charged s rsr D) (stripWritten (charged s rsr D) e d.toNat act f) (inGroup s d.toNat) ∧
    GroupAfter s (stripWritten (charged s rsr D) e d.toNat act f) d.toNat act fun i => (f i).1 := by
  obtain ⟨hvcfg, hvl, hstop⟩ := hr
  have ⟨_, _, hvlmax⟩ := hform
  have hfits : GroupFits (charged s rsr D).L d.toNat s.ew s.ct.vec.vcfg.g := groupFits_of hform hd
  have hw : e.w = s.ew := congrArg Vcfg.w hvcfg
  have hg : e.g = s.ct.vec.vcfg.g := congrArg Vcfg.g hvcfg
  have hreg {j : Nat} (hj : j < vlmax s.L s.ct.vec.vcfg) : j * s.ew / s.L < s.ct.vec.vcfg.g := hfits.reg_lt hj
  unfold stripWritten
  rw [writeActive_fst _ hstop, hw, hg, hvcfg, hvl]
  obtain ⟨hfile, helems⟩ := strip_elems e act f (stripFrom (charged s rsr D) e) hfits fun i hi =>
    hreg ((hvl ▸ (mem_stripFrom.1 hi).2).trans_le hvlmax)
  have hfits' := hfile.L ▸ hfits
  refine ⟨hfile.trans (fileOnly_writeTail _ _ _ _ _ hfits.regs), fun j hj => ?_⟩
  have hjr : j * s.ew / (List.foldl (stepElem e d.toNat s.ew act f) (charged s rsr D) (stripFrom (charged s rsr D) e)).L < s.ct.vec.vcfg.g := by
    rw [hfile.L]
    exact hreg hj
  have hstrip : j ∈ stripFrom (charged s rsr D) e ↔ s.ct.vec.vstart ≤ j ∧ j < s.ct.vec.vl := hvl ▸ mem_stripFrom
  rw [if_pos hlt, elemAfter]
  by_cases hlo : j < s.ct.vec.vstart
  · rw [elem_writeTail_body hfits' _ hjr (by omega), helems, if_neg (by rw [hstrip]; omega), if_pos hlo]
    rfl
  · rw [if_neg hlo]
    by_cases hhi : j < s.ct.vec.vl
    · rw [elem_writeTail_body hfits' _ hjr hhi, helems, if_pos (hstrip.2 ⟨by omega, hhi⟩), if_pos hhi, steppedElem, hvcfg]
      rfl
    · have hkept := (helems j).trans (if_neg (by rw [hstrip]; omega))
      rw [elem_writeTail_tail hfits' _ hjr (by omega), hkept, if_neg hhi, tailAfter_eq]
      rfl

end Sys2Proof.Laws

/-!
SUPPORT. Reductions (R140 to R144, R395): what each of them computes, and that it writes element 0 of vd or delivers to its queue.
-/

namespace Sys2Proof.Laws

open Sys2Proof.Machine

/-! The pairwise tree (R140, R142). -/

theorem flags_or_zero (fl : FFlags) : fl ||| 0 = fl := BitVec.or_zero

section
variable (comb : Nat → Nat → Nat → Nat × FFlags)

/-- Half as many nodes stand above an even number of leaves. -/
theorem length_pairUp : ∀ (n : Nat) (l : List (Option Nat)) (k : Nat) (fl : FFlags), l.length = 2 * n → (pairUp comb l k fl).1.length = n
  | 0, l, k, fl, h => by
    rw [List.length_eq_zero_iff.1 h]
    rfl
  | n + 1, a :: b :: r, k, fl, h => congrArg (· + 1) (length_pairUp n r _ _ (by simp only [List.length_cons] at h; omega))

/-- Nodes of which none takes part come of leaves of which none does, and raise no flag. -/
theorem pairUp_padding : ∀ (l : List (Option Nat)) (k : Nat) (fl : FFlags), (∀ x ∈ (pairUp comb l k fl).1, x = none) →
    (∀ x ∈ l, x = none) ∧ (pairUp comb l k fl).2 = fl
  | [], _, _, _ => ⟨fun _ h => absurd h List.not_mem_nil, rfl⟩
  | [_], _, _, h => ⟨h, rfl⟩
  | a :: b :: r, k, fl, h => by
    simp only [pairUp, List.forall_mem_cons] at h ⊢
    obtain ⟨hhead, hrest⟩ := h
    obtain ⟨hleaves, hfl⟩ := pairUp_padding r _ _ hrest
    cases a with
    | some u => cases b <;> exact absurd hhead (Option.some_ne_none _)
    | none =>
      cases b with
      | some v => exact absurd hhead (Option.some_ne_none _)
      | none => exact ⟨⟨rfl, rfl, hleaves⟩, hfl.trans (flags_or_zero fl)⟩

/-- A tree whose root takes no part has no leaf that does, and raises no flag (R142). -/
theorem treeUp_padding : ∀ (n : Nat) (l : List (Option Nat)) (fl : FFlags), l.length = 2 ^ n → (treeUp comb n l fl).1 = none →
    (∀ x ∈ l, x = none) ∧ (treeUp comb n l fl).2 = fl
  | 0, [x], fl, _, h => ⟨fun y hy => (List.mem_singleton.1 hy).trans h, rfl⟩
  | n + 1, l, fl, hl, h => by
    obtain ⟨hnodes, hflags⟩ := treeUp_padding n _ _ (length_pairUp comb (2 ^ n) l _ fl (hl.trans (Nat.pow_succ'))) h
    obtain ⟨hleaves, hfl⟩ := pairUp_padding comb l _ fl hnodes
    exact ⟨hleaves, hflags.trans hfl⟩

end

/-- Addition modulo M at the nodes of a tree. -/
def wrapAdd (M : Nat) (_ u v : Nat) : Nat × FFlags := ((u + v) % M, 0)

/-- What the leaves hold in all, padding nothing. -/
def leafSum (l : List (Option Nat)) : Nat := (l.map (·.getD 0)).sum

theorem leafSum_pairUp (M : Nat) : ∀ (l : List (Option Nat)) (k : Nat) (fl : FFlags),
    leafSum (pairUp (wrapAdd M) l k fl).1 % M = leafSum l % M ∧ (pairUp (wrapAdd M) l k fl).2 = fl
  | [], _, _ => ⟨rfl, rfl⟩
  | [_], _, _ => ⟨rfl, rfl⟩
  | a :: b :: r, k, fl => by
    obtain ⟨hsum, hfl⟩ := leafSum_pairUp M r (k + 1) (fl ||| 0)
    have hnode (m : Nat) (hm : m % M = (a.getD 0 + b.getD 0) % M) :
        (m + leafSum (pairUp (wrapAdd M) r (k + 1) (fl ||| 0)).1) % M = leafSum (a :: b :: r) % M := by
      rw [Nat.add_mod, hm, hsum, ← Nat.add_mod, Nat.add_assoc]
      rfl
    have hfl' := hfl.trans (flags_or_zero fl)
    cases a with
    | some u =>
      cases b with
      | some v => exact ⟨hnode _ (Nat.mod_mod _ _), hfl'⟩
      | none => exact ⟨hnode _ rfl, hfl'⟩
    | none =>
      cases b with
      | some v => exact ⟨hnode v (congrArg (· % M) (Nat.zero_add v).symm), hfl'⟩
      | none => exact ⟨hnode 0 rfl, hfl'⟩

/-- The pairwise tree over integers is their sum: addition modulo M is associative. -/
theorem treeUp_wrapAdd (M : Nat) : ∀ (n : Nat) (l : List (Option Nat)) (fl : FFlags), l.length = 2 ^ n →
    (treeUp (wrapAdd M) n l fl).1.getD 0 % M = leafSum l % M ∧ (treeUp (wrapAdd M) n l fl).2 = fl
  | 0, [x], fl, _ => ⟨rfl, rfl⟩
  | n + 1, l, fl, hl => by
    obtain ⟨hsum, hfl⟩ := leafSum_pairUp M l (2 ^ n) fl
    obtain ⟨hroot, hflags⟩ := treeUp_wrapAdd M n (pairUp (wrapAdd M) l (2 ^ n) fl).1 (pairUp (wrapAdd M) l (2 ^ n) fl).2
      (length_pairUp _ (2 ^ n) l _ fl (hl.trans (Nat.pow_succ')))
    exact ⟨hroot.trans hsum, hflags.trans hfl⟩

/-! The sums of a reduction's active elements. -/

theorem le_two_pow_levels (m : Nat) : m ≤ 2 ^ levels m := by
  unfold levels
  split
  next h => exact h
  next => have := Nat.lt_log2_self (n := m - 1); omega

theorem foldl_add (f : Nat → Nat) : ∀ (l : List Nat) (c : Nat), l.foldl (fun c i => c + f i) c = c + (l.map f).sum
  | [], _ => rfl
  | i :: l, c => by rw [List.foldl_cons, foldl_add f l, List.map_cons, List.sum_cons, Nat.add_assoc]

theorem length_leaves (s : State) (e : VEntry) (a : Reg) (p : BitVec 3) (n : Nat) : (leaves s e a p n).length = 2 ^ n := by
  rw [leaves, List.length_map, List.length_range]

/-- The active elements of an instruction of VL elements. -/
def activeElems (s : State) (vl : Nat) (p : BitVec 3) : List Nat := (List.range vl).filter (s.pbit p.toNat)

theorem mem_activeElems {s : State} {vl : Nat} {p : BitVec 3} {i : Nat} : i ∈ activeElems s vl p ↔ i < vl ∧ s.pbit p.toNat i = true := by
  rw [activeElems, List.mem_filter, List.mem_range]

/-- The leaves are the active elements over padding. -/
theorem leaves_eq (s : State) (e : VEntry) (a : Reg) (p : BitVec 3) (n : Nat) : leaves s e a p n =
    (List.range (2 ^ n)).map fun i => if i ∈ activeElems s e.vl p then some (s.elem a.toNat e.w i) else none := by
  simp only [leaves, mem_activeElems]

/-- Padding beyond VL adds no active element. -/
theorem filter_activeElems (s : State) {vl m : Nat} (p : BitVec 3) (h : vl ≤ m) :
    (List.range m).filter (fun i => decide (i ∈ activeElems s vl p)) = activeElems s vl p := by
  obtain ⟨k, rfl⟩ := Nat.exists_eq_add_of_le h
  have hbody : (List.range vl).filter (fun i => decide (i ∈ activeElems s vl p)) = activeElems s vl p :=
    List.filter_congr fun i hi => by simp only [mem_activeElems, List.mem_range.1 hi, true_and, Bool.decide_eq_true]
  have hpadding : ((List.range k).map (vl + ·)).filter (fun i => decide (i ∈ activeElems s vl p)) = [] := by
    refine List.filter_eq_nil_iff.2 fun i hi => ?_
    obtain ⟨j, -, rfl⟩ := List.mem_map.1 hi
    rw [decide_eq_true_iff, mem_activeElems]
    omega
  rw [List.range_add, List.filter_append, hbody, hpadding, List.append_nil]

/-- The leaves hold what the active elements sum to. -/
theorem leafSum_leaves (s : State) (e : VEntry) (a : Reg) (p : BitVec 3) {n : Nat} (h : e.vl ≤ 2 ^ n) :
    leafSum (leaves s e a p n) = ((activeElems s e.vl p).map (s.elem a.toNat e.w)).sum := by
  have hvalue (i : Nat) : (if i ∈ activeElems s e.vl p then some (s.elem a.toNat e.w i) else none).getD 0 =
      if i ∈ activeElems s e.vl p then s.elem a.toNat e.w i else 0 := by split <;> rfl
  rw [leafSum, leaves_eq, List.map_map]
  simp only [Function.comp_def, hvalue]
  rw [List.sum_map_ite, filter_activeElems s p h, List.map_const', List.sum_replicate, smul_zero, Nat.add_zero]

/-! What each reduction computes (R140 to R143, R395). -/

theorem activeVals_eq (s : State) (e : VEntry) (a : Reg) (p : BitVec 3) :
    activeVals s e a p = (activeElems s e.vl p).map fun i => (i, s.elem a.toNat e.w i) := rfl

theorem tyFmt_int {t : Nat} (h : t < 8) : tyFmt t = none := by
  interval_cases t <;> rfl

theorem sumOf_int {e : VEntry} (h : e.ty < 8) (s : State) (rm : BitVec 3) (k u v : Nat) : sumOf s e rm k u v = wrapAdd (2 ^ (8 * e.w)) k u v := by
  rw [sumOf, tyFmt_int h]
  rfl

theorem sumOf_fp {e : VEntry} {g : FFmt} (h : tyFmt e.ty = some g) (s : State) (rm : BitVec 3) (k u v : Nat) :
    sumOf s e rm k u v = g.binop 0 (e.rc s rm k) u v := by
  rw [sumOf, h]

theorem redInit_lt (e : VEntry) : redInit e < 2 ^ (8 * e.w) := Nat.mod_lt _ (Nat.two_pow_pos _)

/-- An integer sum is the initial value and the active elements, modulo the width. -/
theorem redSum_int {e : VEntry} (h : e.ty < 8) (s : State) (a : Reg) (p rm : BitVec 3) : redSum s e a p rm =
    ((activeElems s e.vl p).foldl (fun c i => c + s.elem a.toNat e.w i) (redInit e) % 2 ^ (8 * e.w), 0) := by
  obtain ⟨hroot, hflags⟩ := treeUp_wrapAdd (2 ^ (8 * e.w)) (levels e.vl) (leaves s e a p (levels e.vl)) 0 (length_leaves ..)
  rw [leafSum_leaves s e a p (le_two_pow_levels e.vl)] at hroot
  rw [foldl_add, Nat.add_mod, ← hroot, ← Nat.add_mod, redSum]
  simp only [sumOf_int h]
  rcases htree : treeUp (wrapAdd (2 ^ (8 * e.w))) (levels e.vl) (leaves s e a p (levels e.vl)) 0 with ⟨_ | r, fl⟩
  all_goals
    rw [htree] at hflags
    obtain rfl : fl = 0 := hflags
  · exact Prod.ext (Nat.mod_eq_of_lt (redInit_lt e)).symm rfl
  · exact Prod.ext rfl (flags_or_zero 0)

/-- An ordered integer sum is the same. -/
theorem redOsum_int {e : VEntry} (h : e.ty < 8) (s : State) (a : Reg) (p rm : BitVec 3) : redOsum s e a p rm =
    ((activeElems s e.vl p).foldl (fun c i => c + s.elem a.toNat e.w i) (redInit e) % 2 ^ (8 * e.w), 0) := by
  have hinit : (redInit e, (0 : FFlags)) = (redInit e % 2 ^ (8 * e.w), 0) := by rw [Nat.mod_eq_of_lt (redInit_lt e)]
  rw [redOsum, activeVals_eq, List.foldl_map, hinit]
  refine List.foldl_hom (fun c => (c % 2 ^ (8 * e.w), (0 : FFlags))) fun c i => ?_
  rw [sumOf_int h]
  exact Prod.ext (Nat.mod_add_mod ..) (flags_or_zero 0)

/-- A floating sum is the rounded tree under the rounded addition of the initial value, which stays where no element is active (R140, R142). -/
theorem redSum_fp {e : VEntry} {g : FFmt} (h : tyFmt e.ty = some g) (s : State) (a : Reg) (p rm : BitVec 3) : redSum s e a p rm =
    match treeUp (fun k u v => g.binop 0 (e.rc s rm k) u v) (levels e.vl) (leaves s e a p (levels e.vl)) 0 with
    | (some r, fl) => ((g.binop 0 (e.rc s rm 0) (redInit e) r).1, fl ||| (g.binop 0 (e.rc s rm 0) (redInit e) r).2)
    | (none, _) => (redInit e, 0) := by
  rw [redSum]
  simp only [sumOf_fp h]
  rcases htree : treeUp (fun k u v => g.binop 0 (e.rc s rm k) u v) (levels e.vl) (leaves s e a p (levels e.vl)) 0 with ⟨_ | r, fl⟩
  · have hflags := (treeUp_padding _ _ _ _ (length_leaves ..) (congrArg Prod.fst htree)).2
    rw [htree] at hflags
    exact Prod.ext rfl hflags
  · rfl

/-- An ordered floating sum adds in element order, rounding each time (R141). -/
theorem redOsum_fp {e : VEntry} {g : FFmt} (h : tyFmt e.ty = some g) (s : State) (a : Reg) (p rm : BitVec 3) : redOsum s e a p rm =
    (activeElems s e.vl p).foldl (fun c i => ((g.binop 0 (e.rc s rm i) c.1 (s.elem a.toNat e.w i)).1,
      c.2 ||| (g.binop 0 (e.rc s rm i) c.1 (s.elem a.toNat e.w i)).2)) (redInit e, 0) := by
  rw [redOsum, activeVals_eq, List.foldl_map]
  simp only [sumOf_fp h]

theorem redMinmax_fp {e : VEntry} {g : FFmt} (h : tyFmt e.ty = some g) (s : State) (a : Reg) (p : BitVec 3) (isMax : Bool) : redMinmax s e a p isMax =
    (activeElems s e.vl p).foldl (fun c i => ((g.minmax isMax c.1 (s.elem a.toNat e.w i)).1,
      c.2 ||| (g.minmax isMax c.1 (s.elem a.toNat e.w i)).2)) (redInit e, 0) := by
  rw [redMinmax, activeVals_eq, List.foldl_map]
  simp only [h]

/-- The number that bits of an element type stand for. -/
def intValue (t u : Nat) : Int := if t < 4 then (BitVec.ofNat (8 * tyBytes t) u).toInt else u

theorem toSigned_eq {n : Nat} (hn : 0 < n) (u : Nat) : toSigned n u = (BitVec.ofNat n u).toInt := by
  obtain ⟨k, rfl⟩ := Nat.exists_eq_succ_of_ne_zero hn.ne'
  rw [toSigned, BitVec.toInt_eq_toNat_cond, BitVec.toNat_ofNat, Nat.succ_sub_one, Nat.pow_succ']
  simp only [Nat.mul_lt_mul_left Nat.two_pos]

theorem tyInt_eq {t u : Nat} (h : u < 2 ^ (8 * tyBytes t)) : tyInt t u = intValue t u := by
  unfold tyInt intValue tySigned tyBits
  simp only [decide_eq_true_eq]
  split
  · exact toSigned_eq (by have := tyBytes_pos t; omega) u
  · rw [Nat.mod_eq_of_lt h]

/-- An integer maximum or minimum is a fold in the order of the type (R143). -/
theorem redMinmax_int {e : VEntry} (h : e.ty < 8) (s : State) (a : Reg) (p : BitVec 3) (isMax : Bool) : redMinmax s e a p isMax =
    ((activeElems s e.vl p).foldl (fun c i =>
      if (if isMax then intValue e.ty c < intValue e.ty (s.elem a.toNat e.w i) else intValue e.ty (s.elem a.toNat e.w i) < intValue e.ty c)
        then s.elem a.toNat e.w i else c) (redInit e), 0) := by
  rw [redMinmax, activeVals_eq, List.foldl_map]
  simp only [tyFmt_int h]
  refine (List.foldl_rel (r := fun c c' => c = (c', (0 : FFlags)) ∧ c' < 2 ^ (8 * e.w)) ⟨rfl, redInit_lt e⟩ fun i _ c c' hc => ?_).1
  obtain ⟨rfl, hlt⟩ := hc
  have helem := elem_lt s a.toNat e.w i
  have hbits (u : Nat) (hu : u < 2 ^ (8 * e.w)) : tyInt e.ty u = intValue e.ty u := tyInt_eq hu
  cases isMax
  · simp only [vMin, hbits _ hlt, hbits _ helem, Bool.false_eq_true, if_false]
    exact ⟨trivial, by split <;> assumption⟩
  · simp only [vMax, hbits _ hlt, hbits _ helem, if_true]
    exact ⟨trivial, by split <;> assumption⟩

/-- VRLOG folds the bits of any type (R395). -/
theorem redLog_eq (s : State) (e : VEntry) (a : Reg) (p : BitVec 3) {k : BitVec 2} : redLog s e a p k =
    ((activeElems s e.vl p).foldl (fun c i => if k = 0 then c &&& s.elem a.toNat e.w i else if k = 1 then c ||| s.elem a.toNat e.w i
      else c ^^^ s.elem a.toNat e.w i) (redInit e), 0) := by
  have hcases : ∀ k : BitVec 2, k = 0 ∨ k = 1 ∨ k = 2 ∨ k = 3 := by decide
  rw [redLog, activeVals_eq, List.foldl_map]
  obtain rfl | rfl | rfl | rfl := hcases k <;> rfl

end Sys2Proof.Laws

/-!
SUPPORT. The reductions as instructions (R140 to R144, R394, R395), and O41.
-/

namespace Sys2Proof.Laws

open Sys2Proof.Machine

/-! The reductions and their two forms. -/

/-- The reductions of R395; VRLOG has its operation. -/
inductive Reduction where
  | sum
  | ordered
  | max
  | min
  | log (k : BitVec 2)

namespace Reduction

/-- The form that writes element 0 of vd. -/
def plain (d a b : Reg) (p : BitVec 3) (z : BitVec 1) : Reduction → Instr
  | sum => .vrsum d a b p z
  | ordered => .vrosum d a b p z
  | max => .vrmax d a b p z
  | min => .vrmin d a b p z
  | log k => .vrlog d a b p z k

/-- The form that delivers to a queue. -/
def queued (q a b : Reg) (p : BitVec 3) (z : BitVec 1) : Reduction → Instr
  | sum => .vrsumQ q a b p z
  | ordered => .vrosumQ q a b p z
  | max => .vrmaxQ q a b p z
  | min => .vrminQ q a b p z
  | log k => .vrlogQ q a b p z k

/-- It takes any element type. -/
def anyType : Reduction → Bool
  | log _ => true
  | _ => false

/-- It rounds under a floating type. -/
def rounds : Reduction → Bool
  | sum => true
  | ordered => true
  | _ => false

/-- What it computes. -/
def value (s : State) (e : VEntry) (a : Reg) (p rm : BitVec 3) : Reduction → Nat × FFlags
  | sum => redSum s e a p rm
  | ordered => redOsum s e a p rm
  | max => redMinmax s e a p true
  | min => redMinmax s e a p false
  | log k => redLog s e a p k

/-- Its rounding: none where FRM holds none that it needs (R394). -/
def rounding (e : VEntry) (r : Reduction) : Option (BitVec 3) := if r.rounds then redRound e else some 0

theorem exec_plain (d a b : Reg) (p : BitVec 3) (z : BitVec 1) (r : Reduction) (s : State) :
    exec (r.plain d a b p z) s = vector .lv (r.plain d a b p z) s := by cases r <;> rfl

theorem exec_queued (q a b : Reg) (p : BitVec 3) (z : BitVec 1) (r : Reduction) (s : State) :
    exec (r.queued q a b p z) s = vector .lv (r.queued q a b p z) s := by cases r <;> rfl

theorem vecOp_plain (d a b : Reg) (p : BitVec 3) (z : BitVec 1) (r : Reduction) (s : State) (e : VEntry) :
    vecOp (r.plain d a b p z) s e = reduce d a r.anyType r.rounds (fun rm => r.value s e a p rm) s e := by cases r <;> rfl

theorem vecOp_queued (q a b : Reg) (p : BitVec 3) (z : BitVec 1) (r : Reduction) (s : State) (e : VEntry) :
    vecOp (r.queued q a b p z) s e = reduceQ q a r.anyType r.rounds (fun rm => r.value s e a p rm) s e := by cases r <;> rfl

/-- Both forms capture x[b]. -/
theorem entryOf_plain (d a b : Reg) (p : BitVec 3) (z : BitVec 1) (r : Reduction) (s : State) :
    entryOf s (r.plain d a b p z) = capture s (r.plain d a b p z) 0 0 b 0 := by cases r <;> rfl

theorem entryOf_queued (q a b : Reg) (p : BitVec 3) (z : BitVec 1) (r : Reduction) (s : State) :
    entryOf s (r.queued q a b p z) = capture s (r.queued q a b p z) 0 0 b 0 := by cases r <;> rfl

theorem not_isVecMem_plain (d a b : Reg) (p : BitVec 3) (z : BitVec 1) (r : Reduction) : isVecMem (r.plain d a b p z) = false := by cases r <;> rfl

theorem not_isVecMem_queued (q a b : Reg) (p : BitVec 3) (z : BitVec 1) (r : Reduction) : isVecMem (r.queued q a b p z) = false := by
  cases r <;> rfl

theorem vecRound_plain (d a b : Reg) (p : BitVec 3) (z : BitVec 1) (r : Reduction) (ty : Nat) :
    vecRound (r.plain d a b p z) ty = if r.rounds && !tyIsInt ty then some 7 else none := by
  cases r with
  | sum | ordered => cases h : tyIsInt ty <;> simp [plain, rounds, vecRound, h]
  | max | min | log => rfl

theorem vecRound_queued (q a b : Reg) (p : BitVec 3) (z : BitVec 1) (r : Reduction) (ty : Nat) :
    vecRound (r.queued q a b p z) ty = vecRound (r.plain q a b p z) ty := by cases r <;> rfl

/-- It takes an ISN where it rounds to .rsr (R132). -/
def taken (s : State) (r : Reduction) : Bool := r.rounds && !tyIsInt s.ct.vec.vcfg.ty && (roundingOf 7 s.ct.fp.frm).getD 0 == 5

theorem takesIsn_plain (d a b : Reg) (p : BitVec 3) (z : BitVec 1) (r : Reduction) (s : State) : takesIsn s (r.plain d a b p z) = r.taken s := by
  rw [takesIsn, vecRound_plain, taken]
  cases r.rounds && !tyIsInt s.ct.vec.vcfg.ty <;> simp

theorem takesIsn_queued (q a b : Reg) (p : BitVec 3) (z : BitVec 1) (r : Reduction) (s : State) : takesIsn s (r.queued q a b p z) = r.taken s := by
  rw [takesIsn, vecRound_queued]
  exact takesIsn_plain q a b p z r s

/-- What it computes of the elements of a, under p, and x[b]. -/
def outcome (s : State) (a b : Reg) (p rm : BitVec 3) (r : Reduction) : Nat × FFlags := r.value s (capture s .nop 0 0 b 0) a p rm

/-- The charge of an issue takes no part in what is computed, nor does the form. -/
theorem value_charged (s : State) (rsr : Bool) (D : Int) (i : Instr) (a b : Reg) (p rm : BitVec 3) (r : Reduction) :
    r.value (charged s rsr D) (capture s i 0 0 b 0) a p rm = r.outcome s a b p rm := by cases r <;> rfl

/-- Nothing keeps the instruction from running: no trap of R48, R72, R139 or R394 is due. -/
structure Allowed (s : State) (rm : BitVec 3) (r : Reduction) : Prop where
  whole : s.ct.vec.vstart = 0
  type : (r.anyType || tyIsInt s.ct.vec.vcfg.ty || isArithFp s.ct.vec.vcfg.ty) = true
  rounding : (if r.rounds && !tyIsInt s.ct.vec.vcfg.ty then roundingOf 7 s.ct.fp.frm else some 0) = some rm

theorem Allowed.redRound {s : State} {rm : BitVec 3} {r : Reduction} (h : r.Allowed s rm) (i : Instr) (b : Reg) :
    (if r.rounds then redRound (capture s i 0 0 b 0) else some 0) = some rm := by
  rw [← h.rounding]
  change (if r.rounds then (if tyIsInt s.ct.vec.vcfg.ty then some 0 else roundingOf 7 s.ct.fp.frm) else some 0) = _
  cases r.rounds <;> cases tyIsInt s.ct.vec.vcfg.ty <;> rfl

end Reduction

theorem need_true {α : Type} {c : Bool} (h : c = true) (code : BitVec 8) (s : State) (f : Res α) : need c code s f = f := if_pos h

theorem whole_of_zero {α : Type} {s : State} (h : s.ct.vec.vstart = 0) (f : Res α) : whole s f = f := need_true (beq_of_eq h) _ _ _

section
variable {s : State} {e : VEntry} {a : Reg} {anyType rounds : Bool} {rm : BitVec 3} (ha : aligned e a = true) (hz : s.ct.vec.vstart = 0)
  (hrm : (if rounds then redRound e else some 0) = some rm) (hty : (anyType || tyIsInt e.ty || isArithFp e.ty) = true)
include ha hz hrm hty

theorem reduce_ok {d : Reg} (hd : aligned e d = true) (f : BitVec 3 → Nat × FFlags) :
    reduce d a anyType rounds f s e = .ok (Effects.flags (f rm).2) (writeFirst s e d (f rm).1) := by
  rw [reduce, need_true (by rw [hd, ha]; rfl), whole_of_zero hz, hrm]
  exact need_true hty ..

theorem reduceQ_ok {q : Reg} (hq : 4 ≤ q.toNat) (f : BitVec 3 → Nat × FFlags) :
    reduceQ q a anyType rounds f s e = .ok (Effects.queue q.toNat (deliverExt e.ty (f rm).1) (f rm).2) s := by
  rw [reduceQ, need_true ha, whole_of_zero hz, hrm]
  exact (need_true hty ..).trans (need_true (decide_eq_true hq) ..)

end

theorem aligned_capture {s : State} {r : Reg} (h : GroupOk s r) (i : Instr) (b : Reg) : aligned (capture s i 0 0 b 0) r = true := beq_of_eq h

/-- What a queue is given of an element of the type in force (R76). -/
def extended (s : State) (v : Nat) : Word :=
  if s.ct.vec.vcfg.ty < 4 then (BitVec.ofNat (8 * s.ew) v).signExtend 64 else BitVec.ofNat 64 v

theorem ofNat_wrapN (i : Int) : BitVec.ofNat 64 (wrapN 64 i) = BitVec.ofInt 64 i := by
  refine BitVec.eq_of_toNat_eq ?_
  rw [BitVec.toNat_ofNat, BitVec.toNat_ofInt, wrapN, Nat.mod_eq_of_lt (by omega)]

theorem deliverExt_capture (s : State) (i : Instr) (b : Reg) (v : Nat) : deliverExt (capture s i 0 0 b 0).ty v = extended s v := by
  have hpos : 0 < 8 * s.ew := Nat.mul_pos (by decide) (tyBytes_pos _)
  change BitVec.ofNat 64 (if decide (s.ct.vec.vcfg.ty < 4) then _ else v) = _
  unfold extended
  simp only [decide_eq_true_eq]
  split
  · exact (ofNat_wrapN _).trans (congrArg (BitVec.ofInt 64) (toSigned_eq hpos v))
  · rfl

/-- A destination of one element (R66, R395): nothing is written where VL is 0. -/
theorem writeFirst_group {s : State} {e : VEntry} {d : Reg} (hr : Runs s e) (hform : VecForm s) (hd : GroupOk s d) (hz : s.ct.vec.vstart = 0)
    (rsr : Bool) (D : Int) (v : Nat) :
    FileOnly (charged s rsr D) (writeFirst (charged s rsr D) e d v) (inGroup s d.toNat) ∧
    GroupAfter s (writeFirst (charged s rsr D) e d v) d.toNat (fun i => i == 0) fun _ => v := by
  unfold writeFirst
  split
  next h0 =>
    refine ⟨.refl _ _, fun j _ => ?_⟩
    rw [if_neg (by rw [hz, ← hr.vl, h0]; decide)]
    rfl
  next h0 => exact stripWritten_group hr hform hd rsr D (by rw [hz, ← hr.vl]; omega) _ fun _ => (v, 0)

/-- Both forms of a reduction: the plain one writes element 0 of vd, the other delivers, and both have the flags and take the ISN. -/
def Reduces (s : State) (d q : Reg) (i j : Instr) (r : Nat × FFlags) (rsr : Bool) : Prop :=
  (∃ t, exec i s = .next t ∧ VecFpResult s t d (fun k => k == 0) (fun _ => r) r.2 rsr) ∧
    ∃ t, exec j s = .next t ∧ Delivers s t q (extended s r.1) r.2 rsr

section
variable {s : State} (hv : VecStart s .lv) {a : Reg} (ha : GroupOk s a) {rm : BitVec 3} {r : Reduction} (hr : r.Allowed s rm)
include hv ha hr

theorem exec_reduction_plain {d : Reg} (hd : GroupOk s d) (b : Reg) (p : BitVec 3) (z : BitVec 1) : ∃ t, exec (r.plain d a b p z) s = .next t ∧
    VecFpResult s t d (fun k => k == 0) (fun _ => r.outcome s a b p rm) (r.outcome s a b p rm).2 (r.taken s) := by
  obtain ⟨hready, hform, hlv⟩ := hv
  obtain ⟨D, hD⟩ := vector_completes hready hlv (r.not_isVecMem_plain d a b p z)
  rw [r.takesIsn_plain, r.entryOf_plain, r.vecOp_plain, reduce_ok (s := charged s (r.taken s) D) (aligned_capture ha _ b) hr.whole
    (hr.redRound _ b) hr.type (aligned_capture hd _ b), r.value_charged] at hD
  obtain ⟨hfile, hgroup⟩ := writeFirst_group (e := capture s (r.plain d a b p z) 0 0 b 0) ⟨rfl, rfl, rfl⟩ hform hd hr.whole (r.taken s) D
    (r.outcome s a b p rm).1
  exact ⟨_, (r.exec_plain d a b p z s).trans (hD _ _ rfl rfl rfl), vecFpResult_of _ hfile hgroup⟩

theorem exec_reduction_queued {q : Reg} (hlo : 4 ≤ q.toNat) (hhi : q.toNat < 8) (hroom : s.roomIn q.toNat = true) (hw : s.ct.ctl.wait ≠ .ending)
    (b : Reg) (p : BitVec 3) (z : BitVec 1) : ∃ t, exec (r.queued q a b p z) s = .next t ∧
    Delivers s t q (extended s (r.outcome s a b p rm).1) (r.outcome s a b p rm).2 (r.taken s) := by
  obtain ⟨hready, hform, hlv⟩ := hv
  obtain ⟨D, hD⟩ := vector_completes hready hlv (r.not_isVecMem_queued q a b p z)
  rw [r.takesIsn_queued, r.entryOf_queued, r.vecOp_queued, reduceQ_ok (s := charged s (r.taken s) D) (aligned_capture ha _ b) hr.whole
    (hr.redRound _ b) hr.type hlo, r.value_charged, deliverExt_capture] at hD
  have hmay : mayComplete (charged s (r.taken s) D)
      (Effects.queue q.toNat (extended s (r.outcome s a b p rm).1) (r.outcome s a b p rm).2) = true := by
    have hroom' : (charged s (r.taken s) D).roomIn q.toNat = true := hroom
    simp only [mayComplete, Effects.queue, Effects.none, hroom']
    rfl
  exact ⟨_, (r.exec_queued q a b p z s).trans (hD _ _ rfl rfl hmay), delivers_of _ _ hhi hw⟩

theorem reduces {d q : Reg} (hd : GroupOk s d) (hlo : 4 ≤ q.toNat) (hhi : q.toNat < 8) (hroom : s.roomIn q.toNat = true)
    (hw : s.ct.ctl.wait ≠ .ending) (b : Reg) (p : BitVec 3) (z : BitVec 1) :
    Reduces s d q (r.plain d a b p z) (r.queued q a b p z) (r.outcome s a b p rm) (r.taken s) :=
  ⟨exec_reduction_plain hv ha hr hd b p z, exec_reduction_queued hv ha hr hlo hhi hroom hw b p z⟩

end

/-! The cases of the element type. -/

namespace Reduction

theorem allowed_int {s : State} (hz : s.ct.vec.vstart = 0) (h : s.ct.vec.vcfg.ty < 8) (r : Reduction) : r.Allowed s 0 := by
  have hint : tyIsInt s.ct.vec.vcfg.ty = true := decide_eq_true h
  exact ⟨hz, by simp [hint], by simp [hint]⟩

theorem allowed_fp {s : State} (hz : s.ct.vec.vstart = 0) (hlo : 10 ≤ s.ct.vec.vcfg.ty) (hhi : s.ct.vec.vcfg.ty ≤ 13) {rm : BitVec 3}
    (r : Reduction) (hrm : (if r.rounds then roundingOf 7 s.ct.fp.frm else some 0) = some rm) : r.Allowed s rm := by
  have hint : tyIsInt s.ct.vec.vcfg.ty = false := decide_eq_false (by omega)
  exact ⟨hz, by simp [isArithFp, hlo, hhi], by simpa [hint] using hrm⟩

theorem allowed_log {s : State} (hz : s.ct.vec.vstart = 0) (k : BitVec 2) : (log k).Allowed s 0 := ⟨hz, rfl, rfl⟩

theorem not_taken_int {s : State} (h : s.ct.vec.vcfg.ty < 8) (r : Reduction) : r.taken s = false := by simp [taken, tyIsInt, h]

theorem taken_fp {s : State} (h : 10 ≤ s.ct.vec.vcfg.ty) {rm : BitVec 3} (hrm : roundingOf 7 s.ct.fp.frm = some rm) {r : Reduction}
    (hr : r.rounds = true) : r.taken s = (rm == 5) := by
  have hint : tyIsInt s.ct.vec.vcfg.ty = false := decide_eq_false (by omega)
  rw [taken, hr, hint, hrm]
  rfl

end Reduction

theorem tyFmt_arith {t : Nat} (hlo : 10 ≤ t) (hhi : t ≤ 13) : tyFmt t = some ((tyFmt t).getD .f64) := by interval_cases t <;> rfl

/-- Settles O41: a reduction runs at once, and the element type decides what it computes: a sum modulo the width, the rounded tree, or a fold. -/
theorem reductions : Obligations.Reductions := by
  intro s d a b q p z k rm hv hd ha hz hlo hhi hroom hw _
  have hboth {r : Reduction} {rm : BitVec 3} {v : Nat × FFlags} {rsr : Bool} (hr : r.Allowed s rm) (hval : r.outcome s a b p rm = v)
      (hrsr : r.taken s = rsr) : Reduces s d q (r.plain d a b p z) (r.queued q a b p z) v rsr := by
    rw [← hval, ← hrsr]
    exact reduces hv ha hr hd hlo hhi hroom hw b p z
  have ⟨_, ⟨_, hmax, _⟩, _⟩ := hv
  refine ⟨fun hint => ?int, fun hfp hrm => ?sums, fun hfp => ?folds, ?log⟩
  case int =>
    have hallowed := Reduction.allowed_int hz hint
    have htaken := Reduction.not_taken_int hint
    have hentry : (capture s .nop 0 0 b 0).ty < 8 := hint
    exact ⟨hboth (r := .sum) (hallowed _) (redSum_int hentry s a p 0) (htaken _),
      hboth (r := .ordered) (hallowed _) (redOsum_int hentry s a p 0) (htaken _),
      hboth (r := .max) (hallowed _) (redMinmax_int hentry s a p true) (htaken _),
      hboth (r := .min) (hallowed _) (redMinmax_int hentry s a p false) (htaken _)⟩
  case sums =>
    have hfmt : tyFmt (capture s .nop 0 0 b 0).ty = _ := tyFmt_arith hfp hmax
    have htree := redSum_fp hfmt s a p rm
    rw [leaves_eq] at htree
    exact ⟨hboth (r := .sum) (Reduction.allowed_fp hz hfp hmax _ hrm) htree (Reduction.taken_fp hfp hrm rfl),
      hboth (r := .ordered) (Reduction.allowed_fp hz hfp hmax _ hrm) (redOsum_fp hfmt s a p rm) (Reduction.taken_fp hfp hrm rfl)⟩
  case folds =>
    have hfmt : tyFmt (capture s .nop 0 0 b 0).ty = _ := tyFmt_arith hfp hmax
    exact ⟨hboth (r := .max) (Reduction.allowed_fp hz hfp hmax _ rfl) (redMinmax_fp hfmt s a p true) rfl,
      hboth (r := .min) (Reduction.allowed_fp hz hfp hmax _ rfl) (redMinmax_fp hfmt s a p false) rfl⟩
  case log => exact hboth (r := .log k) (Reduction.allowed_log hz k) (redLog_eq s _ a p) rfl

end Sys2Proof.Laws

/-!
SUPPORT. The tiles of the matrix array (R154, R158, R336, R345): cells read back after rows of a tile were written, and what MMAC, MZERO and MLDACC
leave in a tile.
-/

namespace Sys2Proof.Laws

open Sys2Proof.Machine

/-! Cells of an accumulator row. -/

/-- Column c of an accumulator row. -/
def rowCell (v : BitVec 6144) (c : Nat) : Nat := natBits v.toNat (32 * c) 32

theorem rowCell_zero (c : Nat) : rowCell 0 c = 0 := by
  refine Nat.eq_of_testBit_eq fun i => ?_
  rw [rowCell, testBit_natBits, BitVec.testBit_toNat]
  simp

/-- A list of cells written over a row, the first at column k. -/
def fillRow (v : BitVec 6144) (cs : List Nat) (k : Nat) : BitVec 6144 := (cs.zipIdx k).foldl (fun v x => putBits v (32 * x.2) 32 x.1) v

/-- The columns of the list hold its cells, and every other column keeps its own. -/
theorem rowCell_fillRow : ∀ (cs : List Nat) (v : BitVec 6144) (k : Nat), k + cs.length ≤ 192 → ∀ {c : Nat}, c < 192 →
    rowCell (fillRow v cs k) c = if k ≤ c ∧ c < k + cs.length then cs.getD (c - k) 0 % 2 ^ 32 else rowCell v c
  | [], v, k, _, c, _ => (if_neg (by simp)).symm
  | x :: cs, v, k, h, c, hc => by
    rw [List.length_cons] at h
    have ih := rowCell_fillRow cs (putBits v (32 * k) 32 x) (k + 1) (by omega) hc
    refine ih.trans ?_
    rw [List.length_cons]
    by_cases hin : k + 1 ≤ c ∧ c < k + 1 + cs.length
    · rw [if_pos hin, if_pos (by omega), show c - k = c - (k + 1) + 1 by omega, List.getD_cons_succ]
    · rw [if_neg hin]
      by_cases hk : c = k
      · subst hk
        rw [if_pos (by omega), Nat.sub_self, List.getD_cons_zero]
        exact (natBits_putBits_within v x le_rfl le_rfl (by omega)).trans (by rw [Nat.sub_self]; rfl)
      · rw [if_neg (by omega)]
        exact natBits_putBits_beside v x (by omega) (by omega)

/-! Rows of the array. -/

/-- Row i of the accumulator. -/
def accRow (s : State) (i : Nat) : BitVec 6144 := s.ct.mx.acc.toList.getD i 0

theorem cell_eq (s : State) (t r c : Nat) : s.cell t r c = rowCell (accRow s (8 * t + r)) c := rfl

/-- Nothing changed but accumulator rows. -/
def AccOnly (s t : State) : Prop := t = { s with ct := { s.ct with mx := { s.ct.mx with acc := t.ct.mx.acc } } }

theorem AccOnly.refl (s : State) : AccOnly s s := rfl

theorem AccOnly.trans {s t u : State} (h : AccOnly s t) (k : AccOnly t u) : AccOnly s u := Eq.trans k (by rw [h])

theorem accOnly_putRow (s : State) (t r : Nat) (cs : List Nat) : AccOnly s (s.putRow t r cs) := rfl

theorem accRow_putRow (s : State) (t r : Nat) (cs : List Nat) (i : Nat) :
    accRow (s.putRow t r cs) i = if i = 8 * t + r ∧ 8 * t + r < 64 then fillRow (accRow s (8 * t + r)) cs 0 else accRow s i :=
  getD_setIfInBounds s.ct.mx.acc (8 * t + r) i _ 0

/-- The first g rows of a tile written, row r from the cells that rows gives it. -/
def putRows (s : State) (t g : Nat) (rows : Nat → List Nat) : State := (List.range g).foldl (fun u r => u.putRow t r (rows r)) s

theorem putRows_succ (s : State) (t g : Nat) (rows : Nat → List Nat) : putRows s t (g + 1) rows = (putRows s t g rows).putRow t g (rows g) := by
  rw [putRows, List.range_succ, List.foldl_concat]
  rfl

theorem accOnly_putRows (s : State) (t : Nat) (rows : Nat → List Nat) : ∀ g, AccOnly s (putRows s t g rows)
  | 0 => .refl s
  | g + 1 => putRows_succ s t g rows ▸ (accOnly_putRows s t rows g).trans (accOnly_putRow ..)

theorem cell_putRows (s : State) {t : Nat} (ht : t < 8) {rows : Nat → List Nat} (hrows : ∀ r, (rows r).length ≤ 192) {o r c : Nat} (hr : r < 8)
    (hc : c < 192) : ∀ {g : Nat}, g ≤ 8 → (putRows s t g rows).cell o r c =
      if o = t ∧ r < g ∧ c < (rows r).length then (rows r).getD c 0 % 2 ^ 32 else s.cell o r c
  | 0, _ => (if_neg (by omega)).symm
  | g + 1, hg => by
    have ih := cell_putRows s ht hrows hr hc (o := o) (g := g) (by omega)
    rw [putRows_succ, cell_eq, accRow_putRow]
    by_cases hrow : o = t ∧ r = g
    · obtain ⟨rfl, rfl⟩ := hrow
      have hnone : rowCell (accRow (putRows s o r rows) (8 * o + r)) c = s.cell o r c := ih.trans (if_neg (by omega))
      have hlen := hrows r
      rw [if_pos ⟨rfl, by omega⟩, rowCell_fillRow _ _ _ (by omega) hc, Nat.zero_add, Nat.sub_zero, hnone]
      exact if_congr (by omega) rfl rfl
    · rw [if_neg (by omega)]
      exact ih.trans (if_congr (by omega) rfl rfl)

/-! A tile that is empty. -/

/-- The accumulator with the first n rows of a tile at zero. -/
def zeroRows (acc : Vector (BitVec 6144) 64) (t n : Nat) : Vector (BitVec 6144) 64 :=
  (List.range n).foldl (fun a r => a.setIfInBounds (8 * t + r) 0) acc

theorem getD_zeroRows (acc : Vector (BitVec 6144) 64) {t : Nat} (ht : t < 8) (i : Nat) : ∀ {n : Nat}, n ≤ 8 →
    (zeroRows acc t n).toList.getD i 0 = if 8 * t ≤ i ∧ i < 8 * t + n then 0 else acc.toList.getD i 0
  | 0, _ => (if_neg (by omega)).symm
  | n + 1, hn => by
    rw [zeroRows, List.range_succ, List.foldl_concat]
    refine (getD_setIfInBounds ..).trans ?_
    have ih := getD_zeroRows acc ht i (n := n) (by omega)
    by_cases hi : i = 8 * t + n
    · rw [if_pos ⟨hi, by omega⟩, if_pos (by omega)]
    · rw [if_neg fun h => hi h.1]
      exact ih.trans (if_congr (by omega) rfl rfl)

/-! What a matrix instruction leaves. -/

/-- Nothing changed but the tiles. -/
def TilesOnly (s t : State) : Prop := t = { s with ct := { s.ct with mx := { s.ct.mx with acc := t.ct.mx.acc, kinds := t.ct.mx.kinds } } }

theorem AccOnly.setKind {s t : State} (h : AccOnly s t) (tile : Nat) (k : TileKind) : TilesOnly s (t.setKind tile k) := by
  unfold TilesOnly State.setKind State.onMx
  rw [h]

theorem tileKind_setKind (s : State) {t : Nat} (ht : t < 8) (k : TileKind) (o : Nat) :
    (s.setKind t k).tileKind o = if o = t then k else s.tileKind o :=
  (getD_setIfInBounds s.ct.mx.kinds t o k .empty).trans (if_congr (and_iff_left ht) rfl rfl)

/-- An instruction that writes cells of one tile and its kind leaves the tile so. -/
theorem tileAfter_setKind {s u : State} {tile : Reg} (ht : tile.toNat < 8) (k : TileKind) (f : Nat → Nat → Nat) (hu : AccOnly s u)
    (hcells : ∀ o r c, r < 8 → c < 192 → u.cell o r c = if o = tile.toNat then f r c else s.cell o r c) :
    TileAfter s (u.setKind tile.toNat k) tile k f := by
  have hkinds : u.ct.mx.kinds = s.ct.mx.kinds := by rw [hu]
  refine ⟨fun r c hr hc => (hcells _ r c hr hc).trans (if_pos rfl), ?_, fun o _ ho => ⟨?_, fun r c hr hc => ?_⟩⟩
  · exact (tileKind_setKind u ht k _).trans (if_pos rfl)
  · rw [tileKind_setKind u ht k, if_neg ho, State.tileKind, hkinds]
    rfl
  · exact (hcells o r c hr hc).trans (if_neg ho)

/-- The completion of a matrix instruction that wrote tiles (R71, R160): the tiles stay. -/
theorem applyEffects_mflags (s : State) (fl : BitVec 3) :
    applyEffects s { Effects.none with mflags := fl } = (fromZero s).onMx fun m => { m with mxflag := m.mxflag ||| fl } := by
  simp [applyEffects, payEffects, Effects.none, writeSample, State.orFlags, State.onMx]

theorem matrixOnly_of {s t : State} {D : Int} (fl : BitVec 3) (h : TilesOnly (charged s false D) t) :
    MatrixOnly s (applyEffects t { Effects.none with mflags := fl }).advance fl := by
  rw [applyEffects_mflags]
  unfold MatrixOnly State.advance fromZero State.onMx State.onVec
  rw [h]
  rfl

theorem tileAfter_complete {s t : State} {D : Int} {tile : Reg} {k : TileKind} {f : Nat → Nat → Nat} (fl : BitVec 3)
    (h : TileAfter (charged s false D) t tile k f) : TileAfter s (applyEffects t { Effects.none with mflags := fl }).advance tile k f := by
  rw [applyEffects_mflags]
  exact h

/-! The instructions that work on tiles alone. -/

/-- What the three instructions leave: their tile, and their flags. -/
def TileResult (s : State) (i : Instr) (tile : Reg) (k : TileKind) (f : Nat → Nat → Nat) (fl : BitVec 3) : Prop :=
  ∃ t, exec i s = .next t ∧ TileAfter s t tile k f ∧ MatrixOnly s t fl

/-- An instruction that writes cells of a tile and its kind completes at once. -/
theorem tileResult_of {s : State} (hv : VecReady s) (hp : s.has .lm = true) {i : Instr} (hi : exec i s = vector .lm i s) (hm : isVecMem i = false)
    (hisn : takesIsn s i = false) {tile : Reg} (ht : tile.toNat < 8) {k : TileKind} {f : Nat → Nat → Nat} {fl : BitVec 3} (rows : State → State)
    (hop : ∀ D, vecOp i (charged s false D) (entryOf s i) =
      .ok { Effects.none with mflags := fl } ((rows (charged s false D)).setKind tile.toNat k))
    (hacc : ∀ u, AccOnly u (rows u))
    (hcells : ∀ u, (∀ o r c, u.cell o r c = s.cell o r c) → ∀ o r c, r < 8 → c < 192 →
      (rows u).cell o r c = if o = tile.toNat then f r c else s.cell o r c) : TileResult s i tile k f fl := by
  obtain ⟨D, hD⟩ := vector_completes hv hp hm
  rw [hisn] at hD
  have hafter : TileAfter (charged s false D) ((rows (charged s false D)).setKind tile.toNat k) tile k f :=
    tileAfter_setKind ht k f (hacc _) (hcells _ fun _ _ _ => rfl)
  exact ⟨_, hi.trans (hD _ _ (hop D) rfl rfl), tileAfter_complete fl hafter, matrixOnly_of fl ((hacc _).setKind _ k)⟩

/-- Rows of lists of cells, as the cells of a tile. -/
theorem cell_putRows_range {s : State} {tile : Reg} (ht : tile.toNat < 8) {u : State} (hu : ∀ o r c, u.cell o r c = s.cell o r c)
    {n : Nat} (hn : n ≤ 192) (f : Nat → Nat → Nat) {g : Nat} (hg : g ≤ 8)
    (o r c : Nat) (hr : r < 8) (hc : c < 192) : (putRows u tile.toNat g fun r => (List.range n).map (f r)).cell o r c =
      if o = tile.toNat then (if r < g ∧ c < n then f r c % 2 ^ 32 else s.cell tile.toNat r c) else s.cell o r c := by
  rw [cell_putRows u ht (fun r => by simpa using hn) hr hc hg, hu, List.length_map, List.length_range]
  by_cases ho : o = tile.toNat
  · subst ho
    rw [if_pos rfl]
    by_cases hin : r < g ∧ c < n
    · rw [if_pos ⟨rfl, hin⟩, if_pos hin, List.getD_eq_getElem?_getD, List.getElem?_map, List.getElem?_range hin.2]
      rfl
    · rw [if_neg fun h => hin h.2, if_neg hin]
  · rw [if_neg fun h => ho h.1, if_neg ho]

theorem grp_rows_le (s : State) : s.ct.vec.vcfg.g ≤ 8 := by
  have hgrp := s.ct.vec.vcfg.grp.isLt
  exact Nat.pow_le_pow_right (j := 3) (by decide) (by omega)

/-! Products (R154 to R157). -/

/-- A tile of whole numbers or of fractions, by the type of A and the panel's scaling (R155). -/
def productKind (pn : Panel) (ty : Nat) : TileKind := if ty == 0 && !pn.scaled then .int else .fp

/-- What MMAC makes of cell (r, c): the products of row r of A with column c of the panel join it, with flags. -/
def productCell (pn : Panel) (kp : Nat) (tile a : Reg) (u : State) (e : VEntry) (r c : Nat) : Nat × BitVec 3 :=
  mmacCell pn e.ty kp e.vl (e.ty == 0 && !pn.scaled) ((List.range e.vl).map fun k => aVal e.ty (u.elem (a.toNat + r) e.w k)) c (u.cell tile.toNat r c)

/-- The flags of the cells of g rows. -/
def productFlags (out : Nat → Nat → Nat × BitVec 3) (g : Nat) : BitVec 3 :=
  (List.range g).foldl (fun u r => (List.range 192).foldl (fun u c => u ||| (out r c).2) u) 0

theorem vopMmac_ok {u : State} {e : VEntry} {tile a : Reg} {pn : Panel} {kp : Nat} (hz : u.ct.vec.vstart = 0)
    (hok : (aligned e a && tileOk u tile && handleOk e.xb && decide (e.vl ≤ u.L / e.w)) = true) (hty : mmacType e.ty = true) (hpos : e.vl ≠ 0)
    (hpanel : panelOf u e.xb = some pn) (hpair : pairing e.ty pn.mf = some kp)
    (hfree : u.tileKind tile.toNat = .empty ∨ u.tileKind tile.toNat = productKind pn e.ty) (hrows : e.vl ≤ pn.dataRows * pn.kRow)
    (hready : pn.len ≤ pn.ready) :
    vopMmac tile a u e = .ok { Effects.none with mflags := productFlags (productCell pn kp tile a u e) e.g }
      ((putRows u tile.toNat e.g fun r => (List.range 192).map fun c => (productCell pn kp tile a u e r c).1).setKind tile.toNat (productKind pn e.ty)) := by
  have hfree' : (u.tileKind tile.toNat == .empty || u.tileKind tile.toNat == productKind pn e.ty) = true := by simpa using hfree
  unfold productKind at hfree' ⊢
  rw [vopMmac, whole_of_zero hz, need_true hok, need_true hty, if_neg hpos]
  simp only [hpanel, hpair, need_true hfree', need_true (decide_eq_true hrows), if_neg (Nat.not_lt.2 hready), List.map_map, List.foldl_map]
  rw [List.foldl_hom₂ (List.range e.g) Prod.mk (fun u' r => u'.putRow tile.toNat r ((List.range 192).map fun c => (productCell pn kp tile a u e r c).1))
    (fun f r => (List.range 192).foldl (fun f c => f ||| (productCell pn kp tile a u e r c).2) f) _ u 0 fun _ _ _ => rfl]
  rfl

section
variable {s : State} (hv : VecReady s) (hp : s.has .lm = true) (hz : s.ct.vec.vstart = 0) {tile : Reg} (ht : tile.toNat < min 8 s.ct.task.tiles)
include hv hp hz ht

theorem exec_mzero : TileResult s (.mzero tile) tile .empty (fun _ _ => 0) 0 := by
  have hok (D : Int) : tileOk (charged s false D) tile = true := decide_eq_true (by omega : tile.toNat < s.ct.task.tiles)
  refine tileResult_of hv hp rfl rfl rfl (by omega) (fun u => u.onMx fun m => { m with acc := zeroRows m.acc tile.toNat 8 }) (fun D => ?op)
    (fun u => rfl) (fun u hu o r c hr hc => ?cells)
  case op =>
    change vopMzero tile (charged s false D) (entryOf s (.mzero tile)) = _
    rw [vopMzero, whole_of_zero (s := charged s false D) hz, need_true (hok D)]
    rfl
  case cells =>
    have hrow : accRow (u.onMx fun m => { m with acc := zeroRows m.acc tile.toNat 8 }) (8 * o + r) =
        if 8 * tile.toNat ≤ 8 * o + r ∧ 8 * o + r < 8 * tile.toNat + 8 then 0 else accRow u (8 * o + r) := getD_zeroRows _ (by omega) _ le_rfl
    rw [cell_eq, hrow]
    by_cases ho : o = tile.toNat
    · rw [if_pos (by omega), if_pos ho]
      exact rowCell_zero c
    · rw [if_neg (by omega), if_neg ho]
      exact hu o r c

theorem exec_mldacc {a : Reg} (ha : GroupOk s a) (hpos : 0 < s.ct.vec.vl) (hcols : s.ct.vec.vl ≤ 192) (hlen : s.ct.vec.vl ≤ s.L / 4)
    (hty : s.ct.vec.vcfg.ty = 2 ∨ s.ct.vec.vcfg.ty = 12) :
    TileResult s (.mldacc tile a) tile (if s.ct.vec.vcfg.ty = 2 then .int else .fp)
      (fun r c => if r < s.ct.vec.vcfg.g ∧ c < s.ct.vec.vl then s.elem (a.toNat + r) 4 c else s.cell tile.toNat r c) 0 := by
  refine tileResult_of hv hp rfl rfl rfl (by omega)
    (fun u => putRows u tile.toNat s.ct.vec.vcfg.g fun r => (List.range s.ct.vec.vl).map (s.elem (a.toNat + r) 4)) (fun D => ?op)
    (fun u => accOnly_putRows ..) (fun u hu o r c hr hc => ?cells)
  case op =>
    have hok : (aligned (entryOf s (.mldacc tile a)) a && tileOk s tile && decide (s.ct.vec.vl ≤ 192) && decide (s.ct.vec.vl ≤ s.L / 4)) = true := by
      have htile : tileOk s tile = true := decide_eq_true (by omega)
      rw [htile, decide_eq_true hcols, decide_eq_true hlen, show aligned (entryOf s (.mldacc tile a)) a = true from beq_of_eq ha]
      rfl
    have htype : (s.ct.vec.vcfg.ty == 2 || s.ct.vec.vcfg.ty == 12) = true := by simpa using hty
    change vopMldacc tile a (charged s false D) (entryOf s (.mldacc tile a)) = _
    refine (whole_of_zero (s := charged s false D) hz _).trans ((need_true hok ..).trans ((need_true htype ..).trans ((if_neg (Nat.ne_of_gt hpos)).trans ?_)))
    simp only [beq_iff_eq]
    rfl
  case cells =>
    rw [cell_putRows_range (by omega) hu hcols (fun r => s.elem (a.toNat + r) 4) (grp_rows_le s) o r c hr hc,
      Nat.mod_eq_of_lt (elem_lt s _ 4 _)]

/-- MMAC completes with its cells and their flags (R154 to R157). -/
theorem exec_mmac {a b : Reg} {pn : Panel} {kp : Nat} (ha : GroupOk s a) (hb : handleOk (s.getX b) = true) (hpos : 0 < s.ct.vec.vl)
    (hlen : s.ct.vec.vl ≤ s.L / s.ew) (hpanel : panelOf s (s.getX b) = some pn) (hpair : pairing s.ct.vec.vcfg.ty pn.mf = some kp)
    (hrows : s.ct.vec.vl ≤ pn.dataRows * pn.kRow) (hready : pn.len ≤ pn.ready) (hty : mmacType s.ct.vec.vcfg.ty = true)
    (hfree : s.tileKind tile.toNat = .empty ∨ s.tileKind tile.toNat = productKind pn s.ct.vec.vcfg.ty) :
    TileResult s (.mmac tile a b) tile (productKind pn s.ct.vec.vcfg.ty)
      (fun r c => if r < s.ct.vec.vcfg.g then (productCell pn kp tile a s (entryOf s (.mmac tile a b)) r c).1 % 2 ^ 32 else s.cell tile.toNat r c)
      (productFlags (productCell pn kp tile a s (entryOf s (.mmac tile a b))) s.ct.vec.vcfg.g) := by
  refine tileResult_of hv hp rfl rfl rfl (by omega) (fun u => putRows u tile.toNat s.ct.vec.vcfg.g
    fun r => (List.range 192).map fun c => (productCell pn kp tile a s (entryOf s (.mmac tile a b)) r c).1) (fun D => ?op)
    (fun u => accOnly_putRows ..) (fun u hu o r c hr hc => ?cells)
  case op =>
    have hok : (aligned (entryOf s (.mmac tile a b)) a && tileOk s tile && handleOk (s.getX b) && decide (s.ct.vec.vl ≤ s.L / s.ew)) = true := by
      have hgrant : tileOk s tile = true := decide_eq_true (by omega)
      rw [hgrant, decide_eq_true hlen, hb, show aligned (entryOf s (.mmac tile a b)) a = true from beq_of_eq ha]
      rfl
    exact vopMmac_ok (u := charged s false D) hz hok hty (Nat.ne_of_gt hpos) hpanel hpair hfree hrows hready
  case cells =>
    rw [cell_putRows_range (by omega) hu le_rfl (fun r c => (productCell pn kp tile a s _ r c).1) (grp_rows_le s) o r c hr hc]
    simp only [hc, and_true]

end

end Sys2Proof.Laws

/-!
SUPPORT. MDRAIN to registers (R159, R338): rows of one register each, written and then their tails.
-/

namespace Sys2Proof.Laws

open Sys2Proof.Machine

/-! Rows of one register each. -/

/-- A step of each of the first n rows, row r in register d + r. -/
def eachRow (step : Nat → State → State) (n : Nat) (s : State) : State := (List.range n).foldl (fun u r => step r u) s

theorem eachRow_succ (step : Nat → State → State) (n : Nat) (s : State) : eachRow step (n + 1) s = step n (eachRow step n s) := by
  rw [eachRow, List.range_succ, List.foldl_concat]
  rfl

/-- An element below the length of a register lies in the first register. -/
theorem elem_of_vreg {s t : State} (hl : t.L = s.L) {n w j : Nat} (hj : j * w / s.L = 0) (h : vreg t n = vreg s n) : t.elem n w j = s.elem n w j := by
  rw [elem_eq, elem_eq, hl, hj, Nat.add_zero, h]

/-- Rows that each write their own register, an element from what it held, leave each row's elements so. -/
theorem eachRow_elems {s : State} {d w g : Nat} {step : Nat → State → State} {after : Nat → Nat → Nat → Nat} {inside : Nat → Prop}
    (hinside : ∀ j, inside j → j * w / s.L = 0) (hfile : ∀ r u, r < g → u.L = s.L → FileOnly u (step r u) (· = d + r))
    (helem : ∀ r u j, r < g → u.L = s.L → inside j → (step r u).elem (d + r) w j = after r j (u.elem (d + r) w j)) : ∀ {n : Nat}, n ≤ g →
    FileOnly s (eachRow step n s) (fun r => d ≤ r ∧ r < d + n) ∧
    ∀ r j, r < g → inside j → (eachRow step n s).elem (d + r) w j = if r < n then after r j (s.elem (d + r) w j) else s.elem (d + r) w j
  | 0, _ => ⟨.refl _ _, fun r j _ _ => rfl⟩
  | n + 1, hn => by
    obtain ⟨hf, he⟩ := eachRow_elems hinside hfile helem (n := n) (by omega)
    have hstep := hfile n (eachRow step n s) (by omega) hf.L
    rw [eachRow_succ]
    refine ⟨(hf.mono fun r hr => ⟨hr.1, by omega⟩).trans (hstep.mono fun r (hr : r = d + n) => ⟨by omega, by omega⟩), fun r j hr hj => ?_⟩
    by_cases hrn : r = n
    · subst hrn
      rw [helem r _ j hr hf.L hj, he r j hr hj, if_neg (by omega), if_pos (by omega)]
    · rw [elem_of_vreg hstep.L ((congrArg _ hf.L).trans (hinside j hj)) (hstep.2 _ (by omega)), he r j hr hj]
      exact if_congr (by omega) rfl rfl

/-! The rows of MDRAIN. -/

/-- Register d takes the first n elements of a row. -/
def fillElems (d w n : Nat) (f : Nat → Nat) (s : State) : State := (List.range n).foldl (fun u c => u.setElem d w c (f c)) s

/-- Elements written one after another are those of an instruction under a predicate of ones. -/
theorem fillElems_strip {s : State} {d w : Nat} (h : GroupFits s.L d w 1) {n : Nat} (hn : ∀ i, i < n → i * w / s.L < 1) (f : Nat → Nat) :
    FileOnly s (fillElems d w n f s) (· = d) ∧
    ∀ j, (fillElems d w n f s).elem d w j = if j < n then f j % 2 ^ (8 * w) else s.elem d w j := by
  obtain ⟨hfile, helems⟩ := strip_elems (entry0 s .nop) (fun _ => true) (fun i => (f i, 0)) (List.range n) h fun i hi => hn i (List.mem_range.1 hi)
  refine ⟨hfile.mono fun r hr => by omega, fun j => (helems j).trans ?_⟩
  exact if_congr List.mem_range rfl rfl

/-- What a tail element of a row holds (R65, R67). -/
def rowTail (c : Vcfg) (vl w j old : Nat) : Nat :=
  if j < vl then old else if c.tpol = 0 then old else if c.tpol = 2 ∧ vl * w ≤ j * w / 256 * 256 then 0 else 2 ^ (8 * w) - 1

theorem elem_rowTail {s : State} {d w : Nat} (h : GroupFits s.L d w 1) (c : Vcfg) (vl : Nat) {j : Nat} (hj : j * w / s.L < 1) :
    (writeTail s c vl d w 1).elem d w j = rowTail c vl w j (s.elem d w j) := by
  unfold rowTail
  split
  next hlt => exact elem_writeTail_body h c hj hlt
  next hge => exact elem_writeTail_tail h c hj (Nat.le_of_not_lt hge)

/-- The rows of a tile written to registers, and then their tails. -/
def drainRows (c : Vcfg) (vl v w g : Nat) (out : Nat → Nat → Nat) (s : State) : State :=
  eachRow (fun r u => writeTail u c vl (v + r) w 1) g (eachRow (fun r u => fillElems (v + r) w vl (out r) u) g s)

theorem drainRows_elems {s : State} {v w g : Nat} (h : GroupFits s.L v w g) (c : Vcfg) {vl : Nat} (hvl : vl ≤ s.L / w) (out : Nat → Nat → Nat) :
    FileOnly s (drainRows c vl v w g out s) (fun r => v ≤ r ∧ r < v + g) ∧
    ∀ r j, r < g → j < s.L / w → (drainRows c vl v w g out s).elem (v + r) w j =
      rowTail c vl w j (if j < vl then out r j % 2 ^ (8 * w) else s.elem (v + r) w j) := by
  have hrow {u : State} (hu : u.L = s.L) {r : Nat} (hr : r < g) : GroupFits u.L (v + r) w 1 :=
    ⟨hu ▸ h.pos, hu ▸ h.slabs, hu ▸ h.bits, h.width, by have := h.regs; omega⟩
  have hone {u : State} (hu : u.L = s.L) {j : Nat} (hj : j < s.L / w) : j * w / u.L < 1 := by
    have hlt := Nat.lt_of_lt_of_le (Nat.mul_lt_mul_of_pos_right hj h.w_pos) (Nat.div_mul_le_self s.L w)
    rw [hu, Nat.div_eq_of_lt hlt]
    exact Nat.one_pos
  obtain ⟨hfill, hcells⟩ := eachRow_elems (s := s) (d := v) (w := w) (g := g) (step := fun r u => fillElems (v + r) w vl (out r) u)
    (after := fun r j old => if j < vl then out r j % 2 ^ (8 * w) else old) (inside := fun j => j < s.L / w)
    (fun j hj => Nat.lt_one_iff.1 (hone rfl hj))
    (fun r u hr hu => (fillElems_strip (hrow hu hr) (fun i hi => hone hu (by omega)) (out r)).1)
    (fun r u j hr hu _ => (fillElems_strip (hrow hu hr) (fun i hi => hone hu (by omega)) (out r)).2 j) le_rfl
  obtain ⟨htail, htails⟩ := eachRow_elems (d := v) (w := w) (g := g) (step := fun r u => writeTail u c vl (v + r) w 1)
    (after := fun _ j => rowTail c vl w j) (inside := fun j => j < s.L / w) (fun j hj => Nat.lt_one_iff.1 (hone hfill.L hj))
    (fun r u hr hu => (fileOnly_writeTail u c vl (v + r) w (hrow (hu.trans hfill.L) hr).regs).mono fun k hk => by omega)
    (fun r u j hr hu hj => elem_rowTail (hrow (hu.trans hfill.L) hr) c vl (hone (hu.trans hfill.L) hj)) le_rfl
  refine ⟨hfill.trans htail, fun r j hr hj => ?_⟩
  rw [drainRows, htails r j hr hj, if_pos hr, hcells r j hr hj, if_pos hr]

/-! MDRAIN to registers. -/

/-- Flags of the cells drained. -/
def drainedFlags (out : Nat → Nat → Nat × BitVec 3) (g n : Nat) : BitVec 3 :=
  (List.range g).foldl (fun u r => (List.range n).foldl (fun u c => u ||| (out r c).2) u) 0

/-- Cell (r, c) as it is drained. -/
def drainedCell (s : State) (tile : Reg) (ty r c : Nat) : Nat × BitVec 3 := drainConv (s.tileKind tile.toNat) ty (s.cell tile.toNat r c)

theorem drainFlags_drained (s : State) (e : VEntry) (tile : Reg) (ty : Nat) :
    drainFlags (drained s e tile ty) = drainedFlags (drainedCell s tile ty) e.g e.vl := by
  simp only [drainFlags, drained, List.foldl_flatMap, List.foldl_map]
  rfl

theorem vopMdrainRegister_ok {u : State} {e : VEntry} {tile v : Reg} {m : BitVec 5} (hz : u.ct.vec.vstart = 0)
    (hok : (aligned e v && tileOk u tile && decide (e.vl ≤ 192) && decide (e.vl ≤ u.L / tyBytes (mfType m 0))) = true)
    (hty : (drainKindOk u tile (mfType m 0) && mfType m 0 == e.ty) = true) (hpos : e.vl ≠ 0) :
    vopMdrainRegister tile v m u e = .ok { Effects.none with mflags := drainedFlags (drainedCell u tile (mfType m 0)) e.g e.vl }
      (drainRows e.vcfg e.vl v.toNat e.w e.g (fun r c => (drainedCell u tile (mfType m 0) r c).1) u) := by
  rw [vopMdrainRegister, whole_of_zero hz, need_true hok, need_true hty, if_neg hpos]
  simp only [drainFlags_drained]
  simp only [drained, List.foldl_flatMap, List.foldl_map]
  rfl

/-- The completion of an instruction that wrote registers and has flags of the array. -/
theorem vecOnly_mflags {s t : State} {D : Int} {dest : Nat → Prop} (fl : BitVec 3) (h : FileOnly (charged s false D) t dest) :
    VecOnly s (applyEffects t { Effects.none with mflags := fl }).advance dest := by
  rw [applyEffects_mflags]
  unfold State.advance fromZero State.onMx State.onVec
  obtain ⟨ht, hregs⟩ := h
  unfold charged at ht hregs
  refine ⟨?_, fun r _ hr => vfile_getElem? (hregs r hr), sameBytes_of_mem ?_⟩
  all_goals rw [ht]

/-- The rest of such a completion: nothing but the flags. -/
theorem mx_mflags {s t : State} {D : Int} {dest : Nat → Prop} (fl : BitVec 3) (h : FileOnly (charged s false D) t dest) {u : State}
    (hu : u = (applyEffects t { Effects.none with mflags := fl }).advance) : u.ct.vec.preds = s.ct.vec.preds ∧ u.ct.vec.queues = s.ct.vec.queues ∧
    u.ct.fp = s.ct.fp ∧ u.ct.mx = { s.ct.mx with mxflag := s.ct.mx.mxflag ||| fl } := by
  rw [applyEffects_mflags] at hu
  unfold State.advance fromZero State.onMx State.onVec at hu
  obtain ⟨ht, -⟩ := h
  unfold charged at ht
  rw [hu, ht]
  exact ⟨rfl, rfl, rfl, rfl⟩

theorem elem_mflags (t : State) (fl : BitVec 3) (n w i : Nat) : (applyEffects t { Effects.none with mflags := fl }).advance.elem n w i = t.elem n w i := by
  rw [applyEffects_mflags]
  rfl

theorem drainKindOk_of {s : State} {tile : Reg} {ty : Nat} (h : s.tileKind tile.toNat = .fp → 8 ≤ ty) : drainKindOk s tile ty = true := by
  unfold drainKindOk
  by_cases hk : s.tileKind tile.toNat = .fp
  · have hty : tyIsInt ty = false := decide_eq_false (Nat.not_lt.2 (h hk))
    rw [hty, Bool.and_false]
    rfl
  · rw [beq_false_of_ne hk]
    rfl

theorem rowTail_eq (s : State) (old j : Nat) (new : Nat) :
    rowTail s.ct.vec.vcfg s.ct.vec.vl s.ew j (if j < s.ct.vec.vl then new else old) = if j < s.ct.vec.vl then new else tailAfter s old j := by
  rw [rowTail, tailAfter_eq]
  by_cases hj : j < s.ct.vec.vl
  · rw [if_pos hj, if_pos hj]
    rw [if_pos hj]
  · rw [if_neg hj, if_neg hj]
    rw [if_neg hj]

/-- MDRAIN moves the first GRP rows of a tile to the registers of a group, a row to a register (R338). -/
theorem exec_mdrainRegister {s : State} (hv : VecStart s .lm) (hz : s.ct.vec.vstart = 0) {tile v : Reg} (ht : tile.toNat < min 8 s.ct.task.tiles)
    {m : BitVec 5} (hm : mfType m 0 = s.ct.vec.vcfg.ty) (hg : GroupOk s v) (hpos : 0 < s.ct.vec.vl) (hcols : s.ct.vec.vl ≤ 192)
    (hlen : s.ct.vec.vl ≤ s.L / s.ew) (hkind : s.tileKind tile.toNat = .fp → 8 ≤ s.ct.vec.vcfg.ty) :
    ∃ t, exec (.mdrainRegister tile v m) s = .next t ∧
      (∀ r j, r < s.ct.vec.vcfg.g → j < s.L / s.ew → t.elem (v.toNat + r) s.ew j =
        if j < s.ct.vec.vl then (drainedCell s tile s.ct.vec.vcfg.ty r j).1 % 2 ^ (8 * s.ew) else tailAfter s (s.elem (v.toNat + r) s.ew j) j) ∧
      VecOnly s t (inGroup s v.toNat) ∧ t.ct.vec.preds = s.ct.vec.preds ∧ t.ct.vec.queues = s.ct.vec.queues ∧ t.ct.fp = s.ct.fp ∧
      t.ct.mx = { s.ct.mx with
        mxflag := s.ct.mx.mxflag ||| drainedFlags (drainedCell s tile s.ct.vec.vcfg.ty) s.ct.vec.vcfg.g s.ct.vec.vl } := by
  obtain ⟨hready, hform, hprof⟩ := hv
  obtain ⟨D, hD⟩ := vector_completes hready hprof (i := .mdrainRegister tile v m) rfl
  have hok : (aligned (entryOf s (.mdrainRegister tile v m)) v && tileOk s tile && decide (s.ct.vec.vl ≤ 192) &&
      decide (s.ct.vec.vl ≤ s.L / tyBytes (mfType m 0))) = true := by
    have hgrant : tileOk s tile = true := decide_eq_true (by omega)
    have hlen' : s.ct.vec.vl ≤ s.L / tyBytes (mfType m 0) := by rwa [hm]
    rw [hgrant, decide_eq_true hcols, decide_eq_true hlen', show aligned (entryOf s (.mdrainRegister tile v m)) v = true from beq_of_eq hg]
    rfl
  have hty : (drainKindOk s tile (mfType m 0) && mfType m 0 == s.ct.vec.vcfg.ty) = true := by
    rw [hm, drainKindOk_of hkind, beq_self_eq_true]
    rfl
  have hop := vopMdrainRegister_ok (u := charged s false D) (e := entryOf s (.mdrainRegister tile v m)) hz hok hty (Nat.ne_of_gt hpos)
  rw [hm] at hop
  have hnext := hD _ _ hop rfl rfl
  have hfits : GroupFits (charged s false D).L v.toNat s.ew s.ct.vec.vcfg.g := groupFits_of hform hg
  obtain ⟨hfile, helems⟩ := drainRows_elems hfits s.ct.vec.vcfg (vl := s.ct.vec.vl) hlen fun r c => (drainedCell s tile s.ct.vec.vcfg.ty r c).1
  exact ⟨_, hnext, fun r j hr hj => (elem_mflags ..).trans ((helems r j hr hj).trans (rowTail_eq s _ j _)), vecOnly_mflags _ hfile,
    mx_mflags _ hfile rfl⟩

end Sys2Proof.Laws

/-!
SUPPORT. A vector memory instruction that runs as it is dispatched (R99, R201, R202, log entries 4 and 6): the state that its operation sees, and the
states that its accesses reach.
-/

namespace Sys2Proof.Laws

open Sys2Proof.Machine

/-! What the operation sees. -/

/-- s as the operation of a vector memory instruction sees it: charged, counted, and no longer held by earlier FENCEs. The latency of its first beat took
k free values. -/
def memStart (s : State) (k : Nat) (deficit : Int) : State :=
  { s with
    ct := { s.ct with
      ord := { s.ct.ord with
        opSeq := s.ct.ord.opSeq + 1
        vhold := s.ct.ord.vhold.filter (s.ct.ord.fenceIvl ≤ ·)
        vvJobs := s.ct.ord.vvJobs.filter (s.ct.ord.fenceIvl ≤ ·.2)
        vvNow := [] }
      ctl := { s.ct.ctl with deficit := deficit } }
    fresh := s.fresh + k }

/-- s with an issue charged that took k free values. -/
def issued (s : State) (k : Nat) (deficit : Int) : State :=
  { s with ct := { s.ct with ctl := { s.ct.ctl with deficit := deficit } }, fresh := s.fresh + k }

/-- The free values that the charge of an instruction takes (log entry 6). -/
def freshUse (i : Instr) : Nat := if isVecMem i && !isArray i then 1 else 0

theorem issueAlone_issued (s : State) (e : VEntry) : ∃ D, issueAlone s e = issued s (freshUse e.instr) D := by
  unfold issueAlone occupy freshUse
  by_cases h : (isVecMem e.instr && !isArray e.instr) = true
  · rw [if_pos h, if_pos h]
    exact ⟨_, rfl⟩
  · rw [if_neg h, if_neg h]
    exact ⟨_, rfl⟩

theorem calm_memStart {s : State} (h : Calm s) (k : Nat) (D : Int) : Calm (memStart s k D) :=
  calm_of h rfl (fills_nil h :) rfl h.savedFills h.parkedFills

/-- Nothing holds the instruction back. -/
theorem vecReady_issued {s : State} (h : Calm s) (ho : VecOpen s) (k : Nat) (D : Int) : vecReady (issued s k D) s.ct.ord.fenceIvl =
    some ((issued s k D).onOrd fun o =>
      { o with vvJobs := o.vvJobs.filter (s.ct.ord.fenceIvl ≤ ·.2), vhold := o.vhold.filter (s.ct.ord.fenceIvl ≤ ·) }) := by
  obtain ⟨hfills, hbronze⟩ := ho
  have hheld : performHeld s.ct.ord.fenceIvl (issued s k D) = issued s k D := by simp [performHeld, issued, h.sbuf, h.late]
  have hquiet : hostQuiet (issued s k D) = true := by simp [hostQuiet, issued, h.biWait]
  have hjobs : ((issued s k D).ct.ord.vvJobs.any fun j => decide (j.2 < s.ct.ord.fenceIvl) && (readingFills (issued s k D)).contains j.1) = false := by
    rw [List.any_eq_false]
    intro j hj
    rw [show readingFills (issued s k D) = readingFills s from rfl]
    simpa using hfills j hj
  have hreads : ((issued s k D).ct.ord.detctl && !(readingFills (issued s k D)).isEmpty) = false := by
    rw [Bool.and_eq_false_imp]
    intro hd
    rw [show readingFills (issued s k D) = [] from hbronze hd]
    rfl
  unfold vecReady
  rw [hheld]
  simp only [hjobs, hreads, hquiet, Bool.not_true, Bool.and_false, Bool.or_false, Bool.false_eq_true, if_false]

/-! What becomes of its answer. -/

/-- What a vector memory instruction owes: its completion at its scope, at .s with the host's answer (R201). -/
def memEffects (s : State) (ef : Effects) : Effects :=
  { ef with host := s.ct.vec.vcfg.scope == 5, mem := some (s.ct.ord.opSeq + 1, s.ct.vec.vcfg.scope.toNat) }

/-- A state in which an instruction of s ends with nothing more to be done: no line is poisoned, no access is late, no FENCE has come. -/
structure Settled (s t : State) : Prop where
  poison : t.m.poison = []
  late : t.m.late = []
  fence : t.ct.ord.fenceIvl = s.ct.ord.fenceIvl
  host : t.m.biWait = []

theorem settled_of_calm {s t : State} (h : Calm t) (hf : t.ct.ord.fenceIvl = s.ct.ord.fenceIvl) : Settled s t := ⟨h.poison, h.late, hf, h.biWait⟩

theorem endStores_settled {s t : State} (i : Instr) (hp : t.m.poison = []) (hf : t.ct.ord.fenceIvl = s.ct.ord.fenceIvl) (op : Nat) :
    endStores (entryOf s i) op t = t := by
  have hivl : (entryOf s i).ivl = s.ct.ord.fenceIvl := rfl
  unfold endStores
  rw [hp, hf, hivl, decide_eq_false (Nat.lt_irrefl _), Bool.and_false]
  rfl

section
variable {s : State} {pr : Profile} {i : Instr} {f : State → VEntry → Res Effects} (hv : VecReady s) (hp : s.has pr = true)
  (hr : vecRound i s.ct.vec.vcfg.ty = none) (hop : vecOp i = memOp f) (hc : Calm s) (ho : VecOpen s)
include hv hp hr hop hc ho

/-- A vector memory instruction is answered as its accesses are, from the state that it begins in. -/
theorem vector_memory : ∃ D,
    (∀ ef t, f (memStart s (freshUse i) D) (entryOf s i) = .ok ef t → t.m.poison = [] → t.ct.ord.fenceIvl = s.ct.ord.fenceIvl →
      (staysOpen t (memEffects s ef) = true → vector pr i s = .next (moveOwing t (memEffects s ef)).advance) ∧
      (staysOpen t (memEffects s ef) = false → mayComplete t (memEffects s ef) = true →
        vector pr i s = .next (applyEffects t (memEffects s ef)).advance)) ∧
    (∀ w t, f (memStart s (freshUse i) D) (entryOf s i) = .wait w t →
      vector pr i s = .next ((s.onVec fun x => { x with viq := [entryOf s i] }).advance)) ∧
    (∀ q t, f (memStart s (freshUse i) D) (entryOf s i) = .trap q t → Settled s t →
      vector pr i s = vectorTrap t.advance (entryOf s i) [] q) := by
  obtain ⟨hi, hob⟩ := hv
  obtain ⟨D, hD⟩ := issueAlone_issued s (entryOf s i)
  have hready := vecReady_issued hc ho (freshUse i) D
  have hstart : memOp f (issueAlone s (entryOf s i)) (entryOf s i) =
      match f (memStart s (freshUse i) D) (entryOf s i) with
      | .ok ef t => .ok (memEffects s ef) (endStores (entryOf s i) (s.ct.ord.opSeq + 1) t)
      | .trap q t => .trap (settleStop (s.ct.ord.opSeq + 1) q (endStores (entryOf s i) (s.ct.ord.opSeq + 1) t)).1
          (settleStop (s.ct.ord.opSeq + 1) q (endStores (entryOf s i) (s.ct.ord.opSeq + 1) t)).2
      | r => r := by
    rw [hD, memOp]
    rw [show vecReady (issued s (freshUse (entryOf s i).instr) D) (entryOf s i).ivl = _ from hready]
    rfl
  have hvec : vector pr i s = dispatch pr s (entryOf s i) none issueAlone (memOp f) := by rw [vector, hr, hop]; rfl
  rw [hvec]
  unfold dispatch
  rw [withProfile_has hp, hi, hob]
  simp only [Bool.not_false, Bool.and_self, if_true, hstart]
  refine ⟨D, fun ef t hf hpoison hfence => ?_, fun w t hf => ?_, fun q t hf ht => ?_⟩
  · simp only [hf, endStores_settled i hpoison hfence]
    exact ⟨fun hopen => if_pos hopen, fun hopen hmay => by rw [hopen, hmay]; rfl⟩
  · simp only [hf]
  · have hstop : settleStop (s.ct.ord.opSeq + 1) q t = (q, t) := by simp [settleStop, ht.late]
    simp only [hf, endStores_settled i ht.poison ht.fence, hstop]

end

/-- With nothing in flight nothing stays open. -/
theorem staysOpen_quiet {t : State} (hs : t.m.sbuf = []) (hl : t.m.late = []) (hb : t.m.biWait = []) (ef : Effects) : staysOpen t ef = false := by
  have hopen : memOpen t ef = false := by
    unfold memOpen
    rw [hs, hl]
    cases ef.mem <;> rfl
  rw [staysOpen, hopen, hb]
  simp

theorem staysOpen_calm {t : State} (h : Calm t) (ef : Effects) : staysOpen t ef = false := staysOpen_quiet h.sbuf h.late h.biWait ef

theorem mayComplete_quiet {t : State} (hb : t.m.biWait = []) {ef : Effects} (hd : ef.deliver = none) : mayComplete t ef = true := by
  simp [mayComplete, hd, hb]

theorem mayComplete_calm {t : State} (h : Calm t) {ef : Effects} (hd : ef.deliver = none) : mayComplete t ef = true := mayComplete_quiet h.biWait hd

/-! The states that its accesses reach. -/

/-- Accesses changed bytes, and what they change on their way. -/
def Stored (s t : State) : Prop := t = { s.accessed t with m := { (s.accessed t).m with mem := t.m.mem } } ∧ SameDies s t

theorem stored_reached {s t : State} (h : Reached s t) : Stored s t := by
  refine ⟨?_, h.2⟩
  rw [h.1]
  rfl

theorem Stored.trans {s t u : State} (h : Stored s t) (k : Stored t u) : Stored s u := ⟨k.1.trans (by rw [h.1]; rfl), sameDies_trans h.2 k.2⟩

theorem stored_setBytes (s : State) (pa : Nat) (bs : List Byte) : Stored s (s.setBytes pa bs) := ⟨rfl, fun _ => rfl⟩

theorem Stored.calm {s t : State} (h : Stored s t) (hc : Calm s) : Calm t := by
  refine calm_of hc ?_ ?_ ?_ ?_ ?_
  all_goals rw [h.1]
  exacts [rfl, (fills_nil hc :), rfl, hc.savedFills, hc.parkedFills]

/-- What a ready access asks of the states in between. -/
theorem Stored.along {s t : State} {k : Nat} {D : Int} (h : Stored (memStart s k D) t) {may : Nat → Prop}
    (hb : ∀ a, ¬ may a → t.byteAt a = s.byteAt a) : Along may s t :=
  ⟨⟨s.ct.x, s.ct.vec, s.ct.fp, (memStart s k D).ct.ord, (memStart s k D).ct.ctl, t.m.mem, t.m.owners, t.m.copies, s.m.races, t.m.cxlHeld, t.dies,
    s.fresh + k, h.1⟩, fun d => (congrArg Die.fenced (h.2 d) :), hb⟩

theorem along_reached {s t : State} {k : Nat} {D : Int} (h : Reached (memStart s k D) t) (may : Nat → Prop) : Along may s t :=
  (stored_reached h).along fun a _ => reached_bytes h a

end Sys2Proof.Laws

/-!
SUPPORT. MCB (R337): a codebook loaded at once, or by a load that performs later (log entry 125).
-/

namespace Sys2Proof.Laws

open Sys2Proof.Machine

/-- The completion of a memory instruction that has no result but what its accesses left and its flags (R71, R160). -/
theorem applyEffects_memEffects (s t : State) (fl : BitVec 3) : applyEffects t (memEffects s { Effects.none with mflags := fl }) =
    (fromZero t).onMx fun m => { m with mxflag := m.mxflag ||| fl } := applyEffects_mflags t fl

theorem applyEffects_nothing (s t : State) : applyEffects t (memEffects s Effects.none) = fromZero t := by
  simp [applyEffects, payEffects, memEffects, Effects.none, writeSample, State.orFlags, State.onMx]

/-- A load of a codebook that is left to perform later. -/
def bookLoad (s : State) (c : Reg) (p : Place) : Late :=
  { lcore := s.ct.lcore, ctno := s.ct.ctno, task := s.ct.task.taskid, vec := true, seq := s.ct.ord.opSeq + 1, pa := p.pa, cached := p.cached,
    deps := p.deps, op := .load 32, dest := .book c.toNat, beforeV := [], scope := none, got := none }

/-- s with a late load of a codebook. -/
def bookLeft (s : State) (c : Reg) (p : Place) (D : Int) : State := (memStart s 1 D).onMem fun m => { m with late := [bookLoad s c p] }

theorem loadBook_late {s : State} {c a : Reg} {p : Place} {D : Int} (hc : Calm s) (hz : s.ct.vec.vstart = 0)
    (hp : resolveAligned (memStart s 1 D).ctx { kind := 1 } (s.getX a) 32 (memStart s 1 D) = .ok p (memStart s 1 D)) (hdefer : s.defers = true)
    (hd : s.ct.ord.detctl = false) : loadBook c (memStart s 1 D) (entryOf s (.mcb c a)) = .ok Effects.none (bookLeft s c p D) := by
  have hcalm := calm_memStart hc 1 D
  have hlate : (memStart s 1 D).vecLate (entryOf s (.mcb c a)) = true := by
    unfold State.vecLate
    rw [show (entryOf s (.mcb c a)).bronze = false from hd, show (memStart s 1 D).defers = true from hdefer]
    rfl
  rw [loadBook, whole_of_zero (s := memStart s 1 D) hz, show (entryOf s (.mcb c a)).xa = s.getX a from rfl, hp]
  simp only [Res.mapTrap, Res.andThen, hlate, if_true, ownVector, drainWhere_calm hcalm, leaveLate_calm hcalm]
  rfl

theorem loadBook_now {s : State} {c a : Reg} {p : Place} {D : Int} (hc : Calm s) (hz : s.ct.vec.vstart = 0)
    (hp : resolveAligned (memStart s 1 D).ctx { kind := 1 } (s.getX a) 32 (memStart s 1 D) = .ok p (memStart s 1 D))
    (hnow : s.defers = false ∨ s.ct.ord.detctl = true) : ∃ r, Reached (memStart s 1 D) r ∧
      loadBook c (memStart s 1 D) (entryOf s (.mcb c a)) = .ok Effects.none (setBook c.toNat (s.bytesAt p.pa 32) r) := by
  have hlate : (memStart s 1 D).vecLate (entryOf s (.mcb c a)) = false := by
    unfold State.vecLate
    rw [show (entryOf s (.mcb c a)).bronze = s.ct.ord.detctl from rfl, show (memStart s 1 D).defers = s.defers from rfl]
    obtain h | h := hnow
    · rw [h, Bool.false_and]
    · rw [h, Bool.not_true, Bool.and_false]
  refine ⟨_, reached_l1Read (memStart s 1 D) false s.ct.lcore p.pa, ?_⟩
  rw [loadBook, whole_of_zero (s := memStart s 1 D) hz, show (entryOf s (.mcb c a)).xa = s.getX a from rfl, hp]
  simp only [Res.mapTrap, Res.andThen, hlate, Bool.false_eq_true, if_false, loadBytes_calm (calm_memStart hc 1 D)]
  rfl

theorem staysOpen_bookLeft (s : State) (c : Reg) (p : Place) (D : Int) : staysOpen (bookLeft s c p D) (memEffects s Effects.none) = true := by
  have hmine : (bookLeft s c p D).lateOf (s.ct.ord.opSeq + 1) (bookLoad s c p) = true := by
    simp [State.lateOf, State.myLate, bookLeft, bookLoad, State.onMem, memStart]
  have hopen : memOpen (bookLeft s c p D) (memEffects s Effects.none) = true := by
    refine Bool.or_eq_true_iff.2 (.inr (List.any_eq_true.2 ⟨bookLoad s c p, List.mem_singleton.2 rfl, ?_⟩))
    rw [hmine]
    rfl
  rw [staysOpen, hopen]
  rfl

/-- The codebooks after one was loaded. -/
theorem books_setBook (s : State) {c : Nat} (hc : c < 8) (bs : List Byte) (k : Nat) : (setBook c bs s).ct.mx.books.toList.getD k 0 =
    if k = c then BitVec.ofNat 256 (leNat bs) else s.ct.mx.books.toList.getD k 0 :=
  (getD_setIfInBounds s.ct.mx.books c k _ 0).trans (if_congr (and_iff_left hc) rfl rfl)

section
variable {s : State} (hv : VecStart s .lm) (hz : s.ct.vec.vstart = 0) (hc : Calm s) (ho : VecOpen s) {c a : Reg} {pa : Nat}
  (ha : Ready (fun _ => False) s { kind := 1 } (s.getX a) 32 pa)
include hv hz hc ho ha

theorem exec_mcb_late (hdefer : s.defers = true) (hd : s.ct.ord.detctl = false) : ∃ t l, exec (.mcb c a) s = .next t ∧ t.m.late = [l] ∧
    s.myLate l = true ∧ l.vec = true ∧ l.pa = pa ∧ l.op = .load 32 ∧ l.dest = .book c.toNat ∧ l.got = none ∧ t.ct.mx = s.ct.mx ∧
    t.ct.pc = s.ct.pc + 4 ∧ t.ct.x = s.ct.x ∧ SameBytes s t := by
  obtain ⟨hready, -, hprof⟩ := hv
  obtain ⟨D, hok, -, -⟩ := vector_memory (i := .mcb c a) hready hprof rfl rfl hc ho
  obtain ⟨p, rfl, hp⟩ := ha.1 _ (along_reached (reached_refl (memStart s 1 D)) _)
  obtain ⟨hopen, -⟩ := hok _ _ (loadBook_late hc hz hp hdefer hd) hc.poison rfl
  exact ⟨_, bookLoad s c p, hopen (staysOpen_bookLeft s c p D), rfl, by simp [State.myLate, bookLoad], rfl, rfl, rfl, rfl, rfl, rfl, rfl, rfl,
    sameBytes_of_mem rfl⟩

theorem exec_mcb_now (hlt : c.toNat < 8) (hnow : s.defers = false ∨ s.ct.ord.detctl = true) : ∃ t, exec (.mcb c a) s = .next t ∧
    (∀ k, k < 8 → t.ct.mx.books.toList.getD k 0 = if k = c.toNat then BitVec.ofNat 256 (s.numAt pa 32) else s.ct.mx.books.toList.getD k 0) ∧
    SameDies s t ∧
    t = { s.vecAccessed t 1 with ct := { (s.vecAccessed t 1).ct with
      pc := s.ct.pc + 4
      vec := { s.ct.vec with vstart := 0, pdone := 0 }
      mx := { s.ct.mx with books := t.ct.mx.books }
      ctl := { s.ct.ctl with wait := .none, deficit := t.ct.ctl.deficit } } } := by
  obtain ⟨hready, -, hprof⟩ := hv
  obtain ⟨D, hok, -, -⟩ := vector_memory (i := .mcb c a) hready hprof rfl rfl hc ho
  obtain ⟨p, rfl, hp⟩ := ha.1 _ (along_reached (reached_refl (memStart s 1 D)) _)
  obtain ⟨r, hread, hbook⟩ := loadBook_now hc hz hp hnow
  have hcr := calm_reached (calm_memStart hc 1 D) hread
  have hcalm : Calm (setBook c.toNat (s.bytesAt p.pa 32) r) := calm_of hcr rfl (fills_nil hcr :) rfl hcr.savedFills hcr.parkedFills
  have hct := reached_ct hread
  obtain ⟨-, hdone⟩ := hok _ _ hbook hcalm.poison (congrArg (fun t => t.ord.fenceIvl) hct)
  have hnext := hdone (staysOpen_calm hcalm _) (mayComplete_calm hcalm rfl)
  rw [applyEffects_nothing] at hnext
  refine ⟨_, hnext, fun k _ => (books_setBook r hlt _ k).trans (by rw [hct]; rfl), hread.2, ?_⟩
  unfold State.advance fromZero setBook State.onMx State.onVec
  rw [hread.1]
  rfl

end

end Sys2Proof.Laws

/-!
SUPPORT. Many stores of one width (R210, R211, log entries 5 and 13): at once, or buffered.
-/

namespace Sys2Proof.Laws

open Sys2Proof.Machine

/-! Writes of one width. -/

/-- Memory after writes of w bytes each, the value v of each at its address. -/
def writeAll {α : Type} (pa v : α → Nat) (w : Nat) (l : List α) (m : List Host.Cell) : List Host.Cell :=
  l.foldl (fun m x => Memory.write m (pa x) (toBytes w (v x))) m

section
variable {α : Type} {pa v : α → Nat} {w : Nat}

theorem writeAll_concat (l : List α) (x : α) (m : List Host.Cell) :
    writeAll pa v w (l ++ [x]) m = Memory.write (writeAll pa v w l m) (pa x) (toBytes w (v x)) := List.foldl_concat ..

theorem wf_writeAll {m : List Host.Cell} (h : Memory.wf m = true) (l : List α) : Memory.wf (writeAll pa v w l m) = true := by
  induction l using List.reverseRecOn with
  | nil => exact h
  | append_singleton l x ih =>
    rw [writeAll_concat]
    exact mem_wf_write _ _ (pa x) ih

/-- A byte after one more write. -/
theorem byte_writeAll_concat {m : List Host.Cell} (h : Memory.wf m = true) (l : List α) (x : α) (a : Nat) :
    Memory.byte (writeAll pa v w (l ++ [x]) m) a =
      if pa x ≤ a ∧ a < pa x + w then BitVec.ofNat 8 (v x / 256 ^ (a - pa x)) else Memory.byte (writeAll pa v w l m) a := by
  rw [writeAll_concat, byte_write _ _ _ _ (wf_writeAll h l)]
  simp only [length_toBytes, getElem_toBytes, dite_eq_ite]

/-- A byte that no write reaches. -/
theorem byte_writeAll_outside {m : List Host.Cell} (h : Memory.wf m = true) {a : Nat} (l : List α) (hout : ∀ x ∈ l, ¬ (pa x ≤ a ∧ a < pa x + w)) :
    Memory.byte (writeAll pa v w l m) a = Memory.byte m a := by
  induction l using List.reverseRecOn with
  | nil => rfl
  | append_singleton l x ih =>
    rw [byte_writeAll_concat h, if_neg (hout x (by simp))]
    exact ih fun y hy => hout y (List.mem_append_left _ hy)

/-- A location that writes meet in full or not at all holds the whole of one of them (log entry 13). -/
theorem byte_writeAll_whole {m : List Host.Cell} (h : Memory.wf m = true) {at_ : Nat} (l : List α)
    (hmeet : ∀ x ∈ l, pa x = at_ ∨ pa x + w ≤ at_ ∨ at_ + w ≤ pa x) (hsome : ∃ x ∈ l, pa x = at_) :
    ∃ x ∈ l, pa x = at_ ∧ ∀ k, k < w → Memory.byte (writeAll pa v w l m) (at_ + k) = BitVec.ofNat 8 (v x / 256 ^ k) := by
  induction l using List.reverseRecOn with
  | nil =>
    obtain ⟨x, hx, -⟩ := hsome
    exact absurd hx List.not_mem_nil
  | append_singleton l x ih =>
    by_cases hx : pa x = at_
    · refine ⟨x, by simp, hx, fun k hk => ?_⟩
      rw [byte_writeAll_concat h, if_pos (by omega), show at_ + k - pa x = k by omega]
    · have hsome' : ∃ y ∈ l, pa y = at_ := by
        obtain ⟨y, hy, hpa⟩ := hsome
        obtain hy | hy := List.mem_append.1 hy
        · exact ⟨y, hy, hpa⟩
        · exact absurd (List.mem_singleton.1 hy ▸ hpa) hx
      obtain ⟨y, hy, hpa, hbytes⟩ := ih (fun y hy => hmeet y (List.mem_append_left _ hy)) hsome'
      have hapart := (hmeet x (by simp)).resolve_left hx
      refine ⟨y, List.mem_append_left _ hy, hpa, fun k hk => ?_⟩
      rw [byte_writeAll_concat h, if_neg (by omega)]
      exact hbytes k hk

end

/-! Stores of the vector stream. -/

/-- Stores of w bytes each by the vector stream, in order. -/
def storeAll {α : Type} (place : α → Place) (va : α → Word) (v : α → Nat) (w : Nat) (l : List α) (s : State) : State :=
  l.foldl (fun s x => plainStore s false (place x) (va x) (toBytes w (v x))) s

/-- A store as it waits in the store buffer. -/
def storeHeld (s : State) (p : Place) (va : Word) (bs : List Byte) : BufStore :=
  { lcore := s.ct.lcore, ctno := s.ct.ctno, task := s.ct.task.taskid, va := va, pa := p.pa, bytes := bs, vec := true, op := s.ct.ord.opSeq, own := false,
    deps := p.deps, beforeV := s.ct.ord.vvNow, scope := none, mask := 0xFF }

section
variable {α : Type} {place : α → Place} {va : α → Word} {v : α → Nat} {w : Nat}

/-- Stores that perform at once write their bytes. -/
theorem storeAll_now {s : State} (h : Calm s) (hd : s.ct.ord.detctl = false) (hs : s.sched.deferStores = false) (l : List α) :
    Stored s (storeAll place va v w l s) ∧ (storeAll place va v w l s).m.mem = writeAll (fun x => (place x).pa) v w l s.m.mem := by
  induction l using List.reverseRecOn with
  | nil => exact ⟨stored_reached (reached_refl s), rfl⟩
  | append_singleton l x ih =>
    obtain ⟨hst, hmem⟩ := ih
    have hd' : (storeAll place va v w l s).ct.ord.detctl = false := by rw [hst.1]; exact hd
    have hs' : (storeAll place va v w l s).sched.deferStores = false := by rw [hst.1]; exact hs
    obtain ⟨u, hu, hstore⟩ := plainStore_calm (hst.calm h) hd' hs' false (place x) (va x) (toBytes w (v x))
    have hlast : storeAll place va v w (l ++ [x]) s = u.setBytes (place x).pa (toBytes w (v x)) := (List.foldl_concat ..).trans hstore
    have hbytes : u.m.mem = (storeAll place va v w l s).m.mem := by rw [hu.1]; rfl
    rw [hlast, writeAll_concat, ← hmem, ← hbytes]
    exact ⟨(hst.trans (stored_reached hu)).trans (stored_setBytes u _ _), rfl⟩

/-- A store that is left in flight joins the buffer, and nothing else happens. -/
theorem plainStore_held {s : State} (h : Calm s) (hd : s.ct.ord.detctl = false) (hs : s.sched.deferStores = true) (b : List BufStore) (p : Place)
    (va : Word) (bs : List Byte) : plainStore (s.onMem fun m => { m with sbuf := b }) false p va bs =
      s.onMem fun m => { m with sbuf := b ++ [storeHeld s p va bs] } := by
  simp [plainStore, plainBits, dropOwn, performFirst, performWhere, State.onMem, h.early, h.late, h.wcb, hd, hs, buffers, drainLines, storeHeld]

theorem storeAll_held {s : State} (h : Calm s) (hd : s.ct.ord.detctl = false) (hs : s.sched.deferStores = true) (l : List α) :
    storeAll place va v w l s = s.onMem fun m => { m with sbuf := l.map fun x => storeHeld s (place x) (va x) (toBytes w (v x)) } := by
  induction l using List.reverseRecOn with
  | nil =>
    unfold State.onMem
    rw [List.map_nil, ← h.sbuf]
    rfl
  | append_singleton l x ih =>
    have hlast : storeAll place va v w (l ++ [x]) s = plainStore (storeAll place va v w l s) false (place x) (va x) (toBytes w (v x)) :=
      List.foldl_concat ..
    rw [hlast, ih, plainStore_held h hd hs, List.map_append]
    rfl

end

/-! Addresses made ready one after another (R338). -/

/-- A fold that adds a value for each element, and changes nothing. -/
theorem foldRes_append {α β : Type} {f : List β → α → State → Res (List β)} {q : α → β} {s : State} (l : List α)
    (h : ∀ x ∈ l, ∀ acc, f acc x s = .ok (acc ++ [q x]) s) (acc : List β) : foldRes f l acc s = .ok (acc ++ l.map q) s := by
  induction l generalizing acc with
  | nil => rw [List.map_nil, List.append_nil]; rfl
  | cons x l ih =>
    rw [foldRes, h x List.mem_cons_self]
    refine (ih (fun y hy => h y (List.mem_cons_of_mem _ hy)) _).trans ?_
    rw [List.map_cons, List.append_assoc]
    rfl

end Sys2Proof.Laws

/-!
SUPPORT. MDRAIN to memory (R159, R338), its stores at once or in flight (log entry 5), and O48.
-/

namespace Sys2Proof.Laws

open Sys2Proof.Machine

/-! Cells drained to memory. -/

/-- Row pitch in bytes: 0 packs the rows. -/
def drainStride (s : State) (b : Reg) (w : Nat) : Word := if b = 0 then BitVec.ofNat 64 (s.ct.vec.vl * w) else s.getX b

/-- The address of cell (r, c). -/
def drainAddr (s : State) (a b : Reg) (w r c : Nat) : Word := s.getX a + BitVec.ofNat 64 r * drainStride s b w + BitVec.ofNat 64 (c * w)

/-- The cells that an MDRAIN of s drains. -/
def drainCells (s : State) (tile : Reg) (ty : Nat) : List (Nat × Nat × Nat × BitVec 3) :=
  (List.range s.ct.vec.vcfg.g).flatMap fun r => (List.range s.ct.vec.vl).map fun c => (r, c, drainedCell s tile ty r c)

theorem mem_drainCells {s : State} {tile : Reg} {ty : Nat} {x : Nat × Nat × Nat × BitVec 3} :
    x ∈ drainCells s tile ty ↔ x.1 < s.ct.vec.vcfg.g ∧ x.2.1 < s.ct.vec.vl ∧ x.2.2 = drainedCell s tile ty x.1 x.2.1 := by
  simp only [drainCells, List.mem_flatMap, List.mem_map, List.mem_range]
  constructor
  · rintro ⟨r, hr, c, hc, rfl⟩
    exact ⟨hr, hc, rfl⟩
  · obtain ⟨r, c, x⟩ := x
    rintro ⟨hr, hc, hx⟩
    exact ⟨r, hr, c, hc, congrArg (fun y => (r, c, y)) hx.symm⟩

/-- A cell of the list, by its row and column. -/
theorem drainCells_cell (s : State) (tile : Reg) (ty : Nat) {r c : Nat} (hr : r < s.ct.vec.vcfg.g) (hc : c < s.ct.vec.vl) :
    (r, c, drainedCell s tile ty r c) ∈ drainCells s tile ty := mem_drainCells.2 ⟨hr, hc, rfl⟩

/-- A store of each of them at its place. -/
def drainTo (s : State) (tile a b : Reg) (ty : Nat) (place : Nat → Nat → Place) (u : State) : State :=
  storeAll (fun x => place x.1 x.2.1) (fun x => drainAddr s a b (tyBytes ty) x.1 x.2.1) (fun x => x.2.2.1) (tyBytes ty) (drainCells s tile ty) u

/-- With every cell ready MDRAIN stores them all. -/
theorem drainMemory_ok {s : State} {D : Int} {tile a b : Reg} {m : BitVec 5} {place : Nat → Nat → Place} (hz : s.ct.vec.vstart = 0)
    (ht : tile.toNat < min 8 s.ct.task.tiles) (hcols : s.ct.vec.vl ≤ 192) (hkind : s.tileKind tile.toNat = .fp → 8 ≤ mfType m 0)
    (ha : (s.getX a).toNat % tyBytes (mfType m 0) = 0) (hb : (drainStride s b (tyBytes (mfType m 0))).toNat % tyBytes (mfType m 0) = 0)
    (hplace : ∀ r c, r < s.ct.vec.vcfg.g → c < s.ct.vec.vl →
      resolveAligned (memStart s 0 D).ctx { kind := 2 } (drainAddr s a b (tyBytes (mfType m 0)) r c) (tyBytes (mfType m 0)) (memStart s 0 D) =
        .ok (place r c) (memStart s 0 D) ∧ fillFirst s (place r c).pa (tyBytes (mfType m 0)) = false) :
    drainMemory tile b m (memStart s 0 D) (entryOf s (.mdrainMemory tile a b m)) =
      .ok { Effects.none with mflags := drainedFlags (drainedCell s tile (mfType m 0)) s.ct.vec.vcfg.g s.ct.vec.vl }
        (drainTo s tile a b (mfType m 0) place (memStart s 0 D)) := by
  have hok : (tileOk s tile && decide (s.ct.vec.vl ≤ 192)) = true := by
    rw [decide_eq_true hcols, Bool.and_true]
    exact decide_eq_true (by omega)
  have hflags := drainFlags_drained (memStart s 0 D) (entryOf s (.mdrainMemory tile a b m)) tile (mfType m 0)
  have hcells : drained (memStart s 0 D) (entryOf s (.mdrainMemory tile a b m)) tile (mfType m 0) = drainCells s tile (mfType m 0) := rfl
  have hall := foldRes_append (s := memStart s 0 D) (q := fun x => place x.1 x.2.1) (f := fun (acc : List Place) x s' =>
      ((resolveAligned s'.ctx { kind := 2 } (drainAddr s a b (tyBytes (mfType m 0)) x.1 x.2.1) (tyBytes (mfType m 0)) s').mapTrap
        (wholeRecord (tyBytes (mfType m 0)) (s.ct.vec.vl - x.2.1) (8 * tyBytes (mfType m 0)))).andThen fun p s' =>
          if fillFirst s' p.pa (tyBytes (mfType m 0)) then .wait .event s' else .ok (acc ++ [p]) s') (drainCells s tile (mfType m 0))
    (fun x hx acc => by
      obtain ⟨hr, hc, -⟩ := mem_drainCells.1 hx
      obtain ⟨hp, hfirst⟩ := hplace _ _ hr hc
      have hfirst' : fillFirst (memStart s 0 D) (place x.1 x.2.1).pa (tyBytes (mfType m 0)) = false := hfirst
      simp only [hp, Res.mapTrap, Res.andThen, hfirst', Bool.false_eq_true, if_false]) []
  rw [drainMemory, whole_of_zero (s := memStart s 0 D) hz]
  refine (need_true hok _ _ _).trans ((need_true (drainKindOk_of hkind) _ _ _).trans ((if_neg (not_not.2 ha)).trans ((if_neg (not_not.2 hb)).trans ?_)))
  simp only [hcells] at hflags ⊢
  refine (congrArg (Res.andThen · _) hall).trans ?_
  simp only [Res.andThen, hflags, List.nil_append, ← List.map_prod_left_eq_zip, List.foldl_map]
  rfl

/-- A place for each cell, of which those of the first n rows and k columns are the ones asked for. -/
theorem exists_places {n k : Nat} {pa : Nat → Nat → Nat} {P : Nat → Nat → Place → Prop}
    (h : ∀ r c, r < n → c < k → ∃ p : Place, p.pa = pa r c ∧ P r c p) :
    ∃ q : Nat → Nat → Place, (∀ r c, (q r c).pa = pa r c) ∧ ∀ r c, r < n → c < k → P r c (q r c) := by
  have hall : ∀ r c, ∃ p : Place, p.pa = pa r c ∧ (r < n → c < k → P r c p) := fun r c => by
    by_cases hrc : r < n ∧ c < k
    · obtain ⟨p, hp, hP⟩ := h r c hrc.1 hrc.2
      exact ⟨p, hp, fun _ _ => hP⟩
    · exact ⟨⟨pa r c, false, []⟩, rfl, fun hr hc => absurd ⟨hr, hc⟩ hrc⟩
  choose q hq using hall
  exact ⟨q, fun r c => (hq r c).1, fun r c => (hq r c).2⟩

/-- The flags of no columns. -/
theorem drainedFlags_zero (out : Nat → Nat → Nat × BitVec 3) (g : Nat) : drainedFlags out g 0 = 0 := by
  have h : ∀ l : List Nat, l.foldl (fun (u : BitVec 3) r => (List.range 0).foldl (fun u c => u ||| (out r c).2) u) 0 = 0 := fun l => by
    induction l with
    | nil => rfl
    | cons _ _ ih => exact ih
  exact h _

/-- What the completion of an instruction that stored leaves. -/
theorem stored_done {s u : State} {k : Nat} {D : Int} (h : Stored (memStart s k D) u) (fl : BitVec 3) {t : State}
    (ht : t = ((fromZero u).onMx fun m => { m with mxflag := m.mxflag ||| fl }).advance) :
    t = { s.vecAccessed t k with
      ct := { (s.vecAccessed t k).ct with
        pc := s.ct.pc + 4
        vec := { s.ct.vec with vstart := 0, pdone := 0 }
        mx := { s.ct.mx with mxflag := s.ct.mx.mxflag ||| fl }
        ctl := { s.ct.ctl with wait := .none, deficit := t.ct.ctl.deficit } }
      m := { (s.vecAccessed t k).m with mem := t.m.mem } } := by
  rw [ht]
  unfold State.advance fromZero State.onMx State.onVec
  rw [h.1]
  rfl

/-- The stores of the cells as they wait in the store buffer. -/
def drainHeld (s : State) (tile a b : Reg) (ty : Nat) (place : Nat → Nat → Place) (D : Int) : List BufStore :=
  (drainCells s tile ty).map fun x =>
    storeHeld (memStart s 0 D) (place x.1 x.2.1) (drainAddr s a b (tyBytes ty) x.1 x.2.1) (toBytes (tyBytes ty) x.2.2.1)

theorem mem_drainHeld {s : State} {tile a b : Reg} {ty : Nat} {place : Nat → Nat → Place} {D : Int} {e : BufStore} :
    e ∈ drainHeld s tile a b ty place D ↔ ∃ r c, r < s.ct.vec.vcfg.g ∧ c < s.ct.vec.vl ∧ e = storeHeld (memStart s 0 D) (place r c)
      (drainAddr s a b (tyBytes ty) r c) (toBytes (tyBytes ty) (drainedCell s tile ty r c).1) := by
  rw [drainHeld, List.mem_map]
  constructor
  · rintro ⟨x, hx, rfl⟩
    obtain ⟨hr, hc, hcell⟩ := mem_drainCells.1 hx
    exact ⟨x.1, x.2.1, hr, hc, by rw [hcell]⟩
  · rintro ⟨r, c, hr, hc, rfl⟩
    exact ⟨_, drainCells_cell s tile ty hr hc, rfl⟩

theorem drainHeld_eq_nil {s : State} {tile a b : Reg} {ty : Nat} {place : Nat → Nat → Place} {D : Int} :
    drainHeld s tile a b ty place D = [] ↔ s.ct.vec.vl = 0 := by
  rw [List.eq_nil_iff_forall_not_mem]
  constructor
  · intro h
    by_contra hpos
    exact h _ (mem_drainHeld.2 ⟨0, 0, Nat.pow_pos (by decide), Nat.pos_of_ne_zero hpos, rfl⟩)
  · rintro h e he
    obtain ⟨r, c, -, hc, -⟩ := mem_drainHeld.1 he
    omega

/-- Stores of the instruction that wait in the buffer keep it open (R201). -/
theorem staysOpen_held {s : State} {D : Int} {held : List BufStore} (p : Place) (va : Word) (bs : List Byte)
    (h : storeHeld (memStart s 0 D) p va bs ∈ held) (ef : Effects) :
    staysOpen ((memStart s 0 D).onMem fun m => { m with sbuf := held }) (memEffects s ef) = true := by
  have hopen : memOpen ((memStart s 0 D).onMem fun m => { m with sbuf := held }) (memEffects s ef) = true := by
    refine Bool.or_eq_true_iff.2 (.inl (List.any_eq_true.2 ⟨_, h, ?_⟩))
    simp [State.storeOf, State.mine, storeHeld, memStart, State.onMem, below]
  rw [staysOpen, hopen]
  rfl

/-- s after MDRAIN left stores in flight: it owes its completion if there are any. -/
def drainLeft (s : State) (held : List BufStore) (ef : Effects) (D : Int) : State :=
  ((fromZero ((memStart s 0 D).onMem fun m => { m with sbuf := held })).onVec fun x =>
    { x with owing := if held = [] then x.owing else x.owing ++ [ef] }).advance

/-- Nothing but the buffer and what is owed. -/
theorem drainLeft_rest {s t : State} {held : List BufStore} {ef : Effects} {D : Int} (ht : t = drainLeft s held ef D) : SameBytes s t ∧ SameDies s t ∧
    t = { s.vecAccessed t 0 with
      ct := { (s.vecAccessed t 0).ct with
        pc := s.ct.pc + 4
        vec := { s.ct.vec with vstart := 0, pdone := 0, owing := t.ct.vec.owing }
        ctl := { s.ct.ctl with wait := .none, deficit := t.ct.ctl.deficit } }
      m := { (s.vecAccessed t 0).m with sbuf := t.m.sbuf } } := by
  rw [ht]
  exact ⟨sameBytes_of_mem rfl, fun _ => rfl, rfl⟩

theorem drainLeft_open {s : State} {held : List BufStore} (h : held ≠ []) (ef : Effects) (D : Int) :
    drainLeft s held ef D = (moveOwing ((memStart s 0 D).onMem fun m => { m with sbuf := held }) ef).advance := by
  simp only [drainLeft, moveOwing, h, if_false]

section
variable {s : State} (hv : VecStart s .lm) (hz : s.ct.vec.vstart = 0) {tile a b : Reg} {m : BitVec 5} (ht : tile.toNat < min 8 s.ct.task.tiles)
  (hcols : s.ct.vec.vl ≤ 192) (hc : Calm s) (ho : VecOpen s) (hd : s.ct.ord.detctl = false)
  (hkind : s.tileKind tile.toNat = .fp → 8 ≤ mfType m 0) (ha : (s.getX a).toNat % tyBytes (mfType m 0) = 0)
  (hb : (drainStride s b (tyBytes (mfType m 0))).toNat % tyBytes (mfType m 0) = 0) {pa : Nat → Nat → Nat}
include hv hz ht hcols hc ho hd hkind ha hb

/-- MDRAIN leaves its cells in memory. -/
theorem exec_mdrain_now {may : Nat → Prop} (hs : s.sched.deferStores = false)
    (hready : ∀ r c, r < s.ct.vec.vcfg.g → c < s.ct.vec.vl →
      Ready may s { kind := 2 } (drainAddr s a b (tyBytes (mfType m 0)) r c) (tyBytes (mfType m 0)) (pa r c) ∧
      fillFirst s (pa r c) (tyBytes (mfType m 0)) = false) :
    ∃ t, exec (.mdrainMemory tile a b m) s = .next t ∧
      t.m.mem = writeAll (fun x => pa x.1 x.2.1) (fun x => x.2.2.1) (tyBytes (mfType m 0)) (drainCells s tile (mfType m 0)) s.m.mem ∧ SameDies s t ∧
      t = { s.vecAccessed t 0 with
        ct := { (s.vecAccessed t 0).ct with
          pc := s.ct.pc + 4
          vec := { s.ct.vec with vstart := 0, pdone := 0 }
          mx := { s.ct.mx with
            mxflag := s.ct.mx.mxflag ||| drainedFlags (drainedCell s tile (mfType m 0)) s.ct.vec.vcfg.g s.ct.vec.vl }
          ctl := { s.ct.ctl with wait := .none, deficit := t.ct.ctl.deficit } }
        m := { (s.vecAccessed t 0).m with mem := t.m.mem } } := by
  obtain ⟨hvec, -, hprof⟩ := hv
  obtain ⟨D, hok, -, -⟩ := vector_memory (i := .mdrainMemory tile a b m) hvec hprof rfl rfl hc ho
  obtain ⟨place, hpa, hplace⟩ := exists_places fun r c hr hcol => (hready r c hr hcol).1.1 _ (along_reached (reached_refl (memStart s 0 D)) _)
  have hop := drainMemory_ok hz ht hcols hkind ha hb fun r c hr hcol =>
    ⟨hplace r c hr hcol, (hpa r c).symm ▸ (hready r c hr hcol).2⟩
  obtain ⟨hst, hmem⟩ : Stored (memStart s 0 D) (drainTo s tile a b (mfType m 0) place (memStart s 0 D)) ∧
      (drainTo s tile a b (mfType m 0) place (memStart s 0 D)).m.mem = writeAll (fun x => (place x.1 x.2.1).pa) (fun x => x.2.2.1)
        (tyBytes (mfType m 0)) (drainCells s tile (mfType m 0)) s.m.mem := storeAll_now (calm_memStart hc 0 D) hd hs _
  simp only [hpa] at hmem
  generalize drainTo s tile a b (mfType m 0) place (memStart s 0 D) = u at hop hst hmem
  have hcalm := hst.calm (calm_memStart hc 0 D)
  obtain ⟨-, hdone⟩ := hok _ _ hop hcalm.poison (by rw [hst.1]; rfl)
  have hnext := hdone (staysOpen_calm hcalm _) (mayComplete_calm hcalm rfl)
  rw [applyEffects_memEffects] at hnext
  exact ⟨_, hnext, hmem, hst.2, stored_done hst _ rfl⟩

/-- MDRAIN leaves its cells in the store buffer. -/
theorem exec_mdrain_held (hs : s.sched.deferStores = true)
    (hready : ∀ r c s', r < s.ct.vec.vcfg.g → c < s.ct.vec.vl → Along (fun _ => False) s { s' with m := { s'.m with sbuf := [] } } →
      fillFirst s (pa r c) (tyBytes (mfType m 0)) = false ∧ ∃ k : Place, k.pa = pa r c ∧ homeOf k.pa ≠ .device ∧
        resolveAligned s'.ctx { kind := 2 } (drainAddr s a b (tyBytes (mfType m 0)) r c) (tyBytes (mfType m 0)) s' = .ok k s') :
    ∃ t, exec (.mdrainMemory tile a b m) s = .next t ∧ SameBytes s t ∧ SameDies s t ∧
      (∀ r c, r < s.ct.vec.vcfg.g → c < s.ct.vec.vl → ∃ e ∈ t.m.sbuf, s.mine e = true ∧ e.vec = true ∧ e.op = s.ct.ord.opSeq + 1 ∧ e.pa = pa r c ∧
        e.scope = none ∧ e.mask = 0xFF ∧ e.bytes = toBytes (tyBytes (mfType m 0)) (drainedCell s tile (mfType m 0) r c).1) ∧
      (∀ e ∈ t.m.sbuf, ∃ r c, r < s.ct.vec.vcfg.g ∧ c < s.ct.vec.vl ∧ e.pa = pa r c) ∧
      (0 < s.ct.vec.vl → t.ct.vec.owing = s.ct.vec.owing ++ [memEffects s { Effects.none with
        mflags := drainedFlags (drainedCell s tile (mfType m 0)) s.ct.vec.vcfg.g s.ct.vec.vl }]) ∧
      (s.ct.vec.vl = 0 → t.ct.vec.owing = s.ct.vec.owing) ∧
      t = { s.vecAccessed t 0 with
        ct := { (s.vecAccessed t 0).ct with
          pc := s.ct.pc + 4
          vec := { s.ct.vec with vstart := 0, pdone := 0, owing := t.ct.vec.owing }
          ctl := { s.ct.ctl with wait := .none, deficit := t.ct.ctl.deficit } }
        m := { (s.vecAccessed t 0).m with sbuf := t.m.sbuf } } := by
  obtain ⟨hvec, -, hprof⟩ := hv
  obtain ⟨D, hok, -, -⟩ := vector_memory (i := .mdrainMemory tile a b m) hvec hprof rfl rfl hc ho
  have hcalm := calm_memStart hc 0 D
  have halong : Along (fun _ => False) s { memStart s 0 D with m := { (memStart s 0 D).m with sbuf := [] } } := by
    rw [← hcalm.sbuf]
    exact along_reached (reached_refl (memStart s 0 D)) _
  obtain ⟨place, hpa, hplace⟩ := exists_places (P := fun r c k =>
      resolveAligned (memStart s 0 D).ctx { kind := 2 } (drainAddr s a b (tyBytes (mfType m 0)) r c) (tyBytes (mfType m 0)) (memStart s 0 D) =
        .ok k (memStart s 0 D)) fun r c hr hcol => by
    obtain ⟨-, k, hk, -, hres⟩ := hready r c _ hr hcol halong
    exact ⟨k, hk, hres⟩
  have hop := drainMemory_ok hz ht hcols hkind ha hb fun r c hr hcol =>
    ⟨hplace r c hr hcol, (hpa r c).symm ▸ (hready r c _ hr hcol halong).1⟩
  have hheld : drainTo s tile a b (mfType m 0) place (memStart s 0 D) =
      (memStart s 0 D).onMem fun m' => { m' with sbuf := drainHeld s tile a b (mfType m 0) place D } := storeAll_held hcalm hd hs _
  rw [hheld] at hop
  obtain ⟨hopen, hdone⟩ := hok _ _ hop hc.poison rfl
  have hnext : vector .lm (.mdrainMemory tile a b m) s = .next (drainLeft s (drainHeld s tile a b (mfType m 0) place D) (memEffects s { Effects.none with
      mflags := drainedFlags (drainedCell s tile (mfType m 0)) s.ct.vec.vcfg.g s.ct.vec.vl }) D) := by
    by_cases hzero : s.ct.vec.vl = 0
    · have hnone := (drainHeld_eq_nil (tile := tile) (a := a) (b := b) (ty := mfType m 0) (place := place) (D := D)).2 hzero
      have hsame : (memStart s 0 D).onMem (fun m' => { m' with sbuf := [] }) = memStart s 0 D := by
        unfold State.onMem
        rw [← hcalm.sbuf]
      rw [hnone, hsame] at hdone
      rw [hdone (staysOpen_calm hcalm _) (mayComplete_calm hcalm rfl), applyEffects_memEffects, hnone, hzero, drainedFlags_zero, drainLeft, hsame]
      simp [State.onMx, State.onVec]
    · obtain ⟨e, he⟩ := List.exists_mem_of_ne_nil _ (mt drainHeld_eq_nil.1 hzero)
      obtain ⟨r, c, -, -, rfl⟩ := mem_drainHeld.1 he
      rw [hopen (staysOpen_held _ _ _ he _), drainLeft_open (mt drainHeld_eq_nil.1 hzero)]
  obtain ⟨hbytes, hdies, hrest⟩ := drainLeft_rest (s := s) (held := drainHeld s tile a b (mfType m 0) place D) rfl
  refine ⟨_, hnext, hbytes, hdies, fun r c hr hcol => ⟨_, mem_drainHeld.2 ⟨r, c, hr, hcol, rfl⟩, ?_⟩, fun e he => ?_, fun hpos => ?_, fun hzero => ?_,
    hrest⟩
  · exact ⟨by simp [State.mine, storeHeld, memStart], rfl, rfl, hpa r c, rfl, rfl, rfl⟩
  · obtain ⟨r, c, hr, hcol, rfl⟩ := mem_drainHeld.1 he
    exact ⟨r, c, hr, hcol, hpa r c⟩
  · exact if_neg (mt drainHeld_eq_nil.1 (Nat.ne_of_gt hpos))
  · exact if_pos (drainHeld_eq_nil.2 hzero)

end

end Sys2Proof.Laws

/-!
SUPPORT. O48: the matrix array (R154 to R160, R336 to R345).
-/

namespace Sys2Proof.Laws

open Sys2Proof.Machine

/-- Memory after an MDRAIN, where it stored the whole of a cell (log entry 13). -/
theorem drainCells_whole {s t : State} {tile : Reg} {ty w : Nat} {pa : Nat → Nat → Nat} (hwf : Memory.wf s.m.mem = true)
    (ht : t.m.mem = writeAll (fun x => pa x.1 x.2.1) (fun x => x.2.2.1) w (drainCells s tile ty) s.m.mem) {r c : Nat} (hr : r < s.ct.vec.vcfg.g)
    (hc : c < s.ct.vec.vl)
    (hmeet : ∀ i j, i < s.ct.vec.vcfg.g → j < s.ct.vec.vl → pa i j = pa r c ∨ pa i j + w ≤ pa r c ∨ pa r c + w ≤ pa i j) :
    ∃ i j, i < s.ct.vec.vcfg.g ∧ j < s.ct.vec.vl ∧ pa i j = pa r c ∧
      ∀ k, k < w → t.byteAt (pa r c + k) = BitVec.ofNat 8 ((drainedCell s tile ty i j).1 / 256 ^ k) := by
  obtain ⟨x, hx, hpa, hbytes⟩ := byte_writeAll_whole (v := fun x => x.2.2.1) hwf (drainCells s tile ty)
    (fun x hx => hmeet x.1 x.2.1 (mem_drainCells.1 hx).1 (mem_drainCells.1 hx).2.1) ⟨_, drainCells_cell s tile ty hr hc, rfl⟩
  obtain ⟨hi, hj, hcell⟩ := mem_drainCells.1 hx
  refine ⟨x.1, x.2.1, hi, hj, hpa, fun k hk => ?_⟩
  rw [← hcell, ← hbytes k hk, ← ht]
  rfl

/-- Memory after an MDRAIN, apart from its cells. -/
theorem drainCells_outside {s t : State} {tile : Reg} {ty w : Nat} {pa : Nat → Nat → Nat} (hwf : Memory.wf s.m.mem = true)
    (ht : t.m.mem = writeAll (fun x => pa x.1 x.2.1) (fun x => x.2.2.1) w (drainCells s tile ty) s.m.mem) {x : Nat}
    (hout : ∀ r c, ¬ (r < s.ct.vec.vcfg.g ∧ c < s.ct.vec.vl ∧ pa r c ≤ x ∧ x < pa r c + w)) : t.byteAt x = s.byteAt x := by
  rw [State.byteAt, ht]
  exact byte_writeAll_outside hwf _ fun y hy hin => hout _ _ ⟨(mem_drainCells.1 hy).1, (mem_drainCells.1 hy).2.1, hin⟩

/-- Settles O48: one lemma for each instruction, of those that work on tiles alone, of MDRAIN and of MCB. -/
theorem matrixArray : Obligations.MatrixArray := by
  unfold Obligations.MatrixArray
  intro s tile a b v hv hz ht
  obtain ⟨hready, hform, hprof⟩ := id hv
  refine ⟨?mmac, ?mzero, ?mldacc, ?register, ?memory, ?book⟩
  case mmac =>
    intro pn kp ha hb hpos hlen hpanel hpair hrows hready' hty int kind hfree
    exact exec_mmac hready hprof hz ht ha hb hpos hlen hpanel hpair hrows hready' hty hfree
  case mzero => exact exec_mzero hready hprof hz ht
  case mldacc =>
    intro ha hpos hcols hlen hty
    exact exec_mldacc hready hprof hz ht ha hpos hcols hlen hty
  case register =>
    intro m _ hm hg hpos hcols hlen hkind
    exact exec_mdrainRegister hv hz ht hm hg hpos hcols hlen hkind
  case memory =>
    intro m pa _ hcols hc ho hd hwf hkind w stride ha hb
    refine ⟨fun hs hplaces => ?held, fun hs hplaces => ?now⟩
    case held => exact exec_mdrain_held hv hz ht hcols hc ho hd hkind ha hb hs hplaces
    case now =>
      obtain ⟨t, hexec, hmem, hdies, heq⟩ := exec_mdrain_now hv hz ht hcols hc ho hd hkind ha hb hs hplaces
      exact ⟨t, hexec, fun r c hr hcol hmeet => drainCells_whole hwf hmem hr hcol hmeet, fun x hout => drainCells_outside hwf hmem hout, hdies, heq⟩
  case book =>
    intro c pa hlt hc ho hplace
    exact ⟨fun hdefer hd => exec_mcb_late hv hz hc ho hplace hdefer hd, fun hnow => exec_mcb_now hv hz hc ho hplace hlt hnow⟩

end Sys2Proof.Laws

/-!
SUPPORT. MFILL (R147 to R151, R341): its card, its refusals, and what it finds.
-/

namespace Sys2Proof.Laws

open Sys2Proof.Machine

/-! The card. -/

theorem bytes_append (m : List Host.Cell) (k : Nat) : ∀ n pa : Nat, Memory.bytes m pa (n + k) = Memory.bytes m pa n ++ Memory.bytes m (pa + n) k
  | 0, pa => by rw [Nat.zero_add]; rfl
  | n + 1, pa => by
    have hrest := bytes_append m k n (pa + 1)
    rw [Nat.add_right_comm n 1 k, show pa + (n + 1) = pa + 1 + n by omega]
    exact congrArg (Memory.byte m pa :: ·) hrest

/-- An access that is aligned and ready is ready. -/
theorem resolve_of_aligned {c : Ctx} {a : Acc} {va : Word} {n : Nat} {s t : State} {p : Place} (h : resolveAligned c a va n s = .ok p t) :
    resolve c a va n s = .ok p t := by
  unfold resolveAligned at h
  split at h
  · exact absurd h nofun
  · exact h

/-- Doublewords of a card that are ready read as they stand in memory, from the jth on. -/
theorem unitLoad_ready {s : State} {k : Nat} {D : Int} (hc : Calm s) {va : Word} {pa : Nat} : ∀ (n j : Nat) (u : State) (acc : List Byte),
    Reached (memStart s k D) u → (∀ i, i < j + n → Ready (fun _ => False) s { kind := 1 } (va + BitVec.ofNat 64 (8 * i)) 8 (pa + 8 * i)) →
    ∃ t, Reached (memStart s k D) t ∧
      unitLoad false (va + BitVec.ofNat 64 (8 * j)) 8 8 n u acc = .ok (acc ++ s.bytesAt (pa + 8 * j) (8 * n)) t
  | 0, j, u, acc, hu, _ => ⟨u, hu, congrArg (Res.ok · u) (List.append_nil acc).symm⟩
  | n + 1, j, u, acc, hu, hready => by
    obtain ⟨p, hp, hres⟩ := (hready j (by omega)).1 u (along_reached hu _)
    have hcu := calm_reached (calm_memStart hc k D) hu
    have hmem : u.m.mem = s.m.mem := congrArg (fun m => m.mem) (reached_mem_eq hu)
    have hload := loadBytes_calm hcu false p 8
    have hl := reached_l1Read u (false && p.cached) u.ct.lcore p.pa
    generalize l1Read u (false && p.cached) u.ct.lcore p.pa = u' at hload hl
    obtain ⟨t, ht, hrest⟩ := unitLoad_ready hc n (j + 1) u' (acc ++ u.bytesAt p.pa 8) (reached_trans hu hl) fun i hi => hready i (by omega)
    refine ⟨t, ht, ?_⟩
    have hnext : va + BitVec.ofNat 64 (8 * j) + BitVec.ofNat 64 8 = va + BitVec.ofNat 64 (8 * (j + 1)) := by
      rw [BitVec.add_assoc, ← BitVec.ofNat_add, Nat.mul_succ]
    have hbytes : s.bytesAt (pa + 8 * j) (8 * (n + 1)) = u.bytesAt p.pa 8 ++ s.bytesAt (pa + 8 * (j + 1)) (8 * n) := by
      rw [State.bytesAt, State.bytesAt, State.bytesAt, hmem, hp, Nat.mul_succ, Nat.add_comm (8 * n), bytes_append, Nat.mul_succ, ← Nat.add_assoc]
    rw [unitLoad, unitRead, resolve_of_aligned hres]
    simp only [Res.mapTrap, Res.andThen, hload]
    rw [hnext, hbytes, ← List.append_assoc]
    exact hrest

/-! What MFILL finds. -/

theorem fillOpOf_mfill (d a : Reg) (m : BitVec 5) (e : BitVec 1) (q : BitVec 2) (sd : BitVec 1) (t : BitVec 640) :
    fillOpOf (.mfill d a m e q sd) t = ⟨m, if e = 1 then some t else none, sd == 1⟩ := by
  unfold fillOpOf
  simp only [beq_iff_eq]

/-- The profiles of MFILL: one of an algebra asks for that too. -/
theorem exec_mfill {s : State} {d a : Reg} {m : BitVec 5} {e : BitVec 1} {q : BitVec 2} {sd : BitVec 1} (h : e = 1 → s.has .la = true) :
    exec (.mfill d a m e q sd) s = vector .lm (.mfill d a m e q sd) s := by
  change execMfill d a m e q sd s = _
  unfold execMfill
  split
  next he => exact withProfile_has (h (by simpa using he)) _
  next => rfl

/-- The operation of MFILL, once no FENCE holds it. -/
def mfillOp (i : Instr) (q : BitVec 2) (s : State) (e : VEntry) : Res Effects :=
  fillPanel i q (performWhere (fun l => s.myLate l && l.vec && l.writes) (drainWhere (fun b => s.mine b && b.vec) s)) e

theorem vecOp_mfill (d a : Reg) (m : BitVec 5) (e : BitVec 1) (q : BitVec 2) (sd : BitVec 1) :
    vecOp (.mfill d a m e q sd) = memOp (mfillOp (.mfill d a m e q sd) q) := rfl

/-- What the vector stream has stored is in memory already. -/
theorem mfillOp_calm (i : Instr) (q : BitVec 2) {s : State} (hc : Calm s) (e : VEntry) : mfillOp i q s e = fillPanel i q s e := by
  rw [mfillOp, drainWhere_calm hc, performWhere, hc.late]
  rfl

/-- Every source ready, and nothing changed. -/
theorem foldRes_same {α β : Type} {f : β → α → State → Res β} {s : State} (l : List α) (h : ∀ x ∈ l, ∀ b, ∃ b', f b x s = .ok b' s) (b : β) :
    ∃ b', foldRes f l b s = .ok b' s := by
  induction l generalizing b with
  | nil => exact ⟨b, rfl⟩
  | cons x l ih =>
    obtain ⟨b', hb⟩ := h x List.mem_cons_self b
    rw [foldRes, hb]
    exact ih (fun y hy => h y (List.mem_cons_of_mem _ hy)) b'

theorem readySources_same {s : State} {o : FillOp} {c : FillCard}
    (h : ∀ x ∈ fillSources o c, ∃ p, resolveAligned s.ctx { kind := 1, quiet := true } x.1 x.2.1 s = .ok p s) :
    ∃ src, readySources s.ctx o c s = .ok src s := by
  refine foldRes_same _ (fun x hx acc => ?_) _
  obtain ⟨p, hp⟩ := h x hx
  rw [hp]
  exact ⟨_, rfl⟩

/-- A handle or a format that is refused is so before the card is looked at (R49, R341). -/
theorem fillPanel_refused {s : State} {i : Instr} {q : BitVec 2} {e : VEntry} (hz : s.ct.vec.vstart = 0)
    (h : handleOk e.xd = false ∨ (fillOpOf i (s.alg q)).fmtOk = false) : fillPanel i q s e = vtrap Code.illegal s := by
  rw [fillPanel, whole_of_zero hz]
  refine if_neg ?_
  obtain h | h := h
  · rw [h]; exact nofun
  · rw [h, Bool.and_false]; exact nofun

/-- What MFILL does once its card has passed the checks: it waits, or readies its sources. -/
def fillGoesOn (o : FillOp) (i : Instr) (q : BitVec 2) (e : VEntry) (bs : List Byte) (s : State) : Res Effects :=
  if Config.jobLimit ≤ (s.core s.ct.lcore).jobs.length then .wait .job s
  else
    match readySources s.ctx o (FillCard.parse bs) s with
    | .ok src s1 =>
      .ok Effects.none (markFill (startFill s1
        { instr := i, handle := e.xd, cardAddr := e.xa, card := bs,
          book := if o.mf == 0x10 then s.ct.mx.books.toList.getD (FillCard.parse bs).cbook 0 else 0,
          alg := s.alg q, written := false, lines := [], panel := 0, refill := false, poisoned := false } src) s1.pkg.idCtr)
    | .trap t s1 => .trap t (s1.onCore s.ct.lcore fun k => { k with panels := keepPanels k.panels (handleRow e.xd) (handleLen e.xd) })
    | .wait w s1 => .wait w s1
    | .gone s1 => .gone s1

end Sys2Proof.Laws

/-!
SUPPORT. MFILL that traps, waits, or hands its job to the scheduler, and O49.
-/

namespace Sys2Proof.Laws

open Sys2Proof.Machine

/-! Its panel, its job and its record. -/

/-- The record that a fill makes, and the panel and the job of it. -/
def fillRec (o : FillOp) (i : Instr) (q : BitVec 2) (e : VEntry) (bs : List Byte) (s : State) : FillRec :=
  { instr := i, handle := e.xd, cardAddr := e.xa, card := bs,
    book := if o.mf == 0x10 then s.ct.mx.books.toList.getD (FillCard.parse bs).cbook 0 else 0,
    alg := s.alg q, written := false, lines := [], panel := s.pkg.idCtr, refill := false, poisoned := false }

def fillJob (s : State) (r : FillRec) (src : List Nat) : Job :=
  { id := s.pkg.idCtr, engine := .fill s.pkg.idCtr, tag := 0, task := s.ct.task.taskid, ctno := s.ct.ctno, card := emptyCard, troot := s.ct.sup.troot,
    stashBase := s.ct.task.stashBase, stashLen := s.ct.task.stashLen, launch := s.ct.task.launch, level := s.ct.level,
    reads := fillReads s.ctx (fillOpOf r.instr r.alg) (FillCard.parse r.card), writes := [⟨1000, handleRow r.handle, handleRow r.handle + handleLen r.handle⟩],
    state := .ready 0, err := none, fill := some r, src := src }

/-- A core with the panel and the job of a fill. -/
def fillCore (s : State) (r : FillRec) (src : List Nat) (k : Core) : Core :=
  { k with
    panels := keepPanels k.panels (handleRow r.handle) (handleLen r.handle) ++ [newPanel s.ct.task.taskid r]
    jobs := k.jobs ++ [fillJob s r src] }

/-- s with a fill begun. -/
def fillBegun (s : State) (r : FillRec) (src : List Nat) : State :=
  { s with
    ct := { s.ct with mx := { s.ct.mx with fills := [r] } }
    cores := changeCore s.cores s.ct.lcore (fillCore s r src)
    pkg := { s.pkg with idCtr := s.pkg.idCtr + 1 }
    pending := s.pending ++ [.jobStart s.ct.lcore] }

theorem core_fillBegun (s : State) (r : FillRec) (src : List Nat) (h : s.ct.lcore < 128) (k : Nat) :
    (fillBegun s r src).core k = if k = s.ct.lcore then fillCore s r src (s.core s.ct.lcore) else s.core k := by
  rw [← core_onCore s s.ct.lcore k _ h, onCore_eq]
  rfl

/-- No FENCE .vv came while the instruction waited. -/
theorem markFill_none {s : State} (h : s.ct.ord.vvNow = []) (id : Nat) : markFill s id = s := by
  have hjobs : (s.ct.ord.vvJobs ++ s.ct.ord.vvNow.map fun m => (id, m.1)) = s.ct.ord.vvJobs := by rw [h, List.map_nil, List.append_nil]
  simp only [markFill, State.onOrd, hjobs]

/-- A fill begins where no other has been recorded. -/
theorem startFill_begun {s : State} {o : FillOp} {i : Instr} {q : BitVec 2} {e : VEntry} {bs : List Byte} (hf : s.ct.mx.fills = []) (src : List Nat) :
    startFill s { fillRec o i q e bs s with panel := 0 } src = fillBegun s (fillRec o i q e bs s) src := by
  unfold startFill State.push State.onMx State.onPkg
  simp only [onCore_eq, hf]
  rfl

theorem fillGoesOn_begun {s : State} {o : FillOp} {i : Instr} {q : BitVec 2} {e : VEntry} {bs : List Byte} {src : List Nat}
    (hjobs : (s.core s.ct.lcore).jobs.length < 32) (hf : s.ct.mx.fills = []) (hv : s.ct.ord.vvNow = [])
    (hsrc : readySources s.ctx o (FillCard.parse bs) s = .ok src s) :
    fillGoesOn o i q e bs s = .ok Effects.none (fillBegun s (fillRec o i q e bs s) src) := by
  rw [fillGoesOn, if_neg (Nat.not_le.2 hjobs), hsrc]
  refine congrArg (Res.ok Effects.none) ((markFill_none ?_ _).trans (startFill_begun hf src))
  exact (congrArg (fun t => t.ct.ord.vvNow) (startFill_begun (o := o) (i := i) (q := q) (e := e) (bs := bs) hf src)).trans hv

/-- A trap of the vector stream from U enters S, with the stopped instruction's pc. -/
theorem vectorTrap_u {u : State} (hu : u.ct.level = .u) (e : VEntry) (rest : List VEntry) (q : Trap) : ∃ t, vectorTrap u e rest q = .next t ∧
    t.ct.level = .s ∧ t.ct.pc = u.pkg.sEntry ∧ t.ct.sup.scause = scauseOf { q with vec := true } false 0 ∧ t.ct.sup.sepc = e.pc ∧ t.m = u.m ∧
    t.cores = u.cores := ⟨_, takeTrap_u _ hu, rfl, rfl, rfl, rfl, rfl, rfl⟩

section
variable {s : State} (hv : VecStart s .lm) {d a : Reg} {m : BitVec 5} {e : BitVec 1} {q : BitVec 2} {sd : BitVec 1} (hla : e = 1 → s.has .la = true)
  (hz : s.ct.vec.vstart = 0) (hc : Calm s) (ho : VecOpen s)
include hv hla hz hc ho

/-- A refusal traps ILLEGAL (R49). -/
theorem exec_mfill_refused (h : handleOk (s.getX d) = false ∨ (fillOpOf (.mfill d a m e q sd) (s.alg q)).fmtOk = false) (hu : s.ct.level = .u) :
    ∃ t, exec (.mfill d a m e q sd) s = .next t ∧ t.ct.level = .s ∧ t.ct.pc = s.pkg.sEntry ∧ t.ct.sup.scause = 0x801 ∧ t.ct.sup.sepc = s.ct.pc ∧
      SameBytes s t ∧ t.cores = s.cores := by
  obtain ⟨hvec, -, hprof⟩ := hv
  obtain ⟨D, -, -, htrap⟩ := vector_memory (i := .mfill d a m e q sd) hvec hprof rfl (vecOp_mfill ..) hc ho
  have hcalm := calm_memStart hc 0 D
  have hrefused : fillPanel (.mfill d a m e q sd) q (memStart s 0 D) (entryOf s (.mfill d a m e q sd)) = vtrap Code.illegal (memStart s 0 D) :=
    fillPanel_refused (s := memStart s 0 D) hz h
  have hnext := htrap _ _ ((mfillOp_calm _ q hcalm _).trans hrefused) (settled_of_calm hcalm rfl)
  have hcause : scauseOf { code := Code.illegal, vec := true } false 0 = 0x801 := by decide
  obtain ⟨t, htaken, hlevel, hpc, hscause, hsepc, hmem, hcores⟩ := vectorTrap_u (u := (memStart s 0 D).advance) hu (entryOf s (.mfill d a m e q sd)) []
    { code := Code.illegal, vec := true }
  exact ⟨t, (exec_mfill hla).trans (hnext.trans htaken), hlevel, hpc, hscause.trans hcause, hsepc, sameBytes_of_mem (congrArg (fun m => m.mem) hmem), hcores⟩

variable {pa : Nat} (hok : handleOk (s.getX d) = true) (hfmt : (fillOpOf (.mfill d a m e q sd) (s.alg q)).fmtOk = true)
  (ha : (s.getX a).toNat % 64 = 0)
  (hready : ∀ k, k < 8 → Ready (fun _ => False) s { kind := 1 } (s.getX a + BitVec.ofNat 64 (8 * k)) 8 (pa + 8 * k))
  (hcard : (fillOpOf (.mfill d a m e q sd) (s.alg q)).cardOk (FillCard.parse (s.bytesAt pa 64)) = true)
  (hrows : (fillOpOf (.mfill d a m e q sd) (s.alg q)).dataRows (FillCard.parse (s.bytesAt pa 64)) +
    FillOp.scaleRows (FillCard.parse (s.bytesAt pa 64)) ≤ handleLen (s.getX d))
include hok hfmt ha hready hcard hrows

omit hv hla ho in
/-- The card is read, and passes its checks (R150, R341). -/
theorem fillPanel_card (D : Int) : ∃ t, Reached (memStart s 0 D) t ∧
    fillPanel (.mfill d a m e q sd) q (memStart s 0 D) (entryOf s (.mfill d a m e q sd)) =
      fillGoesOn (fillOpOf (.mfill d a m e q sd) (s.alg q)) (.mfill d a m e q sd) q (entryOf s (.mfill d a m e q sd)) (s.bytesAt pa 64) t := by
  obtain ⟨t, ht, hload⟩ := unitLoad_ready (va := s.getX a) hc 8 0 (memStart s 0 D) [] (reached_refl _) fun i hi => hready i (by omega)
  refine ⟨t, ht, ?_⟩
  have hfirst : (handleOk (s.getX d) && (fillOpOf (.mfill d a m e q sd) (s.alg q)).fmtOk) = true := by rw [hok, hfmt]; rfl
  have hload' : unitLoad false (s.getX a) 8 8 8 (memStart s 0 D) [] = .ok (s.bytesAt pa 64) t := by
    simpa using hload
  have hcheck : ((fillOpOf (.mfill d a m e q sd) (s.alg q)).cardOk (FillCard.parse (s.bytesAt pa 64)) &&
      decide ((fillOpOf (.mfill d a m e q sd) (s.alg q)).dataRows (FillCard.parse (s.bytesAt pa 64)) +
        FillOp.scaleRows (FillCard.parse (s.bytesAt pa 64)) ≤ handleLen (s.getX d))) = true := by rw [hcard, decide_eq_true hrows]; rfl
  rw [fillPanel, whole_of_zero (s := memStart s 0 D) hz]
  refine (need_true hfirst _ _ _).trans ((if_neg (not_not.2 ha)).trans ((congrArg (Res.andThen · _) hload').trans ?_))
  exact need_true hcheck _ _ _

/-- Where the scheduler is full the instruction stays in the VIQ (log entry 44). -/
theorem exec_mfill_full (hfull : 32 ≤ (s.core s.ct.lcore).jobs.length) :
    exec (.mfill d a m e q sd) s = .next ((s.onVec fun x => { x with viq := [entryOf s (.mfill d a m e q sd)] }).advance) := by
  obtain ⟨hvec, -, hprof⟩ := hv
  obtain ⟨D, -, hwait, -⟩ := vector_memory (i := .mfill d a m e q sd) hvec hprof rfl (vecOp_mfill ..) hc ho
  obtain ⟨t, ht, hfill⟩ := fillPanel_card hz hc hok hfmt ha hready hcard hrows D
  have hjobs : Config.jobLimit ≤ (t.core t.ct.lcore).jobs.length := by
    rw [reached_ct ht, core_congr (reached_cores ht)]
    exact hfull
  rw [exec_mfill hla]
  refine hwait .job t ((mfillOp_calm _ q (calm_memStart hc 0 D) _).trans (hfill.trans ?_))
  rw [fillGoesOn, if_pos hjobs]

/-- Else its fill begins. -/
theorem exec_mfill_begun (hroom : (s.core s.ct.lcore).jobs.length < 32)
    (hsrc : ∀ x ∈ fillSources (fillOpOf (.mfill d a m e q sd) (s.alg q)) (FillCard.parse (s.bytesAt pa 64)), ∀ s', Along (fun _ => False) s s' →
      ∃ p, resolveAligned s'.ctx { kind := 1, quiet := true } x.1 x.2.1 s' = .ok p s') : ∃ D t src, Reached (memStart s 0 D) t ∧
    exec (.mfill d a m e q sd) s = .next (fromZero (fillBegun t (fillRec (fillOpOf (.mfill d a m e q sd) (s.alg q)) (.mfill d a m e q sd) q
      (entryOf s (.mfill d a m e q sd)) (s.bytesAt pa 64) t) src)).advance := by
  obtain ⟨hvec, -, hprof⟩ := hv
  obtain ⟨D, hdone, -, -⟩ := vector_memory (i := .mfill d a m e q sd) hvec hprof rfl (vecOp_mfill ..) hc ho
  obtain ⟨t, ht, hfill⟩ := fillPanel_card hz hc hok hfmt ha hready hcard hrows D
  have hct := reached_ct ht
  have hcalm := calm_reached (calm_memStart hc 0 D) ht
  have hjobs : (t.core t.ct.lcore).jobs.length < 32 := by
    rw [hct, core_congr (reached_cores ht)]
    exact hroom
  obtain ⟨src, hsources⟩ := readySources_same fun x hx => hsrc x hx t (along_reached ht _)
  have hbegun := hfill.trans (fillGoesOn_begun hjobs (fills_nil hcalm) (by rw [hct]; rfl) hsources)
  obtain ⟨-, hnext⟩ := hdone _ _ ((mfillOp_calm _ q (calm_memStart hc 0 D) _).trans hbegun) hcalm.poison (congrArg (fun x => x.ord.fenceIvl) hct)
  have hquiet := hnext (staysOpen_quiet hcalm.sbuf hcalm.late hcalm.biWait _) (mayComplete_quiet (by exact hcalm.biWait) rfl)
  rw [applyEffects_nothing] at hquiet
  exact ⟨D, t, src, ht, (exec_mfill hla).trans hquiet⟩

end

/-! What a fill that has begun shows. -/

section
variable {s t : State} {D : Int} (ht : Reached (memStart s 0 D) t) (r : FillRec) (src : List Nat)
include ht

theorem core_fillDone (hlc : s.ct.lcore < 128) (k : Nat) : (fromZero (fillBegun t r src)).advance.core k =
    if k = s.ct.lcore then fillCore t r src (s.core s.ct.lcore) else s.core k := by
  have hlcore : t.ct.lcore = s.ct.lcore := (congrArg Thread.lcore (reached_ct ht) :)
  have hk := core_fillBegun t r src (hlcore ▸ hlc) k
  rw [hlcore, core_congr (reached_cores ht), core_congr (reached_cores ht)] at hk
  exact hk

/-- The job is of the context that issued it (R151). -/
theorem fillJob_context : (fillJob t r src).task = s.ct.task.taskid ∧ (fillJob t r src).level = s.ct.level ∧
    (fillJob t r src).reads = fillReads s.ctx (fillOpOf r.instr r.alg) (FillCard.parse r.card) := by
  have hctx : t.ctx = s.ctx := by
    unfold State.ctx
    rw [reached_ct ht]
    rfl
  refine ⟨(congrArg (fun x => x.task.taskid) (reached_ct ht) :), (congrArg Thread.level (reached_ct ht) :), ?_⟩
  rw [fillJob, hctx]

theorem fillDone_rest {u : State} (hu : u = (fromZero (fillBegun t r src)).advance) : SameDies s u ∧
    u = { s.vecAccessed u 0 with
      ct := { (s.vecAccessed u 0).ct with
        pc := s.ct.pc + 4
        vec := { s.ct.vec with vstart := 0, pdone := 0 }
        mx := { s.ct.mx with fills := u.ct.mx.fills }
        ctl := { s.ct.ctl with wait := .none, deficit := u.ct.ctl.deficit } }
      cores := u.cores
      pkg := { s.pkg with idCtr := s.pkg.idCtr + 1 }
      pending := s.pending ++ [.jobStart s.ct.lcore] } := by
  rw [hu]
  refine ⟨ht.2, ?_⟩
  unfold State.advance fromZero fillBegun State.onVec
  rw [ht.1]
  rfl

end

/-- Settles O49: the three answers of MFILL. -/
theorem matrixFill : Obligations.MatrixFill := by
  unfold Obligations.MatrixFill
  intro s d a m e q sd pa hv hla hz hc ho hlc i o bs c h
  have hop : fillOpOf i (s.alg q) = o := fillOpOf_mfill d a m e q sd _
  refine ⟨fun hrefused hu => ?refused, fun hok hfmt ha hready hcard hrows => ⟨fun hfull => ?full, fun hroom hsrc => ?begun⟩⟩
  case refused => exact exec_mfill_refused hv hla hz hc ho (hop ▸ hrefused) hu
  case full =>
    exact ⟨_, entryOf s i, exec_mfill_full hv hla hz hc ho hok (hop ▸ hfmt) ha hready (hop ▸ hcard) (hop ▸ hrows) hfull, rfl, rfl, rfl, rfl, rfl⟩
  case begun =>
    obtain ⟨D, t, src, ht, hexec⟩ := exec_mfill_begun hv hla hz hc ho hok (hop ▸ hfmt) ha hready (hop ▸ hcard) (hop ▸ hrows) hroom (hop ▸ hsrc)
    have halg : t.alg q = s.alg q := (congrArg (fun x => x.mx.algs[q.toNat]'q.isLt) (reached_ct ht) :)
    generalize hr : fillRec (fillOpOf i (s.alg q)) i q (entryOf s i) bs t = r at hexec
    have hid : r.panel = t.pkg.idCtr := hr ▸ rfl
    have hcardOf : r.card = bs := hr ▸ rfl
    have hhandle : r.handle = h := hr ▸ rfl
    have hwritten : r.written = false := hr ▸ rfl
    have hof : fillOpOf r.instr r.alg = o := by
      rw [← hop, ← halg, ← hr]
      rfl
    have hcore := core_fillDone ht r src hlc
    obtain ⟨htask, hlevel, hreads⟩ := fillJob_context ht r src
    obtain ⟨hdies, hrest⟩ := fillDone_rest ht r src rfl
    have htaskid : t.ct.task.taskid = s.ct.task.taskid := htask
    have hpanels : (fillCore t r src (s.core s.ct.lcore)).panels =
        (s.core s.ct.lcore).panels.filter (fun p => !rowsMeet p.row p.len (handleRow h) (handleLen h)) ++ [newPanel s.ct.task.taskid r] := by
      rw [fillCore, htaskid, hhandle]
      rfl
    refine ⟨_, newPanel s.ct.task.taskid r, fillJob t r src, r, hexec, ?panels, congrArg handleRow hhandle, congrArg handleLen hhandle, rfl,
      congrArg FillOp.mf hof, rfl, ?rows, ?jobs, congrArg Engine.fill hid.symm, htask, hlevel, rfl, ?reads, fun k hk => (hcore k).trans (if_neg hk), rfl,
      hhandle, hcardOf, rfl, hwritten, hdies, hrest⟩
    case panels => rw [hcore, if_pos rfl, hpanels]
    case rows => exact congrArg₂ FillOp.dataRows hof (congrArg FillCard.parse hcardOf)
    case jobs => rw [hcore, if_pos rfl, fillCore]
    case reads => rw [hreads, hof, hcardOf]

end Sys2Proof.Laws

/-!
SUPPORT. A counterexample to O56: the delivery of a task that a trap ends, into a slot outside the continuation's line (R102, R242).
-/

namespace Sys2Proof.Laws

open Sys2Proof.Machine

/-! The record region (R100). -/

/-- What Korier maps there depends on where the region lies alone. -/
theorem recordLeaf_congr {s t : State} (h : t.pkg.recRegion = s.pkg.recRegion) (va : Word) : recordLeaf t va = recordLeaf s va := by
  simp only [recordLeaf, h]

/-- An access that a leaf of the record region permits, with its A and D set, is translated without a change of the state (R226, R231). -/
theorem translate_region {s : State} {c : Ctx} {a : Acc} {va e : Word} {pa : Nat} (hl : c.level = .u)
    (hleaf : recordLeaf s va = some (.leaf e 0 0 [])) (hpage : pteS16 e = false) (hpa : pageBase e 12 + va.toNat % 2 ^ 12 = pa)
    (hpop : populated pa = true) (hperm : permits .u a e pa = true) (hspec : a.spec = false)
    (hset : e ||| (if a.writes then 0x60 else 0x20) = e) :
    Machine.translate c a va s = .ok ⟨pa, pteMt e == 0 && cacheable pa, []⟩ s := by
  unfold Machine.translate
  rw [if_neg (by rw [hl]; exact nofun)]
  have hbits : pageBits 0 false = 12 := rfl
  simp only [lookup, hleaf, Res.andThen, useWalk, hpage, hbits, hpa, hpop, hl, hperm, hspec, updateAD, hset, Bool.not_true, Bool.false_eq_true,
    if_false, if_true]

/-! The end of a task by a trap (R242). -/

/-- A task in slot 7 of the first record of core 0's pool that has trapped ILLEGAL and has no handler; the JOIN of the record is 2. -/
def trappedInSlotSeven : State :=
  let s := State.reset.setBytes (stashPa 0 0xFC03A) [2]
  { s with ct := { s.ct with
      status := .running
      level := .s
      sup := { s.ct.sup with scause := 1 }
      task := { s.ct.task with cont := some 0x700000000000, slot := 7 } } }

theorem calm_trappedInSlotSeven : Calm trappedInSlotSeven :=
  ⟨rfl, rfl, rfl, rfl, rfl, rfl, rfl, rfl, rfl, rfl, by decide +kernel,
    fun _ h => absurd h List.not_mem_nil, fun _ h => absurd h List.not_mem_nil⟩

theorem fenced_trappedInSlotSeven (d : Nat) : ((setCode 1 trappedInSlotSeven).die d).fenced = false := by
  unfold State.die
  split
  · exact congrArg Die.fenced (Vector.getElem_replicate ..)
  · rfl

theorem disposition_trappedInSlotSeven : disposition trappedInSlotSeven = .finish 1 := by decide +kernel

/-- The leaf that maps the first page of core 0's pool. -/
def recordEntry : Word := 0x04010002000FC0F7

/-- A doubleword of the record's line or of the next, in the stash of core 0, stays ready for an update along the way. -/
theorem resolve_trappedInSlotSeven {may : Nat → Prop} {s' : State} (h : Along may (setCode 1 trappedInSlotSeven) s') {off : Nat}
    (hoff : off = 0x38 ∨ off = 0x40) : ∃ p : Place, p.pa = stashPa 0 (0xFC000 + off) ∧
      resolve (userCtx s') { kind := 3 } (0x700000000000 + BitVec.ofNat 64 off) 8 s' = .ok p s' := by
  obtain ⟨⟨x, v, f, o, c, mem, own, cop, races, cxl, ds, n, rfl⟩, hdies, -⟩ := h
  have hhome : homeOf (stashPa 0 (0xFC000 + off)) = .stash 0 (0xFC000 + off) := by obtain rfl | rfl := hoff <;> decide
  have hin := atHome_stash _ _ _ _ (fun d => (hdies d).trans (fenced_trappedInSlotSeven d)) rfl hhome
  have hwin (k : Nat) (hk : k = off ∨ k = off + 7) : windowOf (0x700000000000 + BitVec.ofNat 64 k) = .global := by
    obtain rfl | rfl := hoff <;> obtain rfl | rfl := hk <;> decide +kernel
  have hlast : (0x700000000000 + BitVec.ofNat 64 off + BitVec.ofNat 64 (8 - 1) : Word) = 0x700000000000 + BitVec.ofNat 64 (off + 7) := by
    obtain rfl | rfl := hoff <;> rfl
  refine ⟨{ pa := stashPa 0 (0xFC000 + off) }, rfl, ?_⟩
  unfold resolve
  rw [if_neg (by exact nofun), hlast, hwin off (.inl rfl), hwin (off + 7) (.inr rfl)]
  dsimp only
  rw [translate_region (e := recordEntry) (pa := stashPa 0 (0xFC000 + off)) rfl ?leaf rfl ?base ?populated ?permits rfl (by decide)]
  case leaf =>
    have hreset : recordLeaf State.reset (0x700000000000 + BitVec.ofNat 64 off) = some (.leaf recordEntry 0 0 []) := by
      obtain rfl | rfl := hoff <;> decide +kernel
    exact (recordLeaf_congr rfl _).trans hreset
  case base =>
    obtain rfl | rfl := hoff <;> rfl
  case populated =>
    unfold populated
    rw [hhome]
  case permits =>
    unfold permits
    rw [hhome]
    rfl
  have hplace : (⟨stashPa 0 (0xFC000 + off), pteMt recordEntry == 0 && cacheable (stashPa 0 (0xFC000 + off)), []⟩ : Place) =
      { pa := stashPa 0 (0xFC000 + off) } := rfl
  rw [hplace]
  exact enterPlace_stash _ _ _ _ _ _ _ rfl rfl hin hhome

/-- The doubleword that follows the record keeps its value: the delivery writes within the record's line. -/
theorem taskTrapEnd_trappedInSlotSeven :
    nextShows 1 (·.numAt (stashPa 0 0xFC040) 8) (exec .taskTrapEnd trappedInSlotSeven) = 0 := by decide +kernel

/-- Refutes O56: the task that a trap ends delivers into SLOT 7 of its continuation, which lies in the line after that of CTL; the delivery claims the
line of CTL and writes the code at that line's first doubleword, so the slot keeps its value. -/
theorem not_korierServices : ¬ Obligations.KorierServices := by
  intro h
  obtain ⟨-, -, -, -, -, -, -, -, -, -, -, hend, -⟩ := h
  have hwf : Memory.wf trappedInSlotSeven.m.mem = true := by decide +kernel
  have hjoin : 1 ≤ (Ctl.parse (trappedInSlotSeven.numAt (stashPa 0 0xFC038) 8)).join := by decide +kernel
  have hroom : hwCount (trappedInSlotSeven.core trappedInSlotSeven.ct.lcore) < 64 := by decide +kernel
  obtain ⟨t, hexec, -, -, hslot, -⟩ := hend trappedInSlotSeven 1 0x700000000000 (stashPa 0 0xFC040) (stashPa 0 0xFC038)
    disposition_trappedInSlotSeven calm_trappedInSlotSeven rfl rfl rfl rfl rfl rfl rfl rfl rfl (by decide) hwf (by decide)
    (fun s' hs' => ⟨resolve_trappedInSlotSeven hs' (.inr rfl), resolve_trappedInSlotSeven hs' (.inl rfl)⟩) (by decide) (by decide) hjoin hroom
  have hkept := taskTrapEnd_trappedInSlotSeven
  rw [hexec] at hkept
  exact absurd (hslot.symm.trans hkept) (by decide)

end Sys2Proof.Laws

/-!
SUPPORT. ALGLD (R165, R301): its image read in units, checked, and put in the place of the table, and O34.
-/

namespace Sys2Proof.Laws

open Sys2Proof.Machine

/-! Units read one after another. -/

/-- A read that sees every earlier store reads the bytes at the home, where none is outstanding. -/
theorem readSeen_calm {s : State} (h : Calm s) (p : Place) (n : Nat) :
    readSeen s p n = (s.bytesAt p.pa n, l1Read s p.cached s.ct.lcore p.pa) := by
  have hload := loadBytes_calm h true p n
  simp only [loadBytes, performFirst_calm h, takeEarly, h.early, List.isEmpty_nil, if_true] at hload
  simp only [readSeen, drainWhere_calm h, forgetEarly_calm h]
  exact hload

theorem along_of_reached {s t : State} (h : Reached s t) (may : Nat → Prop) : Along may s t :=
  (touched_reached h).along (congrArg (fun c => c.task.cont) (reached_ct h)) fun a _ => reached_bytes h a

/-- Units of m bytes that are ready, one after another, read as they stand in memory. -/
theorem unitRead_ready {s : State} (hc : Calm s) (m w : Nat) : ∀ (n : Nat) (va : Word) (pa : Nat) (u : State) (acc : List Byte), Reached s u →
    (∀ k, k < n → Ready (fun _ => False) s { kind := 1 } (va + BitVec.ofNat 64 (m * k)) m (pa + m * k)) →
    ∃ t, Reached s t ∧ unitRead readSeen va m w n u acc = .ok (acc ++ s.bytesAt pa (m * n)) t
  | 0, va, pa, u, acc, hu, _ => ⟨u, hu, congrArg (Res.ok · u) (List.append_nil acc).symm⟩
  | n + 1, va, pa, u, acc, hu, hready => by
    obtain ⟨hfirst, -⟩ := hready 0 n.succ_pos
    rw [Nat.mul_zero, BitVec.add_zero, Nat.add_zero] at hfirst
    obtain ⟨p, rfl, hplace⟩ := hfirst u (along_of_reached hu _)
    have hrest (k : Nat) (hk : k < n) :
        Ready (fun _ => False) s { kind := 1 } (va + BitVec.ofNat 64 m + BitVec.ofNat 64 (m * k)) m (p.pa + m + m * k) := by
      rw [BitVec.add_assoc, ← BitVec.ofNat_add, Nat.add_assoc, Nat.add_comm m, ← Nat.mul_succ]
      exact hready (k + 1) (Nat.succ_lt_succ hk)
    have hread := reached_trans hu (reached_l1Read u p.cached u.ct.lcore p.pa)
    have hbytes : s.bytesAt p.pa (m * (n + 1)) = u.bytesAt p.pa m ++ s.bytesAt (p.pa + m) (m * n) := by
      rw [State.bytesAt, State.bytesAt, State.bytesAt, congrArg (fun m => m.mem) (reached_mem_eq hu), Nat.mul_succ, Nat.add_comm (m * n),
        bytes_append]
      rfl
    obtain ⟨t, ht, hunits⟩ := unitRead_ready hc m w n (va + BitVec.ofNat 64 m) (p.pa + m) _ (acc ++ u.bytesAt p.pa m) hread hrest
    refine ⟨t, ht, ?_⟩
    rw [unitRead, resolve_of_aligned hplace, hbytes, ← List.append_assoc, ← hunits]
    simp only [Res.mapTrap, Res.andThen, readSeen_calm (calm_reached hc hu)]

/-! The instruction. -/

/-- s with the image in the place of a table, at the next word. -/
def tableSet (t0 : Reg) (img : BitVec 640) (s : State) : State :=
  (s.onMx fun m => { m with algs := m.algs.setIfInBounds t0.toNat img }).advance

theorem alg_tableSet (t0 : Reg) (img : BitVec 640) (s : State) (g : BitVec 2) :
    (tableSet t0 img s).alg g = if g.toNat = t0.toNat then img else s.alg g := by
  simp only [tableSet, State.alg, State.advance, State.onMx, Vector.getElem_setIfInBounds, eq_comm (a := t0.toNat)]

theorem tableSet_frame {s u : State} (h : Reached s u) (t0 : Reg) (img : BitVec 640) (t : State) (ht : t = tableSet t0 img u) :
    SameDies s t ∧ t = { s.accessed t with ct := { s.ct with
      pc := s.ct.pc + 4, mx := { s.ct.mx with algs := t.ct.mx.algs }, ctl := { s.ct.ctl with wait := .none } } } := by
  rw [ht]
  refine ⟨h.2, ?_⟩
  unfold tableSet State.advance State.onMx
  rw [h.1]
  rfl

section
variable {s : State} (hla : s.has .la = true) (t0 a : Reg)
include hla

theorem exec_algld_waits (hq : s.viqEmpty = false) : exec (.algld t0 a) s = .next (s.waitFor .drain) :=
  (withProfile_has hla _).trans (if_neg (by rw [hq]; exact Bool.false_ne_true))

theorem exec_algld_misaligned (hq : s.viqEmpty = true) (ha : (s.getX a).toNat % 16 ≠ 0) :
    exec (.algld t0 a) s = takeTrap (scalarRecord 16 (faultTrap Code.align { kind := 1 } (s.getX a) 0 false)) s :=
  (withProfile_has hla _).trans ((if_pos hq).trans (if_pos ha))

/-- The image is read whole, and then its checks decide. -/
theorem exec_algld_read (hq : s.viqEmpty = true) (ha : (s.getX a).toNat % 16 = 0) (hc : Calm s) {pa : Nat}
    (hready : ∀ k, k < 5 → Ready (fun _ => False) s { kind := 1 } (s.getX a + BitVec.ofNat 64 (16 * k)) 16 (pa + 16 * k)) :
    ∃ u, Reached s u ∧ exec (.algld t0 a) s = finish (if Alg.ok (BitVec.ofNat 640 (s.numAt pa 80)) then
      .ok () (tableSet t0 (BitVec.ofNat 640 (s.numAt pa 80)) u) else .trap { code := Code.illegal } u) := by
  obtain ⟨u, hu, hread⟩ := unitRead_ready hc 16 16 5 (s.getX a) pa s [] (reached_refl s) hready
  refine ⟨u, hu, (withProfile_has hla _).trans ((if_pos hq).trans ((if_neg (not_not.2 ha)).trans ?_))⟩
  simp only [hread, Res.andThen, List.nil_append]
  rfl

end

/-- Settles O34: the units that ALGLD reads are those of one number of 80 bytes in memory, whose checks choose between the new table and the trap. -/
theorem algebraTableLoad : Obligations.AlgebraTableLoad := by
  intro s t0 a pa hla _
  refine ⟨fun hq => ?waits, fun hq ha hu => ?misaligned, fun hq ha hc hready => ?aligned⟩
  case waits => exact ⟨_, exec_algld_waits hla t0 a hq, rfl⟩
  case misaligned =>
    have hcause : scauseOf { code := Code.align, kind := 1 } false 0 = 0x204 := by decide
    refine ⟨_, (exec_algld_misaligned hla t0 a hq ha).trans (takeTrap_u _ hu), ?_⟩
    unfold TrapTaken
    rw [← hcause]
    rfl
  case aligned =>
    obtain ⟨u, hu, hexec⟩ := exec_algld_read hla t0 a hq ha hc hready
    have halgs : u.ct.mx = s.ct.mx := congrArg Thread.mx (reached_ct hu)
    refine ⟨fun hok => ?_, fun hbad hlevel => ?_⟩
    · rw [if_pos hok] at hexec
      refine ⟨_, hexec, fun g => ?_, tableSet_frame hu t0 _ _ rfl⟩
      rw [alg_tableSet, State.alg, halgs]
      rfl
    · rw [if_neg (by rw [hbad]; exact Bool.false_ne_true)] at hexec
      obtain ⟨t, htrap, hplain⟩ := plainTrap_u u Code.illegal ((congrArg Thread.level (reached_ct hu)).trans hlevel)
      exact ⟨t, hexec.trans htrap, plainTrap_reached hu hplain⟩

end Sys2Proof.Laws

/-!
SUPPORT. Flags of an instruction that steps through one group (R65, R131).
-/

namespace Sys2Proof.Laws

open Sys2Proof.Machine

/-- The elements stepped through are those of the body from VSTART on. -/
theorem stripFrom_eq_filter (s : State) (e : VEntry) : stripFrom s e = (List.range e.vl).filter fun i => decide (s.ct.vec.vstart ≤ i) := by
  have hprestart (n : Nat) (hn : n ≤ s.ct.vec.vstart) : (List.range n).filter (fun i => decide (s.ct.vec.vstart ≤ i)) = [] := by
    refine List.filter_eq_nil_iff.2 fun i hi => ?_
    have := List.mem_range.1 hi
    rw [decide_eq_true_iff]
    omega
  unfold stripFrom
  obtain hle | hlt := Nat.le_total e.vl s.ct.vec.vstart
  · rw [Nat.sub_eq_zero_of_le hle, hprestart _ hle]
    rfl
  · obtain ⟨k, hk⟩ := Nat.exists_eq_add_of_le hlt
    rw [hk, Nat.add_sub_cancel_left, List.range_add, List.filter_append, hprestart _ le_rfl, List.nil_append]
    refine (List.map_congr_left fun i _ => Nat.add_comm i _).trans (List.filter_eq_self.2 fun i hi => ?_).symm
    obtain ⟨j, -, rfl⟩ := List.mem_map.1 hi
    exact decide_eq_true (Nat.le_add_right _ _)

/-- The flags of the active elements from VSTART to VL − 1, ORed. -/
def activeFlags (s : State) (act : Nat → Bool) (f : Nat → Nat × FFlags) : FFlags :=
  ((List.range s.ct.vec.vl).filter fun i => decide (s.ct.vec.vstart ≤ i) && act i).foldl (fun fl i => fl ||| (f i).2) 0

theorem activeFlags_zero (s : State) (act : Nat → Bool) {f : Nat → Nat × FFlags} (h : ∀ i, (f i).2 = 0) : activeFlags s act f = 0 := by
  simp only [activeFlags, h, flags_or_zero, List.foldl_fixed]

theorem activeFlags_prestart {s : State} (h : s.ct.vec.vl ≤ s.ct.vec.vstart) (act : Nat → Bool) (f : Nat → Nat × FFlags) :
    activeFlags s act f = 0 := by
  have hnone : (List.range s.ct.vec.vl).filter (fun i => decide (s.ct.vec.vstart ≤ i) && act i) = [] := by
    refine List.filter_eq_nil_iff.2 fun i hi => ?_
    have := List.mem_range.1 hi
    rw [decide_eq_false (by omega)]
    exact Bool.false_ne_true
  rw [activeFlags, hnone]
  rfl

theorem writeActive_snd {s : State} {e : VEntry} (hr : Runs s e) (d w : Nat) (act : Nat → Bool) (f : Nat → Nat × FFlags) (t : State) :
    (writeActive s e d w act f t).2 = activeFlags s act f := by
  have hall : (stripFrom s e).filter (fun i => !e.stopped i) = stripFrom s e := by
    rw [List.filter_eq_self]
    intro i _
    simp only [VEntry.stopped, hr.stop, Bool.not_false]
  have hstrip : (List.range s.ct.vec.vl).filter (fun i => decide (s.ct.vec.vstart ≤ i) && act i) = (stripFrom s e).filter act := by
    rw [stripFrom_eq_filter, hr.vl, List.filter_filter]
    exact List.filter_congr fun i _ => Bool.and_comm _ _
  rw [writeActive, hall, activeFlags, hstrip, List.foldl_filter]
  refine (List.foldl_hom Prod.snd ?_).symm
  intro a i
  split
  · rfl
  · split <;> rfl

end Sys2Proof.Laws

/-!
SUPPORT. The vector algebra instructions (R168 to R170), and O44.
-/

namespace Sys2Proof.Laws

open Sys2Proof.Machine

/-! The instructions. -/

/-- The instructions of Table 8.5: those that do arithmetic, and the conjugations, by REV or by CONJ. -/
inductive AlgebraInstr where
  | arith (op : AlgOp)
  | conj (rev : Bool)

namespace AlgebraInstr

/-- The instruction; VANORM and the conjugations have no second source. -/
def instr (d a b : Reg) (p : BitVec 3) (z : BitVec 1) (q : BitVec 2) : AlgebraInstr → Instr
  | arith .mul => .vamul d a b p z q
  | arith .sand => .vasand d a b p z q
  | arith .norm => .vanorm d a p z q
  | conj false => .vaconj d a p z q
  | conj true => .vaconjRev d a p z q

/-- The second source, of the instructions with one source that one again. -/
def second (a b : Reg) : AlgebraInstr → Reg
  | arith .mul => b
  | arith .sand => b
  | _ => a

/-- It rounds under a floating type. -/
def rounds : AlgebraInstr → Bool
  | arith _ => true
  | _ => false

/-- The mask of a conjugation (R170). -/
def mask (t : BitVec 640) (rev : Bool) (m : Nat) : Bool := if rev then Alg.rev t m else Alg.conj t m

/-- What it makes of element i. -/
def value (s : State) (e : VEntry) (a b : Reg) (q : BitVec 2) (rm : BitVec 3) (i : Nat) : AlgebraInstr → Nat × FFlags
  | arith op => algElem op a ((arith op).second a b) q s e rm i
  | conj rev => (flipIf (mask (s.alg q) rev (i % Alg.n (s.alg q))) e (s.elem a.toNat e.w i), 0)

variable (k : AlgebraInstr) (d a b : Reg) (p : BitVec 3) (z : BitVec 1) (q : BitVec 2) (s : State)

theorem exec_instr : exec (k.instr d a b p z q) s = vector .la (k.instr d a b p z q) s := by
  match k with
  | arith .mul | arith .sand | arith .norm | conj false | conj true => rfl

theorem vecOp_instr (e : VEntry) : vecOp (k.instr d a b p z q) s e =
    algebra d a (k.second a b) p q k.rounds (fun rm i => k.value s e a b q rm i) s e := by
  match k with
  | arith .mul | arith .sand | arith .norm | conj false | conj true => rfl

/-- It captures no x register. -/
theorem entryOf_instr : entryOf s (k.instr d a b p z q) = capture s (k.instr d a b p z q) 0 0 0 0 := by
  match k with
  | arith .mul | arith .sand | arith .norm | conj false | conj true => rfl

theorem not_isVecMem_instr : isVecMem (k.instr d a b p z q) = false := by
  match k with
  | arith .mul | arith .sand | arith .norm | conj false | conj true => rfl

theorem vecRound_instr (ty : Nat) : vecRound (k.instr d a b p z q) ty = if k.rounds && !tyIsInt ty then some 7 else none := by
  match k with
  | arith .mul | arith .sand | arith .norm => cases h : tyIsInt ty <;> simp [instr, rounds, vecRound, h]
  | conj false | conj true => rfl

/-- It takes an ISN where it rounds to .rsr (R132, R400). -/
def taken : Bool := k.rounds && !tyIsInt s.ct.vec.vcfg.ty && (roundingOf 7 s.ct.fp.frm).getD 0 == 5

theorem takesIsn_instr : takesIsn s (k.instr d a b p z q) = k.taken s := by
  rw [takesIsn, vecRound_instr, taken]
  cases k.rounds && !tyIsInt s.ct.vec.vcfg.ty <;> simp

/-- What it makes of the elements of s. -/
def outcome (rm : BitVec 3) (i : Nat) : Nat × FFlags := k.value s (capture s .nop 0 0 0 0) a b q rm i

/-- The charge of the issue takes no part in what is computed. -/
theorem value_charged (rsr : Bool) (D : Int) (i : Instr) (rm : BitVec 3) (j : Nat) :
    k.value (charged s rsr D) (capture s i 0 0 0 0) a b q rm j = k.outcome a b q s rm j := by
  match k with
  | arith _ | conj _ => rfl

end AlgebraInstr

/-! How they run. -/

/-- The elements active are those of the algebra elements whose component 0 is (R169). -/
def algebraActive (s : State) (p : BitVec 3) (n i : Nat) : Bool := s.pbit p.toNat (i / n * n)

/-- Nothing keeps the instruction from running: no trap of R48, R139, R169 or R130 is due. -/
structure AlgebraAllowed (s : State) (d a b : Reg) (q : BitVec 2) (rounds : Bool) (rm : BitVec 3) : Prop where
  dest : GroupOk s d
  left : GroupOk s a
  right : GroupOk s b
  start : s.ct.vec.vstart % Alg.n (s.alg q) = 0
  length : s.ct.vec.vl % Alg.n (s.alg q) = 0
  type : (tyIsInt s.ct.vec.vcfg.ty || isArithFp s.ct.vec.vcfg.ty) = true
  rounding : (if rounds && !tyIsInt s.ct.vec.vcfg.ty then roundingOf 7 s.ct.fp.frm else some 0) = some rm

/-- With its checks passed the instruction steps through its group, or through nothing. -/
theorem algebra_ok {s : State} {d a b : Reg} {q : BitVec 2} {rounds : Bool} {rm : BitVec 3} (h : AlgebraAllowed s d a b q rounds rm)
    (p : BitVec 3) (rsr : Bool) (D : Int) (i : Instr) (f : BitVec 3 → Nat → Nat × FFlags) :
    algebra d a b p q rounds f (charged s rsr D) (capture s i 0 0 0 0) =
      .ok (Effects.flags (activeFlags s (algebraActive s p (Alg.n (s.alg q))) (f rm)))
        (if s.ct.vec.vl ≤ s.ct.vec.vstart then charged s rsr D
         else stripWritten (charged s rsr D) (capture s i 0 0 0 0) d.toNat (algebraActive s p (Alg.n (s.alg q))) (f rm)) := by
  have hact : (fun j => (charged s rsr D).pbit p.toNat (Alg.n (s.alg q) * (j / Alg.n (s.alg q)))) = algebraActive s p (Alg.n (s.alg q)) :=
    funext fun j => congrArg (s.pbit p.toNat) (Nat.mul_comm _ _)
  have hrm : (if rounds && !tyIsInt (capture s i 0 0 0 0).ty then (capture s i 0 0 0 0).round 7 else some 0) = some rm := h.rounding
  have hgroups : (aligned (capture s i 0 0 0 0) d && aligned (capture s i 0 0 0 0) a && aligned (capture s i 0 0 0 0) b &&
      (charged s rsr D).ct.vec.vstart % Alg.n ((charged s rsr D).alg q) == 0) = true := by
    rw [aligned_capture h.dest, aligned_capture h.left, aligned_capture h.right]
    exact beq_of_eq h.start
  have htype : ((tyIsInt (capture s i 0 0 0 0).ty || isArithFp (capture s i 0 0 0 0).ty) &&
      (capture s i 0 0 0 0).vl % Alg.n ((charged s rsr D).alg q) == 0) = true :=
    Bool.and_eq_true_iff.2 ⟨h.type, beq_of_eq h.length⟩
  unfold algebra
  dsimp only
  split
  next hnone => exact absurd (hrm.symm.trans hnone) nofun
  next rm' hsome =>
    obtain rfl : rm = rm' := Option.some.inj (hrm.symm.trans hsome)
    refine (need_true hgroups _ _ _).trans ((need_true htype _ _ _).trans ?_)
    by_cases hlt : s.ct.vec.vl ≤ s.ct.vec.vstart
    · rw [if_pos hlt, activeFlags_prestart hlt]
      exact if_pos hlt
    · rw [if_neg hlt, ← hact]
      exact (if_neg hlt).trans (congrArg₂ Res.ok (congrArg Effects.flags (writeActive_snd ⟨rfl, rfl, rfl⟩ ..)) rfl)

section
variable {s : State} (hv : VecStart s .la) (k : AlgebraInstr) {d a b : Reg} {q : BitVec 2} {rm : BitVec 3}
  (h : AlgebraAllowed s d a (k.second a b) q k.rounds rm) (p : BitVec 3) (z : BitVec 1)
include hv h

/-- It leaves what it makes of the active elements, with their flags. -/
theorem exec_algebra {f : Nat → Nat × FFlags} (hval : ∀ i, k.outcome a b q s rm i = f i) {rsr : Bool} (hisn : k.taken s = rsr) :
    ∃ t, exec (k.instr d a b p z q) s = .next t ∧
      VecFpResult s t d (algebraActive s p (Alg.n (s.alg q))) f (activeFlags s (algebraActive s p (Alg.n (s.alg q))) f) rsr := by
  obtain rfl : k.outcome a b q s rm = f := funext hval
  subst hisn
  obtain ⟨hready, hform, hprof⟩ := hv
  obtain ⟨D, hD⟩ := vector_completes hready hprof (k.not_isVecMem_instr d a b p z q)
  have hvalue : k.value (charged s (k.taken s) D) (capture s (k.instr d a b p z q) 0 0 0 0) a b q rm = k.outcome a b q s rm :=
    funext fun j => k.value_charged a b q s (k.taken s) D _ rm j
  rw [k.takesIsn_instr, k.entryOf_instr, k.vecOp_instr, algebra_ok h, hvalue] at hD
  refine ⟨_, (k.exec_instr d a b p z q s).trans (hD _ _ rfl rfl rfl), ?_⟩
  split
  next hnone => exact vecFpResult_of _ (.refl _ _) fun j _ => (if_neg (Nat.not_lt.2 hnone)).symm
  next hsome =>
    obtain ⟨hfile, hgroup⟩ := stripWritten_group (e := capture s (k.instr d a b p z q) 0 0 0 0) ⟨rfl, rfl, rfl⟩ hform h.dest (k.taken s) D
      (Nat.not_le.1 hsome) (algebraActive s p (Alg.n (s.alg q))) (k.outcome a b q s rm)
    exact vecFpResult_of _ hfile hgroup

/-- An instruction that rounds nothing raises no flag and takes no ISN (R169). -/
theorem exec_algebra_exact {f : Nat → Nat} (hval : ∀ i, k.outcome a b q s rm i = (f i, 0)) (hisn : k.taken s = false) :
    ∃ t, exec (k.instr d a b p z q) s = .next t ∧ VecResult s t d (algebraActive s p (Alg.n (s.alg q))) f := by
  obtain ⟨t, hexec, hresult⟩ := exec_algebra hv k h p z hval hisn
  rw [activeFlags_zero s _ fun _ => rfl] at hresult
  exact ⟨t, hexec, hresult⟩

end

/-! What they make of an element. -/

/-- The components of the algebra element that element i belongs to, as integers, and as values of a floating format. -/
def algebraInts (s : State) (n : Nat) (r : Reg) (i : Nat) : List Int :=
  (List.range n).map fun m => intValue s.ct.vec.vcfg.ty (s.elem r.toNat s.ew (i / n * n + m))

def algebraReals (s : State) (g : FFmt) (n : Nat) (r : Reg) (i : Nat) : List FVal :=
  (List.range n).map fun m => g.read (s.elem r.toNat s.ew (i / n * n + m))

theorem compsOf_eq (s : State) (e : VEntry) (n : Nat) (r : Reg) (i : Nat) :
    compsOf s e n r i = (List.range n).map fun m => s.elem r.toNat e.w (i / n * n + m) := by
  rw [compsOf, Nat.mul_comm n]

namespace AlgebraInstr

variable {s : State} (a b : Reg) (q : BitVec 2) (rm : BitVec 3) (i : Nat)

/-- Integers are exact, modulo the width (R168, R169). -/
theorem outcome_int (h : s.ct.vec.vcfg.ty < 8) (op : AlgOp) : (arith op).outcome a b q s rm i =
    ((BitVec.ofInt (8 * s.ew) ((algI (s.alg q) op (algebraInts s (Alg.n (s.alg q)) a i)
      (algebraInts s (Alg.n (s.alg q)) ((arith op).second a b) i)).getD (i % Alg.n (s.alg q)) 0)).toNat, 0) := by
  have hints (r : Reg) : (compsOf s (capture s .nop 0 0 0 0) (Alg.n (s.alg q)) r i).map (tyInt s.ct.vec.vcfg.ty) =
      algebraInts s (Alg.n (s.alg q)) r i := by
    rw [compsOf_eq, List.map_map]
    exact List.map_congr_left fun m _ => tyInt_eq (elem_lt ..)
  have hfmt : tyFmt (capture s .nop 0 0 0 0).ty = none := tyFmt_int h
  unfold outcome value algElem
  simp only [hfmt]
  rw [show (capture s .nop 0 0 0 0).ty = s.ct.vec.vcfg.ty from rfl, hints, hints, BitVec.toNat_ofInt]
  rfl

/-- A floating component is rounded once, by its own number (R169). -/
theorem outcome_fp {g : FFmt} (h : tyFmt s.ct.vec.vcfg.ty = some g) (op : AlgOp) : (arith op).outcome a b q s rm i =
    g.deliver ⟨rm, s.ct.fp.seed, s.ct.fp.isn, i⟩ ((algF (s.alg q) op (rm == 2) (algebraReals s g (Alg.n (s.alg q)) a i)
      (algebraReals s g (Alg.n (s.alg q)) ((arith op).second a b) i)).getD (i % Alg.n (s.alg q)) (.fin false 0 0)) := by
  have hreals (r : Reg) : (compsOf s (capture s .nop 0 0 0 0) (Alg.n (s.alg q)) r i).map g.read = algebraReals s g (Alg.n (s.alg q)) r i := by
    rw [compsOf_eq, List.map_map]
    rfl
  have hfmt : tyFmt (capture s .nop 0 0 0 0).ty = some g := h
  unfold outcome value algElem
  simp only [hfmt, hreals]
  rfl

end AlgebraInstr

/-- A component with its sign changed where a mask names it (R170). -/
def signChanged (s : State) (m : Bool) (v : Nat) : Nat :=
  if !m then v else if s.ct.vec.vcfg.ty < 8 then (-BitVec.ofNat (8 * s.ew) v).toNat else v ^^^ 2 ^ (8 * s.ew - 1)

theorem flipIf_capture (s : State) (m : Bool) {v : Nat} (h : v < 2 ^ (8 * s.ew)) :
    flipIf m (capture s .nop 0 0 0 0) v = signChanged s m v := by
  have hneg : (2 ^ (8 * s.ew) - v) % 2 ^ (8 * s.ew) = (-BitVec.ofNat (8 * s.ew) v).toNat := by
    rw [BitVec.toNat_neg, BitVec.toNat_ofNat, Nat.mod_eq_of_lt h]
  unfold flipIf signChanged
  rw [← hneg]
  change (if !m then v else if decide (s.ct.vec.vcfg.ty < 8) = true then _ else _) = _
  simp only [decide_eq_true_eq]
  rfl

namespace AlgebraInstr

/-- A conjugation changes the signs that its mask names (R170). -/
theorem outcome_conj (s : State) (a b : Reg) (q : BitVec 2) (rm : BitVec 3) (rev : Bool) (i : Nat) : (conj rev).outcome a b q s rm i =
    (signChanged s (mask (s.alg q) rev (i % Alg.n (s.alg q)))
      (s.elem a.toNat s.ew (i / Alg.n (s.alg q) * Alg.n (s.alg q) + i % Alg.n (s.alg q))), 0) := by
  rw [Nat.div_add_mod']
  exact Prod.ext (flipIf_capture s _ (elem_lt ..)) rfl

end AlgebraInstr

/-! The cases of the element type. -/

namespace AlgebraInstr

theorem not_taken_int {s : State} (h : s.ct.vec.vcfg.ty < 8) (k : AlgebraInstr) : k.taken s = false := by simp [taken, tyIsInt, h]

theorem taken_fp {s : State} (h : 10 ≤ s.ct.vec.vcfg.ty) {rm : BitVec 3} (hrm : roundingOf 7 s.ct.fp.frm = some rm) (op : AlgOp) :
    (arith op).taken s = (rm == 5) := by
  have hint : tyIsInt s.ct.vec.vcfg.ty = false := decide_eq_false (by omega)
  rw [taken, hint, hrm]
  rfl

end AlgebraInstr

/-- Settles O44: each instruction steps through its group with whole algebra elements active, and the element type decides what it makes of them. -/
theorem vectorAlgebra : Obligations.VectorAlgebra := by
  intro s d a b p z q rm hv hd ha hb _ ty n bits hstart hvl hty g act el ints reals flip flags
  have ⟨_, ⟨_, hmax, _⟩, _⟩ := hv
  have htype : (tyIsInt s.ct.vec.vcfg.ty || isArithFp s.ct.vec.vcfg.ty) = true := by
    simp only [tyIsInt, isArithFp, Bool.or_eq_true, Bool.and_eq_true, decide_eq_true_eq]
    exact hty.imp_right (⟨·, hmax⟩)
  have hallowed (k : AlgebraInstr) {rm : BitVec 3}
      (hrm : (if k.rounds && !tyIsInt s.ct.vec.vcfg.ty then roundingOf 7 s.ct.fp.frm else some 0) = some rm) :
      AlgebraAllowed s d a (k.second a b) q k.rounds rm := by
    refine ⟨hd, ha, ?_, hstart, hvl, htype, hrm⟩
    match k with
    | .arith .mul | .arith .sand => exact hb
    | .arith .norm | .conj _ => exact ha
  have hconj (rev : Bool) := exec_algebra_exact hv (.conj rev) (hallowed _ rfl) p z (AlgebraInstr.outcome_conj s a b q 0 rev) rfl
  refine ⟨hconj false, hconj true, ?int, ?float⟩
  case int =>
    intro hint
    have htyInt : tyIsInt s.ct.vec.vcfg.ty = true := decide_eq_true hint
    have harith (op : AlgOp) := exec_algebra_exact hv (.arith op) (hallowed _ (if_neg (by simp [htyInt]))) p z
      (fun i => AlgebraInstr.outcome_int a b q 0 i hint op) (AlgebraInstr.not_taken_int hint _)
    simp only [List.forall_mem_cons]
    exact ⟨harith .mul, harith .sand, harith .norm, nofun⟩
  case float =>
    intro hfp hrm
    have htyInt : tyIsInt s.ct.vec.vcfg.ty = false := decide_eq_false (Nat.not_lt.2 (Nat.le_trans (by decide) hfp))
    have harith (op : AlgOp) := exec_algebra hv (.arith op) (hallowed _ ((if_pos (by rw [htyInt]; rfl)).trans hrm)) p z
      (fun i => AlgebraInstr.outcome_fp a b q rm i (tyFmt_arith hfp hmax) op) (AlgebraInstr.taken_fp hfp hrm op)
    simp only [List.forall_mem_cons]
    exact ⟨harith .mul, harith .sand, harith .norm, nofun⟩

end Sys2Proof.Laws

/-!
SUPPORT. The return from the user-level handler (R193, R362), and O31.
-/

namespace Sys2Proof.Laws

open Sys2Proof.Machine

/-- k0 to k7 hold what the other bank held. -/
theorem getX_swapBank_bankReg (s : State) (n : Fin 8) : s.swapBank.getX (BitVec.ofNat 5 (21 + n.val)) = s.ct.uli.kother[n] := by
  have hn := n.isLt
  rw [getX_swapBank, toNat_bankReg, if_pos (by omega), Nat.add_sub_cancel_left, getElem?_pos s.ct.uli.kother n.val hn]
  rfl

/-- The exchange as an update of the two banks, whose values a proof about the rest does not need. -/
theorem swapBank_eq (s : State) : ∃ (x : Vector Word 32) (k : Vector Word 8),
    s.swapBank = { s with ct := { s.ct with x := x, uli := { s.ct.uli with kother := k } } } := ⟨_, _, swapBank_only s⟩

/-- The state in which the interrupted stream goes on: at the shadow k0, with the banks exchanged. -/
def handlerLeft (s : State) : State := { s with ct := { s.ct with
  pc := s.getX k0Reg &&& ~~~ 3, x := s.swapBank.ct.x, uli := { s.ct.uli with act := false, kother := s.swapBank.ct.uli.kother },
  ctl := { s.ct.ctl with wait := .none } } }

theorem exec_uret {s : State} (lx : s.has .lx = true) (ha : s.ct.uli.act = true) (hr : s.ct.task.reflected = false) :
    exec .uret s = .next (handlerLeft s) := by
  have hleft : (s.swapBank.onUli fun u => { u with act := false }).jump (s.getX k0Reg &&& ~~~ 3) = handlerLeft s := by
    obtain ⟨x, k, hbank⟩ := swapBank_eq s
    rw [handlerLeft, hbank]
    rfl
  change execUret s = _
  rw [execUret, withProfile_has lx, ha, hr, ← hleft]
  rfl

theorem exec_uret_outside {s : State} (lx : s.has .lx = true) (h : s.ct.uli.act = false ∨ s.ct.task.reflected = true) :
    exec .uret s = takeTrap { code := Code.illegal } s := by
  change execUret s = _
  rw [execUret, withProfile_has lx, if_pos (by simpa using h)]

theorem getX_handlerLeft (s : State) (r : Reg) : (handlerLeft s).getX r = s.swapBank.getX r := by rw [State.getX, State.getX, handlerLeft]

/-- Settles O31: a return exchanges the banks and goes on at the shadow k0. -/
theorem userHandlerReturn : Obligations.UserHandlerReturn := by
  refine ⟨rfl, fun s lx => ⟨fun ha hr => ?inside, fun hout hu => ?outside⟩⟩
  case inside =>
    refine ⟨_, exec_uret lx ha hr, rfl, rfl, fun n => ⟨?_, kother_swapBank s n⟩, fun r hr => ?_, rfl, rfl⟩
    · rw [getX_handlerLeft, getX_swapBank_bankReg]
    · rw [getX_handlerLeft, getX_swapBank, if_neg (by omega)]
  case outside =>
    rw [exec_uret_outside lx hout]
    exact plainTrap_u s _ hu

end Sys2Proof.Laws

/-!
SUPPORT. Stash lines whose global lines are written back, with nothing else in flight (R180, R253, R270, Table 9.3).
-/

namespace Sys2Proof.Laws

open Sys2Proof.Machine

/-! Bytes of memory that are dropped by address. -/

theorem get_filter_key {α : Type} [DecidableEq α] {d : α} (p : Nat → Bool) (k : Nat) : ∀ {m : List (Nat × α)} {lo : Nat}, Sparse.wfFrom d lo m = true →
    Sparse.get d (m.filter fun c => p c.1) k = if p k then Sparse.get d m k else d
  | [], _, _ => by simp [Sparse.get]
  | (a, v) :: r, lo, hw => by
    simp only [Sparse.wfFrom, Bool.and_eq_true, decide_eq_true_eq] at hw
    have ih := get_filter_key p k hw.2
    by_cases ha : p a = true
    · rw [List.filter_cons_of_pos (p := fun c : Nat × α => p c.1) ha, Sparse.get, Sparse.get]
      by_cases hk : k = a
      · simp [hk, ha]
      · by_cases hlt : k < a
        · simp [hk, hlt]
        · simp only [hk, hlt, if_false, ih]
    · rw [List.filter_cons_of_neg (p := fun c : Nat × α => p c.1) ha, ih, Sparse.get]
      by_cases hk : k = a
      · simp [hk, ha]
      · by_cases hlt : k < a
        · simp [hk, hlt, get_below hw.2 (Nat.lt_succ_of_lt hlt)]
        · simp only [hk, hlt, if_false]

/-- A byte whose address is dropped reads as one that nothing has written. -/
theorem byte_filter {m : List Host.Cell} (h : Memory.wf m = true) (p : Nat → Bool) (a : Nat) :
    Memory.byte (m.filter fun c => p c.1) a = if p a then Memory.byte m a else unlisted := get_filter_key p a h

/-! Sorted lists. -/

theorem insertBy_perm {α : Type} (le : α → α → Bool) (a : α) : ∀ l : List α, (insertBy le a l).Perm (a :: l)
  | [] => .refl _
  | b :: r => by
    rw [insertBy]
    split
    · exact ((insertBy_perm le a r).cons b).trans (.swap a b r)
    · exact .refl _

theorem sortBy_perm {α : Type} (le : α → α → Bool) (l : List α) : (sortBy le l).Perm l := by
  suffices h : ∀ (l acc : List α), (l.foldl (fun acc a => insertBy le a acc) acc).Perm (acc ++ l) from h l []
  intro l
  induction l with
  | nil => simp
  | cons a r ih =>
    intro acc
    exact (ih _).trans (((insertBy_perm le a acc).append_right r).trans (List.perm_middle.symm))

theorem mem_sortBy {α : Type} {le : α → α → Bool} {l : List α} {a : α} : a ∈ sortBy le l ↔ a ∈ l := (sortBy_perm le l).mem_iff

/-! Homes, in states whose dies differ in their causal counters alone. -/

theorem lostHome_congr {s t : State} (hd : SameDies s t) (hp : t.pkg = s.pkg) (pa : Nat) : lostHome t pa = lostHome s pa := by
  have hf (d : Nat) : (t.die d).fenced = (s.die d).fenced := (congrArg Die.fenced (hd d) :)
  simp only [lostHome, hf, hp]

theorem not_lostHome_of_atHome {s : State} {pa : Nat} (h : atHome pa s = .ok () s) : lostHome s pa = false := by
  unfold atHome at h
  split at h
  · cases h
  · next hl => exact Bool.eq_false_iff.2 hl

theorem atHome_sameDies {s t : State} (hd : SameDies s t) (hp : t.pkg = s.pkg) {pa : Nat} (h : atHome pa s = .ok () s) : atHome pa t = .ok () t := by
  have ht : t.trainedAt pa = s.trainedAt pa := by rw [State.trainedAt, State.trainedAt, hp]
  have hl := not_lostHome_of_atHome h
  unfold atHome at h ⊢
  rw [lostHome_congr hd hp, hl, ht, if_neg Bool.false_ne_true]
  rw [hl, if_neg Bool.false_ne_true] at h
  split at h
  · split at h
    next hu => rw [if_pos hu]
    next => cases h
  · rfl

/-! One line written back. -/

theorem packet_m (s : State) (a b : Nat) : (packet s a b).m = s.m := by rw [packet_only]

/-- The state after a line that is not lost has been written back, with no update outstanding: its bytes in their global line (R253). -/
theorem writeBackLine_dirty {s : State} {l : SLine} (hl : l.state = .dirty) (hc : s.m.chains = []) (hp : s.m.poison = [])
    (hlost : lostHome s l.pa = false) :
    s.writeBackLine l = (packet s (homeDie l.at_) (homeDie l.pa)).setBytes l.pa (s.bytesAt l.at_ 64) := by
  have hpk := reached_packet s (homeDie l.at_) (homeDie l.pa)
  have hkept : lostHome (packet s (homeDie l.at_) (homeDie l.pa)) l.pa = false := by rw [lostHome_congr hpk.2 (reached_pkg hpk), hlost]
  simp only [State.writeBackLine, hl, if_true, applyLine, hc, List.isEmpty_nil, hkept, Bool.false_eq_true, if_false, clearPoison, packet_m, hp,
    State.bytesAt]

theorem writeBackLine_clean {s : State} {l : SLine} (hl : l.state ≠ .dirty) : s.writeBackLine l = s := by rw [State.writeBackLine, if_neg hl]

/-- t is s after stash lines have changed their state, global lines have been written, and dies have exchanged packets. -/
def Flushed (s t : State) : Prop :=
  t = { s with m := { s.m with mem := t.m.mem, slines := t.m.slines }, dies := t.dies } ∧ SameDies s t

theorem Flushed.refl (s : State) : Flushed s s := ⟨rfl, fun _ => rfl⟩

theorem Flushed.trans {s t u : State} (h : Flushed s t) (k : Flushed t u) : Flushed s u := ⟨k.1.trans (by rw [h.1]), sameDies_trans h.2 k.2⟩

theorem Flushed.pkg {s t : State} (h : Flushed s t) : t.pkg = s.pkg := by rw [h.1]
theorem Flushed.ct {s t : State} (h : Flushed s t) : t.ct = s.ct := by rw [h.1]
theorem Flushed.chains {s t : State} (h : Flushed s t) : t.m.chains = s.m.chains := by rw [h.1]
theorem Flushed.poison {s t : State} (h : Flushed s t) : t.m.poison = s.m.poison := by rw [h.1]

/-- The lines that a packet, a write of bytes and a change of lines leave. -/
theorem flushed_line (s : State) (a b pa : Nat) (bs : List Byte) (f : MemSt → List SLine) :
    Flushed s (((packet s a b).setBytes pa bs).onMem fun m => { m with slines := f m }) := by
  refine ⟨?_, packet_dies s a b⟩
  rw [packet_only]
  rfl

theorem bytesAt_getElem (s : State) (pa n k : Nat) (h : k < (s.bytesAt pa n).length) : (s.bytesAt pa n)[k] = s.byteAt (pa + k) := by
  induction n generalizing pa k with
  | zero => simp [State.bytesAt, Memory.bytes] at h
  | succ n ih =>
    cases k with
    | zero => rfl
    | succ k =>
      refine (ih (pa + 1) k (Nat.lt_of_succ_lt_succ h)).trans ?_
      rw [Nat.add_assoc, Nat.add_comm 1]

theorem length_bytesAt (s : State) (pa n : Nat) : (s.bytesAt pa n).length = n := length_bytes n s.m.mem pa

/-- Bytes copied from one place to another: there as here, and elsewhere as before. -/
theorem byteAt_setBytes_bytesAt {s u : State} (hm : u.m.mem = s.m.mem) (h : Memory.wf s.m.mem = true) (pa src n a : Nat) :
    (u.setBytes pa (s.bytesAt src n)).byteAt a = if pa ≤ a ∧ a < pa + n then s.byteAt (src + (a - pa)) else s.byteAt a := by
  rw [byteAt_setBytes u pa a _ (by rw [hm]; exact h)]
  simp only [length_bytesAt, bytesAt_getElem]
  split
  · rfl
  · exact congrArg (Memory.byte · a) hm

/-- A DIRTY line is written back and then is in another state. -/
def cleaned (st : SLineState) (s : State) (l : SLine) : State :=
  (s.writeBackLine l).onMem fun m => { m with slines := putSLine m.slines { l with state := st } }

section
variable {s : State} {l : SLine} (hl : l.state = .dirty) (hc : s.m.chains = []) (hp : s.m.poison = []) (hlost : lostHome s l.pa = false)
  (st : SLineState)
include hl hc hp hlost

theorem flushed_cleaned : Flushed s (cleaned st s l) := by
  rw [cleaned, writeBackLine_dirty hl hc hp hlost]
  exact flushed_line ..

theorem byteAt_cleaned (h : Memory.wf s.m.mem = true) (a : Nat) :
    (cleaned st s l).byteAt a = if l.pa ≤ a ∧ a < l.pa + 64 then s.byteAt (l.at_ + (a - l.pa)) else s.byteAt a := by
  change (s.writeBackLine l).byteAt a = _
  rw [writeBackLine_dirty hl hc hp hlost]
  exact byteAt_setBytes_bytesAt (congrArg MemSt.mem (packet_m ..)) h l.pa l.at_ 64 a

theorem slines_cleaned : (cleaned st s l).m.slines = putSLine s.m.slines { l with state := st } := by
  change putSLine (s.writeBackLine l).m.slines _ = _
  rw [writeBackLine_dirty hl hc hp hlost, State.setBytes_m_slines, packet_m]

end

theorem wf_cleaned {s : State} (h : Memory.wf s.m.mem = true) (st : SLineState) (l : SLine) : Memory.wf (cleaned st s l).m.mem = true := 
  wf_writeBackLine s l h

end Sys2Proof.Laws

/-!
SUPPORT. SMAP, SUNMAP and SFLUSH (R180, R353, R354, Tables 9.3 and 9.4), and O30.
-/

namespace Sys2Proof.Laws

open Sys2Proof.Machine

/-! A stash instruction on its range. -/

theorem drainFor_empty {s : State} (hs : s.m.sbuf = []) (hw : s.m.wcb = []) (hl : s.m.late = []) (k : Need) : drainFor k s = s := by
  simp [drainFor, hs, hw, hl]

/-- A stash instruction reaches its range: nothing is in the VIQ, the range lies in the grant, and no uncompleted job overlaps it. -/
structure OnRange (s : State) (va len : Word) (off : Nat) : Prop where
  profile : s.has .lt = true
  drained : s.viqEmpty = true
  base : va.toNat % 64 = 0
  length : len.toNat % 64 = 0
  range : stashRange s va len = some off
  jobs : jobOverlaps s off len.toNat = false
  sbuf : s.m.sbuf = []
  wcb : s.m.wcb = []
  early : s.m.early = []
  late : s.m.late = []

theorem onRange_passes {s : State} {va len : Word} {off : Nat} (h : OnRange s va len off) {others : Bool} (ho : others = true)
    {refuse : Nat → Option (BitVec 8)} (hr : refuse off = none) (f : Nat → State → Res Unit) :
    onRange s va len others refuse f = finish ((f off s).andThen fun _ s => .ok () s.advance) := by
  rw [onRange, withProfile_has h.profile, whenDrained, if_pos h.drained, if_neg (by simp [h.base, h.length, ho]), h.range]
  simp only [hr, h.jobs, Bool.false_eq_true, if_false, drainStores_empty h.sbuf h.wcb h.late, dropAhead_empty h.early]

theorem partlyMapped_none {s : State} {len : Word} {off : Nat} (hne : len ≠ 0)
    (h : ∀ m ∈ s.ct.task.maps, m.meets off len.toNat = true → m.inside off len.toNat = true) : partlyMapped s len off = none := by
  have hany : s.ct.task.maps.any (fun m => m.meets off len.toNat && !m.inside off len.toNat) = false := by
    rw [List.any_eq_false]
    intro m hm
    simpa using h m hm
  rw [partlyMapped, hany, if_neg (by simpa using hne)]

/-! SMAP. -/

/-- The first byte of a range of the acting task's grant. -/
abbrev rangeStart (s : State) (off : Nat) : Nat := stashPa s.ct.lcore (s.ct.task.stashBase + off)

/-- The lines that SMAP adds. -/
def mappedLines (s : State) (off len : Nat) (va : Word) : List SLine :=
  (List.range (len / 64)).map fun i =>
    ⟨rangeStart s off + 64 * i, .mapped, va + BitVec.ofNat 64 (64 * i),
      rangeStart s off + 64 * i, s.ct.sup.troot, []⟩

theorem mapRange_quiet {s : State} (hs : s.m.sbuf = []) (hw : s.m.wcb = []) (hl : s.m.late = []) (off len : Nat) (va : Word) :
    mapRange off len va s = { s with
      m := { s.m with slines := s.m.slines ++ mappedLines s off len va }
      ct := { s.ct with task := { s.ct.task with maps := s.ct.task.maps ++ [⟨off, len, va⟩] } } } := by
  rw [mapRange, drainStash, drainFor_empty hs hw hl]
  rfl

theorem exec_smap {s : State} {a b c : Reg} {off : Nat} (h : OnRange s (s.getX a) (s.getX c) off) (hne : s.getX c ≠ 0)
    (hva : (s.getX b).toNat % 64 = 0) (hw : windowOf (s.getX b) = .global) (hroom : s.ct.task.maps.length < 16)
    (hfree : ∀ m ∈ s.ct.task.maps, m.off + m.len ≤ off ∨ off + (s.getX c).toNat ≤ m.off) :
    exec (.smap a b c) s = .next (mapRange off (s.getX c).toNat (s.getX b) s).advance := by
  have hany : s.ct.task.maps.any (fun m => m.meets off (s.getX c).toNat) = false := by
    rw [List.any_eq_false]
    intro m hm
    have := hfree m hm
    simp only [Mapping.meets, Bool.and_eq_true, decide_eq_true_eq]
    omega
  change execSmap a b c s = _
  rw [execSmap, onRange_passes h (beq_of_eq hva)
    (by simp only [hany, hw, hne, Bool.false_eq_true, ne_eq, not_true_eq_false, or_self, if_false]; exact if_neg (Nat.not_le.2 hroom))]
  rfl

/-! The DIRTY lines of a range. -/

/-- The DIRTY lines of a range, lowest first. -/
def dirtyLines (s : State) (lo len : Nat) : List SLine :=
  sortBy (fun (a b : SLine) => decide (a.at_ ≤ b.at_)) (s.m.slines.filter fun l => l.state == .dirty && decide (lo ≤ l.at_) && decide (l.at_ < lo + len))

theorem mem_dirtyLines {s : State} {lo len : Nat} {l : SLine} :
    l ∈ dirtyLines s lo len ↔ l ∈ s.m.slines ∧ l.state = .dirty ∧ lo ≤ l.at_ ∧ l.at_ < lo + len := by
  simp [dirtyLines, mem_sortBy, and_assoc]

/-- The lines of a list written back, one after another, each then CLEAN. -/
def cleanAll (ls : List SLine) (s : State) : State := ls.foldl (cleaned .clean) s

/-- Each of the lines is DIRTY, and its home answers. -/
def CanClean (s : State) (ls : List SLine) : Prop := ∀ l ∈ ls, l.state = .dirty ∧ atHome l.pa s = .ok () s

section
variable {s : State} (hc : s.m.chains = []) (hp : s.m.poison = [])
include hc hp

theorem CanClean.cleaned {l : SLine} {ls : List SLine} (h : CanClean s (l :: ls)) : Flushed s (cleaned .clean s l) ∧ CanClean (cleaned .clean s l) ls := by
  obtain ⟨⟨hl, hhome⟩, hrest⟩ := List.forall_mem_cons.1 h
  have hf := flushed_cleaned hl hc hp (not_lostHome_of_atHome hhome) .clean
  exact ⟨hf, fun o ho => ⟨(hrest o ho).1, atHome_sameDies hf.2 hf.pkg (hrest o ho).2⟩⟩

theorem flushed_cleanAll {ls : List SLine} (h : CanClean s ls) : Flushed s (cleanAll ls s) := by
  induction ls generalizing s with
  | nil => exact .refl s
  | cons l ls ih =>
    obtain ⟨hf, hrest⟩ := h.cleaned hc hp
    exact hf.trans (ih (hf.chains.trans hc) (hf.poison.trans hp) hrest)

theorem foldRes_cleanAll {ls : List SLine} (h : CanClean s ls) :
    foldRes (fun (_ : Unit) l s => (atHome l.pa s).andThen fun _ s =>
      .ok () ((s.writeBackLine l).onMem fun m => { m with slines := putSLine m.slines { l with state := .clean } })) ls () s = .ok () (cleanAll ls s) := by
  induction ls generalizing s with
  | nil => rfl
  | cons l ls ih =>
    obtain ⟨hf, hrest⟩ := h.cleaned hc hp
    rw [foldRes, (h l List.mem_cons_self).2]
    exact ih (hf.chains.trans hc) (hf.poison.trans hp) hrest

/-- After that every line of the list is CLEAN, and no other has changed. -/
theorem mem_slines_cleanAll {ls : List SLine} (h : CanClean s ls) {o : SLine} (ho : o ∈ (cleanAll ls s).m.slines) :
    o.state = .clean ∧ (∃ q ∈ s.m.slines, q.at_ = o.at_) ∨ o ∈ s.m.slines ∧ ∀ l ∈ ls, o.at_ ≠ l.at_ := by
  induction ls generalizing s with
  | nil => exact .inr ⟨ho, nofun⟩
  | cons l ls ih =>
    obtain ⟨hf, hrest⟩ := h.cleaned hc hp
    have ⟨hl, hhome⟩ := h l List.mem_cons_self
    have hput (q : SLine) : q ∈ (cleaned .clean s l).m.slines ↔ ∃ p ∈ s.m.slines, (if p.at_ = l.at_ then { l with state := .clean } else p) = q := by
      rw [slines_cleaned hl hc hp (not_lostHome_of_atHome hhome)]
      exact List.mem_map
    have hplace {q : SLine} (hq : q ∈ (cleaned .clean s l).m.slines) : ∃ p ∈ s.m.slines, p.at_ = q.at_ := by
      obtain ⟨p, hp, rfl⟩ := (hput q).1 hq
      refine ⟨p, hp, ?_⟩
      split
      · assumption
      · rfl
    rcases ih (hf.chains.trans hc) (hf.poison.trans hp) hrest ho with ⟨hclean, q, hq, hat⟩ | ⟨hin, hne⟩
    · obtain ⟨p, hp, hpq⟩ := hplace hq
      exact .inl ⟨hclean, p, hp, hpq.trans hat⟩
    · obtain ⟨p, hp, rfl⟩ := (hput o).1 hin
      split
      case isTrue hat => exact .inl ⟨rfl, p, hp, hat⟩
      case isFalse hat =>
        rw [if_neg hat] at hne
        exact .inr ⟨hp, List.forall_mem_cons.2 ⟨hat, hne⟩⟩

theorem byteAt_cleanAll_outside {ls : List SLine} (h : CanClean s ls) (hwf : Memory.wf s.m.mem = true) {a : Nat}
    (ha : ∀ l ∈ ls, a < l.pa ∨ l.pa + 64 ≤ a) : (cleanAll ls s).byteAt a = s.byteAt a := by
  induction ls generalizing s with
  | nil => rfl
  | cons l ls ih =>
    obtain ⟨hf, hrest⟩ := h.cleaned hc hp
    obtain ⟨hl, hhome⟩ := h l List.mem_cons_self
    obtain ⟨hout, haway⟩ := List.forall_mem_cons.1 ha
    refine (ih (hf.chains.trans hc) (hf.poison.trans hp) hrest (wf_cleaned hwf _ l) haway).trans ?_
    rw [byteAt_cleaned hl hc hp (not_lostHome_of_atHome hhome) _ hwf, if_neg (by omega)]

/-- Where the global lines are apart from one another and from the lines' own bytes, each holds its line's bytes. -/
theorem byteAt_cleanAll {ls : List SLine} (h : CanClean s ls) (hwf : Memory.wf s.m.mem = true)
    (hsrc : ∀ l ∈ ls, ∀ o ∈ ls, ∀ k, k < 64 → l.at_ + k < o.pa ∨ o.pa + 64 ≤ l.at_ + k)
    (hsep : ∀ l ∈ ls, ∀ o ∈ ls, l ≠ o → l.pa + 64 ≤ o.pa ∨ o.pa + 64 ≤ l.pa) {l : SLine} (hl : l ∈ ls) {k : Nat} (hk : k < 64) :
    (cleanAll ls s).byteAt (l.pa + k) = s.byteAt (l.at_ + k) := by
  induction ls generalizing s l with
  | nil => cases hl
  | cons d ls ih =>
    obtain ⟨hf, hrest⟩ := h.cleaned hc hp
    obtain ⟨hd, hhome⟩ := h d List.mem_cons_self
    have hstep := byteAt_cleaned hd hc hp (not_lostHome_of_atHome hhome) .clean hwf
    have hchains := hf.chains.trans hc
    have hpoison := hf.poison.trans hp
    change (cleanAll ls (cleaned .clean s d)).byteAt _ = _
    by_cases hmem : l ∈ ls
    · rw [ih hchains hpoison hrest (wf_cleaned hwf _ d) (fun l hl o ho => hsrc l (.tail _ hl) o (.tail _ ho))
        (fun l hl o ho => hsep l (.tail _ hl) o (.tail _ ho)) hmem, hstep, if_neg]
      have := hsrc l hl d List.mem_cons_self k hk
      omega
    · obtain rfl : l = d := (List.mem_cons.1 hl).resolve_right hmem
      rw [byteAt_cleanAll_outside hchains hpoison hrest (wf_cleaned hwf _ l), hstep, if_pos (by omega), Nat.add_sub_cancel_left]
      intro o ho
      have := hsep l hl o (.tail _ ho) (fun e => hmem (e ▸ ho))
      omega

end

theorem wf_cleanAll {s : State} (h : Memory.wf s.m.mem = true) (ls : List SLine) : Memory.wf (cleanAll ls s).m.mem = true :=
  foldl_keep (P := fun s => Memory.wf s.m.mem = true) (fun _ l h => wf_cleaned h .clean l) ls s h

theorem cleanRange_quiet {s : State} (hs : s.m.sbuf = []) (hw : s.m.wcb = []) (hl : s.m.late = []) (hc : s.m.chains = []) (hp : s.m.poison = [])
    {off len : Nat} (h : CanClean s (dirtyLines s (rangeStart s off) len)) :
    cleanRange off len s = .ok () (cleanAll (dirtyLines s (rangeStart s off) len) s) := by
  rw [cleanRange, drainStash, drainFor_empty hs hw hl]
  exact foldRes_cleanAll hc hp h

theorem dirtyLines_nil {s : State} (h : s.m.slines = []) (lo len : Nat) : dirtyLines s lo len = [] := by
  rw [dirtyLines, h]
  rfl

/-! A range that becomes SCRATCH and zero. -/

theorem zeroRange_calm {s : State} (h : Calm s) (hwf : Memory.wf s.m.mem = true) (pa : Nat) {len : Nat} (hlen : len ≠ 0) :
    Stored s (zeroRange s pa len) ∧ ∀ a, (zeroRange s pa len).byteAt a = if pa ≤ a ∧ a < pa + len then 0 else s.byteAt a := by
  have hr := reached_readyLines h (.part (homeDie pa)) .recall (linesOf pa len)
  have hc := calm_reached h hr
  have hzero : zeroRange s pa len = ((linesOf pa len).foldl (fun s l => readyLine s (.part (homeDie pa)) .recall l) s).onMem fun m =>
      { m with mem := m.mem.filter fun c => decide (c.1 < pa) || decide (pa + len ≤ c.1) } := by
    rw [zeroRange, if_neg hlen]
    simp only [readyWrite, settle_calm h, markEarly_calm hc, clearPoison_calm hc]
  have hmem : (zeroRange s pa len).m.mem = s.m.mem.filter fun c => decide (c.1 < pa) || decide (pa + len ≤ c.1) := by
    rw [hzero, State.onMem, hr.1]
    rfl
  refine ⟨?_, fun a => ?_⟩
  · rw [hzero]
    refine (stored_reached hr).trans ⟨rfl, fun _ => rfl⟩
  · rw [State.byteAt, hmem, byte_filter hwf fun a => decide (a < pa) || decide (pa + len ≤ a)]
    by_cases ha : pa ≤ a ∧ a < pa + len
    · rw [if_pos ha, if_neg (by simp; omega)]
      rfl
    · rw [if_neg ha, if_pos (by simp; omega)]
      rfl

/-- s with no line of its stash mapped. -/
def unmapped (s : State) : State := { s with m := { s.m with slines := [] } }

theorem sunmapRange_clean {s : State} (hs : s.m.sbuf = []) (hw : s.m.wcb = []) (hl : s.m.late = []) {core off len : Nat} (hlen : len ≠ 0)
    (h : ∀ l ∈ s.m.slines, l.state ≠ .dirty ∧ stashPa core off ≤ l.at_ ∧ l.at_ < stashPa core off + len) :
    sunmapRange s core off len = zeroRange (unmapped s) (stashPa core off) len := by
  have hall : s.m.slines.filter (fun l => decide (stashPa core off ≤ l.at_) && decide (l.at_ < stashPa core off + len)) = s.m.slines :=
    List.filter_eq_self.2 fun l hm => by simp [h l hm]
  have hnone : s.m.slines.filter (fun l => !(decide (stashPa core off ≤ l.at_) && decide (l.at_ < stashPa core off + len))) = [] :=
    List.filter_eq_nil_iff.2 fun l hm => by simp [h l hm]
  have hback : ∀ ls : List SLine, (∀ l ∈ ls, l.state ≠ .dirty) → ls.foldl State.writeBackLine s = s := by
    intro ls
    induction ls with
    | nil => exact fun _ => rfl
    | cons l ls ih =>
      intro hls
      rw [List.foldl_cons, writeBackLine_clean (hls l List.mem_cons_self)]
      exact ih fun o ho => hls o (.tail _ ho)
  rw [sunmapRange, if_neg hlen]
  simp only [drainStash, drainFor_empty hs hw hl, hall, hback _ fun l hm => (h l hm).1, State.onMem, hnone]
  rfl

theorem unmapped_of_nil {s : State} (h : s.m.slines = []) : unmapped s = s := by
  rw [unmapped, show { s.m with slines := [] } = s.m by rw [← h]]

theorem calm_unmapped_flushed {s u : State} (h : Calm (unmapped s)) (hf : Flushed s u) : Calm (unmapped u) := by
  refine calm_of h ?_ ?_ ?_ ?_ ?_
  all_goals rw [unmapped, hf.1]
  exacts [rfl, (fills_nil h :), rfl, h.savedFills, h.parkedFills]

/-! SUNMAP. -/

/-- SUNMAP leaves the range zero, its mappings gone, and all else as the writing back of its DIRTY lines leaves it. -/
def Unmapped (s t : State) (off : Nat) (len : Word) : Prop :=
  (∀ x, t.byteAt x = if rangeStart s off ≤ x ∧ x < rangeStart s off + len.toNat then 0
    else (cleanAll (dirtyLines s (rangeStart s off) len.toNat) s).byteAt x) ∧ SameDies s t ∧
    t = { s.accessed t with
      ct := { s.ct with
        pc := s.ct.pc + 4
        task := { s.ct.task with maps := s.ct.task.maps.filter fun m => !m.inside off len.toNat }
        ctl := { s.ct.ctl with wait := .none } }
      m := { (s.accessed t).m with mem := t.m.mem, slines := [] } }

section
variable {s : State} {a b : Reg} {off : Nat} (h : OnRange s (s.getX a) (s.getX b) off) (hne : s.getX b ≠ 0)
  (hpart : ∀ m ∈ s.ct.task.maps, m.meets off (s.getX b).toNat = true → m.inside off (s.getX b).toNat = true)
  (hcalm : Calm (unmapped s)) (hclean : CanClean s (dirtyLines s (rangeStart s off) (s.getX b).toNat))
include h hne hpart hcalm hclean

/-- SFLUSH writes the DIRTY lines of its range back. -/
theorem exec_sflush : exec (.sflush a b) s = .next (cleanAll (dirtyLines s (rangeStart s off) (s.getX b).toNat) s).advance := by
  change execSflush a b s = _
  rw [execSflush, onRange_passes h rfl (partlyMapped_none hne hpart), cleanRange_quiet h.sbuf h.wcb h.late hcalm.chains hcalm.poison hclean]
  rfl

theorem exec_sunmap (hwf : Memory.wf s.m.mem = true)
    (hin : ∀ l ∈ s.m.slines, rangeStart s off ≤ l.at_ ∧ l.at_ < rangeStart s off + (s.getX b).toNat) :
    ∃ t, exec (.sunmap a b) s = .next t ∧ Unmapped s t off (s.getX b) := by
  have hchains : s.m.chains = [] := hcalm.chains
  have hpoison : s.m.poison = [] := hcalm.poison
  have hf := flushed_cleanAll hchains hpoison hclean
  have hwfu := wf_cleanAll hwf (dirtyLines s (rangeStart s off) (s.getX b).toNat)
  have hlines := fun o => mem_slines_cleanAll hchains hpoison hclean (o := o)
  have hexec : exec (.sunmap a b) s = finish ((cleanRange off (s.getX b).toNat s).andThen fun _ u =>
      .ok () ((sunmapRange u u.ct.lcore (rangeLo u off) (s.getX b).toNat).onTask
        fun t => { t with maps := t.maps.filter fun m => !m.inside off (s.getX b).toNat }).advance) := by
    change execSunmap a b s = _
    rw [execSunmap, onRange_passes h rfl (partlyMapped_none hne hpart), cleanRange_quiet h.sbuf h.wcb h.late hchains hpoison hclean]
    rfl
  rw [hexec, cleanRange_quiet h.sbuf h.wcb h.late hchains hpoison hclean]
  unfold Unmapped
  generalize cleanAll (dirtyLines s (rangeStart s off) (s.getX b).toNat) s = u at hf hwfu hlines
  have hlen : (s.getX b).toNat ≠ 0 := fun e => hne (BitVec.eq_of_toNat_eq e)
  have hscratch : sunmapRange u u.ct.lcore (rangeLo u off) (s.getX b).toNat = zeroRange (unmapped u) (rangeStart s off) (s.getX b).toNat := by
    rw [hf.ct, show rangeLo u off = s.ct.task.stashBase + off by rw [rangeLo, hf.ct]]
    refine sunmapRange_clean (by rw [hf.1]; exact h.sbuf) (by rw [hf.1]; exact h.wcb) (by rw [hf.1]; exact h.late) hlen fun o ho => ?_
    rcases hlines o ho with ⟨hst, q, hq, hat⟩ | ⟨ho, hne⟩
    · exact ⟨by rw [hst]; exact SLineState.noConfusion, hat ▸ hin q hq⟩
    · exact ⟨fun hd => hne o (mem_dirtyLines.2 ⟨ho, hd, hin o ho⟩) rfl, hin o ho⟩
  obtain ⟨hz, hbytes⟩ := zeroRange_calm (calm_unmapped_flushed hcalm hf) hwfu (rangeStart s off) hlen
  refine ⟨_, rfl, fun x => ?_, ?_, ?_⟩
  · simp only [hscratch]
    exact hbytes x
  · simp only [hscratch]
    exact sameDies_trans hf.2 hz.2
  · simp only [hscratch]
    generalize zeroRange (unmapped u) (rangeStart s off) (s.getX b).toNat = v at hz
    rw [hz.1, unmapped, hf.1]
    rfl

end

/-! SFLUSH. -/

/-- Settles O30: the lines that a range leaves, and the bytes of the global lines that its DIRTY ones are written back to. -/
theorem stashMapping : Obligations.StashMapping := by
  intro s a b c off lt hv ha
  refine ⟨?smap, ?ranges⟩
  case smap =>
    rintro len rfl hlen hne hva hw hc hr hj hroom hfree
    have h : OnRange s (s.getX a) (s.getX c) off := ⟨lt, hv, ha, hlen, hr, hj, hc.sbuf, hc.wcb, hc.early, hc.late⟩
    refine ⟨_, exec_smap h hne hva hw hroom hfree, ?_⟩
    rw [mapRange_quiet h.sbuf h.wcb h.late]
    have hcount : (mappedLines s off (s.getX c).toNat (s.getX b)).length = (s.getX c).toNat / 64 := by simp [mappedLines]
    refine ⟨fun k hk => ?_, List.take_left' rfl, ?_, rfl⟩
    · refine (List.getElem?_append_right (Nat.le_add_right _ k)).trans ?_
      rw [Nat.add_sub_cancel_left, mappedLines, List.getElem?_map, List.getElem?_range hk]
      rfl
    · exact (List.length_append).trans (congrArg _ hcount)
  case ranges =>
    rintro len rfl hlen hne hr hj hpart lo
    have hrange (hc : Calm (unmapped s)) : OnRange s (s.getX a) (s.getX b) off :=
      ⟨lt, hv, ha, hlen, hr, hj, hc.sbuf, hc.wcb, hc.early, hc.late⟩
    refine ⟨fun hc hwf => ?scratch, fun hc hwf hnd hin hhome hsep => ?lines, fun l hc hwf hl hd hlo hhi hapart hhome => ?flush, fun hc => ?clean⟩
    case scratch =>
      have hu : Calm (unmapped s) := by rwa [unmapped_of_nil hc.slines]
      have hnil := dirtyLines_nil hc.slines lo (s.getX b).toNat
      obtain ⟨t, hexec, hbytes, hdies, ht⟩ := exec_sunmap (hrange hu) hne hpart hu (by rw [hnil]; exact nofun) hwf (by rw [hc.slines]; exact nofun)
      replace hbytes : ∀ x, t.byteAt x = if lo ≤ x ∧ x < lo + (s.getX b).toNat then 0 else s.byteAt x := fun x => by rw [hbytes x, hnil]; rfl
      refine ⟨t, hexec, fun k hk => ?_, fun x hx => ?_, hdies, ?_⟩
      · rw [hbytes, if_pos (by omega)]
      · rw [hbytes, if_neg (by omega)]
      · rw [← hc.slines] at ht
        exact ht
    case lines =>
      have hchains : s.m.chains = [] := hc.chains
      have hpoison : s.m.poison = [] := hc.poison
      have hd {l : SLine} := mem_dirtyLines (s := s) (lo := lo) (len := (s.getX b).toNat) (l := l)
      have hbelow (l : SLine) (hl : l ∈ s.m.slines) : l.at_ < lo + (s.getX b).toNat := by
        have := (hin l hl).2
        omega
      have hdirty {l : SLine} (hl : l ∈ s.m.slines) (hst : l.state = .dirty) : l ∈ dirtyLines s lo (s.getX b).toNat :=
        hd.2 ⟨hl, hst, (hin l hl).1, hbelow l hl⟩
      have hclean : CanClean s (dirtyLines s lo (s.getX b).toNat) := fun l hl => ⟨(hd.1 hl).2.1, (hhome l (hd.1 hl).1 (hd.1 hl).2.1).2⟩
      obtain ⟨t, hexec, hbytes, hdies, ht⟩ := exec_sunmap (hrange hc) hne hpart hc hclean hwf fun l hl => ⟨(hin l hl).1, hbelow l hl⟩
      replace hbytes : ∀ x, t.byteAt x = if lo ≤ x ∧ x < lo + (s.getX b).toNat then 0
        else (cleanAll (dirtyLines s lo (s.getX b).toNat) s).byteAt x := hbytes
      refine ⟨t, hexec, fun k hk => ?_, fun l hl hst k hk => ?_, fun x hx hout => ?_, hdies, ht⟩
      · rw [hbytes, if_pos (by omega)]
      · have hout := (hhome l hl hst).1
        rw [hbytes, if_neg (by omega), byteAt_cleanAll hchains hpoison hclean hwf ?_ ?_ (hdirty hl hst) hk]
        · intro l hl o ho j hj
          have := hin l (hd.1 hl).1
          have := (hhome o (hd.1 ho).1 (hd.1 ho).2.1).1
          omega
        · intro l hl o ho hlo
          exact hsep l (hd.1 hl).1 o (hd.1 ho).1 (hd.1 hl).2.1 (hd.1 ho).2.1 fun e => hlo (List.inj_on_of_nodup_map hnd (hd.1 hl).1 (hd.1 ho).1 e)
      · rw [hbytes, if_neg (by omega), byteAt_cleanAll_outside hchains hpoison hclean hwf]
        exact fun l hl => hout l (hd.1 hl).1 (hd.1 hl).2.1
    case flush =>
      have hchains : s.m.chains = [] := hc.chains
      have hpoison : s.m.poison = [] := hc.poison
      have hds : dirtyLines s lo (s.getX b).toNat = [l] := by
        rw [dirtyLines, hl, List.filter_cons_of_pos (by simp [hd, hlo, hhi])]
        rfl
      have hclean : CanClean s [l] := List.forall_mem_singleton.2 ⟨hd, hhome⟩
      have hlost := not_lostHome_of_atHome hhome
      have hf := flushed_cleaned hd hchains hpoison hlost .clean
      have hbytes := byteAt_cleaned hd hchains hpoison hlost .clean hwf
      have hlines : (cleaned .clean s l).m.slines = [{ l with state := .clean }] := by
        rw [slines_cleaned hd hchains hpoison hlost, hl]
        exact congrArg (· :: []) (if_pos rfl)
      have hexec := exec_sflush (hrange hc) hne hpart hc (by rw [hds]; exact hclean)
      rw [hds] at hexec
      refine ⟨_, hexec, fun k hk => ?_, fun x hx => ?_, hf.2, ?_⟩
      · refine (hbytes _).trans ?_
        rw [if_pos (by omega), Nat.add_sub_cancel_left]
      · refine (hbytes _).trans ?_
        rw [if_neg (by omega)]
      · rw [← hlines]
        change (cleaned .clean s l).advance = { s with
          ct := { s.ct with pc := s.ct.pc + 4, ctl := { s.ct.ctl with wait := .none } }
          m := { s.m with mem := (cleaned .clean s l).m.mem, slines := (cleaned .clean s l).m.slines }
          dies := (cleaned .clean s l).dies }
        generalize cleaned .clean s l = u at hf
        rw [hf.1]
        rfl
    case clean =>
      have hu : Calm (unmapped s) := by rwa [unmapped_of_nil hc.slines]
      have hnil := dirtyLines_nil hc.slines lo (s.getX b).toNat
      refine ⟨_, exec_sflush (hrange hu) hne hpart hu (by rw [hnil]; exact nofun), ?_⟩
      rw [hnil]
      rfl

end Sys2Proof.Laws

/-!
SUPPORT. Nests (R58, R195, R196, R346, R347): NSET, NLOOP, the words that run and the positions they run at, and O33.
-/

namespace Sys2Proof.Laws

open Sys2Proof.Machine

/-! NSET. -/

theorem exec_nset {s : State} (lx : s.has .lx = true) (d a b : Reg) : exec (.nset d a b) s =
    if 65535 < (s.getX a).toNat then takeTrap { code := Code.illegal } s
    else .next ((s.onCt fun t => { t with nest := { t.nest with dims := t.nest.dims.set d.toNat ⟨(s.getX a).toNat, s.getX b⟩ } }).advance) := by
  change execNset d a b s = _
  rw [execNset, withProfile_has lx]

/-! NLOOP. -/

theorem any_decode_none {ws : List IWord} (h : ∀ w ∈ ws, (decode w).isSome = true) : (ws.any fun w => (decode w).isNone) = false :=
  List.any_eq_false.2 fun w hw => by simp [Option.isSome_iff_ne_none.1 (h w hw)]

theorem any_undeclared {s : State} {ws : List IWord} (h : ∀ w ∈ ws, ∀ p ∈ wordProfiles w, s.has p = true) :
    (ws.any fun w => (wordProfiles w).any fun p => !s.has p) = false :=
  List.any_eq_false.2 fun w hw => by simpa using h w hw

/-- A word may stand in a body, and its profiles are declared. -/
def BodyOk (s : State) (w : IWord) : Prop := (decode w).isSome = true ∧ inNest w = true ∧ ∀ p ∈ wordProfiles w, s.has p = true

/-- The body is captured with the dimensions, which are reset. -/
def loopBegun (s : State) (k : BitVec 5) (ws : List IWord) : State :=
  { s with ct := { s.ct with
    pc := s.ct.pc + 4
    nest := ⟨List.replicate 6 ⟨1, 0⟩, some ⟨s.ct.pc + 4, ws⟩, s.ct.nest.runs ++ [⟨s.ct.nest.dims, k.toNat + 1, List.replicate 6 0, 0⟩]⟩
    ctl := { s.ct.ctl with wait := .none } } }

section
variable {s : State} {k : BitVec 5} {ws : List IWord} (lx : s.has .lx = true) (hf : fetchBody (k.toNat + 1) (s.ct.pc + 4) [] s = .ok ws s)
include lx hf

/-- What NLOOP does with the words it fetched, cause by cause (R49, R196). -/
theorem exec_nloop : exec (.nloop k) s =
    if ws.any fun w => (decode w).isNone then takeTrap { code := Code.illegal } s
    else if ws.any fun w => (wordProfiles w).any fun p => !s.has p then takeTrap { code := Code.profile } s
    else if ws.any fun w => !inNest w then takeTrap { code := Code.illegal } s
    else .next (loopBegun s k ws) := by
  change execNloop k s = _
  rw [execNloop, withProfile_has lx]
  simp only [hf, Res.mapTrap, Res.andThen]
  split
  · rfl
  · split
    · rfl
    · split <;> rfl

theorem exec_nloop_begun (h : ∀ w ∈ ws, BodyOk s w) : exec (.nloop k) s = .next (loopBegun s k ws) := by
  rw [exec_nloop lx hf, any_decode_none fun w hw => (h w hw).1, any_undeclared fun w hw => (h w hw).2.2,
    if_neg Bool.false_ne_true, if_neg Bool.false_ne_true, if_neg]
  simpa using fun w hw => (h w hw).2.1

theorem exec_nloop_undecoded (h : ∃ w ∈ ws, decode w = none) : exec (.nloop k) s = takeTrap { code := Code.illegal } s := by
  obtain ⟨w, hw, hd⟩ := h
  rw [exec_nloop lx hf, if_pos (List.any_eq_true.2 ⟨w, hw, by simp [hd]⟩)]

theorem exec_nloop_undeclared (hd : ∀ w ∈ ws, (decode w).isSome = true) (h : ∃ w ∈ ws, ∃ p ∈ wordProfiles w, s.has p = false) :
    exec (.nloop k) s = takeTrap { code := Code.profile } s := by
  obtain ⟨w, hw, p, hp, hn⟩ := h
  rw [exec_nloop lx hf, any_decode_none hd, if_neg Bool.false_ne_true,
    if_pos (List.any_eq_true.2 ⟨w, hw, List.any_eq_true.2 ⟨p, hp, by simp [hn]⟩⟩)]

theorem exec_nloop_outside (hd : ∀ w ∈ ws, (decode w).isSome = true ∧ ∀ p ∈ wordProfiles w, s.has p = true) (h : ∃ w ∈ ws, inNest w = false) :
    exec (.nloop k) s = takeTrap { code := Code.illegal } s := by
  obtain ⟨w, hw, hn⟩ := h
  rw [exec_nloop lx hf, any_decode_none fun w hw => (hd w hw).1, any_undeclared fun w hw => (hd w hw).2,
    if_neg Bool.false_ne_true, if_neg Bool.false_ne_true, if_pos (List.any_eq_true.2 ⟨w, hw, by simp [hn]⟩)]

end

/-! The words that run. -/

theorem inNest_iff (w : IWord) : inNest w = true ↔ (∃ d q, decode w = some (.qpopVector d q)) ∨ 0x21 ≤ w.toNat / 2 ^ 26 := by
  have hmaj : (w >>> 26).toNat = w.toNat / 2 ^ 26 := by rw [BitVec.toNat_ushiftRight, Nat.shiftRight_eq_div_pow]
  rw [inNest, hmaj]
  split
  next d q hd => exact iff_of_true rfl (.inl ⟨d, q, hd⟩)
  next hd =>
    rw [decide_eq_true_iff]
    exact ⟨.inr, fun h => h.resolve_left fun ⟨d, q, e⟩ => hd d q e⟩

/-- The next word is the captured one, whatever memory holds (R58). -/
theorem nextWord_captured {u : State} {c : Capture} (hc : u.ct.nest.capture = some c) (hat : c.at_ = u.ct.pc) : nextWord u = .ok (c.words.headD 0) u := by
  simp only [nextWord, hc, hat, if_true]

theorem passBody_captured {u : State} {c : Capture} (hc : u.ct.nest.capture = some c) (hat : c.at_ = u.ct.pc) :
    (passBody u).ct.nest.capture = if c.words.length ≤ 1 then none else some ⟨c.at_ + 4, c.words.tail⟩ := by
  have hin : u.inBody = true := by simp only [State.inBody, hc, hat, beq_self_eq_true]
  simp only [passBody, hin, Bool.not_true, Bool.false_eq_true, if_false, State.onCt, hc]

/-! The head of the vector stream while a nest is there. -/

/-- A nest at the head of the VIQ: its body's entries are there, and it has one of them to run next. -/
structure NestAhead (s : State) (r : NestRun) (rs : List NestRun) (e : VEntry) (es : List VEntry) : Prop where
  runs : s.ct.nest.runs = r :: rs
  viq : s.ct.vec.viq = e :: es
  nested : e.nested = true
  whole : r.body ≤ (e :: es).length
  inside : r.next < r.body

theorem discardRecords_unsampled {es : List VEntry} (h : ∀ x ∈ es, x.sampled = false) (s : State) : discardRecords es s = s := by
  induction es with
  | nil => rfl
  | cons x es ih =>
    have hx : sampleRecord s x .discard 0 0 s = s := by
      simp only [sampleRecord, sampleFields, h x List.mem_cons_self, Bool.not_false, if_true, writeSample, List.isEmpty_nil]
    rw [discardRecords, List.foldl_cons, hx]
    exact ih fun y hy => h y (.tail _ hy)

/-- The offset of a position as the sum over its dimensions. -/
theorem nestOffset_eq (r : NestRun) : nestOffset r = ((r.dims.zip r.pos).map fun x => x.1.step * BitVec.ofNat 64 x.2).foldr (· + ·) 0 := by
  have hfold : nestOffset r = ((r.dims.zip r.pos).map fun x => x.1.step * BitVec.ofNat 64 x.2).foldl (· + ·) 0 := by
    rw [nestOffset, List.foldl_map]
  rw [hfold]
  exact (List.foldr_eq_foldl ..).symm

/-- That no FENCE .vv is open any more concerns neither nests nor the VIQ. -/
theorem nest_closed (u : State) (c : Bool) : (if c then u.onOrd fun o => { o with vvOpen := false } else u).ct.nest = u.ct.nest := by cases c <;> rfl

theorem vec_closed (u : State) (c : Bool) : (if c then u.onOrd fun o => { o with vvOpen := false } else u).ct.vec = u.ct.vec := by cases c <;> rfl

section
variable {s : State} {r : NestRun} {rs : List NestRun} {e : VEntry} {es : List VEntry} (h : NestAhead s r rs e es)
include h

theorem headOf_emptyNest (hz : ∃ d ∈ r.dims, d.count = 0) : headOf s = .emptyNest r.body := by
  obtain ⟨d, hd, hc⟩ := hz
  have hany : r.dims.any (·.count == 0) = true := List.any_eq_true.2 ⟨d, hd, beq_of_eq hc⟩
  simp only [headOf, h.viq, h.nested, h.runs, Bool.not_true, Bool.false_eq_true, if_false, Nat.not_lt.2 h.whole, hany, if_true]

theorem headOf_nestWord (hnz : ∀ d ∈ r.dims, d.count ≠ 0) {b : VEntry} (hb : (e :: es)[r.next]? = some b) :
    headOf s = .entry { b with off := nestOffset r } r.next := by
  have hany : r.dims.any (·.count == 0) = false := by simpa using hnz
  simp only [headOf, h.viq, h.nested, h.runs, Bool.not_true, Bool.false_eq_true, if_false, Nat.not_lt.2 h.whole, hany, hb]

/-- A nest with a count of 0 leaves without an iteration. -/
theorem vectorStep_emptyNest (hz : ∃ d ∈ r.dims, d.count = 0) (hs : ∀ x ∈ (e :: es).take r.body, x.sampled = false) :
    vectorStep s = some (.next ((dropNest s r.body).onVec fun x => { x with hold := x.hold && !x.viq.isEmpty })) := by
  rw [vectorStep, headStep, headOf_emptyNest h hz]
  simp only [h.viq, discardRecords_unsampled hs, Option.some_or]

/-- After a word of the body the next one runs. -/
theorem runs_popHead_word {b : VEntry} (hb : b.nested = true) (hlt : r.next + 1 < r.body) :
    (popHead s b r.next).ct.nest.runs = { r with next := r.next + 1 } :: rs := by
  simp only [popHead, hb, Bool.not_true, Bool.false_eq_true, if_false, h.runs, nest_closed, if_pos hlt]
  rfl

/-- After the last word the first one runs at the next position. -/
theorem runs_popHead_next {b : VEntry} (hb : b.nested = true) (hlast : r.body = r.next + 1) {p : List Nat} (hp : nextPos r.dims r.pos = some p) :
    (popHead s b r.next).ct.nest.runs = { r with next := 0, pos := p } :: rs := by
  simp only [popHead, hb, Bool.not_true, Bool.false_eq_true, if_false, h.runs, nest_closed, if_neg (Nat.not_lt.2 (Nat.le_of_eq hlast)), hp]
  rfl

/-- After the last position the nest leaves. -/
theorem runs_popHead_last {b : VEntry} (hb : b.nested = true) (hlast : r.body = r.next + 1) (hend : nextPos r.dims r.pos = none) :
    (popHead s b r.next).ct.nest.runs = rs := by
  simp only [popHead, hb, Bool.not_true, Bool.false_eq_true, if_false, h.runs, nest_closed, if_neg (Nat.not_lt.2 (Nat.le_of_eq hlast)), hend]
  exact congrArg List.tail h.runs

theorem viq_popHead_last {b : VEntry} (hb : b.nested = true) (hlast : r.body = r.next + 1) (hend : nextPos r.dims r.pos = none) :
    (popHead s b r.next).ct.vec.viq = (e :: es).drop r.body := by
  simp only [popHead, hb, Bool.not_true, Bool.false_eq_true, if_false, h.runs, vec_closed, hend, if_neg (Nat.not_lt.2 (Nat.le_of_eq hlast))]
  change (s.ct.vec.viq.modify r.next _).drop r.body = _
  rw [List.drop_modify_of_lt _ _ _ _ h.inside, h.viq]

/-- The first iteration begins with VSTART = 0, but where a stop resumes in it. -/
theorem nestStart_first {b : VEntry} (hb : b.nested = true) (hn : r.next = 0) (hp : ∀ p ∈ r.pos, p = 0) (hr : b.resumed = false) :
    (nestStart s b).ct.vec.vstart = 0 := by
  have hall : r.pos.all (· == 0) = true := List.all_eq_true.2 fun p hm => beq_of_eq (hp p hm)
  simp only [nestStart, h.runs, hb, hn, hall, hr, beq_self_eq_true, Bool.not_false, Bool.and_self, if_true]
  rfl

end

/-- A whole element of a unit-stride access lies its own number of bytes after the base (R347, R385). -/
theorem place_unit {m : BitVec 5} (hp : mfPacked m = 0) (hs : mfIsScale m = false) (s : State) (e : VEntry) (i : Nat) :
    (VAcc.place ⟨.unit, m, 0⟩ s e i 0).1 = e.xa + e.off + BitVec.ofNat 64 (i * VAcc.bytes ⟨.unit, m, 0⟩ e) := by
  have hbits : VAcc.bits ⟨.unit, m, 0⟩ e = 8 * tyBytes (mfType m e.ty) := by simp only [VAcc.bits, hp, hs]; rfl
  have hbytes : VAcc.bytes ⟨.unit, m, 0⟩ e = tyBytes (mfType m e.ty) := by
    rw [VAcc.bytes, hbits, Nat.mul_div_cancel_left _ (by decide), Nat.max_eq_right (tyBytes_pos _)]
  simp only [VAcc.place, hs, Bool.false_eq_true, if_false, VAcc.fields, VAcc.base, hbits, hbytes, Nat.mul_one, Nat.add_zero]
  rw [Nat.mul_left_comm, Nat.mul_div_cancel_left _ (by decide)]

/-! Positions. -/

/-- The next position counts one dimension up, of which every faster one was at its last and begins again. -/
theorem nextPos_some : ∀ {ds : List NestDim} {ps p : List Nat}, nextPos ds ps = some p →
    ∃ d, p[d]? = ps[d]?.map (· + 1) ∧ d < ps.length ∧ (∀ k, d < k → p[k]? = ps[k]?) ∧
      ∀ k, k < d → p[k]? = some 0 ∧ ∀ (q : Nat) (c : NestDim), ps[k]? = some q → ds[k]? = some c → c.count ≤ q + 1
  | [], _, _, h => by simp [nextPos] at h
  | _ :: _, [], _, h => by simp [nextPos] at h
  | d :: ds, q :: ps, p, h => by
    rw [nextPos] at h
    split at h
    case isTrue hlt =>
      obtain rfl := Option.some.inj h
      refine ⟨0, rfl, Nat.succ_pos _, fun k hk => ?_, nofun⟩
      obtain ⟨j, rfl⟩ := Nat.exists_eq_succ_of_ne_zero (Nat.ne_of_gt hk)
      rfl
    case isFalse hlt =>
      obtain ⟨p', hp', rfl⟩ := Option.map_eq_some_iff.1 h
      obtain ⟨n, hup, hn, hafter, hbefore⟩ := nextPos_some hp'
      refine ⟨n + 1, hup, Nat.succ_lt_succ hn, fun k hk => ?_, fun k hk => ?_⟩
      · obtain ⟨j, rfl⟩ := Nat.exists_eq_succ_of_ne_zero (Nat.ne_of_gt (Nat.zero_lt_of_lt hk))
        exact hafter j (Nat.lt_of_succ_lt_succ hk)
      · cases k with
        | zero =>
          refine ⟨rfl, fun q' c hq hc => ?_⟩
          obtain rfl := Option.some.inj hq
          obtain rfl := Option.some.inj hc
          exact Nat.not_lt.1 hlt
        | succ k => exact hbefore k (Nat.lt_of_succ_lt_succ hk)

/-- After the last position every dimension is at its last. -/
theorem nextPos_none : ∀ {ds : List NestDim} {ps : List Nat}, nextPos ds ps = none →
    ∀ (k q : Nat) (c : NestDim), ps[k]? = some q → ds[k]? = some c → c.count ≤ q + 1
  | [], _, _, _, _, _, _, hc => by simp at hc
  | _ :: _, [], _, _, _, _, hq, _ => by simp at hq
  | d :: ds, p :: ps, h, k, q, c, hq, hc => by
    rw [nextPos] at h
    split at h
    case isTrue => cases h
    case isFalse hlt =>
      cases k with
      | zero =>
        obtain rfl := Option.some.inj hq
        obtain rfl := Option.some.inj hc
        exact Nat.not_lt.1 hlt
      | succ k => exact nextPos_none (Option.map_eq_none_iff.1 h) k q c hq hc

/-- Settles O33: NSET, the captured words, and the positions of a nest. -/
theorem nests : Obligations.Nests := by
  refine ⟨fun s d a b lx => ⟨fun hle => ?set, fun hlt hu => ?count⟩, ⟨fun s k ws lx hf => ⟨fun hok => ?begun, fun hd hu => ?undecoded,
    fun hd hp hu => ?undeclared, fun hd hn hu => ?outside⟩, inNest_iff, fun u c hc hat => ⟨nextWord_captured hc hat, passBody_captured hc hat⟩⟩,
    fun s r rs e es hruns hviq hne hwhole hin => ⟨fun hz hs => ?empty, fun hnz b hb hbn => ?word⟩, fun ds ps _ => ⟨fun p => nextPos_some, nextPos_none⟩⟩
  case set => exact ⟨_, (exec_nset lx d a b).trans (if_neg (Nat.not_lt.2 hle)), rfl⟩
  case count =>
    rw [exec_nset lx, if_pos hlt]
    exact plainTrap_u s _ hu
  case begun => exact ⟨_, exec_nloop_begun lx hf hok, rfl, fun m => nextWord_captured (c := ⟨s.ct.pc + 4, ws⟩) rfl rfl⟩
  case undecoded =>
    rw [exec_nloop_undecoded lx hf hd]
    exact plainTrap_u s _ hu
  case undeclared =>
    rw [exec_nloop_undeclared lx hf hd hp]
    exact plainTrap_u s _ hu
  case outside =>
    rw [exec_nloop_outside lx hf hd hn]
    exact plainTrap_u s _ hu
  case empty =>
    have h : NestAhead s r rs e es := ⟨hruns, hviq, hne, hwhole, hin⟩
    exact ⟨_, vectorStep_emptyNest h hz hs, congrArg (List.drop r.body) hviq, congrArg List.tail hruns, rfl, rfl, rfl⟩
  case word =>
    have h : NestAhead s r rs e es := ⟨hruns, hviq, hne, hwhole, hin⟩
    intro o
    have ho : nestOffset r = o := nestOffset_eq r
    exact ⟨ho ▸ headOf_nestWord h hnz hb, fun m i hp hs => place_unit hp hs s _ i, runs_popHead_word h hbn, fun hlast p => runs_popHead_next h hbn hlast,
      fun hlast hend => ⟨runs_popHead_last h hbn hlast hend, viq_popHead_last h hbn hlast hend⟩, nestStart_first h hbn⟩

end Sys2Proof.Laws

/-!
SUPPORT. The steps of the memory system (R179, R207, R234, R236, R250, R253, R257, R258, R270, Table 9.3), and O50.
-/

namespace Sys2Proof.Laws

open Sys2Proof.Machine

/-! One buffered store. -/

/-- s once its buffered stores are out of the buffer. -/
def unbuffered (s : State) : State := { s with m := { s.m with sbuf := [] } }

section
variable {s : State} {b : BufStore} (hb : s.m.sbuf = [b])
include hb

theorem drainFor_single (hc : Calm (unbuffered s)) {k : Need} (hk : k.store s b = true) : drainFor k s = landStore (unbuffered s) b := by
  have hw : s.m.wcb = [] := hc.wcb
  have hl : s.m.late = [] := hc.late
  have hu : (s.onMem fun m => { m with sbuf := m.sbuf.erase b }) = unbuffered s := by simp [State.onMem, unbuffered, hb]
  have ho : outstanding s = 1 := by simp [outstanding, hb, hw, hl]
  rw [drainFor, ho]
  simp [drainNeed, hb, hk, olderThan, hu]

theorem drainOne_single (hc : Calm (unbuffered s)) (hm : s.mine b = true) : drainOne s 0 = landStore (unbuffered s) b := by
  simp [drainOne, hb, hm, drainWhere, drainFor_single hb hc]

end

theorem lostEither_calm {s : State} (h : Calm s) (pa : Nat) : lostEither s pa = lostHome s pa := by simp [lostEither, lastName_calm h]

/-- What a whole store does as it performs. -/
theorem landStore_calm {s : State} (h : Calm s) {b : BufStore} (hb : b.mask = 0xFF) (hlost : lostHome s b.pa = false) :
    ∃ u, Reached s u ∧ landStore s b = u.setBytes b.pa b.bytes := by
  simp only [landStore, lostEither_calm h, hlost, Bool.false_eq_true, if_false, placeNow_calm h, reopen_calm h, hb]
  exact storeHome_calm h _ _ _ _ _

theorem landStore_lost {s : State} (h : Calm s) {b : BufStore} (hlost : lostHome s b.pa = true) : landStore s b = containTaskId s b.task := by
  rw [landStore, lostEither_calm h, if_pos hlost]

/-- The bytes that a write leaves, seen from a state with the same bytes. -/
theorem setBytes_bytes {s u : State} (hm : u.m.mem = s.m.mem) (h : Memory.wf s.m.mem = true) (pa : Nat) (bs : List Byte) :
    (u.setBytes pa bs).bytesAt pa bs.length = bs ∧ SameBytesOutside s (u.setBytes pa bs) pa bs.length := by
  have hu : Memory.wf u.m.mem = true := hm ▸ h
  constructor
  · refine List.ext_getElem (length_bytesAt ..) fun k h1 h2 => ?_
    rw [bytesAt_getElem, byteAt_setBytes _ _ _ _ hu, dif_pos ⟨by omega, by omega⟩]
    simp
  · intro a ha
    rw [byteAt_setBytes _ _ _ _ hu, dif_neg (by omega)]
    exact congrArg (Memory.byte · a) hm

/-! Packets between dies (R280). -/

/-- t is s after packets between dies. -/
def Packets (s t : State) : Prop := t = { s with dies := t.dies } ∧ SameDies s t

theorem Packets.refl (s : State) : Packets s s := ⟨rfl, fun _ => rfl⟩

theorem Packets.trans {s t u : State} (h : Packets s t) (k : Packets t u) : Packets s u := ⟨k.1.trans (by rw [h.1]), sameDies_trans h.2 k.2⟩

theorem Packets.m {s t : State} (h : Packets s t) : t.m = s.m := by rw [h.1]

theorem packets_packet (s : State) (a b : Nat) : Packets s (packet s a b) := ⟨packet_only s a b, packet_dies s a b⟩

theorem packets_askDie (s : State) (a b : Nat) : Packets s (askDie s a b) := (packets_packet ..).trans (packets_packet ..)

theorem packets_foldl {β : Type} {f : State → β → State} (h : ∀ s b, Packets s (f s b)) (l : List β) (s : State) : Packets s (l.foldl f s) := by
  induction l generalizing s with
  | nil => exact .refl s
  | cons b r ih => exact (h s b).trans (ih _)

/-- What a step does with memory once its packets have crossed. -/
theorem Packets.onMem {s t : State} (h : Packets s t) {f : MemSt → MemSt} {m : MemSt} (hf : f s.m = m) :
    SameDies s (t.onMem f) ∧ t.onMem f = { s with m := m, dies := (t.onMem f).dies } := by
  refine ⟨h.2, ?_⟩
  rw [h.1, ← hf]
  rfl

/-! Translations that go (R234). -/

/-- With no stash line and nothing read ahead, translations go and nothing else. -/
theorem dropTranslations_tlb {s : State} (he : s.m.early = []) (hi : s.m.slines = []) (d : Nat) (hit : List Nat → Bool) (hitTlb : TlbEntry → Bool) :
    SameDies s (dropTranslations s d hit hitTlb) ∧ dropTranslations s d hit hitTlb =
      { s with m := { s.m with tlb := s.m.tlb.filter fun e => !hitTlb e }, dies := (dropTranslations s d hit hitTlb).dies } := by
  have hp : Packets s (askFrom s d ((s.m.tlb.filter hitTlb).map fun e => dieOf e.lcore)) := packets_foldl (fun s e => packets_askDie s d e) _ s
  have hd : dropTranslations s d hit hitTlb = (askFrom s d ((s.m.tlb.filter hitTlb).map fun e => dieOf e.lcore)).onMem fun m =>
      { m with tlb := m.tlb.filter fun e => !hitTlb e } := by
    rw [dropTranslations]
    generalize askFrom s d _ = t at hp ⊢
    simp [State.onMem, hp.m, he, hi]
  rw [hd]
  exact hp.onMem rfl

theorem translationInvalidate_empty {s : State} (hs : s.m.sbuf = []) (hw : s.m.wcb = []) (he : s.m.early = []) (hl : s.m.late = []) (hi : s.m.slines = [])
    (line : Nat) : ∃ t, exec (.translationInvalidate line) s = .next t ∧ SameDies s t ∧
      t = { s with
        m := { s.m with tlb := s.m.tlb.filter fun e => !(e.deps.any fun d => d - d % 64 == line - line % 64) }
        dies := t.dies } := by
  obtain ⟨hd, ht⟩ := dropTranslations_tlb he hi (homeDie (lineOf line)) (fun ds => ds.any fun d => lineOf d == lineOf line)
    (fun e => e.deps.any fun d => lineOf d == lineOf line)
  refine ⟨_, ?_, hd, ht⟩
  change execTranslationInvalidate line s = _
  rw [execTranslationInvalidate, drainFor_empty hs hw hl]

/-- What a buffered store leaves. -/
theorem store_performed {s : State} {b : BufStore} (hc : Calm (unbuffered s)) (hb : b.mask = 0xFF) (hw : Memory.wf s.m.mem = true)
    (hlost : lostHome s b.pa = false) :
    ∃ t, landStore (unbuffered s) b = t ∧ Calm t ∧ t.bytesAt b.pa b.bytes.length = b.bytes ∧
      SameBytesOutside s t b.pa b.bytes.length ∧ SameDies s t ∧
      t = { s.accessed t with m := { (s.accessed t).m with mem := t.m.mem, sbuf := [] } } := by
  obtain ⟨u, hu, hl⟩ := landStore_calm hc hb hlost
  have hbytes := setBytes_bytes (s := s) (u := u) (congrArg MemSt.mem (reached_mem_eq hu) :) hw b.pa b.bytes
  refine ⟨_, hl, calm_setBytes (calm_reached hc hu) _ _, hbytes.1, hbytes.2, hu.2, ?_⟩
  rw [hu.1]
  rfl

theorem storeBufferDrain_single {s : State} {b : BufStore} (hc : Calm (unbuffered s)) (hs : s.m.sbuf = [b]) (hm : s.mine b = true) :
    exec .storeBufferDrain s = .next (landStore (unbuffered s) b) := by
  change Host.Outcome.next (drainOne s 0) = _
  rw [drainOne_single hs hc hm]

theorem storeBufferDrain_none {s : State} (h : ∀ e ∈ s.m.sbuf, s.mine e = false) : exec .storeBufferDrain s = .next s := by
  have hm : s.m.sbuf.filter s.mine = [] := List.filter_eq_nil_iff.2 fun e he => by simp [h e he]
  change Host.Outcome.next (drainOne s 0) = _
  rw [drainOne, hm]
  rfl

/-- The store has been translated through the line. -/
theorem throughLines_single {l : Nat} {deps : List Nat} (h : ∃ d ∈ deps, lineOf d = l) : throughLines [l] deps = true := by
  obtain ⟨d, hd, rfl⟩ := h
  simpa [throughLines] using ⟨d, hd, rfl⟩

theorem translationInvalidate_single {s : State} {b : BufStore} (hc : Calm (unbuffered s)) (hs : s.m.sbuf = [b])
    (hcalm : Calm (landStore (unbuffered s) b)) {line : Nat} (hd : ∃ d ∈ b.deps, lineOf d = lineOf line) :
    exec (.translationInvalidate line) s = .next (landStore (unbuffered s) b) := by
  change execTranslationInvalidate line s = _
  rw [execTranslationInvalidate, drainFor_single hs hc (throughLines_single hd), dropTranslations_calm hcalm]

/-- Containing the acting task, among the other contexts. -/
theorem containTaskId_ct (s : State) : (containTaskId s s.ct.task.taskid).m = s.m ∧
    (containTaskId s s.ct.task.taskid).ct = { s.ct with ctl := { s.ct.ctl with contain := true } } := by
  constructor
  · rfl
  · exact if_pos rfl

theorem storeBufferDrain_lost {s : State} {b : BufStore} (hc : Calm (unbuffered s)) (hs : s.m.sbuf = [b]) (hlost : lostHome s b.pa = true)
    (hm : s.mine b = true) (ht : s.ct.task.taskid = b.task) :
    ∃ t, exec .storeBufferDrain s = .next t ∧ t.m = { s.m with sbuf := [] } ∧ t.ct = { s.ct with ctl := { s.ct.ctl with contain := true } } := by
  refine ⟨_, storeBufferDrain_single hc hs hm, ?_⟩
  rw [landStore_lost hc hlost, ← ht]
  exact containTaskId_ct (unbuffered s)

/-! Writebacks (R207, log entries 79 and 116). -/

theorem settle_empty {s : State} (h : s.m.chains = []) (pa n : Nat) : settle s pa n = s := by simp [settle, h]

/-- A step whose packets cross and that then changes memory alone. -/
def Sends (i : Instr) (s : State) (m : MemSt) : Prop := ∃ t, exec i s = .next t ∧ SameDies s t ∧ t = { s with m := m, dies := t.dies }

theorem Packets.sends {s t : State} (h : Packets s t) {i : Instr} {f : MemSt → MemSt} {m : MemSt} (hi : exec i s = .next (t.onMem f)) (hf : f s.m = m) :
    Sends i s m := ⟨_, hi, h.onMem hf⟩

theorem any_line {l : List (Nat × Nat)} {x : Nat} : l.any (fun o => o.1 == x) = true ↔ ∃ o ∈ l, o.1 = x := by simp

theorem any_line_false {l : List (Nat × Nat)} {x : Nat} : l.any (fun o => o.1 == x) = false ↔ ∀ o ∈ l, o.1 ≠ x := by simp

/-- What a writeback does with memory: the buffered line goes, or the owned one enters the buffer, or the race record of one that nobody owns goes. -/
def writtenBack (l : Nat) (m : MemSt) : MemSt :=
  if m.wbuf.any (fun o => o.1 == l) then { m with wbuf := m.wbuf.filter fun o => !(o.1 == l) }
  else if m.owners.any (fun o => o.1 == l) then
    { m with wbuf := m.wbuf ++ m.owners.filter (fun o => o.1 == l), owners := m.owners.filter fun o => !(o.1 == l) }
  else { m with races := m.races.filter fun r => !(r.1 == l) }

section
variable {s : State} (hch : s.m.chains = []) (line : Nat)
include hch

theorem writebackForward_sends : Sends (.writebackForward line) s { s.m with wbuf := s.m.wbuf.filter fun o => o.1 != lineOf line } := by
  refine (packets_foldl
    (fun s (o : Nat × Nat) => (packets_askDie s (homeDie (lineOf line)) (o.2 / 8)).trans (packets_packet _ (homeDie (lineOf line)) (o.2 / 8)))
    (s.m.wbuf.filter fun o => o.1 == lineOf line) s).sends (f := fun m => { m with wbuf := m.wbuf.filter fun o => o.1 != lineOf line }) ?_ rfl
  change execWritebackForward line s = _
  rw [execWritebackForward, settle_empty hch]

theorem dirtyWriteback_sends : Sends (.dirtyWriteback line) s (writtenBack (lineOf line) s.m) := by
  refine (packets_foldl (f := fun (t : State) (o : Nat × Nat) =>
      if s.m.wbuf.any (fun o => o.1 == lineOf line) then packet t (homeDie (lineOf line)) (o.2 / 8) else packet t (o.2 / 8) (homeDie (lineOf line)))
    (fun t o => ?_) ((if s.m.wbuf.any (fun o => o.1 == lineOf line) then s.m.wbuf else s.m.owners).filter fun o => o.1 == lineOf line) s).sends
      (f := writtenBack (lineOf line)) ?_ rfl
  · split
    · exact packets_packet ..
    · exact packets_packet ..
  · change execDirtyWriteback line s = _
    rw [execDirtyWriteback, settle_empty hch]
    rfl

theorem dirtyWriteback_unowned (hw : ∀ o ∈ s.m.wbuf, o.1 ≠ lineOf line) (ho : ∀ o ∈ s.m.owners, o.1 ≠ lineOf line) :
    exec (.dirtyWriteback line) s = .next { s with m := { s.m with races := s.m.races.filter fun r => r.1 != lineOf line } } := by
  have hnone : s.m.owners.filter (fun o => o.1 == lineOf line) = [] := List.filter_eq_nil_iff.2 fun o h => by simp [ho o h]
  have hw := any_line_false.2 hw
  have ho := any_line_false.2 ho
  change execDirtyWriteback line s = _
  rw [execDirtyWriteback, settle_empty hch]
  dsimp only
  rw [hw, if_neg Bool.false_ne_true, hnone, List.foldl_nil, State.onMem, hw, ho]
  rfl

end

theorem writtenBack_buffered {l : Nat} {m : MemSt} (h : ∃ o ∈ m.wbuf, o.1 = l) :
    writtenBack l m = { m with wbuf := m.wbuf.filter fun o => o.1 != l } := by
  rw [writtenBack, if_pos (any_line.2 h)]
  rfl

theorem writtenBack_owned {l : Nat} {m : MemSt} (h : ∀ o ∈ m.wbuf, o.1 ≠ l) (ho : ∃ o ∈ m.owners, o.1 = l) : writtenBack l m =
    { m with wbuf := m.wbuf ++ m.owners.filter (fun o => o.1 == l), owners := m.owners.filter fun o => o.1 != l } := by
  rw [writtenBack, any_line_false.2 h, if_neg Bool.false_ne_true, if_pos (any_line.2 ho)]
  rfl

/-! A stash line that is read or written elsewhere (Table 9.3). -/

/-- The state of a line after another access of its global line. -/
def syncState (write : Bool) : SLineState := if write then .mapped else .clean

theorem Packets.flushed {s t : State} (h : Packets s t) : Flushed s t := ⟨h.1.trans (by rw [h.m]), h.2⟩

/-- A DIRTY line that an access by another name finds is written back, and its home and its stash exchange packets. -/
theorem syncStash_single {s : State} {x : SLine} (hs : s.m.slines = [x]) (hx : x.state = .dirty) (write : Bool) :
    Packets (cleaned (syncState write) s x) (syncStash s x.pa write) := by
  have he : syncStash s x.pa write = (askDie (s.writeBackLine x) (homeDie x.pa) (homeDie x.at_)).onMem fun m =>
      { m with slines := putSLine m.slines { x with state := syncState write } } := by
    rw [syncStash, hs]
    simp [hx, syncState]
  obtain ⟨hd, ht⟩ := (packets_askDie (s.writeBackLine x) (homeDie x.pa) (homeDie x.at_)).onMem
    (f := fun m => { m with slines := putSLine m.slines { x with state := syncState write } }) rfl
  rw [he]
  exact ⟨ht, hd⟩

theorem syncStash_dirty {s : State} {x : SLine} (hs : s.m.slines = [x]) {l : Nat} (hpa : x.pa = l) (hx : x.state = .dirty) (hw : Memory.wf s.m.mem = true)
    (hc : s.m.chains = []) (hp : s.m.poison = []) (hlost : lostHome s x.pa = false) (write : Bool) :
    let t := syncStash s l write
    (∀ k, k < 64 → t.byteAt (x.pa + k) = s.byteAt (x.at_ + k)) ∧ SameBytesOutside s t x.pa 64 ∧ SameDies s t ∧
      t = { s with
        m := { s.m with mem := t.m.mem, slines := [{ x with state := syncState write }] }
        dies := t.dies } := by
  subst hpa
  intro t
  have ht : Packets (cleaned (syncState write) s x) t := syncStash_single hs hx write
  have hf : Flushed s t := (flushed_cleaned hx hc hp hlost _).trans ht.flushed
  have hb (a : Nat) : t.byteAt a = _ := (congrArg (Memory.byte · a) (congrArg MemSt.mem ht.m)).trans (byteAt_cleaned hx hc hp hlost _ hw a)
  have hl : t.m.slines = [{ x with state := syncState write }] := by
    rw [ht.m, slines_cleaned hx hc hp hlost, hs]
    simp [putSLine]
  refine ⟨fun k hk => ?_, fun a ha => ?_, hf.2, ?_⟩
  · rw [hb, if_pos ⟨by omega, by omega⟩]
    congr 1
    omega
  · rw [hb, if_neg (by omega)]
  · rw [← hl]
    exact hf.1

/-! An update that joins its chain (R250, R253, R258). -/

theorem reached_takeHostLine (s : State) (pa : Nat) : Reached s (takeHostLine s pa) := by
  unfold takeHostLine
  split
  · exact reached_mem s s.m.owners s.m.copies _
  · exact reached_refl s

/-- The state after a line has been recalled. -/
def recalled (s : State) (pa : Nat) : State := takeHostLine (l1Write s .recall (lineOf pa)) pa

theorem reached_recalled (s : State) (pa : Nat) : Reached s (recalled s pa) := reached_trans (reached_l1Write ..) (reached_takeHostLine ..)

theorem recallLine_calm {s : State} (h : Calm s) (by_ : By) (pa : Nat) : recallLine s by_ .recall pa = recalled s pa := by
  rw [recallLine, reopen_calm h, readyLine_calm h, recalled]

/-- A recalled line has no holder. -/
theorem recalled_holders (s : State) (pa : Nat) :
    (∀ o ∈ (recalled s pa).m.owners, o.1 ≠ lineOf pa) ∧ (∀ c ∈ (recalled s pa).m.copies, c.2 ≠ lineOf pa) := by
  have hh (t : State) : (takeHostLine t pa).m.owners = t.m.owners ∧ (takeHostLine t pa).m.copies = t.m.copies := by
    unfold takeHostLine
    split <;> exact ⟨rfl, rfl⟩
  obtain ⟨ho, hc⟩ := hh (l1Write s .recall (lineOf pa))
  rw [recalled, ho, hc]
  constructor
  · intro o h
    have := (List.mem_filter.1 h).2
    simpa using this
  · intro o h
    have := (List.mem_filter.1 h).2
    simpa using this

theorem noteHeld_none {u : Update} (hu : u.held = none) (s : State) (dw : Nat) : noteHeld s dw u = s := by rw [noteHeld, hu]

/-- An update that is not held begins the chain of its doubleword. -/
theorem joinChain_calm {s : State} (h : Calm s) {u : Update} (hu : u.held = none) (by_ : By) :
    joinChain s by_ .recall u = (recalled s u.addr).onMem fun m => { m with chains := [(u.addr - u.addr % 8, [u])] } := by
  have hc := calm_reached h (reached_recalled s u.addr)
  simp only [joinChain, drainTranslated_calm h, placeNow_calm h, recallLine_calm h, markEarly_calm hc, noteHeld_none hu, State.onMem, hc.chains,
    List.any_nil, Bool.false_eq_true, if_false, List.nil_append]
  rw [if_neg]
  simp [heldCount, hu]

theorem updateArrival_lost {s : State} {u : Update} (h : lostHome s u.addr = true) : exec (.updateArrival u) s = .next s := by
  change execUpdateArrival u s = _
  rw [execUpdateArrival, if_pos h]

theorem settleDword_empty {s : State} (h : s.m.chains = []) (dw : Nat) : settleDword s dw = s := by simp [settleDword, h]

theorem updateArrival_calm {s : State} (h : Calm s) {u : Update} (hu : u.held = none) (hlost : lostHome s u.addr = false) :
    ∃ t, exec (.updateArrival u) s = .next t ∧ (∀ o ∈ t.m.owners, o.1 ≠ u.addr - u.addr % 64) ∧
      (∀ c ∈ t.m.copies, c.2 ≠ u.addr - u.addr % 64) ∧
      SameDies s t ∧ t = { s.accessed t with m := { (s.accessed t).m with chains := [(u.addr - u.addr % 8, [u])] } } := by
  have hp := reached_packet s (dieOf u.lcore) (homeDie u.addr)
  have hc := calm_reached h hp
  obtain ⟨ho, hcp⟩ := recalled_holders (packet s (dieOf u.lcore) (homeDie u.addr)) u.addr
  have hr := reached_trans hp (reached_recalled (packet s (dieOf u.lcore) (homeDie u.addr)) u.addr)
  refine ⟨(recalled (packet s (dieOf u.lcore) (homeDie u.addr)) u.addr).onMem fun m => { m with chains := [(u.addr - u.addr % 8, [u])] }, ?_,
    ho, hcp, hr.2, ?_⟩
  · change execUpdateArrival u s = _
    simp only [execUpdateArrival, hlost, Bool.false_eq_true, if_false, hu, settleDword_empty hc.chains, joinChain_calm hc hu]
  · rw [State.onMem, hr.1]
    rfl

/-! A chain that is applied (R253, R257, R258). -/

/-- Where no fill has registered the line, no fill is told of a write to it. -/
theorem markSource_nofills {s : State} (ht : ∀ t ∈ s.threads, t.mx.fills = []) (hs : ∀ t ∈ s.pkg.saved, t.mx.fills = [])
    (hp : ∀ p ∈ s.pkg.parked, p.fills = []) (line : Nat) : markSource s line = s := by
  have hctx : (s.threads ++ s.pkg.saved).filter (fun t => t.mx.fills.any fun r => r.lines.contains line && !r.written) = [] :=
    List.filter_eq_nil_iff.2 fun t hm => by simp [(List.mem_append.1 hm).elim (ht t) (hs t)]
  have hpark : s.pkg.parked.filter (fun p => p.fills.any fun r => r.lines.contains line && !r.written) = [] :=
    List.filter_eq_nil_iff.2 fun p hm => by simp [hp p hm]
  simp only [markSource, hctx, hpark, List.map_nil, List.append_nil, List.isEmpty_nil, Bool.not_true, Bool.false_eq_true, if_false]

/-- s once its chains are applied. -/
def unchained (s : State) : State := { s with m := { s.m with chains := [] } }

section
variable {s : State} (hc : Calm (unchained s))
include hc

theorem readyLine_unchained (by_ : By) (line : Nat) : readyLine s by_ .recall line = l1Write s .recall line := by
  have hi : s.m.slines = [] := hc.slines
  have ht : s.m.tlb = [] := hc.tlb
  have he : s.m.early = [] := hc.early
  have hh : (l1Write s .recall line).m.hostShared = [] := by
    rw [(reached_l1Write s .recall line).1]
    exact hc.hostShared
  have hm : markSource s line = s := markSource_nofills (s := s) hc.fills hc.savedFills hc.parkedFills line
  simp [readyLine, hi, ht, he, hm, endHostCopy, hh]

/-- The chain of a doubleword that is alone is applied once its line has been recalled. -/
theorem settleDword_alone {d : Nat} {us : List Update} (hch : s.m.chains = [(d, us)]) :
    ∃ u, Reached s u ∧ settleDword s d = (orderChain us).foldl applyUpdate (unchained u) := by
  have hr := reached_l1Write s .recall (lineOf d)
  have hu : (l1Write s .recall (lineOf d)).m.chains = [(d, us)] := by
    rw [hr.1]
    exact hch
  refine ⟨_, hr, ?_⟩
  rw [settleDword, if_pos (by simp [hch]), readyLine_unchained hc, applyChain, hu]
  simp [State.onMem, unchained, hu]

end

theorem applyUpdate_calm {s : State} (h : s.m.early = []) (u : Update) : applyUpdate s u = s.setBytes u.addr
    (toBytes (amoBytes u.width) (atomicOp u.op (amoType u.width) (s.numAt u.addr (amoBytes u.width)) u.value.toNat).1) := by
  simp [applyUpdate, markEarly, h]

theorem numAt_mem {s t : State} (h : t.m.mem = s.m.mem) (pa n : Nat) : t.numAt pa n = s.numAt pa n := congrArg (fun m => leNat (Memory.bytes m pa n)) h

theorem byteAt_mem {s t : State} (h : t.m.mem = s.m.mem) (a : Nat) : t.byteAt a = s.byteAt a := congrArg (Memory.byte · a) h

/-- The state after updates of memory that began with chains alone outstanding. -/
def Applied (s t : State) : Prop := SameDies s t ∧ t = { s.accessed t with m := { (s.accessed t).m with mem := t.m.mem, chains := [] } }

theorem applied_reached {s u : State} (h : Reached s u) : Applied s (unchained u) := by
  refine ⟨h.2, ?_⟩
  rw [h.1]
  rfl

theorem Applied.setBytes {s t : State} (h : Applied s t) (pa : Nat) (bs : List Byte) : Applied s (t.setBytes pa bs) := by
  refine ⟨h.1, ?_⟩
  rw [h.2]
  rfl

theorem Applied.early {s t : State} (h : Applied s t) : t.m.early = s.m.early := by rw [h.2]; rfl

/-- One update sets its bytes. -/
theorem applyUpdate_set {s : State} (he : s.m.early = []) (hw : Memory.wf s.m.mem = true) (u : Update) : BytesSet s (applyUpdate s u) u.addr
    (amoBytes u.width) (atomicOp u.op (amoType u.width) (s.numAt u.addr (amoBytes u.width)) u.value.toNat).1 := by
  rw [applyUpdate_calm he]
  exact bytesSet_setBytes s _ _ _ hw

theorem Applied.applyUpdate {s t : State} (h : Applied s t) (he : s.m.early = []) (u : Update) : Applied s (applyUpdate t u) := by
  rw [applyUpdate_calm (h.early.trans he)]
  exact h.setBytes _ _

theorem orderChain_single {u : Update} (hu : u.held = none) : orderChain [u] = [u] := by simp [orderChain, hu, sortBy]

/-- Held updates are applied in the order of their tags (R257). -/
theorem orderChain_pair {u w : Update} {a b : HeldTag} (hu : u.held = some a) (hw : w.held = some b) (h : a.interval < b.interval) :
    orderChain [w, u] = [u, w] := by
  have hle : updLe w u = false := by simp [updLe, hu, hw, tagLe, Nat.ne_of_gt h, Nat.le_of_lt h]
  simp [orderChain, hu, hw, sortBy, insertBy, hle]

section
variable {s : State} {dw : Nat} (hw : Memory.wf s.m.mem = true) (hc : Calm (unchained s))
include hw hc

theorem chainApply_single {u : Update} (hch : s.m.chains = [(dw - dw % 8, [u])]) (hu : u.held = none) :
    ∃ t, exec (.chainApply dw) s = .next t ∧
      BytesSet s t u.addr (amoBytes u.width) (atomicOp u.op (amoType u.width) (s.numAt u.addr (amoBytes u.width)) u.value.toNat).1 ∧ Applied s t := by
  obtain ⟨v, hv, hs⟩ := settleDword_alone hc hch
  have ha := applied_reached hv
  have hmem : (unchained v).m.mem = s.m.mem := by rw [hv.1]; rfl
  have hset := applyUpdate_set (ha.early.trans hc.early) (hmem ▸ hw) u
  rw [numAt_mem hmem] at hset
  rw [orderChain_single hu] at hs
  refine ⟨_, ?_, bytesSet_congr hset (byteAt_mem hmem) fun a => rfl, ha.applyUpdate hc.early u⟩
  change execChainApply dw s = _
  rw [execChainApply, if_pos (by simp [heldCount, hch, hu]), hs]
  rfl

/-- Two held updates of one word are applied in the order of their tags, and an early application is counted. -/
theorem chainApply_pair {u w : Update} {a b : HeldTag} (hch : s.m.chains = [(dw - dw % 8, [w, u])]) (hu : u.held = some a) (hw' : w.held = some b)
    (hab : a.interval < b.interval) (haddr : u.addr = w.addr) (hwidth : u.width = w.width) :
    let n := amoBytes u.width
    let first := (atomicOp u.op (amoType u.width) (s.numAt u.addr n) u.value.toNat).1 % 2 ^ (8 * n)
    ∃ t, exec (.chainApply dw) s = .next (countEvent t (homeDie (dw - dw % 8)) 1) ∧
      BytesSet s t u.addr n (atomicOp w.op (amoType u.width) first w.value.toNat).1 ∧ Applied s t := by
  intro n first
  obtain ⟨v, hv, hs⟩ := settleDword_alone hc hch
  have ha := applied_reached hv
  have hmem : (unchained v).m.mem = s.m.mem := by rw [hv.1]; rfl
  have hwv : Memory.wf (unchained v).m.mem = true := hmem ▸ hw
  have hset := applyUpdate_set (ha.early.trans hc.early) hwv u
  have ha1 := ha.applyUpdate hc.early u
  have hlast := applyUpdate_set (ha1.early.trans hc.early) (wf_applyUpdate _ _ hwv) w
  have hfirst := numAt_bytesSet hset
  rw [show 256 ^ amoBytes u.width = 2 ^ (8 * n) by rw [Nat.pow_mul], numAt_mem hmem] at hfirst
  rw [← haddr, ← hwidth, hfirst] at hlast
  rw [orderChain_pair hu hw' hab] at hs
  refine ⟨_, ?_, ⟨hlast.1, fun x hx => (hlast.2 x hx).trans ((hset.2 x hx).trans (byteAt_mem hmem x))⟩, ha1.applyUpdate hc.early w⟩
  change execChainApply dw s = _
  rw [execChainApply, if_neg (by simp [heldCount, hch, hu, hw']), hs]
  rfl

end

/-! Counters of Electrum (R278). -/

theorem deviceDie_lt (pa : Nat) : deviceDie pa < 4 := by
  simp only [deviceDie]
  split <;> omega

theorem dram_lt {pa d : Nat} (h : homeOf pa = .dram d) : d < 4 := by
  unfold homeOf at h
  split_ifs at h
  obtain rfl := Home.dram.inj h
  omega

theorem stash_lt {pa n o : Nat} (h : homeOf pa = .stash n o) : n < 128 := by
  unfold homeOf at h
  split_ifs at h
  obtain ⟨rfl, -⟩ := Home.stash.inj h
  omega

theorem homeDie_lt (pa : Nat) : homeDie pa < 4 := by
  unfold homeDie
  split
  next d h => exact dram_lt h
  next n o h => exact Nat.div_lt_of_lt_mul (stash_lt h)
  next => exact deviceDie_lt pa
  next => decide

theorem die_countEvent (s : State) {d : Nat} (hd : d < 4) (k j : Nat) : (countEvent s d k).die j =
    if j = d then { s.die d with el := { s.el d with counts := (s.el d).counts.setIfInBounds k (((s.el d).counts[k]?).getD 0 + 1) } } else s.die j :=
  die_onDie s d j _ hd

/-- The counter goes up by one. -/
theorem count_countEvent (s : State) {d k : Nat} (hd : d < 4) (hk : k < 4) :
    ((countEvent s d k).el d).counts.toList.getD k 0 = (s.el d).counts.toList.getD k 0 + 1 := by
  have he : (countEvent s d k).el d = { s.el d with counts := (s.el d).counts.setIfInBounds k (((s.el d).counts[k]?).getD 0 + 1) } :=
    congrArg Die.el ((die_countEvent s hd k d).trans (if_pos rfl))
  rw [he]
  simp [List.getD, hk]

theorem countEvent_only (s : State) (d k : Nat) : countEvent s d k = { s with dies := (countEvent s d k).dies } :=
  onDie_only s d fun x => { x with el := { x.el with counts := x.el.counts.setIfInBounds k ((x.el.counts[k]?).getD 0 + 1) } }

/-! What a walk reaches (R226 to R230, R236). -/

/-- t is s after entries have been read: lines may have changed hands, and free values may have been taken. -/
def Fetched (s t : State) : Prop := t = { s.accessed t with fresh := t.fresh } ∧ SameDies s t

theorem Fetched.refl (s : State) : Fetched s s := ⟨rfl, fun _ => rfl⟩

theorem fetched_reached {s t : State} (h : Reached s t) : Fetched s t := by
  refine ⟨?_, h.2⟩
  rw [h.1]
  rfl

theorem Fetched.trans {s t u : State} (h : Fetched s t) (k : Fetched t u) : Fetched s u := ⟨k.1.trans (by rw [h.1]; rfl), sameDies_trans h.2 k.2⟩

theorem Fetched.calm {s t : State} (h : Fetched s t) (hc : Calm s) : Calm t := by
  refine calm_of hc ?_ ?_ ?_ ?_ ?_
  all_goals rw [h.1]
  exacts [rfl, (fills_nil hc :), rfl, hc.savedFills, hc.parkedFills]

/-- Where nothing is in flight, f fetches alone. -/
def Fetches {α : Type} (f : State → Res α) : Prop := ∀ (s t : State) (x : α), Calm s → f s = .ok x t → Fetched s t

theorem Fetches.andThen {α β : Type} {f : State → Res α} {g : α → State → Res β} (hf : Fetches f) (hg : ∀ a, Fetches (g a)) :
    Fetches fun s => (f s).andThen g := by
  intro s t x hc h
  dsimp only at h
  cases hs : f s with
  | ok a u =>
    rw [hs] at h
    have hu := hf s u a hc hs
    exact hu.trans (hg a u t x (hu.calm hc) h)
  | trap r u => rw [hs] at h; cases h
  | wait w u => rw [hs] at h; cases h
  | gone u => rw [hs] at h; cases h

theorem fetches_atHome (pa : Nat) : Fetches (atHome pa) := fun s _ _ _ h => atHome_ok h ▸ .refl s

theorem fetches_readPte (b : By) (at_ : Nat) : Fetches fun s => readPte s b at_ := by
  refine (fetches_atHome at_).andThen fun _ s _ x hc h => ?_
  have hr := reached_askBy s b at_
  simp only [readHome_calm (calm_reached hc hr), Res.ok.injEq] at h
  exact h.2 ▸ fetched_reached hr

theorem fetched_groupEntry {s : State} (h : Calm s) (b : By) (table idx : Nat) (e : Word) : Fetched s (groupEntry s b table idx e).2.2 := by
  unfold groupEntry
  simp only [readyRead_calm h]
  split
  · exact .refl s
  · exact ⟨rfl, fun _ => rfl⟩

theorem fetches_entryAt (b : By) (va : Word) (n table : Nat) : Fetches (entryAt b va n table) := by
  refine (fetches_readPte b _).andThen fun e s t x hc h => ?_
  split at h
  · cases h
    exact fetched_groupEntry hc ..
  · cases h
    exact .refl s

theorem fetches_walkFrom (b : By) (va : Word) : ∀ (n table : Nat) (deps : List Nat), Fetches (walkFrom b va n table deps)
  | 0, table, deps => (fetches_entryAt b va 0 table).andThen fun p s t x hc h => by
    cases h
    exact .refl s
  | n + 1, table, deps => (fetches_entryAt b va (n + 1) table).andThen fun p s t x hc h => by
    split at h
    · cases h
      exact .refl s
    · exact fetches_walkFrom b va n _ _ s t x hc h

/-! A prefetch (R236, log entry 128). -/

/-- The dies of t are those of s but for causal counters and counts. -/
def SameCounted (s t : State) : Prop := ∀ k, t.die k = { s.die k with causal := (t.die k).causal, el := { (s.die k).el with counts := (t.el k).counts } }

theorem sameCounted_sameDies {s t : State} (h : SameDies s t) : SameCounted s t := fun k => by
  have he : t.el k = s.el k := (congrArg Die.el (h k) :)
  rw [he]
  exact h k

theorem sameCounted_countEvent (s : State) {d : Nat} (hd : d < 4) (k : Nat) : SameCounted s (countEvent s d k) := fun j => by
  rw [State.el, die_countEvent s hd]
  split
  next hj => subst hj; rfl
  next => rfl

/-- What a prefetch may leave: lines that have changed hands, cached translations, free values taken, and dropped ones counted. -/
def Prefetched (s t : State) (new : List TlbEntry) : Prop :=
  t = { s.accessed t with m := { (s.accessed t).m with tlb := new }, fresh := t.fresh } ∧ SameCounted s t

theorem prefetched_same {s : State} (hc : Calm s) : Prefetched s s [] := by
  refine ⟨?_, fun _ => rfl⟩
  rw [← hc.tlb]
  rfl

theorem prefetched_dropped {s : State} (hc : Calm s) {d : Nat} (hd : d < 4) : Prefetched s (countEvent s d 0) [] := by
  refine ⟨?_, sameCounted_countEvent s hd 0⟩
  rw [countEvent_only, ← hc.tlb]
  rfl

theorem Fetched.prefetched {s t : State} (h : Fetched s t) (new : List TlbEntry) : Prefetched s (t.onMem fun m => { m with tlb := new }) new := by
  refine ⟨?_, sameCounted_sameDies h.2⟩
  rw [h.1]
  rfl

theorem hardwarePrefetch_window {s : State} {va : Word} (h : windowOf va ≠ .global) :
    exec (.hardwarePrefetch va) s = .next (countEvent s (dieOf s.ct.lcore) 0) := by
  change execHardwarePrefetch va s = _
  rw [execHardwarePrefetch, if_pos h]

theorem hardwarePrefetch_global {s : State} (hc : Calm s) (hl : s.ct.lcore < 128) {va : Word} (h : windowOf va = .global) :
    ∃ t new, exec (.hardwarePrefetch va) s = .next t ∧ Prefetched s t new := by
  have hd : dieOf s.ct.lcore < 4 := by unfold dieOf; omega
  change ∃ t new, execHardwarePrefetch va s = _ ∧ _
  rw [execHardwarePrefetch, if_neg (not_not_intro h)]
  split
  next p u hp =>
    split
    next e at_ n deps v hw =>
      split
      · exact ⟨_, _, rfl, prefetched_same hc⟩
      · have hf := (fetches_walkFrom s.ctx.by_ va 3 _ _ s v _ hc hw).trans (fetched_reached (reached_l1Read v p.cached s.ct.lcore p.pa))
        exact ⟨_, _, rfl, hf.prefetched _⟩
    next => exact ⟨_, _, rfl, prefetched_same hc⟩
  next => exact ⟨_, _, rfl, prefetched_dropped hc hd⟩
  next => exact ⟨_, _, rfl, prefetched_same hc⟩

/-- Settles O50: each step of the memory system by its own lemma. -/
theorem memorySystemSteps : Obligations.MemorySystemSteps := by
  unfold Obligations.MemorySystemSteps
  refine ⟨?translations, ?store, ?noStore, ?writebacks, ?stash, ?arrival, ?chain, ?heldChain, ?prefetch⟩
  case translations => exact fun s line hs hw he hl hi => translationInvalidate_empty hs hw he hl hi line
  case store =>
    refine fun s b hc hs hb hw => ⟨fun hlost => ?_, fun hlost hm ht => storeBufferDrain_lost hc hs hlost hm ht⟩
    obtain ⟨t, rfl, hcalm, hput⟩ := store_performed hc hb hw hlost
    exact ⟨fun hm => ⟨_, storeBufferDrain_single hc hs hm, hput⟩, fun line hd => ⟨_, translationInvalidate_single hc hs hcalm hd, hput⟩⟩
  case noStore => exact fun s h => storeBufferDrain_none h
  case writebacks =>
    refine fun s line hch => ⟨writebackForward_sends hch line, fun h => ?_, fun hw ho => ?_, dirtyWriteback_unowned hch line, rfl⟩
    · exact writtenBack_buffered h ▸ dirtyWriteback_sends hch line
    · exact writtenBack_owned hw ho ▸ dirtyWriteback_sends hch line
  case stash =>
    intro s x line hs hx hdirty hw hch hp _ hlost q hq
    have hd := syncStash_dirty hs hx hdirty hw hch hp hlost
    simp only [List.mem_cons, List.not_mem_nil, or_false] at hq
    rcases hq with rfl | rfl
    · exact ⟨_, rfl, hd false⟩
    · exact ⟨_, rfl, hd true⟩
  case arrival => exact fun s u hu => ⟨updateArrival_lost, fun hlost hc => updateArrival_calm hc hu hlost⟩
  case chain => exact fun s u dw hch hc hu hw => chainApply_single hw hc hch hu
  case heldChain =>
    intro s u w a b dw hch hc hu hw hab haddr hwidth hwf
    obtain ⟨t, ht, hset, hdies, happ⟩ := chainApply_pair hwf hc hch hu hw hab haddr hwidth
    have hel : t.el (homeDie (dw - dw % 8)) = s.el (homeDie (dw - dw % 8)) := (congrArg Die.el (hdies _) :)
    have hm : (countEvent t (homeDie (dw - dw % 8)) 1).m = t.m := by rw [countEvent_only]
    refine ⟨_, ht, bytesSet_congr hset (fun _ => rfl) (byteAt_mem (congrArg MemSt.mem hm)), ?_, ?_⟩
    · rw [hm, happ]
    · rw [count_countEvent t (homeDie_lt _) (by decide), hel]
  case prefetch =>
    intro s va hl hc
    by_cases hwin : windowOf va = .global
    · obtain ⟨t, new, ht, hf, hd⟩ := hardwarePrefetch_global hc hl hwin
      exact ⟨t, new, ht, hf, hd, fun h => absurd hwin h⟩
    · have hdie : dieOf s.ct.lcore < 4 := Nat.div_lt_of_lt_mul hl
      obtain ⟨hf, hd⟩ := prefetched_dropped hc hdie
      exact ⟨_, [], hardwarePrefetch_window hwin, hf, hd, fun _ => ⟨count_countEvent s hdie (by decide), rfl⟩⟩

end Sys2Proof.Laws

/-!
SUPPORT. What a job reads, writes and combines where nothing is in flight, one position after another (R185, R187, R269, R284).
-/

namespace Sys2Proof.Laws

open Sys2Proof.Machine

theorem leNat_lt (bs : List Byte) : leNat bs < 256 ^ bs.length := by
  induction bs with
  | nil => exact Nat.one_pos
  | cons b r ih =>
    rw [leNat, List.length_cons, Nat.pow_succ]
    have := b.isLt
    omega

theorem numAt_lt (s : State) (pa n : Nat) : s.numAt pa n < 256 ^ n := by
  have h := leNat_lt (s.bytesAt pa n)
  rwa [length_bytesAt] at h

theorem numAt_one (s : State) (pa : Nat) : s.numAt pa 1 = (s.byteAt pa).toNat := by
  simp [State.numAt, State.bytesAt, Memory.bytes, leNat, State.byteAt]

theorem reached_numAt {s u : State} (h : Reached s u) (pa n : Nat) : u.numAt pa n = s.numAt pa n := numAt_congr fun _ _ => reached_bytes h _

/-- An aligned access is one piece. -/
theorem piecesOf_aligned {va : Word} {n : Nat} (h : va.toNat % n = 0) : piecesOf va n = [(va, n)] := if_pos h

/-- The die that a job's requests are counted on keeps no histogram (R284). -/
def Uncounted (k : Asking) (s : State) : Prop := (s.el (dieOf k.core)).hist = false

theorem Uncounted.sameDies {k : Asking} {s t : State} (h : Uncounted k s) (hd : SameDies s t) : Uncounted k t := by
  have he : t.el (dieOf k.core) = s.el (dieOf k.core) := (congrArg Die.el (hd _) :)
  rw [Uncounted, he]
  exact h

theorem ask_uncounted {k : Asking} {s : State} (h : Uncounted k s) (w : Bool) (ls : List Nat) : ∃ k', k'.core = k.core ∧ k.ask w ls s = (k', s) := by
  refine ⟨(k.ask w ls s).1, rfl, ?_⟩
  rw [Asking.ask, requestLines, h]
  rfl

theorem wrote_clean {s : State} (h : s.m.poison = []) (k : Asking) (pa n : Nat) (mask : Byte) : k.wrote pa n mask s = (k, s) := by simp [Asking.wrote, h]

/-- An access of a job at u comes to a value, and only reaches memory. -/
def Reads {α : Type} (k : Asking) (u : State) (r : Res (Asked α)) (x : α) : Prop := ∃ k' v, k'.core = k.core ∧ Reached u v ∧ r = .ok (x, k') v

/-- An access of a job at u writes bytes, and else only reaches memory. -/
def Writes (k : Asking) (u : State) (r : Res Asking) (pa : Nat) (bs : List Byte) : Prop :=
  ∃ k' v, k'.core = k.core ∧ Reached u v ∧ r = .ok k' (v.setBytes pa bs)

section
variable {u : State} (hc : Calm u) {k : Asking} (hk : Uncounted k u) {cx : Ctx} {va : Word} {n pa : Nat} (ha : va.toNat % n = 0)
include hc hk ha

theorem engineRead_calm (hr : ∃ p : Place, p.pa = pa ∧ resolve cx { kind := 1 } va n u = .ok p u) :
    Reads k u (engineRead cx va n k u) (u.numAt pa n) := by
  obtain ⟨p, rfl, hp⟩ := hr
  have hl := reached_l1Read u false cx.lcore p.pa
  have hcl := calm_reached hc hl
  obtain ⟨k', hk', hask⟩ := ask_uncounted (hk.sameDies hl.2) false (linesOf p.pa n)
  refine ⟨k', _, hk', hl, ?_⟩
  simp only [engineRead, piecesOf_aligned ha, foldRes, hp, Res.andThen, readBytes, readyAt_calm hcl, hask, List.nil_append]
  rw [← reached_numAt hl]
  rfl

theorem engineWrite_calm (hr : ∃ p : Place, p.pa = pa ∧ resolve cx { kind := 2 } va n u = .ok p u) (b : By) (x : Nat) :
    Writes k u (engineWrite cx b va n x k u) pa (toBytes n x) := by
  obtain ⟨p, rfl, hp⟩ := hr
  have hq := reached_askDie u (dieOf cx.lcore) (homeDie p.pa)
  obtain ⟨v, hv, hw⟩ := writeHome_calm (calm_reached hc hq) b p.pa (toBytes n x)
  have hr := reached_trans hq hv
  obtain ⟨k', hk', hask⟩ := ask_uncounted (hk.sameDies (t := v.setBytes p.pa (toBytes n x)) hr.2) true (linesOf p.pa n)
  refine ⟨k', v, hk', hr, ?_⟩
  have hclean : (v.setBytes p.pa (toBytes n x)).m.poison = [] := (calm_reached hc hr).poison
  simp only [engineWrite, piecesOf_aligned ha, foldRes, hp, Res.andThen, roundFrom, BitVec.sub_self, BitVec.toNat_zero, Nat.mul_zero, Nat.pow_zero,
    Nat.div_one, hw, wrote_clean hclean, hask]

end

theorem claimBytes_calm {s : State} (h : Calm s) (b : By) (pa n : Nat) : claimBytes s b .recall pa n = (pa, recalled s pa) := by
  simp only [claimBytes, drainFor_calm h, drainTranslated_calm h, placeNow_calm h, settle_calm h, recallLine_calm h]

theorem engineReduce_calm {u : State} (hc : Calm u) {k : Asking} (hk : Uncounted k u) {cx : Ctx} {va : Word} {w : BitVec 3} {pa : Nat}
    (ha : va.toNat % amoBytes w = 0) (hr : ∃ p : Place, p.pa = pa ∧ resolve cx { kind := 3 } va (amoBytes w) u = .ok p u)
    (b : By) (op : BitVec 3) (x : Nat) :
    Writes k u (engineReduce cx b va w op x k u) pa (toBytes (amoBytes w) (atomicOp op (amoType w) (u.numAt pa (amoBytes w)) x).1) := by
  obtain ⟨p, rfl, hp⟩ := hr
  have hq := reached_askDie u (dieOf cx.lcore) (homeDie p.pa)
  have hv := reached_trans hq (reached_recalled (askDie u (dieOf cx.lcore) (homeDie p.pa)) p.pa)
  obtain ⟨k', hk', hask⟩ := ask_uncounted (hk.sameDies hv.2) true (linesOf p.pa (amoBytes w))
  refine ⟨k', _, hk', hv, ?_⟩
  simp only [engineReduce, piecesOf_aligned ha, foldRes, hp, Res.andThen, roundFrom, claimBytes_calm (calm_reached hc hq), hask, List.nil_append,
    List.length_singleton, if_true, List.zip_cons_cons, List.zip_nil_right, List.foldl_cons, List.foldl_nil, markEarly_calm (calm_reached hc hv),
    List.flatMap_singleton]
  rw [← reached_numAt hv]
  rfl

/-! Formats of whole bytes (R185, Table 9.7). -/

/-- Bytes of one element. -/
abbrev elemBytes (m : BitVec 5) : Nat := fmtBits m / 8

/-- A format of whole bytes. -/
def Whole (m : BitVec 5) : Prop := jobFmtOk m = true ∧ 8 ≤ fmtBits m

theorem Whole.facts {m : BitVec 5} (h : Whole m) : mfPacked m = 0 ∧ fmtBits m = 8 * elemBytes m ∧ 0 < elemBytes m := by
  obtain ⟨-, h⟩ := h
  revert m
  decide

theorem Whole.fmtBytes {m : BitVec 5} (h : Whole m) : fmtBytes m = elemBytes m := by
  obtain ⟨-, -, h⟩ := h.facts
  exact Nat.max_eq_right h

/-- The element that a number names is whole. -/
theorem Whole.elemPlace {m : BitVec 5} (h : Whole m) (base : Word) (i : Int) : elemPlace base m i = (base + BitVec.ofInt 64 (i * elemBytes m), 0) := by
  obtain ⟨-, h, -⟩ := h.facts
  have hb : i * (fmtBits m : Nat) = 8 * (i * elemBytes m) := by rw [h]; push_cast; ring
  rw [Machine.elemPlace, hb, Int.mul_ediv_cancel_left _ (by decide), Int.mul_emod_right]
  rfl

theorem convertFmt_whole {sf df : BitVec 5} (hs : Whole sf) (hd : Whole df) (raw : Nat) :
    convertFmt sf df raw = if sf = df then raw else (convert Rc.rne (mfType sf 0) (mfType df 0) raw).1 := by
  obtain ⟨hs, -, -⟩ := hs.facts
  obtain ⟨hd, -, -⟩ := hd.facts
  simp only [convertFmt, hs, hd, ne_eq, not_true_eq_false, if_false]

/-- An element is as long as the update that combines it. -/
theorem amoBytes_collFmt {m : BitVec 5} {w : BitVec 3} (h : collFmt m = some w) : amoBytes w = elemBytes m := by
  revert m w
  decide

/-- All of an element's bits. -/
theorem natBits_elem {m : BitVec 5} (h : Whole m) {v : Nat} (hv : v < 256 ^ elemBytes m) : natBits v 0 (fmtBits m) = v := by
  obtain ⟨-, h, -⟩ := h.facts
  rw [natBits, h, Nat.pow_mul, Nat.shiftRight_zero]
  exact Nat.mod_eq_of_lt hv

/-! A job of one dimension (R187). -/

theorem Uncounted.step {k k' : Asking} {s t : State} (h : Uncounted k s) (hk : k'.core = k.core) (hd : SameDies s t) : Uncounted k' t := by
  have ht := h.sameDies hd
  rwa [Uncounted, ← hk] at ht

/-- The source element number of a position. -/
def elemNum (s : State) (d : Card) (pidx : Nat → Nat) (i : Nat) : Int :=
  if d.idxf = 0 then i
  else if d.idxf = 2 then s.numAt (pidx i) (idxBytes d.idxf)
  else toSigned (8 * idxBytes d.idxf) (s.numAt (pidx i) (idxBytes d.idxf))

/-- The address of a position's source element. -/
def elemFrom (s : State) (d : Card) (pidx : Nat → Nat) (i : Nat) : Word := d.src + BitVec.ofInt 64 (elemNum s d pidx i * elemBytes d.sfmt)

/-- The address of its destination element. -/
def elemTo (d : Card) (i : Nat) : Word := d.dst + BitVec.ofNat 64 (i * elemBytes d.dfmt)

/-- The address of its index. -/
def elemIdx (d : Card) (i : Nat) : Word := d.idx + BitVec.ofNat 64 (idxBytes d.idxf * i)

/-- The source element of a position, in the destination format. -/
def elemVal (s : State) (d : Card) (psrc : Nat → Nat) (i : Nat) : Nat :=
  if d.sfmt = d.dfmt then s.numAt (psrc i) (elemBytes d.sfmt)
  else (convert Rc.rne (mfType d.sfmt 0) (mfType d.dfmt 0) (s.numAt (psrc i) (elemBytes d.sfmt))).1

/-- The reduction of a card (Table 14.5). -/
def collOp (d : Card) : BitVec 3 := if d.op = 2 then 0 else if d.op = 3 then 2 else 1

/-- A value as it is written at a place, or combined with what it finds there. -/
def elemPut (s : State) (d : Card) (w : BitVec 3) (pa v : Nat) : Nat :=
  if d.op ≤ 1 then v else (atomicOp (collOp d) (amoType w) (s.numAt pa (elemBytes d.dfmt)) v).1

/-- The place of a destination element. -/
abbrev elemAt (d : Card) (pd i : Nat) : Nat := pd + i * elemBytes d.dfmt

/-- The bytes that the job writes. -/
abbrev elemBounds (d : Card) (pd n : Nat) : Nat → Prop := fun x => pd ≤ x ∧ x < pd + n * elemBytes d.dfmt

/-- The accesses of a position are ready. -/
def ElemReady (s : State) (c : Nat) (j : Job) (pd : Nat) (psrc pidx : Nat → Nat) (i : Nat) (s' : State) : Prop :=
  (∃ p : Place, p.pa = psrc i ∧ resolve (j.ctx c) { kind := 1 } (elemFrom s j.card pidx i) (elemBytes j.card.sfmt) s' = .ok p s') ∧
  (∃ p : Place, p.pa = elemAt j.card pd i ∧
    resolve (j.ctx c) { kind := if j.card.op ≤ 1 then 2 else 3 } (elemTo j.card i) (elemBytes j.card.dfmt) s' = .ok p s') ∧
  (j.card.idxf ≠ 0 → ∃ p : Place, p.pa = pidx i ∧ resolve (j.ctx c) { kind := 1 } (elemIdx j.card i) (idxBytes j.card.idxf) s' = .ok p s')

/-- A job of n positions, whose elements and indices are aligned, within its regions, ready, and apart from what it writes. -/
structure Movable (s : State) (c : Nat) (j : Job) (n pd : Nat) (psrc pidx : Nat → Nat) (w : BitVec 3) : Prop where
  calm : Calm s
  wf : Memory.wf s.m.mem = true
  hist : (s.el (dieOf c)).hist = false
  ndim : j.card.ndim = 1
  cnt : j.card.cnt = [n, 0, 0, 0, 0, 0]
  sfmt : Whole j.card.sfmt
  dfmt : Whole j.card.dfmt
  coll : 2 ≤ j.card.op → collFmt j.card.dfmt = some w
  source : ∀ i, i < n → (elemFrom s j.card pidx i).toNat % elemBytes j.card.sfmt = 0 ∧
    inRegions (j.ctx c) j.card false (elemFrom s j.card pidx i) (elemBytes j.card.sfmt) = true ∧
    (psrc i + elemBytes j.card.sfmt ≤ pd ∨ pd + n * elemBytes j.card.dfmt ≤ psrc i)
  dest : ∀ i, i < n → (elemTo j.card i).toNat % elemBytes j.card.dfmt = 0 ∧
    inRegions (j.ctx c) j.card true (elemTo j.card i) (elemBytes j.card.dfmt) = true
  index : j.card.idxf ≠ 0 → ∀ i, i < n → (elemIdx j.card i).toNat % idxBytes j.card.idxf = 0 ∧
    (pidx i + idxBytes j.card.idxf ≤ pd ∨ pd + n * elemBytes j.card.dfmt ≤ pidx i)
  resolves : ∀ i s', i < n → Along (elemBounds j.card pd n) s s' → ElemReady s c j pd psrc pidx i s'

/-- u is s once the job has moved its first positions: their elements are written, and else memory was only reached. -/
structure Progress (s : State) (d : Card) (pd : Nat) (psrc : Nat → Nat) (w : BitVec 3) (pos : Nat) (u : State) : Prop where
  stored : Stored s u
  wf : Memory.wf u.m.mem = true
  outside : SameBytesOutside s u pd (pos * elemBytes d.dfmt)
  done : ∀ i, i < pos → u.numAt (elemAt d pd i) (elemBytes d.dfmt) = elemPut s d w (elemAt d pd i) (elemVal s d psrc i) % 2 ^ (8 * elemBytes d.dfmt)

/-- States that differ from s in bytes, as stores leave them. -/
theorem along_stored {may : Nat → Prop} {s u : State} (h : Stored s u) (hb : ∀ a, ¬ may a → u.byteAt a = s.byteAt a) : Along may s u :=
  ⟨⟨s.ct.x, s.ct.vec, s.ct.fp, s.ct.ord, s.ct.ctl, u.m.mem, u.m.owners, u.m.copies, s.m.races, u.m.cxlHeld, u.dies, s.fresh, h.1⟩,
    fun d => (congrArg Die.fenced (h.2 d) :), hb⟩

/-- Bytes apart from those that may have changed hold the number they held. -/
theorem numAt_outside {s t : State} {lo len : Nat} (h : SameBytesOutside s t lo len) {pa n : Nat} (ha : pa + n ≤ lo ∨ lo + len ≤ pa) :
    t.numAt pa n = s.numAt pa n := numAt_congr fun k hk => h _ (by omega)

section
variable {s u : State} {c : Nat} {j : Job} {n pd i : Nat} {psrc pidx : Nat → Nat} {w : BitVec 3}

theorem Progress.reached {v : State} {d : Card} (h : Progress s d pd psrc w i u) (hr : Reached u v) : Progress s d pd psrc w i v where
  stored := h.stored.trans (stored_reached hr)
  wf := by rw [hr.1]; exact h.wf
  outside := fun a ha => (reached_bytes hr a).trans (h.outside a ha)
  done := fun i hi => (reached_numAt hr _ _).trans (h.done i hi)

/-- What lies outside the bytes that the job writes is there still. -/
theorem Progress.outside_all {d : Card} (hp : Progress s d pd psrc w i u) (hi : i < n) : SameBytesOutside s u pd (n * elemBytes d.dfmt) := fun a ha =>
  hp.outside a (by
    have := Nat.mul_le_mul_right (elemBytes d.dfmt) (Nat.le_of_lt hi)
    omega)

theorem Progress.ready (hm : Movable s c j n pd psrc pidx w) (hp : Progress s j.card pd psrc w i u) (hi : i < n) : ElemReady s c j pd psrc pidx i u :=
  hm.resolves i u hi (along_stored hp.stored fun a ha => hp.outside_all hi a (by
    simp only [elemBounds] at ha
    omega))

/-- The element of the next position is written. -/
theorem Progress.write {d : Card} (hp : Progress s d pd psrc w i u) : Progress s d pd psrc w (i + 1) (u.setBytes (elemAt d pd i)
    (toBytes (elemBytes d.dfmt) (elemPut u d w (elemAt d pd i) (elemVal s d psrc i)))) := by
  have hold : elemPut u d w (elemAt d pd i) (elemVal s d psrc i) = elemPut s d w (elemAt d pd i) (elemVal s d psrc i) := by
    rw [elemPut, elemPut, numAt_outside hp.outside (.inr (Nat.le_refl _))]
  rw [hold]
  have hset := bytesSet_setBytes u (elemAt d pd i) (elemBytes d.dfmt) (elemPut s d w (elemAt d pd i) (elemVal s d psrc i)) hp.wf
  refine ⟨hp.stored.trans (stored_setBytes ..), wf_setBytes _ _ _ hp.wf, fun a ha => ?_, fun i' hi' => ?_⟩
  · rw [Nat.succ_mul] at ha
    have hout : a < elemAt d pd i ∨ elemAt d pd i + elemBytes d.dfmt ≤ a := by
      simp only [elemAt]
      omega
    exact (hset.2 a hout).trans (hp.outside a (by omega))
  · rcases Nat.lt_succ_iff_lt_or_eq.1 hi' with hlt | rfl
    · have hle := Nat.mul_le_mul_right (elemBytes d.dfmt) hlt
      rw [Nat.succ_mul] at hle
      have hout : elemAt d pd i' + elemBytes d.dfmt ≤ elemAt d pd i := by
        simp only [elemAt]
        omega
      exact (numAt_outside hset.2 (.inl hout)).trans (hp.done i' hlt)
    · rw [numAt_bytesSet hset, Nat.pow_mul]

/-- Requests are not counted on the way. -/
theorem Progress.uncounted (hm : Movable s c j n pd psrc pidx w) (hp : Progress s j.card pd psrc w i u) {k : Asking} (hk : k.core = c) : Uncounted k u :=
  Uncounted.sameDies (s := s) (by rw [Uncounted, hk]; exact hm.hist) hp.stored.2

variable (hm : Movable s c j n pd psrc pidx w) (hp : Progress s j.card pd psrc w i u) (hi : i < n)
include hm hp hi

variable {k : Asking} (hk : Uncounted k u)
include hk

theorem sourceNumber_calm : Reads k u (sourceNumber (j.ctx c) j.card [i] k u) (elemNum s j.card pidx i) := by
  unfold sourceNumber elemNum
  split
  · refine ⟨k, u, rfl, reached_refl u, ?_⟩
    simp [hm.ndim, elemNumber]
  next hx =>
    obtain ⟨halign, hapart⟩ := hm.index hx i hi
    obtain ⟨-, -, hr⟩ := hp.ready hm hi
    obtain ⟨k', v, hk', hv, h⟩ := engineRead_calm (hp.stored.calm hm.calm) hk halign (hr hx)
    refine ⟨k', v, hk', hv, ?_⟩
    rw [← numAt_outside (hp.outside_all hi) hapart]
    simp only [hm.ndim, List.getD_cons_zero, Nat.sub_self]
    rw [show j.card.idx + BitVec.ofNat 64 (idxBytes j.card.idxf * i) = elemIdx j.card i from rfl, h]
    simp [Res.andThen, elemNumber]

theorem moveRead_calm : Reads k u (moveRead (j.ctx c) j.card [i] k u) (elemVal s j.card psrc i) := by
  obtain ⟨k', v, hk', hv, h⟩ := sourceNumber_calm hm hp hi hk
  have hpv := hp.reached hv
  obtain ⟨halign, hregion, hapart⟩ := hm.source i hi
  obtain ⟨hr, -, -⟩ := hpv.ready hm hi
  obtain ⟨k'', v', hk'', hv', h'⟩ := engineRead_calm (hpv.stored.calm hm.calm) (hk.step hk' hv.2) halign hr
  refine ⟨k'', v', hk''.trans hk', reached_trans hv hv', ?_⟩
  rw [moveRead, h]
  simp only [Res.andThen, hm.sfmt.elemPlace, hm.sfmt.fmtBytes]
  rw [show j.card.src + BitVec.ofInt 64 (elemNum s j.card pidx i * elemBytes j.card.sfmt) = elemFrom s j.card pidx i from rfl, hregion, h']
  simp only [Bool.not_true, Bool.false_eq_true, if_false]
  rw [natBits_elem hm.sfmt (numAt_lt ..), numAt_outside (hpv.outside_all hi) hapart, convertFmt_whole hm.sfmt hm.dfmt]
  rfl

theorem moveWrite_calm (x : Nat) : Writes k u (moveWrite (j.ctx c) (j.by_ c) j.card [i] x k u) (elemAt j.card pd i)
    (toBytes (elemBytes j.card.dfmt) (elemPut u j.card w (elemAt j.card pd i) x)) := by
  have hcalm := hp.stored.calm hm.calm
  obtain ⟨halign, hregion⟩ := hm.dest i hi
  obtain ⟨-, hr, -⟩ := hp.ready hm hi
  have hplace : elemPlace j.card.dst j.card.dfmt (elemNumber j.card.dstr [i] (List.range j.card.ndim)) = (elemTo j.card i, 0) := by
    rw [hm.dfmt.elemPlace, hm.ndim, elemTo, ← BitVec.ofInt_natCast]
    simp [elemNumber]
  unfold moveWrite elemPut
  simp only [hplace, hm.dfmt.fmtBytes, hregion, Bool.not_true, Bool.false_eq_true, if_false]
  by_cases hop : j.card.op ≤ 1
  · rw [if_pos hop] at hr ⊢
    rw [if_pos hop]
    dsimp only
    rw [if_neg (Nat.not_lt.2 hm.dfmt.2)]
    exact engineWrite_calm hcalm hk halign hr _ x
  · have hcoll := hm.coll (by omega)
    have hlen := amoBytes_collFmt hcoll
    rw [if_neg hop] at hr ⊢
    rw [if_neg hop, hcoll, ← hlen]
    rw [← hlen] at halign hr
    exact engineReduce_calm hcalm hk halign hr _ _ x

/-- A position is moved: its element is written, and else memory is only reached. -/
theorem movePos_calm : ∃ k' v, k'.core = k.core ∧ Progress s j.card pd psrc w (i + 1) v ∧ movePos (j.ctx c) (j.by_ c) j.card i k u = .ok k' v := by
  obtain ⟨k1, v, hk1, hv, hread⟩ := moveRead_calm hm hp hi hk
  have hpv := hp.reached hv
  obtain ⟨k2, v', hk2, hv', hwrite⟩ := moveWrite_calm hm hpv hi (hk.step hk1 hv.2) (elemVal s j.card psrc i)
  have hput : elemPut v j.card w (elemAt j.card pd i) (elemVal s j.card psrc i) = elemPut v' j.card w (elemAt j.card pd i) (elemVal s j.card psrc i) := by
    rw [elemPut, elemPut, reached_numAt hv']
  refine ⟨k2, _, hk2.trans hk1, (hpv.reached hv').write, ?_⟩
  have hix : nestIndex (j.card.cnt.take j.card.ndim) i = [i] := by
    rw [hm.cnt, hm.ndim]
    simp [nestIndex, Nat.mod_eq_of_lt hi]
  simp only [movePos, hix, hread, Res.andThen, hwrite, hput]

end

/-- A run of positions. -/
theorem moveFrom_calm {s u : State} {c : Nat} {j : Job} {n pd i : Nat} {psrc pidx : Nat → Nat} {w : BitVec 3} (hm : Movable s c j n pd psrc pidx w)
    {m : Nat} (hmn : i + m ≤ n) (hp : Progress s j.card pd psrc w i u) {k : Asking} (hk : k.core = c) :
    ∃ v, Progress s j.card pd psrc w (i + m) v ∧ moveFrom (j.ctx c) (j.by_ c) j.card m i k u = .all v := by
  induction m generalizing i u k with
  | zero => exact ⟨u, hp, rfl⟩
  | succ m ih =>
    obtain ⟨k', v, hk', hpv, hmove⟩ := movePos_calm hm hp (by omega) (hp.uncounted hm hk)
    obtain ⟨t, ht, hrest⟩ := ih (i := i + 1) (k := k'.next) (by omega) hpv (hk'.trans hk)
    refine ⟨t, by rwa [Nat.add_right_comm] at ht, ?_⟩
    rw [moveFrom, hmove]
    exact hrest

end Sys2Proof.Laws

/-!
SUPPORT. The scheduler's steps (R151, R189, R190, R191, R238, log entry 109), and O55.
-/

namespace Sys2Proof.Laws

open Sys2Proof.Machine

/-! The scheduler (R189, log entry 109). -/

theorem nextJob_edges {before l : List Job} (h : ∀ (first r : List Job) (j : Job) (n : Nat), l = first ++ j :: r → j.state = .ready n →
    ∃ b ∈ before ++ first, edge b j = true) : nextJob before l = none := by
  induction l generalizing before with
  | nil => rfl
  | cons j r ih =>
    have hrest : nextJob (before ++ [j]) r = none := ih fun first r' j' n hr hj => by
      obtain ⟨b, hb, he⟩ := h (j :: first) r' j' n (by rw [hr]; rfl) hj
      exact ⟨b, by simpa using hb, he⟩
    rw [nextJob]
    split
    next n hs =>
      obtain ⟨b, hb, he⟩ := h [] r j n rfl hs
      rw [if_pos (List.any_eq_true.2 ⟨b, by simpa using hb, he⟩), hrest]
    next => exact hrest

/-- The jobs before the one that starts all wait. -/
theorem nextJob_oldest {done before r : List Job} {j : Job} {n : Nat} (hj : j.state = .ready n) (hfree : ∀ b ∈ done ++ before, edge b j = false)
    (h : ∀ (first last : List Job) (b : Job) (k : Nat), before = first ++ b :: last → b.state = .ready k →
      ∃ o ∈ done ++ first, edge o b = true) :
    nextJob done (before ++ j :: r) = some j := by
  induction before generalizing done with
  | nil =>
    rw [List.nil_append, nextJob, hj]
    dsimp only
    rw [if_neg]
    simpa using hfree
  | cons b before ih =>
    have hrest : nextJob (done ++ [b]) (before ++ j :: r) = some j := by
      refine ih (by simpa using hfree) fun first last b' k hb hs => ?_
      obtain ⟨o, ho, he⟩ := h (b :: first) last b' k (by rw [hb]; rfl) hs
      exact ⟨o, by simpa using ho, he⟩
    rw [List.cons_append, nextJob]
    split
    next n hs =>
      obtain ⟨o, ho, he⟩ := h [] before b n rfl hs
      rw [if_pos (List.any_eq_true.2 ⟨o, by simpa using ho, he⟩), hrest]
    next => exact hrest

/-! A job of the scheduler changed. -/

theorem push_nil (s : State) : s.push [] = s := by simp [State.push]

/-- The job of an id is replaced where it stands. -/
theorem putJob_jobs {s : State} {c : Nat} (hc : c < 128) {before r : List Job} {j j' : Job} (hid : j'.id = j.id) (hs : (s.core c).jobs = before ++ j :: r)
    (ho : ∀ o ∈ before ++ r, o.id ≠ j.id) : ((s.putJob c j').core c).jobs = before ++ j' :: r := by
  have hkeep (l : List Job) (hl : ∀ o ∈ l, o.id ≠ j.id) : l.map (fun o => if o.id = j'.id then j' else o) = l :=
    (List.map_congr_left (g := id) fun o hm => if_neg (by rw [hid]; exact hl o hm)).trans (List.map_id l)
  rw [State.putJob, core_onCore _ _ _ _ hc, if_pos rfl]
  dsimp only
  rw [hs, List.map_append, List.map_cons, hkeep before fun o hm => ho o (List.mem_append_left _ hm),
    hkeep r fun o hm => ho o (List.mem_append_right _ hm), if_pos hid.symm]

theorem putJob_others {s : State} {c : Nat} (hc : c < 128) (j : Job) {k : Nat} (hk : k ≠ c) : (s.putJob c j).core k = s.core k := by
  rw [State.putJob, core_onCore _ _ _ _ hc, if_neg hk]

theorem putJob_only (s : State) (c : Nat) (j : Job) : s.putJob c j = { s with cores := (s.putJob c j).cores } := onCore_only ..

theorem stored_cores {s u : State} (h : Stored s u) : u.cores = s.cores := by rw [h.1]; rfl

/-- After the accesses of a job, that job stands changed, and steps are pending. -/
theorem putJob_stored {s u : State} (h : Stored s u) {c : Nat} (hc : c < 128) {before r : List Job} {j j' : Job} (hid : j'.id = j.id)
    (hs : (s.core c).jobs = before ++ j :: r) (ho : ∀ o ∈ before ++ r, o.id ≠ j.id) (l : List Instr) :
    let t := (u.putJob c j').push l
    (t.core c).jobs = before ++ j' :: r ∧ (∀ k, k ≠ c → t.core k = s.core k) ∧ SameDies s t ∧
      t = { s.accessed t with m := { (s.accessed t).m with mem := t.m.mem }, cores := t.cores, pending := s.pending ++ l } := by
  intro t
  refine ⟨?_, fun k hk => ?_, ?_, ?_⟩
  · exact putJob_jobs hc hid (by rw [core_congr (stored_cores h), hs]) ho
  · exact (putJob_others hc j' hk).trans (core_congr (stored_cores h) k)
  · change SameDies s (u.putJob c j')
    rw [putJob_only]
    exact h.2
  · change (u.putJob c j').push l = _
    simp only [t]
    rw [putJob_only, h.1]
    rfl

/-- How many positions a job moves in one step (log entry 109). -/
def jobStep (s : State) (n : Nat) : Nat := if s.sched.jobLines = 0 then n else min n s.sched.jobLines

/-- A job after such a step, and the steps that are then pending. -/
def afterStep (s : State) (n : Nat) (j : Job) : Job := { j with state := if jobStep s n < n then .ready (jobStep s n) else .moved }
def stepsAfter (s : State) (n c : Nat) : List Instr := if jobStep s n < n then [.jobStart c, .jobComplete c] else []

/-- A job that has moved what its step lets it. -/
theorem runJob_all {s t : State} {c n : Nat} {j : Job} (he : j.engine ∈ ([.copy, .gather, .coll] : List Engine)) (hst : j.state = .ready 0)
    (hn : positions j.card = n) (h : moveFrom (j.ctx c) (j.by_ c) j.card (jobStep s n) 0 (j.asking c) s = .all t) :
    runJob s c j = (t.putJob c (afterStep s n j)).push (stepsAfter s n c) := by
  have hleft : (if s.sched.jobLines = 0 then n - 0 else min (n - 0) s.sched.jobLines) = jobStep s n := rfl
  have hrun : runJob s c j = if jobStep s n < n then (t.putJob c { j with state := .ready (jobStep s n) }).push [.jobStart c, .jobComplete c]
      else t.putJob c { j with state := .moved } := by
    simp only [List.mem_cons, List.not_mem_nil, or_false] at he
    unfold runJob
    rcases he with he | he | he
    all_goals
      rw [he, hst]
      dsimp only
      rw [hn, hleft, h]
      simp only [Nat.zero_add, Nat.sub_zero]
  rw [hrun, afterStep, stepsAfter]
  split
  · rfl
  · rw [push_nil]

theorem exec_jobStart {s : State} {c : Nat} {j : Job} (h : nextJob [] (s.core c).jobs = some j) : exec (.jobStart c) s = .next (runJob s c j) := by
  change execJobStart c s = _
  rw [execJobStart, h]

/-- The scheduler's next job of a core: it is ready, no edge holds it, and every ready one before it has an edge to an earlier one. -/
structure Starts (s : State) (c : Nat) (before r : List Job) (j : Job) : Prop where
  core : c < 128
  jobs : (s.core c).jobs = before ++ j :: r
  ids : ∀ o ∈ before ++ r, o.id ≠ j.id
  free : ∀ b ∈ before, edge b j = false
  oldest : ∀ (first last : List Job) (b : Job) (k : Nat), before = first ++ b :: last → b.state = .ready k → ∃ o ∈ first, edge o b = true
  engine : j.engine ∈ ([.copy, .gather, .coll] : List Engine)
  ready : j.state = .ready 0

theorem positions_one {d : Card} {n : Nat} (hd : d.ndim = 1) (hn : d.cnt = [n, 0, 0, 0, 0, 0]) : positions d = n := by
  rw [positions, hd, hn]
  simp

/-- The state after a job has moved m of its positions: their elements are written, and the job stands changed. -/
structure JobMoved (s : State) (c : Nat) (before r : List Job) (j : Job) (pd : Nat) (psrc : Nat → Nat) (w : BitVec 3) (n : Nat) (t : State) : Prop where
  written : ∀ i, i < jobStep s n → t.numAt (elemAt j.card pd i) (elemBytes j.card.dfmt) =
    elemPut s j.card w (elemAt j.card pd i) (elemVal s j.card psrc i) % 2 ^ (8 * elemBytes j.card.dfmt)
  outside : SameBytesOutside s t pd (jobStep s n * elemBytes j.card.dfmt)
  job : (t.core c).jobs = before ++ afterStep s n j :: r
  cores : ∀ k, k ≠ c → t.core k = s.core k
  dies : SameDies s t
  only : t = { s.accessed t with
    m := { (s.accessed t).m with mem := t.m.mem }
    cores := t.cores
    pending := s.pending ++ stepsAfter s n c }

theorem exec_jobStart_moves {s : State} {c n pd : Nat} {before r : List Job} {j : Job} {psrc pidx : Nat → Nat} {w : BitVec 3}
    (hst : Starts s c before r j) (hm : Movable s c j n pd psrc pidx w) :
    ∃ t, exec (.jobStart c) s = .next t ∧ JobMoved s c before r j pd psrc w n t := by
  have hle : 0 + jobStep s n ≤ n := by
    rw [jobStep]
    split <;> omega
  have h0 : Progress s j.card pd psrc w 0 s := ⟨stored_reached (reached_refl s), hm.wf, fun _ _ => rfl, fun _ h => absurd h (Nat.not_lt_zero _)⟩
  obtain ⟨u, hu, hmove⟩ := moveFrom_calm hm hle h0 (k := j.asking c) rfl
  rw [Nat.zero_add] at hu
  have hnext : nextJob [] (s.core c).jobs = some j := by
    rw [hst.jobs]
    exact nextJob_oldest hst.ready hst.free hst.oldest
  have hmem : ((u.putJob c (afterStep s n j)).push (stepsAfter s n c)).m.mem = u.m.mem := by rw [putJob_only]; rfl
  obtain ⟨hjobs, hcores, hdies, honly⟩ := putJob_stored hu.stored hst.core (j := j) (j' := afterStep s n j) rfl hst.jobs hst.ids (stepsAfter s n c)
  refine ⟨_, exec_jobStart hnext, ?_⟩
  rw [runJob_all hst.engine hst.ready (positions_one hm.ndim hm.cnt) hmove]
  exact ⟨fun i hi => (numAt_mem hmem _ _).trans (hu.done i hi), fun a ha => (byteAt_mem hmem a).trans (hu.outside a ha), hjobs, hcores, hdies, honly⟩

/-! A job of bytes (R187). -/

theorem whole_bytes : Whole 5 := ⟨by decide, by decide⟩

theorem elemBytes_bytes : elemBytes 5 = 1 := by decide

section
variable {s : State} {c : Nat} {j : Job} {n ps pd : Nat} (hc : Calm s) (hw : Memory.wf s.m.mem = true) (hh : (s.el (dieOf c)).hist = false)
  (hd : j.card.ndim = 1) (hn : j.card.cnt = [n, 0, 0, 0, 0, 0]) (hop : j.card.op = 0) (hidx : j.card.idxf = 0) (hreg : j.card.regions = [])
  (hsf : j.card.sfmt = 5) (hdf : j.card.dfmt = 5)
include hidx hsf

theorem elemFrom_bytes (pidx : Nat → Nat) (i : Nat) : elemFrom s j.card pidx i = j.card.src + BitVec.ofNat 64 i := by
  rw [elemFrom, elemNum, if_pos hidx, hsf, elemBytes_bytes, Nat.cast_one, mul_one, BitVec.ofInt_natCast]

include hc hw hh hd hn hop hreg hdf

theorem movable_bytes (hapart : ps + n ≤ pd ∨ pd + n ≤ ps)
    (hr : ∀ i s', i < n → Along (fun x => pd ≤ x ∧ x < pd + n) s s' →
      ∃ p : Place, p.pa = ps + i ∧ resolve (j.ctx c) { kind := 1 } (j.card.src + BitVec.ofNat 64 i) 1 s' = .ok p s')
    (hwr : ∀ i s', i < n → Along (fun x => pd ≤ x ∧ x < pd + n) s s' →
      ∃ p : Place, p.pa = pd + i ∧ resolve (j.ctx c) { kind := 2 } (j.card.dst + BitVec.ofNat 64 i) 1 s' = .ok p s') :
    Movable s c j n pd (ps + ·) (fun _ => pd + n) 0 := by
  have hsb : elemBytes j.card.sfmt = 1 := by rw [hsf, elemBytes_bytes]
  have hdb : elemBytes j.card.dfmt = 1 := by rw [hdf, elemBytes_bytes]
  have hbounds : elemBounds j.card pd n = fun x => pd ≤ x ∧ x < pd + n := by
    funext x
    simp only [elemBounds, hdb, Nat.mul_one]
  have hall (w : Bool) (va : Word) (m : Nat) : inRegions (j.ctx c) j.card w va m = true := by simp [inRegions, regionFeet, hreg]
  have hto (i : Nat) : elemTo j.card i = j.card.dst + BitVec.ofNat 64 i := by rw [elemTo, hdb, Nat.mul_one]
  refine ⟨hc, hw, hh, hd, hn, hsf ▸ whole_bytes, hdf ▸ whole_bytes, fun h => ?_, fun i hi => ?_, fun i hi => ?_,
    fun h => absurd hidx h, fun i s' hi ha => ?_⟩
  · omega
  · rw [hsb, hdb]
    exact ⟨Nat.mod_one _, hall .., by omega⟩
  · rw [hdb]
    exact ⟨Nat.mod_one _, hall ..⟩
  · rw [hbounds] at ha
    rw [ElemReady, elemFrom_bytes hidx hsf, hsb, hdb, hto, hop, elemAt, hdb, Nat.mul_one]
    exact ⟨hr i s' hi ha, hwr i s' hi ha, fun h => absurd hidx h⟩

end

/-- Bytes that have been moved are as they were at their source. -/
theorem moved_bytes {s : State} {c : Nat} {j : Job} {n ps pd : Nat} (hop : j.card.op = 0) (hsf : j.card.sfmt = 5) (hdf : j.card.dfmt = 5)
    {before r : List Job} {t : State} (h : JobMoved s c before r j pd (ps + ·) 0 n t) {i : Nat} (hi : i < jobStep s n) :
    t.byteAt (pd + i) = s.byteAt (ps + i) := by
  have hi := h.written i hi
  have hput : elemPut s j.card 0 (elemAt j.card pd i) (elemVal s j.card (ps + ·) i) = s.numAt (ps + i) 1 := by
    rw [elemPut, elemVal, hop, if_pos (Nat.zero_le 1), hsf, hdf, if_pos rfl, elemBytes_bytes]
  rw [hput, elemAt, hdf, elemBytes_bytes, Nat.mul_one, numAt_one, numAt_one, Nat.mod_eq_of_lt (s.byteAt (ps + i)).isLt] at hi
  exact BitVec.eq_of_toNat_eq hi

/-! Jobs that leave the scheduler, and fills (R151, R190, R191, R238). -/

/-- What the task of a job that ends without an error keeps (R191). -/
def reportedPend (t : Thread) (j : Job) : BitVec 32 := if j.card.int then t.uli.pend ||| (1#32 <<< j.tag) else t.uli.pend

/-- The state once a job of the acting task has been reported. -/
def pended (s : State) (j : Job) : State := { s with ct := { s.ct with uli := { s.ct.uli with pend := reportedPend s.ct j } } }

theorem reportJob_acting {s : State} {j : Job} (hp : s.pkg.parked = []) (hv : s.pkg.saved = []) (ht : s.ct.task.taskid = j.task)
    (hot : ∀ o ∈ s.others, o.task.taskid ≠ j.task) (herr : j.err = none) :
    reportJob s j = pended s j := by
  have hothers (f : Thread → Thread) : s.others.map (fun t => if t.task.taskid = j.task then f t else t) = s.others :=
    (List.map_congr_left (g := id) fun o hm => if_neg (hot o hm)).trans (List.map_id _)
  have hpkg : { s.pkg with saved := [], parked := [] } = s.pkg := by rw [← hp, ← hv]
  simp only [reportJob, herr, State.onTaskHolder, State.mapThreads, ht, if_true, hothers, State.onPkg, hp, hv, List.map_nil, hpkg, pended, reportedPend]

theorem requeueAfter_none {s : State} (h : s.pkg.saved = []) (task : Word) : requeueAfter s task = s := by simp [requeueAfter, h]

theorem serveParked_none {s : State} (h : s.pkg.parked = []) : serveParked s = s := by simp [serveParked, h]

theorem containParked_none {s : State} (h : s.pkg.parked = []) : containParked s = s := by simp [containParked, h]

theorem reported_acting {s : State} {j : Job} (hp : s.pkg.parked = []) (hv : s.pkg.saved = []) (ht : s.ct.task.taskid = j.task)
    (hot : ∀ o ∈ s.others, o.task.taskid ≠ j.task) (herr : j.err = none) :
    containParked (serveParked (requeueAfter (reportJob s j) j.task)) = pended s j := by
  rw [reportJob_acting hp hv ht hot herr, requeueAfter_none (s := pended s j) hv, serveParked_none (s := pended s j) hp,
    containParked_none (s := pended s j) hp]

/-- The state once a job has left its core. -/
def withoutJob (s : State) (c : Nat) (j : Job) : State := s.onCore c fun k => { k with jobs := k.jobs.filter fun o => o.id != j.id }

theorem withoutJob_only (s : State) (c : Nat) (j : Job) : withoutJob s c j = { s with cores := (withoutJob s c j).cores } := onCore_only ..

theorem withoutJob_jobs {s : State} {c : Nat} {j : Job} {r : List Job} (hc : c < 128) (hs : (s.core c).jobs = j :: r) (ho : ∀ o ∈ r, o.id ≠ j.id) :
    ((withoutJob s c j).core c).jobs = r := by
  rw [withoutJob, core_onCore _ _ _ _ hc, if_pos rfl]
  dsimp only
  rw [hs, List.filter_cons_of_neg (by simp), List.filter_eq_self.2 fun o hm => by simpa using ho o hm]

theorem withoutJob_others {s : State} {c : Nat} (hc : c < 128) (j : Job) {k : Nat} (hk : k ≠ c) : (withoutJob s c j).core k = s.core k := by
  rw [withoutJob, core_onCore _ _ _ _ hc, if_neg hk]

/-- A job of the acting task ends without an error, and no task is parked or saved. -/
theorem exec_jobComplete_acting {s : State} {c : Nat} {j : Job} {r : List Job} (hc : c < 128) (hs : (s.core c).jobs = j :: r)
    (ho : ∀ o ∈ r, o.id ≠ j.id) (hst : j.state = .moved) (he : j.engine = .copy) (hp : s.pkg.parked = []) (hv : s.pkg.saved = [])
    (ht : s.ct.task.taskid = j.task) (hot : ∀ o ∈ s.others, o.task.taskid ≠ j.task) (herr : j.err = none) :
    ∃ t, exec (.jobComplete c) s = .next t ∧ (t.core c).jobs = r ∧ (∀ k, k ≠ c → t.core k = s.core k) ∧
      t = { s with
        ct := { s.ct with uli := { s.ct.uli with pend := reportedPend s.ct j } }
        cores := t.cores
        pending := s.pending ++ (if r = [] then [] else [.jobStart c, .jobComplete c]) } := by
  have hfind : (s.core c).jobs.find? (fun j => j.state == .moved && fillDone s c j) = some j := by
    rw [hs]
    simp [hst, fillDone, he]
  have hjobs := withoutJob_jobs hc hs ho
  have hothers (k : Nat) := withoutJob_others (s := s) hc j (k := k)
  have honly := withoutJob_only s c j
  have hexec : exec (.jobComplete c) s =
      .next (let u := containParked (serveParked (requeueAfter (reportJob (withoutJob s c j) j) j.task))
        if (u.core c).jobs.isEmpty then u else u.push [.jobStart c, .jobComplete c]) := by
    change execJobComplete c s = _
    rw [execJobComplete, hfind]
    rfl
  generalize withoutJob s c j = v at hjobs hothers honly hexec
  rw [reported_acting (by rw [honly]; exact hp) (by rw [honly]; exact hv) (by rw [honly]; exact ht) (by rw [honly]; exact hot) herr] at hexec
  have hct : v.ct = s.ct := by rw [honly]
  have hleft : ((pended v j).core c).jobs = r := hjobs
  dsimp only at hexec
  rw [hleft] at hexec
  by_cases hr : r = []
  · rw [if_pos (by simpa using hr)] at hexec
    rw [if_pos hr, List.append_nil]
    refine ⟨_, hexec, hjobs, hothers, ?_⟩
    rw [pended, hct, honly]
  · rw [if_neg (by simpa using hr)] at hexec
    rw [if_neg hr]
    refine ⟨_, hexec, hjobs, hothers, ?_⟩
    rw [pended, hct, honly]
    rfl

theorem exec_jobPageFault_one {s : State} {c : Nat} {j : Job} {pos : Nat} {cause va : Word} (hc : c < 128) (hs : (s.core c).jobs = [j])
    (hst : j.state = .paused pos cause va false) :
    ∃ t, exec (.jobPageFault c) s = .next t ∧ (t.core c).jobs = [{ j with state := .paused pos cause va true }] ∧
      t.pkg.jobFaults = s.pkg.jobFaults ++ [⟨c, j.tag, va, cause⟩] ∧ (∀ k, k ≠ c → t.core k = s.core k) ∧
      t = { s with
        cores := t.cores
        pkg := { s.pkg with jobFaults := t.pkg.jobFaults } } := by
  have hjobs := putJob_jobs (s := s) hc (j := j) (j' := { j with state := .paused pos cause va true }) rfl (before := []) (r := []) hs (by simp)
  refine ⟨(s.putJob c { j with state := .paused pos cause va true }).onPkg fun k => { k with jobFaults := k.jobFaults ++ [⟨c, j.tag, va, cause⟩] }, ?_,
    hjobs, ?_, fun k hk => putJob_others hc _ hk, ?_⟩
  · change execJobPageFault c s = _
    rw [execJobPageFault, hs]
    simp [hst]
  · rw [putJob_only]
    rfl
  · rw [putJob_only]
    rfl

theorem exec_fillRowWrite_one {s : State} {c : Nat} {j : Job} {pn : Panel} (hc : c < 128) (hs : (s.core c).jobs = [j]) (he : j.engine = .fill pn.id)
    (hst : j.state = .moved) (hp : (s.core c).panels = [pn]) (hr : pn.ready < pn.len) :
    ∃ t, exec (.fillRowWrite c) s = .next t ∧ (t.core c).panels = [{ pn with ready := pn.ready + 1 }] ∧ (t.core c).jobs = [j] ∧
      (∀ k, k ≠ c → t.core k = s.core k) ∧ t = { s with cores := t.cores } := by
  refine ⟨s.onCore c fun k => { k with panels := k.panels.map fun q => if q.id = pn.id then { q with ready := q.ready + 1 } else q }, ?_, ?_, ?_,
    fun k hk => ?_, onCore_only ..⟩
  · change execFillRowWrite c s = _
    simp [execFillRowWrite, hs, hp, hr, he, hst]
  · rw [core_onCore _ _ _ _ hc, if_pos rfl]
    simp [hp]
  · rw [core_onCore _ _ _ _ hc, if_pos rfl]
    exact hs
  · rw [core_onCore _ _ _ _ hc, if_neg hk]

theorem exec_jobs_none {s : State} {c : Nat} (h : (s.core c).jobs = []) :
    exec (.jobStart c) s = .next s ∧ exec (.jobComplete c) s = .next s ∧ exec (.jobPageFault c) s = .next s ∧
      exec (.fillRowWrite c) s = .next s := by
  refine ⟨?_, ?_, ?_, ?_⟩
  · change execJobStart c s = _
    rw [execJobStart, h]
    rfl
  · change execJobComplete c s = _
    rw [execJobComplete, h]
    rfl
  · change execJobPageFault c s = _
    rw [execJobPageFault, h]
    rfl
  · change execFillRowWrite c s = _
    have hnone : (s.core c).panels.find? (fun p => decide (p.ready < p.len) &&
        (s.core c).jobs.any fun j => j.engine == .fill p.id && j.state == .moved) = none := List.find?_eq_none.2 fun p _ => by simp [h]
    rw [execFillRowWrite]
    dsimp only
    rw [hnone]

theorem exec_jobStart_edges {s : State} {c : Nat} (h : ∀ (before r : List Job) (j : Job) (n : Nat), (s.core c).jobs = before ++ j :: r →
    j.state = .ready n → ∃ b ∈ before, edge b j = true) : exec (.jobStart c) s = .next s := by
  change execJobStart c s = _
  rw [execJobStart, nextJob_edges h]

/-- A job that its step lets finish. -/
theorem jobStep_all {s : State} (h : s.sched.jobLines = 0) (n : Nat) : jobStep s n = n := if_pos h

theorem append_stepsAfter (s : State) (n c : Nat) :
    s.pending ++ stepsAfter s n c = if jobStep s n < n then s.pending ++ [.jobStart c, .jobComplete c] else s.pending := by
  rw [stepsAfter]
  split
  · rfl
  · exact List.append_nil _

/-- Settles O55: the scheduler's choice, then each job position by position. -/
theorem jobSteps : Obligations.JobSteps := by
  unfold Obligations.JobSteps
  refine ⟨?none, ?edges, ?bytes, ?elements, ?complete, ?fault, ?row⟩
  case none => exact fun s c h => exec_jobs_none h
  case edges => exact fun s c h => exec_jobStart_edges h
  case bytes =>
    intro s c before r j n ps pd hc hs hids hfree hold he hst hcalm hw hd hn hop hidx hreg hsf hdf hapart hh
    dsimp only
    intro hr hwr
    have hstarts : Starts s c before r j := ⟨hc, hs, hids, hfree, hold, by simp [he], hst⟩
    obtain ⟨t, ht, hmoved⟩ := exec_jobStart_moves hstarts (movable_bytes hcalm hw hh hd hn hop hidx hreg hsf hdf hapart hr hwr)
    have hout := hmoved.outside
    rw [hdf, elemBytes_bytes, Nat.mul_one] at hout
    refine ⟨t, ht, fun i hi => moved_bytes hop hsf hdf hmoved hi, hout, hmoved.job, hmoved.cores, hmoved.dies, ?_⟩
    have honly := hmoved.only
    rw [append_stepsAfter] at honly
    exact honly
  case elements =>
    intro s c before r j n pd w psrc pidx hc hs hids hfree hold he hst hlines hcalm hw hh hd hn hop hsf hdf hsw hdw hcoll
    dsimp only
    intro hplaces hres
    have hstarts : Starts s c before r j := ⟨hc, hs, hids, hfree, hold, he, hst⟩
    have hm : Movable s c j n pd psrc pidx w :=
      { calm := hcalm, wf := hw, hist := hh, ndim := hd, cnt := hn, sfmt := ⟨hsf, hsw⟩, dfmt := ⟨hdf, hdw⟩, coll := hcoll
        source := fun i hi => by
          obtain ⟨hfrom, -, -, hregion, -, hapart, -⟩ := hplaces i hi
          exact ⟨hfrom, hregion, hapart⟩
        dest := fun i hi => by
          obtain ⟨-, hto, -, -, hregion, -, -⟩ := hplaces i hi
          exact ⟨hto, hregion⟩
        index := fun _ i hi => by
          obtain ⟨-, -, hidx, -, -, -, hapart⟩ := hplaces i hi
          exact ⟨hidx, hapart⟩
        resolves := hres }
    obtain ⟨t, ht, hmoved⟩ := exec_jobStart_moves hstarts hm
    have hall := jobStep_all hlines n
    have hout := hmoved.outside
    have hjob := hmoved.job
    have honly := hmoved.only
    rw [hall] at hout
    rw [afterStep, hall, if_neg (Nat.lt_irrefl n)] at hjob
    rw [stepsAfter, hall, if_neg (Nat.lt_irrefl n), List.append_nil] at honly
    exact ⟨t, ht, fun i hi => hmoved.written i (hall.symm ▸ hi), hout, hjob, hmoved.cores, hmoved.dies, honly⟩
  case complete =>
    intro s c j r hc hs ho hst he hp hv ht hot herr _
    exact exec_jobComplete_acting hc hs ho hst he hp hv ht hot herr
  case fault => exact fun s c j pos cause va hc hs hst => exec_jobPageFault_one hc hs hst
  case row => exact fun s c j pn hc hs he hst hp hr => exec_fillRowWrite_one hc hs he hst hp hr

end Sys2Proof.Laws

/-!
SUPPORT. What performs at its home leaves the thread that acts, and adds nothing to what is buffered or left to perform late (R199, R200, R224); a drain
leaves nothing that it names.
-/

namespace Sys2Proof.Laws

open Sys2Proof.Machine

/-! What performs adds nothing to perform. -/

/-- The late accesses that have still to perform. -/
def openLate (s : State) : List Late := s.m.late.filter (·.got.isNone)

/-- The acting thread is the same but for its ordering state, its notes and its fills. -/
def SameThread (s t : State) : Prop := t.ct = { s.ct with ord := t.ct.ord, ctl := t.ct.ctl, mx := t.ct.mx }

theorem SameThread.trans {s t u : State} (h : SameThread s t) (k : SameThread t u) : SameThread s u := Eq.trans k (by rw [h])

theorem SameThread.mine {s t : State} (h : SameThread s t) : t.mine = s.mine := by funext e; rw [State.mine, h]; rfl

theorem SameThread.myLine {s t : State} (h : SameThread s t) : t.myLine = s.myLine := by funext l; rw [State.myLine, h]; rfl

theorem SameThread.myLate {s t : State} (h : SameThread s t) : t.myLate = s.myLate := by funext l; rw [State.myLate, h]; rfl

/-- t is s after accesses have performed: the same thread acts, and nothing more is left to perform. -/
structure Drains (s t : State) : Prop where
  thread : SameThread s t
  stores : t.m.sbuf.Sublist s.m.sbuf
  lines : t.m.wcb.Sublist s.m.wcb
  late : (openLate t).Sublist (openLate s)

theorem drains_refl (s : State) : Drains s s := ⟨rfl, .refl _, .refl _, .refl _⟩

theorem Drains.trans {s t u : State} (h : Drains s t) (k : Drains t u) : Drains s u :=
  ⟨h.thread.trans k.thread, k.stores.trans h.stores, k.lines.trans h.lines, k.late.trans h.late⟩

/-- A change of memory that leaves what is buffered and late. -/
theorem drains_onMem (s : State) {f : MemSt → MemSt}
    (hf : ∀ m, (f m).sbuf = m.sbuf ∧ (f m).wcb = m.wcb ∧ (f m).late = m.late := by exact fun _ => ⟨rfl, rfl, rfl⟩) : Drains s (s.onMem f) := by
  obtain ⟨hs, hw, hl⟩ := hf s.m
  exact ⟨rfl, by rw [State.onMem_m, hs], by rw [State.onMem_m, hw], by rw [openLate, State.onMem_m, hl]; exact .refl _⟩

theorem drains_setBytes (s : State) (pa : Nat) (bs : List Byte) : Drains s (s.setBytes pa bs) := ⟨rfl, .refl _, .refl _, .refl _⟩

theorem drains_reached {s t : State} (h : Reached s t) : Drains s t := by rw [h.1]; exact ⟨rfl, .refl _, .refl _, .refl _⟩

theorem drains_foldl {β : Type} {f : State → β → State} (h : ∀ s b, Drains s (f s b)) (l : List β) (s : State) : Drains s (l.foldl f s) :=
  foldl_keep (P := Drains s) (fun t b k => k.trans (h t b)) l s (drains_refl s)

theorem drains_ite {c : Prop} [Decidable c] {s t u : State} (ht : Drains s t) (hu : Drains s u) : Drains s (if c then t else u) := by
  split <;> assumption

/-! Coherence (R152, R179, R182, R234, R253, R264). -/

theorem drains_markEarly (s : State) (b : By) (pa n : Nat) : Drains s (markEarly s b pa n) :=
  drains_ite (drains_refl s) (drains_onMem s)

theorem drains_clearPoison (s : State) (pa n : Nat) : Drains s (clearPoison s pa n) :=
  drains_ite (drains_refl s) (drains_onMem s)

theorem drains_applyChain (s : State) (dw : Nat) : Drains s (applyChain s dw) := by
  unfold applyChain
  split
  · exact drains_refl s
  · exact (drains_onMem s).trans (drains_foldl (fun s u => (drains_markEarly s _ _ _).trans (drains_setBytes _ _ _)) _ _)

theorem drains_applyLine (s : State) (line : Nat) : Drains s (applyLine s line) :=
  drains_ite (drains_refl s) (drains_foldl (fun s _ => drains_applyChain s _) _ s)

theorem drains_writeBackLine (s : State) (l : SLine) : Drains s (s.writeBackLine l) := by
  have h := (drains_applyLine s l.at_).trans (drains_reached (reached_packet _ (homeDie l.at_) (homeDie l.pa)))
  exact drains_ite (drains_ite h (h.trans ((drains_clearPoison _ _ _).trans (drains_setBytes _ _ _)))) (drains_refl s)

/-- A stash line that is written back and changes its state. -/
theorem drains_backed (s : State) (l : SLine) (a b : Nat) {f : MemSt → MemSt}
    (hf : ∀ m, (f m).sbuf = m.sbuf ∧ (f m).wcb = m.wcb ∧ (f m).late = m.late := by exact fun _ => ⟨rfl, rfl, rfl⟩) :
    Drains s ((askDie (s.writeBackLine l) a b).onMem f) :=
  (drains_writeBackLine s l).trans ((drains_reached (reached_askDie _ a b)).trans (drains_onMem _ hf))

theorem drains_syncStash (s : State) (line : Nat) (w : Bool) : Drains s (syncStash s line w) :=
  drains_foldl (fun s l => drains_ite (drains_backed s l _ _) (drains_refl s)) _ s

theorem drains_dropTranslations (s : State) (d : Nat) (a : List Nat → Bool) (b : TlbEntry → Bool) : Drains s (dropTranslations s d a b) :=
  ((drains_reached (reached_askFrom s d _)).trans (drains_onMem _)).trans
    (drains_foldl (fun s l => drains_ite (drains_backed s l _ _) (drains_refl s)) _ _)

theorem drains_markSource (s : State) (line : Nat) : Drains s (markSource s line) :=
  drains_ite ((drains_foldl (fun s c => drains_reached (reached_packet s (homeDie line) (dieOf c))) _ s).trans ⟨rfl, .refl _, .refl _, .refl _⟩)
    (drains_refl s)

theorem drains_endHostCopy (s : State) (b : By) (line : Nat) : Drains s (endHostCopy s b line) :=
  drains_ite (drains_onMem s) (drains_refl s)

theorem drains_readyLine (s : State) (b : By) (k : Hold) (line : Nat) : Drains s (readyLine s b k line) := by
  have h1 : Drains s (if s.m.slines.isEmpty then s else syncStash s line true) := drains_ite (drains_refl s) (drains_syncStash s line true)
  exact (h1.trans (drains_ite (drains_refl _) (drains_dropTranslations _ _ _ _))).trans
    ((drains_markSource _ line).trans ((drains_reached (reached_l1Write _ k line)).trans (drains_endHostCopy _ b line)))

theorem drains_settle (s : State) (pa n : Nat) : Drains s (settle s pa n) :=
  drains_ite (drains_refl s)
    (drains_foldl (fun s _ => drains_ite ((drains_readyLine s _ _ _).trans (drains_applyChain _ _)) (drains_refl s)) _ s)

theorem drains_readyWrite (s : State) (b : By) (k : Hold) (pa n : Nat) : Drains s (readyWrite s b k pa n) :=
  (drains_settle s pa n).trans (drains_foldl (fun s l => drains_readyLine s b k l) _ _)

theorem drains_openRead (s : State) (pa n : Nat) : Drains s (openRead s pa n) :=
  (drains_settle s pa n).trans (drains_ite (drains_refl _) (drains_foldl (fun s l => drains_syncStash s l false) _ _))

/-! Writes at home (R125, R182). -/

theorem drains_performBits (s : State) (b : By) (k : Hold) (pa : Nat) (mask : Byte) (bs : List Byte) : Drains s (performBits s b k pa mask bs) := by
  have h := (drains_readyWrite s b k pa bs.length).trans (drains_markEarly _ b pa bs.length)
  exact drains_ite (h.trans ((drains_clearPoison _ _ _).trans (drains_setBytes _ _ _))) (h.trans (drains_setBytes _ _ _))

theorem drains_performMasked (s : State) (b : By) (k : Hold) (line : Nat) (bs : List HeldByte) : Drains s (performMasked s b k line bs) :=
  ((drains_readyWrite s b k line 64).trans (drains_ite (drains_clearPoison _ _ _) (drains_refl _))).trans
    (drains_foldl (fun s _ => (drains_markEarly s _ _ _).trans (drains_setBytes _ _ _)) _ _)

theorem drains_containTaskId (s : State) (task : Word) : Drains s (containTaskId s task) := by
  refine ⟨?_, .refl _, .refl _, .refl _⟩
  show SameThread s (s.onCt fun t => if t.task.taskid = task then { t with ctl := { t.ctl with contain := true } } else t)
  unfold SameThread State.onCt
  dsimp only
  split <;> rfl

theorem drains_setRace (s : State) (task va : Word) : Drains s (setRace s task va) := by
  refine ⟨?_, .refl _, .refl _, .refl _⟩
  show SameThread s (s.onCt fun t =>
    if t.task.taskid = task then { t with ord := { t.ord with race := true, raceaddr := if t.ord.race then t.ord.raceaddr else va } } else t)
  unfold SameThread State.onCt
  dsimp only
  split <;> rfl

theorem drains_reopen (s : State) (b : By) (pa : Nat) : Drains s (reopen s b pa) := by
  unfold reopen
  split
  · exact drains_ite ((drains_readyLine s b _ _).trans (drains_onMem _)) (drains_refl s)
  · exact drains_refl s

/-! What is buffered or late, as it performs (R199, R200, R224). -/

theorem drains_landStore (s : State) (e : BufStore) : Drains s (landStore s e) :=
  drains_ite (drains_containTaskId s _)
    ((drains_reopen s _ _).trans
      ((drains_ite (drains_refl _) (drains_reached (reached_askDie _ _ _))).trans (drains_performBits _ _ _ _ _ _)))

theorem drains_raceCheck (s : State) (c : Nat) (task : Word) (line : Nat) (va : Word) : Drains s (raceCheck s c task line va) := by
  unfold raceCheck
  exact (drains_ite (drains_setRace s task va) (drains_refl s)).trans (drains_onMem _)

theorem drains_landLine (s : State) (l : WcLine) : Drains s (landLine s l) := by
  refine drains_ite (drains_containTaskId s _) (.trans ?_ (drains_raceCheck _ _ _ _ _))
  have h := drains_reached (reached_askDie s (dieOf l.lcore) (homeDie l.line))
  split
  · exact h.trans ((drains_readyLine _ _ _ _).trans ((drains_setBytes _ _ _).trans
      ((drains_performMasked _ _ _ _ _).trans (drains_onMem _))))
  · exact h.trans (drains_performMasked _ _ _ _ _)

theorem drains_askBy (s : State) (b : By) (pa : Nat) : Drains s (askBy s b pa) := by
  unfold askBy
  split <;> [exact drains_reached (reached_askDie s _ _); exact drains_refl s]

theorem drains_takeHostLine (s : State) (pa : Nat) : Drains s (takeHostLine s pa) := by
  unfold takeHostLine
  split <;> [exact drains_onMem s; exact drains_refl s]

/-- A late access that is back with what it got is not one that has still to perform. -/
theorem drains_putLanded (s : State) (l : Late) (got : List Byte × FFlags) :
    Drains s (s.onMem fun m => { m with late := m.late ++ [{ l with got := some got }] }) :=
  ⟨rfl, .refl _, .refl _, by simp [openLate, State.onMem]⟩

theorem drains_atomic (s : State) (b : By) (k : Hold) (line pa n : Nat) (bs : List Byte) :
    Drains s ((markEarly (takeHostLine (readyLine s b k line) pa) b pa n).setBytes pa bs) :=
  (drains_readyLine s b k line).trans ((drains_takeHostLine _ _).trans ((drains_markEarly _ _ _ _).trans (drains_setBytes _ _ _)))

theorem drains_landLate (s : State) (l : Late) : Drains s (landLate s l) := by
  refine drains_ite (drains_containTaskId s _) ?_
  split
  · exact (drains_reached (reached_l1Read s _ _ _)).trans ((drains_openRead _ _ _).trans (drains_putLanded _ l _))
  · exact (drains_reopen s _ _).trans ((drains_askBy _ _ _).trans ((drains_settle _ _ _).trans
      ((drains_atomic _ _ _ _ _ _ _).trans (drains_putLanded _ l _))))
  · refine .trans ?_ (drains_putLanded _ l _)
    exact ((drains_askBy s _ _).trans (drains_openRead _ _ _)).trans (drains_ite ((drains_reopen _ _ _).trans (drains_atomic _ _ _ _ _ _ _))
      ((drains_reached (reached_l1Write _ _ _)).trans (drains_takeHostLine _ _)))

/-! A drain (R199). -/

theorem drains_eraseStore (s : State) (e : BufStore) : Drains s (s.onMem fun m => { m with sbuf := m.sbuf.erase e }) :=
  ⟨rfl, List.erase_sublist, .refl _, .refl _⟩

theorem drains_eraseLine (s : State) (l : WcLine) : Drains s (s.onMem fun m => { m with wcb := m.wcb.erase l }) :=
  ⟨rfl, .refl _, List.erase_sublist, .refl _⟩

theorem drains_eraseLate (s : State) (l : Late) : Drains s (s.onMem fun m => { m with late := m.late.erase l }) :=
  ⟨rfl, .refl _, .refl _, List.erase_sublist.filter _⟩

theorem drains_drainNeed (n : Nat) (k : Need) (s : State) : Drains s (drainNeed n k s) := by
  induction n generalizing k s with
  | zero => exact drains_refl s
  | succ n ih =>
    unfold drainNeed
    split
    · exact (drains_eraseStore s _).trans ((ih _ _).trans ((drains_landStore _ _).trans (ih _ _)))
    · split
      · exact (drains_eraseLine s _).trans ((ih _ _).trans ((drains_landLine _ _).trans (ih _ _)))
      · split
        · exact (drains_eraseLate s _).trans ((ih _ _).trans ((drains_ite (ih _ _) (drains_refl _)).trans ((drains_landLate _ _).trans (ih _ _))))
        · exact drains_refl s

theorem drains_drainFor (k : Need) (s : State) : Drains s (drainFor k s) := drains_ite (drains_refl s) (drains_drainNeed _ k s)

theorem drains_drainWhere (f : BufStore → Bool) (s : State) : Drains s (drainWhere f s) := drains_ite (drains_refl s) (drains_drainFor _ s)

theorem drains_drainLines (f : WcLine → Bool) (s : State) : Drains s (drainLines f s) := drains_ite (drains_refl s) (drains_drainFor _ s)

theorem drains_performWhere (f : Late → Bool) (s : State) : Drains s (performWhere f s) := drains_ite (drains_refl s) (drains_drainFor _ s)

/-! What a drain leaves. -/

/-- How many accesses have still to perform. -/
def toPerform (s : State) : Nat := s.m.sbuf.length + s.m.wcb.length + (openLate s).length

theorem Drains.toPerform_le {s t : State} (h : Drains s t) : toPerform t ≤ toPerform s :=
  Nat.add_le_add (Nat.add_le_add h.stores.length_le h.lines.length_le) h.late.length_le

/-- A drain that begins with one access fewer ends with one fewer. -/
theorem Drains.toPerform_fewer {r s t : State} (h : Drains r t) (hr : toPerform r + 1 = toPerform s) {n : Nat} (hn : toPerform s ≤ n + 1) :
    toPerform t ≤ n := h.toPerform_le.trans (by omega)

theorem toPerform_le_outstanding (s : State) : toPerform s ≤ outstanding s := Nat.add_le_add_left (List.length_filter_le ..) _

theorem toPerform_eraseStore {s : State} {e : BufStore} (h : e ∈ s.m.sbuf) :
    toPerform (s.onMem fun m => { m with sbuf := m.sbuf.erase e }) + 1 = toPerform s := by
  have hl : (s.m.sbuf.erase e).length + 1 = s.m.sbuf.length := List.length_erase_add_one h
  simp only [toPerform, openLate, State.onMem_m]
  omega

theorem toPerform_eraseLine {s : State} {l : WcLine} (h : l ∈ s.m.wcb) :
    toPerform (s.onMem fun m => { m with wcb := m.wcb.erase l }) + 1 = toPerform s := by
  have hl : (s.m.wcb.erase l).length + 1 = s.m.wcb.length := List.length_erase_add_one h
  simp only [toPerform, openLate, State.onMem_m]
  omega

theorem toPerform_eraseLate {s : State} {l : Late} (h : l ∈ s.m.late) (hg : l.got = none) :
    toPerform (s.onMem fun m => { m with late := m.late.erase l }) + 1 = toPerform s := by
  have hm : l ∈ openLate s := List.mem_filter.2 ⟨h, by rw [hg]; rfl⟩
  have hl : ((openLate s).erase l).length + 1 = (openLate s).length := List.length_erase_add_one hm
  rw [openLate, List.erase_filter] at hl
  simp only [toPerform, openLate, State.onMem_m]
  omega

/-- Nothing is left that a need names. -/
structure Met (k : Need) (s : State) : Prop where
  stores : ∀ e ∈ s.m.sbuf, k.store s e = false
  lines : ∀ l ∈ s.m.wcb, k.line l = false
  late : ∀ l ∈ s.m.late, k.late s l = false

/-- A need of late accesses that have still to perform. -/
def OpenNeed (k : Need) : Prop := ∀ s l, k.late s l = true → l.got = none

/-- The store that performs first is one that is buffered. -/
theorem firstOlder_mem {s : State} {e0 : BufStore} (h : e0 ∈ s.m.sbuf) : ((olderThan s e0).find? fun x => x.before s e0).getD e0 ∈ s.m.sbuf := by
  cases hf : (olderThan s e0).find? fun x => x.before s e0 with
  | none => exact h
  | some e => exact (List.takeWhile_sublist _).subset (List.mem_of_find?_eq_some hf)

theorem drainNeed_met (n : Nat) {k : Need} (hk : OpenNeed k) (s : State) (hn : toPerform s ≤ n) : Met k (drainNeed n k s) := by
  induction n generalizing s with
  | zero =>
    obtain ⟨⟨hs, hw⟩, hl⟩ : (s.m.sbuf = [] ∧ s.m.wcb = []) ∧ openLate s = [] := by simpa [toPerform] using hn
    refine ⟨by simp [drainNeed, hs], by simp [drainNeed, hw], fun l hm => ?_⟩
    by_contra hc
    have hmem : l ∈ openLate s := List.mem_filter.2 ⟨hm, by rw [hk _ _ (by simpa using hc)]; rfl⟩
    rw [hl] at hmem
    exact absurd hmem (List.not_mem_nil)
  | succ n ih =>
    unfold drainNeed
    split
    next e0 he0 =>
      have he := toPerform_eraseStore (firstOlder_mem (List.mem_of_find?_eq_some he0))
      exact ih _ (((drains_drainNeed n _ _).trans (drains_landStore _ _)).toPerform_fewer he hn)
    next hstore =>
      split
      next l hline =>
        have he := toPerform_eraseLine (List.mem_of_find?_eq_some hline)
        exact ih _ (((drains_drainNeed n _ _).trans (drains_landLine _ _)).toPerform_fewer he hn)
      next hline =>
        split
        next l hlate =>
          have he := toPerform_eraseLate (List.mem_of_find?_eq_some hlate) (hk _ _ (List.find?_some hlate))
          exact ih _ (((drains_drainNeed n _ _).trans
            ((drains_ite (drains_drainNeed n _ _) (drains_refl _)).trans (drains_landLate _ _))).toPerform_fewer he hn)
        next hlate => exact ⟨by simpa using hstore, by simpa using hline, by simpa using hlate⟩

theorem drainFor_met {k : Need} (hk : OpenNeed k) (s : State) : Met k (drainFor k s) := by
  unfold drainFor
  split
  next h =>
    simp only [Bool.and_eq_true, List.isEmpty_iff] at h
    obtain ⟨⟨hs, hw⟩, hl⟩ := h
    exact ⟨by simp [hs], by simp [hw], by simp [hl]⟩
  next => exact drainNeed_met _ hk s (toPerform_le_outstanding s)

theorem drainWhere_none (f : BufStore → Bool) (s : State) : ∀ e ∈ (drainWhere f s).m.sbuf, f e = false := by
  unfold drainWhere
  split
  next h => simp [List.isEmpty_iff.1 h]
  next => exact (drainFor_met (by exact fun _ _ h => Bool.noConfusion h) s).stores

theorem drainLines_none (f : WcLine → Bool) (s : State) : ∀ l ∈ (drainLines f s).m.wcb, f l = false := by
  unfold drainLines
  split
  next h => simp [List.isEmpty_iff.1 h]
  next => exact (drainFor_met (by exact fun _ _ h => Bool.noConfusion h) s).lines

theorem performWhere_none (f : Late → Bool) (s : State) : ∀ l ∈ (performWhere f s).m.late, l.got = none → f l = false := by
  unfold performWhere
  split
  next h => simp [List.isEmpty_iff.1 h]
  next =>
    intro l hl hg
    have hm : Met _ (drainFor { store := fun _ _ => false, line := fun _ => false, late := fun _ l => l.got.isNone && f l } s) :=
      drainFor_met (fun _ l h => Option.isNone_iff_eq_none.1 (Bool.and_eq_true_iff.1 h).1) s
    simpa [hg] using hm.late l hl

end Sys2Proof.Laws

/-!
SUPPORT. FENCE (R202, R203, R224, R225): what its drain leaves and what its order marks, and O22.
-/

namespace Sys2Proof.Laws

open Sys2Proof.Machine

/-! What performs at a scope (R199, log entry 120). -/

theorem drains_drainStores (s : State) : Drains s (drainStores s) :=
  (drains_drainWhere _ s).trans ((drains_drainLines _ _).trans (drains_performWhere _ _))

theorem drainStores_stores (s : State) : ∀ e ∈ (drainStores s).m.sbuf, s.mine e = false := fun e he =>
  drainWhere_none s.mine s e (((drains_drainLines _ _).trans (drains_performWhere _ _)).stores.subset he)

theorem drainStores_lines (s : State) : ∀ l ∈ (drainStores s).m.wcb, s.myLine l = false := by
  intro l hl
  rw [← show (drainSbuf s).myLine = s.myLine from (drains_drainWhere s.mine s).thread.myLine]
  exact drainLines_none _ (drainSbuf s) l ((drains_performWhere s.myLate _).lines.subset hl)

theorem drainStores_late (s : State) : ∀ l ∈ (drainStores s).m.late, l.got = none → s.myLate l = false := performWhere_none _ _

/-- A scope at which an access has performed short of its home. -/
def NarrowAt (sc : Nat) (scope : Option Nat) : Prop := sc < 4 ∧ ∃ n, scope = some n ∧ sc ≤ n

theorem narrowAt_widenScope {sc : Nat} (h : ¬ 4 ≤ sc) (old : Option Nat) : NarrowAt sc (widenScope sc old) :=
  ⟨by omega, _, rfl, Nat.le_max_left ..⟩

theorem performAt_thread (sc : Nat) (f : BufStore → Bool) (s : State) : SameThread s (performAt sc f s) := by
  unfold performAt
  split
  · exact (drains_drainWhere f s).thread
  · split
    · rfl
    · exact ((drains_performWhere _ s).trans (drains_foldl (fun s e => drains_markEarly s _ _ _) _ _)).thread

/-- A store that is left has performed for the agents of the scope. -/
theorem performAt_narrow (sc : Nat) (f : BufStore → Bool) (s : State) : ∀ e ∈ (performAt sc f s).m.sbuf, f e = true → NarrowAt sc e.scope := by
  intro e he hf
  unfold performAt at he
  split at he
  next => rw [drainWhere_none f s e he] at hf; cases hf
  next hsc =>
    split at he
    next h => rw [List.isEmpty_iff.1 h] at he; cases he
    next =>
      obtain ⟨e0, -, rfl⟩ := List.mem_map.1 he
      split at hf
      next hf0 => rw [if_pos hf0]; exact narrowAt_widenScope hsc _
      next hf0 => exact absurd hf hf0

theorem performLateAt_thread (sc : Nat) (f : Late → Bool) (s : State) : SameThread s (performLateAt sc f s) := by
  unfold performLateAt
  split
  · exact (drains_performWhere f s).thread
  · split
    · rfl
    · exact ((drains_performWhere _ s).trans (drains_foldl (fun s l => drains_markEarly s _ _ _) _ _)).thread

theorem performLateAt_stores (sc : Nat) (f : Late → Bool) (s : State) : (performLateAt sc f s).m.sbuf.Sublist s.m.sbuf := by
  unfold performLateAt
  split
  · exact (drains_performWhere f s).stores
  · split
    · exact .refl _
    · exact ((drains_performWhere _ s).trans (drains_foldl (fun s l => drains_markEarly s _ _ _) _ _)).stores

theorem performLateAt_narrow (sc : Nat) (f : Late → Bool) (s : State) :
    ∀ l ∈ (performLateAt sc f s).m.late, l.got = none → f l = true → NarrowAt sc l.scope := by
  intro l hl hg hf
  unfold performLateAt at hl
  split at hl
  next => rw [performWhere_none f s l hl hg] at hf; cases hf
  next hsc =>
    split at hl
    next h => rw [List.isEmpty_iff.1 h] at hl; cases hl
    next =>
      obtain ⟨l0, -, rfl⟩ := List.mem_map.1 hl
      split
      next => exact narrowAt_widenScope hsc _
      next hp => rw [if_neg hp] at hg hf; exact absurd (by simp [hg, hf]) hp

/-! What a FENCE drains (R202, R203, R224). -/

section Drain

variable (s : State) (sc : Nat) (k : BitVec 2)

theorem fenceDrain_thread : SameThread s (fenceDrain sc k s) := by
  unfold fenceDrain
  split
  · exact (drains_drainStores s).thread
  · split
    · exact (performAt_thread ..).trans (performLateAt_thread ..)
    · rfl

theorem fenceDrain_bronze {s : State} (h : s.ct.ord.detctl = true) : fenceDrain sc k s = drainStores s := if_pos h

theorem fenceDrain_order {s : State} (h : s.ct.ord.detctl = false) (hk : k = 0 ∨ k = 2) : fenceDrain sc k s = s := by
  rw [fenceDrain, if_neg (by simp [h]), if_neg (by rcases hk with rfl | rfl <;> decide)]

theorem fenceDrain_idle {s : State} (hs : s.m.sbuf = []) (hw : s.m.wcb = []) (hl : s.m.late = []) : fenceDrain sc k s = s := by
  simp [fenceDrain, drainStores, drainSbuf, drainWcb, drainWhere, drainLines, performWhere, performAt, performLateAt, hs, hw, hl]

theorem fenceDrain_stall {s : State} {k : BitVec 2} (h : s.ct.ord.detctl = false) (hk : k = 1 ∨ k = 3) : fenceDrain sc k s =
    performLateAt sc (fun l => s.myLate l && (k == 3 || l.vec)) (performAt sc (fun e => s.mine e && (k == 3 || e.vec)) s) := by
  rw [fenceDrain, if_neg (by simp [h]), if_pos hk]

theorem fenceDrain_stores {k : BitVec 2} (hk : k = 1 ∨ k = 3) :
    ∀ e ∈ (fenceDrain sc k s).m.sbuf, s.mine e = true → (k = 3 ∨ e.vec = true) → NarrowAt sc e.scope := by
  intro e he hm hv
  cases hd : s.ct.ord.detctl with
  | true =>
    rw [fenceDrain_bronze sc k hd] at he
    exact absurd hm (by simp [drainStores_stores s e he])
  | false =>
    rw [fenceDrain_stall sc hd hk] at he
    exact performAt_narrow sc _ s e ((performLateAt_stores ..).subset he) (by simpa [hm] using hv)

theorem fenceDrain_late {k : BitVec 2} (hk : k = 1 ∨ k = 3) :
    ∀ l ∈ (fenceDrain sc k s).m.late, s.myLate l = true → l.got = none → (k = 3 ∨ l.vec = true) → NarrowAt sc l.scope := by
  intro l hl hm hg hv
  cases hd : s.ct.ord.detctl with
  | true =>
    rw [fenceDrain_bronze sc k hd] at hl
    exact absurd hm (by simp [drainStores_late s l hl hg])
  | false =>
    rw [fenceDrain_stall sc hd hk] at hl
    exact performLateAt_narrow sc _ _ l hl hg (by simpa [hm] using hv)

end Drain

/-! What a FENCE orders (R202, R203, R225). -/

/-- A buffered store that a FENCE.sv or .vv puts before later vector accesses. -/
def heldStore (s : State) (sc : BitVec 3) (k : BitVec 2) (e : BufStore) : BufStore :=
  if s.mine e = true ∧ e.vec = (k == 2) then { e with beforeV := e.beforeV ++ [(s.ct.ord.fenceIvl, sc.toNat)] } else e

/-- A late access that it does. -/
def heldLate (s : State) (sc : BitVec 3) (k : BitVec 2) (l : Late) : Late :=
  if s.myLate l = true ∧ l.vec = (k == 2) then { l with beforeV := l.beforeV ++ [(s.ct.ord.fenceIvl, sc.toNat)] } else l

/-- A memory entry of the VIQ that it does. -/
def heldEntry (s : State) (sc : BitVec 3) (e : VEntry) : VEntry :=
  if isVecMem e.instr = true ∧ (e.done = none ∨ e.nested = true) then { e with vv := e.vv ++ [(s.ct.ord.fenceIvl, sc.toNat)] } else e

/-- The ordering state after a FENCE. -/
def fencedOrd (s : State) (sc : BitVec 3) (k : BitVec 2) : OrdSt :=
  { s.ct.ord with
    fenceIvl := s.ct.ord.fenceIvl + 1
    vhold := if (k = 0 ∨ k = 2) ∧ sc = 5 then s.ct.ord.vhold ++ [s.ct.ord.fenceIvl] else s.ct.ord.vhold
    vvJobs := if k = 2 then s.ct.ord.vvJobs ++ (readingFills s).map fun j => (j, s.ct.ord.fenceIvl) else s.ct.ord.vvJobs
    vvOpen := if k = 2 then !vecQuiet s else s.ct.ord.vvOpen }

/-- s after a FENCE whose drain has left s, with what is still read ahead. -/
def fenced (s : State) (sc : BitVec 3) (k : BitVec 2) (early : List Early) : State :=
  { s with
    ct := { s.ct with
      pc := s.ct.pc + 4
      vec := if k = 2 then { s.ct.vec with viq := s.ct.vec.viq.map (heldEntry s sc) } else s.ct.vec
      ord := fencedOrd s sc k
      ctl := { s.ct.ctl with wait := .none } }
    m := { s.m with
      sbuf := if k = 0 ∨ k = 2 then s.m.sbuf.map (heldStore s sc k) else s.m.sbuf
      late := if k = 0 ∨ k = 2 then s.m.late.map (heldLate s sc k) else s.m.late
      early := early
      races := if k = 3 ∧ 4 ≤ sc.toNat then s.m.races.filter (fun r => r.2 != s.ct.lcore) else s.m.races } }

/-- t is s but for what is read ahead, and t reads nothing ahead where s does not. -/
def LessAhead (s t : State) : Prop := ∃ early, t = s.onMem (fun m => { m with early := early }) ∧ (s.m.early = [] → early = [])

theorem lessAhead_forgetEarly (s : State) (f : Early → Bool) : LessAhead s (forgetEarly s f) := by
  unfold forgetEarly
  split
  · exact ⟨s.m.early, rfl, id⟩
  · exact ⟨_, rfl, fun h => by rw [h]; rfl⟩

theorem lessAhead_acquire (s : State) (sc : Nat) (own : Bool) (ports : List Port) : LessAhead s (acquire s sc own ports) := lessAhead_forgetEarly s _

theorem lessAhead_vectorAfter (s : State) (pending : Bool) (sc : Nat) : LessAhead s (vectorAfter pending sc s) := by
  unfold vectorAfter
  split <;> [exact lessAhead_forgetEarly s _; exact lessAhead_acquire s ..]

theorem holdVector_eq (s : State) (sc : BitVec 3) (k : BitVec 2) : holdVector s sc.toNat (k == 2) =
    s.onMem fun m => { m with sbuf := m.sbuf.map (heldStore s sc k), late := m.late.map (heldLate s sc k) } := by
  have hs : heldStore s sc k = fun e => if s.mine e && e.vec == (k == 2) then { e with beforeV := e.beforeV ++ [fenceMark s sc.toNat] } else e := by
    funext e; simp only [heldStore, Bool.and_eq_true, beq_iff_eq]; rfl
  have hl : heldLate s sc k = fun l => if s.myLate l && l.vec == (k == 2) then { l with beforeV := l.beforeV ++ [fenceMark s sc.toNat] } else l := by
    funext l; simp only [heldLate, Bool.and_eq_true, beq_iff_eq]; rfl
  rw [hs, hl]
  rfl

theorem holdQueued_eq (s : State) (sc : BitVec 3) : holdQueued s sc.toNat =
    (s.onVec fun x => { x with viq := x.viq.map (heldEntry s sc) }).onOrd fun o =>
      { o with vvJobs := o.vvJobs ++ (readingFills s).map fun j => (j, o.fenceIvl), vvOpen := !vecQuiet s } := by
  have h : heldEntry s sc = fun e =>
      if isVecMem e.instr && (e.done.isNone || e.nested) then { e with vv := e.vv ++ [fenceMark s sc.toNat] } else e := by
    funext e; simp only [heldEntry, Bool.and_eq_true, Bool.or_eq_true, Option.isNone_iff_eq_none]; rfl
  rw [h]
  rfl

theorem heldEntry_onMem (s : State) (f : MemSt → MemSt) (sc : BitVec 3) : heldEntry (s.onMem f) sc = heldEntry s sc := rfl

theorem readingFills_onMem (s : State) (f : MemSt → MemSt) : readingFills (s.onMem f) = readingFills s := rfl

theorem vecQuiet_onMem (s : State) (f : MemSt → MemSt) : vecQuiet (s.onMem f) = vecQuiet s := rfl

theorem fenceOrder_sv (s : State) (sc : Nat) :
    fenceOrder sc 0 s = holdHost (vectorAfter (openAccess s false) sc (holdVector s sc false)) sc := rfl

theorem fenceOrder_vs (s : State) (sc : Nat) : fenceOrder sc 1 s = acquire s sc true [.scalar] := rfl

theorem fenceOrder_vv (s : State) (sc : Nat) :
    fenceOrder sc 2 s = holdHost (holdQueued (vectorAfter (!vecQuiet s || openAccess s true) sc (holdVector s sc true)) sc) sc := rfl

theorem fenceOrder_all (s : State) (sc : Nat) : fenceOrder sc 3 s = acquire s sc true [.scalar, .vector, .fetch] := rfl

theorem toNat_eq_five (sc : BitVec 3) : sc.toNat = 5 ↔ sc = 5 := by revert sc; decide

/-- The end of a FENCE whose drain has left s. -/
def fencePass (s : State) (sc : BitVec 3) (k : BitVec 2) : State :=
  let s2 := nextInterval (fenceOrder sc.toNat k s)
  (if k = 3 ∧ 4 ≤ sc.toNat then endRaces s2 s2.ct.lcore else s2).advance

theorem fencePass_fenced (s : State) (sc : BitVec 3) (k : BitVec 2) : ∃ early, (s.m.early = [] → early = []) ∧ fencePass s sc k = fenced s sc k early := by
  have hk : k = 0 ∨ k = 1 ∨ k = 2 ∨ k = 3 := by revert k; decide
  rcases hk with rfl | rfl | rfl | rfl
  · obtain ⟨early, h, he⟩ := lessAhead_vectorAfter (holdVector s sc.toNat false) (openAccess s false) sc.toNat
    refine ⟨early, he, ?_⟩
    rw [fencePass, fenceOrder_sv, h, show holdVector s sc.toNat false = _ from holdVector_eq s sc 0]
    simp [fenced, fencedOrd, holdHost, nextInterval, State.onOrd, State.onMem, State.advance, toNat_eq_five]
  · obtain ⟨early, h, he⟩ := lessAhead_acquire s sc.toNat true [.scalar]
    refine ⟨early, he, ?_⟩
    rw [fencePass, fenceOrder_vs, h]
    simp [fenced, fencedOrd, nextInterval, State.onOrd, State.onMem, State.advance]
  · obtain ⟨early, h, he⟩ := lessAhead_vectorAfter (holdVector s sc.toNat true) (!vecQuiet s || openAccess s true) sc.toNat
    refine ⟨early, he, ?_⟩
    rw [fencePass, fenceOrder_vv, h, show holdVector s sc.toNat true = _ from holdVector_eq s sc 2]
    simp only [holdQueued_eq, heldEntry_onMem, readingFills_onMem, vecQuiet_onMem]
    simp [fenced, fencedOrd, holdHost, nextInterval, State.onOrd, State.onVec, State.onMem, State.advance, toNat_eq_five]
  · obtain ⟨early, h, he⟩ := lessAhead_acquire s sc.toNat true [.scalar, .vector, .fetch]
    refine ⟨early, he, ?_⟩
    rw [fencePass, fenceOrder_all, h]
    by_cases hsc : 4 ≤ sc.toNat <;>
      simp [fenced, fencedOrd, nextInterval, endRaces, State.onOrd, State.onMem, State.advance, hsc]

/-! The instruction (R202, R203). -/

theorem exec_fence_stalls {s : State} {sc : BitVec 3} {k : BitVec 2} (lo : s.has .lo = true) (h : fenceWaits k s = true) :
    exec (.fence sc k) s = .next (s.waitFor .drain) := (withProfile_has lo _).trans (if_pos h)

theorem exec_fence_host {s : State} {sc : BitVec 3} {k : BitVec 2} (lo : s.has .lo = true) (h : fenceWaits k s = false) (hsc : sc = 5)
    (hk : k = 1 ∨ k = 3) (hq : hostQuiet (fenceDrain sc.toNat k s) = false) :
    exec (.fence sc k) s = .next ((fenceDrain sc.toNat k s).waitFor .drain) :=
  (withProfile_has lo _).trans ((if_neg (by simp [h])).trans (if_pos ⟨hsc, hk, by simp [hq]⟩))

theorem exec_fence_passes {s : State} {sc : BitVec 3} {k : BitVec 2} (lo : s.has .lo = true) (h : fenceWaits k s = false)
    (hq : sc = 5 → k = 1 ∨ k = 3 → hostQuiet (fenceDrain sc.toNat k s) = true) :
    ∃ early, (s.m.early = [] → fenceDrain sc.toNat k s = s → early = []) ∧
      exec (.fence sc k) s = .next (fenced (fenceDrain sc.toNat k s) sc k early) := by
  obtain ⟨early, he, hf⟩ := fencePass_fenced (fenceDrain sc.toNat k s) sc k
  refine ⟨early, fun h0 hd => he (by rw [hd, h0]), ?_⟩
  rw [← hf]
  exact (withProfile_has lo _).trans ((if_neg (by simp [h])).trans (if_neg fun ⟨h5, hk, hn⟩ => by simp [hq h5 hk] at hn))

theorem fenceWaits_order {k : BitVec 2} (hk : k = 0 ∨ k = 2) (s : State) : fenceWaits k s = false := by
  rcases hk with rfl | rfl <;> rfl

/-! What a FENCE leaves to perform. -/

theorem not_order_of_stall {k : BitVec 2} (hk : k = 1 ∨ k = 3) : ¬ (k = 0 ∨ k = 2) := by
  rcases hk with rfl | rfl <;> decide

theorem mine_heldStore (r s : State) (sc : BitVec 3) (k : BitVec 2) (e : BufStore) : r.mine (heldStore s sc k e) = r.mine e := by
  unfold heldStore
  split <;> rfl

theorem fenced_stores {s : State} {sc : BitVec 3} {k : BitVec 2} {early : List Early} {e : BufStore} (h : e ∈ (fenced s sc k early).m.sbuf) (r : State) :
    ∃ e0 ∈ s.m.sbuf, r.mine e = r.mine e0 := by
  rw [fenced] at h
  dsimp only at h
  split at h
  · obtain ⟨e0, h0, rfl⟩ := List.mem_map.1 h
    exact ⟨e0, h0, mine_heldStore ..⟩
  · exact ⟨e, h, rfl⟩

theorem fenced_sbuf_stall {k : BitVec 2} (hk : k = 1 ∨ k = 3) (s : State) (sc : BitVec 3) (early : List Early) :
    (fenced s sc k early).m.sbuf = s.m.sbuf := if_neg (not_order_of_stall hk)

theorem fenced_late_stall {k : BitVec 2} (hk : k = 1 ∨ k = 3) (s : State) (sc : BitVec 3) (early : List Early) :
    (fenced s sc k early).m.late = s.m.late := if_neg (not_order_of_stall hk)

theorem fenced_ct {s r : State} (h : SameThread s r) (sc : BitVec 3) (k : BitVec 2) (early : List Early) :
    (fenced r sc k early).ct.pc = s.ct.pc + 4 ∧ (fenced r sc k early).ct.x = s.ct.x := by
  rw [fenced, h]
  exact ⟨rfl, rfl⟩

/-- What FENCE leaves where nothing is in flight. -/
theorem fenced_calm {s : State} (h : Calm s) (sc : BitVec 3) (k : BitVec 2) : fenced s sc k [] =
    { s with
      ct := { s.ct with
        pc := s.ct.pc + 4
        vec := if k = 2 then { s.ct.vec with viq := s.ct.vec.viq.map (heldEntry s sc) } else s.ct.vec
        ord := fencedOrd s sc k
        ctl := { s.ct.ctl with wait := .none } }
      m := { s.m with races := if k = 3 ∧ 4 ≤ sc.toNat then s.m.races.filter (fun r => r.2 != s.ct.lcore) else s.m.races } } := by
  simp only [fenced, h.sbuf, h.late, h.early, List.map_nil, ite_self]

/-- Settles O22: what a drain names performs within its fuel, and the order that a FENCE makes changes marks alone. -/
theorem fences : Obligations.Fences := by
  unfold Obligations.Fences
  intro s sc k lo queued
  refine ⟨?stalls, ?order, ?host, ?calm, ?performed⟩
  case stalls => exact fun h => ⟨_, exec_fence_stalls lo h, rfl⟩
  case order =>
    intro hk
    have hstall : ¬ (k = 1 ∨ k = 3) := fun h => not_order_of_stall h hk
    obtain ⟨early, -, ht⟩ := exec_fence_passes (sc := sc) lo (fenceWaits_order hk s) fun _ h => absurd h hstall
    obtain ⟨hpc, hx⟩ := fenced_ct (fenceDrain_thread s sc.toNat k) sc k early
    refine ⟨_, ht, hpc, hx, fun hd => ?_⟩
    rw [fenceDrain_order sc.toNat k hd hk]
    exact ⟨fun _ => rfl, if_pos hk, if_pos hk⟩
  case host =>
    intro hsc hk hw hs hwcb hl hq
    have hd := fenceDrain_idle sc.toNat k hs hwcb hl
    have ht := exec_fence_host lo hw hsc hk (by rw [hd, hq])
    rw [hd] at ht
    exact ⟨_, ht, rfl⟩
  case calm =>
    intro hw hc
    have hd := fenceDrain_idle sc.toNat k hc.sbuf hc.wcb hc.late
    obtain ⟨early, he, ht⟩ := exec_fence_passes (sc := sc) lo hw fun _ _ => by rw [hd, hostQuiet, hc.biWait]; rfl
    rw [hd, he hc.early hd] at ht
    exact ⟨_, ht, fenced_calm hc sc k⟩
  case performed =>
    intro hw hsc
    obtain ⟨early, -, ht⟩ := exec_fence_passes (sc := sc) lo hw fun h5 _ => by subst h5; exact absurd hsc (by decide)
    obtain ⟨hpc, hx⟩ := fenced_ct (fenceDrain_thread s sc.toNat k) sc k early
    refine ⟨_, ht, hpc, hx, fun hd => ⟨fun e he => ?_, ?_⟩, fun hk => ⟨fun e he => ?_, fun l hl => ?_⟩⟩
    · rw [fenceDrain_bronze sc.toNat k hd] at he
      obtain ⟨e0, he0, hm⟩ := fenced_stores he s
      exact hm.trans (drainStores_stores s e0 he0)
    · rw [fenceDrain_bronze sc.toNat k hd]
      exact drainStores_lines s
    · rw [fenced_sbuf_stall hk] at he
      exact fenceDrain_stores s sc.toNat hk e he
    · rw [fenced_late_stall hk] at hl
      exact fenceDrain_late s sc.toNat hk l hl

end Sys2Proof.Laws

/-!
SUPPORT. The sizes of a saved context's sections.
-/

namespace Sys2Proof.Laws

open Sys2Proof.Machine

/-! The sections of an image and their sizes (R243). -/

theorem foldl_add_eq_sum (l : List Nat) (a : Nat) : l.foldl (· + ·) a = a + l.sum := by
  induction l generalizing a with
  | nil => rfl
  | cons x xs ih => rw [List.foldl_cons, ih, List.sum_cons, Nat.add_assoc]

theorem imageSize_eq_sum (t : Thread) : imageSize t = ((imageSections t).map (·.1)).sum := by
  rw [imageSize, foldl_add_eq_sum, Nat.zero_add]

/-- A section takes the bytes that its size says, whatever it holds. -/
theorem length_section (x : Nat × List Byte) : ((x.2 ++ List.replicate x.1 0).take x.1).length = x.1 := by
  rw [List.length_take, List.length_append, List.length_replicate]
  omega

theorem length_contextImage (t : Thread) : (contextImage t).length = imageSize t := by
  rw [contextImage, List.length_flatMap, imageSize_eq_sum]
  exact congrArg List.sum (List.map_congr_left fun x _ => length_section x)

/-- A register none of whose slabs is released is kept whole. -/
theorem length_keptSlabs {t : Thread} (h : t.vec.released = []) (r : Nat) : (keptSlabs t r).length = 256 * (t.task.regLen / 256) := by
  have hslab : ∀ v : Nat, (toBytes 256 v).length = 256 := length_toBytes 256
  simp only [keptSlabs, h, List.contains_nil, Bool.false_eq_true, if_false, List.length_flatMap, hslab, List.map_const', List.length_range,
    List.sum_replicate_nat, Nat.mul_comm (t.task.regLen / 256)]

theorem length_keptRegisters {t : Thread} (h : t.vec.released = []) :
    ((List.range 32).flatMap (keptSlabs t)).length = 32 * (256 * (t.task.regLen / 256)) := by
  simp only [List.length_flatMap, length_keptSlabs h, List.map_const', List.length_range, List.sum_replicate_nat]

/-- The size of an image without released slabs, section by section. -/
theorem imageSize_of_released_nil {t : Thread} (h : t.vec.released = []) :
    imageSize t = 64 + 320 + 192 + 512 + upTo64 (64 + 32 * (savedEntries t).length + 128) + upTo64 (8 * t.task.regLen) +
      32 * (256 * (t.task.regLen / 256)) + 6144 * t.task.tiles + 576 + 256 * t.mx.fills.length := by
  rw [imageSize_eq_sum]
  simp only [imageSections, List.map_cons, List.map_nil, List.sum_cons, List.sum_nil, length_keptRegisters h, Nat.add_assoc, Nat.add_zero]

/-- Settles O60: an image takes its sections' sizes, and without released slabs each size follows from L and the numbers of tiles, entries and fill
records. -/
theorem contextImage : Obligations.ContextImage := by
  unfold Obligations.ContextImage
  refine ⟨length_contextImage, fun t hl h => ?_, fun t h => ⟨fun hl ht he hf => ?_, fun hl ht he hf => ?_⟩⟩
  · have hsize := imageSize_of_released_nil h
    have hl : t.task.regLen % 256 = 0 := by
      simp only [List.mem_cons, List.not_mem_nil, or_false] at hl
      omega
    unfold upTo64 at hsize
    omega
  · rw [imageSize_of_released_nil h, hl, ht, he, hf]
    rfl
  · rw [imageSize_of_released_nil h, hl, ht, he, hf]
    rfl

end Sys2Proof.Laws

/-!
SUPPORT. The canonical form of memory (log entry 1) through what the state's operations leave: control threads, cores, dies, physical accesses and the
records of Electrum.
-/

namespace Sys2Proof.Laws

open Sys2Proof.Machine

/-! How results carry the form. -/

/-- Memory is in its canonical form in the state that an outcome answers, if it answers one. -/
def WfOut : Host.Outcome State Fault Refusal → Prop
  | .next s => Wf s
  | .fault _ => True
  | .refused _ => True

theorem wf_ite {s t} {c : Prop} [Decidable c] (hs : Wf s) (ht : Wf t) : Wf (if c then s else t) := by split <;> assumption

theorem wfOut_ite {x y} {c : Prop} [Decidable c] (hx : WfOut x) (hy : WfOut y) : WfOut (if c then x else y) := by split <;> assumption

theorem wf_foldl {α : Type} {f : State → α → State} {l : List α} {s} (hf : ∀ s a, Wf s → Wf (f s a)) (h : Wf s) : Wf (l.foldl f s) :=
  foldl_keep (P := Wf) hf l s h

theorem wfOut_takeTrap {s t} (h : Wf s) : WfOut (takeTrap t s) := by
  unfold takeTrap
  split
  · exact h
  · exact h
  · trivial

theorem wfOut_finish {r : Res Unit} (h : ResAll Wf r) : WfOut (finish r) := by
  cases r with
  | ok _ _ => exact h
  | trap _ _ => exact wfOut_takeTrap h
  | wait _ _ => exact h
  | gone _ => exact h

theorem wfOut_withProfile {p s f} (h : Wf s) (hf : WfOut f) : WfOut (withProfile p s f) := wfOut_ite hf (wfOut_takeTrap h)

theorem wfOut_whenDrained {s f} (h : Wf s) (hf : WfOut f) : WfOut (whenDrained s f) := wfOut_ite hf h

/-! Registers, control threads, cores and dies. -/

theorem wf_setX {s r v} (h : Wf s) : Wf (s.setX r v) := wf_ite h h

theorem wf_onDie {s d f} (h : Wf s) : Wf (s.onDie d f) := by unfold Wf; rwa [m_onDie]

theorem wf_onCore {s n f} (h : Wf s) : Wf (s.onCore n f) := by unfold Wf; rwa [m_onCore]

theorem wf_switchTo {s c n} (h : Wf s) : Wf (s.switchTo c n) := by unfold Wf; rwa [m_switchTo]

theorem wf_putThread {s t} (h : Wf s) : Wf (s.putThread t) := wf_ite h (wf_ite h h)

/-! Physical accesses (R232, R273). -/

theorem wf_landPhys {s d pa bs} (h : Wf s) : Wf (landPhys s d pa bs) :=
  wf_ite (wf_writeHome _ _ _ _ (wf_askDie _ _ _ h)) (wf_foldl (fun _ _ h => wf_ite (wf_writeHome _ _ _ _ (wf_askDie _ _ _ h)) h) h)

theorem wf_writePhys {s d pa bs} (h : Wf s) : Wf (writePhys s d pa bs) := wf_ite h (wf_landPhys h)

theorem wf_readPhys {s d pa n} (h : Wf s) : Wf (readPhys s d pa n).2 := by
  unfold readPhys
  split
  · exact wf_readHome _ _ _ _ (wf_askDie _ _ _ h)
  · refine foldl_keep (P := fun a : Nat × State => Wf a.2) (fun a p h => ?_) _ _ h
    dsimp only
    split
    · exact wf_readHome _ _ _ _ (wf_askDie _ _ _ h)
    · exact h

theorem wf_roundTrip {s pa} (h : Wf s) : Wf (roundTrip s pa) := wf_askDie _ _ _ h

theorem wf_packet {s a b} (h : Wf s) : Wf (packet s a b) := wf_ite h (wf_onDie h)

/-! Records of Electrum (R279, R288). -/

theorem wf_onEl {s d f} (h : Wf s) : Wf (s.onEl d f) := wf_onDie h

theorem wf_countEvent {s d k} (h : Wf s) : Wf (countEvent s d k) := wf_onEl h

theorem wf_header {s d k src} (h : Wf s) : Wf (header s d k src).2 := wf_onDie (s := s.useFresh.2) h

theorem wf_putRecord {s d k src body} (h : Wf s) : Wf (putRecord s d k src body) := wf_onEl (wf_writePhys (wf_header (k := k) (src := src) h))

theorem wf_dropRecord {s d} (h : Wf s) : Wf (dropRecord s d) := wf_onEl h

theorem wf_putOrDrop {s d k src body} (h : Wf s) : Wf (putOrDrop s d k src body) :=
  wf_ite (wf_dropRecord h) (wf_ite (wf_dropRecord (wf_onEl h)) (wf_putRecord h))

theorem wf_produceRaw {s d k src body} (h : Wf s) : Wf (produceRaw s d k src body) :=
  wf_ite h (wf_ite (wf_putOrDrop (wf_onEl (wf_putRecord h))) (wf_putOrDrop h))

/-! Triggers (R287). -/

theorem wf_snapHist {s d c g} (h : Wf s) : Wf (snapHist s d c g) := wf_foldl (fun _ _ h => wf_produceRaw h) h

theorem wf_setRun {s d a} (h : Wf s) : Wf (setRun s d a) := wf_ite (wf_onEl h) (wf_ite (wf_onEl h) (wf_ite (wf_onEl h) h))

theorem wf_snapEngines {s d a engines} (h : Wf s) : Wf (snapEngines s d a engines) := wf_ite (wf_foldl (fun _ _ h => wf_snapHist h) h) h

theorem wf_applyActs {s d a engines} (h : Wf s) : Wf (applyActs s d a engines) := wf_setRun (wf_snapEngines h)

theorem wf_trigRecords {s d fs} (h : Wf s) : Wf (trigRecords s d fs) := wf_foldl (fun _ _ h => wf_produceRaw (wf_onEl h)) h

theorem wf_fireAll {s d was fs engines} (h : Wf s) : Wf (fireAll s d was fs engines) := by
  have hrun : ∀ {d1 d2 d3 d4 d5 fs1 fs2 fs3 a es b}, Wf (setRun (trigRecords (snapEngines (trigRecords (trigRecords s d1 fs1) d2 fs2) d3 a es) d4 fs3) d5 b) :=
    wf_setRun (wf_trigRecords (wf_snapEngines (wf_trigRecords (wf_trigRecords h))))
  exact wf_ite hrun hrun

theorem wf_fireTriggers {s d hit src who body engines} (h : Wf s) : Wf (fireTriggers s d hit src who body engines) := wf_fireAll h

theorem wf_produce {s d k src body} (h : Wf s) : Wf (produce s d k src body) := wf_ite (wf_fireAll (wf_produceRaw h)) (wf_produceRaw h)

/-! Engine requests, breakpoints and dumps (R284, R290, R291). -/

theorem wf_requestDone {s c e lat} (h : Wf s) : Wf (requestDone s c e lat) := wf_ite h (wf_ite (wf_fireTriggers (wf_onEl h)) (wf_onEl h))

theorem wf_requestLines {c e lines s} (h : Wf s) : Wf (requestLines c e lines s) :=
  wf_ite h (wf_foldl (fun s _ h => wf_requestDone (s := s.useFresh.2) h) h)

theorem wf_dumpRecords {s d} (h : Wf s) : Wf (dumpRecords s d) := wf_foldl (fun _ _ h => wf_produceRaw h) h

theorem wf_fireBreaks {s hits} (h : Wf s) : Wf (fireBreaks s hits) :=
  wf_ite h (wf_fireAll (wf_foldl (fun _ _ h => wf_ite (wf_dumpRecords (wf_produceRaw h)) (wf_produceRaw h)) h))

theorem wf_scalarBreaks {s pc w} (h : Wf s) : Wf (scalarBreaks s pc w) := wf_fireBreaks h

/-! Replay (R292 to R294). -/

theorem wf_findSlot {d lkey idx} : ∀ {ks s}, Wf s → Wf (findSlot d lkey idx ks s).2
  | [], _, h => h
  | k :: r, s, h => by
    have hread : ∀ a b pa, Wf (readyRead (askDie s a b) (.part d) pa 128) := fun _ _ _ => wf_readyRead _ _ _ _ (wf_askDie _ _ _ h)
    unfold findSlot
    dsimp only
    split
    · exact wf_findSlot h
    · split
      · exact hread _ _ _
      · exact wf_findSlot (hread _ _ _)

theorem wf_findLog {s d lkey idx} (h : Wf s) : Wf (findLog s d lkey idx).2 := wf_findSlot h

theorem wf_appendLog {s d ty pc v} (h : Wf s) : Wf (appendLog s d ty pc v) := 
  wf_ite (wf_onEl h) (wf_onEl (wf_writePhys (wf_header (k := 0x0A) (src := s.ct.source) h)))

theorem wf_divergeAt {s d a b} (h : Wf s) : Wf (divergeAt s d a b) := wf_countEvent (wf_produce h)

theorem wf_diverge {s a b} (h : Wf s) : Wf (diverge s a b) := wf_divergeAt h

theorem wf_logged {s ty pc v} (h : Wf s) : Wf (logged s ty pc v).2 := by
  unfold logged
  dsimp only
  split
  · split
    · exact wf_appendLog h
    · split
      · exact h
      · split
        · split
          · exact wf_onEl (wf_findLog h)
          · exact wf_diverge (wf_findLog h)
        · exact wf_diverge (wf_findLog h)
  · exact h

/-! Device registers (R273, R278). -/

/-! What a device register is read or written as depends on an offset from 2^48, which must not be evaluated at a variable address: the two functions
are unfolded as constants, and the register found is generalised. -/

theorem wf_devRead {s pa n} (h : Wf s) : Wf (devRead s pa n).2 := by
  have hdef : devRead = devRead := rfl
  conv_rhs at hdef => delta devRead
  have hpair := congrFun (congrFun (congrFun hdef s) pa) n
  generalize electrumAt (pa - pa % 8) = at_ at hpair
  generalize readyWord s (pa - pa % 8 - 2 ^ 48) = word at hpair
  rw [hpair]
  cases at_ with
  | some _ => exact h
  | none => cases word <;> exact h

theorem wf_devWrite {s pa n v} (h : Wf s) : Wf (devWrite s pa n v) := by
  have hdef : devWrite = devWrite := rfl
  conv_rhs at hdef => delta devWrite
  have hstate := congrFun (congrFun (congrFun (congrFun hdef s) pa) n) v
  generalize electrumAt (pa - pa % 8) = at_ at hstate
  rw [hstate]
  cases at_ with
  | some _ => exact wf_onEl h
  | none => exact h

end Sys2Proof.Laws

/-!
SUPPORT. The canonical form of memory through loads, stores and fetches, and through the scalar instructions.
-/

namespace Sys2Proof.Laws

open Sys2Proof.Machine

/-! Order (R204, R205). -/

theorem wf_acquire {s sc own ports} (h : Wf s) : Wf (acquire s sc own ports) := wf_forgetEarly s _ h

theorem wf_dropAhead {s} (h : Wf s) : Wf (dropAhead s) := wf_forgetEarly s _ h

theorem wf_loadNum {s sc p n} (h : Wf s) : Wf (loadNum s sc p n).2 := wf_loadBytes s sc p n h

/-! Scalar accesses (R333) and fetches (R57). -/

theorem wf_scalarLoad {s va w} (h : Wf s) : ResAll Wf (scalarLoad s va w) := by
  refine resAll_andThen (resAll_mapTrap (wf_resolveAligned _ _ va w s h)) fun p s h => ?_
  have hregister := wf_devRead (pa := p.pa) (n := w) (wf_roundTrip (pa := p.pa) h)
  have hbytes := wf_loadNum (sc := true) (p := p) (n := w) h
  generalize homeOf p.pa = home
  generalize devRead _ _ _ = r at hregister ⊢
  obtain ⟨v, s1⟩ := r
  cases home with
  | device => exact hregister
  | _ => exact hbytes

theorem wf_scalarStore {s va w v} (h : Wf s) : ResAll Wf (scalarStore s va w v) := by
  refine resAll_andThen (resAll_mapTrap (wf_resolveAligned _ _ va w s h)) fun p s h => ?_
  split
  · exact resAll_ok (wf_devWrite (wf_roundTrip h))
  · exact resAll_ok (wf_plainStore _ _ _ _ _ h)

theorem wf_unitRead {read : State → Place → Nat → List Byte × State} (hr : ∀ s p n, Wf s → Wf (read s p n).2) {u w} :
    ∀ {n va s acc}, Wf s → ResAll Wf (unitRead read va u w n s acc)
  | 0, _, _, _, h => h
  | n + 1, va, s, _, h =>
    resAll_andThen (resAll_mapTrap (wf_resolve _ _ va u s h)) fun p s h => wf_unitRead hr (n := n) (hr s p u h)

theorem wf_unitLoad {sc va u w n s acc} (h : Wf s) : ResAll Wf (unitLoad sc va u w n s acc) := wf_unitRead (fun s p k h => wf_loadBytes s sc p k h) h

theorem wf_readSeen {s p n} (h : Wf s) : Wf (readSeen s p n).2 := wf_readNow _ true p n (wf_forgetEarly _ _ (wf_drainWhere _ s h))

theorem wf_fetchBytes {s p} (h : Wf s) : Wf (fetchBytes s p).2 := by
  have hread := wf_readBytes _ s.me p.pa 4 (wf_roundTrip (pa := p.pa) h)
  unfold fetchBytes
  dsimp only
  split
  · split
    · exact h
    · exact hread
  · exact hread

theorem wf_fetchWord {s va} (h : Wf s) : ResAll Wf (fetchWord s va) := by
  unfold fetchWord
  dsimp only
  refine resAll_ite h ?_
  split
  · exact h
  · exact h
  · exact h
  · exact h
  · exact resAll_andThen (resAll_mapTrap (wf_resolve _ _ va 4 s h)) fun p s h => resAll_ok (wf_fetchBytes (p := p) h)

/-! Scalar integer instructions (R297 to R305). -/

theorem wfOut_writeBack {s d v} (h : Wf s) : WfOut (writeBack s d v) := wf_setX h

theorem wfOut_writeBack_lb {s d v} (h : Wf s) : WfOut (withProfile .lb s (writeBack s d v)) := wfOut_withProfile h (wfOut_writeBack h)

theorem wfOut_aluRR {s d a b f} (h : Wf s) : WfOut (aluRR s d a b f) := wfOut_writeBack_lb h

theorem wfOut_aluRI {s d a b f} (h : Wf s) : WfOut (aluRI s d a b f) := wfOut_writeBack_lb h

/-- An instruction that only moves to a word. -/
theorem wfOut_jump {s t} (h : Wf s) : WfOut (withProfile .lb s (.next (s.jump t))) := wfOut_withProfile h h

theorem wfOut_execJal {o s} (h : Wf s) : WfOut (execJal o s) := wfOut_withProfile h (wf_setX h)

theorem wfOut_execJalr {d a i s} (h : Wf s) : WfOut (execJalr d a i s) := by
  refine wfOut_withProfile h (wfOut_ite (wfOut_takeTrap h) (wfOut_ite (wf_setX h) ?_))
  have hfetch := wf_fetchWord (va := (s.getX a + sext i) &&& ~~~ 1) h
  generalize fetchWord s _ = r at hfetch ⊢
  cases r with
  | ok w _ => exact wfOut_ite (wf_setX hfetch) (wfOut_takeTrap hfetch)
  | trap _ _ => exact wfOut_takeTrap (wf_setX hfetch)
  | wait _ _ => exact hfetch
  | gone _ => exact hfetch

theorem wf_loadNow {d a m i s} (h : Wf s) : ResAll Wf (loadNow d a m i s) :=
  resAll_andThen (wf_scalarLoad h) fun _ _ h => resAll_ok (wf_setX h)

theorem wf_loadLater {d a m i s} (h : Wf s) : ResAll Wf (loadLater d a m i s) :=
  resAll_andThen (resAll_mapTrap (wf_resolveAligned _ _ _ _ s h)) fun p _ ht =>
    resAll_ite (wf_loadNow h) (resAll_ok (wf_leaveLate _ false p _ _ ht))

theorem wfOut_execLd {d a m i s} (h : Wf s) : WfOut (execLd d a m i s) :=
  wfOut_withProfile h (wfOut_finish (resAll_ite (wf_loadLater h) (wf_loadNow h)))

theorem wfOut_execSt {v a m i s} (h : Wf s) : WfOut (execSt v a m i s) :=
  wfOut_withProfile h (wfOut_finish (resAll_andThen (wf_scalarStore h) fun _ _ h => resAll_ok h))

/-! Scalar floating point (R312 to R316). -/

theorem wfOut_fpWrite {s d r} (h : Wf s) : WfOut (fpWrite s d r) := wf_setX h

theorem wf_takeIsn {s rm} (h : Wf s) : Wf (takeIsn s rm) := wf_ite h h

theorem wfOut_rounded {s d r f} (h : Wf s) : WfOut (rounded s d r f) := by
  refine wfOut_withProfile h ?_
  split
  · exact wfOut_takeTrap h
  · exact wfOut_fpWrite (wf_takeIsn h)

theorem wfOut_fpWrite_lb {s d r} (h : Wf s) : WfOut (withProfile .lb s (fpWrite s d r)) := wfOut_withProfile h (wfOut_fpWrite h)

end Sys2Proof.Laws

/-!
SUPPORT. The canonical form of memory through the vector instructions that work on registers: they write vector state alone.
-/

namespace Sys2Proof.Laws

open Sys2Proof.Machine

/-! Register groups and predicates (R64 to R70). -/

theorem wf_setElem {s n w i v} (h : Wf s) : Wf (s.setElem n w i v) := h

theorem wf_setPred {s p v} (h : Wf s) : Wf (s.setPred p v) := wf_ite h h

theorem wf_writeTail {s c vl n w g} (h : Wf s) : Wf (writeTail s c vl n w g) := wf_ite h (wf_foldl (fun _ _ h => wf_ite h h) h)

theorem wf_writeActive {s0 e d w act f s} (h : Wf s) : Wf (writeActive s0 e d w act f s).1 := by
  refine foldl_keep (P := fun a : State × FFlags => Wf a.1) (fun a i h => ?_) _ _ h
  split
  · split
    exact wf_setElem h
  · split
    · exact wf_setElem h
    · exact h

theorem wf_of_writeActive {s0 e d w act f s s1 fl} (he : writeActive s0 e d w act f s = (s1, fl)) (h : Wf s) : Wf s1 := by
  have hactive := wf_writeActive (s0 := s0) (e := e) (d := d) (w := w) (act := act) (f := f) h
  rwa [he] at hactive

theorem wf_writeFirst {s e d v} (h : Wf s) : Wf (writeFirst s e d v) := by
  refine wf_ite h ?_
  split
  exact wf_writeTail (wf_of_writeActive ‹_› h)

theorem wf_writePred {s e d p f} (h : Wf s) : Wf (writePred s e d p f) := wf_ite h (wf_setPred h)

/-! Answers of a vector instruction. -/

theorem resAll_vtrap {α : Type} {code s} (h : Wf s) : ResAll Wf (vtrap code s : Res α) := h

theorem resAll_need {α : Type} {b code s} {f : Res α} (h : Wf s) (hf : ResAll Wf f) : ResAll Wf (need b code s f) := resAll_ite hf h

theorem resAll_whole {α : Type} {s} {f : Res α} (h : Wf s) (hf : ResAll Wf f) : ResAll Wf (whole s f) := resAll_need h hf

theorem resAll_endStrip {s e fl tail s1} (ht : ∀ s, Wf s → Wf (tail s)) (h : Wf s1) : ResAll Wf (endStrip s e fl tail s1) := by
  unfold endStrip
  split
  · exact resAll_ite h (ht _ h)
  · exact ht _ h

theorem resAll_endPred {s e d p fl f} (h : Wf s) : ResAll Wf (endPred s e d p fl f) := by
  unfold endPred
  dsimp only
  split
  · exact resAll_ite (wf_setPred h) (wf_writePred h)
  · exact wf_writePred h

theorem wf_elementwise {s e d p w f} (h : Wf s) : ResAll Wf (elementwise s e d p w f) := by
  refine resAll_ite h ?_
  split
  exact resAll_endStrip (fun _ h => wf_writeTail h) (wf_of_writeActive ‹_› h)

/-! The families that step through one group. -/

theorem wf_vint {d a b p fm any f s e} (h : Wf s) : ResAll Wf (vint d a b p fm any f s e) := resAll_need h (resAll_need h (wf_elementwise h))

theorem wf_vfround {d a b p fm r f s e} (h : Wf s) : ResAll Wf (vfround d a b p fm r f s e) := by
  unfold vfround
  split
  · exact resAll_vtrap h
  · exact resAll_need h (resAll_need h (wf_elementwise h))

theorem wf_vfexact {d a b p fm f s e} (h : Wf s) : ResAll Wf (vfexact d a b p fm f s e) := resAll_need h (resAll_need h (wf_elementwise h))

theorem wf_vopVfma {d a b c p r s e} (h : Wf s) : ResAll Wf (vopVfma d a b c p r s e) := by
  unfold vopVfma
  split
  · exact resAll_vtrap h
  · exact resAll_need h (resAll_need h (wf_elementwise h))

theorem wf_vopVfcvt {d a t p r s e} (h : Wf s) : ResAll Wf (vopVfcvt d a t p r s e) := by
  unfold vopVfcvt
  split
  · exact resAll_vtrap h
  · exact resAll_need h (wf_elementwise h)

theorem wf_vopVfsplit {d a p s e} (h : Wf s) : ResAll Wf (vopVfsplit d a p s e) := by
  refine resAll_need h (resAll_need h (resAll_ite h ?_))
  dsimp only
  exact resAll_endStrip (fun _ h => wf_writeTail (wf_writeTail h)) (wf_writeActive (wf_writeActive h))

theorem wf_vpred {d p f s e} (h : Wf s) : ResAll Wf (vpred d p f s e) := resAll_whole h (wf_writePred h)

theorem wf_reduce {d a any rounds f s e} (h : Wf s) : ResAll Wf (reduce d a any rounds f s e) := by
  refine resAll_need h (resAll_whole h ?_)
  split
  · exact resAll_vtrap h
  · exact resAll_need h (wf_writeFirst h)

theorem wf_reduceQ {q a any rounds f s e} (h : Wf s) : ResAll Wf (reduceQ q a any rounds f s e) := by
  refine resAll_need h (resAll_whole h ?_)
  split
  · exact resAll_vtrap h
  · exact resAll_need h (resAll_need h h)

theorem wf_depend {d a b p s e} (h : Wf s) : ResAll Wf (depend d a b p s e) := resAll_need h (resAll_whole h (resAll_need h (wf_elementwise h)))

/-- An instruction that answers its first element, or delivers it to a queue. -/
theorem wf_vopVlast {d a p s e} (h : Wf s) : ResAll Wf (vopVlast d a p s e) := by
  refine resAll_need h (resAll_whole h ?_)
  split
  · exact wf_writeFirst h
  · exact wf_ite h (wf_writeTail (wf_writeActive h))

theorem wf_vopVcompr {d a p s e} (h : Wf s) : ResAll Wf (vopVcompr d a p s e) := by
  refine resAll_need h (resAll_whole h (resAll_ite h ?_))
  dsimp only
  exact wf_writeTail (wf_writeActive h)

theorem wf_vopVpart {d a b s e} (h : Wf s) : ResAll Wf (vopVpart d a b s e) := resAll_need h (resAll_whole h (wf_ite h (wf_setPred h)))

theorem wf_vopQpopVector {d q s e} (h : Wf s) : ResAll Wf (vopQpopVector d q s e) := by
  refine resAll_need h ?_
  split
  · exact h
  · exact wf_elementwise h

theorem wf_setVcfg {s d a c} (h : Wf s) : Wf (setVcfg s d a c) := wf_setX h

/-! Completion, stops and dispatch (R76 to R83). -/

theorem wf_writeSample {s fs} (h : Wf s) : Wf (writeSample s fs) := wf_ite h (wf_produce h)

theorem wf_payEffects {s ef} (h : Wf s) : Wf (payEffects s ef) := by
  have hsample := wf_writeSample (fs := ef.sample) h
  unfold payEffects
  dsimp only
  split
  · exact wf_ite hsample hsample
  · exact hsample

theorem wf_applyEffects {s ef} (h : Wf s) : Wf (applyEffects s ef) := wf_payEffects (s := fromZero s) h

theorem wf_freeIssue {s e} (h : Wf s) : Wf (freeIssue s e) := by
  unfold freeIssue
  split
  · exact h
  · exact wf_onCore h

theorem wfOut_vectorTrap {s e rest t} (h : Wf s) : WfOut (vectorTrap s e rest t) := wfOut_takeTrap (s := stopVector s e rest t.owed) h

theorem wf_resumeStopped {s} (h : Wf s) : Wf (resumeStopped s) := by unfold resumeStopped; split <;> exact h

theorem wf_sampleDispatch {s e} (h : Wf s) : Wf (sampleDispatch s e).2 := by
  unfold sampleDispatch
  dsimp only
  split
  · exact h
  · split <;> exact h

theorem wf_passBody {s} (h : Wf s) : Wf (passBody s) := wf_ite h h

theorem wf_enqueue {s e r} (h : Wf s) : ∀ t ∈ enqueue s e r, Wf t := by
  intro t ht
  unfold enqueue at ht
  split at ht
  · cases ht
  · cases ht
    refine wf_passBody (wf_sampleDispatch ?_)
    split
    · exact wf_takeIsn h
    · exact h

theorem wfOut_dispatch {pr s e r charge op} (hc : ∀ s, Wf s → Wf (charge s e)) (hop : ∀ s, Wf s → ResAll Wf (op s e)) (h : Wf s) :
    WfOut (dispatch pr s e r charge op) := by
  refine wfOut_withProfile h (wfOut_ite ?now ?later)
  case now =>
    dsimp only
    generalize ha : op (charge _ e) e = a
    have hrun : ResAll Wf a := by
      rw [← ha]
      refine hop _ (hc _ ?_)
      split
      · exact wf_takeIsn h
      · exact h
    cases a with
    | ok ef _ => exact wfOut_ite hrun (wfOut_ite (wf_applyEffects hrun) hrun)
    | trap _ _ => exact wfOut_vectorTrap hrun
    | wait _ _ => cases r with
      | some _ => exact wf_takeIsn h
      | none => exact h
    | gone _ => exact hrun
  case later =>
    split
    · exact wf_enqueue h _ ‹_›
    · exact h

end Sys2Proof.Laws

/-!
SUPPORT. The canonical form of memory through vector memory: loads, stores and VAMO (R183, R249 to R255, R386, R387).
-/

namespace Sys2Proof.Laws

open Sys2Proof.Machine

/-! The open accesses of an instruction (R201). -/

theorem wf_landAll {s} (h : Wf s) : Wf (landAll s) := wf_landWhere _ s h

theorem wf_forceOpen {s ef} (h : Wf s) : Wf (forceOpen s ef) := by
  unfold forceOpen
  split
  · exact wf_landWhere _ _ (wf_performLateAt _ _ _ (wf_performAt _ _ _ h))
  · exact h

theorem wf_payOwing {s ef} (h : Wf s) : Wf (payOwing s ef) := wf_payEffects h

theorem wf_owingStep {s} (h : Wf s) : ∀ t ∈ owingStep s, Wf t := by
  intro t ht
  unfold owingStep at ht
  split at ht
  · cases ht
    exact wf_payOwing h
  · split at ht
    · cases ht
      exact wf_ite (wf_forceOpen h) (wf_payOwing (wf_forceOpen h))
    · cases ht

theorem wf_payAll {s} (h : Wf s) : Wf (payAll s) := wf_foldl (fun _ _ h => wf_payOwing (wf_forceOpen h)) h

theorem wf_settleStop {op t s} (h : Wf s) : Wf (settleStop op t s).2 := by
  unfold settleStop
  dsimp only
  split
  · exact h
  · exact wf_landWhere _ _ (wf_performWhere _ s h)

theorem wf_ownVector {s p n} (h : Wf s) : Wf (ownVector s p n) := wf_drainWhere _ s h

/-! One element. -/

theorem wf_readyElem {o k s0 e i f s} (h : Wf s) : ResAll Wf (readyElem o k s0 e i f s) := wf_resolveAligned _ _ _ _ s h

theorem wf_loadFields {o d s0 e p i s} (h : Wf s) : ResAll Wf (loadFields o d s0 e p i s) := by
  refine resAll_foldRes (fun acc f s h => resAll_andThen (resAll_mapTrap (wf_readyElem h)) fun pl s h => ?_) _ _ _ h
  dsimp only
  split
  · exact wf_leaveLate _ true pl _ _ (wf_ownVector h)
  · exact wf_loadNum h

theorem wf_storeField {o s0 e i f p raw s} (h : Wf s) : Wf (storeField o s0 e i f p raw s) :=
  wf_ite (wf_plainBits s false p _ _ _ h) (wf_plainStore s false p _ _ h)

theorem wf_storeFields {o v s0 e p i s} (h : Wf s) : ResAll Wf (storeFields o v s0 e p i s) := by
  refine resAll_andThen (resAll_foldRes (fun acc f s h => resAll_andThen (resAll_mapTrap (wf_readyElem h)) fun pl s h => ?_) _ _ _ h)
    fun pls s h => ?_
  · exact resAll_ite h h
  · exact foldl_keep (P := fun r : FFlags × State => Wf r.2) (fun r f h => wf_storeField h) _ _ h

theorem wf_putFields {d e i vs s} (h : Wf s) : Wf (putFields d e i vs s) := wf_foldl (fun _ _ h => wf_setElem h) h

theorem wf_skipElem {o d e i s} (h : Wf s) : Wf (skipElem o d e i s) := wf_ite (wf_putFields h) h

theorem wf_tailFields {o d e s} (h : Wf s) : Wf (tailFields o d e s) := wf_foldl (fun _ _ h => wf_writeTail h) h

theorem wf_countShort {s c} (h : Wf s) : Wf (countShort s c) := wf_ite (wf_countEvent (wf_countEvent h)) (wf_countEvent h)

theorem wf_dropFields {i s} (h : Wf s) : Wf (dropFields i s) := wf_ite h h

theorem resAll_memChecks {α : Type} {o d s e} {f : Res α} (h : Wf s) (hf : ResAll Wf f) : ResAll Wf (memChecks o d s e f) :=
  resAll_need h (resAll_need h hf)

/-! Ordered forms (R386). -/

theorem wf_loadLoop {o d p ff atStop s0 e} (h0 : Wf s0) (hs : ∀ i s, Wf s → Wf (atStop i s)) :
    ∀ {is fl s}, Wf s → ResAll Wf (loadLoop o d p ff atStop s0 e is fl s)
  | [], _, _, h => h
  | i :: r, fl, s, h => by
    unfold loadLoop
    refine resAll_ite (hs _ _ h) (resAll_ite ?_ (wf_loadLoop h0 hs (wf_skipElem h)))
    have hload := wf_loadFields (o := o) (d := some d) (s0 := s0) (e := e) (p := p) (i := i) h
    generalize loadFields _ _ _ _ _ _ _ = a at hload ⊢
    cases a with
    | ok _ _ => exact wf_loadLoop h0 hs (wf_putFields hload)
    | trap _ _ => exact resAll_ite (wf_countShort h) (hs _ _ (wf_dropFields hload))
    | wait _ _ => exact h0
    | gone _ => exact hload

theorem wf_storeLoop {o v p s0 e} (h0 : Wf s0) : ∀ {is fl s}, Wf s → ResAll Wf (storeLoop o v p s0 e is fl s)
  | [], _, _, h => h
  | i :: r, fl, s, h => by
    unfold storeLoop
    refine resAll_ite h (resAll_ite ?_ (wf_storeLoop h0 h))
    have hstore := wf_storeFields (o := o) (v := v) (s0 := s0) (e := e) (p := p) (i := i) h
    generalize storeFields _ _ _ _ _ _ _ = a at hstore ⊢
    cases a with
    | ok _ _ => exact wf_storeLoop h0 hstore
    | trap _ _ => exact hstore
    | wait _ _ => exact h0
    | gone _ => exact hstore

theorem wf_orderedLoad {o d p s e} (h : Wf s) : ResAll Wf (orderedLoad o d p s e) :=
  resAll_memChecks h (resAll_ite h (resAll_andThen (wf_loadLoop h (fun _ _ h => h) h) fun _ _ h => wf_tailFields h))

theorem wf_orderedStore {o v p s e} (h : Wf s) : ResAll Wf (orderedStore o v p s e) :=
  resAll_memChecks h (resAll_ite h (resAll_andThen (wf_storeLoop h h) fun _ _ h => h))

/-! Indexed forms (R387). -/

theorem wf_indexedLoop {perform : Nat → State → Res FFlags} (hp : ∀ i s, Wf s → ResAll Wf (perform i s)) {s0 e} (h0 : Wf s0) :
    ∀ {is done fl s}, Wf s → ResAll Wf (indexedLoop perform s0 e is done fl s)
  | [], _, _, _, h => h
  | i :: r, done, fl, s, h => by
    unfold indexedLoop
    refine resAll_ite h ?_
    have hone := hp i s h
    generalize perform i s = a at hone ⊢
    cases a with
    | ok _ _ => exact wf_indexedLoop hp h0 hone
    | trap _ _ => exact hone
    | wait _ _ => exact h0
    | gone _ => exact hone

theorem resAll_stopIndexed {s e p v done bits f t fl} (h : Wf s) : ResAll Wf (stopIndexed s e p v done bits f t fl) := h

theorem wf_indexed {o p perform skip finish s e} (hp : ∀ i s, Wf s → ResAll Wf (perform i s)) (hskip : ∀ l s, Wf s → Wf (skip l s))
    (hfinish : ∀ s, Wf s → Wf (finish s)) (h : Wf s) : ResAll Wf (indexed o p perform skip finish s e) := by
  refine resAll_ite h (resAll_andThen (wf_indexedLoop hp h h) fun r s1 h1 => ?_)
  dsimp only
  split
  · exact hfinish _ (hskip _ _ h1)
  · exact hskip _ _ h1
  · exact resAll_stopIndexed (hskip _ _ h1)

theorem wf_indexedLoad {o d p s e} (h : Wf s) : ResAll Wf (indexedLoad o d p s e) :=
  resAll_need h (resAll_memChecks h (wf_indexed (fun _ _ h => resAll_andThen (wf_loadFields h) fun _ _ h => wf_putFields h)
    (fun _ _ h => wf_foldl (fun _ _ h => wf_ite h (wf_skipElem h)) h) (fun _ h => wf_tailFields h) h))

theorem wf_indexedStore {o v p s e} (h : Wf s) : ResAll Wf (indexedStore o v p s e) :=
  resAll_need h (wf_indexed (fun _ _ h => wf_storeFields h) (fun _ _ h => h) (fun _ h => h) h)

/-! The instructions. -/

theorem wf_mergeLine {op s line} (h : Wf s) : Wf (mergeLine op s line) := by unfold mergeLine; dsimp only; split <;> exact h

theorem wf_endStores {e op s} (h : Wf s) : Wf (endStores e op s) := by
  have hmerged : Wf (s.m.poison.foldl (mergeLine op) s) := wf_foldl (fun _ _ h => wf_mergeLine h) h
  unfold endStores
  dsimp only
  split
  · exact wf_drainLines _ _ (wf_ite h (wf_ite hmerged (wf_drainWhere _ _ hmerged)))
  · exact wf_ite h (wf_ite hmerged (wf_drainWhere _ _ hmerged))

theorem wf_memOp {f s e} (hf : ∀ s e, Wf s → ResAll Wf (f s e)) (h : Wf s) : ResAll Wf (memOp f s e) := by
  unfold memOp
  split
  · exact h
  · rename_i s1 hready
    have hs1 : Wf s1 := wf_vecReady s s1 _ h hready
    dsimp only
    generalize ha : f _ e = a
    have hrun : ResAll Wf a := ha ▸ hf _ e hs1
    cases a with
    | ok _ _ => exact wf_endStores hrun
    | trap _ _ => exact wf_settleStop (wf_endStores hrun)
    | wait _ _ => exact hrun
    | gone _ => exact hrun

theorem wf_vopVldff {d b p m s e} (h : Wf s) : ResAll Wf (vopVldff d b p m s e) := by
  unfold vopVldff
  dsimp only
  refine wf_memOp (fun s e h => ?_) h
  refine resAll_memChecks h (resAll_ite h ?_)
  refine resAll_andThen (wf_loadLoop h (fun _ _ h => wf_setPred h) h) fun r s1 h1 => ?_
  exact wf_setPred (wf_tailFields (wf_foldl (fun _ _ h => wf_skipElem h) h1))

theorem wf_vopVpref {p m s e} (h : Wf s) : ResAll Wf (vopVpref p m s e) := by
  refine wf_foldl (fun s1 i h => ?_) h
  split
  · exact wf_countEvent h
  · exact h

/-! VAMO (R249 to R251, R255). -/

theorem wf_vamoStep {v op w s0 e acc r s} (h0 : Wf s0) (h : Wf s) : ResAll Wf (vamoStep v op w s0 e acc r s) := by
  have hplace := wf_resolveAligned s.ctx { kind := 3, quiet := true } (vamoAddr e r.1) e.w s h
  unfold vamoStep
  dsimp only
  generalize resolveAligned _ _ _ _ _ = a at hplace ⊢
  cases a with
  | ok pl _ => exact resAll_ite h0 (wf_sendUpdate _ _ false _ pl w op _ hplace)
  | trap _ _ => exact hplace
  | wait _ _ => exact h0
  | gone _ => exact hplace

theorem wf_vamo {v b c p op s e} (h : Wf s) : ResAll Wf (vamo v b c p op s e) := by
  refine resAll_need h ?_
  split
  · exact resAll_vtrap h
  · rename_i w _
    have hruns : ∀ rs acc, ResAll Wf (foldRes (vamoStep v op w s e) rs acc s) := fun rs acc =>
      resAll_foldRes (fun _ _ _ hs => wf_vamoStep h hs) rs acc s h
    refine resAll_need h (resAll_ite h (resAll_andThen (hruns _ _) fun acc s1 h1 => ?_))
    split
    · exact h1
    · exact resAll_ite (resAll_andThen (hruns _ _) fun _ _ h2 => resAll_stopIndexed h2) (resAll_stopIndexed h1)

end Sys2Proof.Laws

/-!
SUPPORT. The canonical form of memory through the algebra and matrix instructions and the service of pages, and through every operation of the vector
stream.
-/

namespace Sys2Proof.Laws

open Sys2Proof.Machine

/-! Algebra (R165 to R170). -/

theorem wf_algebra {d a b p g rounds f s e} (h : Wf s) : ResAll Wf (algebra d a b p g rounds f s e) := by
  unfold algebra
  dsimp only
  split
  · exact resAll_vtrap h
  · exact resAll_need h (resAll_need h (resAll_ite h (resAll_endStrip (fun _ h => wf_writeTail h) (wf_writeActive h))))

theorem wf_vopVaconj {d a p g s e} (h : Wf s) : ResAll Wf (vopVaconj d a p g s e) := by
  unfold vopVaconj
  exact wf_algebra h

theorem wf_vopVaconjRev {d a p g s e} (h : Wf s) : ResAll Wf (vopVaconjRev d a p g s e) := by
  unfold vopVaconjRev
  exact wf_algebra h

theorem wfOut_execAlgld {t a s} (h : Wf s) : WfOut (execAlgld t a s) := by
  refine wfOut_withProfile h (wfOut_whenDrained h (wfOut_ite (wfOut_takeTrap h) (wfOut_finish ?_)))
  exact resAll_andThen (wf_unitRead (fun _ _ _ h => wf_readSeen h) h) fun _ _ h => resAll_ite h h

/-! Tiles (R154 to R160). -/

theorem wf_putRow {s t r cs} (h : Wf s) : Wf (s.putRow t r cs) := h

theorem wf_setKind {s t k} (h : Wf s) : Wf (s.setKind t k) := h

theorem wf_vopMmac {t a s e} (h : Wf s) : ResAll Wf (vopMmac t a s e) := by
  refine resAll_whole h (resAll_need h (resAll_need h (resAll_ite h ?_)))
  split
  · exact resAll_vtrap h
  · dsimp only
    split
    · exact resAll_vtrap h
    · refine resAll_need h (resAll_need h (resAll_ite h (resAll_ok ?_)))
      refine wf_setKind (foldl_keep (P := fun a : State × BitVec 3 => Wf a.1) (fun acc r h => ?_) _ _ h)
      exact wf_putRow h

theorem wf_vopMzero {t s e} (h : Wf s) : ResAll Wf (vopMzero t s e) := resAll_whole h (resAll_need h h)

theorem wf_vopMldacc {t a s e} (h : Wf s) : ResAll Wf (vopMldacc t a s e) :=
  resAll_whole h (resAll_need h (resAll_need h (resAll_ite h (wf_foldl (fun _ _ h => wf_putRow h) h))))

theorem wf_loadBook {c s e} (h : Wf s) : ResAll Wf (loadBook c s e) :=
  resAll_whole h (resAll_andThen (resAll_mapTrap (wf_resolveAligned _ _ _ _ s h)) fun p _ h =>
    resAll_ite (wf_leaveLate _ true p _ _ (wf_ownVector h)) (wf_loadBytes _ false p 32 h))

theorem wf_vopMdrainRegister {t v m s e} (h : Wf s) : ResAll Wf (vopMdrainRegister t v m s e) :=
  resAll_whole h (resAll_need h (resAll_need h (resAll_ite h (wf_foldl (fun _ _ h => wf_writeTail h) (wf_foldl (fun _ _ h => wf_setElem h) h)))))

theorem wf_drainMemory {t b m s e} (h : Wf s) : ResAll Wf (drainMemory t b m s e) := by
  refine resAll_whole h (resAll_need h (resAll_need h (resAll_ite h (resAll_ite h (resAll_andThen ?ready fun ps s h => ?store)))))
  case ready =>
    refine resAll_foldRes (fun acc x s h => ?_) _ _ _ h
    exact resAll_andThen (resAll_mapTrap (wf_resolveAligned _ _ _ _ s h)) fun _ _ h => resAll_ite h h
  case store => exact wf_foldl (fun s x h => wf_plainStore s false x.2 _ _ h) h

/-! Fills (R147 to R151, R341). -/

theorem wf_startFill {s r src} (h : Wf s) : Wf (startFill s r src) :=
  wf_onCore (s := s.onPkg fun p => { p with idCtr := p.idCtr + 1 }) h

theorem wf_readySources {cx o c s} (h : Wf s) : ResAll Wf (readySources cx o c s) :=
  resAll_foldRes (fun _ _ s h => resAll_andThen (resAll_mapTrap (wf_resolveAligned _ _ _ _ s h)) fun _ _ h => resAll_ok h) _ _ _ h

theorem wf_fillPanel {i g s e} (h : Wf s) : ResAll Wf (fillPanel i g s e) := by
  refine resAll_whole h (resAll_need h (resAll_ite h (resAll_andThen (wf_unitLoad h) fun bs s1 h1 => ?_)))
  refine resAll_need h1 (resAll_ite h1 ?_)
  have hsources := wf_readySources (cx := s1.ctx) (o := fillOpOf i (s.alg g)) (c := FillCard.parse bs) h1
  generalize readySources _ _ _ _ = a at hsources ⊢
  cases a with
  | ok _ _ => exact wf_startFill hsources
  | trap _ _ => exact wf_onCore hsources
  | wait _ _ => exact hsources
  | gone _ => exact hsources

theorem wf_vopMfill {i g s e} (h : Wf s) : ResAll Wf (vopMfill i g s e) :=
  wf_memOp (fun _ _ h => wf_fillPanel (wf_performWhere _ _ (wf_drainWhere _ _ h))) h

theorem wf_ask {k : Asking} {w lines s} (h : Wf s) : Wf (k.ask w lines s).2 := wf_requestLines h

theorem wf_registerLine {s panel line} (h : Wf s) : Wf (registerLine s panel line) := h

theorem wf_sourceLine {cx task panel line got k s} (h : Wf s) : Wf (sourceLine cx task panel line got k s).2 := by
  unfold sourceLine
  split
  · exact h
  · exact wf_registerLine (wf_registerLine (wf_ask (wf_readBytes _ _ _ _ (wf_l1Read _ _ _ _ h))))

theorem wf_fillUnit {cx task panel va n got k s} (h : Wf s) : ResAll Wf (fillUnit cx task panel va n got k s) :=
  resAll_andThen (wf_resolveAligned _ _ _ _ s h) fun _ _ h => resAll_ok (wf_sourceLine h)

/-! The service of pages (R238). -/

theorem wf_pagerWrite {c pa bs s} (h : Wf s) : ResAll Wf (pagerWrite c pa bs s) :=
  resAll_andThen (resAll_foldRes (fun _ l _ h => wf_atHome l _ h) _ _ s h) fun _ _ h => wf_writeHome _ _ _ _ (wf_askDie _ _ _ h)

/-- The answer is named, so that the 4,096 bytes of the frame are never listed. -/
theorem wf_takeFrame {c d fill s r} (hr : takeFrame c d fill s = r) (h : Wf s) : ResAll Wf r := by
  unfold takeFrame at hr
  generalize (List.range 4096).map fill = bytes at hr
  rw [← hr]
  exact resAll_andThen (wf_pagerWrite h) fun _ _ h => h

theorem wf_storePte {c a e s} (h : Wf s) : ResAll Wf (storePte c a e s) := wf_pagerWrite h

theorem wf_mapFrom {c va n table ph s} (h : Wf s) : ResAll Wf (mapFrom c va n table ph s) := by
  induction n generalizing table ph s with
  | zero =>
    unfold mapFrom
    refine resAll_andThen (wf_readPte _ _ _ h) fun e s h => ?_
    dsimp only
    generalize frameDie _ _ _ _ = die
    cases die with
    | none => exact h
    | some _ =>
      refine resAll_ite h ?_
      generalize hr : takeFrame _ _ _ _ = r
      exact resAll_andThen (wf_takeFrame hr h) fun _ _ h => wf_storePte h
  | succ m ih =>
    unfold mapFrom
    refine resAll_andThen (wf_readPte _ _ _ h) fun e s h => ?_
    dsimp only
    generalize frameDie _ _ _ _ = die
    cases die with
    | none => exact h
    | some _ =>
      refine resAll_ite (resAll_ite h (ih h)) ?_
      generalize hr : takeFrame _ _ _ _ = r
      exact resAll_andThen (wf_takeFrame hr h) fun _ _ h => resAll_andThen (wf_storePte h) fun _ _ h => ih h

theorem wf_servicePage {c troot va s} (h : Wf s) : ResAll Wf (servicePage c troot va s) := by
  have hdef : servicePage = servicePage := rfl
  conv_rhs at hdef => delta servicePage
  have hres := congrFun (congrFun (congrFun (congrFun hdef c) troot) va) s
  generalize migrating s troot va = moving at hres
  rw [hres]
  refine resAll_ite h ?_
  match moving with
  | none => exact h
  | some true => exact h
  | some false => exact wf_mapFrom h

theorem wf_serviceRecord {c troot sfva stride rem width s} (h : Wf s) : ResAll Wf (serviceRecord c troot sfva stride rem width s) :=
  resAll_foldRes (fun _ _ _ h => wf_servicePage h) _ _ s h

/-! The operation of each vector instruction. -/

/-- The cases are those of `vecOp`, in its order; a run of instructions of one family has one proof. -/
theorem wf_vecOp {i s e} (h : Wf s) : ResAll Wf (vecOp i s e) := by
  unfold vecOp
  split
  · exact resAll_need h (resAll_need h (wf_elementwise h)) -- vid
  iterate 2 exact resAll_need h (wf_elementwise h) -- vsplat to vmv
  · exact resAll_need h (resAll_whole h (wf_writeFirst h)) -- vext
  · exact wf_vopVlast h -- vlast
  iterate 2 exact resAll_need h (resAll_whole h (resAll_need h h)) -- vextQ to vlastQ
  iterate 15 exact wf_vint h -- vadd to vsadd
  iterate 4 exact wf_vfround h -- vfadd to vfdiv
  iterate 2 exact wf_vfexact h -- vfmin to vfmax
  · exact wf_vfround h -- vfscale
  · exact wf_vopVfsplit h -- vfsplit
  · exact wf_vfround h -- vfsqrt
  · exact wf_vfexact h -- vfrsqe
  · exact wf_vopVfcvt h -- vfcvt
  · exact wf_vfexact h -- vfclass
  · exact wf_vopVfma h -- vfma
  iterate 2 exact resAll_need h (resAll_need h (resAll_endPred h)) -- vcmp to vfcmp
  iterate 5 exact wf_reduce h -- vrsum to vrlog
  iterate 5 exact wf_reduceQ h -- vrsumQ to vrlogQ
  iterate 3 exact resAll_need h (resAll_whole h (wf_elementwise h)) -- vslup to vperm
  · exact wf_vopVcompr h -- vcompr
  · exact resAll_need h (resAll_whole h (wf_elementwise h)) -- vmerge
  iterate 8 exact wf_vpred h -- pand to pbrkThru
  · exact resAll_need h (resAll_whole h (resAll_need h (wf_writeFirst h))) -- pcnt
  · exact resAll_whole h (resAll_need h h) -- pcntQ
  iterate 2 exact wf_depend h -- vdep to vdepx
  · exact wf_vopVpart h -- vpart
  · exact wf_algebra h -- vamul
  · exact wf_vopVaconj h -- vaconj
  · exact wf_vopVaconjRev h -- vaconjRev
  iterate 2 exact wf_algebra h -- vanorm to vasand
  iterate 2 exact wf_memOp (fun _ _ h => wf_orderedLoad h) h -- vld to vlds
  · exact wf_memOp (fun _ _ h => wf_indexedLoad h) h -- vldx
  · exact wf_vopVldff h -- vldff
  iterate 2 exact wf_memOp (fun _ _ h => wf_orderedStore h) h -- vst to vsts
  · exact wf_memOp (fun _ _ h => wf_indexedStore h) h -- vstx
  · exact wf_vopVpref h -- vpref
  · exact wf_memOp (fun _ _ h => wf_orderedLoad h) h -- vldseg
  · exact wf_memOp (fun _ _ h => wf_orderedStore h) h -- vstseg
  · exact wf_memOp (fun _ _ h => wf_vamo h) h -- vamo
  · exact wf_vopMmac h -- mmac
  · exact wf_vopMzero h -- mzero
  · exact wf_vopMldacc h -- mldacc
  · exact wf_memOp (fun _ _ h => wf_loadBook h) h -- mcb
  · exact wf_vopMfill h -- mfill
  · exact wf_memOp (fun _ _ h => wf_drainMemory h) h -- mdrainMemory
  · exact wf_vopMdrainRegister h -- mdrainRegister
  · exact wf_vopQpopVector h -- qpopVector
  iterate 2 exact h

end Sys2Proof.Laws

/-!
SUPPORT. The canonical form of memory through the vector stream: issue, completion, stops and records (R79 to R84, R99, R196, R282).
-/

namespace Sys2Proof.Laws

open Sys2Proof.Machine

/-! Outcomes that a step may have. -/

/-- The outcome, where there is one, keeps the form of memory. -/
def WfOpt : Option (Host.Outcome State Fault Refusal) → Prop
  | some o => WfOut o
  | none => True

theorem wfOpt_none : WfOpt none := trivial

theorem wfOpt_ite {x y} {c : Prop} [Decidable c] (hx : WfOpt x) (hy : WfOpt y) : WfOpt (if c then x else y) := by split <;> assumption

theorem wfOut_getD {o d} (ho : WfOpt o) (hd : WfOut d) : WfOut (o.getD d) := by
  cases o with
  | some _ => exact ho
  | none => exact hd

theorem wfOpt_or {o p} (ho : WfOpt o) (hp : WfOpt p) : WfOpt (o.or p) := by
  cases o with
  | some _ => exact ho
  | none => exact hp

theorem wfOpt_map_next {o : Option State} (h : ∀ t ∈ o, Wf t) : WfOpt (o.map .next) := by
  cases o with
  | some t => exact h t rfl
  | none => trivial

theorem wfOut_backTo {c n o} (h : WfOut o) : WfOut (backTo c n o) := by
  cases o with
  | next _ => exact wf_switchTo h
  | fault _ => trivial
  | refused _ => trivial

/-! Issue and records (R99, R282, R290). -/

theorem wf_occupy {e b s} (h : Wf s) : Wf (occupy e b s).2 := by unfold occupy; split <;> exact h

theorem wf_issueAlone {s e} (h : Wf s) : Wf (issueAlone s e) := wf_occupy h

theorem wf_elemBreaks {s0 e ef s} (h : Wf s) : Wf (elemBreaks s0 e ef s) := wf_ite h (wf_fireBreaks h)

theorem wf_freeValues : ∀ {n s}, Wf s → Wf (freeValues n s).2
  | 0, _, h => h
  | n + 1, s, h => wf_freeValues (n := n) (s := s.useFresh.2) h

theorem wf_sampleFields {s0 e how short elems s} (h : Wf s) : Wf (sampleFields s0 e how short elems s).2 := by
  unfold sampleFields
  split
  · exact h
  · exact wf_freeValues (n := 20) h

theorem wf_sampleRecord {s0 e how short elems s} (h : Wf s) : Wf (sampleRecord s0 e how short elems s) := wf_writeSample (wf_sampleFields h)

theorem wf_discardRecords {es s} (h : Wf s) : Wf (discardRecords es s) := wf_foldl (fun _ _ h => wf_sampleRecord h) h

theorem wf_stopRecords {s0 e s} (h : Wf s) : Wf (stopRecords s0 e s) := wf_discardRecords (wf_sampleRecord h)

/-! The head of the VIQ. -/

theorem wf_popHead {s e at_} (h : Wf s) : Wf (popHead s e at_) := by
  unfold popHead
  dsimp only
  generalize hpop : (if (!e.nested) = true then _ else _) = popped
  have hpopped : Wf popped := by
    rw [← hpop]
    refine wf_ite h ?_
    split
    · exact h
    · refine wf_ite h ?_
      split <;> exact h
  exact wf_ite hpopped hpopped

theorem wf_completeHead {s e at_ ef} (h : Wf s) : Wf (completeHead s e at_ ef) := wf_popHead (wf_applyEffects (wf_freeIssue h))

theorem wf_nestStart {s e} (h : Wf s) : Wf (nestStart s e) := by
  unfold nestStart
  split
  · exact wf_ite h h
  · exact h

theorem wf_atLevel {s e} (h : Wf s) : Wf (atLevel s e) := wf_nestStart h

theorem wf_oweHead {s e at_ ef} (h : Wf s) : Wf (oweHead s e at_ ef) := wf_freeIssue h

theorem wf_dropViq {s e} (h : Wf s) : Wf (dropViq s e) := wf_freeIssue (wf_discardRecords h)

theorem wfOpt_runHead {s e at_} (h : Wf s) : WfOpt (runHead s e at_) := by
  unfold runHead
  dsimp only
  have hrun := wf_vecOp (i := e.instr) (e := e) (wf_atLevel (e := e) h)
  generalize vecOp _ _ _ = a at hrun
  cases a with
  | ok ef s0 =>
    dsimp only
    generalize hr : (if lastRun s e = true then _ else _ : List (Nat × Nat × Nat) × State) = r
    have hrecords : Wf r.2 := by
      rw [← hr]
      split
      · exact wf_sampleFields (wf_elemBreaks hrun)
      · exact wf_elemBreaks hrun
    exact wfOpt_ite (wf_popHead (wf_freeIssue hrecords)) (wfOpt_ite (wf_completeHead hrecords) (wf_oweHead hrecords))
  | trap t s0 =>
    dsimp only
    generalize hs1 : (if e.level = Level.s then s0 else _) = s1
    have hback : Wf s1 := by rw [← hs1]; exact wf_ite hrun hrun
    exact wfOpt_ite (wfOpt_ite (wf_dropViq hback) trivial) (wfOut_vectorTrap (wf_freeIssue (wf_stopRecords (wf_elemBreaks hback))))
  | wait _ _ => trivial
  | gone _ => exact hrun

/-! The arbiters (R99). -/

theorem wf_markIssue {s t i} (h : Wf s) : Wf (markIssue s t i) := by
  refine wf_asThread s _ _ _ (fun s h => ?_) h
  split <;> exact h

theorem clocksOf_snd {s t e b} : (arbitrate.clocksOf s t e b).2 = (occupy e b s).2 := by rw [arbitrate.clocksOf]

theorem wf_clocksOf {s t e b} (h : Wf s) : Wf (arbitrate.clocksOf s t e b).2 := by
  rw [clocksOf_snd]
  exact wf_occupy h

/-- The issue of the entry of thread t at core c, with what else changes there, keeps the form. -/
theorem wf_issued {s t u i c f} (h : Wf s) : Wf ((markIssue (s.putThread u) t i).onCore c f) := wf_onCore (wf_markIssue (wf_putThread h))

theorem wf_arbitrate {s c array} (h : Wf s) : Wf (arbitrate s c array) := by
  unfold arbitrate
  extract_lets ready rs s1 total fit free
  have hs1 : Wf s1 := wf_ite h (wf_foldl (fun _ _ h => wf_putThread h) h)
  clear_value s1
  split
  · exact hs1
  next t _ =>
  split
  · exact hs1
  next e _ =>
  split <;> split
  case' isTrue.isFalse | isFalse.isFalse =>
    extract_lets share b
    have hclocks := wf_clocksOf (t := t) (e := e) (b := b) hs1
    generalize arbitrate.clocksOf _ _ _ _ = clocks at hclocks ⊢
    obtain ⟨occ, s2⟩ := clocks
    exact wf_issued hclocks
  all_goals exact hs1

theorem wf_arbiterClock {s c} (h : Wf s) : Wf (arbiterClock s c) := by
  unfold arbiterClock
  exact wf_arbitrate (wf_arbitrate h)

theorem wfOpt_headStep {s} (h : Wf s) : WfOpt (headStep s) := by
  unfold headStep
  split
  · trivial
  · exact wf_discardRecords h
  · split
    · exact wfOpt_ite (wf_completeHead h) trivial
    · refine wfOpt_ite (wfOpt_ite ?_ trivial) (wfOpt_runHead h)
      have hclock := wf_arbiterClock (c := s.ct.lcore) h
      generalize arbiterClock s s.ct.lcore = s1 at hclock ⊢
      dsimp only
      split
      · exact wfOpt_ite (wfOpt_runHead hclock) (wfOpt_ite trivial hclock)
      · trivial

theorem wfOpt_vectorStep {s} (h : Wf s) : WfOpt (vectorStep s) := wfOpt_or (wfOpt_headStep h) (wfOpt_map_next (wf_owingStep h))

theorem wf_issueHead {s} (h : Wf s) : Wf (issueHead s) := by
  unfold issueHead
  split
  · exact wf_ite (wf_arbiterClock h) h
  · exact h

theorem wf_stopVector {s e rest owed} (h : Wf s) : Wf (stopVector s e rest owed) := h

theorem wf_cutHead {s k} (h : Wf s) : Wf (cutHead s k) := by
  have hissued := wf_issueHead h
  unfold cutHead
  dsimp only
  generalize issueHead s = s1 at hissued
  split
  · rename_i e _ _
    refine wf_ite h ?_
    have hrun := wf_vecOp (i := e.instr) (e := { e with stop := some k }) (wf_atLevel (e := e) hissued)
    generalize vecOp _ _ _ = a at hrun
    cases a with
    | trap _ _ => exact wf_ite (wf_stopVector (wf_freeIssue (wf_stopRecords (wf_elemBreaks hrun)))) h
    | ok _ _ => exact h
    | wait _ _ => exact h
    | gone _ => exact h
  · exact h

/-! Dispatch of the vector instructions. -/

theorem wfOut_vector {pr i s} (h : Wf s) : WfOut (vector pr i s) := wfOut_dispatch (fun _ h => wf_issueAlone h) (fun _ h => wf_vecOp h) h

theorem wfOut_execMfill {d a m e g sd s} (h : Wf s) : WfOut (execMfill d a m e g sd s) :=
  wfOut_ite (wfOut_withProfile h (wfOut_vector h)) (wfOut_vector h)

theorem wfOut_execVcfg {d a e g t m sc s} (h : Wf s) : WfOut (execVcfg d a e g t m sc s) := by
  refine wfOut_withProfile h (wfOut_ite (wf_applyEffects (wf_setVcfg h)) ?_)
  split
  · exact wf_setVcfg (wf_enqueue h _ ‹_›)
  · exact h

end Sys2Proof.Laws

/-!
SUPPORT. The canonical form of memory through launches, chunks and deques (R90 to R97, R267).
-/

namespace Sys2Proof.Laws

open Sys2Proof.Machine

theorem wf_landError {s d elog elsize e} (h : Wf s) : Wf (landError s d elog elsize e) := by
  unfold landError
  have hread := wf_readPhys (d := d) (pa := elog) (n := 8) h
  generalize readPhys s d elog 8 = r at hread ⊢
  obtain ⟨n, s1⟩ := r
  exact wf_landPhys (wf_landPhys hread)

theorem wf_errorRecord {s d elog elsize e} (h : Wf s) : Wf (errorRecord s d elog elsize e) := wf_ite h (wf_ite h (wf_landError h))

theorem wf_payOwed {s} (h : Wf s) : Wf (payOwed s) := by
  refine wf_foldl (fun s o h => ?_) (s := s.onPkg _) h
  cases o with
  | write _ _ _ => exact wf_writePhys h
  | error _ _ _ _ => exact wf_errorRecord h

theorem wf_launchRecord {s l w} (h : Wf s) : Wf (launchRecord s l w) := by
  unfold launchRecord
  split
  · exact wf_produce h
  · exact h

theorem wf_finishLaunch {s id status} (h : Wf s) : Wf (finishLaunch s id status) := by
  unfold finishLaunch
  split
  · exact h
  · exact wf_ite h (wf_launchRecord (wf_writePhys h))

theorem wf_checkLaunch {s id} (h : Wf s) : Wf (checkLaunch s id) := by
  unfold checkLaunch
  split
  · exact h
  · exact wf_ite h (wf_ite (wf_ite (wf_finishLaunch h) h) (wf_ite (wf_finishLaunch h) h))

theorem wf_tellDies {s d} (h : Wf s) : Wf (tellDies s d) := wf_foldl (fun _ _ h => wf_packet h) h

theorem wf_checkChunk {s d id} (h : Wf s) : Wf (checkChunk s d id) := by
  have htold := wf_tellDies (d := d) h
  unfold checkChunk
  split
  · exact h
  · exact wf_ite h (wf_checkLaunch htold)

theorem wf_chunkAdd {s c} (h : Wf s) : Wf (chunkAdd s c) := by unfold chunkAdd; split <;> exact h

theorem wf_chunkSub {s d c} (h : Wf s) : Wf (chunkSub s d c) := by
  unfold chunkSub
  split
  · exact wf_checkChunk h
  · exact h

theorem wf_pushEntry {s core cls w pin} (h : Wf s) : Wf (pushEntry s core cls w pin) := wf_onCore (wf_ite (wf_onCore h) h)

theorem wf_pushAlone {s core cls w pin} (h : Wf s) : Wf (pushAlone s core cls w pin) := wf_pushEntry (wf_ite (wf_onCore h) h)

theorem wf_placeChunk {s l c core} (h : Wf s) : Wf (placeChunk s l c core) := by
  unfold placeChunk
  refine wf_pushAlone ?_
  split
  · exact wf_packet h
  · exact h

theorem wf_redeal {s id} (h : Wf s) : Wf (redeal s id) := by
  unfold redeal
  split
  · exact h
  · split
    · exact h
    · split
      · exact h
      · exact wf_placeChunk h

theorem wf_dealChunks : ∀ {n id s}, Wf s → Wf (dealChunks n id s)
  | 0, _, _, h => h
  | n + 1, id, s, h => by
    unfold dealChunks
    split
    · exact h
    · refine wf_ite h ?_
      split
      · exact h
      · exact wf_dealChunks (wf_placeChunk h)

theorem wf_dealAll {s} (h : Wf s) : Wf (dealAll s) := by
  unfold dealAll
  exact wf_ite h (wf_foldl (fun _ _ h => wf_dealChunks h) (wf_foldl (fun _ _ h => wf_redeal h) h))

theorem wf_dropRanges {s id} (h : Wf s) : Wf (dropRanges s id) := h

theorem wf_loseChunk {s id} (h : Wf s) : Wf (loseChunk s id) := by
  unfold loseChunk
  split
  · exact h
  · refine wf_ite h ?_
    split
    · exact h
    · exact wf_ite (wf_checkLaunch (wf_foldl (fun _ _ h => wf_dropRanges h) h)) (wf_redeal h)

end Sys2Proof.Laws

/-!
SUPPORT. The canonical form of memory through tasks and what runs them: parked records, groups, the ring, lost tasks, task start and pre-emption (R87, R103 to
R107, R244, R271).
-/

namespace Sys2Proof.Laws

open Sys2Proof.Machine

/-! Parked records and groups (R103 to R105). -/

theorem wf_drainStash {s lo len} (h : Wf s) : Wf (drainStash s lo len) := wf_drainFor _ s h

theorem wf_parkedClass {s p} (h : Wf s) : Wf (parkedClass s p).2 := by
  unfold parkedClass
  have hx := wf_resolve { s.ctx with level := .u, root := bitsOf p.troot 12 40, troot := p.troot } { kind := 1 } (p.task.record + 0x38) 8 s h
  generalize resolve _ _ _ _ s = a at hx ⊢
  cases a with
  | ok a s1 =>
    dsimp only
    have hread := wf_readHome s1 (.part (dieOf p.core)) a.pa 8 hx
    generalize readHome s1 _ a.pa 8 = r at hread ⊢
    obtain ⟨v, s2⟩ := r
    exact hread
  | trap _ _ => exact h
  | wait _ _ => exact h
  | gone _ => exact h

theorem wf_serveParked {s} (h : Wf s) : Wf (serveParked s) := by
  refine wf_foldl (fun s p h => ?_) h
  refine wf_ite h ?_
  extract_lets s1 occ task p1 s2
  have hs2 : Wf s2 := wf_releaseGrant s _ _ _ _ h
  clear_value s2 p1
  split
  · have hclass := wf_parkedClass (p := p1) hs2
    generalize parkedClass s2 p1 = r at hclass ⊢
    obtain ⟨cls, s3⟩ := r
    exact wf_pushAlone hclass
  · exact hs2

theorem wf_endRaces {s core} (h : Wf s) : Wf (endRaces s core) := h

theorem wf_drainMember {s m} (h : Wf s) : Wf (drainMember s m) := wf_foldl (fun _ _ h => wf_endRaces h) (wf_endRaces (wf_drainLines _ s h))

theorem wf_settleHeld {s tasks since} (h : Wf s) : Wf (settleHeld s tasks since) := wf_foldl (fun s _ h => wf_settleDword s _ h) h

theorem wf_completePhase {s g} (h : Wf s) : Wf (completePhase s g) := by
  unfold completePhase
  extract_lets tasks s1 s2 n s3
  have hs1 : Wf s1 := wf_foldl (fun _ _ h => wf_drainMember h) h
  have hs2 : Wf s2 := wf_ite (wf_settleHeld hs1) hs1
  have hs3 : Wf s3 := hs2
  exact wf_serveParked (wf_foldl (fun _ _ h => wf_packet h) hs3)

theorem wf_checkPhase {s g} (h : Wf s) : Wf (checkPhase s g) := wf_ite (wf_completePhase h) h

theorem wf_putGroup {s : State} {x} (h : Wf s) : Wf (s.putGroup x) := h

theorem wf_releaseArrived {s g} (h : Wf s) : Wf (releaseArrived s g) := wf_ite h (wf_foldl (fun _ _ h => wf_drainMember h) h)

theorem wf_applyGroup {s g op m} (h : Wf s) : Wf (applyGroup s g op m) := by
  unfold applyGroup
  extract_lets s1 x
  have hs1 : Wf s1 := wf_packet h
  cases op with
  | join => exact wf_ite hs1 (wf_releaseArrived (wf_putGroup hs1))
  | leave => exact wf_checkPhase (wf_putGroup hs1)
  | arrive | park => exact wf_checkPhase (wf_releaseArrived (wf_putGroup hs1))

theorem wf_leaveGroups {s m} (h : Wf s) : Wf (leaveGroups s m) := wf_foldl (fun _ _ h => wf_ite h (wf_applyGroup h)) h

/-! The iteration ring (R106). -/

theorem wf_onChan {s : State} {c f} (h : Wf s) : Wf (s.onChan c f) := h

theorem wf_applyPost {s c v} (h : Wf s) : Wf (applyPost s c v) := wf_serveParked (wf_onChan h)

theorem wf_ringHopTo {s c d} (h : Wf s) : Wf (ringHopTo s c d) := by
  unfold ringHopTo
  refine wf_ite h ?_
  dsimp only
  split
  · exact h
  · exact wf_serveParked (wf_ite (wf_onChan (wf_packet h)) (wf_packet h))

/-! Ends and losses of tasks (R102, R271). -/

theorem wf_dropLate {s} (h : Wf s) : Wf (dropLate s) := by
  have hperf := wf_performWhere s.myLate s h
  exact wf_ite h hperf

theorem wf_releaseTask {s} (h : Wf s) : Wf (releaseTask s) := by
  unfold releaseTask
  extract_lets s1 t s2 s3
  have hs1 : Wf s1 := wf_dropLate h
  have hs2 : Wf s2 := wf_leaveGroups hs1
  have hs3 : Wf s3 := wf_releaseGrant s2 _ _ _ _ hs2
  exact wf_chunkSub (wf_dropAhead (s := { s3 with ct := _ }) hs3)

theorem wf_loseTask {s m c} (h : Wf s) : Wf (loseTask s m c) := by
  have hleft := wf_leaveGroups (m := m) h
  unfold loseTask
  split <;> exact hleft

theorem wf_loseChunkOf {s c} (h : Wf s) : Wf (loseChunkOf s c) := by
  unfold loseChunkOf
  split
  · exact wf_loseChunk h
  · exact h

theorem wf_forgetCont {s a b} (h : Wf s) : Wf (forgetCont s a b) := h

theorem wf_endParked {s p} (h : Wf s) : Wf (endParked s p) := by
  unfold endParked
  extract_lets l s1 s2 s3 e s4
  have hs2 : Wf s2 := wf_loseTask (wf_drainLines _ s1 h)
  have hs3 : Wf s3 := wf_releaseGrant s2 _ _ _ _ hs2
  have hs4 : Wf s4 := wf_foldl (fun _ _ h => wf_errorRecord h) hs3
  exact wf_loseChunkOf (wf_errorRecord hs4)

theorem wf_containParked {s} (h : Wf s) : Wf (containParked s) := wf_foldl (fun _ _ h => wf_endParked h) h

/-! Task start (R87, R401). -/

theorem wf_readRecord {s} (h : Wf s) : ResAll Wf (readRecord s) := by
  have hbytes : ∀ a : Res Place, ResAll Wf a → ResAll Wf (a.andThen fun p s =>
      let s1 := readyRead (l1Read s p.cached s.ct.lcore p.pa) s.me p.pa 64
      .ok (s1.bytesAt p.pa 64) s1) := fun a ha =>
    resAll_andThen ha fun p s h => wf_readyRead _ _ _ _ (wf_l1Read s _ _ _ h)
  unfold readRecord
  extract_lets tr bytesOf
  split
  · exact hbytes _ (wf_landAt _ _ _ s h)
  · exact hbytes _ (wf_resolve _ _ _ _ s h)

theorem wf_grantStart {s bs base} (h : Wf s) : Wf (grantStart s bs base) := by
  have hgrant := wf_grantStash s s.ct.lcore base (65536 * (Ctl.parse (recWord bs 0x38).toNat).stash) s.ct.task.taskid h
  exact hgrant

theorem wfOut_joinStart {s g f} (hf : ∀ s, Wf s → WfOut (f s)) (h : Wf s) : WfOut (joinStart s g f) :=
  wfOut_ite (hf s h) (wfOut_ite h (wfOut_ite (wfOut_takeTrap h) (hf _ (wf_applyGroup h))))

theorem wfOut_checkEntry {e s} (h : Wf s) : WfOut (checkEntry e s) := wfOut_ite h (wfOut_takeTrap h)

theorem wfOut_finishStart {s} (h : Wf s) : WfOut (finishStart s) := by
  unfold finishStart
  refine wfOut_ite h ?_
  have hread := wf_readRecord h
  generalize readRecord s = a at hread ⊢
  cases a with
  | ok bs s1 =>
    dsimp only
    split
    · exact hread
    · exact wfOut_joinStart (fun _ => wfOut_checkEntry) (wf_logged (wf_grantStart hread))
  | trap _ _ => exact wfOut_takeTrap hread
  | wait _ _ => exact hread
  | gone _ => exact hread

theorem wf_setDeque {s core cls d} (h : Wf s) : Wf (setDeque s core cls d) := wf_onCore h

theorem wf_popOwn {s core} (h : Wf s) : ∀ p ∈ popOwn s core, Wf p.state := by
  intro p hp
  unfold popOwn at hp
  simp only [Option.mem_def, Option.bind_eq_some_iff, Option.map_eq_some_iff] at hp
  obtain ⟨c, -, e, -, rfl⟩ := hp
  split <;> exact wf_setDeque h

theorem wf_stealAt {s core v c i} (h : Wf s) : ∀ p ∈ stealAt s core v c i, Wf p.state := by
  intro p hp
  unfold stealAt at hp
  simp only [Option.mem_def, Option.map_eq_some_iff] at hp
  obtain ⟨e, -, rfl⟩ := hp
  have hpackets : Wf (packet (packet s (dieOf core) (dieOf v)) (dieOf v) (dieOf core)) := wf_packet (wf_packet h)
  split
  · exact wf_ite (wf_pushAlone (wf_setDeque hpackets)) (wf_setDeque hpackets)
  · exact wf_setDeque hpackets

theorem wf_steal {s core} (h : Wf s) : ∀ p ∈ steal s core, Wf p.state := by
  intro p hp
  unfold steal at hp
  obtain ⟨x, -, hx⟩ := Option.bind_eq_some_iff.mp hp
  exact wf_stealAt h p hx

theorem wf_popAt {s core c i} (h : Wf s) : ∀ p ∈ popAt s core c i, Wf p.state := by
  intro p hp
  unfold popAt at hp
  simp only [Option.mem_def, Option.map_eq_some_iff] at hp
  obtain ⟨e, -, rfl⟩ := hp
  split <;> exact wf_setDeque h

theorem wf_allPicks {s core} (h : Wf s) : ∀ p ∈ allPicks s core, Wf p.state := by
  intro p hp
  unfold allPicks at hp
  rcases List.mem_append.mp hp with hp | hp
  · obtain ⟨c, -, hp⟩ := List.mem_flatMap.mp hp
    obtain ⟨i, -, hp⟩ := List.mem_filterMap.mp hp
    exact wf_popAt h p hp
  · obtain ⟨v, -, hp⟩ := List.mem_flatMap.mp hp
    obtain ⟨c, -, hp⟩ := List.mem_flatMap.mp hp
    obtain ⟨i, -, hp⟩ := List.mem_filterMap.mp hp
    exact wf_stealAt h p hp

theorem wf_forcedStart {s w} (h : Wf s) : Wf (forcedStart s w).2 := by
  unfold forcedStart
  refine foldl_keep (P := fun a : Option Forced × State => Wf a.2) (fun a d h => ?_) _ _ h
  split
  · exact h
  · exact wf_findLog h

theorem wf_unforced {f s} (h : Wf s) : Wf (unforced f s) := by
  unfold unforced
  split
  · exact wf_divergeAt h
  · exact h

theorem wf_newThread {s core ctno root f} (h : Wf s) : Wf (newThread s core ctno root f) := by
  have hswitch := wf_switchTo (c := core) (n := ctno) h
  unfold newThread
  exact wf_dropAhead (s := { s.switchTo core ctno with ct := _, pkg := _ }) hswitch

theorem wf_resumeContext {s core ctno t} (h : Wf s) : Wf (resumeContext s core ctno t) := by
  have hswitch := wf_switchTo (c := core) (n := ctno) h
  unfold resumeContext
  exact wf_dropAhead (s := { s.switchTo core ctno with ct := _, pkg := _ }) hswitch

theorem wfOut_startOn {s core ctno w f} (h : Wf s) : WfOut (startOn s core ctno w f) := by
  unfold startOn
  split
  · split
    · exact h
    · exact wfOut_finishStart (wf_unforced (wf_newThread h))
  · exact wfOut_finishStart (wf_unforced (wf_newThread h))
  · split
    · exact wf_logged (wf_unforced (wf_resumeContext h))
    · split
      · have hnew : ∀ {s core ctno root f}, Wf s → Wf (newThread s core ctno root f) := wf_newThread
        generalize newThread = new at hnew ⊢
        exact wfOut_finishStart (wf_unforced (hnew (s := s.onPkg _) h))
      · exact h

theorem wfOpt_startPick {core ctno p} (h : Wf p.state) : WfOpt (startPick core ctno p) := by
  unfold startPick
  have hforced := wf_forcedStart (w := p.what) h
  generalize forcedStart p.state p.what = r at hforced ⊢
  dsimp only
  split
  · exact wfOpt_ite (wfOut_startOn hforced) (wfOpt_ite (wfOut_startOn hforced) wfOpt_none)
  · exact wfOut_startOn hforced

theorem wfOut_startFirst {core ctno} : ∀ {ks s}, Wf s → WfOut (startFirst core ctno ks s)
  | [], _, h => h
  | k :: ks, s, h => by
    unfold startFirst
    split
    · exact wfOut_startFirst h
    next p hp => exact wfOut_getD (wfOpt_startPick (wf_allPicks h p (List.mem_of_getElem? hp))) (wfOut_startFirst (wf_forcedStart h))

theorem wfOut_execTaskStart {core ctno s} (h : Wf s) : WfOut (execTaskStart core ctno s) := by
  unfold execTaskStart
  refine wfOut_ite h ?_
  split
  · exact h
  next p hp =>
  have hpick : Wf p.state := by
    split at hp
    next q hown =>
      cases hp
      exact wf_popOwn h p hown
    next => exact wf_steal h p hp
  exact wfOut_backTo (wfOut_getD (wfOpt_startPick hpick) (wfOut_startFirst h))

/-! Pre-emption (R107, R243, R244). -/

theorem wf_requeueSaved {s t} (h : Wf s) : Wf (requeueSaved s t) := wf_ite (wf_pushAlone h) h

theorem wf_saveContext {s} (h : Wf s) : Wf (saveContext s) := by
  unfold saveContext
  extract_lets s1 waiting s2 s3 t kept
  have hs1 : Wf s1 := wf_landWhere _ _ (wf_payAll h)
  have hs2 : Wf s2 := wf_endRaces (wf_dropAhead (wf_ite (wf_drainWhere _ s1 hs1) (wf_drainStores s1 hs1)))
  have hs3 : Wf s3 := wf_foldl (fun _ _ h => wf_freeIssue h) hs2
  exact wf_requeueSaved (s := { s3 with ct := _, pkg := _ }) hs3

theorem wf_cutVictim {s} (h : Wf s) : Wf (cutVictim s) := by
  unfold cutVictim
  extract_lets s1
  have hs1 : Wf s1 := by
    change Wf (match s.sched.cut with
      | some k => cutHead s k
      | none => s)
    split
    · exact wf_cutHead h
    · exact h
  exact wf_ite hs1 (wf_discardRecords hs1)

theorem wfOut_execPreempt {s} (h : Wf s) : WfOut (execPreempt s) := by
  unfold execPreempt
  split
  · exact h
  · exact wf_switchTo (wf_saveContext (wf_resumeStopped (s := (cutVictim _).record _ _) (wf_cutVictim (wf_switchTo h))))

/-! The steps of the group controllers and the ring. -/

theorem wfOut_execGroupOpApply {g op m s} (h : Wf s) : WfOut (execGroupOpApply g op m s) :=
  wf_ite (c := (groupLost s g || groupRefuses s g op m.task) = true) h (wf_applyGroup h)

theorem wfOut_execOrderPointApply {c v s} (h : Wf s) : WfOut (execOrderPointApply c v s) := wf_applyPost h

theorem wfOut_execRingHop {c d s} (h : Wf s) : WfOut (execRingHop c d s) := wf_ringHopTo h

end Sys2Proof.Laws

/-!
SUPPORT. The canonical form of memory through engine jobs: what a job reads and writes, the scheduler's steps, and the instructions that issue and await jobs
(R187 to R191, R398, R399).
-/

namespace Sys2Proof.Laws

open Sys2Proof.Machine

/-! What a job moves (R187, R269). -/

theorem wf_putJob {s : State} {core j} (h : Wf s) : Wf (s.putJob core j) := wf_onCore h

theorem wf_roundFrom {s c pa} (h : Wf s) : Wf (roundFrom s c pa) := wf_askDie _ _ _ h

theorem wf_engineRead {cx va n k s} (h : Wf s) : ResAll Wf (engineRead cx va n k s) := by
  refine resAll_andThen (resAll_foldRes (fun acc x s h => ?_) _ _ _ h) fun _ _ h => resAll_ok h
  exact resAll_andThen (wf_resolve _ _ _ _ s h) fun _ _ h => wf_ask (wf_readBytes _ _ _ _ (wf_l1Read _ _ _ _ h))

theorem wf_wrote {k : Asking} {pa n mask s} (h : Wf s) : Wf (k.wrote pa n mask s).2 := by
  unfold Asking.wrote
  split
  · exact h
  · exact wf_foldl (fun _ _ h => wf_ite (wf_clearPoison _ _ _ h) h) h

theorem wf_engineWrite {cx b va n v k s} (h : Wf s) : ResAll Wf (engineWrite cx b va n v k s) := by
  refine resAll_foldRes (fun acc x s h => resAll_andThen (wf_resolve _ _ _ _ s h) fun p s h => ?_) _ _ _ h
  exact wf_ask (wf_wrote (wf_writeHome _ _ _ _ (wf_roundFrom h)))

theorem wf_engineReduce {cx b va w op v k s} (h : Wf s) : ResAll Wf (engineReduce cx b va w op v k s) := by
  refine resAll_andThen (resAll_foldRes (fun acc x s h => ?_) _ _ _ h) fun r s h => ?_
  · exact resAll_andThen (wf_resolve _ _ _ _ s h) fun _ _ h => wf_ask (wf_claimBytes _ _ _ _ _ (wf_roundFrom h))
  · exact wf_foldl (fun s x h => wf_setBytes _ _ _ (wf_markEarly s _ _ _ h)) h

theorem wf_boundsError {α : Type} {k va s} (h : Wf s) : ResAll Wf (boundsError k va s : Res α) := h

theorem wf_sourceNumber {cx c ix k s} (h : Wf s) : ResAll Wf (sourceNumber cx c ix k s) :=
  resAll_ite (resAll_ok h) (resAll_andThen (wf_engineRead h) fun _ _ h => resAll_ok h)

theorem wf_moveRead {cx c ix k s} (h : Wf s) : ResAll Wf (moveRead cx c ix k s) :=
  resAll_andThen (wf_sourceNumber h) fun _ _ h =>
    resAll_ite (wf_boundsError h) (resAll_andThen (wf_engineRead h) fun _ _ h => resAll_ok h)

theorem wf_moveWrite {cx b c ix v k s} (h : Wf s) : ResAll Wf (moveWrite cx b c ix v k s) := by
  unfold moveWrite
  refine resAll_ite (wf_boundsError h) ?_
  split
  · exact wf_engineReduce h
  · refine resAll_ite (resAll_andThen (wf_resolve _ _ _ _ s h) fun p s h => ?_) (wf_engineWrite h)
    exact wf_ask (wf_wrote (wf_performHome _ _ _ _ _ (wf_claimBytes _ _ _ _ _ (wf_roundFrom h))))

theorem wf_movePos {cx b c pos k s} (h : Wf s) : ResAll Wf (movePos cx b c pos k s) :=
  resAll_andThen (wf_moveRead h) fun _ _ h => wf_moveWrite h

/-- The state in which a job has moved so far keeps the form of memory. -/
def WfMoved : Moved → Prop
  | .all s => Wf s
  | .stopped _ _ s => Wf s
  | .later _ s => Wf s
  | .gone s => Wf s

theorem wfMoved_moveFrom {cx b c} : ∀ {n pos k s}, Wf s → WfMoved (moveFrom cx b c n pos k s)
  | 0, _, _, _, h => h
  | n + 1, pos, k, s, h => by
    unfold moveFrom
    have hpos := wf_movePos (cx := cx) (b := b) (c := c) (pos := pos) (k := k) h
    generalize movePos cx b c pos k s = a at hpos ⊢
    cases a with
    | ok _ _ => exact wfMoved_moveFrom hpos
    | trap _ _ => exact hpos
    | wait _ _ => exact hpos
    | gone _ => exact hpos

theorem wfMoved_fillFrom {cx panel} : ∀ {us pos j k s}, Wf s → WfMoved (fillFrom cx panel us pos j k s).2
  | [], _, _, _, _, h => h
  | none :: us, _, _, _, _, h => wfMoved_fillFrom (us := us) h
  | some u :: us, pos, j, k, s, h => by
    unfold fillFrom
    have hunit := wf_fillUnit (cx := cx) (task := j.task) (panel := panel) (va := u.1) (n := u.2) (got := j.got) (k := k) h
    generalize fillUnit cx j.task panel u.1 u.2 j.got k s = a at hunit ⊢
    cases a with
    | ok _ _ => exact wfMoved_fillFrom (us := us) hunit
    | trap _ _ => exact hunit
    | wait _ _ => exact hunit
    | gone _ => exact hunit

/-! The scheduler's steps (R189 to R191). -/

theorem wf_dropPanel {s core id} (h : Wf s) : Wf (dropPanel s core id) := wf_onCore h

theorem wf_markPoisoned {s task panel} (h : Wf s) : Wf (markPoisoned s task panel) := h

theorem wf_stopJob {s core j pos t} (h : Wf s) : Wf (stopJob s core j pos t) := by
  have hput : ∀ k s, Wf s → Wf (s.putJob core k) := fun _ _ => wf_putJob
  unfold stopJob
  refine wf_ite (hput _ _ h) ?_
  split
  · exact wf_dropPanel (hput _ _ (wf_ite (wf_markPoisoned h) h))
  · exact hput _ _ h

theorem wf_containTaskId {s task} (h : Wf s) : Wf (containTaskId s task) := h

theorem wf_runFill {s core id pos j r} (h : Wf s) : Wf (runFill s core id pos j r) := by
  unfold runFill
  extract_lets us n f
  have hf : WfMoved f.2 := wfMoved_fillFrom h
  clear_value f
  obtain ⟨k, m⟩ := f
  cases m with
  | all s1 =>
    have hput : ∀ k s, Wf s → Wf (s.putJob core k) := fun _ _ => wf_putJob
    exact wf_ite (hput _ _ hf) (hput _ _ (wf_onCore hf))
  | stopped _ _ _ => exact wf_stopJob hf
  | later _ _ => exact wf_putJob hf
  | gone _ => exact wf_containTaskId (wf_dropPanel (wf_putJob hf))

theorem wf_runJob {s core j} (h : Wf s) : Wf (runJob s core j) := by
  unfold runJob
  extract_lets pos left n
  clear_value n left pos
  split
  · exact wf_runFill h
  · exact wf_putJob h
  · have hmoved := wfMoved_moveFrom (cx := j.ctx core) (b := j.by_ core) (c := j.card) (n := n) (pos := pos) (k := j.asking core) h
    generalize moveFrom _ _ _ _ _ _ _ = m at hmoved ⊢
    cases m with
    | all s1 =>
      have hput : ∀ k s, Wf s → Wf (s.putJob core k) := fun _ _ => wf_putJob
      exact wf_ite (hput _ _ hmoved) (hput _ _ hmoved)
    | stopped _ _ _ => exact wf_stopJob hmoved
    | later _ _ => exact wf_putJob hmoved
    | gone _ => exact wf_containTaskId (wf_putJob hmoved)

theorem wfOut_execJobStart {core s} (h : Wf s) : WfOut (execJobStart core s) := by
  unfold execJobStart
  split
  · exact wf_runJob h
  · exact h

theorem wf_reportJob {s j} (h : Wf s) : Wf (reportJob s j) := h

theorem wf_requeueAfter {s task} (h : Wf s) : Wf (requeueAfter s task) := by
  unfold requeueAfter
  split
  · exact wf_requeueSaved h
  · exact h

theorem wfOut_execJobComplete {core s} (h : Wf s) : WfOut (execJobComplete core s) := by
  unfold execJobComplete
  split
  · exact h
  next j _ =>
  extract_lets s1 s2
  have hs1 : Wf s1 := wf_onCore h
  have hs2 : Wf s2 := wf_containParked (wf_serveParked (wf_requeueAfter (wf_reportJob hs1)))
  exact wf_ite hs2 hs2

theorem wfOut_execJobPageFault {core s} (h : Wf s) : WfOut (execJobPageFault core s) := by
  unfold execJobPageFault
  split
  · exact h
  · exact wf_putJob h

theorem wfOut_execFillRowWrite {core s} (h : Wf s) : WfOut (execFillRowWrite core s) := by
  unfold execFillRowWrite
  dsimp only
  split
  · exact h
  · exact wf_onCore h

/-! The instructions (R397 to R399). -/

theorem wfOut_issueJob {k t a s} (h : Wf s) : WfOut (issueJob k t a s) := by
  unfold issueJob
  refine wfOut_ite (wfOut_takeTrap h) (wfOut_finish ?_)
  refine resAll_andThen (wf_unitLoad h) fun bs s h => resAll_andThen (resAll_ite (resAll_ok h) (wf_unitLoad h)) fun bs s h => ?_
  refine resAll_ite (resAll_trap h) (resAll_ite (resAll_wait h) ?_)
  exact wf_onCore (s := s.onPkg _) h

theorem wfOut_execXcopy {t a s} (h : Wf s) : WfOut (execXcopy t a s) := wfOut_withProfile h (wfOut_issueJob h)

theorem wfOut_execXgath {t a s} (h : Wf s) : WfOut (execXgath t a s) := wfOut_withProfile h (wfOut_issueJob h)

theorem wfOut_execXcoll {t a s} (h : Wf s) : WfOut (execXcoll t a s) := wfOut_withProfile h (wfOut_issueJob h)

theorem wf_acquireJobs {s} (h : Wf s) : Wf (acquireJobs s) := wf_acquire h

theorem wfOut_execXwait {t s} (h : Wf s) : WfOut (execXwait t s) := by
  unfold execXwait
  refine wfOut_withProfile h (wfOut_ite h ?_)
  extract_lets s1
  have hs1 : Wf s1 := h
  clear_value s1
  have hacquired : Wf (acquireJobs s1) := wf_acquireJobs hs1
  split
  · exact wfOut_takeTrap hacquired
  · exact hacquired

end Sys2Proof.Laws

/-!
SUPPORT. The canonical form of memory through the system instructions, the nest, the queues and the delivery of completions (R192, R195, R196, R306, R309 to
R311, R352, R355, R362, R396).
-/

namespace Sys2Proof.Laws

open Sys2Proof.Machine

/-! Traps on request, and the return (R306, R355). -/

theorem wfOut_requestTrap {c s} (h : Wf s) : WfOut (requestTrap c s) := wfOut_withProfile h (wfOut_whenDrained h (wfOut_takeTrap h))

theorem wfOut_execSysc {n s} (h : Wf s) : WfOut (execSysc n s) := wfOut_requestTrap h

theorem wfOut_execBrk {n s} (h : Wf s) : WfOut (execBrk n s) := wfOut_requestTrap h

theorem wfOut_landThenResume {s0 s} (h0 : Wf s0) (h : Wf s) : WfOut (landThenResume s0 s) := by
  unfold landThenResume
  have hfetch := wf_fetchWord (va := s.ct.pc) h
  generalize fetchWord s s.ct.pc = a at hfetch ⊢
  cases a with
  | ok w s1 => exact wfOut_ite (wf_resumeStopped hfetch) (wfOut_takeTrap hfetch)
  | trap _ _ => exact wfOut_takeTrap hfetch
  | wait _ _ => exact h0
  | gone _ => exact hfetch

theorem wfOut_returnFromTrap {s} (h : Wf s) : WfOut (returnFromTrap s) := by
  unfold returnFromTrap
  extract_lets c s1
  have hs1 : Wf s1 := h
  clear_value s1
  exact wfOut_ite (wfOut_finishStart (s := s1.onCtl _) hs1) (wfOut_ite (wfOut_landThenResume h hs1) (wf_resumeStopped (s := s1.onCtl _) hs1))

theorem wfOut_execSret {s} (h : Wf s) : WfOut (execSret s) := wfOut_withProfile h (wfOut_ite (wfOut_takeTrap h) (wfOut_returnFromTrap h))

/-! CSRs (R39, R309, R310). -/

theorem wf_fwWrite {s : State} {n v} (h : Wf s) : Wf (s.fwWrite n v) := h

theorem wf_onOrd {s : State} {f} (h : Wf s) : Wf (s.onOrd f) := h

theorem wf_onSup {s : State} {f} (h : Wf s) : Wf (s.onSup f) := h

theorem wf_csrStore {s n v} (h : Wf s) : Wf (csrStore s n v) := by
  unfold csrStore
  split
  case h_6 => exact wf_onOrd (wf_ite h (wf_dropAhead (wf_drainStores s h)))
  case h_17 => exact wf_onSup (wf_dropAhead h)
  case h_18 => exact wf_ite (wf_fwWrite h) h
  all_goals exact h

theorem wf_taskLogged {s ty v} (h : Wf s) : Wf (taskLogged s ty v).2 := by
  unfold taskLogged
  split
  · exact wf_logged h
  · exact h

theorem wf_csrLogged {s n v} (h : Wf s) : Wf (csrLogged s n v).2 := by
  unfold csrLogged
  split
  · exact wf_taskLogged h
  · split
    · exact wf_taskLogged h
    · exact h

theorem wfOut_csrAccess {n w s f} (h : Wf s) (hf : WfOut f) : WfOut (csrAccess n w s f) :=
  wfOut_withProfile h (wfOut_ite (wfOut_takeTrap h) (wfOut_ite (wfOut_whenDrained h hf) hf))

theorem wfOut_execCsrr {d c s} (h : Wf s) : WfOut (execCsrr d c s) :=
  wfOut_withProfile h (wfOut_csrAccess h (wf_setX (wf_csrLogged h)))

theorem wfOut_execCsrw {v c s} (h : Wf s) : WfOut (execCsrw v c s) := by
  have hstore := wf_csrStore (n := c.toNat) (v := s.getX v) h
  unfold execCsrw
  exact wfOut_ite (wfOut_takeTrap h) (wfOut_withProfile h (wfOut_csrAccess h hstore))

/-! WAITE, URET and TMARK (R396, R362, R289). -/

theorem wfOut_execWaite {s} (h : Wf s) : WfOut (execWaite s) := wfOut_withProfile h (wfOut_ite h h)

theorem wfOut_execUret {s} (h : Wf s) : WfOut (execUret s) := wfOut_withProfile h (wfOut_ite (wfOut_takeTrap h) h)

theorem wfOut_execTmark {a s} (h : Wf s) : WfOut (execTmark a s) :=
  wfOut_withProfile h (wf_fireAll (wf_ite (wf_produceRaw h) h))

/-! NSET, NLOOP and the queues (R195, R196, R352). -/

theorem wfOut_execNset {d a b s} (h : Wf s) : WfOut (execNset d a b s) := wfOut_withProfile h (wfOut_ite (wfOut_takeTrap h) h)

theorem wf_fetchBody : ∀ {n va acc s}, Wf s → ResAll Wf (fetchBody n va acc s)
  | 0, _, _, _, h => h
  | _ + 1, _, _, _, h => resAll_andThen (wf_fetchWord h) fun _ _ h => wf_fetchBody h

theorem wfOut_execNloop {k s} (h : Wf s) : WfOut (execNloop k s) := by
  refine wfOut_withProfile h (wfOut_finish (resAll_andThen (resAll_mapTrap (wf_fetchBody h)) fun ws s h => ?_))
  exact resAll_ite (resAll_trap h) (resAll_ite (resAll_trap h) (resAll_ite (resAll_trap h) (resAll_ok h)))

theorem wfOut_execQpush {q a s} (h : Wf s) : WfOut (execQpush q a s) :=
  wfOut_withProfile h (wfOut_ite (wfOut_takeTrap h) (wfOut_ite h h))

theorem wfOut_execQpop {d q s} (h : Wf s) : WfOut (execQpop d q s) := by
  refine wfOut_withProfile h ?_
  split
  · exact h
  · exact wf_setX (s := s.onVec _) h

theorem wfOut_execQcnt {d q s} (h : Wf s) : WfOut (execQcnt d q s) := wfOut_withProfile h (wf_setX (wf_taskLogged h))

/-! User-level completions (R192, R294). -/

theorem wf_swapBank {s : State} (h : Wf s) : Wf s.swapBank := h

theorem wf_deliverTag {s t} (h : Wf s) : Wf (deliverTag s t) := by
  unfold deliverTag
  extract_lets err s1 s2 s3
  have hs1 : Wf s1 := wf_logged h
  clear_value s1
  have hs2 : Wf s2 := hs1
  have hs3 : Wf s3 := wf_setX (wf_swapBank hs2)
  exact wf_acquireJobs hs3

theorem wf_forcedTag {s} (h : Wf s) : Wf (forcedTag s).2 := by
  unfold forcedTag
  dsimp only
  split
  · exact wf_findLog h
  · exact h

theorem wf_askLog {s} (h : Wf s) : Wf (askLog s) := wf_ite (wf_forcedTag h) h

theorem wfOut_execUlDelivery {s} (h : Wf s) : WfOut (execUlDelivery s) := by
  unfold execUlDelivery
  refine wfOut_ite ?_ h
  split
  · exact wf_deliverTag (wf_askLog h)
  · exact h

end Sys2Proof.Laws

/-!
SUPPORT. The canonical form of memory through FENCE, AMO and CAS, the group and ring instructions, the task instructions and the stash instructions (R100 to
R103, R180, R202 to R206, R246, R247, R319 to R325, R353, R354).
-/

namespace Sys2Proof.Laws

open Sys2Proof.Machine

/-! Releases and FENCE (R202, R205). -/

theorem wfOut_release {keep s f} (h : Wf s) (hf : ∀ s, Wf s → WfOut (f s)) : WfOut (release keep s f) := by
  have hdrained := wf_drainWhere s.mine s h
  have hreleased := wf_releaseAll s h
  unfold release
  refine wfOut_ite (hf _ (wf_ite ?_ hreleased)) h
  exact hdrained

theorem wf_holdVector {s sc vec} (h : Wf s) : Wf (holdVector s sc vec) := h

theorem wf_holdQueued {s sc} (h : Wf s) : Wf (holdQueued s sc) := h

theorem wf_holdHost {s sc} (h : Wf s) : Wf (holdHost s sc) := h

theorem wf_nextInterval {s} (h : Wf s) : Wf (nextInterval s) := h

theorem wf_vectorAfter {p sc s} (h : Wf s) : Wf (vectorAfter p sc s) := by
  unfold vectorAfter
  exact wf_ite (wf_forgetEarly s _ h) (wf_acquire h)

theorem wf_fenceDrain {sc k s} (h : Wf s) : Wf (fenceDrain sc k s) := by
  unfold fenceDrain
  exact wf_ite (wf_drainStores s h) (wf_ite (wf_performLateAt _ _ _ (wf_performAt _ _ s h)) h)

theorem wf_fenceOrder {sc k s} (h : Wf s) : Wf (fenceOrder sc k s) := by
  unfold fenceOrder
  exact wf_ite (wf_holdHost (wf_vectorAfter (wf_holdVector h)))
    (wf_ite (wf_acquire h) (wf_ite (wf_holdHost (wf_holdQueued (wf_vectorAfter (wf_holdVector h)))) (wf_acquire h)))

theorem wfOut_execFence {sc k s} (h : Wf s) : WfOut (execFence sc k s) := by
  unfold execFence
  refine wfOut_withProfile h (wfOut_ite h ?_)
  extract_lets s1 s2
  have hs1 : Wf s1 := wf_fenceDrain h
  have hs2 : Wf s2 := wf_nextInterval (wf_fenceOrder hs1)
  clear_value s2 s1
  exact wfOut_ite hs1 (wf_ite (wf_endRaces hs2) hs2)

/-! AMO and CAS (R204, R246, R247). -/

theorem wf_atomicAddr {va n s} (h : Wf s) : ResAll Wf (atomicAddr va n s) := by
  have hresolve : ∀ s, Wf s → ResAll Wf ((resolveAligned s.ctx { kind := 3 } va n s).mapTrap (scalarRecord n)) :=
    fun s h => resAll_mapTrap (wf_resolveAligned _ _ _ _ s h)
  unfold atomicAddr
  refine resAll_andThen (hresolve s h) fun p s h => resAll_andThen ?_ fun p s h => ?_
  · exact resAll_ite (hresolve _ (wf_drainAt s _ _ h)) h
  · exact wf_performFirst _ _ _ _ _ (wf_dropOwn s _ _ _ h)

theorem wfOut_atomicRelease {sc o s f} (h : Wf s) (hf : ∀ s, Wf s → WfOut (f s)) : WfOut (atomicRelease sc o s f) := by
  unfold atomicRelease
  refine wfOut_ite ?_ (hf s h)
  extract_lets s1
  have hs1 : Wf s1 := wf_ite (wf_drainStores s h) (wf_performLateAt _ _ _ (wf_performAt _ _ s h))
  clear_value s1
  exact wfOut_ite hs1 (hf _ (wf_ite (wf_endRaces hs1) hs1))

theorem wf_atomicAcquire {sc o s} (h : Wf s) : Wf (atomicAcquire sc o s) := wf_ite (wf_acquire h) h

theorem wf_orFlags {s : State} {f} (h : Wf s) : Wf (s.orFlags f) := h

theorem wf_advance {s : State} (h : Wf s) : Wf s.advance := h

theorem wfOut_execAmo {d a b sc o p w s} (h : Wf s) : WfOut (execAmo d a b sc o p w s) := by
  unfold execAmo
  refine wfOut_withProfile h (wfOut_atomicRelease h fun s h => ?_)
  extract_lets v
  refine wfOut_finish (resAll_andThen (wf_atomicAddr h) fun at_ s h => ?_)
  refine resAll_ite (wf_advance (wf_atomicAcquire (wf_sendUpdate _ _ _ _ _ _ _ _ h))) (resAll_ite (wf_advance (wf_leaveLate _ _ _ _ _ h)) ?_)
  have hdone := wf_performUpdate (roundTrip s at_.pa) s.me (atomicHold s at_) ⟨at_.pa, w, p, v, none, s.ct.lcore, s.ct.ctno⟩ (wf_roundTrip h)
  generalize performUpdate _ _ _ _ = r at hdone ⊢
  have hacquired : Wf (atomicAcquire sc o (r.2.orFlags r.1.2)) := wf_atomicAcquire (wf_orFlags hdone)
  exact resAll_ite (wf_advance hacquired) (wf_advance (wf_setX (wf_taskLogged hacquired)))

theorem wf_casAt {b k pa n e v s} (h : Wf s) : Wf (casAt b k pa n e v s).2 := by
  unfold casAt
  extract_lets s0 at_ s1 old
  have hs0 : Wf s0 := wf_drainTranslated _ _ _ _ (wf_drainFor _ s h)
  have hs1 : Wf s1 := wf_openRead s0 at_ n hs0
  clear_value s1 s0
  exact wf_ite (wf_setBytes _ _ _ (wf_markEarly _ _ _ _ (wf_recallLine s1 _ _ _ hs1))) (wf_recallUnwritten s1 _ _ hs1)

theorem wfOut_execCas {d a b sc o w s} (h : Wf s) : WfOut (execCas d a b sc o w s) := by
  unfold execCas
  refine wfOut_withProfile h (wfOut_atomicRelease h fun s h => ?_)
  extract_lets n want new
  refine wfOut_finish (resAll_andThen (wf_atomicAddr h) fun p s h => ?_)
  refine resAll_ite (wf_advance (wf_leaveLate _ _ _ _ _ h)) ?_
  exact wf_advance (wf_setX (wf_taskLogged (wf_atomicAcquire (wf_casAt (wf_roundTrip h)))))

/-! Groups (R319 to R322). -/

theorem wfOut_withGroup {v op s f} (h : Wf s) (hf : ∀ g, WfOut (f g)) : WfOut (withGroup v op s f) :=
  wfOut_ite (wfOut_takeTrap h) (wfOut_ite h (wfOut_ite (wfOut_takeTrap (wf_askDie s _ _ h)) (hf _)))

theorem wf_askGroup {s g op} (h : Wf s) : Wf (askGroup s g op) := wf_packet (wf_applyGroup h)

theorem wfOut_execGjoin {a s} (h : Wf s) : WfOut (execGjoin a s) :=
  wfOut_withProfile h (wfOut_withGroup h fun _ => wf_advance (wf_askGroup h))

theorem wfOut_execGleave {a s} (h : Wf s) : WfOut (execGleave a s) :=
  wfOut_withProfile h (wfOut_withGroup h fun _ => wfOut_release h fun _ h => wf_advance (wf_askGroup h))

theorem wf_acquireAll {s} (h : Wf s) : Wf (acquireAll s) := wf_acquire h

theorem wf_gsyncDone {s} (h : Wf s) : Wf (gsyncDone s) := wf_acquireAll h

theorem wfOut_gsyncWait {g ph s} (h : Wf s) : WfOut (gsyncWait g ph s) := wfOut_ite h (wfOut_ite (wf_gsyncDone h) h)

theorem wfOut_execGsync {a s} (h : Wf s) : WfOut (execGsync a s) := by
  unfold execGsync
  refine wfOut_withProfile h ?_
  split
  · exact wfOut_gsyncWait h
  · exact wfOut_withGroup h fun _ => wfOut_release h fun s h => wfOut_gsyncWait (wf_applyGroup (s := s.onCtl _) h)

/-! The iteration ring (R325). -/

theorem wf_postDone {s c v} (h : Wf s) : Wf (postDone s c v) := wf_advance (wf_packet (wf_applyPost h))

theorem wfOut_execIpost {c a s} (h : Wf s) : WfOut (execIpost c a s) := by
  unfold execIpost
  refine wfOut_withProfile h ?_
  split
  · exact wf_postDone (s := s.onCtl _) h
  · refine wfOut_release h fun s h => ?_
    extract_lets s1
    have hs1 : Wf s1 := wf_packet h
    clear_value s1
    exact wfOut_ite hs1 (wf_postDone hs1)

theorem wfOut_execIwait {c a s} (h : Wf s) : WfOut (execIwait c a s) := wfOut_withProfile h (wfOut_ite (wf_advance (wf_acquireAll h)) h)

/-! Records and TSPAWN (R101, R358, R359). -/

theorem wf_loadWords : ∀ {n va acc s}, Wf s → ResAll Wf (loadWords n va acc s)
  | 0, _, _, _, h => h
  | _ + 1, _, _, _, h => resAll_andThen (wf_scalarLoad h) fun _ _ h => wf_loadWords h

theorem wf_storeWords : ∀ {ws va s}, Wf s → ResAll Wf (storeWords ws va s)
  | [], _, _, h => h
  | _ :: ws, _, _, h => resAll_andThen (wf_scalarStore h) fun _ _ h => wf_storeWords (ws := ws) h

theorem wfOut_execTalloc {d s} (h : Wf s) : WfOut (execTalloc d s) := by
  unfold execTalloc
  refine wfOut_withProfile h (wfOut_finish (resAll_andThen (wf_loadWords h) fun ws s h => ?_))
  split
  · exact resAll_trap h
  · refine resAll_andThen (wf_storeWords h) fun _ s h => ?_
    exact wf_advance (wf_setX (wf_forgetCont (wf_onCore h)))

theorem wfOut_execTfree {a s} (h : Wf s) : WfOut (execTfree a s) := by
  unfold execTfree
  refine wfOut_withProfile h (wfOut_ite (wfOut_takeTrap h) (wfOut_ite (wfOut_takeTrap h) ?_))
  exact wf_advance (wf_forgetCont (wf_onCore (wf_packet h)))

theorem wf_linkRecords {tr cont ctl s} (h : Wf s) : ResAll Wf (linkRecords tr cont ctl s) := by
  unfold linkRecords
  refine resAll_andThen ?_ fun _ s h => wf_scalarStore h
  split
  · exact h
  · exact resAll_andThen (wf_scalarLoad h) fun _ s h => resAll_andThen (wf_scalarStore h) fun _ s h => resAll_ok h

theorem wf_nameCont {s c k} (h : Wf s) : Wf (nameCont s c k) := wf_ite h h

theorem wf_onTask {s : State} {f} (h : Wf s) : Wf (s.onTask f) := h

theorem wf_spawnPush {tr cont prio s} (h : Wf s) : Wf (spawnPush tr cont prio s) := by
  unfold spawnPush
  extract_lets t k s1 s2
  have hs1 : Wf s1 := wf_nameCont h
  have hs2 : Wf s2 := wf_onTask (wf_chunkAdd hs1)
  exact wf_pushEntry hs2

theorem wfOut_execTspawn {a b s} (h : Wf s) : WfOut (execTspawn a b s) := by
  unfold execTspawn
  refine wfOut_withProfile h ?_
  extract_lets tr cont
  refine wfOut_ite (wfOut_takeTrap h) (wfOut_ite h (wfOut_finish (resAll_andThen (wf_scalarLoad h) fun v s h => ?_)))
  refine resAll_ite (resAll_trap h) (resAll_andThen (resAll_ite h (wf_linkRecords h)) fun _ s h => ?_)
  exact wf_advance (wf_spawnPush (wf_releaseAll s h))

/-! TEND and TPARK (R102, R103). -/

theorem wf_deliver {cx cont slot v s} (h : Wf s) : ResAll Wf (deliver cx cont slot v s) := by
  unfold deliver
  refine resAll_andThen (resAll_mapTrap (wf_resolve _ _ _ _ s h)) fun p s h => ?_
  refine resAll_andThen (resAll_mapTrap (wf_resolve _ _ _ _ s h)) fun pc s h => ?_
  have hclaim := wf_claimBytes (roundTrip s pc.pa) s.me .recall (lineOf pc.pa) 64 (wf_roundTrip h)
  generalize claimBytes _ _ _ _ _ = k at hclaim ⊢
  have hread := wf_readHome k.2 s.me (k.1 + pc.pa % 64) 8 hclaim
  dsimp only
  generalize readHome k.2 s.me (k.1 + pc.pa % 64) 8 = r at hread ⊢
  obtain ⟨v0, s1⟩ := r
  dsimp only
  have hput := fun pa bs => wf_performHome s1 s.me .recall pa bs hread
  refine resAll_ite (resAll_trap hread) (resAll_ite (hput _ _) ?_)
  have hput2 := fun pa bs pa' bs' => wf_performHome _ s.me .recall pa bs (hput pa' bs')
  exact resAll_ite (hput2 _ _ _ _) (wf_pushEntry (wf_chunkAdd (wf_forgetCont (hput2 _ _ _ _))))

theorem wfOut_whenEnded {s f} (h : Wf s) (hf : WfOut f) : WfOut (whenEnded s f) := wfOut_ite h (wfOut_ite h hf)

theorem wfOut_execTend {a s} (h : Wf s) : WfOut (execTend a s) := by
  unfold execTend
  refine wfOut_withProfile h (wfOut_whenEnded h ?_)
  split
  · exact wfOut_takeTrap (s := s.onUli _) h
  · extract_lets s1
    have hs1 : Wf s1 := wf_drainStores s h
    clear_value s1
    refine wfOut_ite hs1 ?_
    split
    · exact wf_releaseTask (wf_releaseAll s1 hs1)
    next c _ =>
    have hdeliver := wf_deliver (cx := s1.ctx) (cont := c) (slot := s1.ct.task.slot) (v := s1.getX a) (wf_releaseAll s1 hs1)
    generalize deliver _ _ _ _ _ = r at hdeliver ⊢
    cases r with
    | ok _ _ => exact wf_releaseTask hdeliver
    | trap _ _ => exact wfOut_takeTrap hdeliver
    | wait _ _ => exact hdeliver
    | gone _ => exact hdeliver

theorem wf_parkNow {ev s} (h : Wf s) : Wf (parkNow ev s) := wf_dropAhead (s := { s with ct := _, pkg := _ }) h

theorem wfOut_park {s keep check f} (h : Wf s) (hcheck : ∀ k, (∀ s, Wf s → WfOut (k s)) → WfOut (check k)) (hf : ∀ s, Wf s → Wf (f s)) :
    WfOut (park s keep check f) := by
  unfold park
  refine wfOut_withProfile h (wfOut_ite h (wfOut_ite (wfOut_takeTrap h) (hcheck _ fun s' h' => wfOut_release h' fun t ht => ?_)))
  exact wfOut_ite (wfOut_takeTrap ht) (hf t ht)

theorem wfOut_execTparkGroup {a s} (h : Wf s) : WfOut (execTparkGroup a s) :=
  wfOut_park h (fun _ hk => wfOut_withGroup h fun _ => hk s h) fun _ h => wf_serveParked (wf_applyGroup (wf_parkNow h))

theorem wfOut_execTparkRing {c a s} (h : Wf s) : WfOut (execTparkRing c a s) :=
  wfOut_park h (fun _ hk => hk s h) fun _ h => wf_serveParked (wf_parkNow h)

theorem wfOut_execTparkTag {a s} (h : Wf s) : WfOut (execTparkTag a s) :=
  wfOut_park h (fun _ hk => wfOut_ite (wfOut_takeTrap h) (hk s h)) fun _ h => wf_serveParked (wf_parkNow h)

/-! The stash (R180, R353, R354). -/

theorem wfOut_onRange {s va len others refuse f} (h : Wf s) (hf : ∀ off s, Wf s → ResAll Wf (f off s)) :
    WfOut (onRange s va len others refuse f) := by
  unfold onRange
  refine wfOut_withProfile h (wfOut_whenDrained h (wfOut_ite (wfOut_takeTrap h) ?_))
  split
  · exact wfOut_takeTrap h
  · split
    · exact wfOut_takeTrap h
    · refine wfOut_ite h (wfOut_finish (resAll_andThen (hf _ _ (wf_dropAhead (wf_drainStores s h))) fun _ s h => ?_))
      exact wf_advance h

theorem wf_mapRange {off len va s} (h : Wf s) : Wf (mapRange off len va s) := by
  have hdrained := wf_drainStash (lo := stashPa s.ct.lcore (rangeLo s off)) (len := len) h
  unfold mapRange
  exact wf_onTask hdrained

theorem wfOut_execSmap {a b c s} (h : Wf s) : WfOut (execSmap a b c s) := by
  unfold execSmap
  exact wfOut_onRange h fun _ _ h => resAll_ok (wf_mapRange h)

theorem wfOut_execSunmap {a b s} (h : Wf s) : WfOut (execSunmap a b s) := by
  unfold execSunmap
  exact wfOut_onRange h fun _ s h => resAll_andThen (wf_cleanRange _ _ s h) fun _ s h => resAll_ok (wf_onTask (wf_sunmapRange s _ _ _ h))

theorem wfOut_execSflush {a b s} (h : Wf s) : WfOut (execSflush a b s) := by
  unfold execSflush
  exact wfOut_onRange h fun _ s h => wf_cleanRange _ _ s h

end Sys2Proof.Laws

/-!
SUPPORT. The canonical form of memory through Korier's services: pages and panels, reflection and the actions of its handler, the end of a task by a trap, and
CONTAIN (R162, R238, R242, R267, R271, R307).
-/

namespace Sys2Proof.Laws

open Sys2Proof.Machine

/-! Pages and panels (R162, R238). -/

theorem wf_failJob {s f j} (h : Wf s) : Wf (failJob s f j) := by
  unfold failJob
  split
  · exact wf_dropPanel (wf_putJob h)
  · exact wf_putJob h

theorem wf_resumeJob {s f j} (h : Wf s) : Wf (resumeJob s f j) := by
  unfold resumeJob
  extract_lets done pos present go
  have hdone : ∀ s, Wf s → Wf (done s) := fun _ h => h
  have hgo : ∀ s, Wf s → Wf (go s) := fun s h => hdone _ (wf_putJob h)
  clear_value go done present
  refine wf_ite (hgo s h) (wf_ite ?_ (wf_failJob (hdone s h)))
  have hpage := wf_servicePage (c := f.core) (troot := j.troot) (va := f.sfva) h
  generalize servicePage _ _ _ _ = r at hpage ⊢
  cases r with
  | ok _ s1 => exact hgo s1 hpage
  | trap _ _ => exact hpage
  | wait _ _ => exact hpage
  | gone s1 => exact wf_containTaskId (wf_failJob (hdone s1 hpage))

theorem wf_pagerFence {s} (h : Wf s) : Wf (pagerFence s) := wf_dropAhead (wf_releaseAll s h)

theorem wfOut_afterPages {r f} (h : ResAll Wf r) (hf : ∀ s, Wf s → WfOut (f s)) : WfOut (afterPages r f) := by
  cases r with
  | ok _ _ => exact hf _ (wf_pagerFence h)
  | trap _ _ => exact h
  | wait _ _ => exact h
  | gone _ => exact h

theorem wf_holdFault {s} (h : Wf s) : Wf (holdFault s) := wf_ite h h

theorem wfOut_execPageAbsentService {s} (h : Wf s) : WfOut (execPageAbsentService s) := by
  unfold execPageAbsentService
  split
  · exact wfOut_afterPages (wf_serviceRecord h) fun _ => wfOut_returnFromTrap
  · exact wfOut_returnFromTrap h
  · extract_lets s1
    have hs1 : Wf s1 := wf_holdFault h
    clear_value s1
    split
    · exact wf_resumeJob hs1
    · exact hs1

theorem wfOut_execPanelRefill {s} (h : Wf s) : WfOut (execPanelRefill s) := by
  unfold execPanelRefill
  split
  next r _ =>
    refine wfOut_ite h ?_
    have hsources := wf_readySources (cx := userCtx s) (o := fillOpOf r.instr r.alg) (c := FillCard.parse r.card) h
    generalize readySources _ _ _ _ = a at hsources ⊢
    cases a with
    | ok _ _ => exact wfOut_returnFromTrap (wf_startFill hsources)
    | trap _ _ | wait _ _ | gone _ => exact wfOut_returnFromTrap (wf_startFill h)
  next => exact h

/-! Reflection (R242). -/

theorem wf_writeFrame {p s} (h : Wf s) : Wf (writeFrame p s) := wf_storeNow _ _ _ _ _ (wf_dropOwn _ _ _ _ (wf_dropOwn s _ _ _ h))

theorem wf_enter {s : State} {l a} (h : Wf s) : Wf (s.enter l a) := h

theorem wf_enterHandler {s} (h : Wf s) : Wf (enterHandler s) := by
  unfold enterHandler
  extract_lets s1 s2
  have hs2 : Wf s2 := h
  exact wf_enter (wf_setX (wf_swapBank hs2))

theorem wf_endTask {s} (h : Wf s) : Wf (endTask s) := h

theorem wf_setCode {c s} (h : Wf s) : Wf (setCode c s) := h

theorem wfOut_reflectTrap : ∀ {n s}, Wf s → WfOut (reflectTrap n s)
  | n, s, h => by
    unfold reflectTrap
    have hplace := wf_resolve (userCtx s) { kind := 2 } s.ct.task.frame 64 s h
    generalize resolve _ _ _ _ _ = a at hplace ⊢
    cases a with
    | ok p s1 => exact wf_enterHandler (wf_writeFrame hplace)
    | trap t s1 =>
      refine wfOut_ite h (wfOut_ite ?_ (wf_endTask h))
      cases n with
      | zero => exact h
      | succ n => exact wfOut_afterPages (wf_servicePage hplace) fun _ => wfOut_reflectTrap
    | wait _ _ => exact hplace
    | gone _ => exact hplace

theorem wf_returnNext {s} (h : Wf s) : Wf (returnNext s) := h

theorem wf_registerHandler {s} (h : Wf s) : Wf (registerHandler s) := by
  unfold registerHandler
  exact wf_ite (wf_returnNext (wf_setX (wf_onTask h))) (wf_ite (wf_returnNext (wf_setX (wf_onTask h))) (wf_returnNext (wf_setX h)))

theorem wf_ringBase {s} (h : Wf s) : Wf (ringBase s) := by
  unfold ringBase
  extract_lets c give b
  have hgive : ∀ s b, Wf s → Wf (give s b) := fun s b h => wf_returnNext (wf_setX (wf_setX (wf_logged h)))
  clear_value give
  refine wf_ite (wf_returnNext (wf_setX h)) ?_
  split
  · exact wf_ite (hgive _ _ h) (wf_returnNext (wf_setX h))
  · split
    · exact hgive _ _ h
    · exact hgive _ _ h

/-! The actions of sysc 2 (R242). -/

theorem wf_onVec {s : State} {f} (h : Wf s) : Wf (s.onVec f) := h

theorem wf_onUli {s : State} {f} (h : Wf s) : Wf (s.onUli f) := h

theorem wf_leaveHandler {s} (h : Wf s) : Wf (leaveHandler s) := by
  unfold leaveHandler
  extract_lets s1 s2
  have hs1 : Wf s1 := wf_onUli (wf_swapBank h)
  clear_value s1
  have hs2 : Wf s2 := wf_onVec hs1
  clear_value s2
  exact wf_onTask (wf_onSup hs2)

theorem wf_inactive {e is s} (h : Wf s) : Wf (inactive e is s) := by
  unfold inactive
  refine wf_ite h ?_
  extract_lets s1
  have hs1 : Wf s1 := wf_foldl (fun _ _ h => wf_foldl (fun _ _ h => wf_setElem h) h) h
  clear_value s1
  split
  · exact wf_setPred hs1
  · exact hs1

theorem wf_tails {e s} (h : Wf s) : Wf (tails e s) := by
  unfold tails
  extract_lets s1
  have hs1 : Wf s1 := wf_foldl (fun _ _ h => wf_writeTail h) h
  clear_value s1
  split
  · exact wf_setPred hs1
  · exact hs1

theorem wf_completeStopped {e s} (h : Wf s) : Wf (completeStopped e s) := by
  unfold completeStopped
  extract_lets rest s1 s2
  have hs1 : Wf s1 := wf_ite h (wf_tails (wf_inactive h))
  have hs2 : Wf s2 := wf_resumeStopped (wf_enter hs1)
  clear_value s2 s1
  split
  · exact wf_completeHead hs2
  · exact hs2

theorem wfOut_skipIndexed {e f s} (h : Wf s) : WfOut (skipIndexed e f s) := by
  unfold skipIndexed
  extract_lets p s1
  have hs1 : Wf s1 := wf_onVec (wf_inactive h)
  clear_value s1
  split
  · exact wf_completeStopped hs1
  · exact wfOut_returnFromTrap (wf_onVec (wf_inactive hs1))

theorem wfOut_skipOrdered {e f s} (h : Wf s) : WfOut (skipOrdered e f s) := by
  unfold skipOrdered
  extract_lets s1
  have hs1 : Wf s1 := wf_onVec (wf_inactive h)
  clear_value s1
  exact wfOut_ite (wfOut_returnFromTrap hs1) (wf_completeStopped (wf_tails hs1))

theorem wf_skipInstruction {s} (h : Wf s) : Wf (skipInstruction s) := by
  unfold skipInstruction
  split
  · exact wf_returnNext h
  · exact wf_completeStopped h

theorem wfOut_handlerAction {a s} (h : Wf s) : WfOut (handlerAction a s) := by
  unfold handlerAction
  split
  · exact wfOut_ite (wf_returnNext h) (wfOut_returnFromTrap h)
  · split
    · exact wfOut_ite (wf_skipInstruction h) (wfOut_ite (wfOut_skipIndexed h) (wfOut_skipOrdered h))
    · exact wf_skipInstruction h
  · exact wf_skipInstruction h
  · exact wf_endTask h

theorem wfOut_execTrapReflect {s} (h : Wf s) : WfOut (execTrapReflect s) := by
  unfold execTrapReflect
  split
  · exact wfOut_reflectTrap (wf_setCode h)
  · exact wf_registerHandler h
  · exact wfOut_handlerAction (wf_leaveHandler h)
  · exact wf_ringBase h
  · exact wf_holdFault h

/-! The end of a task by a trap, and CONTAIN (R242, R271). -/

theorem wf_writeTaskError {t a b c n s} (h : Wf s) : Wf (writeTaskError t a b c n s) := wf_errorRecord h

theorem wf_writeKeptOf {t s} (h : Wf s) : Wf (writeKeptOf t s) := wf_foldl (fun _ _ h => wf_writeTaskError h) h

theorem wf_writeKept {s} (h : Wf s) : Wf (writeKept s) := wf_writeKeptOf h

/-- The state after a delivery keeps the form of memory. -/
def WfDelivered : Delivered → Prop
  | .done s => Wf s
  | .held s => Wf s
  | .gone s => Wf s

theorem wfDelivered_ite {x y} {c : Prop} [Decidable c] (hx : WfDelivered x) (hy : WfDelivered y) : WfDelivered (if c then x else y) := by
  split <;> assumption

theorem wfDelivered_trapDeliver {cont code} : ∀ {n s}, Wf s → WfDelivered (trapDeliver cont code n s)
  | n, s, h => by
    unfold trapDeliver
    have hdeliver := wf_deliver (cx := userCtx s) (cont := cont) (slot := s.ct.task.slot) (v := code.setWidth 64) h
    generalize deliver _ _ _ _ _ = r at hdeliver ⊢
    cases r with
    | ok _ _ => exact hdeliver
    | wait _ _ => exact hdeliver
    | gone _ => exact hdeliver
    | trap t s1 =>
      have hskip : ∀ a b c k, Wf (writeTaskError s.ct a b c k s1) := fun _ _ _ _ => wf_writeTaskError hdeliver
      refine wfDelivered_ite h ?_
      cases n with
      | zero => exact hskip _ _ _ _
      | succ n =>
        refine wfDelivered_ite (wfDelivered_trapDeliver (wf_onCore hdeliver)) (wfDelivered_ite ?_ (hskip _ _ _ _))
        have hpage := wf_servicePage (c := s.ct.lcore) (troot := s.ct.sup.troot) (va := t.sfva) hdeliver
        generalize servicePage _ _ _ _ = a at hpage ⊢
        cases a with
        | ok _ _ => exact wfDelivered_trapDeliver (wf_pagerFence hpage)
        | trap _ _ => exact hpage
        | wait _ _ => exact hpage
        | gone _ => exact hpage

theorem wf_finishEnd {c s} (h : Wf s) : Wf (finishEnd c s) := wf_writeTaskError (wf_releaseTask h)

theorem wf_trapEnd {c s} (h : Wf s) : Wf (trapEnd c s) := by
  unfold trapEnd
  extract_lets s1 s2
  have hs1 : Wf s1 := wf_onVec (wf_endTask h)
  have hs2 : Wf s2 := wf_releaseAll _ (wf_writeKept hs1)
  clear_value s2 s1
  refine wf_ite ?_ (wf_ite hs1 (wf_ite hs2 ?_))
  · split
    next t _ =>
      refine wf_ite ?_ hs1
      have hrecord := wf_serviceRecord (c := s1.ct.lcore) (troot := s1.ct.sup.troot) (sfva := t.sfva) (stride := t.sfstride) (rem := t.sfrem)
        (width := t.sfwidth) hs1
      generalize serviceRecord _ _ _ _ _ _ _ = a at hrecord ⊢
      cases a with
      | ok _ _ => exact wf_pagerFence hrecord
      | trap _ _ => exact hrecord
      | wait _ _ => exact hrecord
      | gone _ => exact hrecord
    next => exact hs1
  · split
    · exact wf_finishEnd hs2
    next k _ =>
      have hend := wfDelivered_trapDeliver (cont := k) (code := c) (n := 4) hs2
      generalize trapDeliver _ _ _ _ = a at hend ⊢
      cases a with
      | done _ => exact wf_finishEnd hend
      | held _ => exact hend
      | gone _ => exact hend

theorem wfOut_execTaskTrapEnd {s} (h : Wf s) : WfOut (execTaskTrapEnd s) := by
  unfold execTaskTrapEnd
  split
  · exact wf_trapEnd (wf_setCode h)
  · exact wf_holdFault h

theorem wf_record {s : State} {t p} (h : Wf s) : Wf (s.record t p) := h

theorem wfOut_execContain {s} (h : Wf s) : WfOut (execContain s) := by
  unfold execContain
  refine wfOut_ite h (wfOut_ite h (wfOut_ite h ?_))
  extract_lets t cause sepc s1 s2 s3 s4 s5
  have hs1 : Wf s1 := wf_record h
  have hs2 : Wf s2 := wf_foldl (fun _ _ h => wf_freeIssue h) (wf_discardRecords (wf_releaseAll s1 hs1))
  have hs3 : Wf s3 := wf_loseTask hs2
  have hs4 : Wf s4 := wf_releaseGrant s3 _ _ _ _ hs3
  clear_value s4 s3 s2 s1
  have hs5 : Wf s5 := wf_writeTaskError (wf_writeKeptOf (wf_dropAhead (s := { s4 with ct := _ }) hs4))
  exact wf_loseChunkOf hs5

theorem wfOut_execSpillAreaExtension {core more s} (h : Wf s) : WfOut (execSpillAreaExtension core more s) :=
  wfOut_ite (wfOut_returnFromTrap (wf_onCore h)) (wf_onCore h)

end Sys2Proof.Laws

/-!
SUPPORT. The canonical form of memory through the steps of the host, the mailbox, the distributors, firmware and the loader: queues and launches, memory seen
from outside, readiness, fencing, reset and code objects (R90 to R95, R262 to R276, R51).
-/

namespace Sys2Proof.Laws

open Sys2Proof.Machine

theorem wf_onPkg {s : State} {f} (h : Wf s) : Wf (s.onPkg f) := h

theorem wf_answer {s : State} {a} (h : Wf s) : Wf (s.answer a) := h

theorem wf_push {s : State} {is} (h : Wf s) : Wf (s.push is) := h

theorem wf_onReady {s : State} {f} (h : Wf s) : Wf (s.onReady f) := h

theorem wf_mapThreads {s : State} {f} (h : Wf s) : Wf (s.mapThreads f) := h

theorem wf_onQueue {s : State} {q f} (h : Wf s) : Wf (s.onQueue q f) := h

/-! Submission queues (R90, R91, R265, R266). -/

theorem wfOut_execRegisterQueue {q r s} (h : Wf s) : WfOut (execRegisterQueue q r s) := by
  unfold execRegisterQueue
  extract_lets k s1
  have hs1 : Wf s1 := wf_ite h (wf_readPhys h)
  clear_value s1
  exact wfOut_ite hs1 h

theorem wfOut_execUnregisterQueue {q s} (h : Wf s) : WfOut (execUnregisterQueue q s) := wfOut_ite h (wfOut_ite h h)

theorem wf_masterError {s k seq addr} (h : Wf s) : Wf (masterError s k seq addr) := wf_errorRecord h

theorem wf_pickUp {s k pos} (h : Wf s) : Wf (pickUp s k pos) := by
  unfold pickUp
  extract_lets pa s0 r l s1 s2
  have hs0 : Wf s0 := wf_readyRead _ _ _ _ (wf_askDie s _ _ h)
  have hs1 : Wf s1 := wf_launchRecord hs0
  have hs2 : Wf s2 := wf_onPkg hs1
  clear_value s2 s1
  exact wf_ite h (wf_ite (wf_masterError hs1) (wf_ite (wf_finishLaunch hs2) (wf_ite (wf_finishLaunch hs2) (wf_ite (wf_finishLaunch hs2) hs2))))

theorem wf_takeTail {s k tail} (h : Wf s) : Wf (takeTail s k tail) := by
  unfold takeTail
  refine wf_ite (wf_onQueue (wf_masterError h)) (wf_ite h ?_)
  extract_lets s1
  have hs1 : Wf s1 := wf_foldl (fun _ _ h => wf_pickUp h) h
  exact wf_dealAll (wf_onQueue (wf_writePhys hs1))

theorem wf_readHead {s k} (h : Wf s) : Wf (readHead s k).2 := by
  unfold readHead
  split
  · exact wf_onQueue (wf_readPhys h)
  · exact h

theorem wf_snoopTail {s k} (h : Wf s) : Wf (snoopTail s k) := wf_ite h (wf_takeTail (wf_readPhys (wf_readHead h)))

theorem wfOut_execTailSnoop {q s} (h : Wf s) : WfOut (execTailSnoop q s) := by
  unfold execTailSnoop
  split
  · exact wfOut_ite h (wf_snoopTail h)
  · exact h

/-! The mailbox and data-object exchange. -/

theorem wfOut_execSetPowerCap {w s} (h : Wf s) : WfOut (execSetPowerCap w s) := wfOut_ite h h

theorem wfOut_execGetFwInfo {s} (h : Wf s) : WfOut (execGetFwInfo s) := h

theorem wfOut_execTransferFw {im s} (h : Wf s) : WfOut (execTransferFw im s) := h

theorem wfOut_execActivateFw {s} (h : Wf s) : WfOut (execActivateFw s) := h

theorem wfOut_execGetMeasurements {s} (h : Wf s) : WfOut (execGetMeasurements s) := h

theorem wfOut_execSpdmRequest {r s} (h : Wf s) : WfOut (execSpdmRequest r s) := h

/-! Memory seen by the host and by peers (R264, R268). -/

/-! The register accesses are folded as variables: the kernel is not to evaluate them at a variable address. -/

theorem wf_foldl_read {read : State → Nat → Nat → Nat × State} (hread : ∀ s pa n, Wf s → Wf (read s pa n).2) {addr : Nat} {ls : List Nat}
    {acc : List Byte × State} (h : Wf acc.2) :
    Wf (ls.foldl (fun acc i => let r := read acc.2 (addr + i) 1; (acc.1 ++ [BitVec.ofNat 8 r.1], r.2)) acc).2 :=
  foldl_keep (P := fun a : List Byte × State => Wf a.2) (fun _ _ h => hread _ _ _ h) _ _ h

theorem wf_barRead {s addr len} (h : Wf s) : Wf (barRead s addr len).2 := by
  rw [barRead]
  exact wf_foldl_read (read := devRead) (fun _ _ _ => wf_devRead) h

theorem wf_foldl_write {write : State → Nat → Nat → Nat → State} (hwrite : ∀ s pa n v, Wf s → Wf (write s pa n v)) {addr : Nat} {bytes : List Byte}
    {ls : List Nat} {s : State} (h : Wf s) :
    Wf (ls.foldl (fun s i =>
      let lo := max addr (8 * (addr / 8 + i))
      let bs := (bytes.drop (lo - addr)).take (8 * (addr / 8 + i + 1) - lo)
      write s lo bs.length (leNat bs)) s) :=
  wf_foldl (fun _ _ h => hwrite _ _ _ _ h) h

theorem wf_barWrite {s addr bs} (h : Wf s) : Wf (barWrite s addr bs) := by
  rw [barWrite]
  exact wf_foldl_write (write := devWrite) (fun _ _ _ _ => wf_devWrite) h

theorem wfOut_execHostMemRead {addr len s} (h : Wf s) : WfOut (execHostMemRead addr len s) := by
  unfold execHostMemRead
  refine wfOut_ite h (wfOut_ite (wfOut_ite (wf_answer h) (wf_answer (wf_barRead h))) (wfOut_ite h (wfOut_ite (wf_answer h) ?_)))
  extract_lets s1 ls s2
  have hs1 : Wf s1 := wf_readyRead s _ _ _ h
  clear_value s1
  exact hs1

theorem wf_outsideWrite {s pa bs} (h : Wf s) : Wf (outsideWrite s pa bs) := wf_performHome _ _ _ _ _ (wf_drainTranslated s _ _ _ h)

theorem wfOut_execHostMemWrite {addr bs s} (h : Wf s) : WfOut (execHostMemWrite addr bs s) := by
  unfold execHostMemWrite
  extract_lets n lost s1 s2
  have hs1 : Wf s1 := h
  have hs2 : Wf s2 := wf_ite (wf_answer (wf_foldl (fun _ _ h => wf_ite h (wf_outsideWrite h)) hs1)) (wf_outsideWrite hs1)
  clear_value s2 s1
  exact wfOut_ite h (wfOut_ite (wf_ite (wf_answer h) (wf_barWrite h)) (wfOut_ite h (wf_push hs2)))

theorem wfOut_execBackInvalidateResponse {l s} (h : Wf s) : WfOut (execBackInvalidateResponse l s) := h

theorem wf_receivePacket {s d c} (h : Wf s) : Wf (receivePacket s d c) := wf_onDie h

theorem wfOut_execPeerAccess {p off bs s} (h : Wf s) : WfOut (execPeerAccess p off bs s) := by
  unfold execPeerAccess
  exact wfOut_ite h (wf_outsideWrite (wf_receivePacket h))

theorem wfOut_execLinkReplay {p s} (h : Wf s) : WfOut (execLinkReplay p s) := h

theorem wfOut_execCxlCacheSnoop {l s} (h : Wf s) : WfOut (execCxlCacheSnoop l s) := h

/-! Readiness (R273). -/

theorem wf_snoopAll {s} (h : Wf s) : Wf (snoopAll s) := h

theorem wf_wakeJobs {s} (h : Wf s) : Wf (wakeJobs s) := h

theorem wfOut_execReadyReport {f s} (h : Wf s) : WfOut (execReadyReport f s) := by
  unfold execReadyReport
  refine wfOut_ite h ?_
  cases f with
  | die d => exact wfOut_ite h (wf_snoopAll (wf_dealAll (wf_onDie h)))
  | core c => exact wfOut_ite h (wf_dealAll (wf_onReady h))
  | link p => exact wfOut_ite h (wf_onReady h)
  | host => exact wf_snoopAll (wf_onReady h)

theorem wfOut_execMemTrained {d s} (h : Wf s) : WfOut (execMemTrained d s) :=
  wfOut_ite h (wf_snoopAll (wf_wakeJobs (wf_payOwed (wf_onReady h))))

theorem wf_containStores {s} (h : Wf s) : Wf (containStores s) := by
  unfold containStores
  extract_lets lostLate tasks kept
  have hkept : Wf kept := h
  clear_value kept
  exact wf_containParked (wf_foldl (fun _ _ h => wf_containTaskId h) hkept)

theorem wfOut_execMemDeviceFailure {d s} (h : Wf s) : WfOut (execMemDeviceFailure d s) := by
  unfold execMemDeviceFailure
  extract_lets s1 other pair
  have hs1 : Wf s1 := wf_onReady h
  clear_value s1
  exact wfOut_ite (wf_snoopAll (wf_wakeJobs (wf_payOwed (wf_containStores (wf_onPkg hs1))))) (wf_snoopAll (wf_wakeJobs (wf_payOwed hs1)))

/-! Fencing (R95, R270 to R272). -/

theorem wf_poisonOwned {lost s} (h : Wf s) : Wf (poisonOwned lost s) := by
  unfold poisonOwned
  extract_lets inLost isLost s1 lines
  have hs1 : Wf s1 := wf_performWhere _ s h
  clear_value s1
  exact hs1

theorem wf_loseCores {lost dealt s} (h : Wf s) : Wf (loseCores lost dealt s) := by
  unfold loseCores
  extract_lets tasks entries held chunks free s1 s2 s3 s4
  have hs1 : Wf s1 := wf_onPkg (wf_mapThreads h)
  clear_value s1
  have hs2 : Wf s2 := wf_foldl (fun _ _ h => wf_onCore h) hs1
  clear_value s2
  have hs3 : Wf s3 := wf_foldl (fun _ _ h => wf_loseTask h) hs2
  clear_value s3
  have hs4 : Wf s4 := wf_foldl (fun _ _ h => h) hs3
  exact wf_foldl (fun _ _ h => wf_loseChunk h) hs4

theorem wf_spareFails {c s} (h : Wf s) : Wf (spareFails c s) := wf_ite (wf_onReady h) h

theorem wf_fenceCore {c s} (h : Wf s) : Wf (fenceCore c s) := by
  unfold fenceCore
  refine wf_ite h ?_
  extract_lets s1
  have hs1 : Wf s1 := wf_onReady (wf_onPkg h)
  clear_value s1
  exact wf_dealAll (wf_loseCores (wf_poisonOwned (wf_spareFails hs1)))

theorem wf_containPosts {d s} (h : Wf s) : Wf (containPosts d s) := wf_mapThreads h

theorem wf_moveOrderPoints {s} (h : Wf s) : Wf (moveOrderPoints s) := by
  unfold moveOrderPoints
  refine wf_foldl (fun s c h => ?_) h
  exact wf_ite (wf_onChan h) h

theorem wf_fenceDie {d s} (h : Wf s) : Wf (fenceDie d s) := by
  unfold fenceDie
  exact wf_ite h (wf_snoopAll (wf_dealAll (wf_loseCores (wf_moveOrderPoints (wf_poisonOwned (wf_onReady (wf_onDie (wf_containPosts h))))))))

theorem wf_fenceAgent {a s} (h : Wf s) : Wf (fenceAgent a s) := by
  unfold fenceAgent
  refine wf_containStores ?_
  cases a with
  | core c => exact wf_fenceCore h
  | die d => exact wf_fenceDie h
  | link p => exact wf_onReady h
  | host => exact wf_onReady h

theorem wfOut_execAgentTimeout {a s} (h : Wf s) : WfOut (execAgentTimeout a s) := wf_fenceAgent h

theorem wfOut_execInternalError {a s} (h : Wf s) : WfOut (execInternalError a s) := wf_fenceAgent h

theorem wfOut_execSpareService {k s} (h : Wf s) : WfOut (execSpareService k s) := by
  unfold execSpareService
  dsimp only
  split
  · exact h
  · exact wfOut_ite h (wf_dealAll (wf_onCore (wf_mapThreads (wf_onReady (wf_onPkg h)))))

theorem wfOut_execColumnFail {c s} (h : Wf s) : WfOut (execColumnFail c s) := wfOut_ite (wf_onCore h) (wf_fenceAgent h)

theorem wfOut_execBstoreParityError {c r s} (h : Wf s) : WfOut (execBstoreParityError c r s) := wf_onCore h

theorem wfOut_execClockChange {d c k s} (h : Wf s) : WfOut (execClockChange d c k s) := wf_produce (wf_onDie h)

/-! Reset and code objects (R51, R274). -/

/-- What a reset leaves of memory is a part of it. -/
theorem wfOut_execDeviceReset {s} (h : Wf s) : WfOut (execDeviceReset s) := mem_wf_filter (fun c => decide (2 ^ 50 ≤ c.1)) h

theorem wfOut_execCodeObjectLoad {im pa va ps s} (h : Wf s) : WfOut (execCodeObjectLoad im pa va ps s) := by
  unfold execCodeObjectLoad
  exact wfOut_ite h (wf_onPkg (wf_writePhys (wf_writePhys h)))

end Sys2Proof.Laws

/-!
SUPPORT. The canonical form of memory through the steps of the memory system and of Electrum, and the turn of a vector stream (R83, R207, R234, R236, R253,
R278, R287).
-/

namespace Sys2Proof.Laws

open Sys2Proof.Machine

/-! The memory system. -/

theorem wfOut_execTranslationInvalidate {l s} (h : Wf s) : WfOut (execTranslationInvalidate l s) :=
  wf_dropTranslations _ _ _ _ (wf_drainFor _ s h)

theorem wfOut_execDirtyWriteback {l s} (h : Wf s) : WfOut (execDirtyWriteback l s) := by
  unfold execDirtyWriteback
  extract_lets line own s1 tell from_
  have hs1 : Wf s1 := wf_settle s _ _ h
  have htell : ∀ s c, Wf s → Wf (tell s c) := fun _ _ h => wf_ite (wf_packet h) (wf_packet h)
  clear_value tell from_ s1
  have htold : ∀ os : List (Nat × Nat), Wf (os.foldl (fun s o => tell s o.2) s1) := fun os => wf_foldl (fun _ _ h => htell _ _ h) hs1
  refine wf_onMem (fun m => ?_) (htold _)
  split
  · rfl
  · split <;> rfl

theorem wfOut_execWritebackForward {l s} (h : Wf s) : WfOut (execWritebackForward l s) := by
  unfold execWritebackForward
  extract_lets line s1 s2
  have hs1 : Wf s1 := wf_settle s _ _ h
  clear_value s1
  have hs2 : Wf s2 := wf_foldl (fun s _ h => wf_packet (wf_askDie s _ _ h)) hs1
  clear_value s2
  exact hs2

theorem wfOut_execStashRemoteRead {l s} (h : Wf s) : WfOut (execStashRemoteRead l s) := wf_syncStash s _ _ h

theorem wfOut_execStashRemoteWrite {l s} (h : Wf s) : WfOut (execStashRemoteWrite l s) := wf_syncStash s _ _ h

theorem wfOut_execUpdateArrival {u s} (h : Wf s) : WfOut (execUpdateArrival u s) := by
  unfold execUpdateArrival
  refine wfOut_ite h ?_
  extract_lets s1
  have hs1 : Wf s1 := wf_packet h
  clear_value s1
  split
  · exact wf_joinChain s1 _ _ _ hs1
  · exact wf_joinChain _ _ _ _ (wf_settleDword s1 _ hs1)

theorem wfOut_execChainApply {d s} (h : Wf s) : WfOut (execChainApply d s) := by
  unfold execChainApply
  extract_lets dw s1
  have hs1 : Wf s1 := wf_settleDword s _ h
  clear_value s1
  exact wf_ite hs1 (wf_countEvent hs1)

theorem wfOut_execStoreBufferDrain {s} (h : Wf s) : WfOut (execStoreBufferDrain s) := wf_drainOne s 0 h

theorem wfOut_execHardwarePrefetch {va s} (h : Wf s) : WfOut (execHardwarePrefetch va s) := by
  unfold execHardwarePrefetch
  refine wfOut_ite (wf_countEvent h) ?_
  generalize translate s.ctx { kind := 1, spec := true } va s = a
  cases a with
  | ok p _ =>
    dsimp only
    have hwalk := wf_walk s.ctx va s h
    generalize walk s.ctx va s = r at hwalk ⊢
    split
    · exact wfOut_ite h (wf_onMem (fun _ => rfl) (wf_l1Read _ _ _ _ hwalk))
    · exact h
  | trap _ _ => exact wf_countEvent h
  | wait _ _ => exact h
  | gone _ => exact h

/-! Electrum. -/

theorem wfOut_onBlock {d f s} (h : Wf s) : WfOut (onBlock d f s) := by
  unfold onBlock
  exact wf_ite h (wf_onEl h)

theorem wfOut_execEctlClr {d s} (h : Wf s) : WfOut (execEctlClr d s) := wfOut_onBlock h

theorem wfOut_execEctlUnfreeze {d s} (h : Wf s) : WfOut (execEctlUnfreeze d s) := wfOut_onBlock h

theorem wfOut_execElostClear {d s} (h : Wf s) : WfOut (execElostClear d s) := wfOut_onBlock h

theorem wfOut_execCounterClear {d k s} (h : Wf s) : WfOut (execCounterClear d k s) := wfOut_onBlock h

theorem wfOut_execHistClear {d c e s} (h : Wf s) : WfOut (execHistClear d c e s) := wfOut_onBlock h

theorem wfOut_execTrigFiredClear {d n s} (h : Wf s) : WfOut (execTrigFiredClear d n s) := wfOut_onBlock h

theorem wfOut_execElectrumRegisterWrite {d off v s} (h : Wf s) : WfOut (execElectrumRegisterWrite d off v s) := wfOut_onBlock h

theorem wfOut_execEngineRequestDone {c e l s} (h : Wf s) : WfOut (execEngineRequestDone c e l s) := wf_requestDone h

theorem wfOut_execTriggerGlobalArrival {d a k s} (h : Wf s) : WfOut (execTriggerGlobalArrival d a k s) := by
  unfold execTriggerGlobalArrival
  exact wf_ite h (wf_applyActs (wf_receivePacket h))

theorem wfOut_execIllegalInstruction {w s} (h : Wf s) : WfOut (execIllegalInstruction w s) := wfOut_takeTrap h

/-! The turn of a vector stream (R83). -/

theorem wf_landHead {s} (h : Wf s) : Wf (landHead s) := by
  unfold landHead
  refine wf_ite h ?_
  split
  · exact wf_landWhere _ s h
  · exact h

theorem wfOpt_vectorTurn {s} (h : Wf s) : WfOpt (vectorTurn s) := by
  unfold vectorTurn
  exact wfOpt_ite (wfOpt_map_next (wf_owingStep h)) (wfOpt_vectorStep (wf_landHead h))

theorem wfOut_execVectorComplete {c n s} (h : Wf s) : WfOut (execVectorComplete c n s) := by
  unfold execVectorComplete
  refine wfOut_ite h ?_
  have hturn := wfOpt_vectorTurn (wf_switchTo (c := c) (n := n) h)
  generalize vectorTurn (s.switchTo c n) = o at hturn ⊢
  cases o with
  | some _ => exact wfOut_backTo hturn
  | none => exact h

end Sys2Proof.Laws

/-!
SUPPORT. The canonical form of memory through every instruction, and through a step of the machine.
-/

namespace Sys2Proof.Laws

open Sys2Proof.Machine

theorem wfOut_execLaneIssue {c s} (h : Wf s) : WfOut (execLaneIssue c s) := by
  unfold execLaneIssue
  exact wf_arbitrate h

theorem wfOut_execArrayIssue {c s} (h : Wf s) : WfOut (execArrayIssue c s) := by
  unfold execArrayIssue
  exact wf_arbitrate h

/-- Each instruction by the lemma about its meaning; instructions of one shape share the lemma about the shape. -/
theorem wfOut_exec {i s} (h : Wf s) : WfOut (exec i s) := by
  cases i <;> rw [exec]
  case add | sub | and | or | xor | shl | shr | sar | slt | sltu | mul | mulh | mulhu | div | divu | rem | remu | min | max | popc => exact wfOut_aluRR h
  case addImm | subImm | andImm | orImm | xorImm | shlImm | shrImm | sarImm | sltImm | sltuImm | mulImm | minImm | maxImm => exact wfOut_aluRI h
  case lim | limInsert | addpc | fclass => exact wfOut_writeBack_lb h
  case nop | hint => exact wf_advance h
  case land | landTask => exact wfOut_withProfile h h
  case ld => exact wfOut_execLd h
  case st => exact wfOut_execSt h
  case br | jmp => exact wfOut_jump h
  case jal => exact wfOut_execJal h
  case jalr => exact wfOut_execJalr h
  case fadd | fsub | fmul | fdiv | fsqrt | fma | fcvt => exact wfOut_rounded h
  case fmin | fmax | fcmp => exact wfOut_fpWrite_lb h
  case sysc => exact wfOut_execSysc h
  case brk => exact wfOut_execBrk h
  case sret => exact wfOut_execSret h
  case csrr => exact wfOut_execCsrr h
  case csrw => exact wfOut_execCsrw h
  case waite => exact wfOut_execWaite h
  case amo => exact wfOut_execAmo h
  case fence => exact wfOut_execFence h
  case gjoin => exact wfOut_execGjoin h
  case gleave => exact wfOut_execGleave h
  case gsync => exact wfOut_execGsync h
  case ipost => exact wfOut_execIpost h
  case iwait => exact wfOut_execIwait h
  case cas => exact wfOut_execCas h
  case qpush => exact wfOut_execQpush h
  case qpop => exact wfOut_execQpop h
  case qpopVector | vid | vsplat | vmv | vext | vlast | vextQ | vlastQ | vadd | vsub | vmul | vmulh | vmac | vdiv | vmin | vmax | vand | vor | vxor
    | vshl | vshr | vsar | vsadd | vfadd | vfsub | vfmul | vfdiv | vfmin | vfmax | vfscale | vfsplit | vfsqrt | vfrsqe | vfcvt | vfclass | vfma
    | vcmp | vfcmp | vrsum | vrosum | vrmax | vrmin | vrlog | vrsumQ | vrosumQ | vrmaxQ | vrminQ | vrlogQ | vslup | vsldn | vperm | vcompr | vmerge
    | pand | por | pxor | pnot | pset | pfirst | pbrkBefore | pbrkThru | pcnt | pcntQ | vdep | vdepx | vpart | vamul | vaconj | vaconjRev | vanorm
    | vasand | vld | vlds | vldx | vldff | vst | vsts | vstx | vpref | vldseg | vstseg | vamo | mmac | mzero | mldacc | mcb | mdrainMemory
    | mdrainRegister => exact wfOut_vector h
  case qcnt => exact wfOut_execQcnt h
  case talloc => exact wfOut_execTalloc h
  case tfree => exact wfOut_execTfree h
  case tspawn => exact wfOut_execTspawn h
  case tend => exact wfOut_execTend h
  case tparkGroup => exact wfOut_execTparkGroup h
  case tparkRing => exact wfOut_execTparkRing h
  case tparkTag => exact wfOut_execTparkTag h
  case smap => exact wfOut_execSmap h
  case sunmap => exact wfOut_execSunmap h
  case sflush => exact wfOut_execSflush h
  case uret => exact wfOut_execUret h
  case tmark => exact wfOut_execTmark h
  case algld => exact wfOut_execAlgld h
  case nset => exact wfOut_execNset h
  case nloop => exact wfOut_execNloop h
  case xcopy => exact wfOut_execXcopy h
  case xgath => exact wfOut_execXgath h
  case xcoll => exact wfOut_execXcoll h
  case xwait => exact wfOut_execXwait h
  case vcfg => exact wfOut_execVcfg h
  case mfill => exact wfOut_execMfill h
  case laneIssue => exact wfOut_execLaneIssue h
  case arrayIssue => exact wfOut_execArrayIssue h
  case vectorComplete => exact wfOut_execVectorComplete h
  case translationInvalidate => exact wfOut_execTranslationInvalidate h
  case writebackForward => exact wfOut_execWritebackForward h
  case stashRemoteRead => exact wfOut_execStashRemoteRead h
  case stashRemoteWrite => exact wfOut_execStashRemoteWrite h
  case updateArrival => exact wfOut_execUpdateArrival h
  case chainApply => exact wfOut_execChainApply h
  case taskStart => exact wfOut_execTaskStart h
  case groupOpApply => exact wfOut_execGroupOpApply h
  case orderPointApply => exact wfOut_execOrderPointApply h
  case ringHop => exact wfOut_execRingHop h
  case jobStart => exact wfOut_execJobStart h
  case jobComplete => exact wfOut_execJobComplete h
  case jobPageFault => exact wfOut_execJobPageFault h
  case fillRowWrite => exact wfOut_execFillRowWrite h
  case ulDelivery => exact wfOut_execUlDelivery h
  case preempt => exact wfOut_execPreempt h
  case contain => exact wfOut_execContain h
  case pageAbsentService => exact wfOut_execPageAbsentService h
  case panelRefill => exact wfOut_execPanelRefill h
  case trapReflect => exact wfOut_execTrapReflect h
  case taskTrapEnd => exact wfOut_execTaskTrapEnd h
  case tailSnoop => exact wfOut_execTailSnoop h
  case registerQueue => exact wfOut_execRegisterQueue h
  case unregisterQueue => exact wfOut_execUnregisterQueue h
  case setPowerCap => exact wfOut_execSetPowerCap h
  case getFwInfo => exact wfOut_execGetFwInfo h
  case transferFw => exact wfOut_execTransferFw h
  case activateFw => exact wfOut_execActivateFw h
  case getMeasurements => exact wfOut_execGetMeasurements h
  case hostMemRead => exact wfOut_execHostMemRead h
  case hostMemWrite => exact wfOut_execHostMemWrite h
  case backInvalidateResponse => exact wfOut_execBackInvalidateResponse h
  case peerAccess => exact wfOut_execPeerAccess h
  case linkReplay => exact wfOut_execLinkReplay h
  case deviceReset => exact wfOut_execDeviceReset h
  case readyReport => exact wfOut_execReadyReport h
  case memTrained => exact wfOut_execMemTrained h
  case agentTimeout => exact wfOut_execAgentTimeout h
  case internalError => exact wfOut_execInternalError h
  case spareService => exact wfOut_execSpareService h
  case columnFail => exact wfOut_execColumnFail h
  case bstoreParityError => exact wfOut_execBstoreParityError h
  case clockChange => exact wfOut_execClockChange h
  case ectlClr => exact wfOut_execEctlClr h
  case ectlUnfreeze => exact wfOut_execEctlUnfreeze h
  case elostClear => exact wfOut_execElostClear h
  case counterClear => exact wfOut_execCounterClear h
  case histClear => exact wfOut_execHistClear h
  case trigFiredClear => exact wfOut_execTrigFiredClear h
  case electrumRegisterWrite => exact wfOut_execElectrumRegisterWrite h
  case engineRequestDone => exact wfOut_execEngineRequestDone h
  case triggerGlobalArrival => exact wfOut_execTriggerGlobalArrival h
  case illegalInstruction => exact wfOut_execIllegalInstruction h
  case storeBufferDrain => exact wfOut_execStoreBufferDrain h
  case dirtyWriteback => exact wfOut_execDirtyWriteback h
  case hardwarePrefetch => exact wfOut_execHardwarePrefetch h
  case cxlCacheSnoop => exact wfOut_execCxlCacheSnoop h
  case memDeviceFailure => exact wfOut_execMemDeviceFailure h
  case spillAreaExtension => exact wfOut_execSpillAreaExtension h
  case codeObjectLoad => exact wfOut_execCodeObjectLoad h
  case spdmRequest => exact wfOut_execSpdmRequest h

end Sys2Proof.Laws

/-!
SUPPORT. The canonical form of memory through the streams of a control thread and the schedule, and the obligation (log entry 1).
-/

namespace Sys2Proof.Laws

open Sys2Proof.Machine

/-! The scalar stream (R54 to R58). -/

theorem wf_heldWord {s} (h : Wf s) : ResAll Wf (heldWord s) := by
  unfold heldWord
  split
  · exact h
  · exact wf_fetchWord h

theorem wf_withCausal {s t} (h : Wf t) : Wf (withCausal s t) := by
  unfold withCausal
  exact wf_foldl (fun _ _ h => wf_onDie h) h

theorem wf_currentWord {s} (h : Wf s) : ResAll Wf (currentWord s) := by
  unfold currentWord
  have hheld := wf_heldWord h
  generalize heldWord s = r at hheld ⊢
  cases r with
  | ok w s1 => exact wf_ite hheld (wf_withCausal hheld)
  | trap _ _ => exact hheld
  | wait _ _ => exact hheld
  | gone _ => exact hheld

theorem wf_nextWord {s} (h : Wf s) : ResAll Wf (nextWord s) := by
  unfold nextWord
  split
  · exact resAll_ite h (wf_currentWord (wf_askLog h))
  · exact wf_currentWord (wf_askLog h)

theorem wf_landed {s} (h : Wf s) : Wf (landed s) := h

theorem wfOut_runWord {w s} (h : Wf s) : WfOut (runWord w s) := by
  unfold runWord
  extract_lets s1 s2 i
  have hs1 : Wf s1 := wf_landed h
  clear_value s1
  have hs2 : Wf s2 := wf_ite (wf_scalarBreaks hs1) hs1
  clear_value s2
  exact wfOut_ite (wfOut_takeTrap hs1) (wfOut_ite (wfOut_takeTrap hs1) (wfOut_exec (wf_landFor i s2 hs2)))

theorem wf_waitFetch {s} (h : Wf s) : Wf (waitFetch s) := wf_ite h h

theorem wfOut_scalarStep {s} (h : Wf s) : WfOut (scalarStep s) := by
  unfold scalarStep
  have hword := wf_nextWord h
  generalize nextWord s = r at hword ⊢
  cases r with
  | ok w s1 => exact wfOut_runWord hword
  | trap t s1 => exact wfOut_takeTrap hword
  | wait _ s1 => exact wf_waitFetch hword
  | gone s1 => exact hword

/-! The streams, and what comes before them (R75, R83, R239). -/

theorem wfOut_runStreams {s} (h : Wf s) : WfOut (runStreams s) := by
  unfold runStreams
  refine wfOut_ite (wfOut_scalarStep h) ?_
  have hturn := wfOpt_vectorTurn h
  generalize vectorTurn s = o at hturn ⊢
  cases o with
  | some _ => exact hturn
  | none => exact wfOut_ite h (wfOut_scalarStep h)

theorem wfOut_vectorOrWait {s} (h : Wf s) : WfOut (vectorOrWait s) :=
  wfOut_getD (wfOpt_vectorTurn (wf_waitFetch (wf_askLog h))) (wf_waitFetch (wf_askLog h))

theorem wfOpt_boundaryNow {s} (h : Wf s) : WfOpt (boundaryNow s) := by
  unfold boundaryNow
  refine wfOpt_ite (wfOut_execContain h) (wfOpt_ite ?_ (wfOpt_ite (wfOut_execPreempt h) (wfOpt_ite (wfOut_execUlDelivery h)
    (wfOpt_ite (wfOut_vectorOrWait h) (wfOpt_ite (wfOut_finishStart h) wfOpt_none)))))
  exact wfOut_getD (wfOpt_vectorTurn h) (wfOut_execTaskTrapEnd h)

theorem wfOpt_boundary {s} (h : Wf s) : WfOpt (boundary s) := wfOpt_ite (wfOpt_boundaryNow (wf_landAll h)) wfOpt_none

theorem wfOut_runThread {s} (h : Wf s) : WfOut (runThread s) := by
  unfold runThread
  split
  · exact wfOut_execTaskStart (wf_landAll h)
  · exact wfOut_execContain (wf_landAll h)
  · exact wfOut_getD (wfOpt_boundary h) (wfOut_runStreams h)

/-! The schedule. -/

theorem wfOut_runEvent {i s} (h : Wf s) : WfOut (runEvent i s) := wfOut_exec (wf_ite h (wf_landAll h))

theorem wfOut_runSlot {sl s} (h : Wf s) : WfOut (runSlot sl s) := by
  unfold runSlot
  split
  · exact wfOut_ite (wfOut_runEvent h) h
  · exact wf_ite (wf_switchTo h) h
  · exact wfOut_ite (wfOut_getD (wfOpt_vectorTurn h) h) h
  · exact wfOut_ite (wfOut_getD (wfOpt_boundary h) (wfOut_ite h (wfOut_scalarStep h))) h
  · exact wf_drainOne s _ h
  · exact wf_ite (wf_peekAt s _ _ _ h) h
  · exact wf_forgetEarly s _ h
  · exact wf_performNth s _ h

theorem wfOut_step {s} (h : Wf s) : WfOut (step s) := by
  unfold step runStep
  split
  · exact wfOut_runSlot (s := { s with sched := _ }) h
  · split
    · exact wfOut_runEvent (s := { s with pending := _ }) h
    · exact wfOut_runThread h

/-- Settles O6: what a step does to memory it does by the operations of the state, each of which keeps the form. -/
theorem memoryFormKept : Obligations.MemoryFormKept := by
  unfold Obligations.MemoryFormKept
  intro s t h hstep
  have hout := wfOut_step h
  rw [hstep] at hout
  exact hout

end Sys2Proof.Laws
